-- ==== Sys2Proof/Word.lean ====
section
/-!
DEFINITION. The word types of the device and the sparse tables its state is written in.
-/
namespace Sys2Proof

/-- A 64-bit value: scalar registers, PCs, control registers (R42, R148). -/
abbrev Word := BitVec 64
/-- A 32-bit value: one vector register of one lane, one time register (R41, R76). -/
abbrev W32 := BitVec 32
/-- The smallest addressable unit. -/
abbrev Byte := BitVec 8
/-- One bit per lane of a weft of up to 128 lanes (R148). -/
abbrev LaneMask := BitVec 128
/-- Sparse data by key, keys rising; a key not listed reads as a default the reader names. -/
abbrev Tab (α : Type) := List (Nat × α)
/-- Bytes by address; an address not listed reads as 0 (assumption 6). -/
abbrev Memory := List Host.Cell

end Sys2Proof
end

