-- ==== Sys2Proof/Syntax.lean ====
section
/-!
DEFINITION. The instructions of the Pyruo 9612 as syntax: one constructor per row of the opcode
table. The first 166 rows are words that a weft issues (R200 to R219); the others are the steps that
the device, its host and its peers take (the table of operations and events).
-/
namespace Sys2Proof

/-- Bits [22:18] and [4:2] of every word: predicate, N, H and S (R204, R205). -/
structure Ctl where
  pe : Bool
  pn : Bool
  pi : BitVec 3
  n : Bool
  h : Bool
  s : Bool
  deriving DecidableEq, Repr, Inhabited

/-- DST, bits [31:23] (R206). -/
inductive Dst
  | v (n : Fin 32)
  | s (n : Fin 128)
  | t (n : Fin 4)
  | p (n : Fin 8)
  | z (n : Fin 4)
  | k (n : Fin 12)
  | g (n : Fin 16)
  | none
  deriving DecidableEq, Repr, Inhabited

/-- A source field of 16 bits: kind, number, PERM (R208) and MOD (R209), or an immediate (R207). -/
inductive Src
  | v (n : Fin 32) (perm : BitVec 4) (md : BitVec 3)
  | s (n : Fin 128) (md : BitVec 3)
  | b (n : Fin 4) (perm : BitVec 4) (md : BitVec 3)
  | t (n : Fin 4) (perm : BitVec 4)
  | p (n : Fin 8) (perm : BitVec 4)
  | z (n : Fin 4)
  | k (n : Fin 12)
  | g (n : Fin 16) (md : BitVec 3)
  | imm (x : BitVec 14)
  | none
  deriving DecidableEq, Repr, Inhabited

/-- Control words and literal loads: core fields and a signed offset in 4-byte units (R214). -/
structure CtlW where
  ctl : Ctl
  ty : BitVec 5
  dst : Dst
  a : Src
  b : Src
  off : BitVec 32
  deriving DecidableEq, Repr, Inhabited

/-- ALU words; wide is the 96-bit form, which alone carries SC, RM and SAT (R214, R215). -/
structure AluW where
  ctl : Ctl
  ty : BitVec 5
  dst : Dst
  a : Src
  b : Src
  c : Src
  rm : BitVec 2
  sat : Bool
  wide : Bool
  deriving DecidableEq, Repr, Inhabited

/-- SMOVI's word with its 64-bit immediate (R214). -/
structure MoviW where
  ctl : Ctl
  ty : BitVec 5
  dst : Dst
  a : Src
  b : Src
  imm : BitVec 64
  deriving DecidableEq, Repr, Inhabited

/-- Memory words (R214, R216). -/
structure MemW where
  ctl : Ctl
  ty : BitVec 5
  dst : Dst
  a : Src
  b : Src
  off : BitVec 32
  tsel : Option (Fin 4)
  size : BitVec 3
  ord : BitVec 2
  scope : BitVec 3
  hint : BitVec 3
  subop : BitVec 8
  deriving DecidableEq, Repr, Inhabited

/-- Engine and system words; ext holds bits [127:64], whose fields R315 places. -/
structure EngW where
  ctl : Ctl
  ty : BitVec 5
  dst : Dst
  a : Src
  b : Src
  ext : BitVec 64
  deriving DecidableEq, Repr, Inhabited

/-- One copy of a shuttle chunk: the chunk, and the member that a multicast copies it to (R123). -/
structure ChunkCopy where
  chunk : Nat
  member : Nat
  deriving DecidableEq, Repr, Inhabited

/-- The Engine Queues of R117, one unit of whose work ENGINE_STEP performs. -/
inductive EngineRef
  | shuttle (core ch : Nat) (chunk : ChunkCopy)
  | loomBegin (core : Nat)
  | loomEnd (core : Nat)
  | ringAdmit (core ring : Nat)
  | ringFill (core ring : Nat)
  | foldClose (die fold : Nat)
  | foldFill (req : Nat)
  | cell (req : Nat)
  deriving DecidableEq, Repr, Inhabited

/-- What a peer device asks of this one (R19, R69, R129, R352). -/
inductive PeerOp
  | memRead (pa len : Nat) (so : Bool)
  | memWrite (pa : Nat) (bytes : List (BitVec 8)) (so : Bool)
  | memAtom (pa f ty size x : Nat) (so : Bool)
  | memCas (pa size x y : Nat) (so : Bool)
  | tagRead (pa : Nat)
  | tagWrite (pa : Nat) (tag : BitVec 16)
  | cadd (pa cls ty x : Nat)
  | clrc (pa : Nat)
  | cellRead (pa cls len : Nat)
  | spadRead (core off len : Nat)
  | spadWrite (core off : Nat) (bytes : List (BitVec 8))
  | spadAtom (core off f ty size x : Nat)
  | spadCas (core off size x y : Nat)
  | spadTagRead (core off : Nat)
  | spadTagWrite (core off : Nat) (tag : BitVec 16)
  | ringPut (core ring : Nat) (body : List (BitVec 8))
  deriving DecidableEq, Repr, Inhabited

/-- A request that arrives from tenant `tenant` of device `dev`. -/
structure PeerReq where
  dev : Nat
  tenant : Nat
  op : PeerOp
  deriving DecidableEq, Repr, Inhabited

/-- The register that REGISTER_WRITE names: a control register of a weft, a word of the management
block, of a tenant block or of a context table entry (R263, R351, R354, R355). -/
inductive RegRef
  | control (core slot num : Nat)
  | management (off : Nat)
  | tenant (tenant off : Nat)
  | context (ctx off : Nat)
  deriving DecidableEq, Repr, Inhabited

/-- One constructor per row of the opcode table. -/
inductive Instr
  /-- NOP (R203). -/
  | nop (w : CtlW)
  /-- NOP_96 (R203). -/
  | nop96 (w : CtlW)
  /-- NOP_128 (R203). -/
  | nop128 (w : CtlW)
  /-- BRA (R244). -/
  | bra (w : CtlW)
  /-- BRT (R245). -/
  | brt (w : CtlW)
  /-- JMP (R244). -/
  | jmp (w : CtlW)
  /-- CALL (R248). -/
  | call (w : CtlW)
  /-- CALLI (R248). -/
  | calli (w : CtlW)
  /-- RET (R248). -/
  | ret (w : CtlW)
  /-- FRAME (R249). -/
  | frame (w : CtlW)
  /-- SPILL (R249). -/
  | spill (w : CtlW)
  /-- FILL (R249). -/
  | fill (w : CtlW)
  /-- MEET (R250). -/
  | meet (w : CtlW)
  /-- MEET_REG (R250). -/
  | meetReg (w : CtlW)
  /-- JOIN (R251). -/
  | join (w : CtlW)
  /-- LEAVE (R251). -/
  | leave (w : CtlW)
  /-- WAITM (R251). -/
  | waitm (w : CtlW)
  /-- EXIT (R252). -/
  | exit (w : CtlW)
  /-- YIELD (R253). -/
  | yield (w : CtlW)
  /-- YIELDT (R94). -/
  | yieldt (w : CtlW)
  /-- TWAIT (R94). -/
  | twait (w : CtlW)
  /-- BRK (R254). -/
  | brk (w : CtlW)
  /-- TRAP (R254). -/
  | trap (w : CtlW)
  /-- TRET (R171). -/
  | tret (w : CtlW)
  /-- BDEC (R244). -/
  | bdec (w : CtlW)
  /-- SADD (R257). -/
  | sadd (w : AluW)
  /-- SSUB (R257). -/
  | ssub (w : AluW)
  /-- SMUL (R257). -/
  | smul (w : AluW)
  /-- SMULH (R257). -/
  | smulh (w : AluW)
  /-- SAND (R257). -/
  | sand (w : AluW)
  /-- SOR (R257). -/
  | sor (w : AluW)
  /-- SXOR (R257). -/
  | sxor (w : AluW)
  /-- SSHL (R257). -/
  | sshl (w : AluW)
  /-- SSHR (R257). -/
  | sshr (w : AluW)
  /-- SMIN (R257). -/
  | smin (w : AluW)
  /-- SMAX (R257). -/
  | smax (w : AluW)
  /-- SCMP (R258). -/
  | scmp (w : AluW)
  /-- SSEL (R258). -/
  | ssel (w : AluW)
  /-- SMOV (R257). -/
  | smov (w : AluW)
  /-- SPOPC (R257). -/
  | spopc (w : AluW)
  /-- SCLZ (R257). -/
  | sclz (w : AluW)
  /-- SBFE (R257). -/
  | sbfe (w : AluW)
  /-- SBFI (R258). -/
  | sbfi (w : AluW)
  /-- SGETL (R260). -/
  | sgetl (w : AluW)
  /-- SPUTL (R260). -/
  | sputl (w : AluW)
  /-- ZOP (R258). -/
  | zop (w : AluW)
  /-- SMOVS (R263). -/
  | smovs (w : AluW)
  /-- SMOVC (R263). -/
  | smovc (w : AluW)
  /-- SMOVI (R259). -/
  | smovi (w : MoviW)
  /-- SLDLIT (R259). -/
  | sldlit (w : CtlW)
  /-- IADD (R295). -/
  | iadd (w : AluW)
  /-- ISUB (R295). -/
  | isub (w : AluW)
  /-- IMUL (R295). -/
  | imul (w : AluW)
  /-- IMULH (R295). -/
  | imulh (w : AluW)
  /-- IMAD (R296). -/
  | imad (w : AluW)
  /-- IAND (R295). -/
  | iand (w : AluW)
  /-- IOR (R295). -/
  | ior (w : AluW)
  /-- IXOR (R295). -/
  | ixor (w : AluW)
  /-- ISHL (R295). -/
  | ishl (w : AluW)
  /-- ISHR (R295). -/
  | ishr (w : AluW)
  /-- IMIN (R295). -/
  | imin (w : AluW)
  /-- IMAX (R295). -/
  | imax (w : AluW)
  /-- IABS (R296). -/
  | iabs (w : AluW)
  /-- ICMP (R295). -/
  | icmp (w : AluW)
  /-- ISEL (R295). -/
  | isel (w : AluW)
  /-- POPC (R295). -/
  | popc (w : AluW)
  /-- CLZ (R295). -/
  | clz (w : AluW)
  /-- BFE (R295). -/
  | bfe (w : AluW)
  /-- BFI (R295). -/
  | bfi (w : AluW)
  /-- BPERM (R296). -/
  | bperm (w : AluW)
  /-- MOV (R297). -/
  | mov (w : AluW)
  /-- MOVS (R297). -/
  | movs (w : AluW)
  /-- RNG (R298). -/
  | rng (w : AluW)
  /-- PLOP (R299). -/
  | plop (w : AluW)
  /-- PSET (R299). -/
  | pset (w : AluW)
  /-- VOTE (R302). -/
  | vote (w : AluW)
  /-- BALLOT (R302). -/
  | ballot (w : AluW)
  /-- KOP (R300). -/
  | kop (w : AluW)
  /-- SHFL (R303). -/
  | shfl (w : AluW)
  /-- REDUX (R304). -/
  | redux (w : AluW)
  /-- SCAN (R305). -/
  | scan (w : AluW)
  /-- TRANK (R306). -/
  | trank (w : AluW)
  /-- ELECT (R302). -/
  | elect (w : AluW)
  /-- FADD (R307). -/
  | fadd (w : AluW)
  /-- FSUB (R307). -/
  | fsub (w : AluW)
  /-- FMUL (R307). -/
  | fmul (w : AluW)
  /-- FFMA (R307). -/
  | ffma (w : AluW)
  /-- FMIN (R307). -/
  | fmin (w : AluW)
  /-- FMAX (R307). -/
  | fmax (w : AluW)
  /-- FCMP (R308). -/
  | fcmp (w : AluW)
  /-- FCLASS (R308). -/
  | fclass (w : AluW)
  /-- FRCP (R309). -/
  | frcp (w : AluW)
  /-- FRSQ (R309). -/
  | frsq (w : AluW)
  /-- FSQRT (R309). -/
  | fsqrt (w : AluW)
  /-- FEX2 (R309). -/
  | fex2 (w : AluW)
  /-- FLG2 (R309). -/
  | flg2 (w : AluW)
  /-- FSIN (R309). -/
  | fsin (w : AluW)
  /-- FCOS (R309). -/
  | fcos (w : AluW)
  /-- FRND (R310). -/
  | frnd (w : AluW)
  /-- FCVT (R310). -/
  | fcvt (w : AluW)
  /-- FTOI (R310). -/
  | ftoi (w : AluW)
  /-- ITOF (R310). -/
  | itof (w : AluW)
  /-- FPACK (R311). -/
  | fpack (w : AluW)
  /-- FUNPK (R311). -/
  | funpk (w : AluW)
  /-- FLDEXP (R307). -/
  | fldexp (w : AluW)
  /-- FDOT2 (R312). -/
  | fdot2 (w : AluW)
  /-- FFMA2 (R312). -/
  | ffma2 (w : AluW)
  /-- FADD2 (R312). -/
  | fadd2 (w : AluW)
  /-- FMUL2 (R312). -/
  | fmul2 (w : AluW)
  /-- VLDLIT (R297). -/
  | vldlit (w : CtlW)
  /-- LD (R269). -/
  | ld (w : MemW)
  /-- ST (R269). -/
  | st (w : MemW)
  /-- LDU (R269). -/
  | ldu (w : MemW)
  /-- STU (R269). -/
  | stu (w : MemW)
  /-- LDTAG (R271). -/
  | ldtag (w : MemW)
  /-- STTAG (R271). -/
  | sttag (w : MemW)
  /-- ATOM (R272). -/
  | atom (w : MemW)
  /-- ATOMU (R272). -/
  | atomu (w : MemW)
  /-- CAS (R273). -/
  | cas (w : MemW)
  /-- CADD (R274). -/
  | cadd (w : MemW)
  /-- CLRC (R274). -/
  | clrc (w : MemW)
  /-- FENCE (R275). -/
  | fence (w : MemW)
  /-- PREF (R276). -/
  | pref (w : MemW)
  /-- LCK (R277). -/
  | lck (w : MemW)
  /-- ULCK (R277). -/
  | ulck (w : MemW)
  /-- CMO (R278). -/
  | cmo (w : MemW)
  /-- WAITC (R279). -/
  | waitc (w : MemW)
  /-- BAR (R281). -/
  | bar (w : MemW)
  /-- BARA (R283). -/
  | bara (w : MemW)
  /-- BARW (R283). -/
  | barw (w : MemW)
  /-- BARI (R283). -/
  | bari (w : MemW)
  /-- GGET (R284). -/
  | gget (w : MemW)
  /-- GSET (R284). -/
  | gset (w : MemW)
  /-- GADD (R284). -/
  | gadd (w : MemW)
  /-- RPUT (R286). -/
  | rput (w : MemW)
  /-- RTAKE (R131). -/
  | rtake (w : MemW)
  /-- RDONE (R131). -/
  | rdone (w : MemW)
  /-- RSTAT (R285). -/
  | rstat (w : MemW)
  /-- FJOIN (R134). -/
  | fjoin (w : MemW)
  /-- FLEAVE (R134). -/
  | fleave (w : MemW)
  /-- FLD (R288). -/
  | fld (w : MemW)
  /-- FSET (R287). -/
  | fset (w : MemW)
  /-- CHKW (R316). -/
  | chkw (w : EngW)
  /-- CHKT (R316). -/
  | chkt (w : EngW)
  /-- MMA (R319). -/
  | mma (w : EngW)
  /-- MMAS (R320). -/
  | mmas (w : EngW)
  /-- ALD (R323). -/
  | ald (w : EngW)
  /-- AST (R323). -/
  | ast (w : EngW)
  /-- AZERO (R323). -/
  | azero (w : EngW)
  /-- AWAIT (R322). -/
  | await (w : EngW)
  /-- OPRDY (R321). -/
  | oprdy (w : EngW)
  /-- PHINT (R326). -/
  | phint (w : EngW)
  /-- TQADD (R328). -/
  | tqadd (w : EngW)
  /-- ASAVE (R324). -/
  | asave (w : EngW)
  /-- AREST (R324). -/
  | arest (w : EngW)
  /-- LAUNCH (R329). -/
  | launch (w : EngW)
  /-- LAUNCHI (R329). -/
  | launchi (w : EngW)
  /-- WAITG (R330). -/
  | waitg (w : EngW)
  /-- FRESUME (R331). -/
  | fresume (w : EngW)
  /-- GENBUMP (R332). -/
  | genbump (w : EngW)
  /-- TLBINV (R333). -/
  | tlbinv (w : EngW)
  /-- WRD (R334). -/
  | wrd (w : EngW)
  /-- WWR (R334). -/
  | wwr (w : EngW)
  /-- HALT (R335). -/
  | halt (w : EngW)
  /-- SNAP (R335). -/
  | snap (w : EngW)
  /-- YIELD_EXPIRY (R253). -/
  | yieldExpiry (core slot lane : Nat)
  /-- WAITC_RESEND (R280). -/
  | waitcResend (req : Nat)
  /-- TEAM_REGISTER_PROPAGATE (R116). -/
  | teamRegisterPropagate (team core g : Nat)
  /-- ISSUE_DECISION (R161). -/
  | issueDecision (core quarter : Nat)
  /-- STORE_DRAIN (R102). -/
  | storeDrain (core slot idx : Nat)
  /-- WRITE_BACK (R102). -/
  | writeBack (core sector : Nat) (mask : BitVec 64)
  /-- DROP (R102). -/
  | drop (core sector : Nat) (mask : BitVec 64)
  /-- CORE_VIEW_FILL (R102). -/
  | coreViewFill (core sector : Nat) (uo : Bool) (asid : Nat)
  /-- LOAD_SATISFY (R103). -/
  | loadSatisfy (req : Nat)
  /-- READ_MODIFY_WRITE (R111). -/
  | readModifyWrite (req : Nat)
  /-- ENGINE_STEP (R117). -/
  | engineStep (q : EngineRef)
  /-- PAGE_WALK (R26). -/
  | pageWalk (req : Nat)
  /-- PROBE_ANSWER (R80). -/
  | probeAnswer (req : Nat)
  /-- BOOKING (R83). -/
  | booking (req level wait : Nat)
  /-- CONTROLLER_ADMISSION (R84). -/
  | controllerAdmission (req : Nat)
  /-- DRAM_ACTIVATE (R65). -/
  | dramActivate (stack channel row : Nat)
  /-- DATA_LANDING (R80). -/
  | dataLanding (req : Nat)
  /-- PROMISE_EXPIRY (R80). -/
  | promiseExpiry (req : Nat)
  /-- HOME_PERFORM (R86); err: an uncorrectable error is found in the block or word that it reads (R75). -/
  | homePerform (req : Nat) (err : Bool)
  /-- STALE_RETRANSLATE (R36). -/
  | staleRetranslate (req : Nat)
  /-- CORRECTED_ERROR_RETRY (R74). -/
  | correctedErrorRetry (req : Nat)
  /-- PARITY_REFETCH (R74). -/
  | parityRefetch (req : Nat)
  /-- LINKRETRY (R60). -/
  | linkretry (req : Nat)
  /-- CELL_LINE_WRITEBACK (R63). -/
  | cellLineWriteback (block : Nat)
  /-- HOST_SNOOP (R87). -/
  | hostSnoop (line : Nat)
  /-- HOST_MEM_WRITE (R357). -/
  | hostMemWrite (tenant off : Nat) (bytes : List (BitVec 8))
  /-- HOST_MEM_READ (R357). -/
  | hostMemRead (tenant off len : Nat)
  /-- PEER_REQUEST_ARRIVAL (R19). -/
  | peerRequestArrival (r : PeerReq)
  /-- PEER_UNREACHABLE (R11). -/
  | peerUnreachable (dev : Nat)
  /-- FAULT_POST (R173). -/
  | faultPost (idx : Nat)
  /-- FAULT_RESUME (R175). -/
  | faultResume (tenant : Nat)
  /-- GENBUMP_HOME_UPDATE (R37). -/
  | genbumpHomeUpdate (asid place : Nat)
  /-- GENBUMP_ACK (R52). -/
  | genbumpAck (asid place : Nat)
  /-- GENBUMP_COMPLETE (R37). -/
  | genbumpComplete (asid : Nat)
  /-- SHUTTLE_COMMAND (R119). -/
  | shuttleCommand (core slot idx : Nat)
  /-- SHUTTLE_CHUNK (R123). -/
  | shuttleChunk (core ch : Nat) (chunk : ChunkCopy)
  /-- SHUTTLE_COMMAND_COMPLETE (R125). -/
  | shuttleCommandComplete (core ch : Nat)
  /-- MULTICAST_ACK (R123). -/
  | multicastAck (core ch chunk member : Nat)
  /-- RING_PUT_ADMIT (R129). -/
  | ringPutAdmit (core ring : Nat)
  /-- RING_SLOT_FILLED (R129). -/
  | ringSlotFilled (core ring : Nat)
  /-- RING_RESHAPE (R128). -/
  | ringReshape (pw : Nat)
  /-- RING_MODE_WRITE (R127). -/
  | ringModeWrite (pw : Nat)
  /-- HOST_RING_DOORBELL (R358). -/
  | hostRingDoorbell (tenant core ring lenm1 : Nat)
  /-- FOLD_REQUEST_ARRIVAL (R135). -/
  | foldRequestArrival (req : Nat)
  /-- FOLD_ROUND_CLOSE (R135). -/
  | foldRoundClose (die fold : Nat)
  /-- FOLD_TIMER_EXPIRY (R341). -/
  | foldTimerExpiry (die fold : Nat)
  /-- FOLD_FILL (R95). -/
  | foldFill (req : Nat)
  /-- FOLD_WINDOW_DELIVERY (R138). -/
  | foldWindowDelivery (die fold idx member : Nat)
  /-- FOLD_WINDOW_ACK (R138). -/
  | foldWindowAck (die fold idx member : Nat)
  /-- TASK_DISPATCH (R145). -/
  | taskDispatch (core : Nat)
  /-- COUNTER_RECHECK (R145). -/
  | counterRecheck (meadow tenant queue idx : Nat)
  /-- TASK_COMPLETE (R146). -/
  | taskComplete (core : Nat)
  /-- LOOM_ENTRY_BEGIN (R317). -/
  | loomEntryBegin (core : Nat)
  /-- LOOM_ENTRY_COMPLETE (R319). -/
  | loomEntryComplete (core : Nat)
  /-- DECLARATION_START (R326). -/
  | declarationStart (core ctx : Nat)
  /-- DECLARATION_EXPIRY (R326). -/
  | declarationExpiry (core ctx : Nat)
  /-- LAUNCH_ANSWER (R151). -/
  | launchAnswer (core slot : Nat)
  /-- LAUNCHI_DEQUEUE (R165). -/
  | launchiDequeue (grid : Nat)
  /-- QUEUE_ROTATION (R153). -/
  | queueRotation
  /-- TEAM_PLACEMENT (R154). -/
  | teamPlacement (grid : Nat)
  /-- THERMAL_SAMPLE (R155). -/
  | thermalSample (readings : List (Nat × Nat))
  /-- DROOP_EVENT (R155). -/
  | droopEvent (core : Nat)
  /-- PRIORITY_PREEMPTION (R156). -/
  | priorityPreemption (grid : Nat)
  /-- PREEMPT_REQUEST (R156). -/
  | preemptRequest (team : Nat)
  /-- TEAM_START (R157). -/
  | teamStart (team : Nat)
  /-- TEAM_RETIRE (R159). -/
  | teamRetire (team : Nat)
  /-- GRID_COMPLETE (R159). -/
  | gridComplete (grid : Nat)
  /-- TEAM_STOP (R178). -/
  | teamStop (team : Nat)
  /-- TEAM_SAVE (R179). -/
  | teamSave (team : Nat)
  /-- TEAM_RESUME (R181). -/
  | teamResume (team : Nat)
  /-- HALT_REQUEST (R185). -/
  | haltRequest (team : Nat) (ordinal : Option Nat)
  /-- DUMP (R186). -/
  | dump (team asid va size : Nat)
  /-- SNAPSHOT_LATCH (R187). -/
  | snapshotLatch (block : Nat)
  /-- SNAPCNT_WRITE (R351). -/
  | snapcntWrite (val : BitVec 64)
  /-- HMASK_WRITE (R57). -/
  | hmaskWrite (pw : Nat)
  /-- BPLOG_HEAD_WRITE (R91). -/
  | bplogHeadWrite (pw : Nat)
  /-- ERRINJ_WRITE (R92). -/
  | errinjWrite (pw : Nat)
  /-- CONTEXT_REGISTER_WRITE (R182). -/
  | contextRegisterWrite (pw : Nat)
  /-- CONTEXT_COUNTER_UPDATE (R182). -/
  | contextCounterUpdate (ctx idx : Nat)
  /-- REGISTER_WRITE (R263). -/
  | registerWrite (r : RegRef) (val : BitVec 64)
  /-- CHECKPOINT (R361). -/
  | checkpoint
  /-- CELLWB (R351). -/
  | cellwb
  /-- SNAP_COMMAND (R351). -/
  | snapCommand
  /-- RATE (R353). -/
  | rate
  /-- PEERROUTE (R352). -/
  | peerroute
  /-- UNKNOWN_COMMAND (R351). -/
  | unknownCommand
  /-- HBM_RETRAIN (R363). -/
  | hbmRetrain (stack : Nat)
  /-- POWER_SAMPLE (R364). -/
  | powerSample (milliwatts : Nat)
  /-- CLOCK_STEP (R364). -/
  | clockStep
  /-- THERMAL_THROTTLE (R364). -/
  | thermalThrottle (core deg : Nat)
  /-- MAIN_POWER_LOSS (R361). -/
  | mainPowerLoss
  /-- DEVICE_RESET (R360). -/
  | deviceReset
  /-- STAGE_ADVANCE (R362). -/
  | stageAdvance
  /-- IMAGE_LOAD (R360). -/
  | imageLoad (ctx : Nat) (image : List (BitVec 8))
  /-- GET_VERSION (R360). -/
  | getVersion
  /-- GET_CAPABILITIES (R360). -/
  | getCapabilities
  /-- NEGOTIATE_ALGORITHMS (R360). -/
  | negotiateAlgorithms (asym hash : Nat)
  /-- GET_DIGESTS (R360). -/
  | getDigests
  /-- GET_CERTIFICATE (R360). -/
  | getCertificate (slot off len : Nat)
  /-- CHALLENGE (R360). -/
  | challenge (slot nonce : Nat)
  /-- GET_MEASUREMENTS (R360). -/
  | getMeasurements (index : Nat)
  /-- DEBUGGER_RESUME (R178). -/
  | debuggerResume (team : Nat)
  /-- SYSTEM_SOFTWARE_ENDS_GRID (R159). -/
  | systemSoftwareEndsGrid (grid : Nat)
  /-- CONTEXT_DESTROYED (R71). -/
  | contextDestroyed (ctx : Nat)
  /-- VECTOR_UNMASK (R356). -/
  | vectorUnmask (tenant vec : Nat)
  /-- HBM_RETRAIN_COMPLETE (R363). -/
  | hbmRetrainComplete (stack : Nat)
  deriving DecidableEq, Repr, Inhabited

/-- A soft error that the code of a structure finds (R73, R74): corrected inline in a core's register files,
scratchpad, accumulator memory or dirty L1; or uncorrectable, in a v register (logical number), in the predicate (0 to 7)
or time file (8 to 11), in an s register or, from 128 on, a z register, in a core's copy of a team register, or in an
accumulator element. -/
inductive Upset
  | inline (core : Nat)
  | vreg (core slot lane reg : Nat)
  | file (core slot lane n : Nat)
  | scalar (core slot n : Nat)
  | team (team core n : Nat)
  | acc (core elem : Nat)
  deriving DecidableEq, Repr, Inhabited

/-- Who moves next: one constructor of Instr, one cycle of a clock (a core's, or from 384 on the hub's), or a soft
error (assumption 1). -/
inductive Move
  | tick (core : Nat)
  | act (i : Instr)
  | upset (u : Upset)
  deriving DecidableEq, Repr, Inhabited

end Sys2Proof
end

