-- ==== Sys2Proof/Decode.lean ====
section
/-!
DEFINITION. Instruction words: the fields of R204 and R214, the field rules of each opcode (R202,
R205 to R218 and the instruction entries), the decoder and the encoder.
-/
namespace Sys2Proof

/-- Why a word is no instruction, with the trap the decoder raises (R202). -/
inductive Reject
  | illop
  | illfld (bit : Nat)
  | illlen (len : Nat)
  | align
  deriving DecidableEq, Repr

/-- The fields of a word as they stand: [63:0] by R204; ext holds the bits above 63, zero-extended. -/
structure Raw where
  ext : BitVec 64
  sb : BitVec 16
  sa : BitVec 16
  dst : BitVec 9
  pe : Bool
  pn : Bool
  pi : BitVec 3
  ty : BitVec 5
  opc : BitVec 8
  n : Bool
  h : Bool
  s : Bool
  len : BitVec 2
  deriving DecidableEq, Repr

/-- The fields of R204 cut from a word of up to 128 bits. -/
def Raw.ofBits (w : BitVec 128) : Raw where
  ext := w.extractLsb' 64 64
  sb := w.extractLsb' 48 16
  sa := w.extractLsb' 32 16
  dst := w.extractLsb' 23 9
  pe := w.getLsbD 22
  pn := w.getLsbD 21
  pi := w.extractLsb' 18 3
  ty := w.extractLsb' 13 5
  opc := w.extractLsb' 5 8
  n := w.getLsbD 4
  h := w.getLsbD 3
  s := w.getLsbD 2
  len := w.extractLsb' 0 2

/-- The word of given fields (R204). -/
def Raw.toBits (r : Raw) : BitVec 128 :=
  r.ext ++ r.sb ++ r.sa ++ r.dst ++ BitVec.ofBool r.pe ++ BitVec.ofBool r.pn ++ r.pi ++ r.ty ++
    r.opc ++ BitVec.ofBool r.n ++ BitVec.ofBool r.h ++ BitVec.ofBool r.s ++ r.len

/-- Bytes of the word, by LEN (R200); LEN 3 is a literal-pool header (R201). -/
def lenBytes (len : BitVec 2) : Nat := if len = 0 then 8 else if len = 1 then 12 else 16

/-! ### Operand fields -/

/-- DST by kind and number (R206); none for a reserved number or kind 11. -/
def Dst.ofBits (x : BitVec 9) : Option Dst :=
  let n := (x.extractLsb' 0 7).toNat
  if x.extractLsb' 7 2 = 0 then (if h : n < 32 then some (.v ⟨n, h⟩) else Option.none)
  else if x.extractLsb' 7 2 = 1 then (if h : n < 128 then some (.s ⟨n, h⟩) else Option.none)
  else if x.extractLsb' 7 2 = 2 then
    if h : 8 ≤ n ∧ n < 12 then some (.t ⟨n - 8, by omega⟩)
    else if h : 16 ≤ n ∧ n < 24 then some (.p ⟨n - 16, by omega⟩)
    else if h : 24 ≤ n ∧ n < 28 then some (.z ⟨n - 24, by omega⟩)
    else if h : 32 ≤ n ∧ n < 44 then some (.k ⟨n - 32, by omega⟩)
    else if h : 48 ≤ n ∧ n < 64 then some (.g ⟨n - 48, by omega⟩)
    else if n = 127 then some .none
    else Option.none
  else Option.none

/-- The DST field of a destination (R206): None is 0x17F. -/
def Dst.toBits : Dst → BitVec 9
  | .v n => 0#2 ++ BitVec.ofNat 7 n
  | .s n => 1#2 ++ BitVec.ofNat 7 n
  | .t n => 2#2 ++ BitVec.ofNat 7 (n + 8)
  | .p n => 2#2 ++ BitVec.ofNat 7 (n + 16)
  | .z n => 2#2 ++ BitVec.ofNat 7 (n + 24)
  | .k n => 2#2 ++ BitVec.ofNat 7 (n + 32)
  | .g n => 2#2 ++ BitVec.ofNat 7 (n + 48)
  | .none => 0x17F#9

/-- A source by kind, number, PERM and MOD (R206, R208, R209): PERM must be 0 on s, z, k and g, MOD on
t, p, z, k and None. -/
def Src.ofBits (x : BitVec 16) : Option Src :=
  let n := (x.extractLsb' 7 7).toNat
  let perm := x.extractLsb' 3 4
  let md := x.extractLsb' 0 3
  if x.extractLsb' 14 2 = 0 then (if h : n < 32 then some (.v ⟨n, h⟩ perm md) else Option.none)
  else if x.extractLsb' 14 2 = 1 then
    (if h : n < 128 then (if perm = 0 then some (.s ⟨n, h⟩ md) else Option.none) else Option.none)
  else if x.extractLsb' 14 2 = 2 then
    if h : n < 4 then some (.b ⟨n, h⟩ perm md)
    else if h : 8 ≤ n ∧ n < 12 then
      (if md = 0 then some (.t ⟨n - 8, by omega⟩ perm) else Option.none)
    else if h : 16 ≤ n ∧ n < 24 then
      (if md = 0 then some (.p ⟨n - 16, by omega⟩ perm) else Option.none)
    else if h : 24 ≤ n ∧ n < 28 then
      (if perm = 0 ∧ md = 0 then some (.z ⟨n - 24, by omega⟩) else Option.none)
    else if h : 32 ≤ n ∧ n < 44 then
      (if perm = 0 ∧ md = 0 then some (.k ⟨n - 32, by omega⟩) else Option.none)
    else if h : 48 ≤ n ∧ n < 64 then
      (if perm = 0 then some (.g ⟨n - 48, by omega⟩ md) else Option.none)
    else if n = 127 then (if perm = 0 ∧ md = 0 then some .none else Option.none)
    else Option.none
  else some (.imm (x.extractLsb' 0 14))

/-- The field of a source (R206): None is 0xBF80. -/
def Src.toBits : Src → BitVec 16
  | .v n perm md => 0#2 ++ BitVec.ofNat 7 n ++ perm ++ md
  | .s n md => 1#2 ++ BitVec.ofNat 7 n ++ 0#4 ++ md
  | .b n perm md => 2#2 ++ BitVec.ofNat 7 n ++ perm ++ md
  | .t n perm => 2#2 ++ BitVec.ofNat 7 (n + 8) ++ perm ++ 0#3
  | .p n perm => 2#2 ++ BitVec.ofNat 7 (n + 16) ++ perm ++ 0#3
  | .z n => 2#2 ++ BitVec.ofNat 7 (n + 24) ++ 0#4 ++ 0#3
  | .k n => 2#2 ++ BitVec.ofNat 7 (n + 32) ++ 0#4 ++ 0#3
  | .g n md => 2#2 ++ BitVec.ofNat 7 (n + 48) ++ 0#4 ++ md
  | .imm x => 3#2 ++ x
  | .none => 0xBF80#16

/-! Operand kinds as bits of a set. -/
def kV : Nat := 1
def kS : Nat := 2
def kB : Nat := 4
def kT : Nat := 8
def kP : Nat := 16
def kZ : Nat := 32
def kK : Nat := 64
def kG : Nat := 128
def kI : Nat := 256
def kN : Nat := 512
/-- The data sources of uniform and lane instructions: v, s, latch, g, immediate (R256, R292). -/
def kU : Nat := 391
/-- The kinds of an address base (R265). -/
def kBase : Nat := 131

/-- The register number that a field names, within its kind. -/
def Dst.num : Dst → Nat
  | .v n => n.val | .s n => n.val | .t n => n.val | .p n => n.val | .z n => n.val | .k n => n.val
  | .g n => n.val | .none => 0

def Src.num : Src → Nat
  | .v n _ _ => n.val | .s n _ => n.val | .b n _ _ => n.val | .t n _ => n.val | .p n _ => n.val
  | .z n => n.val | .k n => n.val | .g n _ => n.val | .imm _ => 0 | .none => 0

def Dst.kind : Dst → Nat
  | .v _ => 1 | .s _ => 2 | .t _ => 8 | .p _ => 16 | .z _ => 32 | .k _ => 64 | .g _ => 128
  | .none => 512

def Src.kind : Src → Nat
  | .v _ _ _ => 1 | .s _ _ => 2 | .b _ _ _ => 4 | .t _ _ => 8 | .p _ _ => 16 | .z _ => 32
  | .k _ => 64 | .g _ _ => 128 | .imm _ => 256 | .none => 512

def Src.perm : Src → BitVec 4
  | .v _ x _ | .b _ x _ | .t _ x | .p _ x => x
  | _ => 0

def Src.md : Src → BitVec 3
  | .v _ _ m | .s _ m | .b _ _ m | .g _ m => m
  | _ => 0

/-- The immediate's value, two's complement over 14 bits (R207). -/
def Src.immVal : Src → Option Int
  | .imm x => some x.toInt
  | _ => Option.none

/-! ### Types (R213) -/

/-- The width in bits of a TYPE code; 0 for a code that is no type. -/
def tyWidth : Nat → Nat
  | 1 | 2 | 17 => 8
  | 3 | 4 | 9 | 10 => 16
  | 5 | 6 | 11 | 13 | 14 | 15 => 32
  | 7 | 8 | 12 | 16 => 64
  | 18 => 4
  | _ => 0

def tySigned (t : Nat) : Bool := t = 2 || t = 4 || t = 6 || t = 8
/-- Signedness and width of a word's type. -/
def AluW.sg (w : AluW) : Bool := tySigned w.ty.toNat
def AluW.wd (w : AluW) : Nat := tyWidth w.ty.toNat
def tyIsFloat (t : Nat) : Bool := 9 ≤ t && t ≤ 14
def tyIsPacked (t : Nat) : Bool := t = 13 || t = 14
/-- b32, b64, n8, n4 and words without a data type: bit patterns. -/
def tyIsBits (t : Nat) : Bool := t = 0 || 15 ≤ t

def tyNone : List Nat := [0]
def tyInt : List Nat := [1, 2, 3, 4, 5, 6, 7, 8]
def tyIntB : List Nat := [1, 2, 3, 4, 5, 6, 7, 8, 15, 16]
def tyFloat : List Nat := [9, 10, 11, 12, 13, 14]
def tyScalar : List Nat := [9, 10, 11, 12]
def tyFun : List Nat := [9, 10, 11]
def tyAny : List Nat := [1, 2, 3, 4, 5, 6, 7, 8, 9, 10, 11, 12, 13, 14, 15, 16, 17, 18]
def tyAtom : List Nat := [5, 6, 7, 8, 15, 16]

/-! ### The opcode map (R218) -/

/-- One opcode: legal lengths (bit 0: 64, bit 1: 96, bit 2: 128 bits), class U, TYPE values, and the
operand kinds that DST, SA, SB and SC accept. -/
structure OpRow where
  lens : Nat
  uniform : Bool
  tys : List Nat
  dst : Nat
  a : Nat
  b : Nat
  c : Nat
  deriving DecidableEq, Repr

/-- OPC 00 to 1F (R218). -/
def controlOps : List (Nat × OpRow) := [
  (0x00, ⟨7, false, tyNone, kN, kN, kN, kN⟩),
  (0x01, ⟨2, false, tyNone, kN, kN, kN, kN⟩),
  (0x02, ⟨2, false, [0, 1, 2, 3, 4, 8, 9, 10, 11, 12], kN, kT, (kS + kI + kN), kN⟩),
  (0x03, ⟨1, false, tyNone, kN, (kV + kS), kN, kN⟩),
  (0x04, ⟨2, false, [8, 16, 24], kN, kN, kN, kN⟩),
  (0x05, ⟨1, false, [8, 16, 24], kN, (kV + kS), kN, kN⟩),
  (0x06, ⟨1, false, tyNone, kN, kN, kN, kN⟩),
  (0x07, ⟨1, false, [0, 1, 2], kV, kN, kN, kN⟩),
  (0x08, ⟨1, false, tyNone, kN, (kV + kS + kI), kN, kN⟩),
  (0x09, ⟨1, false, tyNone, kN, (kV + kS + kI), kN, kN⟩),
  (0x0A, ⟨2, false, [0, 1], (kV + kN), (kV + kS + kN), kN, kN⟩),
  (0x0B, ⟨1, false, tyNone, kN, kK, kN, kN⟩),
  (0x0C, ⟨1, false, tyNone, kN, kK, kN, kN⟩),
  (0x0D, ⟨1, false, tyNone, kN, kK, kN, kN⟩),
  (0x0E, ⟨1, false, tyNone, kN, kN, kN, kN⟩),
  (0x0F, ⟨1, false, tyNone, kN, (kS + kI), kN, kN⟩),
  (0x10, ⟨1, false, tyNone, kN, kT, kN, kN⟩),
  (0x11, ⟨1, false, tyNone, kN, kT, kN, kN⟩),
  (0x12, ⟨1, false, tyNone, kN, kN, kN, kN⟩),
  (0x13, ⟨1, false, tyNone, kN, (kS + kI), kN, kN⟩),
  (0x14, ⟨1, true, tyNone, kN, kN, kN, kN⟩),
  (0x15, ⟨2, true, tyNone, kS, kN, kN, kN⟩)]

/-- OPC 20 to 3F (R218). -/
def uniformOps : List (Nat × OpRow) := [
  (0x20, ⟨3, true, tyIntB, kS, kU, kU, kN⟩),
  (0x21, ⟨3, true, tyIntB, kS, kU, kU, kN⟩),
  (0x22, ⟨3, true, tyIntB, kS, kU, kU, kN⟩),
  (0x23, ⟨3, true, tyInt, kS, kU, kU, kN⟩),
  (0x24, ⟨3, true, tyIntB, kS, kU, kU, kN⟩),
  (0x25, ⟨3, true, tyIntB, kS, kU, kU, kN⟩),
  (0x26, ⟨3, true, tyIntB, kS, kU, kU, kN⟩),
  (0x27, ⟨3, true, tyIntB, kS, kU, kU, kN⟩),
  (0x28, ⟨3, true, tyIntB, kS, kU, kU, kN⟩),
  (0x29, ⟨3, true, tyInt, kS, kU, kU, kN⟩),
  (0x2A, ⟨3, true, tyInt, kS, kU, kU, kN⟩),
  (0x2B, ⟨3, true, tyInt, kS, kU, kU, kN⟩),
  (0x2C, ⟨2, true, tyIntB, kS, kZ, kU, kU⟩),
  (0x2D, ⟨3, true, tyIntB, kS, kU, kN, kN⟩),
  (0x2E, ⟨4, true, [16], kS, kN, kN, kN⟩),
  (0x2F, ⟨2, true, tyIntB, kS, kN, kN, kN⟩),
  (0x30, ⟨3, true, tyIntB, kS, kU, kN, kN⟩),
  (0x31, ⟨3, true, tyIntB, kS, kU, kN, kN⟩),
  (0x32, ⟨3, true, tyIntB, kS, kU, kU, kN⟩),
  (0x33, ⟨2, true, tyIntB, kS, kU, kU, kU⟩),
  (0x34, ⟨3, true, [15, 16], kS, kV, (kS + kI), kN⟩),
  (0x35, ⟨3, true, [15, 16], kV, kU, (kS + kI), kN⟩),
  (0x36, ⟨3, true, [0, 1, 2, 3, 4, 5], kZ, (kU + kZ), (kU + kZ + kN), kN⟩),
  (0x37, ⟨3, true, tyNone, kS, kI, kN, kN⟩),
  (0x38, ⟨3, true, tyNone, kN, kI, kU, kN⟩)]

/-- OPC 40 to 6F (R218). -/
def laneOps : List (Nat × OpRow) := [
  (0x40, ⟨3, false, tyIntB, kV, kU, kU, kN⟩),
  (0x41, ⟨3, false, tyIntB, kV, kU, kU, kN⟩),
  (0x42, ⟨3, false, tyIntB, kV, kU, kU, kN⟩),
  (0x43, ⟨3, false, tyInt, kV, kU, kU, kN⟩),
  (0x44, ⟨2, false, tyIntB, kV, kU, kU, kU⟩),
  (0x45, ⟨3, false, tyIntB, kV, kU, kU, kN⟩),
  (0x46, ⟨3, false, tyIntB, kV, kU, kU, kN⟩),
  (0x47, ⟨3, false, tyIntB, kV, kU, kU, kN⟩),
  (0x48, ⟨3, false, tyIntB, kV, kU, kU, kN⟩),
  (0x49, ⟨3, false, tyIntB, kV, kU, kU, kN⟩),
  (0x4A, ⟨3, false, tyInt, kV, kU, kU, kN⟩),
  (0x4B, ⟨3, false, tyInt, kV, kU, kU, kN⟩),
  (0x4C, ⟨3, false, [2, 4, 6, 8], kV, kU, kN, kN⟩),
  (0x4D, ⟨3, false, tyInt, kV, kU, kU, kN⟩),
  (0x4E, ⟨2, false, tyIntB, kV, kP, kU, kU⟩),
  (0x4F, ⟨3, false, tyIntB, kV, kU, kN, kN⟩),
  (0x50, ⟨3, false, tyIntB, kV, kU, kN, kN⟩),
  (0x51, ⟨3, false, tyIntB, kV, kU, kU, kN⟩),
  (0x52, ⟨2, false, tyIntB, kV, kU, kU, kU⟩),
  (0x53, ⟨2, false, [15], kV, kU, kU, kU⟩),
  (0x54, ⟨3, false, [15, 16], (kV + kT), (kU + kT + kP + kZ + kK), kN, kN⟩),
  (0x55, ⟨2, false, [1, 2, 3, 4, 5, 6, 7, 8, 9, 10, 11, 12, 13, 14, 15, 16], kV, kN, kN, kN⟩),
  (0x56, ⟨3, false, [0, 1, 2, 3, 4], kV, kN, kN, kN⟩),
  (0x57, ⟨3, false, [15], kV, (kS + kG + kI), kU, kN⟩),
  (0x58, ⟨3, false, [0, 1, 2, 3, 4], (kP + kZ), (kP + kI), (kP + kI + kN), kN⟩),
  (0x59, ⟨3, false, [0, 1, 2, 3], (kP + kZ), kU, kU, kN⟩),
  (0x5A, ⟨3, false, [0, 1, 2], (kP + kZ), kP, kN, kN⟩),
  (0x5B, ⟨3, false, [16], (kV + kS), kP, kI, kN⟩),
  (0x5C, ⟨3, false, [0, 1, 2, 3, 4, 5, 6], (kS + kK), (kS + kP + kK + kG), (kK + kI + kN), kN⟩),
  (0x5D, ⟨3, false, [15, 16], kV, kU, kU, kN⟩),
  (0x5E, ⟨3, false, [1, 2, 3, 4, 5, 6, 7, 8, 9, 10, 11, 12, 15, 16], (kV + kS), kU, kI, kN⟩),
  (0x5F, ⟨3, false, [1, 2, 3, 4, 5, 6, 7, 8, 9, 10, 11, 12, 15, 16], kV, kU, kI, kN⟩),
  (0x60, ⟨3, false, tyNone, kV, kT, (kK + kN), kN⟩),
  (0x61, ⟨3, false, tyNone, kP, (kK + kN), kN, kN⟩)]

/-- OPC 70 to 9F (R218). -/
def floatOps : List (Nat × OpRow) := [
  (0x70, ⟨3, false, tyFloat, kV, kU, kU, kN⟩),
  (0x71, ⟨3, false, tyFloat, kV, kU, kU, kN⟩),
  (0x72, ⟨3, false, tyFloat, kV, kU, kU, kN⟩),
  (0x73, ⟨2, false, tyFloat, kV, kU, kU, kU⟩),
  (0x74, ⟨3, false, tyFloat, kV, kU, kU, kN⟩),
  (0x75, ⟨3, false, tyFloat, kV, kU, kU, kN⟩),
  (0x76, ⟨3, false, tyFloat, kV, kU, kU, kN⟩),
  (0x77, ⟨3, false, tyFloat, kV, kU, kN, kN⟩),
  (0x78, ⟨3, false, tyScalar, kV, kU, kN, kN⟩),
  (0x79, ⟨3, false, tyFun, kV, kU, kN, kN⟩),
  (0x7A, ⟨3, false, tyScalar, kV, kU, kN, kN⟩),
  (0x7B, ⟨3, false, tyFun, kV, kU, kN, kN⟩),
  (0x7C, ⟨3, false, tyFun, kV, kU, kN, kN⟩),
  (0x7D, ⟨3, false, tyFun, kV, kU, kN, kN⟩),
  (0x7E, ⟨3, false, tyFun, kV, kU, kN, kN⟩),
  (0x7F, ⟨3, false, tyFloat, kV, kU, kN, kN⟩),
  (0x80, ⟨3, false, tyScalar, kV, kU, kI, kN⟩),
  (0x81, ⟨3, false, tyInt, kV, kU, kI, kN⟩),
  (0x82, ⟨3, false, tyScalar, kV, kU, kI, kN⟩),
  (0x83, ⟨3, false, [17, 18], kV, kU, (kS + kG + kI), kN⟩),
  (0x84, ⟨3, false, [17, 18], kV, kU, (kS + kG + kI), kN⟩),
  (0x85, ⟨3, false, tyFloat, kV, kU, kU, kN⟩),
  (0x86, ⟨2, false, [13, 14], kV, kU, kU, kU⟩),
  (0x87, ⟨2, false, [11], kV, kU, kU, kU⟩),
  (0x88, ⟨3, false, [11], kV, kU, kU, kN⟩),
  (0x89, ⟨3, false, [11], kV, kU, kU, kN⟩)]

/-- OPC A0 to BF (R218). -/
def memoryOps : List (Nat × OpRow) := [
  (0xA0, ⟨4, false, tyAny, kV, kBase, kN, kN⟩),
  (0xA1, ⟨4, false, tyAny, kN, kBase, (kV + kS + kG + kI), kN⟩),
  (0xA2, ⟨4, true, tyAny, kS, kBase, kN, kN⟩),
  (0xA3, ⟨4, true, tyAny, kN, kBase, (kV + kS + kG + kI), kN⟩),
  (0xA4, ⟨4, false, tyNone, kV, kBase, kN, kN⟩),
  (0xA5, ⟨4, false, tyNone, kN, kBase, (kV + kS + kG + kI), kN⟩),
  (0xA6, ⟨4, false, tyAtom, (kV + kN), kBase, (kV + kS + kG + kI), kN⟩),
  (0xA7, ⟨4, true, tyAtom, (kS + kN), kBase, (kV + kS + kG + kI), kN⟩),
  (0xA8, ⟨4, false, tyAtom, kV, kBase, (kV + kS + kG + kI), kN⟩),
  (0xA9, ⟨4, false, [6, 8, 9, 10, 11, 12], kN, kBase, (kV + kS + kG + kI), kN⟩),
  (0xAA, ⟨4, false, tyNone, kN, kBase, (kV + kS + kG + kI), kN⟩),
  (0xAB, ⟨4, false, tyNone, kN, kN, kN, kN⟩),
  (0xAC, ⟨4, false, tyNone, kN, kBase, kN, kN⟩),
  (0xAD, ⟨4, false, tyNone, kV, kBase, kN, kN⟩),
  (0xAE, ⟨4, false, tyNone, kN, kBase, kN, kN⟩),
  (0xAF, ⟨4, false, tyNone, kN, kBase, kN, kN⟩),
  (0xB0, ⟨4, false, [15, 16], (kV + kN), kBase, (kV + kS + kG + kI), kN⟩),
  (0xB1, ⟨4, true, tyNone, kN, kN, kN, kN⟩),
  (0xB2, ⟨4, true, tyNone, (kS + kN), kBase, (kS + kG), kN⟩),
  (0xB3, ⟨4, true, tyNone, kZ, kBase, (kS + kG), kN⟩),
  (0xB4, ⟨4, true, tyNone, (kS + kN), kBase, (kS + kG + kI), kN⟩),
  (0xB5, ⟨4, true, [16], kS, kG, kN, kN⟩),
  (0xB6, ⟨4, true, [16], kG, (kV + kS + kI), kN, kN⟩),
  (0xB7, ⟨4, true, [16], (kS + kN), kG, (kV + kS + kI), kN⟩)]

/-- OPC C0 to CF (R218). -/
def ringOps : List (Nat × OpRow) := [
  (0xC0, ⟨4, false, tyNone, (kV + kN), (kV + kS), (kV + kS + kG + kI), kN⟩),
  (0xC1, ⟨4, false, tyNone, kV, (kS + kI), kN, kN⟩),
  (0xC2, ⟨4, true, tyNone, kN, (kS + kI), (kS + kI), kN⟩),
  (0xC3, ⟨4, true, tyNone, kS, (kS + kI), kN, kN⟩),
  (0xC4, ⟨4, true, tyNone, (kS + kN), (kS + kI), kN, kN⟩),
  (0xC5, ⟨4, true, tyNone, kN, (kS + kI), kN, kN⟩),
  (0xC6, ⟨4, true, tyNone, (kZ + kN), kBase, (kS + kG + kI), kN⟩),
  (0xC7, ⟨4, true, tyNone, kN, (kS + kI), (kS + kI), kN⟩)]

/-- OPC D0 to FF (R218). -/
def engineOps : List (Nat × OpRow) := [
  (0xD0, ⟨4, true, tyNone, kN, (kS + kI), kN, kN⟩),
  (0xD1, ⟨4, true, tyNone, (kP + kZ), (kS + kI), kN, kN⟩),
  (0xD2, ⟨4, true, tyNone, kS, (kS + kI), (kS + kI), kN⟩),
  (0xD3, ⟨4, true, tyNone, kS, kS, kS, kN⟩),
  (0xD4, ⟨4, true, tyNone, kS, (kS + kI), kN, kN⟩),
  (0xD5, ⟨4, true, tyNone, kS, (kS + kI), kN, kN⟩),
  (0xD6, ⟨4, true, tyNone, kN, kN, kN, kN⟩),
  (0xD7, ⟨4, true, tyNone, kN, kN, kN, kN⟩),
  (0xD8, ⟨4, true, tyNone, kN, kN, kN, kN⟩),
  (0xD9, ⟨4, true, tyNone, kN, kN, kN, kN⟩),
  (0xDA, ⟨4, true, tyNone, (kV + kS + kN), (kV + kS + kI), kN, kN⟩),
  (0xDB, ⟨4, true, tyNone, kN, kS, kN, kN⟩),
  (0xDC, ⟨4, true, tyNone, kN, kS, kN, kN⟩),
  (0xE0, ⟨4, true, tyNone, kS, kS, kN, kN⟩),
  (0xE1, ⟨4, true, tyNone, kS, kS, kN, kN⟩),
  (0xE2, ⟨4, true, tyNone, kS, (kS + kI), kN, kN⟩),
  (0xE3, ⟨4, true, tyNone, kN, (kS + kI), kN, kN⟩),
  (0xE4, ⟨4, true, tyNone, (kS + kN), (kS + kI), kN, kN⟩),
  (0xE5, ⟨4, true, tyNone, kN, (kS + kI), kN, kN⟩),
  (0xE6, ⟨4, true, tyNone, kS, (kS + kI), (kS + kI), kN⟩),
  (0xE7, ⟨4, true, tyNone, kS, (kS + kI), (kS + kI), kN⟩),
  (0xE8, ⟨4, true, tyNone, kN, kN, kN, kN⟩),
  (0xE9, ⟨4, true, tyNone, kN, kN, kN, kN⟩)]

/-- The assigned opcodes, by the groups of R218; every other OPC is unassigned (R219). -/
def opRow (opc : Nat) : Option OpRow :=
  if opc < 0x20 then controlOps.lookup opc
  else if opc < 0x40 then uniformOps.lookup opc
  else if opc < 0x70 then laneOps.lookup opc
  else if opc < 0xA0 then floatOps.lookup opc
  else if opc < 0xC0 then memoryOps.lookup opc
  else if opc < 0xD0 then ringOps.lookup opc
  else engineOps.lookup opc

/-! ### Field rules -/

/-- The type by which a source field of an ALU word is read: the word's TYPE, but for selectors,
controls, counts and conversion sources, which their entries name; a of ZOP and KOP and x of SMOVC are
64 bits (assumption 73). slot 0 is SA, 1 SB, 2 SC. -/
def srcTy (opc ty slot sbImm : Nat) : Nat :=
  if (opc = 0x36 ∧ slot = 0 ∧ 4 ≤ ty) ∨ (opc = 0x38 ∧ slot = 1) ∨ (opc = 0x5C ∧ slot = 0 ∧ ty = 4) then 16
  else if opc ∈ [0x36, 0x37, 0x38, 0x56, 0x58, 0x59, 0x5A, 0x5C, 0x60, 0x61] then 15
  else if opc = 0x5B then 15
  else if (opc = 0x34 ∨ opc = 0x35 ∨ opc = 0x5D) ∧ slot = 1 then 5
  else if opc = 0x85 ∧ slot = 1 then 6
  else if opc = 0x83 ∧ slot = 0 then 11
  else if opc = 0x84 ∧ slot = 0 then 15
  else if (opc = 0x83 ∨ opc = 0x84) ∧ slot = 1 then 16
  else if (opc = 0x80 ∨ opc = 0x81 ∨ opc = 0x82) ∧ slot = 0 then sbImm
  else if opc = 0x86 ∧ slot = 2 then 11
  else ty

/-- FFMA2, FADD2 and FMUL2 read and write pairs of FP32 elements (R312). -/
def isPairOp (opc : Nat) : Bool := 0x87 ≤ opc && opc ≤ 0x89

/-- MOD as R209 allows it for a read of type t from the source's kind. -/
def modOk (t : Nat) (s : Src) : Bool :=
  let m := s.md
  (m = 0) ||
  ((!(tyIsBits t) || (m.extractLsb' 0 2 = 0)) &&
   (!m.getLsbD 2 ||
     (if tyIsPacked t then true
      else if t = 11 || t = 12 then false
      else if tyWidth t = 64 then false
      else !(tyWidth t = 32 && s.kind = 1))))

/-- A v register of a 64-bit type is an even pair (R210). -/
def Src.evenIf (wide : Bool) : Src → Bool
  | .v n _ _ => !wide || n.val % 2 = 0
  | _ => true

def Dst.evenIf (wide : Bool) : Dst → Bool
  | .v n => !wide || n.val % 2 = 0
  | _ => true

/-- A register group of n bytes starts at a multiple of its size (R266). -/
def groupOk (isV : Bool) (num bytes : Nat) : Bool :=
  if isV then (if bytes = 16 then num % 4 = 0 else if bytes = 8 then num % 2 = 0 else true)
  else (if bytes = 16 then num % 2 = 0 else true)

def Src.group (bytes : Nat) : Src → Bool
  | .v n _ _ => groupOk true n bytes
  | .s n _ => groupOk false n bytes
  | .imm _ => bytes != 16
  | .g _ _ => bytes != 16
  | _ => true

def Dst.group (bytes : Nat) : Dst → Bool
  | .v n => groupOk true n bytes
  | .s n => groupOk false n bytes
  | _ => true

/-- An immediate, where there is one, lies in a range. -/
def Src.immIn (lo hi : Int) : Src → Bool
  | .imm x => decide (lo ≤ x.toInt) && decide (x.toInt ≤ hi)
  | _ => true

/-- An operand field that the row's kinds accept and that meets a further rule. -/
def srcRule (x : BitVec 16) (kinds : Nat) (f : Src → Bool) : Bool :=
  match Src.ofBits x with
  | some s => (kinds &&& s.kind) != 0 && f s
  | Option.none => false

def dstRule (x : BitVec 9) (kinds : Nat) (f : Dst → Bool) : Bool :=
  match Dst.ofBits x with
  | some d => (kinds &&& d.kind) != 0 && f d
  | Option.none => false

/-- OPC 20 to 89: the instructions that may push and that may carry N (R205, R212). -/
def pushOpc (opc : Nat) : Bool := 0x20 ≤ opc && opc ≤ 0x89

/-- Which words may belong to a chain (R211): NOP, and OPC 20 to 89 but for SLDLIT, SMOVS, SMOVC,
VLDLIT, MOVS and any t destination. -/
def chainable (opc : Nat) (dst : BitVec 9) : Bool :=
  opc = 0 ||
  (pushOpc opc && !(opc ∈ [0x2F, 0x37, 0x38, 0x55, 0x56]) &&
    (match Dst.ofBits dst with | some (.t _) => false | _ => true))

/-- The TYPE rule: the row's values, narrowed where another field decides (R272, R304, R305). -/
def tyRule (opc ty : Nat) (row : OpRow) (sbImm subop : Nat) : Bool :=
  ty ∈ row.tys &&
  (if opc = 0x5E ∨ opc = 0x5F then
     (let o := if opc = 0x5F && sbImm < 16 then sbImm % 8 else sbImm
      if o ≤ 2 then ty ≤ 12 else if o ≤ 5 then ty ≤ 8 || 15 ≤ ty else true)
   else if opc = 0xA6 ∨ opc = 0xA7 then !((subop = 1 || subop = 2) && 15 ≤ ty)
   else true)

/-- DST rules that the kinds alone do not say. -/
def dstExtra (opc ty sizeB aKind : Nat) (d : Dst) : Bool :=
  if opc < 0x20 then (if opc = 0x0A then d.evenIf true else true)
  else if isPairOp opc || opc = 0x5B then d.evenIf true
  else if opc = 0x54 then d.evenIf (ty = 16) && (d.kind != 8 || ty = 15)
  else if opc = 0x5C then (if ty = 6 then d.kind = 2 else d.kind = 64)
  else if opc ∈ [0x56, 0x58, 0x59, 0x5A, 0x60, 0x61, 0x36, 0x37, 0x38] then true
  else if opc < 0xA0 then d.evenIf (tyWidth ty = 64)
  else if opc ∈ [0xA0, 0xA2, 0xA6, 0xA7, 0xA8, 0xB0] then d.group sizeB
  else if opc = 0xDA then (if aKind = 1 then d.kind != 2 else d.kind != 1)
  else if opc = 0xE0 ∨ opc = 0xE1 then true
  else true

/-- SA rules that the kinds alone do not say. -/
def saExtra (opc ty sbImm : Nat) (s : Src) : Bool :=
  if opc < 0x20 then
    s.perm.toNat * (if s.kind = 8 then 1 else 0) = 0 && s.md = 0 &&
    (if opc = 0x03 ∨ opc = 0x05 then s.evenIf true
     else if opc = 0x0A then (if ty = 0 then s.kind = 512 else s.kind != 512 && s.evenIf true)
     else if opc = 0x08 ∨ opc = 0x09 ∨ opc = 0x0F then s.immIn 0 8191
     else true)
  else if opc < 0xA0 then
    let t := srcTy opc ty 0 sbImm
    (if isPairOp opc then s.evenIf true else modOk t s && s.evenIf (tyWidth t = 64)) &&
    (if opc = 0x34 then s.perm = 0
     else if opc = 0x36 then (if ty ≤ 3 then s.kind = 32 else s.kind != 32)
     else if opc = 0x37 ∨ opc = 0x38 then s.immIn 0 4095
     else if opc = 0x54 then (ty = 15 || (s.kind &&& kU) != 0)
     else if opc = 0x58 then (s.kind = 16 || s.kind = 256)
     else if opc = 0x5C then
       (if ty ≤ 3 ∨ ty = 6 then s.kind = 64 else if ty = 4 then s.kind = 2 || s.kind = 128
        else s.kind = 16)
     else if opc = 0x60 then s.perm = 0
     else true)
  else
    s.md = 0 &&
    (if opc ≤ 0xB4 ∨ opc = 0xB6 ∨ opc = 0xC0 ∨ opc = 0xC6 then s.evenIf true
     else if opc = 0xC1 ∨ opc = 0xC2 ∨ opc = 0xC3 then s.immIn 0 15
     else if opc = 0xC4 ∨ opc = 0xC5 ∨ opc = 0xC7 then s.immIn 0 63
     else if opc = 0xD2 then s.immIn 0 8191
     else if opc = 0xE4 then s.immIn 0 255
     else if opc = 0xE5 then s.immIn 0 256
     else true)

/-- SB rules that the kinds alone do not say. -/
def sbExtra (opc ty sizeB : Nat) (s : Src) : Bool :=
  if opc < 0x20 then
    (if opc = 0x02 then
       (if ty % 8 = 2 then s.kind != 512 && s.immIn 0 8191 && s.md = 0 else s.kind = 512)
     else true)
  else if opc < 0xA0 then
    let t := srcTy opc ty 1 0
    (if isPairOp opc then s.evenIf true else modOk t s && s.evenIf (tyWidth t = 64)) &&
    (if opc = 0x36 then
       (if ty ≤ 3 then s.kind = 32 else if ty = 4 then s.kind = 512 else s.kind != 512 && s.kind != 32)
     else if opc = 0x58 then (if ty = 4 then s.kind = 512 else s.kind = 16 || s.kind = 256)
     else if opc = 0x5B then s.immIn 0 1
     else if opc = 0x5C then
       (if ty ≤ 3 then s.kind = 64 else if ty = 5 then s.kind = 512
        else s.kind = 256 && s.immIn 0 1)
     else if opc = 0x5E then s.immIn 0 5
     else if opc = 0x5F then s.immIn 0 5 || s.immIn 8 13
     else if opc = 0x80 ∨ opc = 0x81 then s.immIn 9 12
     else if opc = 0x82 then s.immIn 1 8
     else true)
  else if opc ∈ [0xA1, 0xA3, 0xA6, 0xA7, 0xA8, 0xA9, 0xB0] then
    s.group sizeB && (if sizeB * 8 = tyWidth ty then modOk ty s else s.md = 0)
  else
    s.md = 0 &&
    (if opc = 0xAA then s.immIn 0 8191
     else if opc = 0xB4 then s.immIn 1 65535
     else if opc = 0xB7 then s.evenIf true
     else if opc = 0xC2 then s.immIn 0 8191
     else if opc = 0xD2 then s.immIn 0 8191
     else true)

/-- RM is read by the rounding instructions only (R215, R304, R305, R307 to R312). -/
def rmRead (opc ty sbImm : Nat) : Bool :=
  opc ∈ [0x70, 0x71, 0x72, 0x73, 0x78, 0x7A, 0x7F, 0x80, 0x81, 0x82, 0x83, 0x85, 0x86, 0x87, 0x88, 0x89] ||
  ((opc = 0x5E || opc = 0x5F) && sbImm % 8 = 0 && tyIsFloat ty)

/-- SAT is read by integer add, subtract, multiply and absolute value of typed integers, and by the
floating-point instructions that may overflow (R257, R295, R296, R304 to R312). -/
def satRead (opc ty sbImm : Nat) : Bool :=
  (opc ∈ [0x20, 0x21, 0x22, 0x40, 0x41, 0x42, 0x44, 0x4C] && ty ≤ 8) ||
  opc ∈ [0x70, 0x71, 0x72, 0x73, 0x78, 0x79, 0x7A, 0x7B, 0x7C, 0x7D, 0x7E, 0x80, 0x82, 0x83, 0x85,
    0x86, 0x87, 0x88, 0x89] ||
  ((opc = 0x5E || opc = 0x5F) && sbImm % 8 = 0 && tyIsFloat ty)

/-- A set bit of [63:64 - n] above position lo of the extension, as a rule per bit. -/
def zeroBits (x : BitVec 64) : List Nat → List (Nat × Bool)
  | [] => []
  | b :: bs => (64 + b, !x.getLsbD b) :: zeroBits x bs

/-- Rules of the memory extension (R216, R267): TSEL use (0 zero, 1 optional, 2 required), SIZE use
(0 zero, 1 any, 2 the type's width), legal ORD values, SCOPE use (0 zero, 1 read, 2 CORE or DIE),
HINT read, largest SUBOP, OFF32 allowed. -/
structure MemRow where
  size : Nat
  ords : List Nat
  scope : Nat
  hint : Bool
  tsel : Nat
  subop : Nat
  off : Bool
  deriving DecidableEq, Repr

def memRow (opc : Nat) : MemRow :=
  if opc = 0xA0 ∨ opc = 0xA2 then ⟨1, [0, 1], 1, true, 1, 0, true⟩
  else if opc = 0xA1 ∨ opc = 0xA3 then ⟨1, [0, 2], 1, true, 1, 0, true⟩
  else if opc = 0xA4 then ⟨0, [0, 1], 1, false, 1, 0, true⟩
  else if opc = 0xA5 then ⟨0, [0, 2], 1, false, 1, 0, true⟩
  else if opc = 0xA6 ∨ opc = 0xA7 then ⟨2, [0, 1, 2, 3], 1, false, 1, 6, true⟩
  else if opc = 0xA8 then ⟨2, [0, 1, 2, 3], 1, false, 1, 0, true⟩
  else if opc = 0xA9 then ⟨2, [0], 0, false, 1, 0, true⟩
  else if opc = 0xAA then ⟨0, [0], 0, false, 1, 0, true⟩
  else if opc = 0xAB then ⟨0, [0], 1, false, 0, 0, false⟩
  else if opc = 0xAC then ⟨0, [0], 0, true, 1, 0, true⟩
  else if opc = 0xAD then ⟨0, [0], 2, false, 1, 0, true⟩
  else if opc = 0xAE then ⟨0, [0], 2, false, 0, 0, true⟩
  else if opc = 0xAF then ⟨0, [0], 0, false, 1, 2, true⟩
  else if opc = 0xB0 then ⟨2, [0, 1], 1, false, 1, 4, true⟩
  else if opc = 0xB2 then ⟨0, [0], 1, false, 1, 0, true⟩
  else if opc = 0xB3 then ⟨0, [0], 1, false, 0, 0, true⟩
  else if opc = 0xB4 then ⟨0, [0], 0, false, 0, 0, true⟩
  else if opc = 0xB7 then ⟨0, [0], 0, false, 1, 0, false⟩
  else if opc = 0xC0 ∨ opc = 0xC1 then ⟨0, [0], 1, false, 1, 0, false⟩
  else if opc = 0xC6 then ⟨0, [0], 0, false, 2, 63, true⟩
  else ⟨0, [0], 0, false, 0, 0, false⟩

/-- Bytes of SIZE (R216). -/
def sizeBytes (sz : BitVec 3) : Nat := 2 ^ sz.toNat

/-- Bytes of the SIZE field, what ORD asks (R216), and the number of the time register. -/
def MemW.bytes (w : MemW) : Nat := sizeBytes w.size
def MemW.acquires (w : MemW) : Bool := w.ord.getLsbD 0
def MemW.releases (w : MemW) : Bool := w.ord.getLsbD 1
def MemW.tnum (w : MemW) : Option Nat := w.tsel.map (·.val)

/-- The rules of a memory word's extension, in ascending order of field. -/
def memExtRules (opc ty : Nat) (x : BitVec 64) : List (Nat × Bool) :=
  let m := memRow opc
  let t := x.extractLsb' 32 3
  let sz := x.extractLsb' 35 3
  let sc := (x.extractLsb' 40 3).toNat
  [(64, m.off || x.extractLsb' 0 32 = 0),
   (96, (t.getLsbD 2 || t = 0) && (m.tsel != 0 || t = 0) && (m.tsel != 2 || t.getLsbD 2)),
   (99, if m.size = 0 then sz = 0 else if m.size = 1 then decide (sz.toNat ≤ 4)
        else decide (sz.toNat ≤ 4) && sizeBytes sz * 8 = tyWidth ty),
   (102, (x.extractLsb' 38 2).toNat ∈ m.ords),
   (104, if m.scope = 0 then sc = 0 else if m.scope = 1 then decide (sc ≤ 5) else sc = 2 || sc = 3),
   (107, if m.hint then decide ((x.extractLsb' 43 3).toNat ≤ 3) else x.extractLsb' 43 3 = 0),
   (110, decide ((x.extractLsb' 46 8).toNat ≤ m.subop))] ++
  zeroBits x [54, 55, 56, 57, 58, 59, 60, 61, 62, 63]

/-- The highest extension bit that an engine or system word defines, by field ranges (R315). -/
def engDefined (opc : Nat) : List (Nat × Nat) :=
  if opc = 0xD0 then [(0, 20), (40, 42)]
  else if opc = 0xD1 then [(0, 20)]
  else if opc = 0xD2 ∨ opc = 0xD3 then [(0, 41)]
  else if opc = 0xD4 then [(0, 19)]
  else if opc = 0xD5 then [(0, 35)]
  else if opc = 0xD6 ∨ opc = 0xDB ∨ opc = 0xDC then [(0, 5)]
  else if opc = 0xD7 then [(0, 5), (39, 41)]
  else if opc = 0xD9 then [(0, 20)]
  else if opc = 0xDA then [(0, 2)]
  else if opc = 0xE0 ∨ opc = 0xE1 then [(0, 0)]
  else if opc = 0xE5 then [(40, 42)]
  else []

/-- The k-group size G of two operand formats (R198). -/
def groupSize (fa fb : Nat) : Nat :=
  if fa ≤ 1 ∨ fb ≤ 1 then 8 else if fa = 2 ∨ fb = 2 then 16 else 32

/-- Value rules of the engine extension's fields (R315, R318, R323, R326, R333). -/
def engFieldRules (opc : Nat) (x : BitVec 64) : List (Nat × Bool) :=
  let f := fun (lo w : Nat) => (x.extractLsb' lo w).toNat
  let mn := [(70, decide (1 ≤ f 6 6 ∧ f 6 6 ≤ 32)), (76, decide (1 ≤ f 12 6 ∧ f 12 6 ≤ 32))]
  if opc = 0xD0 then [(64, f 0 21 % 8 = 0), (104, decide (f 40 3 ≤ 5))]
  else if opc = 0xD1 then [(64, f 0 21 % 8 = 0)]
  else if opc = 0xD2 ∨ opc = 0xD3 then
    mn ++ [(82, f 18 16 != 0 && f 18 16 % groupSize (f 34 2) (f 36 2) = 0)]
  else if opc = 0xD4 then mn ++ [(82, decide (f 18 2 ≤ 1))]
  else if opc = 0xD5 then mn ++ [(88, f 24 8 != 255), (99, f 18 2 ≤ 1 || f 35 1 = 1)]
  else if opc = 0xD9 then [(80, decide (6 ≤ f 16 5 ∧ f 16 5 ≤ 20))]
  else if opc = 0xE5 then [(104, f 40 3 = 2 || f 40 3 = 4)]
  else []

/-- The rules of an engine word's extension: value rules, and zero in every undefined bit. -/
def engExtRules (opc : Nat) (x : BitVec 64) : List (Nat × Bool) :=
  (engFieldRules opc x ++
    zeroBits x ((List.range 64).filter fun b => !(engDefined opc).any fun r => r.1 ≤ b && b ≤ r.2))

/-- The rules of the bits above 63, by family (R214, R215). -/
def extRules (opc ty sbImm : Nat) (row : OpRow) (r : Raw) : List (Nat × Bool) :=
  let x := r.ext
  if opc < 0x20 then
    (if opc = 0 then zeroBits x (List.range 64)
     else if opc = 0x0A then [(64, ty = 0 || x.extractLsb' 0 32 = 0)]
     else [])
  else if opc = 0x2E ∨ opc = 0x2F ∨ opc = 0x55 then []
  else if opc < 0xA0 then
    (if r.len = 1 then
       [(64, srcRule (x.extractLsb' 0 16) row.c fun s =>
          let t := srcTy opc ty 2 sbImm
          if isPairOp opc then s.evenIf true else modOk t s && s.evenIf (tyWidth t = 64)),
        (80, x.extractLsb' 16 2 = 0 || rmRead opc ty sbImm),
        (82, !x.getLsbD 18 || satRead opc ty sbImm)] ++
       zeroBits x [19, 20, 21, 22, 23, 24, 25, 26, 27, 28, 29, 30, 31]
     else [])
  else if opc < 0xD0 then memExtRules opc ty x
  else engExtRules opc x

/-- The immediate in SB as a number, where SB carries a sub-operation or a source type (R293). -/
def sbImmOf (sb : BitVec 16) : Nat :=
  if sb.extractLsb' 14 2 = 3 then (sb.extractLsb' 0 14).toNat else 0

/-- Every field rule of a word, with the lowest bit of the field it governs, lowest first (R202). -/
def fieldRules (row : OpRow) (r : Raw) : List (Nat × Bool) :=
  let opc := r.opc.toNat
  let ty := r.ty.toNat
  let sbImm := sbImmOf r.sb
  let sizeB := sizeBytes (r.ext.extractLsb' 35 3)
  let aKind := match Src.ofBits r.sa with | some s => s.kind | Option.none => 0
  [(2, !(opc = 0x12 || opc = 0xB1) || r.s),
   (3, !r.h || chainable opc r.dst),
   (4, !r.n || (pushOpc opc &&
      (match Dst.ofBits r.dst with | some d => d.kind = 1 || d.kind = 2 | Option.none => false))),
   (13, tyRule opc ty row (if r.sb.extractLsb' 14 2 = 3 then sbImm else 2 ^ 14) (r.ext.extractLsb' 46 8).toNat),
   (18, if r.pe then !row.uniform || decide (r.pi.toNat ≤ 3) else r.pi = 0),
   (21, r.pe || !r.pn),
   (22, !r.pe || opc != 0x14),
   (23, dstRule r.dst row.dst (dstExtra opc ty sizeB aKind)),
   (32, srcRule r.sa row.a (saExtra opc ty sbImm)),
   (48, srcRule r.sb row.b (sbExtra opc ty sizeB))] ++
  extRules opc ty sbImm row r

/-- The rule broken with the lowest bit, if any (R202: ascending order of lowest bit). -/
def firstBroken : List (Nat × Bool) → Option Nat
  | [] => none
  | (b, ok) :: rest =>
    match firstBroken rest with
    | some c => if ok then some c else some (min b c)
    | none => if ok then none else some b

/-! ### Building the instruction -/

def Raw.ctl (r : Raw) : Ctl := ⟨r.pe, r.pn, r.pi, r.n, r.h, r.s⟩

def srcOr (x : BitVec 16) : Src := (Src.ofBits x).getD .none
def dstOr (x : BitVec 9) : Dst := (Dst.ofBits x).getD .none

def Raw.ctlW (r : Raw) : CtlW :=
  ⟨r.ctl, r.ty, dstOr r.dst, srcOr r.sa, srcOr r.sb, r.ext.extractLsb' 0 32⟩

def Raw.aluW (r : Raw) : AluW :=
  if r.len = 1 then
    ⟨r.ctl, r.ty, dstOr r.dst, srcOr r.sa, srcOr r.sb, srcOr (r.ext.extractLsb' 0 16),
      r.ext.extractLsb' 16 2, r.ext.getLsbD 18, true⟩
  else ⟨r.ctl, r.ty, dstOr r.dst, srcOr r.sa, srcOr r.sb, .none, 0, false, false⟩

def Raw.memW (r : Raw) : MemW :=
  ⟨r.ctl, r.ty, dstOr r.dst, srcOr r.sa, srcOr r.sb, r.ext.extractLsb' 0 32,
    (if r.ext.getLsbD 34 then some ⟨(r.ext.extractLsb' 32 2).toNat, (r.ext.extractLsb' 32 2).isLt⟩
     else none),
    r.ext.extractLsb' 35 3, r.ext.extractLsb' 38 2, r.ext.extractLsb' 40 3, r.ext.extractLsb' 43 3,
    r.ext.extractLsb' 46 8⟩

def Raw.engW (r : Raw) : EngW :=
  ⟨r.ctl, r.ty, dstOr r.dst, srcOr r.sa, srcOr r.sb, r.ext⟩

def Raw.moviW (r : Raw) : MoviW :=
  ⟨r.ctl, r.ty, dstOr r.dst, srcOr r.sa, srcOr r.sb, r.ext⟩

def Ctl.raw (c : Ctl) (opc len : Nat) (ty : BitVec 5) (dst : Dst) (a b : Src) (ext : BitVec 64) : Raw :=
  ⟨ext, b.toBits, a.toBits, dst.toBits, c.pe, c.pn, c.pi, ty, BitVec.ofNat 8 opc, c.n, c.h, c.s,
    BitVec.ofNat 2 len⟩

def CtlW.raw (w : CtlW) (opc len : Nat) : Raw :=
  w.ctl.raw opc len w.ty w.dst w.a w.b (if len = 1 ∧ opc ≠ 0 then w.off.zeroExtend 64 else 0)

def AluW.raw (w : AluW) (opc : Nat) : Raw :=
  if w.wide then
    w.ctl.raw opc 1 w.ty w.dst w.a w.b (0#45 ++ BitVec.ofBool w.sat ++ w.rm ++ w.c.toBits)
  else w.ctl.raw opc 0 w.ty w.dst w.a w.b 0

def tselBits : Option (Fin 4) → BitVec 3
  | some n => 1#1 ++ BitVec.ofNat 2 n
  | none => 0

def MemW.raw (w : MemW) (opc : Nat) : Raw :=
  w.ctl.raw opc 2 w.ty w.dst w.a w.b
    (0#10 ++ w.subop ++ w.hint ++ w.scope ++ w.ord ++ w.size ++ tselBits w.tsel ++ w.off)

def EngW.raw (w : EngW) (opc : Nat) : Raw := w.ctl.raw opc 2 w.ty w.dst w.a w.b w.ext

def MoviW.raw (w : MoviW) (opc : Nat) : Raw := w.ctl.raw opc 2 w.ty w.dst w.a w.b w.imm

/-! The constructors by opcode, per word layout. -/

def ctlCtors : List (Nat × (CtlW → Instr)) := [
  (0x01, .bra), (0x02, .brt), (0x03, .jmp), (0x04, .call), (0x05, .calli), (0x06, .ret),
  (0x07, .frame), (0x08, .spill), (0x09, .fill), (0x0B, .join), (0x0C, .leave), (0x0D, .waitm),
  (0x0E, .exit), (0x0F, .yield), (0x10, .yieldt), (0x11, .twait), (0x12, .brk), (0x13, .trap),
  (0x14, .tret), (0x15, .bdec), (0x2F, .sldlit), (0x55, .vldlit)]

def aluCtors : List (Nat × (AluW → Instr)) := [
  (0x20, .sadd), (0x21, .ssub), (0x22, .smul), (0x23, .smulh), (0x24, .sand), (0x25, .sor),
  (0x26, .sxor), (0x27, .sshl), (0x28, .sshr), (0x29, .smin), (0x2A, .smax), (0x2B, .scmp),
  (0x2C, .ssel), (0x2D, .smov), (0x30, .spopc), (0x31, .sclz), (0x32, .sbfe), (0x33, .sbfi),
  (0x34, .sgetl), (0x35, .sputl), (0x36, .zop), (0x37, .smovs), (0x38, .smovc), (0x40, .iadd),
  (0x41, .isub), (0x42, .imul), (0x43, .imulh), (0x44, .imad), (0x45, .iand), (0x46, .ior),
  (0x47, .ixor), (0x48, .ishl), (0x49, .ishr), (0x4A, .imin), (0x4B, .imax), (0x4C, .iabs),
  (0x4D, .icmp), (0x4E, .isel), (0x4F, .popc), (0x50, .clz), (0x51, .bfe), (0x52, .bfi),
  (0x53, .bperm), (0x54, .mov), (0x56, .movs), (0x57, .rng), (0x58, .plop), (0x59, .pset),
  (0x5A, .vote), (0x5B, .ballot), (0x5C, .kop), (0x5D, .shfl), (0x5E, .redux), (0x5F, .scan),
  (0x60, .trank), (0x61, .elect), (0x70, .fadd), (0x71, .fsub), (0x72, .fmul), (0x73, .ffma),
  (0x74, .fmin), (0x75, .fmax), (0x76, .fcmp), (0x77, .fclass), (0x78, .frcp), (0x79, .frsq),
  (0x7A, .fsqrt), (0x7B, .fex2), (0x7C, .flg2), (0x7D, .fsin), (0x7E, .fcos), (0x7F, .frnd),
  (0x80, .fcvt), (0x81, .ftoi), (0x82, .itof), (0x83, .fpack), (0x84, .funpk), (0x85, .fldexp),
  (0x86, .fdot2), (0x87, .ffma2), (0x88, .fadd2), (0x89, .fmul2)]

def memCtors : List (Nat × (MemW → Instr)) := [
  (0xA0, .ld), (0xA1, .st), (0xA2, .ldu), (0xA3, .stu), (0xA4, .ldtag), (0xA5, .sttag),
  (0xA6, .atom), (0xA7, .atomu), (0xA8, .cas), (0xA9, .cadd), (0xAA, .clrc), (0xAB, .fence),
  (0xAC, .pref), (0xAD, .lck), (0xAE, .ulck), (0xAF, .cmo), (0xB0, .waitc), (0xB1, .bar),
  (0xB2, .bara), (0xB3, .barw), (0xB4, .bari), (0xB5, .gget), (0xB6, .gset), (0xB7, .gadd),
  (0xC0, .rput), (0xC1, .rtake), (0xC2, .rdone), (0xC3, .rstat), (0xC4, .fjoin), (0xC5, .fleave),
  (0xC6, .fld), (0xC7, .fset)]

def engCtors : List (Nat × (EngW → Instr)) := [
  (0xD0, .chkw), (0xD1, .chkt), (0xD2, .mma), (0xD3, .mmas), (0xD4, .ald), (0xD5, .ast),
  (0xD6, .azero), (0xD7, .await), (0xD8, .oprdy), (0xD9, .phint), (0xDA, .tqadd), (0xDB, .asave),
  (0xDC, .arest), (0xE0, .launch), (0xE1, .launchi), (0xE2, .waitg), (0xE3, .fresume), (0xE4, .genbump),
  (0xE5, .tlbinv), (0xE6, .wrd), (0xE7, .wwr), (0xE8, .halt), (0xE9, .snap)]

/-- The instruction of a word that breaks no rule. -/
def Raw.build (r : Raw) : Option Instr :=
  let opc := r.opc.toNat
  if opc = 0 then
    some (if r.len = 0 then .nop r.ctlW else if r.len = 1 then .nop96 r.ctlW else .nop128 r.ctlW)
  else if opc = 0x0A then some (if r.ty = 0 then .meet r.ctlW else .meetReg r.ctlW)
  else if opc = 0x2E then some (.smovi r.moviW)
  else if opc < 0x20 ∨ opc = 0x2F ∨ opc = 0x55 then (ctlCtors.lookup opc).map (· r.ctlW)
  else if opc < 0xA0 then (aluCtors.lookup opc).map (· r.aluW)
  else if opc < 0xD0 then (memCtors.lookup opc).map (· r.memW)
  else (engCtors.lookup opc).map (· r.engW)

/-- Length and opcode checks, then the field rules (R202, R218, R219). -/
def decodeRaw (r : Raw) : Except Reject Instr :=
  if r.len = 3 then .error .illop
  else
    match opRow r.opc.toNat with
    | none => .error .illop
    | some row =>
      if !row.lens.testBit r.len.toNat then .error (.illlen r.len.toNat)
      else
        match firstBroken (fieldRules row r) with
        | some b => .error (.illfld b)
        | none => match r.build with | some i => .ok i | none => .error .illop

/-- A little-endian number of bytes (R200). -/
def leNat : List Byte → Nat
  | [] => 0
  | b :: bs => b.toNat + 256 * leNat bs

/-- The n low bytes of a number, lowest first. -/
def leBytes : Nat → Nat → List Byte
  | 0, _ => []
  | n + 1, x => BitVec.ofNat 8 x :: leBytes n (x / 256)

/-- The decoder of R202 on the bytes at pc (at least as many as the word has; a missing byte reads 0):
alignment, length, fetch block, opcode, field rules. Answers the instruction and its length. -/
def decodeWord (pc : Nat) (bs : List Byte) : Except Reject (Instr × Nat) :=
  let len := (BitVec.ofNat 2 (leNat (bs.take 1)))
  let n := lenBytes len
  if pc % 4 ≠ 0 then .error .align
  else if len = 3 then .error .illop
  else if pc % 32 + n > 32 then .error (.illlen len.toNat)
  else
    match decodeRaw (Raw.ofBits (BitVec.ofNat 128 (leNat (bs.take n)))) with
    | .ok i => .ok (i, n)
    | .error e => .error e

/-! ### The encoder -/

/-- The fields of an issued instruction; none for a step that no word encodes. -/
def Instr.raw : Instr → Option Raw
  | .nop w => some (w.raw 0x00 0)
  | .nop96 w => some (w.raw 0x00 1)
  | .nop128 w => some (w.raw 0x00 2)
  | .bra w => some (w.raw 0x01 1)
  | .brt w => some (w.raw 0x02 1)
  | .jmp w => some (w.raw 0x03 0)
  | .call w => some (w.raw 0x04 1)
  | .calli w => some (w.raw 0x05 0)
  | .ret w => some (w.raw 0x06 0)
  | .frame w => some (w.raw 0x07 0)
  | .spill w => some (w.raw 0x08 0)
  | .fill w => some (w.raw 0x09 0)
  | .meet w => some (w.raw 0x0A 1)
  | .meetReg w => some (w.raw 0x0A 1)
  | .join w => some (w.raw 0x0B 0)
  | .leave w => some (w.raw 0x0C 0)
  | .waitm w => some (w.raw 0x0D 0)
  | .exit w => some (w.raw 0x0E 0)
  | .yield w => some (w.raw 0x0F 0)
  | .yieldt w => some (w.raw 0x10 0)
  | .twait w => some (w.raw 0x11 0)
  | .brk w => some (w.raw 0x12 0)
  | .trap w => some (w.raw 0x13 0)
  | .tret w => some (w.raw 0x14 0)
  | .bdec w => some (w.raw 0x15 1)
  | .sadd w => some (w.raw 0x20)
  | .ssub w => some (w.raw 0x21)
  | .smul w => some (w.raw 0x22)
  | .smulh w => some (w.raw 0x23)
  | .sand w => some (w.raw 0x24)
  | .sor w => some (w.raw 0x25)
  | .sxor w => some (w.raw 0x26)
  | .sshl w => some (w.raw 0x27)
  | .sshr w => some (w.raw 0x28)
  | .smin w => some (w.raw 0x29)
  | .smax w => some (w.raw 0x2A)
  | .scmp w => some (w.raw 0x2B)
  | .ssel w => some (w.raw 0x2C)
  | .smov w => some (w.raw 0x2D)
  | .spopc w => some (w.raw 0x30)
  | .sclz w => some (w.raw 0x31)
  | .sbfe w => some (w.raw 0x32)
  | .sbfi w => some (w.raw 0x33)
  | .sgetl w => some (w.raw 0x34)
  | .sputl w => some (w.raw 0x35)
  | .zop w => some (w.raw 0x36)
  | .smovs w => some (w.raw 0x37)
  | .smovc w => some (w.raw 0x38)
  | .smovi w => some (w.raw 0x2E)
  | .sldlit w => some (w.raw 0x2F 1)
  | .iadd w => some (w.raw 0x40)
  | .isub w => some (w.raw 0x41)
  | .imul w => some (w.raw 0x42)
  | .imulh w => some (w.raw 0x43)
  | .imad w => some (w.raw 0x44)
  | .iand w => some (w.raw 0x45)
  | .ior w => some (w.raw 0x46)
  | .ixor w => some (w.raw 0x47)
  | .ishl w => some (w.raw 0x48)
  | .ishr w => some (w.raw 0x49)
  | .imin w => some (w.raw 0x4A)
  | .imax w => some (w.raw 0x4B)
  | .iabs w => some (w.raw 0x4C)
  | .icmp w => some (w.raw 0x4D)
  | .isel w => some (w.raw 0x4E)
  | .popc w => some (w.raw 0x4F)
  | .clz w => some (w.raw 0x50)
  | .bfe w => some (w.raw 0x51)
  | .bfi w => some (w.raw 0x52)
  | .bperm w => some (w.raw 0x53)
  | .mov w => some (w.raw 0x54)
  | .movs w => some (w.raw 0x56)
  | .rng w => some (w.raw 0x57)
  | .plop w => some (w.raw 0x58)
  | .pset w => some (w.raw 0x59)
  | .vote w => some (w.raw 0x5A)
  | .ballot w => some (w.raw 0x5B)
  | .kop w => some (w.raw 0x5C)
  | .shfl w => some (w.raw 0x5D)
  | .redux w => some (w.raw 0x5E)
  | .scan w => some (w.raw 0x5F)
  | .trank w => some (w.raw 0x60)
  | .elect w => some (w.raw 0x61)
  | .fadd w => some (w.raw 0x70)
  | .fsub w => some (w.raw 0x71)
  | .fmul w => some (w.raw 0x72)
  | .ffma w => some (w.raw 0x73)
  | .fmin w => some (w.raw 0x74)
  | .fmax w => some (w.raw 0x75)
  | .fcmp w => some (w.raw 0x76)
  | .fclass w => some (w.raw 0x77)
  | .frcp w => some (w.raw 0x78)
  | .frsq w => some (w.raw 0x79)
  | .fsqrt w => some (w.raw 0x7A)
  | .fex2 w => some (w.raw 0x7B)
  | .flg2 w => some (w.raw 0x7C)
  | .fsin w => some (w.raw 0x7D)
  | .fcos w => some (w.raw 0x7E)
  | .frnd w => some (w.raw 0x7F)
  | .fcvt w => some (w.raw 0x80)
  | .ftoi w => some (w.raw 0x81)
  | .itof w => some (w.raw 0x82)
  | .fpack w => some (w.raw 0x83)
  | .funpk w => some (w.raw 0x84)
  | .fldexp w => some (w.raw 0x85)
  | .fdot2 w => some (w.raw 0x86)
  | .ffma2 w => some (w.raw 0x87)
  | .fadd2 w => some (w.raw 0x88)
  | .fmul2 w => some (w.raw 0x89)
  | .vldlit w => some (w.raw 0x55 1)
  | .ld w => some (w.raw 0xA0)
  | .st w => some (w.raw 0xA1)
  | .ldu w => some (w.raw 0xA2)
  | .stu w => some (w.raw 0xA3)
  | .ldtag w => some (w.raw 0xA4)
  | .sttag w => some (w.raw 0xA5)
  | .atom w => some (w.raw 0xA6)
  | .atomu w => some (w.raw 0xA7)
  | .cas w => some (w.raw 0xA8)
  | .cadd w => some (w.raw 0xA9)
  | .clrc w => some (w.raw 0xAA)
  | .fence w => some (w.raw 0xAB)
  | .pref w => some (w.raw 0xAC)
  | .lck w => some (w.raw 0xAD)
  | .ulck w => some (w.raw 0xAE)
  | .cmo w => some (w.raw 0xAF)
  | .waitc w => some (w.raw 0xB0)
  | .bar w => some (w.raw 0xB1)
  | .bara w => some (w.raw 0xB2)
  | .barw w => some (w.raw 0xB3)
  | .bari w => some (w.raw 0xB4)
  | .gget w => some (w.raw 0xB5)
  | .gset w => some (w.raw 0xB6)
  | .gadd w => some (w.raw 0xB7)
  | .rput w => some (w.raw 0xC0)
  | .rtake w => some (w.raw 0xC1)
  | .rdone w => some (w.raw 0xC2)
  | .rstat w => some (w.raw 0xC3)
  | .fjoin w => some (w.raw 0xC4)
  | .fleave w => some (w.raw 0xC5)
  | .fld w => some (w.raw 0xC6)
  | .fset w => some (w.raw 0xC7)
  | .chkw w => some (w.raw 0xD0)
  | .chkt w => some (w.raw 0xD1)
  | .mma w => some (w.raw 0xD2)
  | .mmas w => some (w.raw 0xD3)
  | .ald w => some (w.raw 0xD4)
  | .ast w => some (w.raw 0xD5)
  | .azero w => some (w.raw 0xD6)
  | .await w => some (w.raw 0xD7)
  | .oprdy w => some (w.raw 0xD8)
  | .phint w => some (w.raw 0xD9)
  | .tqadd w => some (w.raw 0xDA)
  | .asave w => some (w.raw 0xDB)
  | .arest w => some (w.raw 0xDC)
  | .launch w => some (w.raw 0xE0)
  | .launchi w => some (w.raw 0xE1)
  | .waitg w => some (w.raw 0xE2)
  | .fresume w => some (w.raw 0xE3)
  | .genbump w => some (w.raw 0xE4)
  | .tlbinv w => some (w.raw 0xE5)
  | .wrd w => some (w.raw 0xE6)
  | .wwr w => some (w.raw 0xE7)
  | .halt w => some (w.raw 0xE8)
  | .snap w => some (w.raw 0xE9)
  | .yieldExpiry _ _ _ => none
  | .waitcResend _ => none
  | .teamRegisterPropagate _ _ _ => none
  | .issueDecision _ _ => none
  | .storeDrain _ _ _ => none
  | .writeBack _ _ _ => none
  | .drop _ _ _ => none
  | .coreViewFill _ _ _ _ => none
  | .loadSatisfy _ => none
  | .readModifyWrite _ => none
  | .engineStep _ => none
  | .pageWalk _ => none
  | .probeAnswer _ => none
  | .booking _ _ _ => none
  | .controllerAdmission _ => none
  | .dramActivate _ _ _ => none
  | .dataLanding _ => none
  | .promiseExpiry _ => none
  | .homePerform _ _ => none
  | .staleRetranslate _ => none
  | .correctedErrorRetry _ => none
  | .parityRefetch _ => none
  | .linkretry _ => none
  | .cellLineWriteback _ => none
  | .hostSnoop _ => none
  | .hostMemWrite _ _ _ => none
  | .hostMemRead _ _ _ => none
  | .peerRequestArrival _ => none
  | .peerUnreachable _ => none
  | .faultPost _ => none
  | .faultResume _ => none
  | .genbumpHomeUpdate _ _ => none
  | .genbumpAck _ _ => none
  | .genbumpComplete _ => none
  | .shuttleCommand _ _ _ => none
  | .shuttleChunk _ _ _ => none
  | .shuttleCommandComplete _ _ => none
  | .multicastAck _ _ _ _ => none
  | .ringPutAdmit _ _ => none
  | .ringSlotFilled _ _ => none
  | .ringReshape _ => none
  | .ringModeWrite _ => none
  | .hostRingDoorbell _ _ _ _ => none
  | .foldRequestArrival _ => none
  | .foldRoundClose _ _ => none
  | .foldTimerExpiry _ _ => none
  | .foldFill _ => none
  | .foldWindowDelivery _ _ _ _ => none
  | .foldWindowAck _ _ _ _ => none
  | .taskDispatch _ => none
  | .counterRecheck _ _ _ _ => none
  | .taskComplete _ => none
  | .loomEntryBegin _ => none
  | .loomEntryComplete _ => none
  | .declarationStart _ _ => none
  | .declarationExpiry _ _ => none
  | .launchAnswer _ _ => none
  | .launchiDequeue _ => none
  | .queueRotation => none
  | .teamPlacement _ => none
  | .thermalSample _ => none
  | .droopEvent _ => none
  | .priorityPreemption _ => none
  | .preemptRequest _ => none
  | .teamStart _ => none
  | .teamRetire _ => none
  | .gridComplete _ => none
  | .teamStop _ => none
  | .teamSave _ => none
  | .teamResume _ => none
  | .haltRequest _ _ => none
  | .dump _ _ _ _ => none
  | .snapshotLatch _ => none
  | .snapcntWrite _ => none
  | .hmaskWrite _ => none
  | .bplogHeadWrite _ => none
  | .errinjWrite _ => none
  | .contextRegisterWrite _ => none
  | .contextCounterUpdate _ _ => none
  | .registerWrite _ _ => none
  | .checkpoint => none
  | .cellwb => none
  | .snapCommand => none
  | .rate => none
  | .peerroute => none
  | .unknownCommand => none
  | .hbmRetrain _ => none
  | .powerSample _ => none
  | .clockStep => none
  | .thermalThrottle _ _ => none
  | .mainPowerLoss => none
  | .deviceReset => none
  | .stageAdvance => none
  | .imageLoad _ _ => none
  | .getVersion => none
  | .getCapabilities => none
  | .negotiateAlgorithms _ _ => none
  | .getDigests => none
  | .getCertificate _ _ _ => none
  | .challenge _ _ => none
  | .getMeasurements _ => none
  | .debuggerResume _ => none
  | .systemSoftwareEndsGrid _ => none
  | .contextDestroyed _ => none
  | .vectorUnmask _ _ => none
  | .hbmRetrainComplete _ => none

/-- The bytes of an instruction, lowest address first; none for a step that no word encodes. -/
def encode (i : Instr) : Option (List Byte) :=
  i.raw.map fun r => leBytes (lenBytes r.len) r.toBits.toNat

/-- An instruction whose fields break no rule of its opcode, at a legal length. -/
def Instr.fieldsOk (i : Instr) : Bool :=
  match i.raw with
  | none => false
  | some r =>
    match opRow r.opc.toNat with
    | none => false
    | some row => row.lens.testBit r.len.toNat && (firstBroken (fieldRules row r)).isNone

/-- A control word that carries no offset has none (R214). -/
def CtlW.plain (w : CtlW) : Bool := w.off = 0

/-- Only the 96-bit form of an ALU word has a third source, a rounding mode and SAT (R214, R215). -/
def AluW.plain (w : AluW) : Bool := w.wide || (w.c = .none && w.rm = 0 && !w.sat)

/-- The instruction holds nothing that its word has no place for; MEET and MEET_REG differ by TYPE (R250). -/
def Instr.shaped : Instr → Bool
  | .meet w => w.ty = 0
  | .meetReg w => w.ty != 0
  | .nop w | .nop96 w | .nop128 w | .jmp w | .calli w | .ret w | .frame w | .spill w | .fill w | .join w
  | .leave w | .waitm w | .exit w | .yield w | .yieldt w | .twait w | .brk w | .trap w | .tret w => w.plain
  | .sadd w | .ssub w | .smul w | .smulh w | .sand w | .sor w | .sxor w | .sshl w | .sshr w | .smin w
  | .smax w | .scmp w | .ssel w | .smov w | .spopc w | .sclz w | .sbfe w | .sbfi w | .sgetl w | .sputl w
  | .zop w | .smovs w | .smovc w | .iadd w | .isub w | .imul w | .imulh w | .imad w | .iand w | .ior w
  | .ixor w | .ishl w | .ishr w | .imin w | .imax w | .iabs w | .icmp w | .isel w | .popc w | .clz w
  | .bfe w | .bfi w | .bperm w | .mov w | .movs w | .rng w | .plop w | .pset w | .vote w | .ballot w
  | .kop w | .shfl w | .redux w | .scan w | .trank w | .elect w | .fadd w | .fsub w | .fmul w | .ffma w
  | .fmin w | .fmax w | .fcmp w | .fclass w | .frcp w | .frsq w | .fsqrt w | .fex2 w | .flg2 w | .fsin w
  | .fcos w | .frnd w | .fcvt w | .ftoi w | .itof w | .fpack w | .funpk w | .fldexp w | .fdot2 w
  | .ffma2 w | .fadd2 w | .fmul2 w => w.plain
  | .bra _ | .brt _ | .call _ | .bdec _ | .sldlit _ | .vldlit _ => true
  | .smovi _ | .ld _ | .st _ | .ldu _ | .stu _ | .ldtag _ | .sttag _ | .atom _ | .atomu _ | .cas _
  | .cadd _ | .clrc _ | .fence _ | .pref _ | .lck _ | .ulck _ | .cmo _ | .waitc _ | .bar _ | .bara _
  | .barw _ | .bari _ | .gget _ | .gset _ | .gadd _ | .rput _ | .rtake _ | .rdone _ | .rstat _
  | .fjoin _ | .fleave _ | .fld _ | .fset _ | .chkw _ | .chkt _ | .mma _ | .mmas _ | .ald _ | .ast _
  | .azero _ | .await _ | .oprdy _ | .phint _ | .tqadd _ | .asave _ | .arest _ | .launch _ | .launchi _
  | .waitg _ | .fresume _ | .genbump _ | .tlbinv _ | .wrd _ | .wwr _ | .halt _ | .snap _ => true
  | .yieldExpiry _ _ _ | .waitcResend _ | .teamRegisterPropagate _ _ _ | .issueDecision _ _
  | .storeDrain _ _ _ | .writeBack _ _ _ | .drop _ _ _ | .coreViewFill _ _ _ _ | .loadSatisfy _
  | .readModifyWrite _ | .engineStep _ | .pageWalk _ | .probeAnswer _ | .booking _ _ _
  | .controllerAdmission _ | .dramActivate _ _ _ | .dataLanding _ | .promiseExpiry _ | .homePerform _ _
  | .staleRetranslate _ | .correctedErrorRetry _ | .parityRefetch _ | .linkretry _
  | .cellLineWriteback _ | .hostSnoop _ | .hostMemWrite _ _ _ | .hostMemRead _ _ _
  | .peerRequestArrival _ | .peerUnreachable _ | .faultPost _ | .faultResume _ | .genbumpHomeUpdate _ _
  | .genbumpAck _ _ | .genbumpComplete _ | .shuttleCommand _ _ _ | .shuttleChunk _ _ _
  | .shuttleCommandComplete _ _ | .multicastAck _ _ _ _ | .ringPutAdmit _ _ | .ringSlotFilled _ _
  | .ringReshape _ | .ringModeWrite _ | .hostRingDoorbell _ _ _ _ | .foldRequestArrival _
  | .foldRoundClose _ _ | .foldTimerExpiry _ _ | .foldFill _ | .foldWindowDelivery _ _ _ _
  | .foldWindowAck _ _ _ _ | .taskDispatch _ | .counterRecheck _ _ _ _ | .taskComplete _
  | .loomEntryBegin _ | .loomEntryComplete _ | .declarationStart _ _ | .declarationExpiry _ _
  | .launchAnswer _ _ | .launchiDequeue _ | .queueRotation | .teamPlacement _ | .thermalSample _
  | .droopEvent _ | .priorityPreemption _ | .preemptRequest _ | .teamStart _ | .teamRetire _
  | .gridComplete _ | .teamStop _ | .teamSave _ | .teamResume _ | .haltRequest _ _ | .dump _ _ _ _
  | .snapshotLatch _ | .snapcntWrite _ | .hmaskWrite _ | .bplogHeadWrite _ | .errinjWrite _
  | .contextRegisterWrite _ | .contextCounterUpdate _ _ | .registerWrite _ _ | .checkpoint | .cellwb
  | .snapCommand | .rate | .peerroute | .unknownCommand | .hbmRetrain _ | .powerSample _ | .clockStep
  | .thermalThrottle _ _ | .mainPowerLoss | .deviceReset | .stageAdvance | .imageLoad _ _ | .getVersion
  | .getCapabilities | .negotiateAlgorithms _ _ | .getDigests | .getCertificate _ _ _ | .challenge _ _
  | .getMeasurements _ | .debuggerResume _ | .systemSoftwareEndsGrid _ | .contextDestroyed _
  | .vectorUnmask _ _ | .hbmRetrainComplete _ => true

/-- The instruction that the decoder reads from a word of bits w, bit 0 in its first byte; the bits
above nbits are 0. The word stands at the start of a fetch block. -/
def decodeTableWord (nbits w : Nat) : Option Instr :=
  match decodeWord 0 (leBytes 16 (w % 2 ^ nbits)) with
  | .ok (i, _) => some i
  | .error _ => none

end Sys2Proof
end

