-- ==== Sys2Proof/Machine/Float.lean ====
section
/-!
DEFINITION. Numbers to the bit (R188 to R198): exact dyadic values, rounding and overflow, the standard
formats, narrow formats, and the functions of R309.
-/
namespace Sys2Proof.Machine

/-- A floating-point value, exact: mant × 2^exp with a sign; mant 0 is a signed zero. -/
inductive Fl
  | nan
  | inf (neg : Bool)
  | fin (neg : Bool) (mant : Nat) (exp : Int)
  deriving DecidableEq, Repr, Inhabited

/-- A standard format: exponent bits and fraction bits (R188). -/
structure Fmt where
  e : Nat
  m : Nat
  deriving DecidableEq, Repr

def f64Fmt : Fmt := ⟨11, 52⟩
def f32Fmt : Fmt := ⟨8, 23⟩
def f16Fmt : Fmt := ⟨5, 10⟩
def bf16Fmt : Fmt := ⟨8, 7⟩

/-- The format of a TYPE; a packed type's element format. -/
def tyFmt (t : Nat) : Fmt :=
  if t = 12 then f64Fmt else if t = 11 then f32Fmt else if t = 9 ∨ t = 13 then f16Fmt else bf16Fmt

def Fmt.bias (f : Fmt) : Nat := 2 ^ (f.e - 1) - 1
def Fmt.width (f : Fmt) : Nat := 1 + f.e + f.m

/-- The value of an encoding (R188). -/
def Fmt.decode (f : Fmt) (x : Nat) : Fl :=
  let frac := x % 2 ^ f.m
  let ex := x / 2 ^ f.m % 2 ^ f.e
  let neg := x / 2 ^ (f.m + f.e) % 2 = 1
  if ex = 2 ^ f.e - 1 then (if frac = 0 then .inf neg else .nan)
  else if ex = 0 then .fin neg frac (1 - (f.bias : Int) - f.m)
  else .fin neg (2 ^ f.m + frac) ((ex : Int) - f.bias - f.m)

def Fmt.sign (f : Fmt) (neg : Bool) : Nat := if neg then 2 ^ (f.m + f.e) else 0
def Fmt.infBits (f : Fmt) (neg : Bool) : Nat := f.sign neg + (2 ^ f.e - 1) * 2 ^ f.m
def Fmt.maxBits (f : Fmt) (neg : Bool) : Nat := f.infBits neg - 1
def Fmt.nanBits (f : Fmt) : Nat := f.infBits false + 2 ^ (f.m - 1)

/-- Rounding modes RNE, RZ, RDN, RUP (R190): whether the magnitude goes up, from the discarded part in
comparison with one half. -/
def roundUp (rm : Nat) (neg odd : Bool) (half : Ordering) (rest : Bool) : Bool :=
  if rm = 0 then (match half with | .gt => true | .eq => odd | .lt => false)
  else if rm = 2 then neg && rest
  else if rm = 3 then !neg && rest
  else false

/-- mant × 2^exp rounded to a multiple of 2^q by RM: the multiple. -/
def roundAt (rm : Nat) (neg : Bool) (mant : Nat) (exp q : Int) : Nat :=
  if q ≤ exp then mant * 2 ^ (exp - q).toNat
  else
    let sh := (q - exp).toNat
    let sig := mant / 2 ^ sh
    let rem := mant % 2 ^ sh
    sig + (if roundUp rm neg (sig % 2 = 1) (compare (2 * rem) (2 ^ sh)) (rem != 0) then 1 else 0)

/-- Exponent of the leading bit of mant × 2^exp, mant ≠ 0. -/
def leadExp (mant : Nat) (exp : Int) : Int := exp + (Nat.log2 mant : Int)

/-- Whether an overflow of this sign becomes an infinity (R190). -/
def overflowInf (rm : Nat) (neg sat : Bool) : Bool :=
  !sat && (rm = 0 || (rm = 2 && neg) || (rm = 3 && !neg))

/-- A value rounded once into a format (R190). -/
def Fmt.encode (f : Fmt) (rm : Nat) (sat : Bool) : Fl → Nat
  | .nan => f.nanBits
  | .inf neg => f.infBits neg
  | .fin neg mant exp =>
    if mant = 0 then f.sign neg
    else
      let emin : Int := 1 - (f.bias : Int)
      let q := max (leadExp mant exp - f.m) (emin - f.m)
      let sig0 := roundAt rm neg mant exp q
      let (sig, q) := if sig0 = 2 ^ (f.m + 1) then (2 ^ f.m, q + 1) else (sig0, q)
      if sig < 2 ^ f.m then f.sign neg + sig
      else
        let biased := (q + f.m + f.bias).toNat
        if 2 ^ f.e - 1 ≤ biased then
          (if overflowInf rm neg sat then f.infBits neg else f.maxBits neg)
        else f.sign neg + biased * 2 ^ f.m + (sig - 2 ^ f.m)

/-! ### Exact arithmetic -/

def Fl.neg : Fl → Fl
  | .nan => .nan
  | .inf n => .inf (!n)
  | .fin n m e => .fin (!n) m e

/-- The signed multiple of 2^q that a finite value is, for q at most its exponent. -/
def dyad (neg : Bool) (m : Nat) (e q : Int) : Int :=
  let x : Int := ((m * 2 ^ (e - q).toNat : Nat) : Int)
  if neg then -x else x

/-- An exact zero sum of opposite signs is −0 under RDN and +0 otherwise (R190). -/
def zeroSign (rm : Nat) (a b : Bool) : Bool := if a = b then a else rm = 2

def Fl.add (rm : Nat) : Fl → Fl → Fl
  | .nan, _ => .nan
  | _, .nan => .nan
  | .inf a, .inf b => if a = b then .inf a else .nan
  | .inf a, _ => .inf a
  | _, .inf b => .inf b
  | .fin a m e, .fin b k h =>
    let q := min e h
    let x := dyad a m e q + dyad b k h q
    if x = 0 then .fin (if m = 0 ∧ k = 0 then zeroSign rm a b else rm = 2) 0 q
    else .fin (decide (x < 0)) x.natAbs q

def Fl.mul : Fl → Fl → Fl
  | .nan, _ => .nan
  | _, .nan => .nan
  | .inf a, .inf b => .inf (xor a b)
  | .inf a, .fin b m _ => if m = 0 then .nan else .inf (xor a b)
  | .fin a m _, .inf b => if m = 0 then .nan else .inf (xor a b)
  | .fin a m e, .fin b k h => .fin (xor a b) (m * k) (e + h)

/-- Scaled by 2^n. -/
def Fl.scale (n : Int) : Fl → Fl
  | .fin a m e => .fin a m (e + n)
  | x => x

def Fl.isNan : Fl → Bool
  | .nan => true
  | _ => false

def Fl.isNeg : Fl → Bool
  | .nan => false
  | .inf n => n
  | .fin n _ _ => n

/-- The order of two values that are no NaN; −0 and +0 are equal. -/
def Fl.cmp : Fl → Fl → Ordering
  | .inf a, .inf b => compare b.toNat a.toNat
  | .inf a, _ => if a then .lt else .gt
  | _, .inf b => if b then .gt else .lt
  | .fin a m e, .fin b k h => compare (dyad a m e (min e h)) (dyad b k h (min e h))
  | _, _ => .eq

/-- FMIN and FMAX (R307): a single NaN yields the other operand, −0 lies below +0. -/
def Fl.least (big : Bool) (a b : Fl) : Fl :=
  if a.isNan then b else if b.isNan then a
  else
    match a.cmp b with
    | .lt => if big then b else a
    | .gt => if big then a else b
    | .eq => if a.isNeg then (if big then b else a) else (if big then a else b)

/-- An integer as a value. -/
def Fl.ofInt (x : Int) : Fl := .fin (decide (x < 0)) x.natAbs 0

/-- A finite value rounded to an integer by RM, as a magnitude. -/
def roundInt (rm : Nat) (neg : Bool) (mant : Nat) (exp : Int) : Nat := roundAt rm neg mant exp 0

def Fl.roundIntegral (rm : Nat) : Fl → Fl
  | .fin n m e => .fin n (roundInt rm n m e) 0
  | x => x

/-! ### Reciprocal and square roots -/

/-- A quotient or root that is not exact gets one more bit, set, below every bit that counts. -/
def sticky (neg : Bool) (q : Nat) (exp : Int) (exact : Bool) : Fl :=
  if exact then .fin neg q exp else .fin neg (2 * q + 1) (exp - 1)

def Fl.recip : Fl → Fl
  | .nan => .nan
  | .inf n => .fin n 0 0
  | .fin n m e =>
    if m = 0 then .inf n
    else
      let k := Nat.log2 m + 120
      sticky n (2 ^ k / m) (-e - k) (2 ^ k % m = 0)

/-- The integer square root, bit by bit from bit i - 1 down. -/
def isqrtFrom (x : Nat) : Nat → Nat → Nat
  | 0, r => r
  | i + 1, r => isqrtFrom x i (if (r + 2 ^ i) * (r + 2 ^ i) ≤ x then r + 2 ^ i else r)

def isqrt (x : Nat) : Nat := isqrtFrom x (Nat.log2 x / 2 + 1) 0

def Fl.sqrt : Fl → Fl
  | .nan => .nan
  | .inf n => if n then .nan else .inf false
  | .fin n m e =>
    if m = 0 then .fin n 0 0
    else if n then .nan
    else
      let odd := (e % 2).toNat
      let x := m * 2 ^ (odd + 240)
      let r := isqrt x
      sticky false r ((e - odd) / 2 - 120) (r * r = x)

/-- 1 ÷ √a. -/
def Fl.rsqrt : Fl → Fl
  | .nan => .nan
  | .inf n => if n then .nan else .fin false 0 0
  | .fin n m e =>
    if m = 0 then .inf n
    else if n then .nan
    else
      let odd := (e % 2).toNat
      let x := m * 2 ^ odd
      let k := 2 * (Nat.log2 x + 120)
      let r := isqrt (2 ^ k / x)
      sticky false r (-((e - odd) / 2) - k / 2) (r * r * x = 2 ^ k)

/-! ### The transcendental functions, in fixed point of 320 fraction bits (assumption 11) -/

def fixBits : Nat := 320
def fixOne : Nat := 2 ^ fixBits
/-- π and ln 2 in fixed point, rounded down. -/
def fixPi : Nat := 0x3243f6a8885a308d313198a2e03707344a4093822299f31d0082efa98ec4e6c89452821e638d01377
def fixLn2 : Nat := 0xb17217f7d1cf79abc9e3b39803f2f6af40f343267298b62d8a0d175b8baafa2be7b876206debac98

/-- Sum of x^k ÷ k! for k from i on, term being the one at i. -/
def expSeries (x : Nat) : Nat → Nat → Nat → Nat
  | 0, _, _ => 0
  | fuel + 1, i, term => term + expSeries x fuel (i + 1) (term * x / fixOne / (i + 1))

/-- x − x^3 ÷ 3! + …: the terms of even place less those of odd place. -/
def sinSeries (x2 : Nat) : Nat → Nat → Nat → Int
  | 0, _, _ => 0
  | fuel + 1, i, term => (term : Int) - sinSeries x2 fuel (i + 2) (term * x2 / fixOne / ((i + 1) * (i + 2)))

/-- z + z^3 ÷ 3 + z^5 ÷ 5 + … -/
def atanhSeries (z2 : Nat) : Nat → Nat → Nat → Nat
  | 0, _, _ => 0
  | fuel + 1, i, term => term / i + atanhSeries z2 fuel (i + 2) (term * z2 / fixOne)

/-- m × 2^e in fixed point, for values whose bits all lie within it. -/
def toFix (m : Nat) (e : Int) : Nat :=
  if 0 ≤ e + fixBits then m * 2 ^ (e + fixBits).toNat else m / 2 ^ (-(e + fixBits)).toNat

/-- 2^a (R309). Beyond ±2^12 the result has overflowed or underflowed in every format. -/
def Fl.exp2 : Fl → Fl
  | .nan => .nan
  | .inf n => if n then .fin false 0 0 else .inf false
  | .fin n m e =>
    if m = 0 then .fin false 1 0
    else if 12 ≤ leadExp m e then .fin false 1 (if n then -4096 else 4096)
    else
      let x : Int := if n then -(toFix m e : Int) else toFix m e
      let k := x / fixOne
      let f := (x % fixOne).toNat
      if f = 0 then .fin false 1 k
      else sticky false (expSeries (f * fixLn2 / fixOne) 100 0 fixOne) (k - fixBits) false

/-- log2 a. -/
def Fl.log2 : Fl → Fl
  | .nan => .nan
  | .inf n => if n then .nan else .inf false
  | .fin n m e =>
    if m = 0 then .inf true
    else if n then .nan
    else
      let k := leadExp m e
      if m = 2 ^ Nat.log2 m then .ofInt k
      else
        let y := m * 2 ^ (fixBits - Nat.log2 m)
        let z := (y - fixOne) * fixOne / (y + fixOne)
        let ln := 2 * atanhSeries (z * z / fixOne) 130 1 z
        let v : Int := k * fixOne + ((ln * fixOne / fixLn2 : Nat) : Int)
        sticky (decide (v < 0)) v.natAbs (-(fixBits : Int)) false

/-- sin(π u) for u in [0, 2) in fixed point; zero is given as none. -/
def sinPiFix (u : Nat) : Option Fl :=
  let neg := fixOne ≤ u
  let u1 := u % fixOne
  let u2 := if fixOne < 2 * u1 then fixOne - u1 else u1
  if u2 = 0 then none
  else if 2 * u2 = fixOne then some (.fin neg 1 0)
  else
    let x := u2 * fixPi / fixOne
    some (sticky neg (sinSeries (x * x / fixOne) 100 1 x).natAbs (-(fixBits : Int)) false)

/-- sin(π a): an integer gives a zero of a's sign. -/
def Fl.sinPi : Fl → Fl
  | .nan => .nan
  | .inf _ => .nan
  | .fin n m e => (sinPiFix (toFix m e % (2 * fixOne))).elim (.fin n 0 0) fun x => if n then x.neg else x

/-- cos(π a): an odd multiple of one half gives +0. -/
def Fl.cosPi : Fl → Fl
  | .nan => .nan
  | .inf _ => .nan
  | .fin _ m e => (sinPiFix ((toFix m e + fixOne / 2) % (2 * fixOne))).getD (.fin false 0 0)

/-! ### Narrow formats (R192 to R197) -/

/-- The fields of a format register. -/
structure Narrow where
  cw : Bool
  s : Bool
  e : Nat
  m : Nat
  bias : Int
  spec : Nat
  nz : Bool
  deriving DecidableEq, Repr

def Narrow.ofReg (x : Nat) : Narrow where
  cw := x.testBit 0
  s := x.testBit 1
  e := x / 4 % 8
  m := x / 32 % 8
  bias := if 128 ≤ x / 256 % 256 then (x / 256 % 256 : Int) - 256 else (x / 256 % 256 : Nat)
  spec := x / 65536 % 4
  nz := x.testBit 18

def Narrow.width (f : Narrow) : Nat := f.s.toNat + f.e + f.m

/-- R193. -/
def Narrow.valid (f : Narrow) : Bool :=
  decide (2 ≤ f.width) && decide (f.width ≤ (if f.cw then 8 else 4)) && f.spec != 3 &&
  (f.spec != 0 || decide (1 ≤ f.e)) && (!f.nz || (f.s && f.spec != 0))

/-- The code that is the only NaN of SPEC 1 and 2 (R195). -/
def Narrow.onlyNan (f : Narrow) : Option Nat :=
  if f.nz then some (2 ^ (f.width - 1)) else if f.spec = 1 then some (2 ^ f.width - 1) else none

/-- The value of a code (R194, R195). -/
def Narrow.decode (f : Narrow) (code : Nat) : Fl :=
  let c := code % 2 ^ f.width
  let neg := f.s && (c / 2 ^ (f.e + f.m) = 1)
  let ex := c / 2 ^ f.m % 2 ^ f.e
  let mt := c % 2 ^ f.m
  if f.spec = 0 && ex = 2 ^ f.e - 1 then (if mt = 0 then .inf neg else .nan)
  else if f.onlyNan = some c then .nan
  else if f.e = 0 then .fin neg mt (-f.bias)
  else if ex = 0 then .fin neg mt (1 - f.bias - f.m)
  else .fin neg (2 ^ f.m + mt) ((ex : Int) - f.bias - f.m)

/-- The code of the finite value of largest magnitude with a sign (R195). -/
def Narrow.maxCode (f : Narrow) (neg : Bool) : Nat :=
  (List.range (2 ^ f.width)).foldl (fun best c =>
    match f.decode c, f.decode best with
    | .fin n m e, .fin bn bm be =>
      if n = neg && (bn != neg || Fl.cmp (.fin false m e) (.fin false bm be) = .gt) then c else best
    | .fin n _ _, _ => if n = neg then c else best
    | _, _ => best) 0

def Narrow.hasNan (f : Narrow) : Bool := if f.spec = 0 then decide (1 ≤ f.m) else f.onlyNan.isSome

def Narrow.nanCode (f : Narrow) : Nat :=
  if f.spec = 0 then (2 ^ f.e - 1) * 2 ^ f.m + 2 ^ (f.m - 1) else f.onlyNan.getD 0

/-- The code of a value that lies on the format's grid within its range. -/
def Narrow.codeOf (f : Narrow) (neg : Bool) (sig : Nat) (q : Int) : Nat :=
  let sgn := if neg then 2 ^ (f.e + f.m) else 0
  if f.e = 0 then sgn + sig
  else if sig < 2 ^ f.m then sgn + sig
  else sgn + (q + f.m + f.bias).toNat * 2 ^ f.m + (sig - 2 ^ f.m)

/-- encode of R196, of a value already divided by the block's scale. -/
def Narrow.encode (f : Narrow) (rm : Nat) (sat : Bool) : Fl → Nat
  | .nan => if f.hasNan then f.nanCode else 0
  | .inf neg =>
    if !f.s && neg then 0
    else if f.spec = 0 then (if neg then 2 ^ (f.e + f.m) else 0) + (2 ^ f.e - 1) * 2 ^ f.m
    else f.maxCode neg
  | .fin neg m e =>
    let nought := if neg && f.s && !f.nz then 2 ^ (f.e + f.m) else 0
    if !f.s && neg then 0
    else if m = 0 then nought
    else
      let low : Int := if f.e = 0 then -f.bias else 1 - f.bias - f.m
      let q0 := if f.e = 0 then low else max (leadExp m e - f.m) low
      let sig0 := roundAt rm neg m e q0
      let (sig, q) := if f.e != 0 && sig0 = 2 ^ (f.m + 1) then (2 ^ f.m, q0 + 1) else (sig0, q0)
      let mx := f.maxCode neg
      let tooBig : Bool :=
        match f.decode mx with
        | .fin _ bm be => decide (Fl.cmp (.fin false sig q) (.fin false bm be) = .gt)
        | _ => false
      if tooBig then
        (if f.spec = 0 && overflowInf rm neg sat then
           (if neg then 2 ^ (f.e + f.m) else 0) + (2 ^ f.e - 1) * 2 ^ f.m
         else mx)
      else if sig = 0 then nought
      else f.codeOf neg sig q

end Sys2Proof.Machine
end

