-- ==== Sys2Proof/Config.lean ====
section
/-!
DEFINITION. What the manual leaves to the implementation or leaves open: free values with no body, so
that no proof can see what they are, and the fixed figures of the manual.
-/
namespace Sys2Proof.Config

/-- The free values: the n-th one, of any width (R4; assumption 4). -/
opaque free : Nat → Nat

/-- The free value as w bits. -/
def freeBits (w n : Nat) : BitVec w := BitVec.ofNat w (free n)

/-- The move taken when the agenda is empty (R98, R102; assumption 1). -/
opaque freeMove : Nat → Move

/-- The distance D of a CANCEL image at a cycle, which R94 does not give (assumption 71). -/
opaque freeDistance : Nat → Nat → Nat

/-- The offset of a reed within a path, by reed class (R83, R365; assumption 17). -/
opaque reedOffset : Nat → Nat

/-- The n-th draw of an HBM channel under a seed of test mode (R65; assumption 83). -/
opaque testDraw : Nat → Nat → Nat → Nat

/-- The L2 set of a line: 1,024 sets per slice, index function not given (R40; assumption 18). -/
opaque l2Set : Nat → Nat

/-- The set of a cell line in its channel's memory-side cache (R63; assumption 18). -/
opaque cellSet : Nat → Nat

/-- SHA-512 of a byte string, and whether a P-521 signature verifies under a trusted key: functions
the manual names and other standards define (R241, R360; assumption 30). -/
opaque sha512 : List Byte → Nat
opaque signatureValid : List Byte → Bool

/-- The bytes of an SPDM response that R360 does not give, by request and counter (assumption 30). -/
opaque spdmBytes : Nat → List Byte

/-! Figures of the manual. -/

/-- Scratchpad bytes of a core (R44). -/
def spadBytes : Nat := 1572864
/-- Cores of the device (R1). -/
def cores : Nat := 384
/-- Homes that check a generation (R35): 256 L2 slices, 256 memory-side channels, 16 LPDDR controllers
with their cell units, 12 peer-link ends. -/
def homes : Nat := 540
/-- Requests a core may have outstanding (R47). -/
def maxRequests : Nat := 2048
/-- Entries of the pending-launch pool of a tenant (R164). -/
def launchPool : Nat := 4096
/-- Microseconds in core cycles at 1.1 GHz: the hub's timers are counted in these (R156, R153). -/
def cyclesPerMicro : Nat := 1100

/-- Idle promise figure of a level code of R90 (R40; level 2 depends on distance, level 8 on R88). -/
def idleFigure (level dist : Nat) : Nat :=
  match level with
  | 0 => 8
  | 1 => 20
  | 2 => if dist = 0 then 60 else if dist = 1 then 90 else 150
  | 3 => 110
  | 4 => 170
  | 5 => 280
  | 6 => 480
  | 7 => 900
  | _ => 40

/-- The answer of a probe reaches the core half the figure after issue (R85). -/
def answerFigure (level dist : Nat) : Nat := idleFigure level dist / 2

end Sys2Proof.Config
end

