-- ==== Sys2Proof/Machine/State.lean ====
section
/-!
DEFINITION. The state of the device as plain data: everything the manual gives it, and the reset state.
Keys of tables: a core is its NUMBER (R262), a weft is 64 × core + slot, a fold is 64 × die + number, an
HMASK is 8 × partition + n. A table entry not listed is the empty one of its type.
-/
namespace Sys2Proof.Machine

/-- A detail that a touch of a marked register reports: cause, SUB and TADDR (R93, R129, R135); req is the request
that left it, 0 for none. -/
structure Mark where
  cause : Nat
  sub : Nat
  addr : Word
  req : Nat
  deriving DecidableEq, Repr, Inhabited

/-- Where a request's value lands. -/
inductive ReqDst
  | none
  | v
  | s (n : Nat)
  | z (n : Nat)
  | p (n : Nat)
  deriving DecidableEq, Repr, Inhabited

/-- A broken-pending or refused-pending mark of a time register (R93, R129, R135): what its touch
raises, and the destination of its request, whose reading is a touch too (reg and cnt for v). -/
structure TMark where
  cause : Nat
  sub : Nat
  addr : Word
  dst : ReqDst
  reg : Nat
  cnt : Nat
  deriving DecidableEq, Repr, Inhabited

/-- Why a lane that is not runnable waits (R160, R94, R251, R281). issue: it is runnable, and its last decision was
turned away at issue (R47, R81, R161). park: parked at an instruction, by YIELDT on a register in FAULT; parkPool: by
TWAIT. -/
inductive Wait
  | none
  | sleepUntil (cyc : Nat)
  | treg (n : Nat) (late : Bool)
  | park (t : Option Nat)
  | parkPool (n : Nat)
  | dst
  | meeting
  | mask (k : Nat)
  | barrier
  | issue
  deriving DecidableEq, Repr, Inhabited

/-- One thread (R148): window, stack, time registers with the requests they carry and their marks,
predicates, the latches pushed in the running chain (youngest first), AGE. fileMarks: uncorrectable errors of
the predicate file (keys 0 to 7) and of the time file (8 to 11), as dstMarks has those of v registers (R73). -/
structure Lane where
  started : Bool := false
  exited : Bool := false
  susp : Bool := false
  wait : Wait := .none
  pc : Word := 0
  meet : Word := 0
  wb : Nat := 0
  lo : Nat := 0
  regs : Tab W32 := []
  t : Tab W32 := []
  treq : Tab Nat := []
  broken : Tab TMark := []
  refused : Tab TMark := []
  dstMarks : Tab Mark := []
  fileMarks : Tab Mark := []
  preds : BitVec 8 := 0
  lat : List Word := []
  age : Nat := 0
  deriving DecidableEq, Repr, Inhabited

/-- The kind of a page that is no cell page (R29). -/
inductive PageKind
  | rc
  | so
  | uo
  deriving DecidableEq, Repr, Inhabited

/-- Where an access is performed (R48). peerCell is a cell page of a peer. -/
inductive Tgt
  | mem (pa : Nat) (kind : PageKind)
  | cell (pa cls : Nat)
  | spad (core off : Nat)
  | peer (pa : Nat) (kind : PageKind)
  | peerCell (pa cls : Nat)
  | peerSpad (dev core off : Nat)
  | fold (die fold off : Nat)
  | aperture (ch : Nat)
  | ctlWin (off : Nat)
  deriving DecidableEq, Repr, Inhabited

/-- One entry of a Store Queue (R99): req is the request that tracks it. -/
structure SqEntry where
  lane : Nat
  tgt : Tgt
  bytes : List Byte
  rel : Bool
  scope : Nat
  home : Bool
  req : Nat
  va : Nat
  deriving DecidableEq, Repr, Inhabited

/-- Why a weft takes no decision (R314): the event that ends the hold. -/
inductive Hold
  | none
  | req (rid : Nat)
  | chkw (off : Nat) (mask : Word) (scope : Nat)
  | loom (tag : Nat)
  | waitg (handle : Nat) (dst : Nat)
  | pwrite (id : Nat)
  | launch (indirect : Bool) (desc : List Byte) (dst zp : Nat)
  | launchFault
  | genbump (asid : Nat) (dst : Option Nat)
  | fetch (asid : Nat)
  deriving DecidableEq, Repr, Inhabited

/-- One weft slot (R148, R168). phgo: lanes that a debugger resume lets past the BAR they stand at (R178). -/
structure Weft where
  live : Bool := false
  team : Nat := 0
  index : Nat := 0
  width : Nat := 32
  stk : Nat := 32
  s : Tab Word := []
  z : BitVec 4 := 0
  kMem : Tab LaneMask := []
  kArr : Tab LaneMask := []
  tbase : Word := 0
  tcause : Word := 0
  tepc : Word := 0
  tlanes : LaneMask := 0
  taddr : Word := 0
  ncause : BitVec 8 := 0
  frozen : Bool := false
  prevPriv : Bool := false
  haltPend : Bool := false
  hmode : Bool := false
  phstep : Bool := false
  phgo : LaneMask := 0
  rfp : Bool := false
  bpt : Bool := false
  foldSel : BitVec 6 := 0
  lanes : Tab Lane := []
  sq : List SqEntry := []
  hold : Hold := .none
  reports : Tab Mark := []
  sMarks : Tab Mark := []
  chosen : Nat := 0
  deriving DecidableEq, Repr, Inhabited

/-- One byte of a core view (R99): absent when not listed; a clean copy or a dirty byte, the kind it
was filled under (uo) and the ASID that filled or last wrote it (R49). doomed: a clean copy that a scope action
drops once the booked hit that holds it is delivered (R87); nothing else reads it. -/
structure ViewByte where
  val : Byte
  dirty : Bool
  uo : Bool
  asid : Nat
  doomed : Bool := false
  deriving DecidableEq, Repr, Inhabited

/-- A successful walk that the core keeps (R27): the leaf and its page. -/
structure TlbEntry where
  asid : Nat
  gen : Nat
  vbase : Nat
  size : Nat
  pbase : Nat
  leaf : Word
  deriving DecidableEq, Repr, Inhabited

/-- A pointer entry kept in the walk cache (R27): the entry at an address, as read. -/
structure WalkEntry where
  asid : Nat
  addr : Nat
  val : Word
  deriving DecidableEq, Repr, Inhabited

/-- One 128-byte line of the instruction cache, tagged (R53). -/
structure ILine where
  pa : Nat
  asid : Nat
  gen : Nat
  bytes : List Byte
  deriving DecidableEq, Repr, Inhabited

/-- A pinned 128-byte line and the context that pinned it (R70). -/
structure Pin where
  line : Nat
  ctx : Nat
  stale : Bool
  deriving DecidableEq, Repr, Inhabited

/-- One entry of the broken-promise log with the context that wrote it (R90, R91). -/
structure BpEntry where
  img : BitVec 256
  ctx : Nat
  req : Nat
  deriving DecidableEq, Repr, Inhabited

/-- Who acts: context, tenant, space, weft and privilege of an engine command (R28). -/
structure Agent where
  ctx : Nat
  tenant : Nat
  asid : Nat
  team : Nat
  core : Nat
  slot : Nat
  lane : Nat
  priv : Bool
  deriving DecidableEq, Repr, Inhabited

/-- A shuttle command: template image, SRC and DST with ARG added, agent, members of an MCAST (R119 to R123); stage
tells the staging of a team (R157). copied: the copies that have performed, by chunk and member, 0 where there is one;
done: the chunks with nothing left to come; acks: the acknowledgements due, 512 for those of a Window, 513 for a peer's
ring. -/
structure Cmd where
  tmpl : List Byte
  src : Int
  dst : Int
  agent : Agent
  stage : Bool
  members : List Nat
  bmCores : List (Nat × Nat)
  copied : List (Nat × Nat)
  done : List Nat
  acks : List (Nat × Nat)
  fail : Nat
  parkSeq : Option Nat
  deriving DecidableEq, Repr, Inhabited

/-- One shuttle channel (R119, R124). -/
structure Chan where
  queue : List Cmd := []
  run : Option Cmd := none
  done : W32 := 0
  err : Nat := 0
  deriving DecidableEq, Repr, Inhabited

/-- Who puts a message (R129). -/
inductive PutSrc
  | lane (req : Nat)
  | host (tenant : Nat)
  | peer (dev tenant : Nat)
  | shuttle (core ch row : Nat)
  deriving DecidableEq, Repr, Inhabited

/-- A put at an inbound port: its source, where its body lies (scratchpad of a core, or bytes already
at the port), the poisoned pieces of that body (offset, bytes, record), whether it waits for a slot, and the slot once
admitted. -/
structure Put where
  src : PutSrc
  tenant : Nat
  team : Nat
  core : Nat
  off : Nat
  len : Nat
  body : List Byte
  poison : List (Nat × Nat × Nat)
  waits : Bool
  slot : Nat
  deriving DecidableEq, Repr, Inhabited

/-- One ring (R127): registers, owner, the port's queue and the bodies being written. -/
structure Ring where
  base : Nat := 0
  count : Nat := 0
  log2 : Nat := 0
  takeIdx : Nat := 0
  filled : Nat := 0
  putIdx : Nat := 0
  free : Nat := 0
  acl : BitVec 4 := 0
  fail : Bool := false
  drops : Nat := 0
  owner : Option Nat := none
  tenant : Nat := 0
  port : List Put := []
  writing : List Put := []
  deriving DecidableEq, Repr, Inhabited

/-- The operands of an accepted MMA or MMAS (R318), with the format registers read at issue (R199): a and b
are absolute scratchpad offsets or VAs; faults are the VAs of pages that still fault (R320); taint: a store
reached its operands (R118); lanes are those that issued it. -/
structure MmaOp where
  agent : Agent
  lanes : LaneMask := 0
  tag : Nat
  tile : Nat
  m : Nat
  n : Nat
  k : Nat
  fa : Nat
  fb : Nat
  zero : Bool
  fromMem : Bool
  a : Nat
  b : Nat
  lda : Nat
  ldb : Nat
  fmt : Tab W32
  faults : List Nat
  taint : Bool
  deriving DecidableEq, Repr, Inhabited

/-- An entry of the loom queue (R317): an OPRDY with the weft that issued it, or an MMA. -/
inductive LoomEntry
  | oprdy (core slot : Nat)
  | mma (op : MmaOp)
  deriving DecidableEq, Repr, Inhabited

/-- A declared burst (R326): start cycle, intensity in sixteenths, 2^len cycles. -/
structure Decl where
  ctx : Nat
  start : Nat
  intens : Nat
  len : Nat
  started : Bool
  deriving DecidableEq, Repr, Inhabited

/-- A tile task (R143): the record, who enqueued it and in which queue (8 × tenant + priority), the format registers
captured, whether its counters were last read as met, the entry it waits on, and by VA the bytes, old and new, of stores
that reached its operands or its outputs since it was enqueued (R147). -/
structure Task where
  record : List Byte
  agent : Agent
  queue : Nat
  fmt : Tab W32
  met : Bool
  parkSeq : Option Nat
  past : List (Nat × Byte)
  deriving DecidableEq, Repr, Inhabited

/-- A core's copy of a context register block (R182): BPCOUNT, UBCOUNT, both LIMITs, L2 USED and FMT0..15. -/
structure CtxBlock where
  bp : Nat := 0
  ub : Nat := 0
  l1lim : Nat := 0
  l2lim : Nat := 0
  l2used : Nat := 0
  fmt : Tab W32 := []
  deriving DecidableEq, Repr, Inhabited

/-- One core. blocks holds its copies of context register blocks by context (R182), vtags the tags of the blocks in
its view, by block; loomDone the entries that have completed and that no AWAIT has collected; lru the lines of L1, by
their first byte, and icache those of the instruction cache, the most recently used first (R40, R49); accBad the log
records of accumulator elements with an uncorrectable error (R73); droops the age in samples of each droop event of
the last millisecond, coolSamples the samples since the last that was not cool (R155). -/
structure Core where
  cyc : Nat := 0
  spad : Memory := []
  stags : Tab (BitVec 16) := []
  spoison : Tab Nat := []
  tmpl : Memory := []
  bplog : Tab BpEntry := []
  bphead : Word := 0
  errinj : Word := 0
  acown : Tab Word := []
  acc : Tab W32 := []
  accBad : Tab Nat := []
  rings : Tab Ring := []
  chans : Tab Chan := []
  view : Tab ViewByte := []
  vtags : Tab (BitVec 16) := []
  lru : List Nat := []
  icache : List ILine := []
  tlb : List TlbEntry := []
  walkc : List WalkEntry := []
  pins : List Pin := []
  loomq : List LoomEntry := []
  loomRun : Option MmaOp := none
  loomDone : List MmaOp := []
  loomEnd : Nat := 0
  loomEmptySince : Nat := 0
  task : Option Task := none
  decls : List Decl := []
  lastBurst : Tab Nat := []
  temp : Nat := 0
  droops : List Nat := []
  avoid : Bool := false
  coolSamples : Nat := 0
  blocks : Tab CtxBlock := []
  hot : Bool := false
  deriving DecidableEq, Repr, Inhabited

/-- What a request asks (R79). -/
inductive ReqOp
  | load (sext : Bool)
  | ldtag
  | atom (f : Nat)
  | cas
  | cadd
  | clrc
  | store
  | sttag
  | pref
  | lck (l2 : Bool)
  | cmo (f : Nat)
  | waitc (f : Nat)
  | gadd (g : Nat)
  | bara
  | barw
  | rtake (ring : Nat)
  | rput (target : Nat)
  | fld (fold off len round : Nat)
  | chkt (mask : Nat)
  deriving DecidableEq, Repr, Inhabited

/-- Where a request stands: walking; at a recoverable fault not yet posted; posted; probing; waiting
outside the hierarchy, or as a store; answered, a level having booked it and its answer being on its way;
booked, the answer having reached the core; rejected by a home; cancelled by a save. -/
inductive Phase
  | walk
  | fault
  | posted (seq : Nat)
  | probe
  | waiting
  | booked
  | answered
  | stale
  | cancelled
  deriving DecidableEq, Repr, Inhabited

/-- One lane of a request: VA, operand values, the value to be returned, its target once translated,
the first logical register of its v group. -/
structure Part where
  lane : Nat
  va : Nat
  x : Nat
  y : Nat
  val : Nat
  reg : Nat
  tgt : Tgt
  deriving DecidableEq, Repr, Inhabited

/-- An outstanding request (R79, R80, R99). size is the access size, level 16 while nothing answered, cause that of
R89 (0 none); promise is the promised cycle its register shows (0 none yet), slot the last cycle of the landing window
of its booking, issued the cycle from which its probe travels, start that of its issue, all full cycles of its core.
epc is the VA of the instruction, insn tells its issue from every other, and batch is the first of the requests that
were placed together. turns: the bank and the turn at it of each scratchpad word that the request reads or writes,
extra the cycles that the instruction's conflicts add, groups the 32-lane groups that the instruction's results take
in turn (R45, R83). hub: its data has reached the hub (R88). stamp: when it came to its controller's admission queue,
0 for not yet (R84). armed: ERRINJ has yet to delay it, by inject (R92, R289). hint: HINT of its word (R180).
satisfied: its value is fixed; homed: a WAITC's word has met its condition. -/
structure Req where
  id : Nat
  agent : Agent
  epoch : Nat
  gen : Nat
  op : ReqOp
  ty : Nat
  size : Nat
  parts : List Part
  tsel : Option Nat
  lanes : LaneMask
  dst : ReqDst
  acq : Bool
  rel : Bool
  scope : Nat
  phase : Phase
  issued : Nat
  level : Nat
  promise : Nat
  slot : Nat
  dist : Nat
  cause : Nat
  late : Bool
  homed : Bool
  satisfied : Bool
  admitted : Bool
  overflow : Bool
  error : Option Nat
  inject : Nat
  status : Nat
  tries : Nat
  epc : Word
  start : Nat
  insn : Nat
  batch : Nat
  turns : List (Nat × Nat)
  extra : Nat
  groups : List Nat
  hub : Bool
  stamp : Nat
  armed : Bool
  hint : Nat
  deriving DecidableEq, Repr, Inhabited

/-- A slot of a reed reserved for a cycle (R83): reed class and number, cycle, units taken; tag, where not 0, names
what one instruction takes once for all its requests. -/
structure Slot where
  cls : Nat
  num : Nat
  cyc : Nat
  units : Nat
  tag : Nat
  deriving DecidableEq, Repr, Inhabited

/-- A memory region of a grid (R150). -/
structure Region where
  va : Nat
  tstride : Int
  len : Nat
  spoff : Nat
  stageIn : Bool
  stageOut : Bool
  write : Bool
  cell : Bool
  allCores : Bool
  deriving DecidableEq, Repr, Inhabited

/-- A fold declared by a grid (R133, R150). -/
structure FoldDecl where
  num : Nat
  wsize : Nat
  timer : Nat
  deriving DecidableEq, Repr, Inhabited

/-- The status with which a grid completes (R159), or that it has not. -/
inductive GridStatus
  | pending
  | done
  | refused
  | failed
  deriving DecidableEq, Repr, Inhabited

/-- One grid (R150): descriptor fields, depth, order of acceptance, progress; started, that a team of it has started. -/
structure Grid where
  handle : Nat
  ctx : Nat
  tenant : Nat
  entry : Nat
  argva : Nat
  gx : Nat
  gy : Nat
  gz : Nat
  width : Nat
  stk : Nat
  cores : Nat
  wpc : Nat
  spad : Nat
  prio : Nat
  queue : Nat
  det : Bool
  cosched : Bool
  priv : Bool
  sptva : Nat
  cntva : Nat
  dep0 : Nat
  dep1 : Nat
  indirect : Bool
  depth : Nat
  seq : Nat
  regions : List Region
  folds : List FoldDecl
  bound : Bool
  started : Bool
  placed : Nat
  retired : Nat
  failed : Bool
  stkSlot : Option Nat
  stkbase : Nat
  stksize : Nat
  waitedSince : Option Nat
  status : GridStatus
  deriving DecidableEq, Repr, Inhabited

/-- The life of a team (R156 to R159, R178, R179, R185). -/
inductive Life
  | placed
  | running
  | stopping
  | stopped
  | halted
  | saved
  | retired
  deriving DecidableEq, Repr, Inhabited

/-- What a team is asked to stop for (R177): pre-emption, a halt, a breakpoint at an ordinal, a phase
step. -/
structure StopReq where
  preempt : Bool := false
  halt : Bool := false
  ordinal : Option Nat := none
  deriving DecidableEq, Repr, Inhabited

/-- A request that a save cancelled, with the register that carries it (R96, R180). -/
structure Replay where
  weft : Nat
  req : Req
  deriving DecidableEq, Repr, Inhabited

/-- What a save keeps of a core beside the image: its CYC, and the poison of the allocation by offset. -/
structure SavedCore where
  cyc : Nat
  poison : Tab Nat
  deriving DecidableEq, Repr, Inhabited

/-- One team. gMarks: uncorrectable errors of the copies of its team registers, by 16 × core + register (R73). gLast:
of each team register the cycle of its Home in which it was last written, the team-weft index, and whether by GADD
(R116). folds holds its fold memberships, 512 × fold key + core. saveVa is the VA of its save image, or 2^52 + PA when
a checkpoint has it; retrain, that an HBM retrain has delayed the save. -/
structure Team where
  grid : Nat := 0
  index : Nat := 0
  cores : List Nat := []
  bases : List Nat := []
  wefts : List Nat := []
  wpc : Nat := 0
  width : Nat := 32
  stk : Nat := 32
  spad : Nat := 0
  g : Tab Word := []
  gcopy : Tab Word := []
  gq : List (Nat × Nat × Word) := []
  gMarks : Tab Mark := []
  gLast : Tab (Nat × Nat × Bool) := []
  phase : Nat := 0
  arrived : List Nat := []
  epoch : Nat := 0
  life : Life := .retired
  stop : StopReq := {}
  staging : Option (List (Nat × Region)) := none
  stageFail : Bool := false
  saveVa : Nat := 0
  saveSize : Nat := 0
  retrain : Bool := false
  saved : List Weft := []
  savedCores : List SavedCore := []
  folds : List Nat := []
  replays : List Replay := []
  fresumes : List Nat := []
  parked : List (Nat × Nat × Cmd) := []
  placedAt : Nat := 0
  deriving DecidableEq, Repr, Inhabited

/-- One context (R355, R182); adds are counter changes not yet performed at the block's home (R182): 0 BPCOUNT,
1 UBCOUNT, 2 and 3 QUOTA.L2 USED up and down; presets are those of the KOF images loaded, each with the VA and the bytes
of its text (R158, R240). -/
structure Ctx where
  valid : Bool := false
  tenant : Nat := 0
  asid : Nat := 0
  privOk : Bool := false
  accbase : Nat := 0
  savebase : Nat := 0
  savesize : Nat := 0
  tbase : Word := 0
  stkbase : Word := 0
  stksize : Word := 0
  cregbase : Nat := 0
  adds : List Nat := []
  presets : List (Nat × Nat × Tab W32) := []
  deriving DecidableEq, Repr, Inhabited

/-- What FRESUME of a fault-queue entry starts again (R175). -/
inductive Resume
  | reqs (ids : List Nat)
  | lanes (core slot : Nat) (mask : LaneMask)
  | chan (core ch : Nat)
  | fold (key : Nat)
  | task (meadow key mark : Nat)
  | loom (core : Nat)
  | launch (core slot : Nat)
  deriving DecidableEq, Repr, Inhabited

/-- A fault-queue entry (R173), the team it belongs to and what it resumes; seq is set when it is posted. -/
structure FaultEntry where
  tenant : Nat
  seq : Nat
  kind : Nat
  asid : Nat
  gen : Nat
  va : Nat
  core : Nat
  weft : Nat
  treg : Nat
  lanes : LaneMask
  team : Nat
  resume : Resume
  deriving DecidableEq, Repr, Inhabited

/-- One tenant: its block by offset (R354), fault queue, launches, MSI-X vectors, ring ports. -/
structure Tenant where
  blk : Tab Word := []
  faultSeq : Nat := 0
  faults : Tab FaultEntry := []
  slots : List Nat := []
  fresumes : List Nat := []
  launchSeq : Nat := 0
  pool : Nat := 0
  masked : BitVec 5 := 0
  pending : BitVec 5 := 0
  sent : Tab Nat := []
  ports : Memory := []
  portStat : Tab Word := []
  stkUsed : List Nat := []
  hostData : List Byte := []
  hostPoison : Bool := false
  deriving DecidableEq, Repr, Inhabited

/-- One round at a fold collector (R135): members that asked, refused ones counted too; the requests
to be served; whether its timer runs, since when; the fault it waits on. -/
structure Round where
  n : Nat
  va : Nat
  len : Nat
  asked : List Nat
  reqs : List Nat
  timer : Option Nat
  expired : Bool
  fault : Option Nat
  deriving DecidableEq, Repr, Inhabited

/-- Bytes of a mirrored store, with the tag and the poison that they give their block (R123, R75). -/
structure FoldPiece where
  off : Nat
  bytes : List Byte
  tag : Option (BitVec 16)
  poison : Option Nat
  deriving DecidableEq, Repr, Inhabited

/-- A mirrored store in the Window of its source core (R99, R138): members still owed delivery and
members whose acknowledgement is still due; 1,024 + core in owed is a member that has left since. -/
structure FoldStore where
  src : Nat
  pieces : List FoldPiece
  owed : List Nat
  unacked : List Nat
  req : Nat
  chunk : Option (Nat × Nat × Nat)
  deriving DecidableEq, Repr, Inhabited

/-- One fold (R133): members with the number of each one's next request. -/
structure Fold where
  bound : Bool := false
  grid : Nat := 0
  tenant : Nat := 0
  asid : Nat := 0
  wsize : Nat := 0
  timer : Nat := 0
  members : List (Nat × Nat) := []
  delivered : Nat := 0
  rounds : List Round := []
  recent : List (Nat × Nat × Nat) := []
  straggle : Nat := 0
  window : List FoldStore := []
  deriving DecidableEq, Repr, Inhabited

/-- A meadow's tile-task queues by 8 × tenant + priority, and the tenant served last (R144, R145). -/
structure Meadow where
  queues : Tab (List Task) := []
  rr : Nat := 0
  deriving DecidableEq, Repr, Inhabited

/-- A GENBUMP in progress (R37): places 0 to 539 are homes, 540 + n is core n. -/
structure Bump where
  asid : Nat
  old : Nat
  updated : List Nat
  acked : List Nat
  deriving DecidableEq, Repr, Inhabited

/-- A control-register write that has behaviour of its own and is not yet complete (R264); weft is the
weft held by an SMOVC, none for a control-window store. -/
structure PWrite where
  id : Nat
  num : Nat
  core : Nat
  weft : Option Nat
  ctx : Nat
  val : Word
  deriving DecidableEq, Repr, Inhabited

/-- A line of an L2 slice (R54): who brought it in, and whether it is dirty. under: what memory still holds of its
dirty bytes; own: bytes that this home holds and the block's other home does not (R58). -/
structure L2Line where
  slice : Nat
  line : Nat
  asids : List Nat
  dirty : Bool
  under : Tab Byte
  own : Tab Byte
  deriving DecidableEq, Repr, Inhabited

/-- A block of a memory-side cache (R62). -/
structure MscBlock where
  block : Nat
  dirty : Bool
  deriving DecidableEq, Repr, Inhabited

/-- A stack of HBM (R65, R353, R363): rate step, retraining, refresh exponent, activates counted, rows
whose neighbours were refreshed, the seed of test mode and the draws that each channel has made under it. -/
structure Stack where
  step : Nat := 15
  retraining : Bool := false
  k : Nat := 6
  activates : Nat := 0
  refreshed : List (Nat × Nat) := []
  test : Option Nat := none
  draws : Tab Nat := []
  deriving DecidableEq, Repr, Inhabited

/-- Firmware and SPDM (R360): loaded images with digests, negotiation, the last response. -/
structure Firmware where
  verified : Bool := false
  digests : List Nat := []
  version : Bool := false
  caps : Bool := false
  algs : Bool := false
  response : List Byte := []
  deriving DecidableEq, Repr, Inhabited

/-- The hub: management block by offset (R351), routes and grants (R352), the command in progress,
launch-queue mapping (R153), power and clocks (R364), snapshot latches (R187), dumps (R186); clk is the hub's own
timer in cycles of 1.1 GHz, on which the shared reeds lie too. -/
structure Hub where
  clk : Nat := 0
  mgmt : Tab Word := []
  stage : Nat := 1
  cmd : Nat := 0
  cmdArg : Nat := 0
  busy : Bool := false
  result : Nat := 0
  routes : Tab Word := []
  grants : Tab Word := []
  lost : List Nat := []
  snapHeld : Bool := false
  snapLatched : List Nat := []
  snapRegs : Tab Word := []
  snapCnt : Nat := 0
  snapTrig : Bool := false
  mapped : List Nat := []
  waiting : List Nat := []
  rr : Nat := 0
  quantum : Nat := 0
  power : List Nat := []
  clock : Nat := 16
  mainPower : Bool := true
  ckptReserved : Bool := false
  ckptData : Option (Nat × Nat) := none
  acceptSeq : Nat := 0
  places : Nat := 0
  peerData : List Byte := []
  deriving DecidableEq, Repr, Inhabited

/-- An issue decision made and not yet carried out (R161): the weft, the lanes of the decision, the VA
of the next member and its place in the chain; before holds AGE and MEET of the lanes that the decision chose from, and
was when the weft was chosen before, as they were. -/
structure Issue where
  core : Nat := 0
  slot : Nat := 0
  lanes : LaneMask := 0
  va : Word := 0
  len : Nat := 8
  pos : Nat := 0
  before : Tab (Nat × Word) := []
  was : Nat := 0
  deriving DecidableEq, Repr, Inhabited

/-- Why the machine stops with a fault. -/
inductive Fault
  /-- Raised by a management command whose operand names a physical address that R10 leaves
  unpopulated: the manual gives the hub nothing to read there. Safe: the machine stops. -/
  | absentAddress (pa : Nat)
  deriving DecidableEq, Repr

/-- Why a step is refused. -/
inductive Refusal
  /-- An instruction that has no meaning yet, by mnemonic. Safe: the machine stops. -/
  | notModelled (mnemonic : String)
  deriving DecidableEq, Repr

/-- The whole device. l2 and msc hold the lines of the L2 slices and the blocks of the memory-side caches, cellUse
the resident cell lines, the most recently used first; rows the HBM channels that still have a row to open (R62). -/
structure State where
  fresh : Nat := 0
  agenda : List Move := []
  issuing : Bool := false
  cur : Issue := {}
  nextId : Nat := 1
  mem : Memory := []
  tags : Tab (BitVec 16) := []
  poison : Tab Nat := []
  cells : Tab (BitVec 512) := []
  cellBy : List (Nat × Nat) := []
  cellUse : List Nat := []
  l2 : List L2Line := []
  msc : List MscBlock := []
  rows : List Nat := []
  l2pins : List Pin := []
  hmask : Tab Word := []
  reqs : List Req := []
  slots : List Slot := []
  cores : Tab Core := []
  wefts : Tab Weft := []
  teams : Tab Team := []
  grids : Tab Grid := []
  ctxs : Tab Ctx := []
  tenants : Tab Tenant := []
  folds : Tab Fold := []
  meadows : Tab Meadow := []
  bumps : List Bump := []
  pwrites : List PWrite := []
  faults : List FaultEntry := []
  hbm : Tab Stack := []
  fw : Firmware := {}
  hub : Hub := {}
  deriving DecidableEq, Repr, Inhabited

/-- The device right after reset: bring-up stage 1, Dunanaum verified (R351, R362), every register at the value its map
gives, everything else empty or zero (assumptions 1, 3, 4, 5, 6). -/
def State.reset : State :=
  { fw := { verified := true }, hub := { mgmt := [(0x10, 2), (0x18, 1), (0x38, 256)] } }

end Sys2Proof.Machine
end

