-- ==== Sys2Proof/Machine/Base.lean ====
section
/-!
DEFINITION. Tables, memories, and the accessors of the state: every read and write of a register, of a
byte and of an entry goes through these.
-/
namespace Sys2Proof.Machine

/-- The outcome of an instruction or of a step. -/
abbrev Out := Host.Outcome State Fault Refusal

/-! ### Tables -/

/-- The entry of a key. -/
def look {α : Type} (k : Nat) : Tab α → Option α
  | [] => none
  | (j, v) :: t => if k = j then some v else look k t

/-- The entry of a key, or a default. -/
def lookD {α : Type} (k : Nat) (d : α) (t : Tab α) : α := (look k t).getD d

/-- Write an entry, keys rising. -/
def put {α : Type} (k : Nat) (v : α) : Tab α → Tab α
  | [] => [(k, v)]
  | (j, u) :: t => if k < j then (k, v) :: (j, u) :: t else if k = j then (k, v) :: t
                   else (j, u) :: put k v t

/-- Remove every entry of a key. -/
def del {α : Type} (k : Nat) : Tab α → Tab α
  | [] => []
  | (j, u) :: t => if k = j then del k t else (j, u) :: del k t

/-- Write entries in order: the last write of a key survives. -/
def putAll {α : Type} (t : Tab α) : List (Nat × α) → Tab α
  | [] => t
  | (k, v) :: r => putAll (put k v t) r

/-- Keys strictly rising. -/
def rising {α : Type} : Tab α → Bool
  | [] => true
  | [_] => true
  | (j, _) :: (k, v) :: t => decide (j < k) && rising ((k, v) :: t)

/-! ### Memories: bytes by address, an unlisted address reads 0 (assumption 6). -/

def mget (m : Memory) (a : Nat) : Byte := lookD a 0 m

/-- Writing 0 removes the entry, so that equal memories are equal lists. -/
def mset (m : Memory) (a : Nat) (b : Byte) : Memory := if b = 0 then del a m else put a b m

/-- The canonical form: addresses strictly rising, no entry 0. -/
def Memory.wf (m : Memory) : Bool := rising m && m.all fun c => c.2 != 0

/-- n bytes from a. -/
def mread (m : Memory) (a : Nat) : Nat → List Byte
  | 0 => []
  | n + 1 => mget m a :: mread m (a + 1) n

/-- Write bytes from a. -/
def mwrite (m : Memory) (a : Nat) : List Byte → Memory
  | [] => m
  | b :: bs => mwrite (mset m a b) (a + 1) bs

/-- A little-endian number of n bytes at a. -/
def mnum (m : Memory) (a n : Nat) : Nat := leNat (mread m a n)

/-! ### Bits -/

/-- Bits [lo + n - 1 : lo] of a number. -/
def bits (x lo n : Nat) : Nat := x / 2 ^ lo % 2 ^ n

/-- A field set into a number. -/
def setBits (x lo n v : Nat) : Nat := x - bits x lo n * 2 ^ lo + v % 2 ^ n * 2 ^ lo

/-- The value of w bits read as two's complement. -/
def toSigned (w x : Nat) : Int := if 2 * (x % 2 ^ w) < 2 ^ w then (x % 2 ^ w : Nat) else (x % 2 ^ w : Nat) - (2 ^ w : Nat)

/-- An integer reduced to w bits. -/
def ofInt (w : Nat) (x : Int) : Nat := (x % (2 ^ w : Nat)).toNat

/-- w low bits of x, extended to n bits by sign or by zero (R210). -/
def extend (signed : Bool) (w n x : Nat) : Nat :=
  if signed then ofInt n (toSigned w x) else x % 2 ^ w

/-- The lanes of a mask, ascending. -/
def lanesOf (m : LaneMask) : List Nat := (List.range 128).filter fun l => m.getLsbD l

/-- The mask of a list of lanes. -/
def maskOf (ls : List Nat) : LaneMask := BitVec.ofNat 128 (ls.foldl (fun a l => a ||| 2 ^ l) 0)

/-- Addresses round down. -/
def align (a n : Nat) : Nat := a - a % n

/-! ### Entries of the state. A weft's key is 64 × core + slot; a fold's is 64 × die + number. -/

def State.core (s : State) (c : Nat) : Core := lookD c {} s.cores
def State.setCore (s : State) (c : Nat) (x : Core) : State := { s with cores := put c x s.cores }
def State.weft (s : State) (k : Nat) : Weft := lookD k {} s.wefts
def State.setWeft (s : State) (k : Nat) (x : Weft) : State := { s with wefts := put k x s.wefts }
def State.team (s : State) (k : Nat) : Team := lookD k {} s.teams
def State.setTeam (s : State) (k : Nat) (x : Team) : State := { s with teams := put k x s.teams }
def State.grid (s : State) (k : Nat) : Grid := lookD k default s.grids
def State.setGrid (s : State) (k : Nat) (x : Grid) : State := { s with grids := put k x s.grids }
def State.ctx (s : State) (k : Nat) : Ctx := lookD k {} s.ctxs
/-- A core's copy of a context register block (R182). -/
def State.block (s : State) (core ctx : Nat) : CtxBlock := lookD ctx {} (s.core core).blocks
/-- Every copy of a context's block changes (R182). -/
def State.mapBlocks (s : State) (ctx : Nat) (f : CtxBlock → CtxBlock) : State :=
  { s with cores := s.cores.map fun c =>
      (c.1, { c.2 with blocks := c.2.blocks.map fun b => if b.1 = ctx then (b.1, f b.2) else b }) }
def State.setCtx (s : State) (k : Nat) (x : Ctx) : State := { s with ctxs := put k x s.ctxs }
def State.tenant (s : State) (k : Nat) : Tenant := lookD k {} s.tenants
def State.setTenant (s : State) (k : Nat) (x : Tenant) : State := { s with tenants := put k x s.tenants }
def State.fold (s : State) (k : Nat) : Fold := lookD k {} s.folds
def State.setFold (s : State) (k : Nat) (x : Fold) : State := { s with folds := put k x s.folds }
def State.meadow (s : State) (k : Nat) : Meadow := lookD k {} s.meadows
def State.setMeadow (s : State) (k : Nat) (x : Meadow) : State := { s with meadows := put k x s.meadows }
def State.stack (s : State) (k : Nat) : Stack := lookD k {} s.hbm
def State.setStack (s : State) (k : Nat) (x : Stack) : State := { s with hbm := put k x s.hbm }
def Core.ring (c : Core) (r : Nat) : Ring := lookD r {} c.rings
def Core.setRing (c : Core) (r : Nat) (x : Ring) : Core := { c with rings := put r x c.rings }
def State.ring (s : State) (c r : Nat) : Ring := (s.core c).ring r
def State.setRing (s : State) (c r : Nat) (x : Ring) : State := s.setCore c ((s.core c).setRing r x)
def Core.chan (c : Core) (h : Nat) : Chan := lookD h {} c.chans
def State.setChan (s : State) (c h : Nat) (x : Chan) : State :=
  s.setCore c { s.core c with chans := put h x (s.core c).chans }

def Weft.lane (w : Weft) (l : Nat) : Lane := lookD l {} w.lanes
def Weft.setLane (w : Weft) (l : Nat) (x : Lane) : Weft := { w with lanes := put l x w.lanes }

/-- Apply f to each lane of a list. -/
def Weft.eachLane (w : Weft) (ls : List Nat) (f : Nat → Lane → Lane) : Weft :=
  { w with lanes := ls.foldl (fun t l => put l (f l (lookD l {} t)) t) w.lanes }

def State.mapWeft (s : State) (k : Nat) (f : Weft → Weft) : State := s.setWeft k (f (s.weft k))
def State.mapCore (s : State) (k : Nat) (f : Core → Core) : State := s.setCore k (f (s.core k))
def State.mapTeam (s : State) (k : Nat) (f : Team → Team) : State := s.setTeam k (f (s.team k))
def State.mapCtx (s : State) (k : Nat) (f : Ctx → Ctx) : State := s.setCtx k (f (s.ctx k))
def State.mapTenant (s : State) (k : Nat) (f : Tenant → Tenant) : State := s.setTenant k (f (s.tenant k))

/-- The weft that is issuing. -/
def State.key (s : State) : Nat := 64 * s.cur.core + s.cur.slot
def State.cw (s : State) : Weft := s.weft s.key
def State.lanes (s : State) : List Nat := lanesOf s.cur.lanes

/-! ### Registers -/

/-- Registers of a thread's stack (R41): the C of its weft. -/
def Lane.phys (x : Lane) (stk i : Nat) : Nat := (x.wb + i) % stk

/-- vi of a lane (R247). -/
def Lane.v (x : Lane) (stk i : Nat) : W32 := lookD (x.phys stk i) 0 x.regs
def Lane.setV (x : Lane) (stk i : Nat) (y : W32) : Lane := { x with regs := put (x.phys stk i) y x.regs }

/-- The pair v(n), v(n+1), low half in v(n) (R210). -/
def Lane.vPair (x : Lane) (stk i : Nat) : Word := x.v stk (i + 1) ++ x.v stk i
def Lane.setPair (x : Lane) (stk i : Nat) (y : Word) : Lane :=
  (x.setV stk i (y.setWidth 32)).setV stk (i + 1) (y.extractLsb' 32 32)

def Lane.treg (x : Lane) (n : Nat) : W32 := lookD n 0 x.t
def Lane.setT (x : Lane) (n : Nat) (y : W32) : Lane := { x with t := put n y x.t }
def Lane.pred (x : Lane) (n : Nat) : Bool := x.preds.getLsbD n

/-- A bit vector with one bit set to a value. -/
def setBit {w : Nat} (x : BitVec w) (n : Nat) (b : Bool) : BitVec w :=
  if b then x ||| (1#w <<< n) else x &&& ~~~(1#w <<< n)

def Lane.setP (x : Lane) (n : Nat) (b : Bool) : Lane := { x with preds := setBit x.preds n b }

def Weft.sreg (w : Weft) (n : Nat) : Word := lookD n 0 w.s
def Weft.setS (w : Weft) (n : Nat) (y : Word) : Weft := { w with s := put n y w.s }
def Weft.zreg (w : Weft) (n : Nat) : Bool := w.z.getLsbD n
def Weft.setZ (w : Weft) (n : Nat) (b : Bool) : Weft := { w with z := setBit w.z n b }
def Weft.kmem (w : Weft) (n : Nat) : LaneMask := lookD n 0 w.kMem
def Weft.karr (w : Weft) (n : Nat) : LaneMask := lookD n 0 w.kArr

/-! ### Who a weft is -/

def State.gridOf (s : State) (k : Nat) : Grid := s.grid (s.team (s.weft k).team).grid
def State.ctxOf (s : State) (k : Nat) : Nat := (s.gridOf k).ctx
def State.teamOf (s : State) (k : Nat) : Team := s.team (s.weft k).team

/-- The issuing core's copy of a team register (R42, R116); key 16 × core + register. -/
def State.greg (s : State) (k n : Nat) : Word :=
  lookD (16 * (k / 64) + n) 0 (s.teamOf k).gcopy

/-- Lanes are privileged under the PRIV of their grid, and in handler mode (R150, R168). -/
def State.privOf (s : State) (k : Nat) : Bool := (s.weft k).hmode || (s.gridOf k).priv

/-- Base of the team's allocation on a core (R14): from the parallel lists of the team. -/
def assoc : List Nat → List Nat → Nat → Nat
  | c :: cs, b :: bs, k => if c = k then b else assoc cs bs k
  | _, _, _ => 0

def State.spbase (s : State) (k : Nat) : Nat := assoc (s.teamOf k).cores (s.teamOf k).bases (k / 64)

/-- Die, meadow and place in the meadow of a core (R262). -/
def dieOf (core : Nat) : Nat := core / 96
def meadowOf (core : Nat) : Nat := core / 16

/-- Distance of two cores: 0 same meadow, 1 same die, 2 another die (R40). -/
def distance (a b : Nat) : Nat := if meadowOf a = meadowOf b then 0 else if dieOf a = dieOf b then 1 else 2

def State.devnum (s : State) : Nat := (lookD 0 (0 : Word) s.hub.mgmt).toNat % 64

/-- The k-th free value of this step (R4; assumption 4). -/
def State.any (s : State) (k : Nat) : Nat := Config.free ((s.fresh + k) * (s.fresh + k + 1) / 2 + k)
def State.anyBits (s : State) (w k : Nat) : BitVec w := BitVec.ofNat w (s.any k)
/-- A free choice (assumption 4). -/
def State.anyBool (s : State) (k : Nat) : Bool := s.any k % 2 = 1

/-- Who issues: the agent of a lane (R28). -/
def State.agent (s : State) (k lane : Nat) : Agent :=
  let g := s.gridOf k
  { ctx := g.ctx, tenant := g.tenant, asid := (s.ctx g.ctx).asid, team := (s.weft k).team,
    core := k / 64, slot := k % 64, lane := lane, priv := s.privOf k }

/-- Advance past the word: every issuing lane's PC becomes the next word's VA. -/
def State.advance (s : State) : State :=
  s.mapWeft s.key fun w =>
    w.eachLane s.lanes fun _ x => { x with pc := s.cur.va + BitVec.ofNat 64 s.cur.len }

/-- A move whose conditions do not hold is not taken (assumption 2). -/
def State.when (s : State) (c : Bool) (t : State) : State := if c then t else s

/-- The decision ends (R170). -/
def State.endDecision (s : State) : State := { s with issuing := false }

/-- The word does not issue now (R47, R81): its lanes were none that the decision could choose, so AGE and MEET are what
they were, and the next decision of the weft chooses among its other lanes (R161). -/
def State.turnAway (s : State) : State :=
  { s.mapWeft s.key fun w =>
      { w.eachLane (s.cur.before.map (·.1)) (fun l x =>
          let old := lookD l (x.age, x.meet) s.cur.before
          { x with age := old.1, meet := old.2, wait := if s.cur.lanes.getLsbD l then .issue else x.wait }) with
        chosen := if s.cur.before.isEmpty then w.chosen else s.cur.was } with
    issuing := false }

end Sys2Proof.Machine
end

