-- ==== Sys2Proof/Machine/Translate.lean ====
section
/-!
DEFINITION. Addresses: generations, the physical map, the walk and its leaf checks, the windows, and
the write ranges of a deterministic grid (R8 to R39, R167, R268).
-/
namespace Sys2Proof.Machine

/-! ### Physical memory -/

/-- Memory is keyed by PA[45:0] of this device (R9). -/
def local46 (pa : Nat) : Nat := pa % 2 ^ 46

def State.isLocal (s : State) (pa : Nat) : Bool := bits pa 46 6 = s.devnum

/-- A management register by offset (R351). -/
def State.mgmt (s : State) (off : Nat) : Nat := (lookD off (0 : Word) s.hub.mgmt).toNat

/-- The populated ranges (R10), less what bring-up has not reached (R362) and the checkpoint space
when it is reserved and the ASID is not 0 (R68). -/
def State.ranges (s : State) (asid : Nat) : List (Nat × Nat) :=
  let lpEnd := if s.hub.ckptReserved && asid != 0 then 0x01F380000000 else 0x027400000000
  if s.hub.stage < 5 then [(0x010000000000, lpEnd)]
  else [(0, 0x008000000000), (0x010000000000, lpEnd), (0x200000000000, 0x300000000000)]

/-- [a, a + n) of the local map lies inside one populated range. -/
def State.populated (s : State) (asid a n : Nat) : Bool :=
  (s.ranges asid).any fun r => r.1 ≤ a && a + n ≤ r.2

def fullMap : List (Nat × Nat) :=
  [(0, 0x008000000000), (0x010000000000, 0x027400000000), (0x200000000000, 0x300000000000)]

/-- Host memory (R10). -/
def isHost (pa : Nat) : Bool := 0x200000000000 ≤ local46 pa && local46 pa < 0x300000000000
def isHbm (pa : Nat) : Bool := local46 pa < 0x008000000000
def isLpddr (pa : Nat) : Bool := 0x010000000000 ≤ local46 pa && local46 pa < 0x027400000000

/-- Device d is in the installed route table (R11, R352). -/
def State.listed (s : State) (d : Nat) : Bool := (lookD d (0 : Word) s.hub.routes).getLsbD 0

/-- Device d is listed and has not become unreachable since. -/
def State.reach (s : State) (d : Nat) : Bool := s.listed d && !s.hub.lost.contains d

/-- R11: the page [pa, pa + n) on the map of the device it names. -/
def State.physOk (s : State) (asid pa n : Nat) : Bool :=
  if s.isLocal pa then s.populated asid (local46 pa) n
  else s.listed (bits pa 46 6) && fullMap.any fun r => r.1 ≤ local46 pa && local46 pa + n ≤ r.2

/-- A little-endian number at a local PA. -/
def State.rd (s : State) (pa n : Nat) : Nat := mnum s.mem (local46 pa) n

/-- Bytes written at their Home, and the blocks they lie in (R99). -/
def State.wr (s : State) (pa : Nat) (bs : List Byte) : State :=
  { s with mem := mwrite s.mem (local46 pa) bs }

/-- A read of the hub's address-space table at PA: memory that the map lacks, or that another
device holds, gives a free value (assumption 7). -/
def State.rdTable (s : State) (pa : Nat) : Word :=
  if s.isLocal pa && s.populated 0 (local46 pa) 8 then BitVec.ofNat 64 (s.rd pa 8)
  else s.anyBits 64 (8 * (pa % 4096) + 7)

/-! ### Generations (R35) -/

/-- A word of the address-space table (R21). -/
def State.asidWord (s : State) (asid i : Nat) : Word := s.rdTable (s.mgmt 0x08 + 16 * asid + 8 * i)

def State.tableGen (s : State) (asid : Nat) : Nat := bits (s.asidWord asid 1).toNat 0 16

/-- The space that stands for a memory partition where no ASID does: accesses of a host function and of a peer (R55). -/
def partSpace (part : Nat) : Nat := 2 ^ 20 + part

/-- The memory partition of a space. -/
def State.partOf (s : State) (asid : Nat) : Nat :=
  if 2 ^ 20 ≤ asid then asid - 2 ^ 20 else bits (s.asidWord asid 1).toNat 16 4

/-- The place's copy of GEN: the old one until a GENBUMP in progress reaches it (R37). Places 0 to 539
are homes, 540 + n is core n. -/
def State.curGen (s : State) (asid place : Nat) : Nat :=
  match s.bumps.find? (fun b => b.asid = asid) with
  | some b => if b.updated.contains place then s.tableGen asid else b.old
  | none => s.tableGen asid

def State.coreGen (s : State) (core asid : Nat) : Nat := s.curGen asid (540 + core)

/-! ### The home of a line (R54, R55, R61, R66) -/

def parity (x : Nat) : Bool := ((List.range 39).foldl (fun p i => xor p (x.testBit i)) false)

/-- h[7:0] under the masks of a partition. -/
def State.homeHash (s : State) (part pa : Nat) : Nat :=
  let q := bits pa 7 39
  (List.range 8).foldl (fun h n =>
    if parity (q &&& (lookD (8 * part + n) (0 : Word) s.hmask).toNat) then h ||| 2 ^ n else h) 0

def State.homeDie (s : State) (part pa : Nat) : Nat := s.homeHash part pa / 64

/-- Stack and channel of an HBM block (R61), controller of an LPDDR block (R66). -/
def hbmStack (pa : Nat) : Nat := bits pa 12 3 ^^^ bits pa 22 3 ^^^ bits pa 32 3
def hbmChannel (pa : Nat) : Nat := bits pa 15 5 ^^^ bits pa 25 5
def lpController (pa : Nat) : Nat :=
  let o := local46 pa - 0x010000000000
  bits o 12 4 ^^^ bits o 20 4

/-! ### What the L2 homes hold (R54, R58) -/

/-- The slice that is the home of an address for a space: 64 × die + slice. -/
def State.sliceOf (s : State) (asid a : Nat) : Nat := s.homeHash (s.partOf asid) a

def State.l2At (s : State) (slice line : Nat) : Option L2Line := s.l2.find? fun x => x.line = line && x.slice = slice

/-- What memory behind L2 holds at an address: what a dirty byte of a line covers, or the byte itself. -/
def State.behind (s : State) (a : Nat) : Byte :=
  (s.l2.findSome? fun x => if x.line = align a 128 then look a x.under else none).getD (mget s.mem a)

/-- Some line of the address tells its homes apart: a dirty byte not yet in memory, or a byte of its own (R58). -/
def State.twoHomes (s : State) (a : Nat) : Bool :=
  s.l2.any fun x => x.line = align a 128 && !(x.own.isEmpty && x.under.isEmpty)

/-- The byte at an address as its L2 home holds it for a space. One home holds what State.mem does; of two, each holds
its own (R58). A peer's byte is free (assumption 12). -/
def State.homeGet (s : State) (asid a : Nat) : Byte :=
  if 2 ^ 54 ≤ a then s.anyBits 8 (8 * (a % 2 ^ 20) + 3)
  else if s.twoHomes a then
    (match s.l2At (s.sliceOf asid a) (align a 128) with
     | some x => (look a x.own).getD (mget s.mem a)
     | none => s.behind a)
  else mget s.mem a

/-- n bytes at their L2 homes. -/
def State.homeGets (s : State) (asid a n : Nat) : List Byte := (List.range n).map fun i => s.homeGet asid (a + i)

/-- The walker's read of an entry at its L2 home (R27); memory that the map lacks, or that another device holds, gives a
free value (R26 states no check of a node's address; assumption 7). -/
def State.entryAt (s : State) (asid pa : Nat) : Word :=
  if s.isLocal pa && s.populated 0 (local46 pa) 8 then BitVec.ofNat 64 (leNat (s.homeGets asid (local46 pa) 8))
  else s.anyBits 64 (8 * (pa % 4096) + 7)

/-- The place that checks GEN for memory-side accesses: channels are places 256 to 511, controllers
512 to 527, the peer links 528 to 539 (R35). -/
def memSidePlace (pa : Nat) : Nat :=
  if isHbm pa then 256 + 32 * hbmStack pa + hbmChannel pa
  else if isLpddr pa then 512 + lpController pa else 0

/-- The lowest link that the route entry of a device names (R352). -/
def State.linkTo (s : State) (dev : Nat) : Nat :=
  ((List.range 12).find? fun i => (lookD dev (0 : Word) s.hub.routes).getLsbD (i + 1)).getD 0

/-- The home that checks the GEN of an access at a target; none for windows and for host memory read
uncached (R13, R35). -/
def State.genPlace (s : State) (asid : Nat) : Tgt → Option Nat
  | .mem pa .so => if isHost pa then none else some (memSidePlace pa)
  | .mem pa _ => some (s.homeHash (s.partOf asid) pa)
  | .cell pa _ => some (memSidePlace pa)
  | .peer pa _ | .peerCell pa _ => some (528 + s.linkTo (bits pa 46 6))
  | _ => none

/-- An engine or a fetch that translates now for a core meets the GEN of its home; if not, it waits: rejected, it
translates again, or it is held (R35, R36). -/
def State.genMet (s : State) (core asid : Nat) (t : Tgt) : Bool :=
  match s.genPlace asid t with
  | some p => s.curGen asid p = s.coreGen core asid
  | none => true

/-! ### The walk (R22 to R27) -/

inductive WalkRes
  | ok (e : TlbEntry) (ptrs : List WalkEntry)
  | recov
  | trap (cause sub : Nat)
  deriving DecidableEq, Repr

/-- Legal spans by level 1 to 4 (R25). -/
def legalSpan (lvl span : Nat) : Bool := if lvl ≤ 2 then span ≤ 5 else lvl = 3 && span ≤ 2

def pfn (e : Word) : Nat := bits e.toNat 16 36

/-- An entry as the walker reads it: a pointer kept in the walk cache may be used for the memory's
(R27), as the device chooses (assumption 4). -/
def State.readNode (s : State) (core asid a : Nat) : Word :=
  match (s.core core).walkc.find? (fun x => x.asid = asid && x.addr = a) with
  | some x => if s.anyBool (8 * (a % 4096) + 5) then x.val else s.entryAt asid a
  | none => s.entryAt asid a

/-- The entries of the span group of entry e, at index idx of a node (R25). -/
def State.groupOk (s : State) (asid node idx lvl : Nat) (e : Word) : Bool :=
  let span := bits e.toNat 11 3
  let g := align idx (2 ^ span)
  let f := 512 ^ (lvl - 1)
  let p0 := pfn (s.entryAt asid (node + 8 * g))
  p0 % (2 ^ span * f) = 0 &&
  (List.range (2 ^ span)).all fun k =>
    let x := s.entryAt asid (node + 8 * (g + k))
    x.toNat % 2 ^ 16 = e.toNat % 2 ^ 16 && pfn x = p0 + k * f

/-- The walk from a node at a level (R26). -/
def State.walkFrom (s : State) (core asid gen va : Nat) : Nat → Nat → List WalkEntry → WalkRes
  | 0, _, _ => .trap 0x15 1
  | l + 1, node, ptrs =>
    let idx := bits va (16 + 9 * l) 9
    let a := node + 8 * idx
    let e := s.readNode core asid a
    let span := bits e.toNat 11 3
    if !e.getLsbD 0 then (if e.getLsbD 1 then .recov else .trap 0x07 (l + 1))
    else if bits e.toNat 14 2 ≠ l then .trap 0x15 (l + 1)
    else if span = 7 then
      if l = 0 ∨ bits e.toNat 8 3 ≠ 0 ∨ bits e.toNat 2 2 ≠ 0 then .trap 0x15 (l + 1)
      else s.walkFrom core asid gen va l (pfn e * 2 ^ 16 + bits e.toNat 4 4 * 2 ^ 12)
        (⟨asid, a, e⟩ :: ptrs)
    else if !legalSpan (l + 1) span then .trap 0x15 (l + 1)
    else if !s.groupOk asid node idx (l + 1) e then .trap 0x15 (l + 1)
    else
      let size := 2 ^ (16 + 9 * l + span)
      let base := pfn (s.entryAt asid (node + 8 * align idx (2 ^ span))) * 2 ^ 16
      .ok ⟨asid, gen, align va size, size, base, e⟩ ptrs

/-- A translation: a TLB entry of the current generation may serve (R27), as the device chooses
(assumption 4); otherwise the walk. -/
def State.walk (s : State) (core asid va : Nat) : WalkRes :=
  let gen := s.coreGen core asid
  let full : WalkRes :=
    if !(s.asidWord asid 0).getLsbD 0 then .trap 0x07 5
    else s.walkFrom core asid gen va 4 (align (s.asidWord asid 0).toNat 4096 % 2 ^ 52) []
  match (s.core core).tlb.find?
      (fun e => e.asid = asid && e.gen = gen && e.vbase ≤ va && va < e.vbase + e.size) with
  | some e => if s.anyBool (8 * (va / 65536) + 6) then .ok e [] else full
  | none => full

/-! ### Checks of an access -/

/-- Kinds of access, as the checks tell them apart (R13, R28); block is a read of an engine, which no cell page
accepts (R30, R31). -/
inductive Acc
  | read
  | block
  | write
  | atom
  | cadd
  | clrc
  | sttag
  | ldtag
  | fetch
  | pin
  | waitc
  | bar
  deriving DecidableEq, Repr

/-- The outcome of a check: a target with the walk behind it, a recoverable fault, or a trap. -/
inductive Check
  | ok (t : Tgt) (w : WalkRes)
  | recov
  | trap (cause sub : Nat)
  deriving DecidableEq, Repr

/-- Accesses that need W = 1 (R28). -/
def Acc.writes : Acc → Bool
  | .write | .atom | .cadd | .clrc | .sttag => true
  | _ => false

/-- KIND of the fault-queue entry (R28). -/
def Acc.kind : Acc → Nat
  | .write | .sttag | .atom => 1
  | .cadd | .clrc => 3
  | .fetch => 2
  | _ => 0

/-- What a cell page accepts (R31). -/
def cellAccepts (acc : Acc) (va n : Nat) : Bool :=
  match acc with
  | .cadd | .clrc => true
  | .pin => true
  | .read => ((n = 4 || n = 8) && va % 32 = 0) || (n = 16 && va % 16 = 0)
  | _ => false

/-- The checks of R28 against a leaf, and the target. -/
def State.checkLeaf (s : State) (g : Agent) (va n : Nat) (acc : Acc) (w : WalkRes) : Check :=
  match w with
  | .recov => .recov
  | .trap c sub => .trap c sub
  | .ok e _ =>
    let l := e.leaf
    let ord := bits l.toNat 2 2
    let cell := l.getLsbD 7
    let pa := e.pbase + (va - e.vbase)
    if !g.priv && !l.getLsbD 6 then .trap 0x06 0
    else if ord = 3 && !cell then .trap 0x11 0
    else if acc.writes && !l.getLsbD 4 then .trap 0x06 0
    else if acc = .fetch && !l.getLsbD 5 then .trap 0x06 0
    else if cell && !cellAccepts acc va n then .trap 0x08 0
    else if !cell && (acc = .cadd || acc = .clrc) then .trap 0x08 0
    else if !s.physOk g.asid e.pbase e.size then .trap 0x06 2
    else if cell then .ok (if s.isLocal pa then .cell pa (bits l.toNat 8 2) else .peerCell pa (bits l.toNat 8 2)) w
    else
      let kind : PageKind := if ord = 0 then .rc else if ord = 1 then .so else .uo
      if s.isLocal pa then .ok (.mem pa kind) w else .ok (.peer pa kind) w

/-- [off, off + n) of a core's scratchpad lies inside an allocation of the ASID (R15). -/
def State.allocOk (s : State) (core asid off n : Nat) : Bool :=
  off + n ≤ Config.spadBytes &&
  s.teams.any fun t =>
    let tm := t.2
    tm.cores.contains core && tm.life != .saved && tm.life != .retired &&
    (s.ctx (s.grid tm.grid).ctx).asid = asid &&
    assoc tm.cores tm.bases core ≤ off && off + n ≤ assoc tm.cores tm.bases core + tm.spad

/-- Core number of die, meadow and core-in-meadow fields (R262). -/
def coreOf (die meadow cim : Nat) : Nat := 96 * die + 16 * meadow + cim

def State.remoteSpad (s : State) (g : Agent) (core off n : Nat) : Check :=
  if s.allocOk core g.asid off n then .ok (.spad core off) .recov else .trap 0x06 1

/-- A reserved window, or a bit outside the fields of R12 (R13). -/
def badWindow (va : Nat) : Bool :=
  let win := bits va 44 4
  let f := bits va 0 44
  (win = 0 && f ≥ 2 ^ 21) || (win = 1 && (bits va 21 14 ≠ 0 || bits va 39 3 > 5)) ||
    (win = 2 && (bits va 21 11 ≠ 0 || bits va 38 6 ≠ 0)) ||
    (win = 3 && (bits va 0 12 ≠ 0 || bits va 15 29 ≠ 0)) || (win = 4 && f ≥ 2 ^ 17) ||
    (win = 5 && (bits va 21 8 ≠ 0 || bits va 33 3 > 5)) || win > 5

/-- A window access of n bytes (R12 to R19); alignment is already checked. A store of a wrong size to SPBASE or SPSIZE
breaks two rules of R18 that the manual does not order: PROT is raised (assumption 75). -/
def State.window (s : State) (g : Agent) (va n : Nat) (acc : Acc) : Check :=
  let win := bits va 44 4
  let f := bits va 0 44
  let off := bits va 0 21
  let tm := s.team g.team
  if badWindow va then .trap 0x06 1
  else if acc = .fetch then .trap 0x06 1
  else if acc = .cadd || acc = .clrc then .trap 0x08 0
  else if acc = .atom && (win = 2 || win = 3 || win = 4) then .trap 0x06 1
  else if (acc = .sttag || acc = .ldtag || acc = .bar) && 1 < win then .trap 0x06 1
  else if acc = .waitc && (win = 2 || win = 3 || win = 4) then .trap 0x06 1
  else if win = 0 then
    (if off + n ≤ tm.spad then .ok (.spad g.core (assoc tm.cores tm.bases g.core + off)) .recov
     else .trap 0x06 1)
  else if win = 1 then s.remoteSpad g (coreOf (bits va 42 2) (bits va 39 3) (bits va 35 4)) off n
  else if win = 2 then
    (let fd := s.fold (64 * dieOf g.core + bits va 32 6)
     if !fd.bound || fd.tenant ≠ g.tenant || fd.wsize < off + n then .trap 0x06 1
     else if acc = .write then .ok (.fold (dieOf g.core) (bits va 32 6) off) .recov
     else if off + n ≤ tm.spad then .ok (.spad g.core (assoc tm.cores tm.bases g.core + off)) .recov
     else .trap 0x06 1)
  else if win = 3 then (if n = 8 then .ok (.aperture (bits va 12 3)) .recov else .trap 0x02 99)
  else if win = 4 then
    (if f < 0x10000 then .ok (.ctlWin f) .recov
     else if f < 0x12000 then (if acc = .read then .ok (.ctlWin f) .recov else .trap 0x06 1)
     else if f < 0x12300 then (if n = 8 then .ok (.ctlWin f) .recov else .trap 0x02 99)
     else if f < 0x13000 || 0x13010 ≤ f then .trap 0x06 1
     else if acc ≠ .read then .trap 0x06 1
     else if n = 8 then .ok (.ctlWin f) .recov else .trap 0x02 99)
  else
    (let core := coreOf (bits va 36 2) (bits va 33 3) (bits va 29 4)
     if bits va 38 6 = s.devnum then s.remoteSpad g core off n
     else .ok (.peerSpad (bits va 38 6) core off) .recov)

/-- The bytes that a region entry names for team index i (R150). -/
def Region.base (r : Region) (i : Nat) : Int := (r.va : Int) + i * r.tstride

def Region.holds (r : Region) (i va n : Nat) : Bool := r.base i ≤ va && (va + n : Nat) ≤ r.base i + r.len
def Region.meets (r : Region) (i va n : Nat) : Bool := r.base i < (va + n : Nat) && (va : Int) < r.base i + r.len

/-- R167: a write of a DET team to [va, va + n). Window 0 is not checked, windows 1, 2 and 5 are
outside every range. -/
def State.detOk (s : State) (g : Agent) (va n : Nat) (acc : Acc) : Bool :=
  let tm := s.team g.team
  let gr := s.grid tm.grid
  !gr.det || !acc.writes ||
  (if bits va 48 4 = 0xF then
     (let w := bits va 44 4
      !(w = 1 || w = 2 || w = 5))
   else
     (gr.regions.any fun r => r.write && r.holds tm.index va n) &&
     (acc = .cadd || !(gr.regions.any fun r => r.write && r.cell && r.meets tm.index va n)))

/-- R268: the checks of one lane's access of n bytes at alignment al. -/
def State.check (s : State) (g : Agent) (ea : Word) (al n : Nat) (acc : Acc) : Check :=
  let va := ea.toNat
  if 2 ^ 52 ≤ va then .trap 0x06 0
  else if va % al ≠ 0 then .trap 0x05 al
  else
    let r :=
      if bits va 48 4 = 0xF then s.window g va n acc
      else if acc = .bar then .trap 0x06 1
      else s.checkLeaf g va n acc (s.walk g.core g.asid va)
    match r with
    | .ok _ _ => if s.detOk g va n acc then r else .trap 0x09 0
    | _ => r

/-- Whether the target is accessed as SO, so that R106 orders it (R20, R29). -/
def Tgt.isSo : Tgt → Bool
  | .mem _ .so | .peer _ .so | .aperture _ | .ctlWin _ => true
  | _ => false

/-- RC pages and the windows of kind RC, the fold window and cells: what a release waits for besides
SO (R107); only UO is exempt (R109). -/
def Tgt.isUo : Tgt → Bool
  | .mem _ .uo | .peer _ .uo => true
  | _ => false

end Sys2Proof.Machine
end

