-- ==== Sys2Proof/Machine/Request.lean ====
section
/-!
DEFINITION. Requests and their time registers (R76 to R82), the device error log and the interrupts
(R356, R359), the broken-promise log (R90, R91), and how a load, a store or an add enters the machine
at its issue (R102, R85).
-/
namespace Sys2Proof.Machine

/-! ### Interrupts and the error log -/

/-- Raise vector v of a tenant; a masked vector keeps one pending message (R356). -/
def State.interrupt (s : State) (tenant v : Nat) : State :=
  if tenant ≥ 16 then s
  else s.mapTenant tenant fun t =>
    if t.masked.getLsbD v then { t with pending := setBit t.pending v true }
    else { t with sent := put v (lookD v 0 t.sent + 1) t.sent }

/-- A field of a record that the manual states no value for: a free value (R4; assumption 23). -/
def State.unsaid (s : State) (k : Nat) : Nat := s.any (8 * k + 4)

/-- Write one 32-byte record of the device error log (R359). -/
def State.errorRecord (s : State) (ty tenant level core detail addr aux : Nat) : State :=
  let seq := s.mgmt 0x40
  let at_ := s.mgmt 0x30 + 32 * (seq % max 1 (s.mgmt 0x38))
  let body := leBytes 8 seq ++ leBytes 2 ty ++ leBytes 1 tenant ++ leBytes 1 level ++ leBytes 2 core ++
    leBytes 2 detail ++ leBytes 8 addr ++ leBytes 8 aux
  let s := s.wr at_ body
  let s := { s with hub := { s.hub with mgmt := put 0x40 (BitVec.ofNat 64 (seq + 1)) s.hub.mgmt } }
  s.interrupt tenant 3

/-- The sequence number that the next record takes. -/
def State.errSeq (s : State) : Nat := s.mgmt 0x40

/-! ### Time registers -/

/-- The image of a time register (R76). -/
def timage (st value : Nat) : W32 := BitVec.ofNat 32 (st * 2 ^ 28 + value % 2 ^ 28)
def tstate (x : W32) : Nat := (x.extractLsb' 28 4).toNat
def tvalue (x : W32) : Nat := (x.extractLsb' 0 28).toNat

def stDone : Nat := 0
def stBooked : Nat := 1
def stLate : Nat := 2
def stOpen : Nat := 3
def stFault : Nat := 4
def stError : Nat := 5
def stCancel : Nat := 6

def Req.key (r : Req) : Nat := 64 * r.agent.core + r.agent.slot

/-- v registers that a request's value fills, and s registers (R266). -/
def Req.vCount (r : Req) : Nat := max 1 ((r.size + 3) / 4)
def Req.sCount (r : Req) : Nat := max 1 ((r.size + 7) / 8)

/-- A request's time registers take an image, in every lane whose register carries it (R78). -/
def State.reqT (s : State) (r : Req) (st value : Nat) : State :=
  match r.tsel with
  | none => s
  | some n => s.mapWeft r.key fun w => w.eachLane (lanesOf r.lanes) fun _ x =>
      if lookD n 0 x.treq = r.id then x.setT n (timage st value) else x

/-- The registers stop carrying a request that is over. -/
def State.dropT (s : State) (r : Req) : State :=
  match r.tsel with
  | none => s
  | some n => s.mapWeft r.key fun w => w.eachLane (lanesOf r.lanes) fun _ x =>
      if lookD n 0 x.treq = r.id then { x with treq := del n x.treq } else x

/-- At issue: the registers carry the request and take its first image. -/
def State.takeT (s : State) (r : Req) (st value : Nat) : State :=
  match r.tsel with
  | none => s
  | some n => s.mapWeft r.key fun w => w.eachLane (lanesOf r.lanes) fun _ x =>
      { x.setT n (timage st value) with
        treq := if st = stDone then del n x.treq else put n r.id x.treq,
        broken := del n x.broken, refused := del n x.refused }

/-! ### The list of requests -/

def State.req (s : State) (id : Nat) : Option Req := s.reqs.find? (fun r => r.id = id)
def State.setReq (s : State) (r : Req) : State :=
  { s with reqs := s.reqs.map fun q => if q.id = r.id then r else q }
def State.dropReq (s : State) (id : Nat) : State := { s with reqs := s.reqs.filter (fun r => r.id != id) }

/-- The request that a v register of a lane awaits, by logical number (R93). -/
def State.vPending (s : State) (key lane logical : Nat) : Option Req :=
  s.reqs.find? fun r => r.key = key && r.dst = .v && r.parts.any fun p =>
    p.lane = lane && p.reg ≤ logical && logical < p.reg + r.vCount

def State.sPending (s : State) (key n : Nat) : Option Req :=
  s.reqs.find? fun r => r.key = key && match r.dst with | .s m => m ≤ n && n < m + r.sCount | _ => false

def State.zPending (s : State) (key n : Nat) : Option Req :=
  s.reqs.find? fun r => r.key = key && match r.dst with | .z m => m = n | _ => false

/-- The CHKT that a predicate of a lane awaits. -/
def State.pPending (s : State) (key lane n : Nat) : Option Req :=
  s.reqs.find? fun r => r.key = key && r.dst = .p n && r.lanes.getLsbD lane

/-- Requests a core has outstanding (R47): fold requests are not counted. -/
def State.outstanding (s : State) (core : Nat) : Nat :=
  (s.reqs.filter fun r => r.agent.core = core && (match r.op with | .fld _ _ _ _ => false | _ => true)).length

/-- A new request, before it is placed. -/
def State.newReq (s : State) (g : Agent) (op : ReqOp) (size : Nat) (parts : List Part) (dst : ReqDst) : Req :=
  { (default : Req) with
    id := s.nextId, agent := g, epoch := (s.team g.team).epoch, gen := s.coreGen g.core g.asid,
    op := op, size := size, parts := parts, lanes := maskOf (parts.map (·.lane)), dst := dst,
    phase := .probe, issued := (s.core g.core).cyc, start := (s.core g.core).cyc, level := 16, promise := 0,
    epc := s.cur.va, insn := s.fresh, batch := s.nextId }

/-- A request stands at a posted fault. -/
def Req.isPosted (r : Req) : Bool := match r.phase with | .posted _ => true | _ => false

def State.addReq (s : State) (r : Req) : State := { s with reqs := s.reqs ++ [r], nextId := s.nextId + 1 }

/-- Requests of one issue of one instruction. -/
def Req.fellow (r q : Req) : Bool := q.key = r.key && q.insn = r.insn

/-- The device serves nothing but the request's instruction. -/
def State.idle (s : State) (r : Req) : Bool := s.reqs.all r.fellow

/-- Two byte ranges meet. -/
def meets (a n b m : Nat) : Bool := a < b + m && b < a + n

/-- Address key of a target: scratchpads lie above all memory, core by core. -/
def Tgt.base : Tgt → Nat
  | .mem pa _ => local46 pa
  | .cell pa _ => pa
  | .spad core off => 2 ^ 60 + core * 2 ^ 22 + off
  | .peer pa _ | .peerCell pa _ => 2 ^ 54 + pa
  | .peerSpad dev core off => 2 ^ 61 + (dev * 512 + core) * 2 ^ 22 + off
  | .fold die num off => 2 ^ 62 + (die * 64 + num) * 2 ^ 22 + off
  | .aperture ch => 2 ^ 63 + ch
  | .ctlWin off => 2 ^ 63 + 2 ^ 20 + off

def Part.meets (p : Part) (n : Nat) (q : Part) (m : Nat) : Bool := Machine.meets p.tgt.base n q.tgt.base m

/-! ### Booking in the issue cycle (R85) -/

/-- The words of a scratchpad access (R45). -/
def spadWords (off n : Nat) : List Nat := (List.range ((off % 4 + n + 3) / 4)).map fun i => off / 4 + i

/-- Every byte of [a, a + n) is in the core's view, and stays (R99). -/
def Core.viewHas (c : Core) (a n : Nat) : Bool :=
  (List.range n).all fun i => match look (a + i) c.view with | some b => !b.doomed | none => false

/-- An acquire of the lane that has not performed delays its younger accesses (R108). -/
def State.acquirePending (s : State) (key lane id : Nat) : Bool :=
  s.reqs.any fun r => r.key = key && r.acq && r.id < id && !r.satisfied && r.parts.any fun p => p.lane = lane

/-- Older Store Queue entries of the weft that overlap the bytes of a load (R103). -/
def State.overlaps (s : State) (key id : Nat) (p : Part) (n : Nat) : List SqEntry :=
  (s.weft key).sq.filter fun e => e.req < id && Machine.meets e.tgt.base e.bytes.length p.tgt.base n

/-- An older access of the lane to the same bytes that only its Home can serve, or that stands at a fault,
is not satisfied: the load waits for it (R104). -/
def State.olderHard (s : State) (r : Req) (p : Part) : Bool :=
  s.reqs.any fun q => q.key = r.key && q.id < r.id && !q.satisfied &&
    (match q.op, q.phase, q.acq with
     | .load _, .probe, false | .load _, .booked, false | .load _, .answered, false | .load _, .walk, false => false
     | .store, _, _ | .pref, _, _ | .lck _, _, _ | .cmo _, _, _ | .gadd _, _, _ | .rtake _, _, _ | .rput _, _, _
     | .fld _ _ _ _, _, _ => false
     | _, _, _ => true) &&
    q.parts.any fun y => y.lane = p.lane &&
      (y.meets (max 1 q.size) p (max 1 r.size) || meets y.va (max 1 q.size) p.va (max 1 r.size))

/-- Is the request a memory access that releases and fences wait for? -/
def ReqOp.isAccess : ReqOp → Bool
  | .load _ | .ldtag | .atom _ | .cas | .cadd | .clrc | .store | .sttag | .waitc _ | .bara | .barw | .chkt _ => true
  | _ => false

/-- Where RC or UO memory, this device's or a peer's, stands in a core's view (R49, R69): peers above all of this
device's memory. -/
def Tgt.viewAt : Tgt → Option Nat
  | .mem pa k => if k = .so then none else some (local46 pa)
  | .peer pa k => if k = .so then none else some (2 ^ 54 + pa)
  | _ => none

/-- Whether the request can be booked by the core in its issue cycle, and at which level (R80, R85): own
scratchpad and the engine windows (level 0), an L1 hit (level 1). A load that an order of R103 or R108
still delays is accepted OPEN instead (assumption 8). -/
def State.coreBooks (s : State) (r : Req) : Option Nat :=
  let free := r.parts.all fun p =>
    (s.overlaps r.key r.id p r.size).isEmpty && (p.tgt.isUo || !s.acquirePending r.key p.lane r.id) &&
      !s.olderHard r p
  match r.op, r.parts with
  | .load _, p :: _ | .ldtag, p :: _ | .chkt _, p :: _ =>
    if !free then none
    else
      (match p.tgt with
       | .spad core _ => if core = r.agent.core then some 0 else none
       | .aperture _ => some 0
       | .ctlWin _ => some 0
       | _ =>
         if !r.acq && r.parts.all fun p => match p.tgt.viewAt with
            | some a => if r.op = .ldtag then (look (a / 64) (s.core r.agent.core).vtags).isSome
                        else (s.core r.agent.core).viewHas a r.size
            | none => false
         then some 1 else none)
  | _, _ => none

/-! ### Scratchpad conflicts (R45) -/

/-- The scratchpad words of a request, as 2^20 × core + word; reads of one word count once. -/
def Req.words (r : Req) : List Nat :=
  let ws := r.parts.flatMap fun p => match p.tgt with
    | .spad c off => (spadWords off (max 1 r.size)).map fun w => 2 ^ 20 * c + w
    | _ => []
  match r.op with
  | .load _ | .ldtag | .chkt _ => ws.eraseDups
  | _ => ws

/-- The bank of a word. -/
def bankOf (w : Nat) : Nat := 512 * (w / 2 ^ 20) + w % 512

/-- Each word's bank, and its turn there after the words before it. -/
def bankTurns (before : List Nat) : List Nat → List (Nat × Nat)
  | [] => []
  | w :: ws => (bankOf w, (before.filter fun v => bankOf v = bankOf w).length) :: bankTurns (before ++ [w]) ws

/-- The 32-lane groups of a set of lanes. -/
def groupsOf (m : LaneMask) : List Nat := (List.range 4).filter fun g => (lanesOf m).any fun l => l / 32 = g

/-- The requests of one instruction know what they take together: the turns of each one's words among those of all
(a word read by an earlier one is not read again), the cycles that conflicts add, the groups of their lanes. -/
def together (rs : List Req) : List Req :=
  let groups := groupsOf (rs.foldl (fun m r => m ||| r.lanes) 0)
  let batch := match rs with | r :: _ => r.id | [] => 0
  let served := rs.foldl (fun (acc : List Nat × List Req) r =>
    let mine := match r.op with
      | .load _ | .ldtag | .chkt _ => r.words.filter fun w => !acc.1.contains w
      | _ => r.words
    (acc.1 ++ mine, acc.2 ++ [{ r with turns := bankTurns acc.1 mine, groups := groups, batch := batch }])) ([], [])
  let extra := (bankTurns [] served.1).foldl (fun m t => max m t.2) 0
  served.2.map fun r => { r with extra := extra }

/-- A request of an instruction that makes no other. -/
def Req.alone (r : Req) : Req := (together [r]).headD r

/-- Requests that ERRINJ delays (R92, R289). -/
def ReqOp.injected : ReqOp → Bool
  | .load _ | .ldtag | .atom _ | .cas => true
  | _ => false

/-- The delay of an injection that is armed for a level and not yet used up by requests in flight (R92). -/
def State.injectFor (s : State) (r : Req) (level : Nat) : Option Nat :=
  let e := (s.core r.agent.core).errinj.toNat
  let used := (s.reqs.filter fun q => q.agent.core = r.agent.core && q.armed && q.id != r.id).length
  if r.op.injected && e.testBit 63 && bits e 52 4 = level && level < 9 && used < bits e 0 16 then some (bits e 32 16)
  else none

/-- A request that a level has booked may be delayed by ERRINJ. -/
def State.inject (s : State) (r : Req) (level : Nat) : Req :=
  { r with inject := (s.injectFor r level).getD 0, armed := (s.injectFor r level).isSome }

/-! ### Reeds (R83) -/

/-- Capacity of a reed by class: 0 scratchpad bank (words), 1 register-file write (groups), 2 core fill
port, 3 meadow return, 4 central return, 5 slice read, 6 hub return, 7 memory-side return (bytes),
8 cell home queue (operations). -/
def reedCapacity : Nat → Nat
  | 0 => 1 | 1 => 1 | 2 => 128 | 3 => 128 | 4 => 1024 | 5 => 128 | 6 => 2048 | 7 => 64 | _ => 1

/-- What a booking takes: reed class and number, cycles after its start slot, units; claims of one tag share. -/
structure Claim where
  cls : Nat
  num : Nat
  off : Nat
  units : Nat
  tag : Nat := 0
  deriving DecidableEq, Repr

/-- A cycle of a core's clock on the clock that drives a reed (R83): a scratchpad's is its core's, the core's own ports
run on its own, all others on the hub's timer. -/
def State.reedCycle (s : State) (core cls num c : Nat) : Nat :=
  let at_ := fun t => t + c - (s.core core).cyc
  if cls = 0 then at_ (s.core (num / 512)).cyc
  else if cls ≤ 3 then c
  else at_ s.hub.clk

def State.reedUsed (s : State) (cls num cyc tag : Nat) : Nat :=
  (s.slots.filter fun x => x.cls = cls && x.num = num && x.cyc = cyc && !(x.tag ≠ 0 && x.tag = tag)).foldl
    (fun a x => a + x.units) 0

def State.claimFits (s : State) (core c : Nat) (k : Claim) : Bool :=
  s.reedUsed k.cls k.num (s.reedCycle core k.cls k.num (c + k.off)) k.tag + k.units ≤ reedCapacity k.cls

/-- book of R83: the first start slot from ready on, within 1,024 cycles, in which every reed of the path
has room. -/
def State.firstSlot (s : State) (core : Nat) (ks : List Claim) : Nat → Nat → Option Nat
  | 0, _ => none
  | fuel + 1, c => if ks.all (s.claimFits core c) then some c else s.firstSlot core ks fuel (c + 1)

def State.reserve (s : State) (core : Nat) (ks : List Claim) (c : Nat) : State :=
  { s with slots := ks.map (fun k => ⟨k.cls, k.num, s.reedCycle core k.cls k.num (c + k.off), k.units, k.tag⟩) ++ s.slots }

/-- Words that other traffic moves through a scratchpad take the next free slots of their banks (R46, R83). -/
def State.claimBanks (s : State) (core off n : Nat) : State :=
  (spadWords off n).foldl (fun s w =>
    let k : Claim := ⟨0, 512 * core + w % 512, 0, 1, 0⟩
    match s.firstSlot core [k] 1024 (s.core core).cyc with
    | some c => s.reserve core [k] c
    | none => s) s

/-- Slots of the register-file write reed from the landing slot on (R83): one per 32-lane group for lane-issued v data,
in the turn that the group has in its instruction, one for uniform or s data, none where nothing lands. -/
def Req.writeClaims (r : Req) (tail : Nat) : List Claim :=
  let quarter := 4 * r.agent.core + r.agent.slot / 16
  match r.dst with
  | .v => ((List.range r.groups.length).zip r.groups).filterMap fun e =>
      if (groupsOf r.lanes).contains e.2 then some ⟨1, quarter, tail + e.1, 1, 4 * r.batch + e.2 + 1⟩ else none
  | .none => []
  | _ => [⟨1, quarter, tail, 1, 0⟩]

/-- The die whose stack or hub side serves a memory block: 4 for the hub. -/
def memDie (pa : Nat) : Nat := if isHbm pa then hbmStack pa / 2 else 4

/-- The reeds of a request's path at a level of R90 (R59, R83): tail is its landing slot beyond the start slot. -/
def State.claims (s : State) (r : Req) (level tail : Nat) : List Claim :=
  let core := r.agent.core
  let bytes := min 64 (max 1 r.size * max 1 r.parts.length)
  let claim := fun cls num => (⟨cls, num, Config.reedOffset cls, bytes, 0⟩ : Claim)
  let spad := r.turns.map fun t => (⟨0, t.1, Config.reedOffset 0 + t.2, 1, 0⟩ : Claim)
  let fill := [claim 2 core]
  let meadow := claim 3 core :: fill
  let ret := claim 4 (meadowOf core) :: meadow
  let hub := claim 6 (dieOf core)
  let t := match r.parts with | p :: _ => p.tgt | [] => .aperture 0
  let pa := t.base
  let home := s.homeHash (s.partOf r.agent.asid) pa
  let across := fun die => if die = dieOf core then ret else hub :: ret
  let slice := claim 5 home :: across (home / 64)
  let memory := if isHbm pa then [(⟨7, 32 * hbmStack pa + hbmChannel pa, Config.reedOffset 7, min 64 bytes, 0⟩ : Claim)] else []
  let byHome := if memDie pa = home / 64 then slice else claim 6 (home / 64) :: slice
  (if level = 0 then spad
   else if level = 1 then []
   else if level = 2 then spad ++
     (match t with
      | .spad c _ => if distance core c = 0 then meadow else across (dieOf c)
      | _ => meadow)
   else if level = 3 ∨ level = 4 then slice
   else if level = 8 then hub :: ret
   else match t with
     | .cell _ _ => ⟨8, memSidePlace pa, Config.reedOffset 8, 1, 0⟩ :: memory ++ across (memDie pa)
     | .mem _ .so => memory ++ across (memDie pa)
     | _ => memory ++ byHome) ++ r.writeClaims tail

/-! ### Issue of one request -/

/-- A request enters the Load Path (R102): booked in the issue cycle, or OPEN with its walk or its probe
under way (R80). walked says that the translation came from a walk, not from the TLB (R27). -/
def State.placeLoad (s : State) (r : Req) (walked : Bool) : State :=
  match if walked then none else s.coreBooks r with
  | some level =>
    let fig := Config.idleFigure level 0 + r.extra
    (match s.firstSlot r.agent.core (s.claims r level fig) 1024 r.issued with
     | some c =>
       let p := c + fig
       let r' := { s.inject r level with phase := .booked, level := level, promise := p, slot := p }
       ((s.reserve r.agent.core (s.claims r level fig) c).addReq r').takeT r' stBooked p
     | none => (s.addReq r).takeT r stOpen r.start)
  | none =>
    let r' := { r with phase := if walked then .walk else .probe }
    (s.addReq r').takeT r' stOpen r.start

/-- Whether a walk result came from a walk of the page table and not from the TLB. -/
def WalkRes.walked : WalkRes → Bool
  | .ok _ ptrs => !ptrs.isEmpty
  | _ => false

/-- A store enters the Store Queue of its weft (R99, R102), with the request that tracks it: x is the
data, y the bytes that have not yet performed at their Home. -/
def State.pushStore (s : State) (g : Agent) (va : Nat) (tgt : Tgt) (bytes : List Byte) (rel : Bool)
    (scope : Nat) (tsel : Option Nat) (lanes : LaneMask) (ty hint : Nat) : State :=
  let n := bytes.length
  let p : Part := { lane := g.lane, va := va, x := leNat bytes, y := 2 ^ n - 1, val := 0, reg := 0, tgt := tgt }
  let r := { s.newReq g .store n [p] .none with
    ty := ty, hint := hint, tsel := tsel, lanes := lanes, rel := rel, scope := scope, phase := .waiting }
  let e : SqEntry := { lane := g.lane, tgt := tgt, bytes := bytes, rel := rel, scope := scope,
                       home := tsel.isSome, req := r.id, va := va }
  ((s.addReq r).mapWeft r.key fun w => { w with sq := w.sq ++ [e] }).takeT r stOpen r.start

end Sys2Proof.Machine
end

