-- ==== Sys2Proof/Machine/Flags.lean ====
section
/-!
DEFINITION. The bits that describe values: integer and floating-point relations (R258, R308), classes
(R308), and the states and distance of a time register (R94).
-/
namespace Sys2Proof.Machine

/-- An operand of w bits as an integer, by signedness. -/
def intOf (signed : Bool) (w x : Nat) : Int := if signed then toSigned w x else (x % 2 ^ w : Nat)

/-- cat(0, GT, LT, EQ) (R258). -/
def relBits (signed : Bool) (w a b : Nat) : Nat :=
  let x := intOf signed w a
  let y := intOf signed w b
  (if x = y then 1 else 0) + (if x < y then 2 else 0) + (if y < x then 4 else 0)

/-- EQ, LT, GT, UN (R308). -/
def frelBits (a b : Fl) : Nat :=
  if a.isNan || b.isNan then 8
  else match a.cmp b with | .eq => 1 | .lt => 2 | .gt => 4

/-- The class bit of an encoding (R308). -/
def fclassBits (f : Fmt) (x : Nat) : Nat :=
  match f.decode x with
  | .nan => 2 ^ 8
  | .inf n => if n then 1 else 2 ^ 7
  | .fin n m _ =>
    if m = 0 then (if n then 2 ^ 3 else 2 ^ 4)
    else if m < 2 ^ f.m then (if n then 2 ^ 2 else 2 ^ 5)
    else if n then 2 else 2 ^ 6

/-- The distance D of a time register at a cycle (R94; of CANCEL, which R94 leaves out, assumption 71). -/
def tdist (x : W32) (cyc : Nat) : Nat :=
  let st := tstate x
  if st = stDone then 0
  else if st = stBooked then (tvalue x + 2 ^ 28 - cyc % 2 ^ 28) % 2 ^ 28
  else if st = stLate then 1024
  else if st = stOpen then 1025
  else if st = stFault ∨ st = stError then 0x07FFFFFF
  else Config.freeDistance x.toNat (cyc % 2 ^ 28) % 2 ^ 28

/-- PENDING of R94: BOOKED, LATE and OPEN. -/
def tpending (x : W32) : Bool := tstate x = stBooked || tstate x = stLate || tstate x = stOpen

/-- The condition of a BRT (R245): 0 DONE, 1 PENDING, 2 FAR, 3 LATE, 4 FAULT; bit 3 inverts. -/
def brtCond (c : Nat) (x : W32) (cyc far : Nat) : Bool :=
  let k := c % 8
  let r :=
    if k = 0 then tstate x = stDone
    else if k = 1 then tpending x
    else if k = 2 then tpending x && decide (far < tdist x cyc)
    else if k = 3 then tstate x = stLate
    else tstate x = stFault
  xor r (decide (8 ≤ c % 16))

end Sys2Proof.Machine
end

