-- ==== Sys2Proof/Machine/Arith.lean ====
section
/-!
DEFINITION. Integer arithmetic of the uniform and lane instructions (R257, R258, R295, R296) on operands
of w bits: computed exactly as integers and narrowed at the end.
-/
namespace Sys2Proof.Machine

/-- The least and the greatest value of a type. -/
def intMin (signed : Bool) (w : Nat) : Int := if signed then -(2 ^ (w - 1) : Nat) else 0
def intMax (signed : Bool) (w : Nat) : Int := if signed then (2 ^ (w - 1) : Nat) - 1 else (2 ^ w : Nat) - 1

/-- An exact result, wrapped or clamped under SAT. -/
def narrow (signed sat : Bool) (w : Nat) (x : Int) : Nat :=
  ofInt w (if sat then max (intMin signed w) (min (intMax signed w) x) else x)

def opAdd (sg sat : Bool) (w a b : Nat) : Nat := narrow sg sat w (intOf sg w a + intOf sg w b)
def opSub (sg sat : Bool) (w a b : Nat) : Nat := narrow sg sat w (intOf sg w a - intOf sg w b)
def opMul (sg sat : Bool) (w a b : Nat) : Nat := narrow sg sat w (intOf sg w a * intOf sg w b)
def opMad (sg sat : Bool) (w a b c : Nat) : Nat :=
  narrow sg sat w (intOf sg w a * intOf sg w b + intOf sg w c)
/-- The high w bits of the product of 2w bits. -/
def opMulh (sg : Bool) (w a b : Nat) : Nat := ofInt w ((intOf sg w a * intOf sg w b) / (2 ^ w : Nat))
def opAnd (w a b : Nat) : Nat := (a &&& b) % 2 ^ w
def opOr (w a b : Nat) : Nat := (a ||| b) % 2 ^ w
def opXor (w a b : Nat) : Nat := (a ^^^ b) % 2 ^ w
/-- b is read as unsigned 64 bits: a count of w or more gives 0. -/
def opShl (w a b : Nat) : Nat := if w ≤ b then 0 else a * 2 ^ b % 2 ^ w
/-- Arithmetic for signed types; a count of w or more gives all sign bits or 0. -/
def opShr (sg : Bool) (w a b : Nat) : Nat := ofInt w (intOf sg w a / (2 ^ min b w : Nat))
def opMin (sg : Bool) (w a b : Nat) : Nat := if intOf sg w a ≤ intOf sg w b then a % 2 ^ w else b % 2 ^ w
def opMax (sg : Bool) (w a b : Nat) : Nat := if intOf sg w a ≤ intOf sg w b then b % 2 ^ w else a % 2 ^ w
def opAbs (sat : Bool) (w a : Nat) : Nat := narrow true sat w (intOf true w a).natAbs
def opPopc (w a : Nat) : Nat := ((List.range w).filter fun i => a.testBit i).length
/-- Leading zeros within w: w for 0. -/
def opClz (w a : Nat) : Nat := if a % 2 ^ w = 0 then w else w - 1 - Nat.log2 (a % 2 ^ w)
/-- pos = b[5:0], len = b[12:6]; the field sign-extended from its top bit for signed types. -/
def opBfe (sg : Bool) (w a b : Nat) : Nat :=
  let pos := bits b 0 6
  let len := bits b 6 7
  let x := (a % 2 ^ w) / 2 ^ pos % 2 ^ len
  if len = 0 then 0 else extend sg len w x % 2 ^ w
/-- a with bits [pos + len - 1 : pos] replaced by the low len bits of b; bits at or above w drop. -/
def opBfi (w a b f : Nat) : Nat :=
  let pos := bits f 0 6
  let len := bits f 6 7
  setBits a pos len b % 2 ^ w

/-- One output byte of BPERM (R296). -/
def bpermByte (x c i : Nat) : Nat :=
  let n := bits c (4 * i) 4
  let byte := bits x (8 * (n % 8)) 8
  if 8 ≤ n then (if byte.testBit 7 then 0xFF else 0) else byte

def opBperm (a b c : Nat) : Nat :=
  let x := a % 2 ^ 32 + b % 2 ^ 32 * 2 ^ 32
  bpermByte x c 0 + 256 * bpermByte x c 1 + 65536 * bpermByte x c 2 + 16777216 * bpermByte x c 3

/-- rng of R298. -/
def rngRound (key x : Nat) : Nat :=
  let y := x * 0x9E3779B1 % 2 ^ 32
  (y ^^^ (y / 2 ^ 15)) % 2 ^ 32 + key

def opRng (key counter : Nat) : Nat :=
  let k := key % 2 ^ 32
  let x := (counter % 2 ^ 32) ^^^ k
  let r := fun x => rngRound k x % 2 ^ 32
  r (r (r x))

end Sys2Proof.Machine
end

