-- ==== Sys2Proof/Machine/Caches.lean ====
section
/-!
DEFINITION. The caches: L2 slices and the two homes of R58 (R54, R55, R58), the memory-side caches with the room
that cell lines take (R62, R63), and the core views (R49, R51, R99 to R101).
-/
namespace Sys2Proof.Machine

/-! ### What a memory channel holds (R62, R63, R67) -/

/-- Blocks and cell lines that share the room of a block: a set of its channel's memory-side cache, or the buffer of
its LPDDR controller. -/
def cellPeers (a b : Nat) : Bool :=
  memSidePlace a = memSidePlace b && (isLpddr a || Config.cellSet a = Config.cellSet b)

/-- Cell lines that share the room of a block. -/
def State.cellsNear (s : State) (b : Nat) : List Nat := s.cellUse.filter fun a => cellPeers a b

/-- A booked hit on the block in its memory-side cache is not yet delivered (R87). -/
def State.mscHeld (s : State) (b : Nat) : Bool :=
  s.reqs.any fun r => r.level = 5 && (r.phase = .booked || r.phase = .answered) &&
    r.parts.any fun p => align (local46 p.tgt.base) 64 = b

/-- The block's channel opens a row (R62). -/
def State.openRow (s : State) (b : Nat) : State :=
  if isHbm b then { s with rows := s.rows ++ [32 * hbmStack b + hbmChannel b] } else s

/-- Blocks leave the set of b until n remain: the least recently used that nothing holds, a dirty one by a row of its
DRAM. -/
def State.mscTrim (s : State) (b : Nat) : Nat → State
  | 0 => s
  | n + 1 =>
    let near := s.msc.filter fun x => cellPeers x.block b
    if s.msc.length + s.cellUse.length ≤ 16 ∨ near.length + (s.cellsNear b).length ≤ 16 then s
    else match near.reverse.find? fun x => !s.mscHeld x.block && x.block != b with
      | some x =>
        let s1 := { s with msc := s.msc.filter fun y => y.block != x.block }
        (if x.dirty then s1.openRow b else s1).mscTrim b n
      | none => s

/-- A block of HBM is read or written at its channel: its cache holds it from then on, the most recently used; a read
that misses opens a row, a write does not (R62). -/
def State.mscUse (s : State) (pa : Nat) (write : Bool) : State :=
  let b := align (local46 pa) 64
  if !isHbm pa then s
  else match s.msc.find? fun x => x.block = b with
    | some x => { s with msc := { x with dirty := x.dirty || write } :: s.msc.filter fun y => y.block != b }
    | none =>
      let s1 := if write then s else s.openRow b
      ({ s1 with msc := ⟨b, write⟩ :: s1.msc } : State).mscTrim b 16

def State.mscHas (s : State) (pa : Nat) : Bool := s.msc.any fun x => x.block = align (local46 pa) 64

/-! ### L2 (R54, R55) -/

/-- The line is in the L2 slice that is its home for a space. -/
def State.l2Has (s : State) (asid line : Nat) : Bool :=
  s.l2.any (fun x => x.line = line) && (s.l2At (s.sliceOf asid line) line).isSome

/-- Other lines of an address keep the byte that they hold (R58). -/
def State.keepOwn (s : State) (slice a : Nat) : State :=
  { s with l2 := s.l2.map fun y => if y.line = align a 128 && y.slice != slice && (look a y.own).isNone
      then { y with own := put a (mget s.mem a) y.own } else y }

/-- A byte written at its memory side: what L2 holds of it stays as it is. -/
def State.sideSet (s : State) (a : Nat) (b : Byte) : State :=
  if !(s.l2.any fun x => x.line = align a 128) then { s with mem := mset s.mem a b }
  else
    let s1 := s.keepOwn 256 a
    { s1 with
      mem := mset s1.mem a b
      l2 := s1.l2.map fun x => if x.line = align a 128 && (look a x.under).isSome then { x with under := put a b x.under } else x }

def State.sideSets (s : State) (a : Nat) : List Byte → State
  | [] => s
  | b :: bs => (s.sideSet a b).sideSets (a + 1) bs

/-- A byte written at its L2 home for a space; one that its home does not hold goes to memory. -/
def State.homeSet (s : State) (asid a : Nat) (b : Byte) : State :=
  let slice := s.sliceOf asid a
  if (s.l2At slice (align a 128)).isNone then s.sideSet a b
  else
    let under := s.behind a
    let s1 := s.keepOwn slice a
    { s1 with
      mem := mset s1.mem a b
      l2 := s1.l2.map fun x => if x.line = align a 128 && x.slice = slice
        then { x with dirty := true, own := del a x.own,
                      under := if (look a x.under).isSome then x.under else put a under x.under }
        else x }

/-- Bytes written at their L2 home. -/
def State.homeSets (s : State) (asid a : Nat) : List Byte → State
  | [] => s
  | b :: bs => (s.homeSet asid a b).homeSets asid (a + 1) bs

/-- n bytes at their memory side, where SO accesses perform (R48, R113): L2 is not asked. -/
def State.sideGets (s : State) (a n : Nat) : List Byte := (List.range n).map fun i => s.behind (a + i)

/-- A dirty byte of a line reaches memory (R58: the last write-back is what memory keeps). -/
def State.memorySet (s : State) (x : L2Line) (a : Nat) : State :=
  let v := (look a x.own).getD (mget s.mem a)
  let others := s.l2.any fun y => y.line = x.line && y.slice != x.slice && (look a y.under).isSome
  if others then
    { s with l2 := s.l2.map fun y => if y.line = x.line && y.slice != x.slice && (look a y.under).isSome
        then { y with under := put a v y.under } else y }
  else if (look a x.own).isSome then { s.keepOwn x.slice a with mem := mset s.mem a v }
  else s

/-- A line of L2 is written back, its two blocks into the memory-side cache (R62), and leaves L2. -/
def State.l2Evict (s : State) (x : L2Line) : State :=
  let s1 := x.under.foldl (fun s e => s.memorySet x e.1) s
  let s2 := { s1 with l2 := s1.l2.filter fun y => !(y.slice = x.slice && y.line = x.line) }
  if x.dirty then (s2.mscUse x.line true).mscUse (x.line + 64) true else s2

/-- A booked hit on a line of L2 is not yet delivered (R87). -/
def State.l2Held (s : State) (x : L2Line) : Bool :=
  s.reqs.any fun r => (r.level = 3 || r.level = 4) && (r.phase = .booked || r.phase = .answered) &&
    r.parts.any fun p => align (local46 p.tgt.base) 128 = x.line && s.sliceOf r.agent.asid x.line = x.slice

/-- A context pins the line at this slice (R70). -/
def State.l2Pinned (s : State) (x : L2Line) : Bool :=
  s.l2pins.any fun p => p.line = x.line && s.sliceOf (s.ctx p.ctx).asid p.line = x.slice

/-- Lines of a set of a slice. -/
def State.l2Set (s : State) (slice line : Nat) : List L2Line :=
  s.l2.filter fun x => x.slice = slice && Config.l2Set x.line = Config.l2Set line

/-- The line of an address is in its L2 slice from now on, brought in by a space, the most recently used of its set
(R54, R57); of twelve ways the least recently used that is neither pinned nor held makes room (R40, R87), and where
there is none the line is not kept. What its block's other home has not written back is not in it (R58). Lines whose
bytes differ from their block's other home leave by WRITE_BACK and HMASK_WRITE (assumption 66). -/
def State.intoL2 (s : State) (a asid : Nat) : State :=
  let line := align a 128
  let slice := s.sliceOf asid a
  match s.l2At slice line with
  | some x =>
    let x' := { x with asids := if x.asids.contains asid then x.asids else asid :: x.asids }
    { s with l2 := x' :: s.l2.filter fun y => !(y.slice = slice && y.line = line) }
  | none =>
    let near := s.l2Set slice line
    let room : Option State :=
      if s.l2.length < 12 ∨ near.length < 12 then some s
      else (near.reverse.find? fun x => !s.l2Pinned x && !s.l2Held x && x.own.isEmpty).map s.l2Evict
    match room with
    | none => s
    | some s1 =>
      let own := (s1.l2.filter fun y => y.line = line).flatMap fun y => y.under.map (·.1)
      { s1 with l2 := { slice := slice, line := line, asids := [asid], dirty := false, under := [],
                        own := own.foldl (fun t b => put b (s1.behind b) t) [] } :: s1.l2 }

/-- The blocks of [pa, pa + n) are read or written at their memory side (R62). -/
def State.mscRange (s : State) (pa n : Nat) (write : Bool) : State :=
  (List.range ((pa % 64 + n + 63) / 64)).foldl (fun s i => s.mscUse (align pa 64 + 64 * i) write) s

/-- What L2 fetches from memory comes through the memory-side cache (R62). -/
def State.fetchL2 (s : State) (a asid : Nat) : State :=
  if s.l2Has asid (align a 128) then s.intoL2 a asid else (s.mscUse a false).intoL2 a asid

/-- The lines of [a, a + n) are in their L2 homes. -/
def State.fetchLines (s : State) (a n asid : Nat) : State :=
  (List.range ((a % 128 + n + 127) / 128)).foldl (fun s i => s.fetchL2 (align a 128 + 128 * i) asid) s

/-- Lines that HINT 1 has just filled are the least recently used of L2 (R216). -/
def State.streamL2 (s t : State) (hint : Nat) : State :=
  let new := fun (x : L2Line) => !(s.l2.any fun y => y.slice = x.slice && y.line = x.line)
  if hint = 1 then { t with l2 := t.l2.filter (fun x => !new x) ++ t.l2.filter new } else t

/-! ### Walks -/

/-- The address of the leaf that a walk ended at: in the node of its last pointer (R22, R24). -/
def leafAt (e : TlbEntry) : List WalkEntry → Option Nat
  | [] => none
  | p :: ps => some (pfn p.val * 2 ^ 16 + bits p.val.toNat 4 4 * 2 ^ 12 + 8 * bits e.vbase (16 + 9 * (2 - ps.length)) 9)

/-- Keep a successful walk in the core's TLB and walk cache; the entries that it read are in their L2 homes (R27,
R48). -/
def State.keepWalk (s : State) (core : Nat) : WalkRes → State
  | .ok e ptrs =>
    let read := (ptrs.map (·.addr) ++ (leafAt e ptrs).toList).filter s.isLocal
    (read.foldl (fun s a => s.fetchL2 (local46 a) e.asid) s).mapCore core fun c =>
      { c with tlb := e :: c.tlb.filter (fun x => !(x.asid = e.asid && x.vbase = e.vbase)),
               walkc := ptrs ++ c.walkc.filter (fun x =>
                 !(ptrs.any fun p => p.asid = x.asid && p.addr = x.addr)) }
  | _ => s

/-! ### Core views (R49, R51, R99 to R101) -/

/-- SCOPE names a Frontier beyond the core view: DIE and wider, TEAM on several cores (R51, R100). -/
def State.wide (s : State) (key scope : Nat) : Bool :=
  3 ≤ scope || (scope = 1 && 1 < (s.teamOf key).cores.length)

/-- A clean copy held for a booked hit is not dropped before the delivery (R87, R102). -/
def State.viewHeld (s : State) (core a : Nat) : Bool :=
  s.reqs.any fun r => r.agent.core = core && r.level = 1 &&
    (r.phase = .booked || r.phase = .answered) &&
    r.parts.any fun p => match p.tgt.viewAt with
      | some b => b ≤ a && a < b + max 1 r.size
      | none => false

/-- Some byte of the line is in the view. -/
def Core.holdsLine (c : Core) (line : Nat) : Bool := c.view.any fun e => e.1 / 128 = line / 128

/-- Tags kept with a view: those of blocks that still have a byte in it. -/
def trimTags (view : Tab ViewByte) (t : Tab (BitVec 16)) : Tab (BitVec 16) :=
  t.filter fun e => view.any fun b => b.1 / 64 = e.1

/-- Clean copies chosen by a predicate leave the view; pinned lines turn stale (R70). -/
def Core.dropClean (c : Core) (p : Nat → ViewByte → Bool) : Core :=
  let v := c.view.filter fun e => e.2.dirty || !p e.1 e.2
  { c with view := v, vtags := trimTags v c.vtags,
           pins := c.pins.map fun x =>
             { x with stale := x.stale || c.view.any fun e => e.1 / 128 = x.line / 128 && !e.2.dirty && p e.1 e.2 } }

/-- Some copy that the Drop would discard is held. -/
def State.dropHeld (s : State) (core : Nat) (p : Nat → ViewByte → Bool) : Bool :=
  (s.core core).view.any fun e => !e.2.dirty && p e.1 e.2 && s.viewHeld core e.1

/-- The bytes that an acquire drops: RC ones; UO ones too under FENCE at SYSTEM (R51). Tags of RC blocks go
with them. -/
def rcByte (uoToo : Bool) (_ : Nat) (b : ViewByte) : Bool := uoToo || !b.uo

/-- The acquire action of R51. A copy that a booked hit holds is dropped once that hit is delivered, and serves nothing
else until then (R87, R108). -/
def State.acquireDrop (s : State) (core : Nat) (uoToo : Bool) : State :=
  s.mapCore core fun c =>
    let c1 := c.dropClean fun a b => rcByte uoToo a b && !s.viewHeld core a
    { c1 with
      view := c1.view.map fun e => if !e.2.dirty && rcByte uoToo e.1 e.2 then (e.1, { e.2 with doomed := true }) else e
      vtags := c1.vtags.filter fun e => !uoToo && c1.view.any fun b => b.1 / 64 = e.1 && b.2.uo }

/-- Copies that a scope action has given up leave the view once nothing holds them (R87). -/
def State.sweep (s : State) (core : Nat) : State :=
  if (s.core core).view.any fun e => e.2.doomed && !s.viewHeld core e.1 then
    s.mapCore core fun c => c.dropClean fun a b => b.doomed && !s.viewHeld core a
  else s

/-- The acquire action on every core of a team that runs on several (R51, R117). -/
def State.acquireTeam (s : State) (team : Nat) : State :=
  let cs := (s.team team).cores
  if cs.length ≤ 1 then s else cs.foldl (fun s c => s.acquireDrop c false) s

/-- No dirty RC byte, nor UO byte under FENCE at SYSTEM, is left in the view (R51, R107). -/
def State.written (s : State) (core : Nat) (uoToo : Bool) : Bool :=
  (s.core core).view.all fun e => !e.2.dirty || !(uoToo || !e.2.uo)

/-- One byte as the core sees it (R100); mine says that a booked hit of the reader holds it. -/
def State.viewByte (s : State) (core asid a : Nat) (mine : Bool) : Byte :=
  match look a (s.core core).view with
  | some b => if b.doomed && !mine then s.homeGet asid a else b.val
  | none => s.homeGet asid a

/-- Bytes of memory as the core sees them. -/
def State.viewRead (s : State) (core asid a n : Nat) (mine : Bool) : List Byte :=
  (List.range n).map fun i => s.viewByte core asid (a + i) mine

/-- Clean copies of [a, a + n) take the Home's bytes: a Fill (R102). -/
def State.refresh (s : State) (core asid : Nat) (t : Tgt) (n : Nat) : State :=
  match t with
  | .mem pa _ =>
    let a := local46 pa
    s.mapCore core fun c => { c with view := c.view.map fun e =>
      if a ≤ e.1 && e.1 < a + n && !e.2.dirty && !e.2.doomed then (e.1, { e.2 with val := s.homeGet asid e.1 }) else e }
  | _ => s

end Sys2Proof.Machine
end

