-- ==== Sys2Proof/Machine/Ops.lean ====
section
/-!
DEFINITION. Shared operations of the instructions: trap entry and return (R168 to R171), the register
window (R246, R247), recoverable faults at issue (R28, R173), masks and the meeting hold (R160, R251),
and the team barrier (R281).
-/
namespace Sys2Proof.Machine

/-! ### The register window -/

/-- What one lane raises: cause, SUB, TADDR (R169). -/
structure Raise where
  lane : Nat
  cause : Nat
  sub : Nat
  addr : Word
  deriving DecidableEq, Repr

/-- The thread's global index T (R246). -/
def State.threadIndex (s : State) (key lane : Nat) : Nat :=
  let tm := s.teamOf key
  let w := s.weft key
  tm.index * (tm.cores.length * tm.wpc * w.width) + w.index * w.width + lane

/-- slot(L) of R246. -/
def State.stkSlot (s : State) (key lane logical : Nat) : Nat :=
  let gr := s.gridOf key
  gr.stkbase + gr.stksize * s.threadIndex key lane + 4 * logical

/-- Logical registers lo to hi - 1. -/
def span (lo hi : Nat) : List Nat := (List.range (hi - lo)).map (lo + ·)

/-- Spills of a slide by n (R247): logical registers LO to WB + n + 32 - C - 1. -/
def spillSpan (x : Lane) (stk n : Nat) : List Nat := span x.lo (x.wb + n + 32 - stk)

/-- A failed spill or fill raises SPILLFLT with the cause the access would have raised (R246). -/
def spillCause : Check → Nat
  | .trap c _ => c
  | .recov => 0x07
  | .ok _ _ => 0

/-- Write registers of a lane to their slots, as plain RC stores, until one fails (R246). -/
def State.spillRegs (s : State) (key lane : Nat) : List Nat → State × Option Raise
  | [] => (s, none)
  | L :: rest =>
    let va := s.stkSlot key lane L
    let g := s.agent key lane
    match s.check g (BitVec.ofNat 64 va) 4 4 .write with
    | .ok t w =>
      let y := lookD (L % (s.weft key).stk) 0 ((s.weft key).lane lane).regs
      ((s.keepWalk g.core w).pushStore g va t (leBytes 4 y.toNat) false 0 none (1#128 <<< lane) 0 0).spillRegs
        key lane rest
    | c => (s, some ⟨lane, 0x16, spillCause c, BitVec.ofNat 64 va⟩)

/-- A fill for each register, as a plain RC load into it (R246). -/
def State.fillRegs (s : State) (key lane : Nat) : List Nat → State
  | [] => s
  | L :: rest =>
    let va := s.stkSlot key lane L
    let g := s.agent key lane
    match s.check g (BitVec.ofNat 64 va) 4 4 .read with
    | .ok t w =>
      let p : Part := { lane := lane, va := va, x := 0, y := 0, val := 0, reg := L, tgt := t }
      let s := s.keepWalk g.core w
      (s.placeLoad (s.newReq g (.load false) 4 [p] .v).alone w.walked).fillRegs key lane rest
    | _ => s.fillRegs key lane rest

/-- The first register of a list whose slot cannot be read. -/
def State.fillFault (s : State) (key lane : Nat) : List Nat → Option Raise
  | [] => none
  | L :: rest =>
    let va := s.stkSlot key lane L
    match s.check (s.agent key lane) (BitVec.ofNat 64 va) 4 4 .read with
    | .ok _ _ => s.fillFault key lane rest
    | c => some ⟨lane, 0x16, spillCause c, BitVec.ofNat 64 va⟩

/-- Registers new to the window hold undefined values (R247): free values. -/
def State.freshRegs (s : State) (lane stk : Nat) (x : Lane) : List Nat → Lane
  | [] => x
  | L :: rest => s.freshRegs lane stk { x with regs := put (L % stk) (s.anyBits 32 (8 * (512 * lane + L) + 1)) x.regs } rest

/-- The window after slide_up(n) (R247). -/
def State.slidUp (s : State) (lane stk n : Nat) (x : Lane) : Lane :=
  let top := x.wb + n + 32
  s.freshRegs lane stk { x with lo := max x.lo (top - stk), wb := x.wb + n, dstMarks := x.dstMarks.filter fun e => e.1 < x.wb + 32 }
    (span (x.wb + 32) top)

/-- slide_up(n) fails for room (R247). -/
def State.noRoom (s : State) (key n : Nat) (x : Lane) : Bool := 4 * (x.wb + n + 32) > (s.gridOf key).stksize

/-- A spill of a register that a pending fill or load still has to write waits (R246). -/
def State.spillWaits (s : State) (key lane n : Nat) : Bool :=
  let w := s.weft key
  (spillSpan (w.lane lane) w.stk n).any fun L => (s.vPending key lane L).isSome

/-- The spills of slide_up(n) in each lane, and what failed: WOVF (addr is the instruction's VA) or
SPILLFLT. -/
def State.spillAll (s : State) (key n : Nat) (va : Word) : List Nat → State × List Raise
  | [] => (s, [])
  | l :: rest =>
    let w := s.weft key
    if s.noRoom key n (w.lane l) then
      let (s', rs) := s.spillAll key n va rest
      (s', ⟨l, 0x0A, 0, va⟩ :: rs)
    else
      match s.spillRegs key l (spillSpan (w.lane l) w.stk n) with
      | (s1, none) => s1.spillAll key n va rest
      | (s1, some r) =>
        let (s', rs) := s1.spillAll key n va rest
        (s', r :: rs)

/-! ### Traps -/

/-- freeze of R170: every lane of the weft is held by FROZEN (R160), and the tenant is told. -/
def State.freeze (s : State) (key cause : Nat) : State :=
  (s.mapWeft key fun w => { w with ncause := BitVec.ofNat 8 cause, frozen := true }).interrupt
    (s.gridOf key).tenant 2

/-- Trapping lanes enter the handler: window up by 32, PC to the table's slot for the cause. -/
def State.enterLane (s : State) (cause : Nat) (tbase : Word) (stk lane : Nat) (x : Lane) : Lane :=
  { s.slidUp lane stk 32 x with
    pc := tbase + BitVec.ofNat 64 (64 * cause), wait := .none, age := 0, lat := [] }

/-- The core can take n more requests (R47). -/
def State.roomFor (s : State) (core n : Nat) : Bool := s.outstanding core + n ≤ Config.maxRequests

/-- Stores that slide_up(n) makes in lanes (R247). -/
def State.spillCount (s : State) (key n : Nat) (ls : List Nat) : Nat :=
  (ls.map fun l => (spillSpan ((s.weft key).lane l) (s.weft key).stk n).length).sum

/-- Slides up by n wait: a register that a pending fill or load still has to write (R246), or R47. -/
def State.slideWaits (s : State) (key n : Nat) (ls : List Nat) : Bool :=
  ls.any (fun l => s.spillWaits key l n) || !s.roomFor (key / 64) (s.spillCount key n ls)

/-- A stop is asked of a weft's team: a weft in handler mode has HALTPEND then (R178, R185). -/
def State.stopAsked (s : State) (key : Nat) : Bool :=
  let st := (s.teamOf key).stop
  st.preempt || st.halt || st.ordinal.isSome

/-- The weft takes a trap: its trap registers, and the lanes that do not trap suspended (R170). -/
def State.trapWeft (s : State) (key cause sub : Nat) (mask : LaneMask) (addr epc : Word) (w : Weft) : Weft :=
  let others := (w.lanes.map (·.1)).filter fun l => !mask.getLsbD l && !(w.lane l).exited
  { w with
      tcause := BitVec.ofNat 64 (256 * sub + cause), tepc := epc &&& 0xFFFFFFFFFFFFF, tlanes := mask,
      taddr := addr, prevPriv := s.privOf key, hmode := true, haltPend := s.stopAsked key }.eachLane others fun _ x => { x with susp := true }

/-- Slides of the entry up to the first that fails: the lanes that have entered, and the failure (R170). -/
def State.enterUpTo (s : State) (key cause : Nat) (tbase va : Word) : List Nat → State × Option Raise
  | [] => (s, none)
  | l :: ls =>
    match s.spillAll key 32 va [l] with
    | (s1, []) => (s1.mapWeft key fun w =>
        w.setLane l (s.enterLane cause tbase w.stk l (w.lane l))).enterUpTo key cause tbase va ls
    | (s1, r :: _) => (s1, some r)

/-- enter of R170, at the instruction of VA epc: lanes of the mask trap with one cause. A register that
the entry must spill and that a fill has not yet written delays the entry, and so does R47: the instruction is issued
again (assumption 9). A spill that fails freezes the weft, what the entry has done before it standing. -/
def State.enterTrap (s : State) (key cause sub : Nat) (mask : LaneMask) (addr epc : Word) : State :=
  let w := s.weft key
  let ls := lanesOf mask
  if w.hmode || w.tbase = 0 then (s.freeze key cause).endDecision
  else if s.slideWaits key 32 ls then s.turnAway
  else
    match s.spillAll key 32 epc ls with
    | (s1, []) =>
      (s1.mapWeft key fun w =>
        (s.trapWeft key cause sub mask addr epc w).eachLane ls
          fun l x => s.enterLane cause w.tbase w.stk l x).endDecision
    | (_, _ :: _) =>
      match s.enterUpTo key cause w.tbase epc ls with
      | (s1, some r) =>
        let c := if r.cause = 0x16 then r.sub else r.cause
        (((s1.mapWeft key (s.trapWeft key cause sub mask addr epc)).freeze key 0x16).mapWeft key fun w =>
          { w with tcause := BitVec.ofNat 64 (setBits w.tcause.toNat 8 8 c), taddr := r.addr }).endDecision
      | (s1, none) => s1.endDecision

/-- R170: the cause of the lowest lane is taken, for every lane that raised that cause. -/
def State.raise (s : State) (rs : List Raise) : State :=
  match rs with
  | [] => s
  | r :: _ =>
    s.enterTrap s.key r.cause r.sub (maskOf ((rs.filter fun x => x.cause = r.cause).map (·.lane))) r.addr
      s.cur.va

/-- A class-U instruction raises its cause in every lane that issued it (R170). -/
def State.raiseU (s : State) (cause sub : Nat) (addr : Word) : State :=
  s.enterTrap s.key cause sub s.cur.lanes addr s.cur.va

/-- A trap that the whole decision raises at its instruction, TADDR the instruction's VA (R202). -/
def State.raiseAt (s : State) (cause sub : Nat) : State := s.raiseU cause sub s.cur.va

/-- The return of R171 once its fills are known to be possible. A stop that HALTPEND held back stays in
the team's stop request, and acts at each lane's next stop site once HMODE is 0. -/
def State.leaveTrap (s : State) : State :=
  let key := s.key
  let w := s.weft key
  let ls := lanesOf w.tlanes
  let downs := ls.map fun l => (l, span ((w.lane l).wb - 32) (w.lane l).lo)
  let s1 := s.mapWeft key fun w =>
    let w1 := w.eachLane ls fun _ x => { x with wb := x.wb - 32, lo := min x.lo (x.wb - 32), pc := w.tepc, wait := .none, age := 0 }
    let w2 := w1.eachLane (w.lanes.map (·.1)) fun _ x => { x with susp := false, age := if x.susp then 0 else x.age }
    { w2 with hmode := false, haltPend := false }
  let s2 := downs.foldl (fun s d => s.fillRegs key d.1 d.2) s1
  s2.endDecision

/-- tret of R171. -/
def State.trapReturn (s : State) : State :=
  let key := s.key
  let w := s.weft key
  let ls := lanesOf w.tlanes
  if !w.hmode then s.raiseAt 0x04 0
  else
    match ls.filterMap fun l =>
      if (w.lane l).wb < 32 then some (⟨l, 0x0B, 0, s.cur.va⟩ : Raise)
      else s.fillFault key l (span ((w.lane l).wb - 32) (w.lane l).lo) with
    | [] =>
      if s.roomFor (key / 64) ((ls.map fun l => ((w.lane l).lo - ((w.lane l).wb - 32))).sum) then s.leaveTrap else s.turnAway
    | r :: _ => s.raiseU r.cause r.sub r.addr

/-! ### Predicates -/

/-- The predicate of a lane-issued word in a lane (R205). -/
def ctlHolds (c : Ctl) (x : Lane) : Bool := !c.pe || xor (x.pred c.pi.toNat) c.pn

/-- The z predicate of a class-U word (R205). -/
def ctlHoldsU (c : Ctl) (w : Weft) : Bool := !c.pe || xor (w.zreg c.pi.toNat) c.pn

/-- Lanes of the decision that execute a lane-issued word's effect. -/
def State.active (s : State) (c : Ctl) : List Nat := s.lanes.filter fun l => ctlHolds c (s.cw.lane l)

/-! ### Recoverable faults at issue (R28, R173 to R176) -/

/-- A faulting access: lane and VA. -/
abbrev PageHit := Nat × Nat

/-- The distinct pages of faulting accesses, in ascending order of their lowest lane: 64 KiB, the
smallest page (assumption 10). -/
def faultPages : List PageHit → List Nat
  | [] => []
  | h :: rest => (h.2 / 65536) :: (faultPages rest).filter (· != h.2 / 65536)

/-- A fault that is found and not yet posted (R173). -/
def State.newFault (s : State) (g : Agent) (kind va : Nat) (weft treg : Nat) (lanes : LaneMask)
    (res : Resume) : State :=
  { s with faults := s.faults ++ [{
      tenant := g.tenant, seq := 0, kind := kind, asid := g.asid, gen := s.coreGen g.core g.asid,
      va := va, core := g.core, weft := weft, treg := treg, lanes := lanes, team := g.team, resume := res }] }

/-- Stores and fetches that fault park their lanes, whose PCs stay at the instruction (R28, R175): one
entry for each page. -/
def State.parkLanes (s : State) (kind treg : Nat) (hits : List PageHit) : State :=
  (faultPages hits).foldl (fun s p =>
    let ls := hits.filter fun h => h.2 / 65536 = p
    let m := maskOf (ls.map (·.1))
    let va := match ls with | h :: _ => h.2 | [] => 0
    let lane := match ls with | h :: _ => h.1 | [] => 0
    (s.newFault (s.agent s.key lane) kind va s.cur.slot treg m (.lanes s.cur.core s.cur.slot m)).mapWeft s.key
      fun w => w.eachLane (ls.map (·.1)) fun _ x => { x with wait := .park none }) s

/-! ### Masks (R160, R251) -/

/-- Release the lanes of a mask whose arrived bits cover its member bits. -/
def Weft.testMask (w : Weft) (k : Nat) : Weft :=
  if w.karr k ≠ 0 && (w.kmem k &&& ~~~(w.karr k)) = 0 then
    { w.eachLane (lanesOf (w.karr k)) (fun _ x =>
        if x.wait = .mask k then { x with wait := .none, age := 0 } else x) with
      kArr := put k 0 w.kArr }
  else w

/-- Clear lanes' member and arrived bits of a mask. -/
def Weft.leaveMask (w : Weft) (k : Nat) (m : LaneMask) : Weft :=
  ({ w with kMem := put k (w.kmem k &&& ~~~m) w.kMem, kArr := put k (w.karr k &&& ~~~m) w.kArr }).testMask k

def Weft.leaveMasks (w : Weft) (m : LaneMask) : Weft :=
  (List.range 12).foldl (fun w k => w.leaveMask k m) w

/-! ### The team barrier (R281) -/

/-- Every lane of the weft has exited. -/
def Weft.allExited (w : Weft) : Bool := (List.range w.width).all fun l => (w.lane l).exited

/-- The phase completes when the arrived bits cover every weft that has not exited: bits clear, PHASE
advances, every held lane is released; the departure is an acquire at TEAM scope. -/
def State.testBarrier (s : State) (team : Nat) : State :=
  let tm := s.team team
  let livew := tm.wefts.filter fun k => !(s.weft k).allExited
  if !livew.isEmpty && livew.all (fun k => tm.arrived.contains (s.weft k).index) then
    let s1 := s.setTeam team { tm with arrived := [], phase := tm.phase + 1 }
    (tm.wefts.foldl (fun s k => s.mapWeft k fun w =>
      w.eachLane (w.lanes.map (·.1)) fun _ x =>
        if x.wait = .barrier then { x with wait := .none, age := 0 } else x) s1).acquireTeam team
  else s

end Sys2Proof.Machine
end

