-- ==== Sys2Proof/Machine/Operands.lean ====
section
/-!
DEFINITION. Every operand form: read paths (R208), modifiers (R209), immediates (R207), widths (R210),
latches (R212), and the writing of results.
-/
namespace Sys2Proof.Machine

/-- The lane that lane i reads under PERM (R208). -/
def permLane (perm width i : Nat) : Nat :=
  if perm = 0 then i
  else if perm ≤ 6 then (i + width - 2 ^ (perm - 1) % width) % width
  else if perm ≤ 13 then i ^^^ 2 ^ (perm - 7)
  else if perm = 14 then width - 1 - i
  else 0

/-- The lowest issuing lane (R208). -/
def State.lead (s : State) : Nat := s.lanes.headD 0

/-- A latch of a lane: what the current chain pushed, else a free value (R212). -/
def State.latch (s : State) (lane n : Nat) : Word :=
  if s.cur.lanes.getLsbD lane then
    match (s.cw.lane lane).lat[n]? with
    | some y => y
    | none => s.anyBits 64 (8 * (4 * lane + n) + 2)
  else s.anyBits 64 (8 * (4 * lane + n) + 2)

/-- What a source names, before HI and the type: 64 bits of s, g, latch or a pair, 32 bits of v and t,
one bit of p, z and k. wide reads a v pair. -/
def State.raw (s : State) (lane : Nat) (src : Src) (wide : Bool) : Nat :=
  let w := s.cw
  let j := permLane src.perm.toNat w.width lane
  match src with
  | .v n _ _ =>
    if w.width ≤ j then 0
    else if wide then ((w.lane j).vPair w.stk n).toNat else ((w.lane j).v w.stk n).toNat
  | .b n _ _ => if w.width ≤ j then 0 else (s.latch j n).toNat
  | .t n _ => if w.width ≤ j then 0 else ((w.lane j).treg n).toNat
  | .p n _ => if w.width ≤ j then 0 else ((w.lane j).pred n).toNat
  | .s n _ => (w.sreg n).toNat
  | .g n _ => (s.greg s.key n).toNat
  | .z n => (w.zreg n).toNat
  | .k n => ((w.kmem n).getLsbD lane).toNat
  | .imm x => ofInt 64 x.toInt
  | .none => 0

/-- HI: bits [31:16] of a v register, [63:32] of a 64-bit source (R209). -/
def hiHalf (src : Src) (x : Nat) : Nat :=
  if src.md.getLsbD 2 then (if src.kind = 1 then bits x 16 16 else bits x 32 32) else x

/-- The sign bits of a floating-point read cleared under ABS and inverted under NEG. -/
def signMod (md : BitVec 3) (w x : Nat) : Nat :=
  let top := 2 ^ (w - 1)
  let y := if md.getLsbD 1 then x % top else x % 2 ^ w
  if md.getLsbD 0 then (if top ≤ y then y - top else y + top) else y

/-- MOD of a value of a type, HI done (R209). -/
def applyMod (ty : Nat) (md : BitVec 3) (x : Nat) : Nat :=
  let w := tyWidth ty
  if tyIsPacked ty then
    let a := signMod md 16 (bits x 0 16)
    let b := signMod md 16 (bits x 16 16)
    if md.getLsbD 2 then b + a * 2 ^ 16 else a + b * 2 ^ 16
  else if tyIsFloat ty then signMod md w (x % 2 ^ w)
  else if tyIsBits ty then x % 2 ^ w
  else
    let y := if md.getLsbD 1 && tySigned ty then ofInt w (toSigned w x).natAbs else x % 2 ^ w
    if md.getLsbD 0 then (2 ^ w - y) % 2 ^ w else y

/-- An immediate of a type (R207). -/
def immOf (ty : Nat) (x : Int) : Nat :=
  if tyIsPacked ty then
    let e := (tyFmt ty).encode 0 false (.ofInt x)
    e + e * 2 ^ 16
  else if tyIsFloat ty then (tyFmt ty).encode 0 false (.ofInt x)
  else ofInt (tyWidth ty) x

/-- A source as a value of a type, reduced to its width (R209, R210). -/
def State.val (s : State) (lane : Nat) (src : Src) (ty : Nat) : Nat :=
  match src.immVal with
  | some x => immOf ty x
  | none =>
    let raw := s.raw lane src (tyWidth ty = 64)
    applyMod ty src.md (if tyIsPacked ty then raw else hiHalf src raw)

/-- A count or control operand, read as unsigned 64 bits (R257). -/
def State.full (s : State) (lane : Nat) (src : Src) (ty : Nat) : Nat :=
  let x := hiHalf src (s.raw lane src (tyWidth ty = 64))
  if src.md.getLsbD 0 then (2 ^ 64 - x) % 2 ^ 64 else x

/-- A pair of FP32 elements (R312): HI swaps, NEG and ABS act on both signs. -/
def State.pairVal (s : State) (lane : Nat) (src : Src) : Nat :=
  match src.immVal with
  | some x => immOf 11 x + immOf 11 x * 2 ^ 32
  | none =>
    let x := s.raw lane src true
    let a := signMod src.md 32 (bits x 0 32)
    let b := signMod src.md 32 (bits x 32 32)
    if src.md.getLsbD 2 then b + a * 2 ^ 32 else a + b * 2 ^ 32

/-! ### Results -/

/-- How a comparison or a class is written: as ui32, or into the pair of a 64-bit type (R210). -/
def relTy (ty : Nat) : Nat := if tyWidth ty = 64 then 16 else 5

/-- A push of b0 (R212). -/
def pushLatch (x : Lane) (y : Word) : Lane := { x with lat := (y :: x.lat).take 4 }

/-- A register that is written no longer awaits the request that ended in ERROR (R93). -/
def Lane.clearMark (x : Lane) (n : Nat) : Lane := { x with dstMarks := del (x.wb + n) x.dstMarks }

/-- A result of a type in a v register or pair, extended under R210: the lane, and the value pushed. -/
def writeV (stk n ty y : Nat) (x : Lane) : Lane :=
  if tyWidth ty = 64 then
    ((x.setPair stk n (BitVec.ofNat 64 y)).clearMark n).clearMark (n + 1)
  else (x.setV stk n (BitVec.ofNat 32 (extend (tySigned ty) (tyWidth ty) 32 y))).clearMark n

def resultV (ty y : Nat) : Word :=
  if tyWidth ty = 64 then BitVec.ofNat 64 y else BitVec.ofNat 64 (extend (tySigned ty) (tyWidth ty) 32 y)

/-- A result of a type as an s register holds it (R210). -/
def resultS (ty y : Nat) : Word := BitVec.ofNat 64 (extend (tySigned ty) (tyWidth ty) 64 y)

/-- Write the result of a lane instruction to v(n), or only push it when N is set (R205, R212). -/
def putV (c : Ctl) (stk n ty y : Nat) (x : Lane) : Lane :=
  pushLatch (if c.n then x else writeV stk n ty y x) (resultV ty y)

/-- Each executing lane computes f of its operands, as they were before the word, into DST v (R292). -/
def State.laneResult (s : State) (c : Ctl) (dst : Dst) (ty : Nat) (f : Nat → Nat) : State :=
  match dst with
  | .v n => (s.mapWeft s.key fun w => w.eachLane (s.active c) fun l x => putV c w.stk n ty (f l) x).advance
  | _ => s.advance

/-- A value into s(n), unless N, and pushed into every issuing lane (R212, R256). -/
def State.putS (s : State) (c : Ctl) (n : Nat) (y : Word) : State :=
  s.mapWeft s.key fun w =>
    (if c.n then w else { w.setS n y with sMarks := del n w.sMarks }).eachLane s.lanes fun _ x => pushLatch x y

/-- A uniform instruction's result into DST s; a false z predicate skips it (R256). -/
def State.uniformResult (s : State) (c : Ctl) (dst : Dst) (ty y : Nat) : State :=
  if !ctlHoldsU c s.cw then s.advance
  else match dst with
  | .s n => (s.putS c n (resultS ty y)).advance
  | _ => s.advance

end Sys2Proof.Machine
end

