-- ==== Sys2Proof/Machine/Issue.lean ====
section
/-!
DEFINITION. Issue: fetch (R53, R202), the registers a word reads and writes, holds and touches (R81, R93,
R106, R160, R177), the issue decision of R161, and the clock of a core.
-/
namespace Sys2Proof.Machine

/-! ### Fetch -/

/-- What a fetch finds: the rest of the fetch block and its PA, a home whose GEN differs (R35), a recoverable fault, or
a trap. -/
inductive Fetched
  | bytes (bs : List Byte) (pa : Nat) (w : WalkRes)
  | wait
  | recov
  | trap (cause sub : Nat)
  deriving DecidableEq, Repr

/-- n bytes at a PA as a home read of a space returns them; another device's are free (R69, assumption 12). -/
def State.homeBytes (s : State) (asid pa n : Nat) : List Byte :=
  s.homeGets asid (if s.isLocal pa then local46 pa else 2 ^ 54 + pa) n

/-- The line of PA in the instruction cache, tagged with the ASID and GEN (R53). -/
def Core.iline (c : Core) (asid gen pa : Nat) : Option ILine :=
  c.icache.find? fun x => x.pa = align pa 128 && x.asid = asid && x.gen = gen

/-- The fetch block of PA through the instruction cache: its line may serve, or the home is read (R53, R39), as the
device chooses. -/
def State.fetchBlock (s : State) (core asid gen pa : Nat) (home : Bool) : List Byte :=
  match (s.core core).iline asid gen pa with
  | some x => if !home || s.anyBool (8 * (pa / 32) + 4) then (x.bytes.drop (pa % 128)).take 32 else s.homeBytes asid pa 32
  | none => s.homeBytes asid pa 32

/-- Fetch n bytes at VA for a weft, all in one fetch block, with the checks of R8 and R28. -/
def State.fetch (s : State) (key : Nat) (va n : Nat) : Fetched :=
  let g := s.agent key 0
  match s.check g (BitVec.ofNat 64 va) 1 n .fetch with
  | .ok t w =>
    let pa := match t with | .mem pa _ => pa | .peer pa _ => pa | _ => 0
    let gen := s.coreGen g.core g.asid
    let met := s.genMet g.core g.asid t
    if !met && ((s.core g.core).iline g.asid gen pa).isNone then .wait
    else .bytes (((s.fetchBlock g.core g.asid gen (align pa 32) met).drop (pa % 32)).take n) pa w
  | .recov => .recov
  | .trap c sub => .trap c sub

/-- Lines kept where at most n of one set may stand: four ways by PA[14:7] (R40). -/
def keepWays (set n : Nat) : List ILine → List ILine
  | [] => []
  | x :: xs =>
    if bits x.pa 7 8 = set then (match n with | 0 => keepWays set 0 xs | m + 1 => x :: keepWays set m xs)
    else x :: keepWays set n xs

/-- Keep the fetched line in the instruction cache, 128 bytes from its L2 home, and the walk (R27, R53). The
fetch block of this fetch is the one it was given; the least recently used line of the set makes room. -/
def State.keepFetch (s : State) (key pa : Nat) (w : WalkRes) : State :=
  let g := s.agent key 0
  let gen := s.coreGen g.core g.asid
  let b := align pa 128
  let t : Tgt := if s.isLocal pa then .mem pa .rc else .peer pa .rc
  let blk := s.fetchBlock g.core g.asid gen (align pa 32) (s.genMet g.core g.asid t)
  let whole := s.homeBytes g.asid b 128
  let at_ := align pa 32 % 128
  let new : ILine := ⟨b, g.asid, gen, whole.take at_ ++ blk ++ whole.drop (at_ + 32)⟩
  let s1 := s.keepWalk g.core w
  (if s.isLocal pa then s1.fetchL2 (local46 pa) g.asid else s1).mapCore g.core fun c =>
    let others := c.icache.filter fun x => !(x.pa = b && x.asid = g.asid && x.gen = gen)
    { c with icache := keepWays (bits b 7 8) 4 (new :: others) }

/-- The literal of n bytes of SLDLIT and VLDLIT is a fetch (R53, R259). -/
def State.literal (s : State) (off : BitVec 32) (n : Nat) : Nat × Fetched :=
  let va := (s.cur.va + off.signExtend 64 * 4).toNat
  (va, if va % n ≠ 0 then .trap 0x05 n
       else if 2 ^ 52 ≤ va then .trap 0x06 0
       else s.fetch s.key va n)

/-- The word at VA, decoded (R202). -/
def State.wordAt (s : State) (key va : Nat) : Fetched × Except Reject (Instr × Nat) :=
  let f := s.fetch key va (min 16 (32 - va % 32))
  match f with
  | .bytes bs _ _ => (f, decodeWord va bs)
  | _ => (f, .error .illop)

/-! ### What a word reads, writes and waits for -/

/-- The operands of a word, for holds and touches: v groups read (number, count, PERM), s groups, z and t registers, p
and t registers read (number, PERM); the t register written; the destination of its request; the fields the core
needs. -/
structure Info where
  opc : Nat
  uniform : Bool
  ctl : Ctl
  vr : List (Nat × Nat × Nat)
  sr : List (Nat × Nat)
  zr : List Nat
  pr : List (Nat × Nat)
  tr : List (Nat × Nat)
  tw : Option Nat
  vd : Option (Nat × Nat)
  sd : Option (Nat × Nat)
  zd : Option Nat
  pd : Option Nat
  gr : List Nat
  deriving DecidableEq, Repr

/-- Registers of n bytes in a v or an s group. -/
def vRegs (n : Nat) : Nat := max 1 ((n + 3) / 4)
def sRegs (n : Nat) : Nat := max 1 ((n + 7) / 8)

/-- v and s registers that the source in a slot takes (0 SA, 1 SB, 2 SC). -/
def slotRegs (opc ty slot sbImm size : Nat) : Nat × Nat :=
  if opc < 0x20 then (if opc = 0x08 ∨ opc = 0x09 then (1, 1) else (2, 1))
  else if isPairOp opc then (2, 1)
  else if opc < 0xA0 then (if tyWidth (srcTy opc ty slot sbImm) = 64 then 2 else 1, 1)
  else if opc < 0xD0 then
    (if slot = 0 then (2, 1)
     else if opc ∈ [0xA1, 0xA3, 0xA6, 0xA7, 0xA8, 0xA9, 0xB0] then (vRegs size, sRegs size)
     else if opc = 0xB7 then (2, 1) else (1, 1))
  else (1, 1)

def rawInfo (r : Raw) : Info :=
  let opc := r.opc.toNat
  let ty := r.ty.toNat
  let sbImm := sbImmOf r.sb
  let size := if 0xA0 ≤ opc ∧ opc < 0xD0 then sizeBytes (r.ext.extractLsb' 35 3) else 0
  let c := if 0x20 ≤ opc ∧ opc < 0xA0 ∧ r.len = 1 ∧ opc ≠ 0x2F ∧ opc ≠ 0x55
           then srcOr (r.ext.extractLsb' 0 16) else .none
  let srcs := [(0, srcOr r.sa), (1, srcOr r.sb), (2, c)]
  let d := dstOr r.dst
  let vr := srcs.filterMap fun x => match x.2 with
    | .v n p _ => some (n.val, (slotRegs opc ty x.1 sbImm size).1, p.toNat) | _ => none
  let sr := srcs.filterMap fun x => match x.2 with
    | .s n _ => some (n.val, (slotRegs opc ty x.1 sbImm size).2) | _ => none
  let zr := srcs.filterMap fun x => match x.2 with | .z n => some n.val | _ => none
  let pr := srcs.filterMap fun x => match x.2 with | .p n p => some (n.val, p.toNat) | _ => none
  let tr := srcs.filterMap fun x => match x.2 with | .t n p => some (n.val, p.toNat) | _ => none
  let row := opRow opc
  let uni := match row with | some x => x.uniform | none => false
  let tsel := if 0xA0 ≤ opc ∧ opc < 0xD0 ∧ r.ext.getLsbD 34 then some (r.ext.extractLsb' 32 2).toNat else none
  let dv := match d with | .v n => some n.val | _ => none
  let ds := match d with | .s n => some n.val | _ => none
  let req := opc ∈ [0xA0, 0xA2, 0xA4, 0xA6, 0xA7, 0xA8, 0xAD, 0xB0, 0xB2, 0xB3, 0xB7, 0xC0, 0xC1, 0xC6, 0xD1]
  { opc := opc, uniform := uni, ctl := r.ctl,
    vr := (if opc = 0x34 then [] else vr) ++ (if opc = 0x83 then (dv.map fun n => (n, 1, 0)).toList else []) ++
      (if opc = 0xA8 then (dv.map fun n => (n, vRegs size, 0)).toList else []) ++
      (if opc = 0x06 then [(30, 2, 0)] else []),
    sr := sr ++ (if opc ∈ [0x15, 0xD2, 0xD3, 0xD4, 0xD5, 0xE7] then (ds.map fun n => (n, 1)).toList else []),
    zr := zr ++ (if uni && r.pe then [r.pi.toNat] else []),
    pr := pr ++ (if !uni && r.pe then [(r.pi.toNat, 0)] else []),
    tr := tr,
    tw := match tsel with | some n => some n | none => (match d with | .t n => some n.val | _ => none),
    vd := if req then dv.map fun n => (n, vRegs size) else none,
    sd := if req then ds.map fun n => (n, sRegs size) else none,
    zd := if req then (match d with | .z n => some n.val | _ => none) else none,
    pd := match d with | .p n => some n.val | _ => none,
    gr := srcs.filterMap fun x => match x.2 with | .g n _ => some n.val | _ => none }

/-- Lanes of a word that take its effect, of a set. -/
def Info.effect (x : Info) (w : Weft) (ls : List Nat) : List Nat :=
  if x.uniform then (if x.ctl.pe && xor (w.zreg x.ctl.pi.toNat) x.ctl.pn = false then [] else ls)
  else ls.filter fun l => ctlHolds x.ctl (w.lane l)

/-- A v group of a lane awaits a request (R93). -/
def State.vHeld (s : State) (key lane n cnt : Nat) : Bool :=
  (List.range cnt).any fun i => (s.vPending key lane (((s.weft key).lane lane).wb + n + i)).isSome

/-- The lane whose v register SHFL names, after PERM. -/
def State.shflLane (s : State) (key lane : Nat) (a j : Src) : Nat :=
  let s' := { s with cur := { s.cur with core := key / 64, slot := key % 64 } }
  let t := s'.val lane j 5
  if t < (s.weft key).width then permLane a.perm.toNat (s.weft key).width t else t

/-- The v registers that a word reads for a lane, and in which lanes (R208): its own operands, and for SHFL those of
the lane that it names. -/
def State.vReads (s : State) (key rd : Nat) (x : Info) (shfl : Option (Src × Src × Nat)) : List (Nat × Nat × Nat) :=
  let w := s.weft key
  ((x.vr.map fun r => (permLane r.2.2 w.width rd, r.1, r.2.1)) ++
    (match shfl with
     | some (a, j, ty) =>
       (match a with | .v n _ _ => [(s.shflLane key rd a j, n.val, if tyWidth ty = 64 then 2 else 1)] | _ => [])
     | none => [])).filter fun r => r.1 < w.width

/-- The p and t registers that a word reads for a lane, in which lanes (R208): t register n as number 8 + n. -/
def State.fileReads (s : State) (key rd : Nat) (x : Info) : List (Nat × Nat) :=
  let w := s.weft key
  ((x.pr ++ x.tr.map fun (r : Nat × Nat) => (8 + r.1, r.2)).map fun (r : Nat × Nat) => (permLane r.2 w.width rd, r.1)).filter fun r => r.1 < w.width

/-- The word reads a v or p register for a lane that is the destination of a pending request (R93, R208). -/
def State.readsV (s : State) (key rd : Nat) (x : Info) (shfl : Option (Src × Src × Nat)) : Bool :=
  ((s.vReads key rd x shfl).any fun r => s.vHeld key r.1 r.2.1 r.2.2) ||
  (s.fileReads key rd x).any fun r => r.2 < 8 && (s.pPending key r.1 r.2).isSome

/-- The word reads an s or z register that awaits a request (R93). -/
def State.readsOther (s : State) (key : Nat) (x : Info) : Bool :=
  (x.sr.any fun r => (List.range r.2).any fun i => (s.sPending key (r.1 + i)).isSome) ||
  x.zr.any fun n => (s.zPending key n).isSome

/-- A time register that a new request or a MOV may not yet take (R81). -/
def Lane.tBusy (x : Lane) (n : Nat) : Bool :=
  (look n x.treq).isSome && (tpending (x.treg n) || tstate (x.treg n) = stFault)

/-- The lane waits at issue under R47 or R81. -/
def State.waitsIssue (s : State) (key lane : Nat) (x : Info) : Bool :=
  let w := s.weft key
  (match x.tw with | some n => (w.lane lane).tBusy n | none => false) ||
  (match x.vd with | some d => s.vHeld key lane d.1 d.2 | none => false) ||
  (match x.sd with | some d => (List.range d.2).any fun i => (s.sPending key (d.1 + i)).isSome | none => false) ||
  (match x.zd with | some n => (s.zPending key n).isSome | none => false) ||
  (match x.pd with | some n => x.opc = 0xD1 && (s.pPending key lane n).isSome | none => false) ||
  (((0xA0 ≤ x.opc && x.opc < 0xD0) || x.opc = 0xD1) && Config.maxRequests ≤ s.outstanding (key / 64))

/-- The place of an access whose page is not known yet. -/
def unplaced (va : Nat) : Tgt := .fold 4 0 va

/-- The lane has an SO access that has not performed at its Home, or an access whose page, and so its kind, a fault
keeps unknown (R106). -/
def State.soPending (s : State) (key lane : Nat) : Bool :=
  s.reqs.any fun r => r.key = key && r.parts.any fun p => p.lane = lane &&
    (p.tgt.isSo || (r.op.isAccess && p.tgt = unplaced p.va && p.va / 2 ^ 48 ≠ 0xF)) &&
    !(r.satisfied || (r.op = .store && p.y = 0))

/-- The mark that a touch meets: which it is, and what it raises. -/
inductive Which
  | broken (n : Nat)
  | refused (n : Nat)
  | v (lane logical : Nat)
  | file (lane n : Nat)
  | scalar (n : Nat)
  | team (n : Nat)
  deriving DecidableEq, Repr

structure Touch where
  raise : Raise
  which : Which
  mark : Mark
  deriving DecidableEq, Repr

/-- Touches of marked registers (R93, R129, R135, R73, R75): the first mark that the word's effect in a lane
meets. Broken and refused registers are touched by their own lane; a register in ERROR by whichever lane reads it. -/
def State.touchOf (s : State) (key lane : Nat) (x : Info) (shfl : Option (Src × Src × Nat)) : Option Touch :=
  let w := s.weft key
  let ln := w.lane lane
  let mine := !x.uniform || lane = s.lead
  let files := if mine then s.fileReads key lane x else []
  let ts := (files.filterMap fun r => if r.1 = lane && 8 ≤ r.2 then some (r.2 - 8) else none) ++ x.tw.toList
  let reads := if mine then s.vReads key lane x shfl else []
  let meetsV := fun (j reg cnt : Nat) => reads.any fun r => r.1 = j && meets reg cnt ((w.lane j).wb + r.2.1) r.2.2
  let readsDst := fun (m : TMark) => match m.dst with
    | .v => meetsV lane m.reg m.cnt
    | .s n => x.sr.any fun r => meets n m.cnt r.1 r.2
    | .z n => x.zr.contains n
    | .p n => files.contains (lane, n)
    | .none => false
  let hit := fun (e : Nat × TMark) => ts.contains e.1 || readsDst e.2
  let timed := fun (f : Nat → Which) (e : Nat × TMark) =>
    (⟨⟨lane, e.2.cause, e.2.sub, e.2.addr⟩, f e.1, ⟨e.2.cause, e.2.sub, e.2.addr, 0⟩⟩ : Touch)
  let data := fun (f : Nat → Which) (e : Nat × Mark) => (⟨⟨lane, e.2.cause, e.2.sub, e.2.addr⟩, f e.1, e.2⟩ : Touch)
  let v := (reads.map (·.1)).flatMap fun j =>
    ((w.lane j).dstMarks.filter fun e => meetsV j e.1 1).map (data (.v j))
  let file := (files.map (·.1)).flatMap fun j =>
    ((w.lane j).fileMarks.filter fun e => files.contains (j, e.1)).map (data (.file j))
  let scalar := w.sMarks.filter fun e => (x.sr.any fun r => meets e.1 1 r.1 r.2) || x.zr.any fun n => e.1 = 128 + n
  let team := (s.teamOf key).gMarks.filter fun e => e.1 / 16 = key / 64 && x.gr.contains (e.1 % 16)
  (((ln.broken.filter hit).map (timed .broken) ++ (ln.refused.filter hit).map (timed .refused)) ++
    (v ++ file ++ scalar.map (data .scalar) ++ team.map (data .team))).head?

/-- The mark that a trap reports is cleared, with those that the same request left; a register in ERROR then holds an
undefined value until it is written (R93). -/
def State.clearTouch (s : State) (key : Nat) (t : Touch) : State :=
  let same := fun (e : Nat × Mark) => e.2 = t.mark && e.2.req ≠ 0
  let onLane := fun (l : Nat) (f : Lane → Lane) => s.mapWeft key fun w => w.setLane l (f (w.lane l))
  match t.which with
  | .broken n => onLane t.raise.lane fun x => { x with broken := del n x.broken }
  | .refused n => onLane t.raise.lane fun x => { x with refused := del n x.refused }
  | .v j reg => onLane j fun x =>
      let bad := (x.dstMarks.filter fun e => e.1 = reg || same e).map (·.1)
      { x with
        dstMarks := x.dstMarks.filter fun e => !bad.contains e.1,
        regs := bad.foldl (fun r L => put (L % (s.weft key).stk) (s.anyBits 32 (8 * (512 * j + L) + 1)) r) x.regs }
  | .file j n => onLane j fun x =>
      if n < 8 then { x with fileMarks := del n x.fileMarks, preds := setBit x.preds n (s.anyBool (8 * (512 * j + n) + 3)) }
      else { x with fileMarks := del n x.fileMarks, t := put (n - 8) (s.anyBits 32 (8 * (512 * j + n) + 3)) x.t }
  | .scalar n => s.mapWeft key fun w =>
      let bad := (w.sMarks.filter fun e => e.1 = n || same e).map (·.1)
      { w with
        sMarks := w.sMarks.filter fun e => !bad.contains e.1,
        s := (bad.filter (· < 128)).foldl (fun t n => put n (s.anyBits 64 (8 * n + 0)) t) w.s,
        z := (bad.filter (128 ≤ ·)).foldl (fun z n => setBit z (n - 128) (s.anyBool (8 * n + 0))) w.z }
  | .team n => s.mapTeam (s.weft key).team fun t =>
      { t with gMarks := del n t.gMarks, gcopy := put n (s.anyBits 64 (8 * n + 5)) t.gcopy }

/-- Registers of the predicate and the time file that a word writes lose their errors. -/
def State.overwritten (s : State) (key : Nat) (x : Info) (ls : List Nat) : State :=
  let lost := x.pd.toList ++ (x.tw.map (8 + ·)).toList
  if ls.any fun l => lost.any fun n => (look n ((s.weft key).lane l).fileMarks).isSome then
    s.mapWeft key fun w => w.eachLane ls fun _ ln => { ln with fileMarks := ln.fileMarks.filter fun e => !lost.contains e.1 }
  else s

/-- The touches of a word trap (R93, R170): in the lanes that raise the lowest touched lane's cause, or for a class-U
word in all; the marks reported are cleared as the trap is taken. -/
def State.touchTrap (s : State) (x : Info) (ts : List Touch) : State :=
  match ts with
  | [] => s
  | t :: _ =>
    let mine := ts.filter fun y => y.raise.cause = t.raise.cause
    let mask := if x.uniform then s.cur.lanes else maskOf (mine.map (·.raise.lane))
    if !(s.cw.hmode || s.cw.tbase = 0) && s.slideWaits s.key 32 (lanesOf mask) then s.turnAway
    else ((if x.uniform then [t] else mine).foldl (fun s t => s.clearTouch s.key t) s).enterTrap s.key t.raise.cause
      t.raise.sub mask t.raise.addr s.cur.va

/-- The weft took a trap. -/
def State.trapped (s : State) (t : State) : Bool :=
  ((t.weft s.key).hmode && !s.cw.hmode) || ((t.weft s.key).frozen && !s.cw.frozen)

/-- A word that lanes touch marks with (R170): what lower lanes raise at it comes first, for the lanes that touch
none. run is the word's meaning. -/
def State.touchedWord (s : State) (x : Info) (ts : List Touch) (run : State → Out) : Out :=
  let hit := maskOf (ts.map (·.raise.lane))
  let low := match ts with | t :: _ => t.raise.lane | [] => 0
  let below := maskOf (s.lanes.filter (· < low))
  let only := fun (m : LaneMask) => ({ s with cur := { s.cur with lanes := m } } : State)
  if x.uniform || below = 0 then .next (s.touchTrap x ts)
  else match run (only below) with
    | .next u => if s.trapped u then run (only (s.cur.lanes &&& ~~~hit)) else .next (s.touchTrap x ts)
    | _ => .next (s.touchTrap x ts)

/-! ### Stop sites (R177, R178) -/

/-- The index of the first record, from i on, whose offset is the one sought (R238). -/
def findSite (offset : Nat → Option Nat) (want : Nat) : Nat → Nat → Option Nat
  | 0, _ => none
  | n + 1, i =>
    match offset i with
    | some o => if o = want then some i else findSite offset want n (i + 1)
    | none => none

/-- A read of n bytes under a weft's ASID, none where it fails. -/
def State.readVa (s : State) (key va n : Nat) : Option Nat :=
  let g := { s.agent key 0 with priv := true }
  match s.check g (BitVec.ofNat 64 va) 1 n .read with
  | .ok (.mem pa _) _ | .ok (.peer pa _) _ => some (leNat (s.homeBytes g.asid pa n))
  | _ => none

/-- The ordinal of a stop site, by the safe-point table of the grid (R238): 0xFFFF_FFFF without a table,
without a record, or when a read fails. -/
def State.ordinalOf (s : State) (key : Nat) (pc : Word) : Nat :=
  let gr := s.gridOf key
  if gr.sptva = 0 then 0xFFFFFFFF
  else
    match s.readVa key gr.sptva 8, s.readVa key (gr.sptva + 8) 8 with
    | some n, some text =>
      (findSite (fun i => s.readVa key (gr.sptva + 16 + 40 * i + 8) 8)
        ((pc - BitVec.ofNat 64 text).toNat) n 0).getD 0xFFFFFFFF
    | _, _ => 0xFFFFFFFF

/-- TCTL.PHSTEP of some weft of the team stops every weft of it at its next BAR (R178). -/
def State.phased (s : State) (team : Nat) : Bool := (s.team team).wefts.any fun k => (s.weft k).phstep

/-- A pending stop holds the lane at the stop site (R177): a halt, a pre-emption or a matching
breakpoint; a BAR under PHSTEP. A weft in handler mode stops only after its TRET. -/
def State.stopsAt (s : State) (key lane : Nat) (pc : Word) (x : Info) : Bool :=
  let w := s.weft key
  let st := (s.teamOf key).stop
  x.ctl.s && !w.hmode &&
  ((x.opc = 0xB1 && s.phased w.team && !w.phgo.getLsbD lane) || st.preempt || st.halt ||
   (match st.ordinal with | some o => s.ordinalOf key pc = o | none => false))

/-! ### The issue decision (R161) -/

/-- Members of the chain at a VA: what each reads and writes, in order; empty where the first word
cannot be decoded. -/
def State.chain (s : State) (key : Nat) : Nat → Nat → List (Info × Instr)
  | 0, _ => []
  | fuel + 1, va =>
    match (s.wordAt key va).2 with
    | .ok (i, n) =>
      (match i.raw with
       | some r => (rawInfo r, i) :: (if r.h then s.chain key fuel (va + n) else [])
       | none => [])
    | .error _ => []

def shflOf : Instr → Option (Src × Src × Nat)
  | .shfl w => some (w.a, w.b, w.ty.toNat)
  | _ => none

/-- Has the lane's wait ended (R94, R160, R253)? -/
def Lane.waitOver (x : Lane) (cyc : Nat) : Bool :=
  match x.wait with
  | .none => true
  | .sleepUntil c => c ≤ cyc
  | .treg n late => if late then tstate (x.treg n) != stLate
                    else !(tstate (x.treg n) = stBooked || tstate (x.treg n) = stOpen)
  | .park (some n) | .parkPool n => tstate (x.treg n) != stFault
  | .park none => false
  | .dst => true
  | .meeting => true
  | .mask _ => false
  | .barrier => false
  | .issue => true

/-- Lanes that no wait, trap or exit holds (R160), meetings aside. -/
def Lane.free (x : Lane) (cyc : Nat) : Bool := x.started && !x.exited && !x.susp && x.waitOver cyc

/-- The lane's next word or chain reads, for the lane itself as its reader, a v or p register that is pending (R93,
R211). -/
def State.readerHeld (s : State) (key lane : Nat) (uniform : Bool) : Bool :=
  (s.chain key 8 ((s.weft key).lane lane).pc.toNat).any fun m =>
    m.1.uniform = uniform && s.readsV key lane m.1 (shflOf m.2)

/-- The lane's next word or chain reads data that is pending (R93, R211). A class-U word reads the per-lane registers
of its lowest issuing lane alone (R208): a higher lane at the same PC does not wait for its own. -/
def State.dstHeld (s : State) (key lane : Nat) : Bool :=
  let w := s.weft key
  let x := w.lane lane
  (s.chain key 8 x.pc.toNat).any (fun m => s.readsOther key m.1) ||
  s.readerHeld key lane false ||
  (s.readerHeld key lane true &&
    !((List.range lane).any fun m => (w.lane m).pc = x.pc && (w.lane m).free (s.core (key / 64)).cyc &&
      !s.readerHeld key m false && !s.readerHeld key m true))

/-- R160: the lane waits at its meeting address for another runnable lane with the same MEET. -/
def State.meetingHeld (s : State) (key lane : Nat) : Bool :=
  let w := s.weft key
  let x := w.lane lane
  x.meet ≠ 0 && x.pc = x.meet &&
  (List.range w.width).any fun m => m ≠ lane &&
    (let y := w.lane m
     y.free (s.core (key / 64)).cyc && y.meet = x.meet && y.pc ≠ x.pc && !s.dstHeld key m)

/-- A lane that a decision may issue: runnable, not at a stop it must take, not waiting for data, and
not waiting at issue (R161). -/
def State.issuable (s : State) (key lane : Nat) : Bool :=
  let w := s.weft key
  let x := w.lane lane
  let cyc := (s.core (key / 64)).cyc
  x.free cyc && !s.meetingHeld key lane &&
  (let ms := s.chain key 8 x.pc.toNat
   (match ms with | (i, _) :: _ => !s.stopsAt key lane x.pc i | [] => true) &&
   !s.dstHeld key lane && ms.all fun m => !s.waitsIssue key lane m.1)

/-- The issuable lanes of a weft; those that the last decision turned away only where there are no others. A frozen or
held weft has none (R170, R314), nor has the weft of a team that is stopped, halted, saved or retired (R178, R179,
R185). -/
def State.issuables (s : State) (key : Nat) : List Nat :=
  let w := s.weft key
  let life := (s.teamOf key).life
  if w.live && !w.frozen && w.hold = .none && (life = .running || life = .stopping) then
    let ls := (List.range w.width).filter fun l => s.issuable key l
    let fresh := ls.filter fun l => (w.lane l).wait ≠ .issue
    if fresh.isEmpty then ls else fresh
  else []

/-- The weft of a quarter with an issuable lane, least recently chosen, the lowest slot where two were
last chosen at the same time or never (R161; assumption 78). -/
def State.chooseWeft (s : State) (core quarter : Nat) : Option Nat :=
  ((List.range 16).map fun i => 64 * core + 16 * quarter + i).foldl (fun best k =>
    if (s.issuables k).isEmpty then best
    else match best with
      | none => some k
      | some b => if (s.weft k).chosen < (s.weft b).chosen then some k else best) none

/-- The PC of the decision: that of the oldest lane once an AGE reaches 511, else the least (R161). -/
def choosePc (w : Weft) (r : List Nat) : Word :=
  match r with
  | [] => 0
  | l :: ls =>
    let old := ls.foldl (fun b m => if (w.lane b).age < (w.lane m).age then m else b) l
    if 511 ≤ (w.lane old).age then (w.lane old).pc
    else ls.foldl (fun p m => if (w.lane m).pc < p then (w.lane m).pc else p) (w.lane l).pc

/-- Some request of the core is due for its LATE transition (R80). -/
def State.expiryDue (s : State) (core : Nat) : Bool :=
  s.reqs.any fun r => r.agent.core = core && r.promise ≠ 0 && !r.late && r.promise < (s.core core).cyc

/-- One decision of a quarter (R161): the waits that are over end, AGE counts, MEET clears where it is
reached, latches empty, and the chain at the chosen PC is issued by the next step. -/
def State.decide (s : State) (core quarter : Nat) : State :=
  if s.expiryDue core then s
  else match s.chooseWeft core quarter with
  | none => s
  | some k =>
    let r := s.issuables k
    let w := s.weft k
    let cyc := (s.core core).cyc
    let settled := w.eachLane (List.range w.width) fun l x =>
      if !x.free cyc then x
      else if s.meetingHeld k l then { x with wait := .meeting }
      else if s.dstHeld k l then { x with wait := .dst }
      else if x.wait = .issue then { x with wait := .none }
      else if x.wait ≠ .none then { x with wait := .none, age := 0, meet := if x.wait = .meeting then 0 else x.meet }
      else x
    let pc := choosePc settled r
    let ls := r.filter fun l => (settled.lane l).pc = pc
    let chosen := { settled.eachLane r (fun l x =>
        if ls.contains l then
          { x with age := 0, lat := [], meet := if x.meet = x.pc then 0 else x.meet }
        else { x with age := x.age + 1, lat := [] }) with
      chosen := s.fresh + 1 }
    { s.setWeft k chosen with
      issuing := true,
      cur := { core := core, slot := k % 64, lanes := maskOf ls, va := pc, len := 8, pos := 0,
               before := r.map fun l => (l, (settled.lane l).age, (settled.lane l).meet), was := w.chosen } }

/-! ### From a decision to a word -/

/-- What the step does next for the decision: nothing more this step, execute a word, or a word that lanes touch
marked registers with. -/
inductive Next
  | done (s : State)
  | run (i : Instr) (s : State)
  | touched (i : Instr) (x : Info) (ts : List Touch) (s : State)

/-- Causes and SUB of a reject (R202). -/
def rejectCause : Reject → Nat × Nat
  | .illop => (0x01, 0)
  | .illfld b => (0x02, b)
  | .illlen n => (0x03, n)
  | .align => (0x05, 4)

/-- Words that need privilege, and those that need handler mode (R254, R314): their PRIV trap is raised at decode,
before any touch (R202). -/
def privOpcs : List Nat := [0xDB, 0xDC, 0xE3, 0xE4, 0xE5, 0xE9]
def handlerOpcs : List Nat := [0x14, 0xE6, 0xE7]

/-- A later member of a chain breaks the rules of the S or the H bit (R202, R211): the lowest bit broken. -/
def memberBroken (r : Raw) : Option Nat :=
  if r.s then some 2 else if !chainable r.opc.toNat r.dst then some 3 else none

/-- The ILLFLD of a member of a chain: its own rules and those of a member, the lowest bit of either. -/
def State.fieldBroken (s : State) (bs : List Byte) (e : Except Reject (Instr × Nat)) : Except Reject (Instr × Nat) :=
  let own := if s.cur.pos = 0 then none else memberBroken (Raw.ofBits (BitVec.ofNat 128 (leNat bs)))
  match e, own with
  | .ok x, none => .ok x
  | .ok _, some b => .error (.illfld b)
  | .error (.illfld a), some b => .error (.illfld (min a b))
  | .error r, _ => .error r

/-- Fetch, decode and the checks before issue, for the word at cur.va (R202, R211, R93). A recoverable
fault of the fetch parks the lanes (R28). -/
def State.nextWord (s : State) : Next :=
  let va := s.cur.va.toNat
  if 2 ^ 52 ≤ va then .done (s.raiseAt 0x06 0)
  else
    match s.wordAt s.key va with
    | (.wait, _) => .done s.turnAway
    | (.recov, _) =>
      .done ((s.parkLanes 2 0xFF (s.lanes.map fun l => (l, va))).endDecision)
    | (.trap c sub, _) => .done (s.raiseAt c sub)
    | (.bytes bs pa w, e) =>
      match s.fieldBroken bs e with
      | .error e => .done ((s.keepFetch s.key pa w).raiseAt (rejectCause e).1 (rejectCause e).2)
      | .ok (i, n) =>
        let s := { s.keepFetch s.key pa w with cur := { s.cur with len := n } }
        match i.raw with
        | none => .done s.endDecision
        | some r =>
          let x := rawInfo r
          let ls := x.effect s.cw s.lanes
          let barred := (privOpcs.contains x.opc && !s.privOf s.key) || (handlerOpcs.contains x.opc && !s.cw.hmode)
          match if barred then [] else ls.filterMap fun l => s.touchOf s.key l x (shflOf i) with
          | [] => .run i (s.overwritten s.key x ls)
          | t :: ts => .touched i x (t :: ts) s

/-- After a word: the chain goes on while H is set, up to eight members (R211). A word that trapped or
did not issue has ended the decision. -/
def State.afterWord (s : State) (i : Instr) : State :=
  if !s.issuing then s
  else
    let h := match i.raw with | some r => r.h | none => false
    if h && s.cur.pos < 7 then
      { s with cur := { s.cur with va := s.cur.va + BitVec.ofNat 64 s.cur.len, pos := s.cur.pos + 1 } }
    else { s with issuing := false }

/-! ### The clock (R77, R262) -/

/-- A put's target core, where it is of this device (R122). -/
def State.putCore (s : State) (t : Nat) : Option Nat :=
  if bits t 0 6 = s.devnum then some (coreOf (bits t 16 2) (bits t 13 3) (bits t 9 4)) else none

/-- Cycles from issue to the ring port or the collector that a request travels to on an idle device (R95). -/
def State.arrival (s : State) (r : Req) : Option Nat :=
  match r.op with
  | .rput t => (s.putCore t).map fun c => Config.answerFigure 2 (distance r.agent.core c)
  | .fld k _ _ _ => some (if k / 64 = dieOf r.agent.core then 30 else 85)
  | _ => none

/-- A put or a fold request has had the time to come to its port or collector (R95). -/
def State.mayReach (s : State) (r : Req) : Bool :=
  match s.arrival r with | some n => r.issued + n ≤ (s.core r.agent.core).cyc | none => true

/-- On a device that serves nothing else, a probe is booked in time for its idle answer, and a put or a fold request
reaches its port or collector in its cycle (R95, R365). -/
def State.probeDue (s : State) (r : Req) (cyc : Nat) : Bool :=
  r.phase = .probe && s.idle r &&
  (match s.arrival r with
   | some n => r.issued + n ≤ cyc
   | none =>
     r.issued + 30 ≤ cyc &&
     (match r.op with | .load _ | .ldtag | .atom _ | .cas | .pref | .lck _ => true | _ => false) &&
     (match r.parts with
      | p :: _ => (match p.tgt with
        | .spad _ _ => true
        | .mem pa _ | .cell pa _ => !isHost pa && !(isHbm pa && (s.stack (hbmStack pa)).retraining)
        | _ => false)
      | [] => false))

/-- A take of a core's ring may perform: a slot is filled, its elder takes and its lane's acquires are done (R131). -/
def State.mayTake (s : State) (r : Req) (n : Nat) : Bool :=
  (s.ring r.agent.core n).filled ≠ 0 && !(r.parts.any fun p => s.acquirePending r.key p.lane r.id) &&
  s.reqs.all fun q => !(q.agent.core = r.agent.core && q.op = .rtake n && q.id < r.id && !q.satisfied)

/-- A take that may perform does so in this cycle (R95). -/
def State.takeDue (s : State) (core : Nat) : Bool :=
  s.reqs.any fun r => r.agent.core = core && r.phase = .probe && !r.satisfied &&
    (match r.op with | .rtake n => s.mayTake r n | _ => false)

/-- A core's clock does not pass a booked cycle with the data unlanded unless a cause of R89 delays it
(R80, R87), nor a transition, an awakening or a timer that is due. -/
def State.clockHeld (s : State) (core : Nat) : Bool :=
  let cyc := (s.core core).cyc
  s.expiryDue core || s.takeDue core ||
  (s.reqs.any fun r => r.agent.core = core &&
    (s.probeDue r cyc || (r.phase = .booked && r.slot ≤ cyc && (r.cause = 0 || r.cause = 5)) ||
     (r.phase = .answered &&
       (r.slot ≤ cyc + 1 || (s.idle r && r.issued + Config.answerFigure r.level r.dist ≤ cyc))))) ||
  ((s.wefts.filter fun w => w.1 / 64 = core).any fun w => w.2.lanes.any fun l =>
    match l.2.wait with | .sleepUntil c => c ≤ cyc | _ => false) ||
  ((s.core core).loomRun.isSome && (s.core core).loomEnd ≤ cyc) ||
  ((s.core core).decls.any fun d => (!d.started && d.start ≤ cyc) || (d.started && d.start + 2 ^ d.len ≤ cyc))

/-- One cycle of a core's clock, or of the hub's timer (assumption 26). -/
def State.tick (s : State) (core : Nat) : State :=
  if Config.cores ≤ core then { s with hub := { s.hub with clk := s.hub.clk + 1 } }
  else if s.clockHeld core then s
  else s.mapCore core fun c => { c with cyc := c.cyc + 1 }

/-- Who moves next: the oldest move of the agenda, or a free one (assumption 1). -/
def State.nextMove (s : State) : Move × State :=
  match s.agenda with
  | m :: ms => (m, { s with agenda := ms })
  | [] => (Config.freeMove s.fresh, s)

/-- Each step has free values of its own (assumption 4). -/
def State.countStep (s : State) : State := { s with fresh := s.fresh + 1 }

/-! ### A program is loaded from outside the device (assumption 13) -/

/-- VA of the first instruction of a loaded program, the PA of its page, and the table nodes behind it,
all at the foot of the LPDDR space (R10). -/
def loadVa : Nat := 0x40000
def loadBase : Nat := 0x010000000000

/-- An address space of one 16 GiB page: node of level 4, node of level 3, its leaf (R21 to R25). -/
def loadTables (s : State) : State :=
  let b := loadBase
  let s := s.wr (b + 0x1010) (leBytes 16 (b + 0x2001))
  let s := s.wr (b + 0x2000) (leBytes 8 (b + 0xF831))
  s.wr (b + 0x3000) (leBytes 8 (b + 0x8071))

/-- A live weft of a team on core 0, its lane 0 at the VA, and its issue decision made. -/
def State.placeWord (s : State) (bs : List Byte) : State :=
  let s := (loadTables s).wr (loadBase + loadVa) bs
  let gr : Grid := { (default : Grid) with handle := 1, ctx := 1, priv := true, stksize := 4096, cores := 1, wpc := 1, width := 32, stk := 256 }
  let tm : Team := { grid := 1, cores := [0], bases := [0], wefts := [0], wpc := 1, stk := 256, spad := 65536, life := .running }
  let w : Weft := { live := true, team := 1, stk := 256,
                    lanes := [(0, { started := true, pc := BitVec.ofNat 64 loadVa })] }
  let cx : Ctx := { valid := true, asid := 1, privOk := true }
  let s := (((s.setGrid 1 gr).setTeam 1 tm).setCtx 1 cx).setWeft 0 w
  let s := s.mapCore 0 fun c => { c with icache := [], tlb := [], walkc := [] }
  { s with
    bumps := [], issuing := true,
    cur := { core := 0, slot := 0, lanes := 1, va := BitVec.ofNat 64 loadVa, len := 8, pos := 0 },
    hub := { s.hub with mgmt := put 0x08 (BitVec.ofNat 64 (loadBase + 0x1000)) s.hub.mgmt } }

end Sys2Proof.Machine
end

