-- ==== Sys2Proof/Machine/Control.lean ====
section
/-!
DEFINITION. The control instructions (OPC 00 to 15): branches, the register window, reconvergence and
masks, exit, waits, traps and return (R242 to R254).
-/
namespace Sys2Proof.Machine

/-! ### Shared -/

/-- The VA of the next word. -/
def State.nextVa (s : State) : Word := s.cur.va + BitVec.ofNat 64 s.cur.len

/-- VA + 4 × OFFSET (R242). -/
def State.target (s : State) (off : BitVec 32) : Word := s.cur.va + off.signExtend 64 * 4

/-- A 64-bit source in a lane: an s register or a v pair (R243). -/
def State.jumpSource (s : State) (a : Src) (lane : Nat) : Word := BitVec.ofNat 64 (s.val lane a 16)

/-- The check of a target (R242). -/
def targetRaise (lane : Nat) (t : Word) : Option Raise :=
  if 2 ^ 52 ≤ t.toNat then some ⟨lane, 0x06, 0, t⟩
  else if t.toNat % 4 ≠ 0 then some ⟨lane, 0x05, 4, t⟩
  else none

/-- Apply f to each lane of a list of the issuing weft, the other issuing lanes going on to the next
word. -/
def State.passThen (s : State) (ls : List Nat) (f : Weft → Nat → Lane → Lane) : State :=
  s.advance.mapWeft s.key fun w => w.eachLane ls (f w)

/-- Lanes branch, each to its own target, under R242. -/
def State.branch (s : State) (ls : List Nat) (t : Nat → Word) : State :=
  match ls.filterMap fun l => targetRaise l (t l) with
  | [] => s.passThen ls fun _ l x => { x with pc := t l }
  | r :: rs => s.raise (r :: rs)

/-- A count: an immediate, an s or a v register read as unsigned 64 bits (R249, R253). -/
def State.count (s : State) (a : Src) (lane : Nat) : Nat := s.full lane a 5

/-- Write an s register; it awaits nothing any more (R93). -/
def Weft.writeS (w : Weft) (n : Nat) (y : Word) : Weft := { w.setS n y with sMarks := del n w.sMarks }

/-! ### No operation, branches (R203, R244, R245) -/

def execNop (_ : CtlW) (s : State) : Out := .next s.advance
def execNop96 (_ : CtlW) (s : State) : Out := .next s.advance
def execNop128 (_ : CtlW) (s : State) : Out := .next s.advance

def execBra (w : CtlW) (s : State) : Out := .next (s.branch (s.active w.ctl) fun _ => s.target w.off)

def execJmp (w : CtlW) (s : State) : Out := .next (s.branch (s.active w.ctl) (s.jumpSource w.a))

def execBrt (w : CtlW) (s : State) : Out :=
  let cyc := (s.core s.cur.core).cyc
  let far := s.count w.b s.lead
  .next (s.branch ((s.active w.ctl).filter fun l =>
    brtCond w.ty.toNat ((s.cw.lane l).treg w.a.num) cyc far) fun _ => s.target w.off)

/-- bdec of R244. -/
def execBdec (w : CtlW) (s : State) : Out :=
  let n := w.dst.num
  let y := s.cw.sreg n - 1
  let t := s.target w.off
  .next <|
    if !ctlHoldsU w.ctl s.cw then s.advance
    else if y = 0 then s.advance.mapWeft s.key fun x => x.writeS n y
    else
      match targetRaise s.lead t with
      | some r => s.raiseU r.cause r.sub r.addr
      | none => (s.passThen s.lanes fun _ _ x => { x with pc := t }).mapWeft s.key fun x => x.writeS n y

/-! ### Calls (R248) -/

/-- The link: v30 and v31 of the callee. -/
def linkLo (ret : Word) : W32 := ret.extractLsb' 0 32
def linkHi (n : Nat) (ret : Word) : W32 := BitVec.ofNat 32 (n * 2 ^ 24 + bits ret.toNat 32 20)

/-- A lane after its call: window up, link written, at the target. -/
def State.calledLane (s : State) (n : Nat) (t : Word) (stk lane : Nat) (x : Lane) : Lane :=
  { ((s.slidUp lane stk n x).setV stk 30 (linkLo s.nextVa)).setV stk 31 (linkHi n s.nextVa) with pc := t }

/-- CALL and CALLI in lanes: the target is checked, the window slid, the link written. A spill of a
register that still awaits data waits (R246). -/
def State.callTo (s : State) (n : Nat) (ls : List Nat) (t : Nat → Word) : State :=
  match ls.filterMap fun l => targetRaise l (t l) with
  | r :: rs => s.raise (r :: rs)
  | [] =>
    if s.slideWaits s.key n ls then s.turnAway
    else
      match s.spillAll s.key n s.cur.va ls with
      | (s1, []) => s1.passThen ls fun w l x => s.calledLane n (t l) w.stk l x
      | (s1, r :: rs) => s1.raise (r :: rs)

def execCall (w : CtlW) (s : State) : Out :=
  .next (s.callTo w.ty.toNat (s.active w.ctl) fun _ => s.target w.off)

def execCalli (w : CtlW) (s : State) : Out :=
  .next (s.callTo w.ty.toNat (s.active w.ctl) (s.jumpSource w.a))

/-- N and the return VA of a link, and whether the link is a legal one (R248). -/
def linkRot (hi : W32) : Nat := (hi.extractLsb' 24 5).toNat
def linkVa (lo hi : W32) : Word := (0#12 ++ hi.extractLsb' 0 20) ++ lo
def linkOk (hi : W32) : Bool :=
  hi.extractLsb' 29 3 = 0 && hi.extractLsb' 20 4 = 0 && (linkRot hi = 8 || linkRot hi = 16 || linkRot hi = 24)

/-- What RET raises in a lane: the slide first, then the check of its return VA (R246, R247, R248). -/
def State.retRaise (s : State) (lane : Nat) : Option Raise :=
  let w := s.cw
  let x := w.lane lane
  let hi := x.v w.stk 31
  let n := linkRot hi
  if !linkOk hi || x.wb < n then some ⟨lane, 0x0B, 0, s.cur.va⟩
  else
    match s.fillFault s.key lane (span (x.wb - n) x.lo) with
    | some r => some r
    | none => targetRaise lane (linkVa (x.v w.stk 30) hi)

/-- A lane after its return, the fills apart. -/
def returnedLane (stk : Nat) (x : Lane) : Lane :=
  let n := linkRot (x.v stk 31)
  { x with wb := x.wb - n, lo := min x.lo (x.wb - n), pc := linkVa (x.v stk 30) (x.v stk 31) }

/-- The registers that a lane's return fills. -/
def State.retFills (s : State) (lane : Nat) : List Nat :=
  let w := s.cw
  let x := w.lane lane
  span (x.wb - linkRot (x.v w.stk 31)) x.lo

def execRet (w : CtlW) (s : State) : Out :=
  let ls := s.active w.ctl
  match ls.filterMap s.retRaise with
  | r :: rs => .next (s.raise (r :: rs))
  | [] =>
    if !s.roomFor s.cur.core (ls.map fun l => (s.retFills l).length).sum then .next s.turnAway
    else .next (ls.foldl (fun t l => t.fillRegs s.key l (s.retFills l))
      (s.passThen ls fun w _ x => returnedLane w.stk x))

/-! ### The window without moving it (R249) -/

def execFrame (w : CtlW) (s : State) : Out :=
  let room := (s.gridOf s.key).stksize / 4
  let f : Lane → Nat := fun x =>
    if w.ty = 0 then x.wb else if w.ty = 1 then x.wb - x.lo else room - x.wb - 32
  .next (s.passThen (s.active w.ctl) fun z _ x => writeV z.stk w.dst.num 5 (f x) x)

/-- Registers that SPILL writes in a lane: the oldest below the window. -/
def State.spillList (s : State) (a : Src) (lane : Nat) : List Nat :=
  let x := s.cw.lane lane
  span x.lo (x.lo + min (s.count a lane) (x.wb - x.lo))

/-- Spill a list in each lane; the first failure of each lane. -/
def State.spillLists (s : State) (f : Nat → List Nat) : List Nat → State × List Raise
  | [] => (s, [])
  | l :: ls =>
    match s.spillRegs s.key l (f l) with
    | (s1, none) => s1.spillLists f ls
    | (s1, some r) => let (s2, rs) := s1.spillLists f ls; (s2, r :: rs)

def execSpill (w : CtlW) (s : State) : Out :=
  let ls := s.active w.ctl
  if (ls.any fun l => (s.spillList w.a l).any fun L => (s.vPending s.key l L).isSome) ||
      !s.roomFor s.cur.core (ls.map fun l => (s.spillList w.a l).length).sum then .next s.turnAway
  else
    match s.spillLists (s.spillList w.a) ls with
    | (s1, []) => .next (s1.passThen ls fun _ l x => { x with lo := x.lo + (s.spillList w.a l).length })
    | (s1, r :: rs) => .next (s1.raise (r :: rs))

/-- Registers that FILL reads in a lane: those below LO, nearest first. -/
def State.fillList (s : State) (a : Src) (lane : Nat) : List Nat :=
  let x := s.cw.lane lane
  let m := min (s.count a lane) (min x.lo ((s.cw.stk - 32) - (x.wb - x.lo)))
  (span (x.lo - m) x.lo).reverse

def execFill (w : CtlW) (s : State) : Out :=
  let ls := s.active w.ctl
  match ls.filterMap fun l => s.fillFault s.key l (s.fillList w.a l) with
  | r :: rs => .next (s.raise (r :: rs))
  | [] =>
    if !s.roomFor s.cur.core (ls.map fun l => (s.fillList w.a l).length).sum then .next s.turnAway
    else .next (ls.foldl (fun t l => t.fillRegs s.key l (s.fillList w.a l))
      (s.passThen ls fun _ l x => { x with lo := x.lo - (s.fillList w.a l).length }))

/-! ### Reconvergence and masks (R250, R251) -/

/-- The old MEET goes to the pair that DST names, the new one takes its place. -/
def meetLane (stk : Nat) (dst : Dst) (t : Word) (x : Lane) : Lane :=
  match dst with
  | .v n => { writeV stk n 16 x.meet.toNat x with meet := t }
  | _ => { x with meet := t }

def execMeet (w : CtlW) (s : State) : Out :=
  .next (s.passThen (s.active w.ctl) fun z _ x => meetLane z.stk w.dst (s.target w.off) x)

def execMeetReg (w : CtlW) (s : State) : Out :=
  .next (s.passThen (s.active w.ctl) fun z l x => meetLane z.stk w.dst (s.jumpSource w.a l) x)

def execJoin (w : CtlW) (s : State) : Out :=
  let k := w.a.num
  let m := maskOf (s.active w.ctl)
  .next (s.advance.mapWeft s.key fun z => ({ z with kMem := put k (z.kmem k ||| m) z.kMem }).testMask k)

def execLeave (w : CtlW) (s : State) : Out :=
  .next (s.advance.mapWeft s.key fun z => z.leaveMask w.a.num (maskOf (s.active w.ctl)))

def execWaitm (w : CtlW) (s : State) : Out :=
  let k := w.a.num
  let ls := (s.active w.ctl).filter fun l => (s.cw.kmem k).getLsbD l
  .next ((s.passThen ls fun _ _ x => { x with wait := .mask k }).mapWeft s.key fun z =>
    ({ z with kArr := put k (z.karr k ||| maskOf ls) z.kArr }).testMask k)

/-! ### Exit, yields and waits (R252, R253, R94) -/

/-- Lanes of the issuing weft exit. -/
def State.exitLanes (s : State) (ls : List Nat) : State :=
  ((s.passThen ls fun _ _ x => { x with exited := true, wait := .none }).mapWeft s.key fun z =>
    z.leaveMasks (maskOf ls)).testBarrier s.cw.team

def execExit (w : CtlW) (s : State) : Out :=
  let ls := s.active w.ctl
  .next <|
    if ls.isEmpty then s.advance
    else if s.cw.hmode then s.raise (ls.map fun l => ⟨l, 0x04, 0, s.cur.va⟩)
    else s.exitLanes ls

def execYield (w : CtlW) (s : State) : Out :=
  let ls := s.active w.ctl
  let n := min (s.count w.a s.lead) 65535
  let cyc := (s.core s.cur.core).cyc
  .next <|
    if ls.isEmpty then s.advance
    else if n = 0 then s.advance.mapWeft s.key fun z => { z with chosen := s.fresh + 1 }
    else s.passThen ls fun _ _ x => { x with wait := .sleepUntil (cyc + n) }

/-- YIELDT in a lane (R94): satisfied, asleep or parked. A sleeper stays at the instruction and takes it
again when it wakes; an image with no request is satisfied at once (R82). -/
def yieldtLane (va next : Word) (n : Nat) (x : Lane) : Lane :=
  let st := tstate (x.treg n)
  if (look n x.treq).isNone then { x with pc := next }
  else if st = stBooked ∨ st = stOpen then { x with pc := va, wait := .treg n false }
  else if st = stLate then { x with pc := va, wait := .treg n true }
  else if st = stFault then { x with pc := va, wait := .park (some n) }
  else { x with pc := next }

def execYieldt (w : CtlW) (s : State) : Out :=
  .next (s.passThen (s.active w.ctl) fun _ _ x => yieldtLane s.cur.va s.nextVa w.a.num x)

/-- TWAIT in a lane (R94): it stays in the issue pool, at the instruction, while the request is pending. -/
def twaitLane (va next : Word) (n : Nat) (x : Lane) : Lane :=
  if (look n x.treq).isNone then { x with pc := next }
  else if tpending (x.treg n) then { x with pc := va }
  else if tstate (x.treg n) = stFault then { x with pc := va, wait := .parkPool n }
  else { x with pc := next }

def execTwait (w : CtlW) (s : State) : Out :=
  .next (s.passThen (s.active w.ctl) fun _ _ x => twaitLane s.cur.va s.nextVa w.a.num x)

/-! ### Traps and return (R254, R171) -/

/-- Lanes raise one cause with one detail. -/
def State.raiseIn (s : State) (ls : List Nat) (cause : Nat) (addr : Word) : State :=
  if ls.isEmpty then s.advance else s.raise (ls.map fun l => ⟨l, cause, 0, addr⟩)

def execBrk (w : CtlW) (s : State) : Out :=
  .next (s.raiseIn (s.active w.ctl) 0x10 (BitVec.ofNat 64 (s.ordinalOf s.key s.cur.va)))

def execTrap (w : CtlW) (s : State) : Out :=
  .next (s.raiseIn (s.active w.ctl) 0x0F (BitVec.ofNat 64 (s.val s.lead w.a 16)))

def execTret (_ : CtlW) (s : State) : Out := .next s.trapReturn

end Sys2Proof.Machine
end

