-- ==== Sys2Proof/Machine/Special.lean ====
section
/-!
DEFINITION. Control registers (R261 to R264) and the ring registers behind the control window (R18,
R127, R128): their images, the checks of a write, and the writes that take effect at once.
-/
namespace Sys2Proof.Machine

/-! ### Rings -/

/-- The image of ring register j (R127). -/
def Ring.reg (r : Ring) (j : Nat) : Nat :=
  match j with
  | 0 => r.base
  | 1 => r.count * 16 + r.log2
  | 2 => r.takeIdx * 2 ^ 32 + r.filled
  | 3 => r.putIdx * 2 ^ 32 + r.free
  | 4 => r.acl.toNat
  | _ => r.drops * 2 ^ 32 + r.fail.toNat

/-- The control-window VA of a ring register, which a refused write reports. -/
def ringVa (n j : Nat) : Nat := 0xF400000012000 + 0x30 * n + 8 * j

/-- The team may write the ring: it owns it, or none does and the team's allocation on the core holds BASE: that offset
lies in it (R128, R132; assumption 14). -/
def State.ringOpen (s : State) (team core n : Nat) : Bool :=
  (s.team team).cores.contains core &&
  match (s.ring core n).owner with
  | some t => t = team
  | none => (s.ring core n).base < (s.team team).spad

/-- Base, count and log2 that a write of BASE or SHAPE leaves. -/
def Ring.shaped (r : Ring) (j val : Nat) : Nat × Nat × Nat :=
  if j = 0 then (val % 2 ^ 21, r.count, r.log2) else (r.base, bits val 4 16, val % 16)

/-- What a write of a ring register traps with (R18, R127, R128). -/
def State.ringCheck (s : State) (team core n j val : Nat) : Option (Nat × Nat) :=
  let (base, count, lg) := (s.ring core n).shaped j val
  if j = 2 ∨ j = 3 then some (0x06, 1)
  else if !s.ringOpen team core n then some (0x06, 1)
  else if (j = 0 && 2 ^ 21 ≤ val) || (j = 1 && 2 ^ 20 ≤ val) || (j = 4 && 16 ≤ val) ||
      (j = 5 && bits val 1 31 ≠ 0) then some (0x02, 48)
  else if j = 1 && count ≠ 0 && (lg < 5 || 9 < lg) then some (0x02, 48)
  else if j ≤ 1 && count ≠ 0 && (base % 2 ^ lg ≠ 0 || (s.team team).spad < base + count * 2 ^ lg) then
    some (0x06, 1)
  else none

/-! ### Images -/

/-- FOLD.T (R139). -/
def State.foldT (s : State) (key : Nat) : Nat :=
  let sel := (s.weft key).foldSel.toNat
  let f := s.fold (64 * dieOf (key / 64) + sel)
  sel * 2 ^ 32 +
    (if f.bound && f.tenant = (s.gridOf key).tenant then f.straggle * 2 ^ 48 + f.timer else 0)

/-- Width code (R150). -/
def wcode (width : Nat) : Nat := if width = 32 then 0 else if width = 64 then 1 else 2

/-- TSTAT and TCTL (R168). -/
def Weft.tstat (w : Weft) : Nat :=
  w.ncause.toNat * 256 + 8 * w.frozen.toNat + 4 * w.prevPriv.toNat + 2 * w.haltPend.toNat + w.hmode.toNat
def Weft.tctl (w : Weft) : Nat := 4 * w.phstep.toNat + 2 * w.rfp.toNat + w.bpt.toNat

/-- Lines that a context has pinned in a core's L1 (R72). -/
def Core.pinned (c : Core) (ctx : Nat) : Nat := (c.pins.filter fun p => p.ctx = ctx).length

/-- The image of a control register (R261). -/
def State.ctrlReg (s : State) (key n : Nat) : Nat :=
  let core := key / 64
  let c := s.core core
  let w := s.weft key
  let g := s.gridOf key
  let x := s.ctx g.ctx
  let b := s.block core g.ctx
  if n = 0x000 then c.cyc % 2 ^ 64
  else if n = 0x001 then
    s.devnum * 2 ^ 18 + core % 16 * 2 ^ 14 + core % 96 / 16 * 2 ^ 11 + core / 96 * 2 ^ 9 + core
  else if n = 0x002 then wcode w.width * 2 ^ 16 + key % 64
  else if n = 0x003 then g.handle * 2 ^ 32 + (s.teamOf key).index
  else if n = 0x004 then g.ctx
  else if n = 0x005 then s.partOf x.asid * 256 + x.asid
  else if n = 0x006 then s.coreGen core x.asid
  else if n = 0x008 then g.stkbase
  else if n = 0x009 then g.stksize
  else if n = 0x010 then w.tbase.toNat
  else if n = 0x011 then w.tcause.toNat
  else if n = 0x012 then w.tepc.toNat
  else if n = 0x013 then w.tlanes.toNat % 2 ^ 64
  else if n = 0x014 then w.tlanes.toNat / 2 ^ 64
  else if n = 0x015 then w.taddr.toNat
  else if n = 0x016 then w.tstat
  else if n = 0x017 then w.tctl
  else if n = 0x020 then c.bphead.toNat - min c.bphead.toNat 256
  else if n = 0x021 then c.bphead.toNat
  else if n = 0x022 then b.bp
  else if n = 0x023 then c.errinj.toNat
  else if n = 0x030 then b.ub
  else if n = 0x031 then c.pinned g.ctx * 2 ^ 24 + b.l1lim
  else if n = 0x032 then b.l2used * 2 ^ 24 + b.l2lim
  else if n = 0x040 then s.foldT key
  else if 0x100 ≤ n && n < 0x110 then (lookD (n - 0x100) (0 : W32) b.fmt).toNat
  else if 0x200 ≤ n && n < 0x240 then (lookD (n - 0x200) (0 : Word) c.acown).toNat
  else if 0x300 ≤ n && n < 0x360 then (c.ring ((n - 0x300) / 6)).reg ((n - 0x300) % 6)
  else (lookD (8 * s.partOf x.asid + (n - 0x400)) (0 : Word) s.hmask).toNat

/-! ### Writes -/

/-- The bits of a register that software writes privileged, unprivileged, and those whose writes are
ignored; every other bit must be written zero (R263). Ring registers have rules of their own. -/
structure RegRule where
  priv : Nat
  open_ : Nat
  ignored : Nat
  deriving DecidableEq, Repr

/-- n ones from bit lo on. -/
def ones (lo n : Nat) : Nat := (2 ^ n - 1) * 2 ^ lo

/-- The writable registers; none for the identity registers and for numbers that are not assigned. -/
def regRule (n : Nat) : Option RegRule :=
  if n = 0x008 then some ⟨ones 6 46, 0, 0⟩
  else if n = 0x009 then some ⟨ones 0 19, 0, 0⟩
  else if n = 0x010 then some ⟨ones 11 41, 0, 0⟩
  else if n = 0x011 then some ⟨ones 0 16, 0, 0⟩
  else if n = 0x012 then some ⟨ones 0 52, 0, 0⟩
  else if n = 0x013 ∨ n = 0x014 ∨ n = 0x015 then some ⟨ones 0 64, 0, 0⟩
  else if n = 0x016 then some ⟨8, 0, ones 8 8 + 7⟩
  else if n = 0x017 then some ⟨6, 1, 0⟩
  else if n = 0x020 then some ⟨0, 0, ones 0 64⟩
  else if n = 0x021 then some ⟨ones 0 64, 0, 0⟩
  else if n = 0x022 then some ⟨ones 0 32, 0, ones 32 32⟩
  else if n = 0x023 then some ⟨ones 63 1 + ones 52 4 + ones 32 16 + ones 0 16, 0, 0⟩
  else if n = 0x030 then some ⟨ones 0 32, 0, 0⟩
  else if n = 0x031 ∨ n = 0x032 then some ⟨ones 0 24, 0, ones 24 40⟩
  else if n = 0x040 then some ⟨0, ones 32 6, ones 48 16 + ones 0 32⟩
  else if 0x100 ≤ n && n < 0x110 then some ⟨0, ones 0 19, 0⟩
  else if 0x200 ≤ n && n < 0x240 then some ⟨ones 63 1 + ones 0 16, 0, 0⟩
  else if 0x300 ≤ n && n < 0x360 then some ⟨0, ones 0 64, 0⟩
  else if 0x400 ≤ n && n < 0x408 then some ⟨ones 0 39, 0, 0⟩
  else none

/-- Numbers that R261 assigns. -/
def regAssigned (n : Nat) : Bool := n ≤ 6 || (regRule n).isSome

/-- What an SMOVC traps with (R261 to R263): SUB 32 names the register field, 48 the value's field
(assumption 15). -/
def State.ctrlCheck (s : State) (key n val : Nat) : Option (Nat × Nat) :=
  match regRule n with
  | none => some (0x02, 32)
  | some r =>
    if 0x300 ≤ n && n < 0x360 then
      s.ringCheck (s.weft key).team (key / 64) ((n - 0x300) / 6) ((n - 0x300) % 6) val
    else if (val &&& (r.priv ||| r.open_ ||| r.ignored)) ≠ val then some (0x02, 48)
    else if n = 0x009 && (val % 128 ≠ 0 || val < 128 || 262144 < val) then some (0x02, 48)
    else if r.priv ≠ 0 && !s.privOf key &&
        (n ≠ 0x017 || (val &&& 6) ≠ (s.ctrlReg key n &&& 6)) then some (0x04, 0)
    else none

/-- A write of FROZEN := 0 to a frozen weft releases its lanes, in normal mode: those of TLANES at TEPC
(R172). -/
def Weft.thaw (w : Weft) : Weft :=
  let w1 := w.eachLane (w.lanes.map (·.1)) fun l x =>
    { x with susp := false, age := 0, pc := if w.tlanes.getLsbD l then w.tepc else x.pc }
  { w1 with frozen := false, hmode := false }

/-- Writes of per-weft trap registers (R168, R172). -/
def Weft.writeTrap (w : Weft) (n val : Nat) : Weft :=
  let v : Word := BitVec.ofNat 64 val
  if n = 0x010 then { w with tbase := v &&& BitVec.ofNat 64 (ones 11 41) }
  else if n = 0x011 then { w with tcause := v &&& 0xFFFF }
  else if n = 0x012 then { w with tepc := v &&& BitVec.ofNat 64 (ones 0 52) }
  else if n = 0x013 then { w with tlanes := w.tlanes.extractLsb' 64 64 ++ v }
  else if n = 0x014 then { w with tlanes := v ++ w.tlanes.extractLsb' 0 64 }
  else if n = 0x015 then { w with taddr := v }
  else if n = 0x016 then
    (if v.getLsbD 3 then { w with frozen := true } else if w.frozen then w.thaw else w)
  else { w with phstep := v.getLsbD 2, rfp := v.getLsbD 1, bpt := v.getLsbD 0 }

/-- Writes of STKBASE and STKSIZE reach the context's copy, which its grids with no slot of the stack
pool use, and the issuing weft's grid (R246, R355; assumption 16). -/
def State.writeStk (s : State) (key n val : Nat) : State :=
  let g := s.gridOf key
  let v := BitVec.ofNat 64 val
  let set : Grid → Grid := fun x => if n = 0x008 then { x with stkbase := val } else { x with stksize := val }
  let s1 := s.mapCtx g.ctx fun x => if n = 0x008 then { x with stkbase := v } else { x with stksize := v }
  { s1 with grids := s1.grids.map fun e =>
      (e.1, if e.1 = (s.teamOf key).grid || (e.2.ctx = g.ctx && e.2.stkSlot.isNone) then set e.2 else e.2) }

/-- Writes that have no step of their own: their effect is in place at once (R264). -/
def State.writeDirect (s : State) (key n val : Nat) : State :=
  if n = 0x008 ∨ n = 0x009 then s.writeStk key n val
  else if 0x010 ≤ n && n ≤ 0x017 then s.mapWeft key fun w => w.writeTrap n val
  else if n = 0x040 then s.mapWeft key fun w => { w with foldSel := BitVec.ofNat 6 (val / 2 ^ 32) }
  else if 0x200 ≤ n && n < 0x240 then
    s.mapCore (key / 64) fun c => { c with acown := put (n - 0x200) (BitVec.ofNat 64 val) c.acown }
  else if 0x300 ≤ n && n < 0x360 then
    (let r := (n - 0x300) / 6
     let x := s.ring (key / 64) r
     s.setRing (key / 64) r { x with acl := BitVec.ofNat 4 val })
  else s

/-- Writes that complete in a step of their own: HMASK, ring BASE, SHAPE and MODE, BPLOG.HEAD, ERRINJ and
the registers of the context register block (R57, R128, R91, R92, R182). -/
def regDeferred (n : Nat) : Bool :=
  (0x400 ≤ n && n < 0x408) || n = 0x021 || n = 0x022 || n = 0x023 || n = 0x030 || n = 0x031 ||
  n = 0x032 || (0x100 ≤ n && n < 0x110) || (0x300 ≤ n && n < 0x360 && (n - 0x300) % 6 ≠ 4)

/-- A write of a control register by a weft, its checks passed: done, or under way with the weft held
(R264). -/
def State.writeCtrl (s : State) (key n val : Nat) : State :=
  if regDeferred n then
    let p : PWrite := { id := s.nextId, num := n, core := key / 64, weft := some key,
                        ctx := s.ctxOf key, val := BitVec.ofNat 64 val }
    { s with pwrites := s.pwrites ++ [p], nextId := s.nextId + 1 }.mapWeft key
      fun w => { w with hold := .pwrite s.nextId }
  else s.writeDirect key n val

end Sys2Proof.Machine
end

