-- ==== Sys2Proof/Machine/Uniform.lean ====
section
/-!
DEFINITION. The uniform instructions (OPC 20 to 38): arithmetic on the scalar file, z registers, literals,
lane transfers and control registers (R256 to R264).
-/
namespace Sys2Proof.Machine

/-- A uniform result of two operands of the type (R256). -/
def State.uni2 (s : State) (w : AluW) (f : Nat → Nat → Nat) : Out :=
  let ty := w.ty.toNat
  .next (s.uniformResult w.ctl w.dst ty (f (s.val s.lead w.a ty) (s.val s.lead w.b ty)))

/-- A uniform result of an operand of the type and one read in full (R257). -/
def State.uniFull (s : State) (w : AluW) (f : Nat → Nat → Nat) : Out :=
  let ty := w.ty.toNat
  .next (s.uniformResult w.ctl w.dst ty (f (s.val s.lead w.a ty) (s.full s.lead w.b ty)))

def execSadd (w : AluW) (s : State) : Out := s.uni2 w (opAdd w.sg w.sat w.wd)
def execSsub (w : AluW) (s : State) : Out := s.uni2 w (opSub w.sg w.sat w.wd)
def execSmul (w : AluW) (s : State) : Out := s.uni2 w (opMul w.sg w.sat w.wd)
def execSmulh (w : AluW) (s : State) : Out := s.uni2 w (opMulh w.sg w.wd)
def execSand (w : AluW) (s : State) : Out := s.uni2 w (opAnd w.wd)
def execSor (w : AluW) (s : State) : Out := s.uni2 w (opOr w.wd)
def execSxor (w : AluW) (s : State) : Out := s.uni2 w (opXor w.wd)
def execSshl (w : AluW) (s : State) : Out := s.uniFull w (opShl w.wd)
def execSshr (w : AluW) (s : State) : Out := s.uniFull w (opShr w.sg w.wd)
def execSmin (w : AluW) (s : State) : Out := s.uni2 w (opMin w.sg w.wd)
def execSmax (w : AluW) (s : State) : Out := s.uni2 w (opMax w.sg w.wd)
def execSmov (w : AluW) (s : State) : Out := s.uni2 w fun a _ => a
def execSpopc (w : AluW) (s : State) : Out := s.uni2 w fun a _ => opPopc w.wd a
def execSclz (w : AluW) (s : State) : Out := s.uni2 w fun a _ => opClz w.wd a
def execSbfe (w : AluW) (s : State) : Out := s.uniFull w (opBfe w.sg w.wd)

/-- cat(0, GT, LT, EQ) (R258). -/
def execScmp (w : AluW) (s : State) : Out :=
  let ty := w.ty.toNat
  .next (s.uniformResult w.ctl w.dst 7 (relBits w.sg w.wd (s.val s.lead w.a ty) (s.val s.lead w.b ty)))

def execSsel (w : AluW) (s : State) : Out :=
  let ty := w.ty.toNat
  .next (s.uniformResult w.ctl w.dst ty
    (if s.raw s.lead w.a false = 1 then s.val s.lead w.b ty else s.val s.lead w.c ty))

def execSbfi (w : AluW) (s : State) : Out :=
  let ty := w.ty.toNat
  .next (s.uniformResult w.ctl w.dst ty
    (opBfi w.wd (s.val s.lead w.a ty) (s.val s.lead w.b ty) (s.full s.lead w.c ty)))

/-- The result of ZOP (R258). -/
def State.zopResult (s : State) (w : AluW) : Bool :=
  let a := s.raw s.lead w.a false = 1
  let b := s.raw s.lead w.b false = 1
  let op := w.ty.toNat
  if op = 0 then a && b
  else if op = 1 then a || b
  else if op = 2 then xor a b
  else if op = 3 then a && !b
  else if op = 4 then s.val s.lead w.a 16 ≠ 0
  else (s.val s.lead w.a 16).testBit (s.val s.lead w.b 15 % 64)

/-- Write a z register; it awaits nothing any more. -/
def Weft.writeZ (w : Weft) (n : Nat) (b : Bool) : Weft :=
  { w.setZ n b with sMarks := del (128 + n) w.sMarks }

def execZop (w : AluW) (s : State) : Out :=
  .next <|
    if !ctlHoldsU w.ctl s.cw then s.advance
    else s.advance.mapWeft s.key fun z => z.writeZ w.dst.num (s.zopResult w)

/-! ### Whole values (R259) -/

def execSmovi (w : MoviW) (s : State) : Out := .next (s.uniformResult w.ctl w.dst 16 w.imm.toNat)

/-- SLDLIT: a fetch of the literal; a recoverable fault parks the issuing lanes (R28, R53). -/
def execSldlit (w : CtlW) (s : State) : Out :=
  let ty := w.ty.toNat
  let (va, f) := s.literal w.off (tyWidth ty / 8)
  .next <|
    if !ctlHoldsU w.ctl s.cw then s.advance
    else
      match f with
      | .bytes bs pa wk => (s.keepFetch s.key pa wk).uniformResult w.ctl w.dst ty (leNat bs)
      | .wait => s.turnAway
      | .recov => (s.parkLanes 2 0xFF (s.lanes.map fun l => (l, va))).endDecision
      | .trap c sub => s.raiseU c sub (BitVec.ofNat 64 va)

/-! ### Lane transfers (R260) -/

/-- The lane index: an s register or an immediate, unsigned. -/
def State.laneIdx (s : State) (w : AluW) : Nat := s.full s.lead w.b 7

/-- A mark of DATAERR on the register that SGETL reads. -/
def State.getlMark (s : State) (w : AluW) : Option (Nat × Mark) :=
  let x := s.cw.lane (s.laneIdx w)
  x.dstMarks.find? fun e => meets e.1 1 (x.wb + w.a.num) (w.wd / 32)

/-- SGETL: a register that awaits data holds the weft until its request completes (R93). -/
def execSgetl (w : AluW) (s : State) : Out :=
  let l := s.laneIdx w
  let x := s.cw.lane l
  let ty := w.ty.toNat
  .next <|
    if !ctlHoldsU w.ctl s.cw then s.advance
    else if s.cw.width ≤ l then s.uniformResult w.ctl w.dst ty 0
    else
      match (List.range (w.wd / 32)).findSome? fun i => s.vPending s.key l (x.wb + w.a.num + i) with
      | some r => (s.mapWeft s.key fun z => { z with hold := .req r.id }).endDecision
      | none =>
        match s.getlMark w with
        | some e =>
          (s.mapWeft s.key fun z => z.eachLane [l] fun _ y =>
            { y with dstMarks := del e.1 y.dstMarks,
                     regs := put (e.1 % z.stk) (s.anyBits 32 (8 * (512 * l + e.1) + 1)) y.regs }).raiseU
            e.2.cause e.2.sub e.2.addr
        | none =>
          s.uniformResult w.ctl w.dst ty
            (applyMod ty w.a.md (hiHalf w.a
              (if w.wd = 64 then (x.vPair s.cw.stk w.a.num).toNat else (x.v s.cw.stk w.a.num).toNat)))

/-- SPUTL: waits at issue while the lane's register awaits a request (R81). -/
def execSputl (w : AluW) (s : State) : Out :=
  let l := s.laneIdx w
  let ty := w.ty.toNat
  let y := s.val s.lead w.a ty
  .next <|
    if !ctlHoldsU w.ctl s.cw then s.advance
    else if s.vHeld s.key l w.dst.num (w.wd / 32) then s.turnAway
    else
      ((s.mapWeft s.key fun z =>
        (if l < z.width && !w.ctl.n then z.eachLane [l] fun _ x => writeV z.stk w.dst.num ty y x
         else z).eachLane s.lanes fun _ x => pushLatch x (resultV ty y))).advance

/-! ### Control registers (R263, R264) -/

def execSmovs (w : AluW) (s : State) : Out :=
  let n := s.full s.lead w.a 7
  .next <|
    if !ctlHoldsU w.ctl s.cw then s.advance
    else if !regAssigned n then s.raiseAt 0x02 32
    else s.uniformResult w.ctl w.dst 7 (s.ctrlReg s.key n)

def execSmovc (w : AluW) (s : State) : Out :=
  let n := s.full s.lead w.a 7
  let x := s.val s.lead w.b 16
  .next <|
    if !ctlHoldsU w.ctl s.cw then s.advance
    else
      match s.ctrlCheck s.key n x with
      | some (c, sub) =>
        s.raiseU c sub (if c = 0x06 then BitVec.ofNat 64 (ringVa ((n - 0x300) / 6) ((n - 0x300) % 6)) else s.cur.va)
      | none => s.advance.writeCtrl s.key n x

end Sys2Proof.Machine
end

