-- ==== Sys2Proof/Machine/LaneInt.lean ====
section
/-!
DEFINITION. The lane integer instructions and moves (OPC 40 to 57): R295 to R298.
-/
namespace Sys2Proof.Machine

/-- Each executing lane computes from two operands of the type (R295). -/
def State.lane2 (s : State) (w : AluW) (f : Nat → Nat → Nat) : Out :=
  let ty := w.ty.toNat
  .next (s.laneResult w.ctl w.dst ty fun l => f (s.val l w.a ty) (s.val l w.b ty))

/-- From an operand of the type and one read in full (R257). -/
def State.laneFull (s : State) (w : AluW) (f : Nat → Nat → Nat) : Out :=
  let ty := w.ty.toNat
  .next (s.laneResult w.ctl w.dst ty fun l => f (s.val l w.a ty) (s.full l w.b ty))

/-- From three operands of the type. -/
def State.lane3 (s : State) (w : AluW) (f : Nat → Nat → Nat → Nat) : Out :=
  let ty := w.ty.toNat
  .next (s.laneResult w.ctl w.dst ty fun l => f (s.val l w.a ty) (s.val l w.b ty) (s.val l w.c ty))

def execIadd (w : AluW) (s : State) : Out := s.lane2 w (opAdd w.sg w.sat w.wd)
def execIsub (w : AluW) (s : State) : Out := s.lane2 w (opSub w.sg w.sat w.wd)
def execImul (w : AluW) (s : State) : Out := s.lane2 w (opMul w.sg w.sat w.wd)
def execImulh (w : AluW) (s : State) : Out := s.lane2 w (opMulh w.sg w.wd)
def execImad (w : AluW) (s : State) : Out := s.lane3 w (opMad w.sg w.sat w.wd)
def execIand (w : AluW) (s : State) : Out := s.lane2 w (opAnd w.wd)
def execIor (w : AluW) (s : State) : Out := s.lane2 w (opOr w.wd)
def execIxor (w : AluW) (s : State) : Out := s.lane2 w (opXor w.wd)
def execIshl (w : AluW) (s : State) : Out := s.laneFull w (opShl w.wd)
def execIshr (w : AluW) (s : State) : Out := s.laneFull w (opShr w.sg w.wd)
def execImin (w : AluW) (s : State) : Out := s.lane2 w (opMin w.sg w.wd)
def execImax (w : AluW) (s : State) : Out := s.lane2 w (opMax w.sg w.wd)
def execIabs (w : AluW) (s : State) : Out := s.lane2 w fun a _ => opAbs w.sat w.wd a
def execPopc (w : AluW) (s : State) : Out := s.lane2 w fun a _ => opPopc w.wd a
def execClz (w : AluW) (s : State) : Out := s.lane2 w fun a _ => opClz w.wd a
def execBfe (w : AluW) (s : State) : Out := s.laneFull w (opBfe w.sg w.wd)
def execBperm (w : AluW) (s : State) : Out := s.lane3 w opBperm
def execRng (w : AluW) (s : State) : Out := s.lane2 w opRng

/-- The relation bits of ICMP. -/
def execIcmp (w : AluW) (s : State) : Out :=
  let ty := w.ty.toNat
  .next (s.laneResult w.ctl w.dst (relTy ty) fun l => relBits w.sg w.wd (s.val l w.a ty) (s.val l w.b ty))

def execIsel (w : AluW) (s : State) : Out :=
  let ty := w.ty.toNat
  .next (s.laneResult w.ctl w.dst ty fun l =>
    if s.raw l w.a false = 1 then s.val l w.b ty else s.val l w.c ty)

def execBfi (w : AluW) (s : State) : Out :=
  let ty := w.ty.toNat
  .next (s.laneResult w.ctl w.dst ty fun l => opBfi w.wd (s.val l w.a ty) (s.val l w.b ty) (s.full l w.c ty))

/-! ### Moves (R297) -/

/-- An image written into a time register: STATE 7 to 15 is stored as 0; it carries no request (R82). -/
def writtenImage (x : W32) : W32 := if 7 ≤ tstate x then timage 0 (tvalue x) else x

def writeT (n : Nat) (y : W32) (x : Lane) : Lane :=
  { x.setT n (writtenImage y) with treq := del n x.treq }

def execMov (w : AluW) (s : State) : Out :=
  let ty := w.ty.toNat
  .next <|
    match w.dst with
    | .t n => s.passThen (s.active w.ctl) fun _ l x => writeT n (BitVec.ofNat 32 (s.val l w.a ty)) x
    | _ => s.laneResult w.ctl w.dst ty fun l => s.val l w.a ty

def execMovs (w : AluW) (s : State) : Out :=
  let z := s.cw
  .next (s.laneResult w.ctl w.dst 5 fun l =>
    if w.ty = 0 then l
    else if w.ty = 1 then z.width
    else if w.ty = 2 then z.index * z.width + l
    else if w.ty = 3 then (s.core s.cur.core).cyc % 2 ^ 32
    else (z.lane l).wb)

/-- VLDLIT: a fetch of the literal; a recoverable fault parks the executing lanes (R28, R53, R259). -/
def execVldlit (w : CtlW) (s : State) : Out :=
  let ty := w.ty.toNat
  let ls := s.active w.ctl
  let (va, f) := s.literal w.off (tyWidth ty / 8)
  .next <|
    if ls.isEmpty then s.advance
    else
      match f with
      | .bytes bs pa wk => (s.keepFetch s.key pa wk).laneResult w.ctl w.dst ty fun _ => leNat bs
      | .wait => s.turnAway
      | .recov => ((s.advance.mapWeft s.key fun z => z.eachLane ls fun _ x => { x with pc := s.cur.va }).parkLanes
          2 0xFF (ls.map fun l => (l, va))).endDecision
      | .trap c sub => s.raise (ls.map fun l => ⟨l, c, sub, BitVec.ofNat 64 va⟩)

end Sys2Proof.Machine
end

