-- ==== Sys2Proof/Machine/FloatInstr.lean ====
section
/-!
DEFINITION. The floating-point instructions (OPC 70 to 89): R307 to R312.
-/
namespace Sys2Proof.Machine

/-! ### Operations on encodings -/

/-- An operation on one element: exact, then rounded once to the type (R189, R190). -/
def fop1 (f : Fmt) (rm : Nat) (sat : Bool) (op : Fl → Fl) (a : Nat) : Nat := f.encode rm sat (op (f.decode a))
def fop2 (f : Fmt) (rm : Nat) (sat : Bool) (op : Fl → Fl → Fl) (a b : Nat) : Nat :=
  f.encode rm sat (op (f.decode a) (f.decode b))
def fop3 (f : Fmt) (rm : Nat) (sat : Bool) (op : Fl → Fl → Fl → Fl) (a b c : Nat) : Nat :=
  f.encode rm sat (op (f.decode a) (f.decode b) (f.decode c))

/-- One operation, or one for each element of a packed type (R188). -/
def byElement (ty : Nat) (g : Nat → Nat → Nat → Nat) (a b c : Nat) : Nat :=
  if tyIsPacked ty then
    g (bits a 0 16) (bits b 0 16) (bits c 0 16) + g (bits a 16 16) (bits b 16 16) (bits c 16 16) * 2 ^ 16
  else g a b c

/-- The exact results before rounding (R307). -/
def flSub (rm : Nat) (a b : Fl) : Fl := Fl.add rm a b.neg
def flFma (rm : Nat) (a b c : Fl) : Fl := Fl.add rm (a.mul b) c

/-- An arithmetic instruction of two sources. -/
def State.farith2 (s : State) (w : AluW) (op : Fl → Fl → Fl) : Out :=
  let ty := w.ty.toNat
  let g := fun a b _ => fop2 (tyFmt ty) w.rm.toNat w.sat op a b
  .next (s.laneResult w.ctl w.dst ty fun l => byElement ty g (s.val l w.a ty) (s.val l w.b ty) 0)

/-- An instruction of one source, rounded by RM. -/
def State.farith1 (s : State) (w : AluW) (op : Fl → Fl) : Out :=
  let ty := w.ty.toNat
  let g := fun a _ _ => fop1 (tyFmt ty) w.rm.toNat w.sat op a
  .next (s.laneResult w.ctl w.dst ty fun l => byElement ty g (s.val l w.a ty) 0 0)

def execFadd (w : AluW) (s : State) : Out := s.farith2 w (Fl.add w.rm.toNat)
def execFsub (w : AluW) (s : State) : Out := s.farith2 w (flSub w.rm.toNat)
def execFmul (w : AluW) (s : State) : Out := s.farith2 w Fl.mul
def execFmin (w : AluW) (s : State) : Out := s.farith2 w (Fl.least false)
def execFmax (w : AluW) (s : State) : Out := s.farith2 w (Fl.least true)

def execFfma (w : AluW) (s : State) : Out :=
  let ty := w.ty.toNat
  let g := fop3 (tyFmt ty) w.rm.toNat w.sat (flFma w.rm.toNat)
  .next (s.laneResult w.ctl w.dst ty fun l => byElement ty g (s.val l w.a ty) (s.val l w.b ty) (s.val l w.c ty))

/-- a × 2^n, SB read as i32 for both elements. -/
def execFldexp (w : AluW) (s : State) : Out :=
  let ty := w.ty.toNat
  .next (s.laneResult w.ctl w.dst ty fun l =>
    let n := toSigned 32 (s.val l w.b 6)
    byElement ty (fun a _ _ => fop1 (tyFmt ty) w.rm.toNat w.sat (Fl.scale n) a) (s.val l w.a ty) 0 0)

/-! ### Relations and classes (R308) -/

def execFcmp (w : AluW) (s : State) : Out :=
  let ty := w.ty.toNat
  let g := fun a b => frelBits ((tyFmt ty).decode a) ((tyFmt ty).decode b)
  .next (s.laneResult w.ctl w.dst (relTy ty) fun l =>
    let a := s.val l w.a ty
    let b := s.val l w.b ty
    if tyIsPacked ty then g (bits a 0 16) (bits b 0 16) + 16 * g (bits a 16 16) (bits b 16 16) else g a b)

def execFclass (w : AluW) (s : State) : Out :=
  let ty := w.ty.toNat
  .next (s.laneResult w.ctl w.dst (relTy ty) fun l =>
    let a := s.val l w.a ty
    if tyIsPacked ty then
      fclassBits (tyFmt ty) (bits a 0 16) + 65536 * fclassBits (tyFmt ty) (bits a 16 16)
    else fclassBits (tyFmt ty) a)

/-! ### Functions (R309) -/

/-- A function with an FP32 result, rounded RNE again to the 16-bit types. -/
def fun32 (ty : Nat) (sat : Bool) (op : Fl → Fl) (a : Nat) : Nat :=
  let y := f32Fmt.encode 0 sat (op ((tyFmt ty).decode a))
  if ty = 11 then y else (tyFmt ty).encode 0 sat (f32Fmt.decode y)

def State.ffun (s : State) (w : AluW) (op : Fl → Fl) : Out :=
  let ty := w.ty.toNat
  .next (s.laneResult w.ctl w.dst ty fun l => fun32 ty w.sat op (s.val l w.a ty))

def execFrcp (w : AluW) (s : State) : Out := s.farith1 w Fl.recip
def execFsqrt (w : AluW) (s : State) : Out := s.farith1 w Fl.sqrt
def execFrsq (w : AluW) (s : State) : Out := s.ffun w Fl.rsqrt
def execFex2 (w : AluW) (s : State) : Out := s.ffun w Fl.exp2
def execFlg2 (w : AluW) (s : State) : Out := s.ffun w Fl.log2
def execFsin (w : AluW) (s : State) : Out := s.ffun w Fl.sinPi
def execFcos (w : AluW) (s : State) : Out := s.ffun w Fl.cosPi

/-! ### Conversions (R310) -/

def execFrnd (w : AluW) (s : State) : Out := s.farith1 w (Fl.roundIntegral w.rm.toNat)

/-- The source type that SB holds. -/
def AluW.srcType (w : AluW) : Nat := (w.b.immVal.getD 0).toNat

def execFcvt (w : AluW) (s : State) : Out :=
  let ty := w.ty.toNat
  let src := AluW.srcType w
  .next (s.laneResult w.ctl w.dst ty fun l =>
    (tyFmt ty).encode w.rm.toNat w.sat ((tyFmt src).decode (s.val l w.a src)))

/-- A value rounded by RM and clamped to an integer type's range; NaN gives 0. -/
def flToInt (signed : Bool) (w rm : Nat) : Fl → Int
  | .nan => 0
  | .inf n => if n then intMin signed w else intMax signed w
  | .fin n m e =>
    let x : Int := (roundInt rm n m e : Nat)
    max (intMin signed w) (min (intMax signed w) (if n then -x else x))

def execFtoi (w : AluW) (s : State) : Out :=
  let ty := w.ty.toNat
  let src := AluW.srcType w
  .next (s.laneResult w.ctl w.dst ty fun l =>
    ofInt w.wd (flToInt w.sg w.wd w.rm.toNat ((tyFmt src).decode (s.val l w.a src))))

def execItof (w : AluW) (s : State) : Out :=
  let ty := w.ty.toNat
  let src := AluW.srcType w
  .next (s.laneResult w.ctl w.dst ty fun l =>
    (tyFmt ty).encode w.rm.toNat w.sat (.ofInt (intOf (tySigned src) (tyWidth src) (s.val l w.a src))))

/-! ### Narrow codes (R311) -/

/-- Bits of a container. -/
def narrowCw (ty : Nat) : Nat := if ty = 17 then 8 else 4

/-- The format that a control word names. -/
def State.narrowOf (s : State) (c : Nat) : Narrow :=
  Narrow.ofReg (lookD (bits c 0 4) (0 : W32) (s.block s.cur.core (s.ctxOf s.key)).fmt).toNat

/-- A control word that traps: position, reserved bit, container or format (R193, R311). -/
def State.narrowBad (s : State) (ty c : Nat) : Bool :=
  let f := s.narrowOf c
  (ty = 17 && 3 < bits c 4 3) || c.testBit 7 || bits c 16 48 ≠ 0 || f.cw != (ty == 17) || !f.valid

/-- fpack of R311: v with the code of a at POS. -/
def fpackWord (f : Narrow) (ty rm : Nat) (sat : Bool) (v a c : Nat) : Nat :=
  let x := if bits c 8 8 = 0xFF then .nan else (f32Fmt.decode a).scale (127 - (bits c 8 8 : Int))
  setBits v (narrowCw ty * bits c 4 3) (narrowCw ty) (f.encode rm sat x)

/-- funpk of R311. -/
def funpkWord (f : Narrow) (ty a c : Nat) : Nat :=
  let code := bits a (narrowCw ty * bits c 4 3) (narrowCw ty)
  if bits c 8 8 = 0xFF then f32Fmt.nanBits
  else f32Fmt.encode 0 false ((f.decode code).scale ((bits c 8 8 : Int) - 127))

/-- FPACK and FUNPK: the control word is checked in the executing lanes. -/
def State.narrowInstr (s : State) (w : AluW) (f : Nat → Nat → Nat) : State :=
  let ls := s.active w.ctl
  let c := s.full s.lead w.b 7
  if !ls.isEmpty && s.narrowBad w.ty.toNat c then s.raise (ls.map fun l => ⟨l, 0x02, 48, s.cur.va⟩)
  else s.laneResult w.ctl w.dst 15 fun l => f l c

def execFpack (w : AluW) (s : State) : Out :=
  .next (s.narrowInstr w fun l c =>
    fpackWord (s.narrowOf c) w.ty.toNat w.rm.toNat w.sat ((s.cw.lane l).v s.cw.stk w.dst.num).toNat
      (s.val l w.a 11) c)

def execFunpk (w : AluW) (s : State) : Out :=
  .next (s.narrowInstr w fun l c => funpkWord (s.narrowOf c) w.ty.toNat (s.val l w.a 15) c)

/-! ### Packed pairs (R312) -/

/-- a0 × b0 + a1 × b1 + c, exact. -/
def dot2 (f : Fmt) (rm : Nat) (a b : Nat) (c : Fl) : Fl :=
  let p := (f.decode (bits a 0 16)).mul (f.decode (bits b 0 16))
  let q := (f.decode (bits a 16 16)).mul (f.decode (bits b 16 16))
  Fl.add rm (Fl.add rm p q) c

def execFdot2 (w : AluW) (s : State) : Out :=
  let ty := w.ty.toNat
  .next (s.laneResult w.ctl w.dst 11 fun l =>
    f32Fmt.encode w.rm.toNat w.sat
      (dot2 (tyFmt ty) w.rm.toNat (s.val l w.a ty) (s.val l w.b ty) (f32Fmt.decode (s.val l w.c 11))))

/-- An operation on each element of FP32 pairs. -/
def State.fpair (s : State) (w : AluW) (g : Nat → Nat → Nat → Nat) : Out :=
  .next (s.laneResult w.ctl w.dst 16 fun l =>
    let a := s.pairVal l w.a
    let b := s.pairVal l w.b
    let c := s.pairVal l w.c
    g (bits a 0 32) (bits b 0 32) (bits c 0 32) + g (bits a 32 32) (bits b 32 32) (bits c 32 32) * 2 ^ 32)

def execFadd2 (w : AluW) (s : State) : Out :=
  s.fpair w fun a b _ => fop2 f32Fmt w.rm.toNat w.sat (Fl.add w.rm.toNat) a b
def execFmul2 (w : AluW) (s : State) : Out := s.fpair w fun a b _ => fop2 f32Fmt w.rm.toNat w.sat Fl.mul a b
def execFfma2 (w : AluW) (s : State) : Out := s.fpair w (fop3 f32Fmt w.rm.toNat w.sat (flFma w.rm.toNat))

end Sys2Proof.Machine
end

