-- ==== Sys2Proof/Machine/Cross.lean ====
section
/-!
DEFINITION. Predicates, masks and cross-lane instructions (OPC 58 to 61): R299 to R306.
-/
namespace Sys2Proof.Machine

/-! ### Results of other kinds -/

/-- A predicate result: p in every executing lane, or z once, from the lowest of them (R299, R302). -/
def State.predResult (s : State) (c : Ctl) (dst : Dst) (f : Nat → Bool) : State :=
  match dst with
  | .p n => s.passThen (s.active c) fun _ l x => x.setP n (f l)
  | .z n =>
    (match s.active c with
     | [] => s.advance
     | l :: _ => s.advance.mapWeft s.key fun z => z.writeZ n (f l))
  | _ => s.advance

/-- A value that every executing lane receives in v, or that is written once to s; it is pushed into each
executing lane (R212). -/
def State.sharedResult (s : State) (c : Ctl) (dst : Dst) (ty y : Nat) : State :=
  match dst with
  | .s n =>
    (match s.active c with
     | [] => s.advance
     | l :: ls => s.advance.mapWeft s.key fun z =>
        (if c.n then z else z.writeS n (resultS ty y)).eachLane (l :: ls) fun _ x => pushLatch x (resultS ty y))
  | _ => s.laneResult c dst ty fun _ => y

/-! ### Predicates (R299) -/

/-- A p register, or an immediate that is true when it is not zero. -/
def State.truth (s : State) (lane : Nat) (src : Src) : Bool :=
  match src.immVal with
  | some x => x ≠ 0
  | none => s.raw lane src false = 1

def plopOf (op : Nat) (a b : Bool) : Bool :=
  if op = 0 then a && b else if op = 1 then a || b else if op = 2 then xor a b
  else if op = 3 then a && !b else !a

def execPlop (w : AluW) (s : State) : Out :=
  .next (s.predResult w.ctl w.dst fun l => plopOf w.ty.toNat (s.truth l w.a) (s.truth l w.b))

def psetOf (op a b : Nat) : Bool :=
  if op = 0 then (a &&& b) ≠ 0 else if op = 1 then (a &&& b) = b else if op = 2 then (a &&& b) = 0
  else a.testBit (b % 32)

def execPset (w : AluW) (s : State) : Out :=
  .next (s.predResult w.ctl w.dst fun l => psetOf w.ty.toNat (s.val l w.a 15) (s.val l w.b 15))

/-! ### Masks (R300) -/

/-- Member bits of a mask written: lanes beyond W and exited lanes are forced to 0, arrived bits of lanes
that are no members clear, and a pending wait is tested again. -/
def Weft.writeMembers (w : Weft) (k : Nat) (m : LaneMask) : Weft :=
  let ok := maskOf ((List.range w.width).filter fun l => !(w.lane l).exited)
  let y := m &&& ok
  ({ w with kMem := put k y w.kMem, kArr := put k (w.karr k &&& y) w.kArr }).testMask k

/-- Half h of a mask replaced. -/
def setHalf (m : LaneMask) (h : Nat) (x : Word) : LaneMask :=
  if h = 0 then m.extractLsb' 64 64 ++ x else x ++ m.extractLsb' 0 64

/-- Members that KOP leaves in d. -/
def State.kopMembers (s : State) (w : AluW) : LaneMask :=
  let z := s.cw
  let a := z.kmem w.a.num
  let b := z.kmem w.b.num
  let d := z.kmem w.dst.num
  let op := w.ty.toNat
  if op = 0 then a &&& b
  else if op = 1 then a ||| b
  else if op = 2 then a ^^^ b
  else if op = 3 then a &&& ~~~b
  else if op = 4 then setHalf d (w.b.immVal.getD 0).toNat (BitVec.ofNat 64 (s.val s.lead w.a 16))
  else (s.active w.ctl).foldl (fun m l => setBit m l (s.truth l w.a)) d

def execKop (w : AluW) (s : State) : Out :=
  let half := (w.b.immVal.getD 0).toNat
  .next <|
    if w.ty = 6 then
      s.sharedResult w.ctl w.dst 16
        ((s.cw.kmem w.a.num).toNat % 2 ^ s.cw.width / 2 ^ (64 * half) % 2 ^ 64)
    else if (s.active w.ctl).isEmpty then s.advance
    else s.advance.mapWeft s.key fun z => z.writeMembers w.dst.num (s.kopMembers w)

/-! ### Collective values (R302, R303, R306) -/

def execVote (w : AluW) (s : State) : Out :=
  let xs := (s.active w.ctl).map fun l => s.truth l w.a
  let r := if w.ty = 0 then xs.all id else if w.ty = 1 then xs.any id else xs.all id || xs.all (!·)
  .next (s.predResult w.ctl w.dst fun _ => r)

def execBallot (w : AluW) (s : State) : Out :=
  let half := (w.b.immVal.getD 0).toNat
  let m := maskOf ((s.active w.ctl).filter fun l => s.truth l w.a)
  .next (s.sharedResult w.ctl w.dst 16 (m.toNat / 2 ^ (64 * half) % 2 ^ 64))

def execElect (w : AluW) (s : State) : Out :=
  let cand := (s.active w.ctl).filter fun l =>
    match w.a with | .k n => (s.cw.kmem n).getLsbD l | _ => true
  .next (s.predResult w.ctl w.dst fun l => cand.head? = some l)

def execShfl (w : AluW) (s : State) : Out :=
  let ty := w.ty.toNat
  .next (s.laneResult w.ctl w.dst ty fun l =>
    let j := s.val l w.b 5
    if s.cw.width ≤ j then 0 else s.val j w.a ty)

/-- TRANK: the ranked lanes below, by distance, then by number. -/
def execTrank (w : AluW) (s : State) : Out :=
  let cyc := (s.core s.cur.core).cyc
  let d := fun l => tdist ((s.cw.lane l).treg w.a.num) cyc
  let ranked := (s.active w.ctl).filter fun l =>
    match w.b with | .k n => (s.cw.kmem n).getLsbD l | _ => true
  .next (s.laneResult w.ctl w.dst 5 fun l =>
    if ranked.contains l then
      (ranked.filter fun m => d m < d l || (d m = d l && m < l)).length
    else 0xFFFFFFFF)

/-! ### Reductions and scans (R304, R305) -/

/-- The value of a lane that does not contribute. -/
def reduxId (op ty : Nat) : Nat :=
  let w := tyWidth ty
  if tyIsFloat ty then
    (if op = 0 then (tyFmt ty).sign true else (tyFmt ty).infBits (op = 2))
  else if op = 1 then ofInt w (intMax (tySigned ty) w)
  else if op = 2 then ofInt w (intMin (tySigned ty) w)
  else if op = 3 then 2 ^ w - 1
  else 0

/-- Two values combined. -/
def reduxOp (op ty rm : Nat) (sat : Bool) (a b : Nat) : Nat :=
  let w := tyWidth ty
  let sg := tySigned ty
  if tyIsFloat ty then
    (if op = 0 then fop2 (tyFmt ty) rm sat (Fl.add rm) a b else fop2 (tyFmt ty) 0 false (Fl.least (op = 2)) a b)
  else if op = 0 then opAdd sg false w a b
  else if op = 1 then opMin sg w a b
  else if op = 2 then opMax sg w a b
  else if op = 3 then opAnd w a b
  else if op = 4 then opOr w a b
  else opXor w a b

/-- One level of the tree: neighbours combined. -/
def pairUp (f : Nat → Nat → Nat) : List Nat → List Nat
  | a :: b :: rest => f a b :: pairUp f rest
  | xs => xs

/-- redux_add of R304: W values, level by level. -/
def reduceTree (f : Nat → Nat → Nat) (xs : List Nat) : Nat :=
  ((List.range 7).foldl (fun ys _ => pairUp f ys) xs).headD 0

/-- The operation in SB and whether the scan is exclusive. -/
def AluW.reduction (w : AluW) : Nat := (w.b.immVal.getD 0).toNat

def execRedux (w : AluW) (s : State) : Out :=
  let ty := w.ty.toNat
  let op := AluW.reduction w
  let ls := s.active w.ctl
  let xs := (List.range s.cw.width).map fun l => if ls.contains l then s.val l w.a ty else reduxId op ty
  .next (s.sharedResult w.ctl w.dst ty (reduceTree (reduxOp op ty w.rm.toNat w.sat) xs))

/-- A NaN result is the canonical one (R189). -/
def canonical (ty y : Nat) : Nat :=
  if tyIsFloat ty && ((tyFmt ty).decode y).isNan then (tyFmt ty).nanBits else y

/-- The combination of values in order, from the first on. -/
def scanOf (f : Nat → Nat → Nat) (none_ : Nat) : List Nat → Nat
  | [] => none_
  | x :: xs => xs.foldl f x

def execScan (w : AluW) (s : State) : Out :=
  let ty := w.ty.toNat
  let op := AluW.reduction w % 8
  let excl := decide (8 ≤ AluW.reduction w)
  let ls := s.active w.ctl
  let none_ := if tyIsFloat ty && op = 0 && excl then 0 else reduxId op ty
  .next (s.laneResult w.ctl w.dst ty fun l =>
    canonical ty (scanOf (reduxOp op ty w.rm.toNat w.sat) none_
      ((ls.filter fun m => m < l || (m = l && !excl)).map fun m => s.val m w.a ty)))

end Sys2Proof.Machine
end

