-- ==== Sys2Proof/Machine/Homes.lean ====
section
/-!
DEFINITION. The Homes (R48, R99): tags and poison (R32, R75), cells (R140 to R142), the windows that a load
reads (R17, R18, R124), writes and the waiters they wake (R279, R283), the core views (R51, R101), and how
a request ends (R80, R90, R93).
-/
namespace Sys2Proof.Machine

/-- A table entry set to a value, a default value removing it. -/
def putOr {α : Type} [BEq α] (d : α) (k : Nat) (v : α) (t : Tab α) : Tab α := if v == d then del k t else put k v t

/-- The device that a target names, if another. -/
def Tgt.device : Tgt → Option Nat
  | .peer pa _ | .peerCell pa _ => some (bits pa 46 6)
  | .peerSpad d _ _ => some d
  | _ => none

/-- The PA of another device's memory in a free value's index. -/
def freeSeed (t : Tgt) : Nat := 64 * (t.base % 2 ^ 20)

/-! ### Tags and poison -/

/-- The tag of the block of a target at its Home; host memory reads 0 (R32), a peer's are free. -/
def State.tagOf (s : State) (t : Tgt) : BitVec 16 :=
  match t with
  | .mem pa _ => if isHost pa then 0 else lookD (local46 pa / 64) 0 s.tags
  | .spad c off => lookD (off / 64) 0 (s.core c).stags
  | .peer _ _ | .peerSpad _ _ _ => s.anyBits 16 (8 * freeSeed t + 1)
  | _ => 0

/-- A request to another device is refused there by its grants, as that device decides (R19; assumption 12). -/
def State.peerRefuses (s : State) (t : Tgt) (k : Nat) : Bool := t.device.isSome && s.anyBool (8 * k + 2)

/-- The target lies on a device that cannot be reached (R11, R19). -/
def State.cutOff (s : State) (t : Tgt) : Bool :=
  match t.device with | some d => !s.reach d | none => false

/-- A tag written at its Home; a block of host memory takes none (R32). -/
def State.setTag (s : State) (t : Tgt) (y : BitVec 16) : State :=
  match t with
  | .mem pa _ => if isHost pa then s else { s with tags := putOr 0 (local46 pa / 64) y s.tags }
  | .spad c off => s.mapCore c fun x => { x with stags := putOr 0 (off / 64) y x.stags }
  | _ => s

/-- The log record of a poisoned granule that [t, t + n) meets (R75). -/
def State.poisonOf (s : State) (t : Tgt) (n : Nat) : Option Nat :=
  match t with
  | .mem pa _ | .cell pa _ => look (local46 pa / 64) s.poison
  | .spad c off => (spadWords off n).findSome? fun w => look w (s.core c).spoison
  | _ => none

/-- Poison of a block copied to a destination block (R75): the words of a scratchpad block, or a block. -/
def State.setPoison (s : State) (t : Tgt) (n rec : Nat) : State :=
  match t with
  | .mem pa _ | .cell pa _ => { s with poison := put (local46 pa / 64) rec s.poison }
  | .spad c off => s.mapCore c fun x =>
      { x with spoison := (spadWords off n).foldl (fun p w => put w rec p) x.spoison }
  | _ => s

/-- Poison cleared in the granules that [t, t + n) replaces whole (R75). -/
def State.clearPoison (s : State) (t : Tgt) (n : Nat) : State :=
  match t with
  | .mem pa _ =>
    let a := local46 pa
    { s with poison := s.poison.filter fun e => !(a ≤ 64 * e.1 && 64 * e.1 + 64 ≤ a + n) }
  | .spad c off => s.mapCore c fun x =>
      { x with spoison := x.spoison.filter fun e => !(off ≤ 4 * e.1 && 4 * e.1 + 4 ≤ off + n) }
  | _ => s

/-! ### Cells -/

/-- The weight exponent L of a class (R140). -/
def cellL (cls : Nat) : Int := (50 * cls : Nat) - 150

/-- cadd of R141 on the 256 bits of a cell. -/
def cellAdd (cls : Nat) (a : Fl) (x : Nat) : Nat :=
  let y := if bits x 216 32 = 2 ^ 32 - 1 then x ||| 2 ^ 252 else setBits x 216 32 (bits x 216 32 + 1)
  match a with
  | .nan => y ||| 2 ^ 248
  | .inf n => if n then y ||| 2 ^ 250 else y ||| 2 ^ 249
  | .fin n m e =>
    if m ≠ 0 && cellL cls + 176 ≤ leadExp m e then y ||| 2 ^ 251
    else
      let q : Int := (roundAt 0 n m e (cellL cls) : Nat)
      setBits y 0 216 (ofInt 216 (toSigned 216 (bits y 0 216) + (if n then -q else q)))

/-- The view of a cell in a format (R142). -/
def cellView (f : Fmt) (cls x : Nat) : Nat :=
  let pinf := x.testBit 249
  let ninf := x.testBit 250
  if x.testBit 248 || x.testBit 252 || x.testBit 251 || (pinf && ninf) then f.nanBits
  else if pinf then f.infBits false
  else if ninf then f.infBits true
  else
    let sum := toSigned 216 (bits x 0 216)
    if sum = 0 then 0 else f.encode 0 false (.fin (decide (sum < 0)) sum.natAbs (cellL cls))

/-- The 256 bits of the cell at PA: in the cell store, or its raw image in memory (R63). -/
def State.cellImg (s : State) (pa : Nat) : Nat :=
  let a := local46 pa
  match look (align a 64) s.cells with
  | some x => bits x.toNat (8 * (align a 32 % 64)) 256
  | none => mnum s.mem (align a 32) 32

/-- The cell line of an address is resident, brought in by an ASID, the most recently used; of a set of a memory-side
cache it takes a way (R63). -/
def State.bringCell (s : State) (asid pa : Nat) : State :=
  let b := align (local46 pa) 64
  let fresh := (look b s.cells).isNone
  let s1 := if fresh then { s.openRow b with
    cells := put b (BitVec.ofNat 512 (s.cellImg b + s.cellImg (b + 32) * 2 ^ 256)) s.cells } else s
  let s2 : State := { s1 with
    cellBy := if s.cellBy.contains (b, asid) then s.cellBy else (b, asid) :: s.cellBy
    cellUse := b :: s.cellUse.filter (· != b) }
  if fresh then s2.mscTrim b 16 else s2

/-- A cell rewritten for an ASID in its line (R63). -/
def State.setCell (s0 : State) (asid pa img : Nat) : State :=
  let s := s0.bringCell asid pa
  let a := local46 pa
  let b := align a 64
  let line := s.cellImg b + s.cellImg (b + 32) * 2 ^ 256
  { s with cells := put b (BitVec.ofNat 512 (setBits line (8 * (align a 32 % 64)) 256 img)) s.cells }

/-- Cell lines that have room together: 12 ways of a set, or the 2 MiB buffer of an LPDDR controller (R63, R67). -/
def cellWays (pa : Nat) : Nat := if isLpddr pa then 32768 else 12

/-- The cell line of PA is resident or has room (R63). -/
def State.cellRoom (s : State) (pa : Nat) : Bool :=
  let b := align (local46 pa) 64
  (look b s.cells).isSome || s.cellUse.length < 12 || (s.cellsNear b).length < cellWays pa

/-- A cell line written back as two raw images (R63). -/
def State.cellBack (s : State) (block : Nat) : State :=
  match look block s.cells with
  | some x =>
    { s with
      mem := mwrite s.mem block (leBytes 64 x.toNat)
      cells := del block s.cells
      cellUse := s.cellUse.filter (· != block)
      rows := (s.openRow block).rows
      cellBy := s.cellBy.filter fun e => e.1 != block }
  | none => s

/-! ### The windows that loads read -/

/-- A little-endian field of a template (R120). -/
def tmplNum (t : List Byte) (off n : Nat) : Nat := leNat ((t.drop off).take n)
def tmplFlag (t : List Byte) (b : Nat) : Bool := (tmplNum t 37 1).testBit b
def tmplRows (t : List Byte) : Nat := tmplNum t 20 4
def tmplRowLen (t : List Byte) : Nat := tmplNum t 16 4

/-- Chunks of a tile (R120): 512 bytes each, or one row each under RING. -/
def tmplChunks (t : List Byte) : Nat :=
  if tmplFlag t 6 then tmplRows t else (tmplRows t * tmplRowLen t + 511) / 512

/-- Members whose copy of a chunk is a performance of its own: 0 where there is one copy, 512 for a multicast without
members. -/
def Cmd.copies (c : Cmd) : List Nat :=
  if !tmplFlag c.tmpl 0 then [0] else if c.members.isEmpty then [512] else c.members

/-- A chunk has performed (R113): every copy of it; a row of RING when its FILLED increment has happened. -/
def Cmd.performed (c : Cmd) (i : Nat) : Bool :=
  if tmplFlag c.tmpl 6 then c.done.contains i else c.copies.all fun m => c.copied.contains (i, m)

/-- Chunks not yet performed. -/
def Cmd.left (c : Cmd) : Nat := ((List.range (tmplChunks c.tmpl)).filter fun i => !c.performed i).length

/-- The channel status word (R124). -/
def Chan.status (c : Chan) : Nat :=
  let left := match c.run with | some k => k.left | none => 0
  let parked := match c.run with | some k => k.parkSeq.isSome | none => false
  c.done.toNat * 2 ^ 32 + left % 2 ^ 16 * 2 ^ 16 + c.err % 16 * 256 + parked.toNat * 128 +
    c.run.isSome.toNat * 8 + c.queue.length % 8

/-- Bytes of the core control window as an agent reads them (R18, R91). -/
def State.ctlRead (s : State) (g : Agent) (off n : Nat) : List Byte :=
  let c := s.core g.core
  if off < 0x10000 then mread c.tmpl off n
  else if off < 0x12000 then
    (match look ((off - 0x10000) / 32) c.bplog with
     | some e => if e.ctx = g.ctx then ((leBytes 32 e.img.toNat).drop (off % 32)).take n else leBytes n 0
     | none => leBytes n 0)
  else if off < 0x13000 then
    leBytes n ((c.ring ((off - 0x12000) / 0x30)).reg ((off - 0x12000) % 0x30 / 8))
  else if off = 0x13000 then leBytes n (assoc (s.team g.team).cores (s.team g.team).bases g.core)
  else leBytes n (s.team g.team).spad

/-- What a Home, or a window, gives to a load of n bytes. -/
def State.homeRead (s : State) (g : Agent) (t : Tgt) (n : Nat) : List Byte :=
  match t with
  | .mem pa .so => s.sideGets (local46 pa) n
  | .mem pa _ => s.homeGets g.asid (local46 pa) n
  | .spad c off => mread (s.core c).spad off n
  | .cell pa cls =>
    let x := s.cellImg pa
    if n = 4 then leBytes 4 (cellView f32Fmt cls x)
    else if n = 8 then leBytes 8 (cellView f64Fmt cls x)
    else leBytes n (bits x (8 * (pa % 32)) 128)
  | .aperture ch => leBytes n ((s.core g.core).chan ch).status
  | .ctlWin off => s.ctlRead g off n
  | .fold _ _ _ => leBytes n 0
  | .peer _ _ | .peerCell _ _ | .peerSpad _ _ _ => (List.range n).map fun i => s.anyBits 8 (8 * (freeSeed t + i) + 3)

/-- What a load of an agent takes: bytes of its core's view, or of their Home (R100). -/
def State.loadBytes (s : State) (g : Agent) (t : Tgt) (n : Nat) (mine : Bool) : List Byte :=
  match t.viewAt with
  | some a => s.viewRead g.core g.asid a n mine
  | none => s.homeRead g t n

/-! ### Waiting conditions (R279, R280, R283) -/

/-- The condition of a WAITC by SUBOP, on words of w bits. -/
def waitcMet (f w m x : Nat) : Bool :=
  if f = 0 then m = x
  else if f = 1 then m ≠ x
  else if f = 2 then (m + 2 ^ w - x) % 2 ^ w < 2 ^ (w - 1)
  else if f = 3 then (m &&& x) = x
  else (m &&& x) ≠ 0

/-- barw of R283: what z becomes, or none while it waits. -/
def barwResult (obj k : Nat) : Option Nat :=
  if bits obj 48 16 ≠ bits k 16 16 then some 0
  else if bits obj 16 16 ≠ bits k 0 16 then some 1
  else none

/-- The answer that a waiter's word now gives. -/
def State.waitAnswer (s : State) (r : Req) : Option Nat :=
  match r.op, r.parts with
  | .waitc f, p :: _ =>
    let m := leNat (s.homeRead r.agent p.tgt r.size)
    if waitcMet f (8 * r.size) m p.x then some m else none
  | .barw, p :: _ => barwResult (leNat (s.homeRead r.agent p.tgt 16)) p.x
  | _, _ => none

/-- The waiter takes its answer. An acquire still has its Drop before it (R108); z = 0 of a BARW orders
nothing (R283). -/
def Req.answeredBy (r : Req) (m : Nat) : Req :=
  { r with homed := true, parts := r.parts.map fun p => { p with val := m },
           satisfied := !r.acq || (r.op = .barw && m = 0) }

/-- Test one waiter that its Home holds. What a lane has read it may not see undone (R104): clean copies of
the word are filled anew. -/
def State.testWaiter (s : State) (id : Nat) : State :=
  match s.req id with
  | some r =>
    if r.admitted && !r.homed then
      (match s.waitAnswer r, r.parts with
       | some m, p :: _ => (s.setReq (r.answeredBy m)).refresh r.agent.core r.agent.asid p.tgt r.size
       | _, _ => s)
    else s
  | none => s

/-- Is this a waiting condition? -/
def ReqOp.isWait : ReqOp → Bool
  | .waitc _ | .barw => true
  | _ => false

/-- After a write at a Home every waiter is tested again (R279, R283). -/
def State.wake (s : State) : State :=
  (s.reqs.filter fun r => r.op.isWait).foldl (fun s r => s.testWaiter r.id) s

/-! ### Stores into operands of the loom and of tasks (R118, R147) -/

/-- Bytes of a row of elements by operand format (R143, R318). -/
def rowBytes (code cols : Nat) : Nat :=
  if code ≤ 1 then 2 * cols else if code = 2 then 64 * ((cols + 63) / 64) else 64 * ((cols + 127) / 128)

/-- The operand rows of an entry: start and bytes. -/
def MmaOp.rows (o : MmaOp) : List (Nat × Nat) :=
  ((List.range o.m).map fun i => (o.a + i * o.lda, rowBytes o.fa o.k)) ++
    ((List.range o.k).map fun i => (o.b + i * o.ldb, rowBytes o.fb o.n))

def MmaOp.reads (o : MmaOp) (a n : Nat) : Bool := o.rows.any fun r => meets r.1 r.2 a n

/-- Element (i, j) of a tile. -/
def accKey (tile i j : Nat) : Nat := 1024 * tile + 32 * i + j

/-- The M × N region of a tile takes free values. -/
def State.freeTile (s : State) (core tile m n : Nat) : State :=
  s.mapCore core fun c => { c with acc := (List.range (m * n)).foldl (fun t e =>
    let k := accKey tile (e / n) (e % n)
    put k (s.anyBits 32 (8 * k + 6)) t) c.acc }

/-- Entries of a core's loom whose operands a predicate finds written are tainted; the results of those that
have completed are undefined from now on. -/
def State.taintLoom (s : State) (core : Nat) (p : MmaOp → Bool) : State :=
  let c := s.core core
  let s1 := s.mapCore core fun c =>
    { c with
      loomq := c.loomq.map fun e => match e with
        | .mma o => if p o then .mma { o with taint := true } else .mma o
        | .oprdy a b => .oprdy a b
      loomRun := c.loomRun.map fun o => if p o then { o with taint := true } else o }
  (c.loomDone.filter p).foldl (fun s o => s.freeTile core o.tile o.m o.n) s1

/-- The fields of a task record (R143). -/
def tk (r : List Byte) (off n : Nat) : Nat := tmplNum r off n
def taskM (r : List Byte) : Nat := bits (tk r 36 4) 0 6
def taskN (r : List Byte) : Nat := bits (tk r 36 4) 6 6
def taskK (r : List Byte) : Nat := bits (tk r 36 4) 12 16
def taskFa (r : List Byte) : Nat := bits (tk r 36 4) 28 2
def taskFb (r : List Byte) : Nat := bits (tk r 36 4) 30 2
def taskMode (r : List Byte) : Nat := tk r 62 1

/-- Bytes of an output element by OMODE. -/
def outBytes (mode : Nat) : Nat := if mode = 0 then 4 else if mode = 1 then 2 else 32

/-- Outputs of a task by row: VA and bytes. -/
def taskRows (r : List Byte) : List (Nat × Nat) :=
  (List.range (taskM r)).map fun i => (tk r 16 8 + i * tk r 32 4, outBytes (taskMode r) * taskN r)

/-- Operands of a task by row. -/
def taskInputs (r : List Byte) : List (Nat × Nat) :=
  ((List.range (taskM r)).map fun i => (tk r 0 8 + i * tk r 24 4, rowBytes (taskFa r) (taskK r))) ++
    ((List.range (taskK r)).map fun i => (tk r 8 8 + i * tk r 28 4, rowBytes (taskFb r) (taskN r)))

/-- A store of a space reaches a task's operands or outputs. -/
def Task.hit (t : Task) (asid va n : Nat) : Bool :=
  t.agent.asid = asid && (taskInputs t.record ++ taskRows t.record).any fun r => meets r.1 r.2 va n

/-- A task whose operands or outputs a store of a space reaches keeps the bytes before and after it (R147). -/
def Task.meetsStore (asid va : Nat) (old new : List Byte) (t : Task) : Task :=
  let vas := (List.range new.length).map (va + ·)
  if t.hit asid va new.length then { t with past := t.past ++ vas.zip old ++ vas.zip new } else t

/-- A store to memory by VA, about to be performed at its target, reaches the operands of MMAS entries of its space and
tasks between their enqueue and their signal (R118, R147). -/
def State.taintVa (s : State) (asid va : Nat) (tgt : Tgt) (bs : List Byte) : State :=
  let s1 := (s.cores.filter fun c => c.2.loomRun.isSome || !c.2.loomq.isEmpty || !c.2.loomDone.isEmpty).foldl
    (fun s c => s.taintLoom c.1 fun o => o.fromMem && o.agent.asid = asid && o.reads va bs.length) s
  let old := s.homeRead { (default : Agent) with asid := asid } tgt bs.length
  let mark := Task.meetsStore asid va old bs
  { s1 with
    cores := s1.cores.map fun c => if c.2.task.isSome then (c.1, { c.2 with task := c.2.task.map mark }) else c
    meadows := s1.meadows.map fun m => (m.1, { m.2 with queues := m.2.queues.map fun q => (q.1, q.2.map mark) }) }

/-! ### Writes at a Home -/

/-- Bytes written where they lie, waiters apart. A store that covers a scratchpad word clears its poison
(R75); a peer's memory is not part of this device (assumption 12). -/
def State.homePut (s : State) (asid : Nat) (t : Tgt) (bs : List Byte) : State :=
  match t with
  | .mem pa .so => (s.sideSets (local46 pa) bs).mscRange pa bs.length true
  | .mem pa _ => (s.fetchLines (local46 pa) bs.length asid).homeSets asid (local46 pa) bs
  | .spad c off =>
    (((s.mapCore c fun x => { x with spad := mwrite x.spad off bs }).clearPoison t bs.length).taintLoom c
      fun o => !o.fromMem && o.reads off bs.length).claimBanks c off bs.length
  | _ => s

def State.homeWrite (s : State) (asid : Nat) (t : Tgt) (bs : List Byte) : State := (s.homePut asid t bs).wake

/-! ### Results of a request -/

/-- The value of a part in the v registers of its lane (R266), where the registers are still in its window. -/
def landV (stk : Nat) (r : Req) (p : Part) (x : Lane) : Lane :=
  if x.exited then x
  else
    (List.range r.vCount).foldl (fun x i =>
      let L := p.reg + i
      if L < x.lo ∨ x.wb + 32 ≤ L then x
      else
        let y := if r.size < 4 then extend (tySigned r.ty) (8 * r.size) 32 p.val else bits p.val (32 * i) 32
        { x with regs := put (L % stk) (BitVec.ofNat 32 y) x.regs, dstMarks := del L x.dstMarks }) x

/-- The value of a uniform request in s registers (R266). -/
def landS (r : Req) (n val : Nat) (w : Weft) : Weft :=
  (List.range r.sCount).foldl (fun w i =>
    let y := if r.size < 8 then extend (tySigned r.ty) (8 * r.size) 64 val else bits val (64 * i) 64
    { w.setS (n + i) (BitVec.ofNat 64 y) with sMarks := del (n + i) w.sMarks }) w

/-- A request's value reaches its destination (R80). -/
def State.deliver (s : State) (r : Req) : State :=
  let val := match r.parts with | p :: _ => p.val | [] => 0
  match r.dst with
  | .none => s
  | .v => s.mapWeft r.key fun w => r.parts.foldl (fun w p => w.setLane p.lane (landV w.stk r p (w.lane p.lane))) w
  | .s n => s.mapWeft r.key (landS r n val)
  | .z n => s.mapWeft r.key fun w => w.writeZ n (val ≠ 0)
  | .p n => s.mapWeft r.key fun w => w.eachLane (lanesOf r.lanes) fun _ x =>
      { x.setP n (val ≠ 0) with fileMarks := del n x.fileMarks }

/-- A request is over: it leaves the list, the holds on it end (R314), and scope actions that it held up go on (R87). -/
def State.retireReq (s : State) (r : Req) : State :=
  let s1 := ((s.dropT r).dropReq r.id).sweep r.agent.core
  { s1 with wefts := s1.wefts.map fun e => if e.2.hold = .req r.id then (e.1, { e.2 with hold := .none }) else e }

/-- The landing cycle of a broken promise enters its log entry (R90), unless it was overwritten. -/
def State.logLanding (s : State) (r : Req) : State :=
  s.mapCore r.agent.core fun c => { c with bplog := c.bplog.map fun e =>
    if e.2.req = r.id then (e.1, { e.2 with img := e.2.img ||| BitVec.ofNat 256 (c.cyc % 2 ^ 64 * 2 ^ 64) }) else e }

/-- The log entries of a request take no landing any more: it ends in FAULT (R90). -/
def State.closeLog (s : State) (r : Req) : State :=
  if (s.core r.agent.core).bplog.any fun e => e.2.req = r.id then
    s.mapCore r.agent.core fun c => { c with bplog := c.bplog.map fun e =>
      if e.2.req = r.id then (e.1, { e.2 with req := 0 }) else e }
  else s

/-- A request completes: value delivered, register DONE at this cycle (R80). -/
def State.complete (s : State) (r : Req) : State :=
  ((((s.deliver r).logLanding r).reqT r stDone (s.core r.agent.core).cyc)).retireReq r

/-- The lowest lane of a request (R90). -/
def Req.lowLane (r : Req) : Nat := (lanesOf r.lanes).headD r.agent.lane

def Req.tnum (r : Req) : Nat := r.tsel.getD 0

/-- VA that reports of a request name. -/
def Req.va (r : Req) : Nat := match r.parts with | p :: _ => p.va | [] => 0

/-- The mark that a broken or refused request leaves on its time register. -/
def Req.mark (r : Req) (x : Lane) (cause sub : Nat) (addr : Word) : TMark :=
  { cause := cause, sub := sub, addr := addr, dst := r.dst, cnt := r.vCount,
    reg := match r.parts.find? (fun p => p.lane = r.lowLane) with | some p => p.reg | none => x.wb }

/-- A broken promise is logged, counted and, under TCTL.BPT, marked (R90). -/
def State.breakPromise (s : State) (r : Req) (cause : Nat) : State :=
  let c := s.core r.agent.core
  let img := r.level * 2 ^ 212 + cause * 2 ^ 208 + r.tnum * 2 ^ 206 + r.lowLane * 2 ^ 199 +
    r.agent.slot * 2 ^ 192 + r.va * 2 ^ 128 + r.promise % 2 ^ 64
  let s1 := s.mapCore r.agent.core fun x => { x with
    bplog := put (c.bphead.toNat % 256) ⟨BitVec.ofNat 256 img, r.agent.ctx, r.id⟩ x.bplog,
    bphead := x.bphead + 1 }
  let s2 := s1.mapCtx r.agent.ctx fun x => { x with adds := x.adds ++ [0] }
  match r.tsel with
  | none => s2
  | some n => s2.mapWeft r.key fun w =>
    if !w.bpt then w
    else w.eachLane (lanesOf r.lanes) fun _ x =>
      if lookD n 0 x.treq = r.id then
        { x with broken := put n (r.mark x 0x0D n (BitVec.ofNat 64 r.va)) x.broken } else x

/-- A request that has a promise ends without landing: its promise is broken, once (R89, R90). -/
def State.endBroken (s : State) (r : Req) (cause : Nat) : State :=
  if r.promise ≠ 0 && !r.late then s.breakPromise r cause else s

/-- A request completes in ERROR (R75, R80, R93): registers marked for DATAERR, time register ERROR with the
record's sequence number. -/
def State.endError (s : State) (r : Req) (seq : Nat) : State :=
  let m : Mark := ⟨0x0E, 0, BitVec.ofNat 64 seq, r.id⟩
  let s1 := s.endBroken r 6
  let s2 := match r.dst with
    | .none => s1
    | .v => s1.mapWeft r.key fun w => r.parts.foldl (fun (w : Weft) (p : Part) =>
        let x := w.lane p.lane
        w.setLane p.lane { x with dstMarks := (List.range r.vCount).foldl (fun t i => put (p.reg + i) m t) x.dstMarks }) w
    | .s n => s1.mapWeft r.key fun w =>
        { w with sMarks := (List.range r.sCount).foldl (fun t i => put (n + i) m t) w.sMarks }
    | .z n => s1.mapWeft r.key fun w => { w with sMarks := put (128 + n) m w.sMarks }
    | .p n => s1.mapWeft r.key fun w => w.eachLane (lanesOf r.lanes) fun _ x => { x with fileMarks := put n m x.fileMarks }
  (s2.reqT r stError seq).retireReq r

/-- An uncorrectable error in the block or word that a request reads: it is poisoned, and a record is written (R75).
Which structure held it is not said. A peer's and the host's memory carry codes of their own. -/
def State.markPoison (s : State) (r : Req) : State :=
  match r.parts with
  | [] => s
  | p :: _ =>
    match p.tgt with
    | .mem pa _ | .cell pa _ =>
      if isHost pa then s
      else (s.setPoison p.tgt r.size s.errSeq).errorRecord 2 r.agent.tenant (s.unsaid 0) 0xFFFF (s.unsaid 1) pa (s.unsaid 2)
    | .spad c _ =>
      (s.setPoison p.tgt r.size s.errSeq).errorRecord 2 r.agent.tenant (s.unsaid 0) c (s.unsaid 1) p.va (s.unsaid 2)
    | _ => s

/-- A request to a device that cannot be reached, or that refuses it, completes in ERROR (R11, R19, R80). The loss is
recorded here with TYPE 4, a refusal in the log of its target, whose sequence number is free. -/
def State.peerError (s : State) (r : Req) (addr : Nat) : State :=
  if s.cutOff (match r.parts with | p :: _ => p.tgt | [] => .aperture 0) then
    (s.errorRecord 4 r.agent.tenant 8 r.agent.core (s.unsaid 1) addr (s.unsaid 3)).endError r s.errSeq
  else s.endError r (s.unsaid 6)

/-- A request at a target of another device does not come through. -/
def State.peerLost (s : State) (t : Tgt) : Bool := s.cutOff t || s.peerRefuses t 1

/-! ### Soft errors (R73, R74) -/

/-- A register's uncorrectable error: a record, and the mark that its reader meets. -/
def State.upsetMark (s : State) (key : Nat) (f : Mark → State → State) : State :=
  f ⟨0x0E, 0, BitVec.ofNat 64 s.errSeq, 0⟩
    (s.errorRecord 2 (s.gridOf key).tenant (s.unsaid 0) (key / 64) (s.unsaid 1) (s.unsaid 5) (s.unsaid 2))

/-- A soft error in a structure of a core (R73, R74; assumption 65). -/
def State.upset (s : State) (u : Upset) : State :=
  match u with
  | .inline core => s.when (core < Config.cores) (s.errorRecord 1 0xFF (s.unsaid 0) core (s.unsaid 1) (s.unsaid 5) 1)
  | .vreg core slot lane reg =>
    let x := (s.weft (64 * core + slot)).lane lane
    s.when (slot < 64 && (s.weft (64 * core + slot)).live && x.started && x.lo ≤ reg && reg < x.wb + 32)
      (s.upsetMark (64 * core + slot) fun m t => t.mapWeft (64 * core + slot) fun w =>
        w.setLane lane { w.lane lane with dstMarks := put reg m (w.lane lane).dstMarks })
  | .file core slot lane n =>
    s.when (slot < 64 && n < 12 && (s.weft (64 * core + slot)).live && ((s.weft (64 * core + slot)).lane lane).started)
      (s.upsetMark (64 * core + slot) fun m t => t.mapWeft (64 * core + slot) fun w =>
        w.setLane lane { w.lane lane with fileMarks := put n m (w.lane lane).fileMarks })
  | .scalar core slot n =>
    s.when (slot < 64 && n < 132 && (s.weft (64 * core + slot)).live)
      (s.upsetMark (64 * core + slot) fun m t => t.mapWeft (64 * core + slot) fun w => { w with sMarks := put n m w.sMarks })
  | .team team core n =>
    s.when (n < 16 && (s.team team).cores.contains core)
      ((s.errorRecord 2 (s.grid (s.team team).grid).tenant (s.unsaid 0) core (s.unsaid 1) (s.unsaid 5) (s.unsaid 2)).mapTeam
        team fun t => { t with gMarks := put (16 * core + n) ⟨0x0E, 0, BitVec.ofNat 64 s.errSeq, 0⟩ t.gMarks })
  | .acc core elem =>
    s.when (core < Config.cores && elem < 65536)
      ((s.errorRecord 2 0xFF (s.unsaid 0) core (s.unsaid 1) elem (s.unsaid 2)).mapCore core fun c =>
        { c with accBad := put elem s.errSeq c.accBad })

/-- A weft is frozen for an access that can no longer trap (R36): TEPC names the issuing instruction. -/
def State.freezeLate (s : State) (key cause : Nat) (epc : Word) : State :=
  (s.freeze key cause).mapWeft key fun w =>
    { w with tcause := BitVec.ofNat 64 (setBits w.tcause.toNat 0 8 cause), tepc := epc }

end Sys2Proof.Machine
end

