-- ==== Sys2Proof/Machine/Access.lean ====
section
/-!
DEFINITION. The issue of memory accesses (R79, R80, R265 to R268): addresses, data groups, the checks of
every lane, the waits at issue (R47, R81, R106, R119), recoverable faults, merging (R47), and what an older
access has to have done for a release or a fence (R101, R107, R110).
-/
namespace Sys2Proof.Machine

/-! ### Operands -/

/-- EA of a lane (R265). -/
def State.ea (s : State) (w : MemW) (lane : Nat) : Word :=
  BitVec.ofNat 64 (s.val lane w.a 16) + w.off.signExtend 64

/-- The bytes of a register group, lowest register first, or an immediate (R266). -/
def State.groupVal (s : State) (lane : Nat) (src : Src) (n : Nat) : Nat :=
  let w := s.cw
  match src with
  | .v m p _ =>
    let x := w.lane (permLane p.toNat w.width lane)
    if w.width ≤ permLane p.toNat w.width lane then 0
    else (List.range (vRegs n)).foldl (fun a i => a + (x.v w.stk (m + i)).toNat * 2 ^ (32 * i)) 0
  | .s m _ => (List.range (sRegs n)).foldl (fun a i => a + (w.sreg (m + i)).toNat * 2 ^ (64 * i)) 0
  | _ => s.raw lane src false

/-- Store data of n bytes: MOD acts where the size is the type's (R267); an immediate is sign-extended and
cut (R266). -/
def State.storeData (s : State) (lane : Nat) (src : Src) (ty n : Nat) : Nat :=
  match src.immVal with
  | some x => ofInt (8 * n) x
  | none => (if 8 * n = tyWidth ty then s.val lane src ty else s.groupVal lane src n) % 2 ^ (8 * n)

/-- Where the result of a request goes. -/
def reqDst : Dst → ReqDst
  | .v _ => .v
  | .s n => .s n
  | .z n => .z n
  | .p n => .p n
  | _ => .none

/-- One lane's access: its address, operand and compare value. -/
structure Access where
  lane : Nat
  va : Word
  x : Nat
  y : Nat
  deriving DecidableEq, Repr

/-- The lanes whose accesses a word makes: a uniform word makes one, for its lowest issuing lane (R78). -/
def State.makers (s : State) (c : Ctl) (uniform : Bool) : List Nat :=
  if uniform then (if ctlHoldsU c s.cw then [s.lead] else []) else s.active c

/-! ### Checks -/

/-- The check of each access (R268). -/
def State.checks (s : State) (al n : Nat) (acc : Acc) (xs : List Access) : List (Access × Check) :=
  xs.map fun x => (x, s.check (s.agent s.key x.lane) x.va al n acc)

/-- What an access raises: TADDR is its VA, or the instruction for a bad field (R169). -/
def raiseOf (pc : Word) (e : Access × Check) : Option Raise :=
  match e.2 with
  | .trap c sub => some ⟨e.1.lane, c, sub, if c = 0x02 then pc else e.1.va⟩
  | _ => none

/-- The causes raised, by lane; a uniform word raises in every issuing lane (R170). -/
def State.raiseAll (s : State) (uniform : Bool) (rs : List Raise) : State :=
  match rs with
  | [] => s
  | r :: _ => if uniform then s.raiseU r.cause r.sub r.addr else s.raise rs

def isFault (e : Access × Check) : Bool := match e.2 with | .recov => true | _ => false

/-- The accesses that go on, each with its target and the walk behind it. -/
def placedOf (e : Access × Check) : Option (Access × Tgt × WalkRes) :=
  match e.2 with
  | .ok t w => some (e.1, t, w)
  | _ => none

def State.keepWalks (s : State) (ps : List (Access × Tgt × WalkRes)) : State :=
  ps.foldl (fun s p => s.keepWalk s.cur.core p.2.2) s

/-- The instruction waits: an SO access of a lane with an older one not performed (R106), or a command store
to a channel with no free slot (R119). -/
def State.mustWait (s : State) (store : Bool) (ps : List (Access × Tgt × WalkRes)) : Bool :=
  ps.any fun p =>
    (p.2.1.isSo && s.soPending s.key p.1.lane) ||
    (match p.2.1 with
     | .aperture ch => store && 4 ≤ ((s.core s.cur.core).chan ch).queue.length +
         ((s.wefts.filter fun w => w.1 / 64 = s.cur.core).map fun w =>
           (w.2.sq.filter fun e => e.tgt = .aperture ch).length).sum
     | _ => false)

/-! ### Requests -/

/-- The first register of a lane's v group, by logical number. -/
def State.firstReg (s : State) (w : MemW) (lane : Nat) : Nat :=
  match w.dst with | .v n => (s.cw.lane lane).wb + n | _ => 0

def State.part (s : State) (w : MemW) (x : Access) (t : Tgt) : Part :=
  { lane := x.lane, va := x.va.toNat, x := x.x, y := x.y, val := 0, reg := s.firstReg w x.lane, tgt := t }

/-- The request of a word for some parts. A uniform one belongs to every issuing lane (R78). -/
def State.reqFor (s : State) (w : MemW) (op : ReqOp) (n : Nat) (uniform : Bool) (parts : List Part) : Req :=
  let lane := match parts with | p :: _ => p.lane | [] => 0
  let r := s.newReq (s.agent s.key lane) op n parts (reqDst w.dst)
  { r with ty := w.ty.toNat, hint := w.hint.toNat, tsel := w.tnum, acq := w.acquires, rel := w.releases, scope := w.scope.toNat,
           lanes := if uniform then s.cur.lanes else r.lanes }

/-- What lanes of one load share when they are merged (R47): a sector, or a scratchpad word. -/
def mergeKey (n : Nat) : Tgt → Option Nat
  | .mem _ .so => none
  | .mem pa _ => some (pa / 64)
  | .spad c off => if n ≤ 4 then some (2 ^ 60 + c * 2 ^ 20 + off / 4) else none
  | _ => none

/-- Accesses in groups, one request each. -/
def groupUp (merge : Bool) (n : Nat) : List (Access × Tgt × WalkRes) → List (List (Access × Tgt × WalkRes))
  | [] => []
  | p :: ps =>
    let gs := groupUp merge n ps
    match merge, mergeKey n p.2.1 with
    | true, some k =>
      (p :: (gs.filter fun g => g.any fun q => mergeKey n q.2.1 = some k).flatten) ::
        gs.filter fun g => !(g.any fun q => mergeKey n q.2.1 = some k)
    | _, _ => [p] :: gs

/-- The requests of a word's groups, in order, each with whether it walked; what they take of banks and reeds they take
together (R45, R83). -/
def State.groupReqs (s : State) (w : MemW) (op : ReqOp) (n : Nat) (uniform : Bool)
    (gs : List (List (Access × Tgt × WalkRes))) : List (Req × Bool) :=
  let rs := ((List.range gs.length).zip gs).map fun e =>
    { s.reqFor w op n uniform (e.2.map fun p => s.part w p.1 p.2.1) with id := s.nextId + e.1 }
  (together rs).zip (gs.map fun g => g.any fun p => p.2.2.walked)

/-- Requests enter the machine in order. -/
def State.placeAll (s : State) (rs : List (Req × Bool)) : State := rs.foldl (fun s r => s.placeLoad r.1 r.2) s

/-- A request at a recoverable fault, OPEN until its entry is posted (R28, R174). -/
def State.faultReq (s : State) (w : MemW) (op : ReqOp) (n : Nat) (uniform : Bool) (x : Access) : State :=
  let r := { s.reqFor w op n uniform [s.part w x (unplaced x.va.toNat)] with phase := .fault }
  (s.addReq r).takeT r stOpen r.issued

/-- The faulting accesses of a word: a request each, and an entry for each page (R173). -/
def State.faultReqs (s : State) (w : MemW) (op : ReqOp) (n : Nat) (acc : Acc) (uniform : Bool)
    (xs : List Access) : State :=
  let id0 := s.nextId
  let s1 := xs.foldl (fun s x => s.faultReq w op n uniform x) s
  let named := (List.range xs.length).zip xs
  (faultPages (xs.map fun x => (x.lane, x.va.toNat))).foldl (fun s p =>
    let mine := named.filter fun e => e.2.va.toNat / 65536 = p
    match mine with
    | [] => s
    | e :: _ =>
      s.newFault (s.agent s.key e.2.lane) acc.kind e.2.va.toNat s.cur.slot (w.tnum.getD 0)
        (if uniform then s.cur.lanes else maskOf (mine.map fun e => e.2.lane))
        (.reqs (mine.map fun e => id0 + e.1))) s1

/-- The issue of requests: traps, waits, then requests in ascending lane order. -/
def State.issueReqs (s : State) (w : MemW) (op : ReqOp) (al n size : Nat) (acc : Acc) (uniform merge : Bool)
    (xs : List Access) : State :=
  let cs := s.checks al n acc xs
  match cs.filterMap (raiseOf s.cur.va) with
  | r :: rs => s.raiseAll uniform (r :: rs)
  | [] =>
    let ps := cs.filterMap placedOf
    let fs := (cs.filter isFault).map (·.1)
    let gs := groupUp merge size ps
    if s.mustWait false ps || Config.maxRequests < s.outstanding s.cur.core + gs.length + fs.length then s.turnAway
    else
      (((s.keepWalks ps).advance).placeAll (s.groupReqs w op size uniform gs)).faultReqs w op size acc uniform fs

/-- A store enters the Store Queue of its lane (R102). -/
def State.storeOne (s : State) (w : MemW) (n : Nat) (lanes : LaneMask) (p : Access × Tgt × WalkRes) : State :=
  s.pushStore (s.agent s.key p.1.lane) p.1.va.toNat p.2.1 (leBytes n p.1.x) w.releases w.scope.toNat w.tnum lanes w.ty.toNat w.hint.toNat

/-- A uniform store parks every lane that issued it. -/
def State.parkUniform (s : State) (kind treg : Nat) (hits : List PageHit) : State :=
  match hits with
  | [] => s
  | h :: _ =>
    (s.newFault (s.agent s.key h.1) kind h.2 s.cur.slot treg s.cur.lanes
      (.lanes s.cur.core s.cur.slot s.cur.lanes)).mapWeft s.key
      fun w => w.eachLane s.lanes fun _ x => { x with wait := .park none }

/-- The issue of stores. Faulting lanes park at the instruction (R28). -/
def State.issueStores (s : State) (w : MemW) (n : Nat) (uniform : Bool) (xs : List Access) : State :=
  let cs := s.checks n n .write xs
  let bad := cs.filterMap fun e => match e.2 with
    | .ok (.aperture _) _ => if bits e.1.x 10 22 ≠ 0 then some (⟨e.1.lane, 0x02, 48, s.cur.va⟩ : Raise) else none
    | .ok (.ctlWin off) _ =>
      if off < 0x12000 then none
      else (s.ringCheck s.cw.team s.cur.core ((off - 0x12000) / 0x30) ((off - 0x12000) % 0x30 / 8) e.1.x).map fun c =>
        (⟨e.1.lane, c.1, c.2, if c.1 = 0x02 then s.cur.va else e.1.va⟩ : Raise)
    | _ => raiseOf s.cur.va e
  match bad with
  | r :: rs => s.raiseAll uniform (r :: rs)
  | [] =>
    let ps := cs.filterMap placedOf
    let fs := (cs.filter isFault).map fun e => (e.1.lane, e.1.va.toNat)
    if s.mustWait true ps || Config.maxRequests < s.outstanding s.cur.core + ps.length then s.turnAway
    else
      let s1 := ps.foldl (fun s p =>
        s.storeOne w n (if uniform then s.cur.lanes else 1#128 <<< p.1.lane) p) ((s.keepWalks ps).advance)
      let stay := if uniform && !fs.isEmpty then s.lanes else fs.map (·.1)
      let s2 := s1.mapWeft s.key fun z => z.eachLane stay fun _ x => { x with pc := s.cur.va }
      if uniform then s2.parkUniform 1 (w.tnum.getD 0) fs else s2.parkLanes 1 (w.tnum.getD 0) fs

/-! ### Order within a lane (R103 to R108) -/

/-- Bytes of a request's operand at its target; a barrier object has 16 (R282). -/
def Req.span (r : Req) : Nat :=
  match r.op with
  | .bara | .barw => 16
  | _ => max 1 r.size

/-- Accesses of cells that R114 leaves without order against the lane's other accesses. -/
def Req.onCells (r : Req) : Bool :=
  match r.op, r.parts with
  | .cadd, _ | .clrc, _ => true
  | _, p :: _ => (match p.tgt with | .cell _ _ | .peerCell _ _ => true | _ => false)
  | _, [] => false

/-- An older access of the lane to bytes of [t, t + n) that has not been satisfied, or whose page is not
known yet. Adds, clears and loads of cells are ordered against nothing of their lane (R114). -/
def State.olderOpen (s : State) (r : Req) (p : Part) (n : Nat) : Bool :=
  !r.onCells && s.reqs.any fun q => q.key = r.key && q.id < r.id && q.op.isAccess && q.op != .store && !q.satisfied &&
    !q.onCells && q.parts.any fun y => y.lane = p.lane && (y.meets q.span p n || meets y.va q.span p.va n)

/-- Entries of the weft's Store Queues that a part must wait for or may take its bytes from (R103). An SO load takes its
bytes at the Home alone (R106). -/
def State.forward (s : State) (r : Req) (p : Part) : Option (Option (List Byte)) :=
  let es := s.overlaps r.key r.id p r.size
  if es.isEmpty then some none
  else
    match (es.filter fun e => e.lane = p.lane).getLast? with
    | some e =>
      let a := p.tgt.base
      let b := e.tgt.base
      if !r.acq && r.op != .ldtag && !p.tgt.isSo && b ≤ a && a + r.size ≤ b + e.bytes.length then
        some (some ((e.bytes.drop (a - b)).take r.size))
      else none
    | none => none

/-- No order of the lane delays the access: R103, R104, R108. -/
def State.clearToGo (s : State) (r : Req) : Bool :=
  r.parts.all fun p =>
    (p.tgt.isUo || !s.acquirePending r.key p.lane r.id) && !s.olderOpen r p r.span && (s.forward r p).isSome

/-- A word that acts at its issue on n bytes of a target, for its lowest issuing lane, comes after the lane's acquires,
its older accesses to those bytes and the weft's stores to them (R103, R104, R108). -/
def State.actsNow (s : State) (lane va : Nat) (t : Tgt) (n : Nat) : Bool :=
  let p : Part := { lane := lane, va := va, x := 0, y := 0, val := 0, reg := 0, tgt := t }
  let r := s.newReq (s.agent s.key lane) (.load false) n [p] .none
  !s.acquirePending s.key lane s.nextId && !s.olderOpen r p n && (s.overlaps s.key s.nextId p n).isEmpty

/-! ### What has performed (R101, R107, R110) -/

/-- The request's store still stands in its Store Queue. -/
def State.queued (s : State) (r : Req) : Bool := (s.weft r.key).sq.any fun e => e.req = r.id

/-- The access has performed to a scope (R101): its value is fixed, or its store has drained; a wide scope
asks for the Home too, which for RC bytes is the view's write-back, asked for apart. -/
def State.performedTo (s : State) (r : Req) (wide : Bool) : Bool :=
  match r.op with
  | .store => !s.queued r && (!wide || r.parts.all fun p => p.y = 0)
  | _ => r.satisfied

/-- Older accesses of a lane that a release waits for: all but UO ones (R107, R109). -/
def State.olderDone (s : State) (key lane id : Nat) (wide uoToo : Bool) : Bool :=
  s.reqs.all fun r => !(r.key = key && r.id < id && r.op.isAccess && r.parts.any fun p => p.lane = lane) ||
    (!uoToo && r.parts.all fun p => p.tgt.isUo) || s.performedTo r wide

/-- A release of a lane may perform to a scope (R107). -/
def State.releaseReady (s : State) (key lane id scope : Nat) : Bool :=
  let wide := s.wide key scope
  s.olderDone key lane id wide false && (!wide || s.written (key / 64) false)

end Sys2Proof.Machine
end

