-- ==== Sys2Proof/Machine/MemInstr.lean ====
section
/-!
DEFINITION. Loads, stores, tags, atomics, cells, fences, prefetch, pins, cache maintenance and WAITC (OPC A0
to B0): R269 to R280. What a request does later is in Ordering and Promise.
-/
namespace Sys2Proof.Machine

/-- The accesses of a word: one for each lane that makes one. -/
def State.accesses (s : State) (w : MemW) (uniform : Bool) (x y : Nat → Nat) : List Access :=
  (s.makers w.ctl uniform).map fun l => ⟨l, s.ea w l, x l, y l⟩

/-! ### Loads and stores (R269, R270) -/

def State.loadIssue (s : State) (w : MemW) (uniform : Bool) : State :=
  s.issueReqs w (.load (tySigned w.ty.toNat)) w.bytes w.bytes w.bytes .read uniform (!uniform)
    (s.accesses w uniform (fun _ => 0) fun _ => 0)

def State.storeIssue (s : State) (w : MemW) (uniform : Bool) : State :=
  s.issueStores w w.bytes uniform
    (s.accesses w uniform (fun l => s.storeData l w.b w.ty.toNat w.bytes) fun _ => 0)

def execLd (w : MemW) (s : State) : Out := .next (s.loadIssue w false)
def execSt (w : MemW) (s : State) : Out := .next (s.storeIssue w false)
def execLdu (w : MemW) (s : State) : Out := .next (s.loadIssue w true)
def execStu (w : MemW) (s : State) : Out := .next (s.storeIssue w true)

/-! ### Tags (R271) -/

/-- A tag as LDTAG shows it: format byte above scale byte. STTAG writes the low 16 bits of x. -/
def tagBad (x : Nat) : Bool := x.testBit 15 || 5 ≤ bits x 12 3

def execLdtag (w : MemW) (s : State) : Out :=
  .next (s.issueReqs w .ldtag 64 64 1 .ldtag false false (s.accesses w false (fun _ => 0) fun _ => 0))

/-- STTAG traps on host memory (R32) and, in every lane, on a bad format byte (R34). The order of a bad format byte
against the traps of its address is the model's (assumption 75), and so is that a recoverable fault makes its time
register FAULT, as an atomic's, and parks no lane (assumption 76). -/
def execSttag (w : MemW) (s : State) : Out :=
  let xs := s.accesses w false (fun l => s.val l w.b 5 % 2 ^ 16) fun _ => 0
  let bad := (s.checks 64 64 .sttag xs).filterMap fun e =>
    match e.2 with
    | .ok (.mem pa _) _ =>
      if tagBad e.1.x then some (⟨e.1.lane, 0x02, 48, s.cur.va⟩ : Raise)
      else if isHost pa then some ⟨e.1.lane, 0x06, 2, e.1.va⟩ else none
    | .ok _ _ => if tagBad e.1.x then some ⟨e.1.lane, 0x02, 48, s.cur.va⟩ else none
    | _ => raiseOf s.cur.va e
  match bad with
  | r :: rs => .next (s.raise (r :: rs))
  | [] => .next (s.issueReqs w .sttag 64 64 1 .sttag false false xs)

/-! ### Atomics and compare-and-swap (R272, R273) -/

/-- New value of an ATOM on w bits (R272). -/
def atomNew (f ty w old x : Nat) : Nat :=
  if f = 0 then (old + x) % 2 ^ w
  else if f = 1 then opMin (tySigned ty) w old x
  else if f = 2 then opMax (tySigned ty) w old x
  else if f = 3 then old &&& x
  else if f = 4 then old ||| x
  else if f = 5 then old ^^^ x
  else x

def State.atomIssue (s : State) (w : MemW) (op : ReqOp) (uniform : Bool) : State :=
  let ty := w.ty.toNat
  s.issueReqs w op w.bytes w.bytes w.bytes .atom uniform false
    (s.accesses w uniform (fun l => s.val l w.b ty) fun l =>
      match w.dst with | .v n => s.groupVal l (.v n 0 0) w.bytes | _ => 0)

def execAtom (w : MemW) (s : State) : Out := .next (s.atomIssue w (.atom w.subop.toNat) false)
def execAtomu (w : MemW) (s : State) : Out := .next (s.atomIssue w (.atom w.subop.toNat) true)
def execCas (w : MemW) (s : State) : Out := .next (s.atomIssue w .cas false)

/-! ### Cells (R274) -/

def execCadd (w : MemW) (s : State) : Out :=
  .next (s.issueReqs w .cadd 32 32 w.bytes .cadd false false
    (s.accesses w false (fun l => s.val l w.b w.ty.toNat) fun _ => 0))

/-- A range of n cells at VA in pieces, none of which leaves its 64 KiB: VA and cells of each. -/
def clrcPieces (va n : Nat) : List (Nat × Nat) :=
  (List.range ((va % 65536 + 32 * n + 65535) / 65536)).map fun i =>
    let a := if i = 0 then va else align va 65536 + 65536 * i
    let e := min (va + 32 * n) (align va 65536 + 65536 * (i + 1))
    (a, (e - a) / 32)

/-- The whole range of a CLRC is checked (R274): the first piece that fails decides. -/
def State.clrcCheck (s : State) (lane va : Nat) (n : Nat) : List (Access × Check) :=
  (clrcPieces va n).map fun p =>
    let x : Access := ⟨lane, BitVec.ofNat 64 p.1, p.2, 2 ^ p.2 - 1⟩
    (x, s.check (s.agent s.key lane) x.va 32 (32 * p.2) .clrc)

/-- Is a CLRC lane's outcome decided by a failed piece before any that faults? -/
def firstFail : List (Access × Check) → Option (Access × Check)
  | [] => none
  | e :: es => (match e.2 with | .ok _ _ => firstFail es | _ => some e)

/-- A lane's CLRC becomes one request over its pieces, or a fault. -/
def State.clrcLane (s : State) (w : MemW) (lane n : Nat) (cs : List (Access × Check)) : State :=
  if n = 0 then
    ({ s with nextId := s.nextId + 1 } : State).takeT (s.reqFor w .clrc 32 false
      [s.part w ⟨lane, 0, 0, 0⟩ (unplaced 0)]) stDone (s.core s.cur.core).cyc
  else
    match firstFail cs with
    | some e =>
      let r := { s.reqFor w .clrc 32 false (cs.map fun c => s.part w c.1 (unplaced c.1.va.toNat)) with phase := .fault }
      ((s.addReq r).takeT r stOpen r.issued).newFault (s.agent s.key lane) 3 e.1.va.toNat s.cur.slot (w.tnum.getD 0)
        (1#128 <<< lane) (.reqs [r.id])
    | none =>
      let ps := cs.filterMap placedOf
      (s.keepWalks ps).placeAll (s.groupReqs w .clrc 32 false [ps])

def execClrc (w : MemW) (s : State) : Out :=
  let ls := s.active w.ctl
  let n := fun l => s.val l w.b 5
  let cs := fun l => s.clrcCheck l (s.ea w l).toNat (n l)
  let bad := ls.filterMap fun l =>
    if 65536 < n l then some (⟨l, 0x02, 48, s.cur.va⟩ : Raise)
    else if n l = 0 then
      raiseOf s.cur.va (⟨l, s.ea w l, 0, 0⟩, s.check (s.agent s.key l) (s.ea w l) 32 32 .clrc)
    else (firstFail (cs l)).bind (raiseOf s.cur.va)
  match bad with
  | r :: rs => .next (s.raise (r :: rs))
  | [] =>
    if Config.maxRequests < s.outstanding s.cur.core + (ls.filter fun l => n l ≠ 0).length then .next s.turnAway
    else .next (ls.foldl (fun t l => t.clrcLane w l (n l) (cs l)) s.advance)

/-! ### Fences (R275, R110) -/

/-- Every older engine command of the lane has reached its fence point (R117): puts filled, fold requests
done, mirrored stores acknowledged at DIE and wider, command stores accepted. -/
def State.enginesPast (s : State) (key lane scope : Nat) : Bool :=
  s.reqs.all fun r => !(r.key = key && r.parts.any fun p => p.lane = lane) ||
    (match r.op, r.parts with
     | .rput _, _ => r.satisfied
     | .fld _ _ _ _, _ => false
     | .store, p :: _ =>
       (match p.tgt with
        | .fold _ _ _ => !s.queued r && (scope < 3 || p.y = 0)
        | .aperture _ => false
        | _ => true)
     | _, _ => true)

/-- The fence of a lane waits (R110): at WEFT and CORE for draining only; otherwise for every older access
to perform to the scope, for the write-backs of R51 and for the engines. -/
def State.fenceWaits (s : State) (key lane scope : Nat) : Bool :=
  let id := s.nextId
  if scope = 0 ∨ scope = 2 then (s.weft key).sq.any fun e => e.lane = lane
  else
    let sys := scope = 5
    let wide := s.wide key scope
    !(s.olderDone key lane id wide sys && s.enginesPast key lane scope &&
      (!wide || s.written (key / 64) sys)) ||
    (s.reqs.any fun r => r.key = key && r.parts.any (fun p => p.lane = lane) &&
      (match r.op with | .gadd _ => true | .cmo _ => true | _ => false))

/-- The FENCE stays at its instruction until every executing lane's conditions hold, then carries out the
acquire action of its scope (R51). -/
def execFence (w : MemW) (s : State) : Out :=
  let ls := s.active w.ctl
  let scope := w.scope.toNat
  .next <|
    if ls.any fun l => s.fenceWaits s.key l scope then s.turnAway
    else if ls.isEmpty || !s.wide s.key scope then s.advance
    else s.advance.acquireDrop s.cur.core (scope = 5)

/-! ### Prefetch, pins and cache maintenance (R276 to R278) -/

/-- The translation of an access that never traps (R276): none where any rule refuses it. -/
def State.softTarget (s : State) (g : Agent) (va : Nat) : Option (Tgt × WalkRes) :=
  if 2 ^ 52 ≤ va || bits va 48 4 = 0xF then none
  else
    match s.checkLeaf g va 1 .pin (s.walk g.core g.asid va) with
    | .ok t w => some (t, w)
    | _ => none

/-- The line of a page that PREF and CMO act on: RC or UO memory of this device. -/
def lineOf : Tgt → Option Nat
  | .mem _ .so => none
  | .mem pa _ => some (align (local46 pa) 128)
  | _ => none

/-- A word that makes a request of a line, or completes at once without one (R80). -/
def State.lineReq (s : State) (w : MemW) (op : ReqOp) (x : Access) (t : Option (Tgt × WalkRes)) : State :=
  match t with
  | some (t, wk) => (s.keepWalk s.cur.core wk).placeAll (s.groupReqs w op 1 false [[(x, t, wk)]])
  | none =>
    ({ s with nextId := s.nextId + 1 } : State).takeT (s.reqFor w op 1 false [s.part w x (unplaced x.va.toNat)])
      stDone (s.core s.cur.core).cyc

/-- Lanes of a word that make a request of a line, none of which traps. -/
def State.lineReqs (s : State) (w : MemW) (op : ReqOp) (ls : List Nat)
    (t : Nat → Option (Tgt × WalkRes)) : State :=
  if Config.maxRequests < s.outstanding s.cur.core + (ls.filter fun l => (t l).isSome).length then s.turnAway
  else (ls.map fun l => (⟨l, s.ea w l, 0, 0⟩ : Access)).foldl (fun s x => s.lineReq w op x (t x.lane)) s.advance

def execPref (w : MemW) (s : State) : Out :=
  let t := fun l => match s.softTarget (s.agent s.key l) (s.ea w l).toNat with
    | some (t, wk) =>
      (match t, lineOf t with
       | .mem pa _, some line =>
         if isHost pa && !s.l2Has (s.agent s.key l).asid line then none else some (t, wk)
       | _, _ => none)
    | none => none
  .next (s.lineReqs w .pref (s.active w.ctl) t)

/-- LCK's check (R277): a window address is not pinnable and does not trap. -/
def State.lckCheck (s : State) (g : Agent) (ea : Word) : Check :=
  if 2 ^ 52 ≤ ea.toNat then .trap 0x06 0
  else if bits ea.toNat 48 4 = 0xF then .ok (unplaced ea.toNat) .recov
  else s.checkLeaf g ea.toNat 1 .pin (s.walk g.core g.asid ea.toNat)

def execLck (w : MemW) (s : State) : Out :=
  let cs := (s.accesses w false (fun _ => 0) fun _ => 0).map fun x => (x, s.lckCheck (s.agent s.key x.lane) x.va)
  let op : ReqOp := .lck (w.scope = 3)
  match cs.filterMap (raiseOf s.cur.va) with
  | r :: rs => .next (s.raise (r :: rs))
  | [] =>
    let ps := cs.filterMap placedOf
    if Config.maxRequests < s.outstanding s.cur.core + cs.length then .next s.turnAway
    else
      .next ((((s.keepWalks ps).advance).placeAll (s.groupReqs w op 1 false (ps.map ([·])))).faultReqs w op 1 .pin
        false ((cs.filter isFault).map (·.1)))

/-- Where the line that a target lies in stands in pins (R70). -/
def pinLine : Tgt → Option Nat
  | .mem _ .so | .peer _ .so => none
  | .mem pa _ => some (align (local46 pa) 128)
  | .peer pa _ => some (align (2 ^ 54 + pa) 128)
  | _ => none

/-- ULCK of a line by a context at a level (R71). -/
def State.unpin (s : State) (core ctx line : Nat) (l2 : Bool) : State :=
  let mine := fun p : Pin => p.line = line && p.ctx = ctx
  if l2 then
    (if s.l2pins.any mine then
       ({ s with l2pins := s.l2pins.filter fun p => !mine p } : State).mapCtx ctx fun x => { x with adds := x.adds ++ [3] }
     else s)
  else s.mapCore core fun c => { c with pins := c.pins.filter fun p => !mine p }

def execUlck (w : MemW) (s : State) : Out :=
  let ls := s.active w.ctl
  let cs := ls.map fun l => ((⟨l, s.ea w l, 0, 0⟩ : Access), s.lckCheck (s.agent s.key l) (s.ea w l))
  let bad := cs.filterMap fun e => if bits e.1.va.toNat 48 4 = 0xF || 2 ^ 52 ≤ e.1.va.toNat ||
      (match s.walk s.cur.core (s.agent s.key e.1.lane).asid e.1.va.toNat with | .ok _ _ => false | _ => true)
    then none else raiseOf s.cur.va e
  match bad with
  | r :: rs => .next (s.raise (r :: rs))
  | [] => .next (cs.foldl (fun t e => match e.2 with
      | .ok x _ =>
        (match pinLine x with
         | some line => t.unpin s.cur.core (s.ctxOf s.key) line (w.scope = 3)
         | none => t)
      | _ => t) s.advance)

def execCmo (w : MemW) (s : State) : Out :=
  let t := fun l => match s.softTarget (s.agent s.key l) (s.ea w l).toNat with
    | some (t, wk) =>
      (match lineOf t with
       | some line => if (s.core s.cur.core).holdsLine line then some (t, wk) else none
       | none => none)
    | none => none
  .next (s.lineReqs w (.cmo w.subop.toNat) (s.active w.ctl) t)

/-! ### Waiting on a memory word (R279) -/

def execWaitc (w : MemW) (s : State) : Out :=
  .next (s.issueReqs w (.waitc w.subop.toNat) w.bytes w.bytes w.bytes .waitc false false
    (s.accesses w false (fun l => s.val l w.b w.ty.toNat) fun _ => 0))

end Sys2Proof.Machine
end

