-- ==== Sys2Proof/Machine/Sync.lean ====
section
/-!
DEFINITION. Barriers, team registers, rings and folds (OPC B1 to C7): R281 to R288, R116, R127 to R139.
-/
namespace Sys2Proof.Machine

/-- A value into s(n) outside the result path of R212: memory and engine words push nothing. -/
def State.sendS (s : State) (dst : Dst) (y : Nat) : State :=
  match dst with
  | .s n => s.mapWeft s.key fun w => w.writeS n (BitVec.ofNat 64 y)
  | _ => s

/-- A class-U word whose z predicate is false does nothing (R314, R205). -/
def State.skipped (s : State) (c : Ctl) : Bool := !ctlHoldsU c s.cw

/-- A 64-bit operand of a class-U word, read for its lowest issuing lane. -/
def State.word (s : State) (src : Src) : Nat := s.raw s.lead src (src.kind = 1)

/-- A 32-bit operand of a class-U word. -/
def State.half (s : State) (src : Src) : Nat := s.raw s.lead src false % 2 ^ 32

/-! ### The team barrier (R281) -/

/-- The lanes of the decision arrive and are held; the arrival counts once for a weft in a phase. -/
def State.arrive (s : State) : State :=
  let t := s.cw.team
  let i := s.cw.index
  let s1 := s.passThen s.lanes fun _ _ x => { x with wait := .barrier }
  let s2 := s1.mapWeft s.key fun w => { w with phgo := w.phgo &&& ~~~s.cur.lanes }
  (s2.mapTeam t fun tm =>
    { tm with arrived := if tm.arrived.contains i then tm.arrived else tm.arrived ++ [i] }).testBarrier t

def execBar (w : MemW) (s : State) : Out :=
  .next <|
    if s.skipped w.ctl then s.advance
    else if s.lanes.all fun l => s.releaseReady s.key l s.nextId 1 then s.arrive
    else s.turnAway

/-! ### Barrier objects (R282, R283) -/

/-- BARA and BARW make one request of the object for the weft's lowest issuing lane. -/
def State.barIssue (s : State) (w : MemW) (op : ReqOp) (acq rel : Bool) : State :=
  s.issueReqs { w with ord := BitVec.ofNat 2 (acq.toNat + 2 * rel.toNat) } op 16 16 8 .bar true false
    (s.accesses w true (fun _ => s.half w.b) fun _ => 0)

def execBara (w : MemW) (s : State) : Out :=
  .next (if s.skipped w.ctl then s.advance else s.barIssue w .bara false true)

def execBarw (w : MemW) (s : State) : Out :=
  .next (if s.skipped w.ctl then s.advance else s.barIssue w .barw true false)

/-- bari of R283: the object afterwards. STRAY and the ignored bits stay. -/
def bariObj (obj x : Nat) : Nat :=
  let gen := (bits obj 48 16 + 1) % 2 ^ 16
  setBits obj 0 64 (gen * 2 ^ 48 + x % 2 ^ 16 * 2 ^ 32)

def execBari (w : MemW) (s : State) : Out :=
  let x := s.word w.b
  let ea := s.ea w s.lead
  .next <|
    if s.skipped w.ctl then s.advance
    else if x = 0 ∨ 65535 < x then s.raiseAt 0x02 48
    else match s.check (s.agent s.key s.lead) ea 16 16 .bar with
      | .trap c sub => s.raiseU c sub (if c = 0x02 then s.cur.va else ea)
      | .ok t _ =>
        if !s.actsNow s.lead ea.toNat t 16 then s.turnAway
        else
          let g := s.agent s.key s.lead
          let obj := bariObj (leNat (s.homeRead g t 16)) x
          (s.advance.homeWrite g.asid t (leBytes 16 obj)).sendS w.dst (bits obj 48 16 * 2 ^ 16)
      | .recov => s.turnAway

/-! ### Team registers (R116, R284) -/

/-- A write at the Home by a weft of an index in a cycle of the Home, with its propagation to every copy (R116). -/
def Team.writeG (t : Team) (n : Nat) (y : Word) (cyc index : Nat) (add : Bool) : Team :=
  { t with g := put n y t.g, gq := t.gq ++ t.cores.map fun c => (c, n, y), gLast := put n (cyc, index, add) t.gLast }

/-- The cycle at the Home of a team's registers, on its first core (R284). -/
def State.gCycle (s : State) (team : Nat) : Nat := (s.core ((s.team team).cores.headD 0)).cyc

/-- A register has been written in this cycle by a weft of a higher index: whether by a GADD (R116). -/
def State.gBehind (s : State) (team n index : Nat) : Option Bool :=
  match look n (s.team team).gLast with
  | some l => if l.1 = s.gCycle team && index < l.2.1 then some l.2.2 else none
  | none => none

def State.gaddPending (s : State) (key : Nat) : Bool :=
  s.reqs.any fun r => r.key = key && (match r.op with | .gadd _ => true | _ => false)

def execGget (w : MemW) (s : State) : Out :=
  .next <|
    if s.skipped w.ctl then s.advance
    else if s.gaddPending s.key then s.turnAway
    else s.advance.sendS w.dst (s.greg s.key w.a.num).toNat

/-- GSET performs at the Home as it issues: before the write of a higher index of its cycle, which then survives; a GADD
that has already read the register puts it off (R116). -/
def execGset (w : MemW) (s : State) : Out :=
  .next <|
    if s.skipped w.ctl then s.advance
    else if s.gaddPending s.key then s.turnAway
    else
      match s.gBehind s.cw.team w.dst.num s.cw.index with
      | some true => s.turnAway
      | some false => s.advance
      | none => s.advance.mapTeam s.cw.team fun t =>
          t.writeG w.dst.num (BitVec.ofNat 64 (s.val s.lead w.a 16)) (s.gCycle s.cw.team) s.cw.index false

def execGadd (w : MemW) (s : State) : Out :=
  let x : Access := ⟨s.lead, 0, s.val s.lead w.b 16, 0⟩
  .next <|
    if s.skipped w.ctl then s.advance
    else s.advance.placeLoad (s.reqFor w (.gadd w.a.num) 8 true [s.part w x (unplaced (2 ^ 52 + w.a.num))]) false

/-! ### Rings (R127 to R131, R285, R286) -/

/-- A ring target (R122): device, core NUMBER and ring, or none where it names nothing. -/
def ringTarget (t : Nat) : Option (Nat × Nat × Nat) :=
  if t / 2 ^ 22 ≠ 0 ∨ bits t 6 3 ≠ 0 ∨ 6 ≤ bits t 13 3 then none
  else some (bits t 0 6, coreOf (bits t 16 2) (bits t 13 3) (bits t 9 4), bits t 18 4)

/-- What RPUT raises in a lane. -/
def State.rputRaise (s : State) (w : MemW) (lane : Nat) : Option Raise :=
  let m := s.raw lane w.b false
  let t := s.val lane w.a 16
  if 2 ^ 32 ≤ m ∨ m.testBit 21 ∨ 512 ≤ bits m 22 10 then some ⟨lane, 0x02, 48, s.cur.va⟩
  else if (s.teamOf s.key).spad < bits m 0 21 + bits m 22 10 + 1 then
    some ⟨lane, 0x06, 1, BitVec.ofNat 64 (0xF000000000000 + bits m 0 21)⟩
  else if (ringTarget t).isNone then some ⟨lane, 0x06, 1, BitVec.ofNat 64 t⟩
  else none

/-- One put: a request OPEN until it reaches the port. Its VA field holds the target. -/
def State.rputLane (s : State) (w : MemW) (target : Nat) (x : Access) : State :=
  let r := s.reqFor w (.rput target) 4 false [s.part w x (unplaced (2 ^ 53))]
  s.placeLoad { r with rel := true } false

def execRput (w : MemW) (s : State) : Out :=
  let ls := s.active w.ctl
  .next <|
    match ls.filterMap (s.rputRaise w) with
    | r :: rs => s.raise (r :: rs)
    | [] =>
      if Config.maxRequests < s.outstanding s.cur.core + ls.length then s.turnAway
      else ls.foldl (fun t l => t.rputLane w (s.val l w.a 16)
        ⟨l, BitVec.ofNat 64 (s.val l w.a 16), s.raw l w.b false, 0⟩) s.advance

/-- The issuing team owns the ring of its core (R131). -/
def State.ownsRing (s : State) (n : Nat) : Bool := (s.ring s.cur.core n).owner = some s.cw.team

def State.rtakeLane (s : State) (w : MemW) (n lane : Nat) : State :=
  let r := s.reqFor w (.rtake n) 4 false [s.part w ⟨lane, BitVec.ofNat 64 n, 0, 0⟩ (unplaced (2 ^ 53 + 16))]
  s.placeLoad { r with acq := true } false

def execRtake (w : MemW) (s : State) : Out :=
  let ls := s.active w.ctl
  let n := s.word w.a
  .next <|
    if ls.isEmpty then s.advance
    else if 15 < n then s.raise (ls.map fun l => ⟨l, 0x02, 32, s.cur.va⟩)
    else if !s.ownsRing n then s.raise (ls.map fun l => ⟨l, 0x06, 1, BitVec.ofNat 64 (ringVa n 0)⟩)
    else if Config.maxRequests < s.outstanding s.cur.core + ls.length then s.turnAway
    else ls.foldl (fun t l => t.rtakeLane w n l) s.advance

/-- Taken slots not yet freed (R127). -/
def Ring.taken (r : Ring) : Nat := r.count - r.filled - r.free

/-- A class-U word of a ring: its checks, then f. -/
def State.ringWord (s : State) (w : MemW) (f : Nat → State) : State :=
  let n := s.word w.a
  if s.skipped w.ctl then s.advance
  else if 15 < n then s.raiseAt 0x02 32
  else if !s.ownsRing n then s.raiseU 0x06 1 (BitVec.ofNat 64 (ringVa n 0))
  else f n

def execRdone (w : MemW) (s : State) : Out :=
  .next (s.ringWord w fun n =>
    let r := s.ring s.cur.core n
    s.advance.setRing s.cur.core n { r with free := r.free + min (s.word w.b) r.taken })

def execRstat (w : MemW) (s : State) : Out :=
  .next (s.ringWord w fun n =>
    let r := s.ring s.cur.core n
    s.advance.sendS w.dst (r.putIdx * 2 ^ 48 + r.takeIdx * 2 ^ 32 + r.free * 2 ^ 16 + r.filled))

/-! ### Folds (R133 to R139, R287, R288) -/

/-- The fold of the issuing core's die. -/
def State.foldKey (s : State) (f : Nat) : Nat := 64 * dieOf s.cur.core + f

/-- A class-U word of a fold: the number is checked, then f. -/
def State.foldWord (s : State) (w : MemW) (f : Nat → State) : State :=
  let n := s.word w.a
  if s.skipped w.ctl then s.advance
  else if 63 < n then s.raiseAt 0x02 32
  else f n

/-- A core joins a fold (R134): the status and the fold. -/
def Fold.join (f : Fold) (tenant asid core : Nat) : Nat × Fold :=
  if !f.bound || f.tenant ≠ tenant || f.asid ≠ asid then (3, f)
  else if f.members.any fun m => m.1 = core then (1, f)
  else if 32 ≤ f.members.length then (2, f)
  else (0, { f with members := f.members ++ [(core, f.delivered)] })

/-- A core leaves a fold: mirrored stores not yet delivered to it will not be, and it owes no acknowledgement (R138). -/
def Fold.leave (f : Fold) (core : Nat) : Fold :=
  { f with
    members := f.members.filter fun m => m.1 != core
    window := f.window.map fun w => { w with
      owed := w.owed.map fun m => if m = core then 1024 + m else m, unacked := w.unacked.filter (· != core) } }

def execFjoin (w : MemW) (s : State) : Out :=
  .next (s.foldWord w fun n =>
    let k := s.foldKey n
    let g := s.agent s.key s.lead
    let j := (s.fold k).join g.tenant g.asid s.cur.core
    let note : Team → Team := fun t => if j.1 = 0 then { t with folds := t.folds ++ [512 * k + s.cur.core] } else t
    ((s.advance.setFold k j.2).mapTeam s.cw.team note).sendS w.dst j.1)

/-- A fold request of the core on the fold is outstanding (R134). -/
def State.foldBusy (s : State) (core key : Nat) : Bool :=
  s.reqs.any fun r => r.agent.core = core && (match r.op with | .fld f _ _ _ => f = key | _ => false)

def execFleave (w : MemW) (s : State) : Out :=
  .next (s.foldWord w fun n =>
    let k := s.foldKey n
    if s.foldBusy s.cur.core k then s.turnAway
    else (s.advance.setFold k ((s.fold k).leave s.cur.core)).mapTeam s.cw.team fun t =>
      { t with folds := t.folds.filter (· != 512 * k + s.cur.core) })

def execFset (w : MemW) (s : State) : Out :=
  .next (s.foldWord w fun n =>
    let f := s.fold (s.foldKey n)
    if !f.bound || f.tenant ≠ (s.gridOf s.key).tenant then s.raiseU 0x06 1 (BitVec.ofNat 64 n)
    else s.advance.setFold (s.foldKey n) { f with timer := s.half w.b })

/-- What FLD raises: field rules, the VA, membership, the destination (R135, R288). -/
def State.fldRaise (s : State) (w : MemW) : Option (Nat × Nat × Word) :=
  let va := s.ea w s.lead
  let d := s.word w.b
  let len := bits d 21 17
  let off := bits d 0 21
  let n := w.subop.toNat
  if va.toNat % 64 ≠ 0 then some (0x02, 32, s.cur.va)
  else if d / 2 ^ 38 ≠ 0 ∨ off % 64 ≠ 0 ∨ len % 64 ≠ 0 ∨ 65536 < len then some (0x02, 48, s.cur.va)
  else if len ≠ 0 ∧ 2 ^ 52 ≤ va.toNat then some (0x06, 0, va)
  else if len ≠ 0 ∧ bits va.toNat 48 4 = 0xF then some (0x06, 1, va)
  else if !((s.fold (s.foldKey n)).members.any fun m => m.1 = s.cur.core) then some (0x13, 0, BitVec.ofNat 64 n)
  else if (s.teamOf s.key).spad < off + len then some (0x06, 1, BitVec.ofNat 64 (0xF000000000000 + off))
  else none

/-- The number of the core's next request on a fold, and the fold once it is taken (R135). -/
def Fold.nextRound (f : Fold) (core : Nat) : Nat × Fold :=
  (((f.members.find? fun m => m.1 = core).map (·.2)).getD 0,
   { f with members := f.members.map fun m => if m.1 = core then (m.1, m.2 + 1) else m })

def execFld (w : MemW) (s : State) : Out :=
  .next <|
    if s.skipped w.ctl then s.advance
    else match s.fldRaise w with
      | some r => s.raiseU r.1 r.2.1 r.2.2
      | none =>
        let k := s.foldKey w.subop.toNat
        let d := s.word w.b
        let j := (s.fold k).nextRound s.cur.core
        let x : Access := ⟨s.lead, s.ea w s.lead, d, 0⟩
        let r := s.reqFor w (.fld k (bits d 0 21) (bits d 21 17) j.1) 1 true [s.part w x (unplaced (2 ^ 53 + 17))]
        (s.advance.setFold k j.2).placeLoad r false

end Sys2Proof.Machine
end

