-- ==== Sys2Proof/Machine/Loom.lean ====
section
/-!
DEFINITION. Chunk waits, the loom and its tiles, declared bursts and the enqueuing of tile tasks (OPC D0 to
DC): R316 to R328, R144, R184, R196 to R199.
-/
namespace Sys2Proof.Machine

/-- A field of an engine word's extension, by its bit in the word (R315). -/
def fieldOf (w : EngW) (lo n : Nat) : Nat := bits w.ext.toNat (lo - 64) n

/-! ### Chunk waits (R316) -/

/-- The bitmap word lies in the allocation, or the trap that a word beyond it gives. -/
def State.chunkWord (s : State) (off : Nat) : Option Nat :=
  if (s.teamOf s.key).spad < off + 8 then none
  else some (mnum (s.core s.cur.core).spad (s.spbase s.key + off) 8)

/-- LOCAL target of the issuing team. -/
def State.localTgt (s : State) (off : Nat) : Tgt := .spad s.cur.core (s.spbase s.key + off)

/-- CHKW stays at its instruction until the bits are set; it then takes the acquire action of its scope (R108, R316). -/
def execChkw (w : EngW) (s : State) : Out :=
  let off := fieldOf w 64 21
  let m := s.word w.a
  let scope := fieldOf w 104 3
  .next <|
    if s.skipped w.ctl then s.advance
    else match s.chunkWord off with
      | none => s.raiseU 0x06 1 (BitVec.ofNat 64 (0xF000000000000 + off))
      | some x =>
        if !s.actsNow s.lead (0xF000000000000 + off) (s.localTgt off) 8 then s.turnAway
        else if (x &&& m) = m then
          (if s.wide s.key scope then s.advance.acquireDrop s.cur.core false else s.advance)
        else (s.mapWeft s.key fun z => { z with hold := .chkw off (BitVec.ofNat 64 m) scope }).endDecision

/-- CHKT is a plain load of the bitmap word (R117, R316): one request of the weft, whose answer lands in a p register of
every issuing lane or in a z register. -/
def execChkt (w : EngW) (s : State) : Out :=
  let off := fieldOf w 64 21
  let va := 0xF000000000000 + off
  let p : Part := { lane := s.lead, va := va, x := 0, y := 0, val := 0, reg := 0, tgt := s.localTgt off }
  let r := { s.newReq (s.agent s.key s.lead) (.chkt (s.word w.a)) 8 [p] (reqDst w.dst) with lanes := s.cur.lanes }
  .next <|
    if s.skipped w.ctl then s.advance
    else if (s.chunkWord off).isNone then s.raiseU 0x06 1 (BitVec.ofNat 64 va)
    else s.advance.placeLoad r.alone false

/-! ### Tiles (R43, R183, R184) -/

/-- Errors of accumulator elements, less those of an M × N region that is written anew (R73). -/
def clearBad (tile m n : Nat) (t : Tab Nat) : Tab Nat :=
  t.filter fun e => !(e.1 / 1024 = tile && e.1 % 1024 / 32 < m && e.1 % 32 < n)

/-- The owner check of a use of a tile: none where another context owns it; a free tile is claimed, filled
with +0. -/
def State.useTile (s : State) (core ctx tile : Nat) : Option State :=
  let o := lookD tile (0 : Word) (s.core core).acown
  if !o.getLsbD 63 then
    some (s.mapCore core fun c =>
      { c with acown := put tile (BitVec.ofNat 64 (2 ^ 63 + ctx % 2 ^ 16)) c.acown,
               acc := c.acc.filter fun e => !(e.1 / 1024 = tile),
               accBad := clearBad tile 32 32 c.accBad })
  else if o.toNat % 2 ^ 16 = ctx then some s
  else none

/-- A use of a tile by the issuing weft, or ACFIRST. -/
def State.onTile (s : State) (tile : Nat) (f : State → State) : State :=
  match s.useTile s.cur.core (s.ctxOf s.key) tile with
  | some t => f t
  | none => s.raiseU 0x0C 0 (BitVec.ofNat 64 tile)

/-- The loom is in service from stage 5 on (R362). -/
def State.loomOut (s : State) : Bool := s.hub.stage < 5

/-- Entries queued or running on a core's loom. -/
def Core.loomOps (c : Core) : List MmaOp :=
  c.loomRun.toList ++ c.loomq.filterMap fun e => match e with | .mma o => some o | .oprdy _ _ => none

/-- The tile is named by an entry whose AWAIT has not come (R118). -/
def Core.tilePending (c : Core) (tile : Nat) : Bool := (c.loomOps ++ c.loomDone).any fun o => o.tile = tile

/-- A write of a tile between an entry's acceptance and its AWAIT leaves the tile undefined (R118). -/
def State.tileWritten (s : State) (core tile : Nat) : State :=
  if (s.core core).tilePending tile then
    (s.freeTile core tile 32 32).taintLoom core fun o => o.tile = tile
  else s

/-- An element as a reader outside the loom queue sees it: undefined while an entry on the tile is open (R118), or where
it has an uncorrectable error (assumption 65). -/
def State.element (s : State) (core tile i j : Nat) : Nat :=
  let k := accKey tile i j
  if (s.core core).tilePending tile || (look k (s.core core).accBad).isSome then (s.anyBits 32 (8 * k + 7)).toNat
  else (lookD k (0 : W32) (s.core core).acc).toNat

/-! ### Matrix instructions (R317 to R321) -/

/-- The operands of an MMA or MMAS as it is accepted. -/
def State.mmaOp (s : State) (w : EngW) (mem : Bool) (faults : List Nat) : MmaOp :=
  let base := if mem then 0 else s.spbase s.key
  let d := (s.cw.sreg w.dst.num).toNat
  { agent := s.agent s.key s.lead, lanes := s.cur.lanes, tag := fieldOf w 103 3, tile := fieldOf w 64 6, m := fieldOf w 70 6,
    n := fieldOf w 76 6, k := fieldOf w 82 16, fa := fieldOf w 98 2, fb := fieldOf w 100 2,
    zero := w.ext.getLsbD 38, fromMem := mem, a := base + s.word w.a, b := base + s.word w.b,
    lda := d % 2 ^ 32, ldb := d / 2 ^ 32, fmt := (s.block s.cur.core (s.ctxOf s.key)).fmt, faults := faults, taint := false }

/-- Alignment of an operand's base and stride (R318): 4, or 64 for the narrow formats. -/
def mmaAlign (code : Nat) : Nat := if code ≤ 1 then 4 else 64

/-- The data-dependent field checks of R318. -/
def mmaBad (o : MmaOp) (a b : Nat) : Option Nat :=
  if o.lda % mmaAlign o.fa ≠ 0 ∨ o.ldb % mmaAlign o.fb ≠ 0 then some 23
  else if a % mmaAlign o.fa ≠ 0 then some 32
  else if b % mmaAlign o.fb ≠ 0 then some 48
  else none

/-- Accept an entry at the end of the loom queue. -/
def State.acceptLoom (s : State) (e : LoomEntry) : State :=
  s.advance.mapCore s.cur.core fun c => { c with loomq := c.loomq ++ [e] }

def State.loomFull (s : State) : Bool := 8 ≤ (s.core s.cur.core).loomq.length

/-- A store of the issuing weft to its own scratchpad is still queued. -/
def State.ownQueued (s : State) : Bool :=
  s.cw.sq.any fun e => match e.tgt with | .spad c _ => c = s.cur.core | _ => false

def execMma (w : EngW) (s : State) : Out :=
  let o := s.mmaOp w false []
  let base := s.spbase s.key
  .next <|
    if s.skipped w.ctl then s.advance
    else if s.loomOut then s.raiseAt 0x14 2
    else match mmaBad o (s.word w.a) (s.word w.b) with
      | some b => s.raiseAt 0x02 b
      | none =>
        match o.rows.find? fun r => (s.teamOf s.key).spad < r.1 - base + r.2 with
        | some r => s.raiseU 0x06 1 (BitVec.ofNat 64 (0xF000000000000 + (r.1 - base)))
        | none => s.onTile o.tile fun t => if s.loomFull || s.ownQueued then s.turnAway else t.acceptLoom (.mma o)

/-- The pages of MMAS operands: the VA of each row's first byte and of every 64 KiB it enters. -/
def MmaOp.pages (o : MmaOp) : List Nat :=
  (o.rows.flatMap fun r => (List.range ((r.1 % 65536 + r.2 + 65535) / 65536)).map fun i =>
    if i = 0 then r.1 else align r.1 65536 + 65536 * i).foldl
      (fun l va => if l.any (fun x => x / 65536 = va / 65536) then l else l ++ [va]) []

/-- The check of one operand page as a load (R320): a cell page is refused. -/
def State.pageCheck (s : State) (g : Agent) (va : Nat) : Check :=
  if 2 ^ 52 ≤ va then .trap 0x06 0
  else if bits va 48 4 = 0xF then .trap 0x06 1
  else s.checkLeaf g va 1 .block (s.walk g.core g.asid va)

def execMmas (w : EngW) (s : State) : Out :=
  let o := s.mmaOp w true []
  let cs := o.pages.map fun va => ((⟨s.lead, BitVec.ofNat 64 va, 0, 0⟩ : Access), s.pageCheck o.agent va)
  .next <|
    if s.skipped w.ctl then s.advance
    else if s.loomOut then s.raiseAt 0x14 2
    else match mmaBad o o.a o.b with
      | some b => s.raiseAt 0x02 b
      | none =>
        match cs.filterMap (raiseOf s.cur.va) with
        | r :: _ => s.raiseU r.cause r.sub r.addr
        | [] => s.onTile o.tile fun t =>
          if s.loomFull || !s.releaseReady s.key s.lead s.nextId 3 then s.turnAway
          else
            let fs := (cs.filter isFault).map fun e => e.1.va.toNat
            fs.foldl (fun t va => t.newFault o.agent 0 va s.cur.slot 0xFE s.cur.lanes (.loom s.cur.core))
              (t.acceptLoom (.mma { o with faults := fs }))

/-- OPRDY is accepted once the weft's own scratchpad stores have drained (R321). -/
def execOprdy (w : EngW) (s : State) : Out :=
  .next <|
    if s.skipped w.ctl then s.advance
    else if s.loomOut then s.raiseAt 0x14 2
    else if s.loomFull || s.ownQueued then s.turnAway
    else s.acceptLoom (.oprdy s.cur.core s.cur.slot)

/-- Entries of a weft that carry a tag. -/
def mineWith (core slot tag : Nat) (o : MmaOp) : Bool :=
  o.agent.core = core && o.agent.slot = slot && o.tag = tag

/-- AWAIT (R322): held while an entry of its tag is open; then the first report of the tag traps. -/
def execAwait (w : EngW) (s : State) : Out :=
  let tag := fieldOf w 103 3
  let mine := mineWith s.cur.core s.cur.slot tag
  .next <|
    if s.skipped w.ctl then s.advance
    else s.onTile (fieldOf w 64 6) fun t =>
      if (s.core s.cur.core).loomOps.any mine then
        (t.mapWeft s.key fun z => { z with hold := .loom tag }).endDecision
      else
        let t1 := t.mapCore s.cur.core fun c => { c with loomDone := c.loomDone.filter fun o => !mine o }
        match look tag s.cw.reports with
        | some m =>
          (t1.mapWeft s.key fun z => { z with reports := del tag z.reports }).raiseU m.cause m.sub
            (if m.cause = 0x14 then s.cur.va else m.addr)
        | none => t1.advance

/-! ### The loom's arithmetic (R197, R198) -/

/-- An element of a narrow block by index within its row: the byte, and the low or high half of it. -/
def narrowCode (code j byte : Nat) : Nat := if code = 2 then byte else if j % 2 = 0 then byte % 16 else byte / 16

/-- Byte of element j within its row, and of the block it lies in. -/
def narrowByte (code j : Nat) : Nat := if code = 2 then j else j / 2

/-- Element j of the row at an address: its value, or the SUB of LOOMERR (R199). -/
def elementAt (rd : Nat → Nat → Nat) (tag : Nat → BitVec 16) (fmt : Tab W32) (code row j : Nat) : Except Nat Fl :=
  if code ≤ 1 then .ok ((if code = 0 then bf16Fmt else f16Fmt).decode (rd (row + 2 * j) 2))
  else
    let a := row + narrowByte code j
    let t := (tag (align a 64)).toNat
    let f := Narrow.ofReg (lookD (bits t 8 4) (0 : W32) fmt).toNat
    if bits t 12 4 ≠ 1 || f.cw != (code == 2) then .error 0
    else if !f.valid then .error 1
    else if t % 256 = 255 then .ok .nan
    else .ok ((f.decode (narrowCode code j (rd a 1))).scale ((t % 256 : Nat) - 127))

/-- group_step of R198: acc and the pairs of one group. -/
def groupStep (acc : Fl) (ps : List (Fl × Fl)) : Fl :=
  let xs := acc :: ps.map fun p => p.1.mul p.2
  if xs.any Fl.isNan then .nan
  else
    let pos := xs.any fun x => x = .inf false
    let neg := xs.any fun x => x = .inf true
    if pos && neg then .nan
    else if pos then .inf false
    else if neg then .inf true
    else
      match xs.foldl (Fl.add 0) (.fin false 0 0) with
      | .fin n m e => if m = 0 then .fin false 0 0 else f32Fmt.decode (f32Fmt.encode 0 false (.fin n m e))
      | x => x

/-- The pairs of group g, or the first error met. -/
def groupPairs (a b : Nat → Except Nat Fl) (lo : Nat) : Nat → Except Nat (List (Fl × Fl))
  | 0 => .ok []
  | n + 1 => do
    let x ← a lo
    let y ← b lo
    let r ← groupPairs a b (lo + 1) n
    .ok ((x, y) :: r)

/-- One output element: groups from lo on. -/
def elementSum (a b : Nat → Except Nat Fl) (G : Nat) : Nat → Nat → Fl → Except Nat Fl
  | 0, _, acc => .ok acc
  | n + 1, lo, acc => do
    let ps ← groupPairs a b lo G
    elementSum a b G n (lo + G) (groupStep acc ps)

/-- The whole product: the outputs in row order, or the SUB of the first error. -/
def loomProduct (rdA rdB : Nat → Nat → Nat) (tgA tgB : Nat → BitVec 16) (fmt : Tab W32)
    (m n k fa fb a b lda ldb : Nat) (acc : Nat → Nat → Fl) : Except Nat (List Nat) :=
  let G := groupSize fa fb
  (List.range (m * n)).mapM fun e => do
    let i := e / n
    let j := e % n
    let x ← elementSum (fun q => elementAt rdA tgA fmt fa (a + i * lda) q)
      (fun q => elementAt rdB tgB fmt fb (b + q * ldb) j) G (k / G) 0 (acc i j)
    .ok (f32Fmt.encode 0 false x)

/-! ### Direct access to tiles (R323, R324) -/

/-- Bytes of an element by OF: FP32, BF16; narrow codes are counted apart. -/
def tileRow (fm n : Nat) : Nat := if fm = 0 then 4 * n else if fm = 1 then 2 * n else if fm = 2 then n else (n + 1) / 2

/-- Bytes that a row of AST writes: whole blocks under TAGW. -/
def astRow (fm n : Nat) (tagw : Bool) : Nat := if tagw then 64 * ((tileRow fm n + 63) / 64) else tileRow fm n

/-- The checks of ALD and AST, then f with the LOCAL offset and stride. -/
def State.tileMove (s : State) (w : EngW) (al row : Nat) (f : Nat → Nat → State) : State :=
  let o := s.word w.a
  let d := (s.cw.sreg w.dst.num).toNat % 2 ^ 32
  let m := fieldOf w 70 6
  if s.skipped w.ctl then s.advance
  else if d % al ≠ 0 then s.raiseAt 0x02 23
  else if o % al ≠ 0 then s.raiseAt 0x02 32
  else match (List.range m).find? fun i => (s.teamOf s.key).spad < o + i * d + row with
    | some i => s.raiseU 0x06 1 (BitVec.ofNat 64 (0xF000000000000 + (o + i * d)))
    | none => f o d

/-- ALD and AST come after the acquires of their lanes and the weft's older accesses to the rows that they move (R104,
R108, R323). -/
def State.rowsFree (s : State) (o d m row : Nat) : Bool :=
  !s.ownQueued && !(s.lanes.any fun l => s.acquirePending s.key l s.nextId) &&
  (List.range m).all fun i => !(s.reqs.any fun q =>
    q.key = s.key && q.op.isAccess && q.op != .store && !q.satisfied &&
      q.parts.any fun y => meets y.tgt.base q.span (s.localTgt (o + i * d)).base row)

/-- ALD of one tile from LOCAL rows; BF16 is widened exactly, a NaN to the canonical one (R189, R191). -/
def State.aldWrite (s : State) (w : EngW) (o d : Nat) : State :=
  let core := s.cur.core
  let tile := fieldOf w 64 6
  let m := fieldOf w 70 6
  let n := fieldOf w 76 6
  let base := s.spbase s.key
  let rd := fun e =>
    let a := base + o + e / n * d
    if fieldOf w 82 2 = 0 then mnum (s.core core).spad (a + 4 * (e % n)) 4
    else f32Fmt.encode 0 false (bf16Fmt.decode (mnum (s.core core).spad (a + 2 * (e % n)) 2))
  (s.mapCore core fun c => { c with
    acc := (List.range (m * n)).foldl (fun t e =>
      put (accKey tile (e / n) (e % n)) (BitVec.ofNat 32 (rd e)) t) c.acc
    accBad := clearBad tile m n c.accBad }).tileWritten core tile

def execAld (w : EngW) (s : State) : Out :=
  let n := fieldOf w 76 6
  .next (s.tileMove w 4 (tileRow (fieldOf w 82 2) n) fun o d =>
    s.onTile (fieldOf w 64 6) fun t =>
      if s.rowsFree o d (fieldOf w 70 6) (tileRow (fieldOf w 82 2) n) then (t.aldWrite w o d).advance else s.turnAway)

/-- One element as AST stores it: scaled, rounded, or encoded (R323). -/
def astCode (fm rm : Nat) (sat : Bool) (f : Narrow) (scale x : Nat) : Nat :=
  let v := (f32Fmt.decode x).scale (127 - (scale : Int))
  if fm = 0 then f32Fmt.encode rm sat v
  else if fm = 1 then bf16Fmt.encode rm sat v
  else f.encode rm sat v

/-- The bytes of a row of n codes, padded with 0 to len bytes. -/
def packRow (fm len : Nat) (codes : List Nat) : List Byte :=
  let w := if fm = 0 then 32 else if fm = 1 then 16 else if fm = 2 then 8 else 4
  leBytes len (codes.reverse.foldl (fun a c => a * 2 ^ w + c % 2 ^ w) 0)

/-- The tag of a block that AST writes: KIND, FMT and SCALE. -/
def astTag (fm fmt scale : Nat) : Nat :=
  (if fm = 0 then 4 else if fm = 1 then 2 else 1) * 2 ^ 12 + (if fm ≤ 1 then 0 else fmt) * 2 ^ 8 + scale

def State.astWrite (s : State) (w : EngW) (o d : Nat) : State :=
  let core := s.cur.core
  let fm := fieldOf w 82 2
  let n := fieldOf w 76 6
  let tagw := w.ext.getLsbD 35
  let len := astRow fm n tagw
  let f := s.narrowOf (fieldOf w 84 4)
  (List.range (fieldOf w 70 6)).foldl (fun t i =>
    let codes := (List.range n).map fun j => astCode fm (fieldOf w 96 2) (w.ext.getLsbD 34) f (fieldOf w 88 8)
      (s.element core (fieldOf w 64 6) i j)
    let a := s.spbase s.key + o + i * d
    let t1 := t.homeWrite (s.agent s.key s.lead).asid (.spad core a) (packRow fm len codes)
    if tagw then
      (List.range (len / 64)).foldl (fun t b => t.setTag (.spad core (a + 64 * b))
        (BitVec.ofNat 16 (astTag fm (fieldOf w 84 4) (fieldOf w 88 8)))) t1
    else t1) s

def execAst (w : EngW) (s : State) : Out :=
  let fm := fieldOf w 82 2
  let f := s.narrowOf (fieldOf w 84 4)
  let tagw := w.ext.getLsbD 35
  .next <|
    if !s.skipped w.ctl && 2 ≤ fm && (!f.valid || f.cw != (fm == 2)) then s.raiseAt 0x02 84
    else s.tileMove w (if tagw then 64 else 4) (astRow fm (fieldOf w 76 6) tagw) fun o d =>
      s.onTile (fieldOf w 64 6) fun t =>
        if s.rowsFree o d (fieldOf w 70 6) (astRow fm (fieldOf w 76 6) tagw) then (t.astWrite w o d).advance
        else s.turnAway

def execAzero (w : EngW) (s : State) : Out :=
  let tile := fieldOf w 64 6
  .next <|
    if s.skipped w.ctl then s.advance
    else s.onTile tile fun t =>
      ((t.mapCore s.cur.core fun c =>
        { c with acc := c.acc.filter fun e => !(e.1 / 1024 = tile), accBad := clearBad tile 32 32 c.accBad }).tileWritten
        s.cur.core tile).advance

/-- The checks of ASAVE and AREST (R324), the wait for the owner's entries, then f with the PA. -/
def State.tileSave (s : State) (w : EngW) (f : Nat → State) : State :=
  let pa := s.word w.a
  let tile := fieldOf w 64 6
  let owner := (lookD tile (0 : Word) (s.core s.cur.core).acown).toNat % 2 ^ 16
  let asid := (s.ctx (s.ctxOf s.key)).asid
  if !s.privOf s.key then s.raiseAt 0x04 0
  else if s.skipped w.ctl then s.advance
  else if pa % 4096 ≠ 0 then s.raiseU 0x05 0xFF (BitVec.ofNat 64 pa)
  else if 2 ^ 52 ≤ pa || !s.isLocal pa || !s.populated asid (local46 pa) 4096 then
    s.raiseU 0x06 2 (BitVec.ofNat 64 pa)
  else if (s.core s.cur.core).loomOps.any fun o => o.tile = tile && o.agent.ctx = owner then s.turnAway
  else f pa

def execAsave (w : EngW) (s : State) : Out :=
  let tile := fieldOf w 64 6
  .next (s.tileSave w fun pa =>
    (s.homeWrite (s.agent s.key s.lead).asid (.mem pa .rc) ((List.range 1024).flatMap fun e =>
      leBytes 4 (s.element s.cur.core tile (e / 32) (e % 32)))).advance)

/-- Elements of the tile from memory; those of a poisoned block are undefined, with a record (R324). -/
def execArest (w : EngW) (s : State) : Out :=
  let tile := fieldOf w 64 6
  .next (s.tileSave w fun pa =>
    let asid := (s.agent s.key s.lead).asid
    let bad := (List.range 64).filter fun b => (look (local46 pa / 64 + b) s.poison).isSome
    let s1 := (s.fetchLines (local46 pa) 4096 asid).mapCore s.cur.core fun c => { c with
      acc := (List.range 1024).foldl (fun t e =>
        let k := 1024 * tile + e
        put k (if bad.contains (e / 16) then s.anyBits 32 (8 * k + 6)
               else BitVec.ofNat 32 (leNat (s.homeGets asid (local46 pa + 4 * e) 4))) t) c.acc
      accBad := clearBad tile 32 32 c.accBad }
    ((bad.foldl (fun t b => t.errorRecord 2 (s.gridOf s.key).tenant (s.unsaid 0) s.cur.core (s.unsaid 1) (pa + 64 * b) (s.unsaid 3)) s1).tileWritten
      s.cur.core tile).advance)

/-! ### Declared bursts (R326) -/

/-- Intensities declared in (c - 32, c] on the cores of the meadow, by the meadow's count of cycles. -/
def State.declared (s : State) (core c : Nat) : Nat :=
  let own := (s.core core).cyc
  let ds : List (Int × Nat) := (s.cores.filter fun e => meadowOf e.1 = meadowOf core).flatMap fun e =>
    e.2.decls.map fun d => ((d.start : Int) + own - e.2.cyc, if d.intens = 15 then 16 else d.intens)
  ((ds.filter fun d => (c : Int) < d.1 + 32 && d.1 ≤ (c : Int)).map (·.2)).sum

/-- The placed start (R326): the first cycle within 64 of the requested one with room, else 64 after it. -/
def State.placeStart (s : State) (core want intens : Nat) : Nat :=
  let me := if intens = 15 then 16 else intens
  (((List.range 65).map fun i => want + i).find? fun c => s.declared core c + me ≤ 16).getD (want + 64)

def execPhint (w : EngW) (s : State) : Out :=
  let core := s.cur.core
  let ctx := s.ctxOf s.key
  let i := fieldOf w 76 4
  let rest := s.mapCore core fun c => { c with decls := c.decls.filter fun d => d.ctx != ctx || d.started }
  let st := rest.placeStart core ((s.core core).cyc + fieldOf w 64 12) i
  .next <|
    if s.skipped w.ctl then s.advance
    else s.advance.mapCore core fun c =>
      { c with decls :=
          if i = 0 then c.decls.filter fun d => d.ctx != ctx
          else c.decls.filter (fun d => d.ctx != ctx || d.started) ++ [⟨ctx, st, i, fieldOf w 80 5, false⟩] }

/-! ### Enqueuing tile tasks (R143, R144, R328) -/

/-- An operand of a narrow format starts and steps by whole blocks. -/
def narrowAligned (code va ld : Nat) : Bool := code ≤ 1 || (va % 64 = 0 && ld % 64 = 0)

/-- The rules of R143 that make a record valid, and the alignment of outputs to their elements (assumption 79). -/
def taskValid (r : List Byte) : Bool :=
  let k := taskK r
  tk r 0 8 < 2 ^ 52 && tk r 8 8 < 2 ^ 52 && tk r 16 8 < 2 ^ 52 &&
  1 ≤ taskM r && taskM r ≤ 32 && 1 ≤ taskN r && taskN r ≤ 32 &&
  k ≠ 0 && k % groupSize (taskFa r) (taskFb r) = 0 &&
  taskMode r ≤ 2 && tk r 63 1 < 16 &&
  narrowAligned (taskFa r) (tk r 0 8) (tk r 24 4) && narrowAligned (taskFb r) (tk r 8 8) (tk r 28 4) &&
  tk r 16 8 % outBytes (taskMode r) = 0 && (taskM r ≤ 1 || tk r 32 4 % outBytes (taskMode r) = 0)

/-- One record into the queue of its tenant and priority (R144): the status and the machine. An invalid record has
status 2 whether or not the queue is full (assumption 80). -/
def State.enqueueTask (s : State) (g : Agent) (prio : Nat) (r : List Byte) : Nat × State :=
  let md := s.meadow (meadowOf g.core)
  let q := lookD (8 * g.tenant + prio) [] md.queues
  if !taskValid r ||
      !((taskRows r).all fun x => s.detOk g x.1 x.2 (if taskMode r = 2 then .cadd else .write)) then (2, s)
  else if 256 ≤ q.length then (1, s)
  else
    let t : Task := { record := r, agent := g, queue := 8 * g.tenant + prio, fmt := (s.block g.core g.ctx).fmt, met := false,
                      parkSeq := none, past := [] }
    let md' : Meadow := { md with queues := put (8 * g.tenant + prio) (q ++ [t]) md.queues }
    (0, { s with meadows := put (meadowOf g.core) md' s.meadows })

/-- Records of a list of lanes, in order, each with its status. -/
def State.enqueueAll (s : State) (prio : Nat) (xs : List (Nat × Nat)) : State × List (Nat × Nat) :=
  xs.foldl (fun a x =>
    let e := a.1.enqueueTask (a.1.agent a.1.key x.1) prio
      (mread (a.1.core a.1.cur.core).spad (a.1.spbase a.1.key + x.2) 64)
    (e.2, a.2 ++ [(x.1, e.1)])) (s, [])

def execTqadd (w : EngW) (s : State) : Out :=
  let xs := if w.a.kind = 1 then s.lanes.map fun l => (l, s.raw l w.a false) else [(s.lead, s.word w.a)]
  .next <|
    if s.skipped w.ctl then s.advance
    else if s.loomOut then s.raiseAt 0x14 2
    else if xs.any fun x => x.2 % 64 ≠ 0 then s.raiseAt 0x02 32
    else match xs.find? fun x => (s.teamOf s.key).spad < x.2 + 64 with
      | some x => s.raiseU 0x06 1 (BitVec.ofNat 64 (0xF000000000000 + x.2))
      | none =>
        if !(s.lanes.all fun l => s.releaseReady s.key l s.nextId 3) then s.turnAway
        else
          let e := s.enqueueAll (fieldOf w 64 3) xs
          match w.dst with
          | .v n => e.1.passThen s.lanes fun z l x => writeV z.stk n 5 (((e.2.find? fun y => y.1 = l).map (·.2)).getD 0) x
          | _ => e.1.advance.sendS w.dst ((e.2.headD (0, 0)).2)

end Sys2Proof.Machine
end

