-- ==== Sys2Proof/Machine/System.lean ====
section
/-!
DEFINITION. Launches and waits on grids, resumption of faults, generations, translations, the state of other
wefts, halts and snapshots (OPC E0 to E9): R329 to R335.
-/
namespace Sys2Proof.Machine

/-! ### Launches (R150, R164, R329) -/

/-- Read n bytes at VA as a load of the issuing lane, aligned to al. -/
def State.readLoad (s : State) (va : Word) (al n : Nat) : Check × List Byte :=
  let g := s.agent s.key s.lead
  match s.check g va al n .read with
  | .ok t w => (.ok t w, s.loadBytes g t n false)
  | c => (c, [])

/-- The trap of a read that failed: CAUSE, SUB and the VA; bytes with an uncorrectable error are data that the lane
touches (R75; assumption 81). -/
def State.readTrap (s : State) (e : Word × Check × List Byte) : Option (Nat × Nat × Word) :=
  match e.2.1 with
  | .trap c sub => some (c, sub, e.1)
  | .ok t _ => (s.poisonOf t e.2.2.length).map fun rec => (0x0E, 0, BitVec.ofNat 64 rec)
  | .recov => none

/-- A read of a launch may take its bytes: its release has performed, and the lane's orders are kept (R104, R117). -/
def State.mayRead (s : State) (e : Word × Check × List Byte) : Bool :=
  match e.2.1 with
  | .ok t _ => s.actsNow s.lead e.1.toNat t e.2.2.length
  | _ => true

/-- Where NREG of a descriptor lies, and the VAs and sizes that a launch reads. -/
def launchParts (va : Word) (desc : List Byte) : List (Word × Nat) :=
  (List.range (min 32 (tmplNum desc 33 1))).map fun i => (va + 64 + BitVec.ofNat 64 (32 * i), 32)

/-- A recoverable fault of the descriptor posts an entry, and the launch waits for it. -/
def State.launchFaulted (s : State) (va : Word) : State :=
  ((s.newFault (s.agent s.key s.lead) 0 va.toNat s.cur.slot 0xFE s.cur.lanes
    (.launch s.cur.core s.cur.slot)).mapWeft s.key fun z => { z with hold := .launchFault }).endDecision

/-- The issue of LAUNCH and LAUNCHI: the acceptance is a release at DEVICE scope, the descriptor and its entries are
read within it as loads of the lane, and the weft is held until the front end answers. -/
def State.launchIssue (s : State) (w : EngW) (indirect : Bool) : State :=
  let va := s.cw.sreg w.a.num
  let d := s.readLoad va 64 64
  let es := (launchParts va d.2).map fun p => (p.1, s.readLoad p.1 32 p.2)
  let all := (va, d) :: es
  let placed := match d.1 with | .ok _ _ => true | _ => false
  if s.skipped w.ctl then s.advance
  else if placed && !((s.lanes.all fun l => s.releaseReady s.key l s.nextId 4) && all.all s.mayRead) then s.turnAway
  else
    match all.findSome? s.readTrap with
    | some r => s.raiseU r.1 r.2.1 r.2.2
    | none =>
      match all.find? fun e => e.2.1 = .recov with
      | some e => s.launchFaulted e.1
      | none => (s.advance.mapWeft s.key fun z =>
          { z with hold := .launch indirect (all.flatMap fun e => e.2.2) w.dst.num (2 * fieldOf w 64 1) }).endDecision

def execLaunch (w : EngW) (s : State) : Out := .next (s.launchIssue w false)
def execLaunchi (w : EngW) (s : State) : Out := .next (s.launchIssue w true)

/-- A handle among the tenant's 8,192 most recent launches (R151, R330). launchSeq is the next number, and 0
is no number. -/
def State.recentGrid (s : State) (tenant h : Nat) : Option Grid :=
  let q := (s.tenant tenant).launchSeq
  let d := (q + 2 ^ 28 - h % 2 ^ 28) % 2 ^ 28 - (if q ≤ h % 2 ^ 28 then 1 else 0)
  if h / 2 ^ 28 = tenant && 1 ≤ d && d ≤ 8192 then look h s.grids else none

/-- What WAITG writes for a grid's status (R330). -/
def gridCode : GridStatus → Option Nat
  | .pending => none
  | .done => some 0
  | .refused => some 1
  | .failed => some 2

def execWaitg (w : EngW) (s : State) : Out :=
  let h := s.word w.a % 2 ^ 32
  .next <|
    if s.skipped w.ctl then s.advance
    else match s.recentGrid (s.gridOf s.key).tenant h with
      | none => s.advance.sendS w.dst 3
      | some g =>
        match gridCode g.status with
        | some y => (s.advance.acquireDrop s.cur.core false).sendS w.dst y
        | none => (s.mapWeft s.key fun z => { z with hold := .waitg h w.dst.num }).endDecision

/-! ### Faults, generations and translations (R331 to R333) -/

/-- The hub accepts a FRESUME: the entry's slot is free from now on (R174). -/
def State.acceptFresume (s : State) (tenant seq : Nat) : State :=
  if ((s.tenant tenant).faults.any fun e => e.2.seq = seq) && !(s.tenant tenant).fresumes.contains seq then
    s.mapTenant tenant fun t => { t with fresumes := t.fresumes ++ [seq], slots := t.slots.filter (· != seq) }
  else s

def execFresume (w : EngW) (s : State) : Out :=
  .next <|
    if !s.privOf s.key then s.raiseAt 0x04 0
    else if s.skipped w.ctl then s.advance
    else if !(s.lanes.all fun l => s.releaseReady s.key l s.nextId 4) then s.turnAway
    else s.advance.acceptFresume (s.gridOf s.key).tenant (s.word w.a % 2 ^ 32)

/-- Steps 1 and 2 of R37 at the hub: GEN + 1 in the table, and the new value on its way. -/
def State.startBump (s : State) (asid : Nat) (dst : Option Nat) : State :=
  let old := s.tableGen asid
  let s1 := s.wr (s.mgmt 0x08 + 16 * asid + 8) (leBytes 2 ((old + 1) % 2 ^ 16))
  ({ s1 with bumps := s1.bumps ++ [(⟨asid, old, [], []⟩ : Bump)] }.mapWeft s.key fun z =>
    { z with hold := .genbump asid dst }).endDecision

def execGenbump (w : EngW) (s : State) : Out :=
  let a := s.word w.a
  .next <|
    if !s.privOf s.key then s.raiseAt 0x04 0
    else if s.skipped w.ctl then s.advance
    else if 255 < a || !(s.asidWord a 0).getLsbD 0 then s.raiseAt 0x02 32
    else if (s.bumps.any fun b => b.asid = a) ||
        !(s.lanes.all fun l => s.olderDone s.key l s.nextId true true && s.written s.cur.core true) then s.turnAway
    else s.advance.startBump a (match w.dst with | .s n => some n.val | _ => none)

/-- Every TLB and walk-cache entry of an ASID leaves a core; 256 names every ASID. -/
def Core.forget (c : Core) (asid : Nat) : Core :=
  { c with tlb := c.tlb.filter fun e => !(asid = 256 || e.asid = asid),
           walkc := c.walkc.filter fun e => !(asid = 256 || e.asid = asid) }

def execTlbinv (w : EngW) (s : State) : Out :=
  let a := s.word w.a
  .next <|
    if !s.privOf s.key then s.raiseAt 0x04 0
    else if s.skipped w.ctl then s.advance
    else if 256 < a then s.raiseAt 0x02 32
    else if fieldOf w 104 3 = 2 then s.advance.mapCore s.cur.core fun c => c.forget a
    else { s.advance with cores := s.advance.cores.map fun e => (e.1, e.2.forget a) }

/-! ### Other wefts of the team (R172, R334) -/

/-- The weft of the issuing team with a team-weft index. -/
def State.teamWeft (s : State) (i : Nat) : Option Nat :=
  (s.teamOf s.key).wefts.find? fun k => (s.weft k).index = i

/-- State code of a lane (R180). -/
def Weft.stateCode (w : Weft) (lane : Nat) : Nat :=
  let x := w.lane lane
  if x.exited then 7
  else if x.susp || w.frozen then 6
  else match x.wait with
    | .none | .issue => if w.hold = .none then 0 else 3
    | .sleepUntil _ | .treg _ _ => 1
    | .park _ | .parkPool _ => 2
    | .dst => 3
    | .meeting => 4
    | .mask _ | .barrier => 5

/-- State code of a lane as it stands: one that reads what is pending is held, and parked where that stands at a posted
fault (R93, R180). -/
def State.laneCode (s : State) (key lane : Nat) : Nat :=
  let w := s.weft key
  let c := w.stateCode lane
  if (c = 0 || c = 3) && w.hold = .none then
    (if ({ s with reqs := s.reqs.filter Req.isPosted } : State).dstHeld key lane then 2
     else if c = 0 && s.dstHeld key lane then 3 else c)
  else c

/-- The fields of a selector. -/
def selClass (x : Nat) : Nat := bits x 7 4
def selLane (x : Nat) : Nat := bits x 0 7
def selNum (x : Nat) : Nat := bits x 11 7

/-- Largest NUM of a class, and whether LANE names a lane. -/
def selMax (c : Nat) : Nat :=
  if c = 0 then 31 else if c = 1 then 127 else if c = 2 ∨ c = 6 then 3 else if c = 3 ∨ c = 10 then 7
  else if c = 4 ∨ c = 5 then 11 else 0
def selByLane (c : Nat) : Bool := c ∈ [0, 2, 3, 7, 8, 9, 11]

/-- A selector breaks the table of R334. -/
def selBad (x width : Nat) (write : Bool) : Bool :=
  let c := selClass x
  x / 2 ^ 18 ≠ 0 || 12 ≤ c || selMax c < selNum x || (selByLane c && width ≤ selLane x) ||
  ((c = 4 || c = 5) && selLane x % 64 ≠ 0) || (write && (c = 9 || c = 11))

/-- The request that the selected register awaits (R93). -/
def State.selPending (s : State) (k x : Nat) : Option Req :=
  let c := selClass x
  if c = 0 then s.vPending k (selLane x) (((s.weft k).lane (selLane x)).wb + selNum x)
  else if c = 1 then s.sPending k (selNum x)
  else if c = 3 then s.pPending k (selLane x) (selNum x)
  else if c = 6 then s.zPending k (selNum x)
  else none

/-- The selected state. -/
def State.selRead (s : State) (k x : Nat) : Nat :=
  let w := s.weft k
  let y := w.lane (selLane x)
  let n := selNum x
  match selClass x with
  | 0 => (y.v w.stk n).toNat
  | 1 => (w.sreg n).toNat
  | 2 => (y.treg n).toNat
  | 3 => (y.pred n).toNat
  | 4 => bits (w.kmem n).toNat (selLane x) 64
  | 5 => bits (w.karr n).toNat (selLane x) 64
  | 6 => (w.zreg n).toNat
  | 7 => y.pc.toNat
  | 8 => y.meet.toNat
  | 9 => y.wb
  | 10 => s.ctrlReg k (0x010 + n)
  | _ => s.laneCode k (selLane x)

/-- The selected state written. -/
def Weft.selWrite (w : Weft) (x : Nat) (v : Word) : Weft :=
  let n := selNum x
  let on := fun (f : Lane → Lane) => w.setLane (selLane x) (f (w.lane (selLane x)))
  match selClass x with
  | 0 => on fun y => writeV w.stk n 5 (v.toNat % 2 ^ 32) y
  | 1 => w.writeS n v
  | 2 => on fun y => writeT n (v.setWidth 32) y
  | 3 => on fun y => y.setP n (v.getLsbD 0)
  | 4 => w.writeMembers n (setHalf (w.kmem n) (selLane x / 64) v)
  | 5 => ({ w with kArr := put n (setHalf (w.karr n) (selLane x / 64) v) w.kArr }).testMask n
  | 6 => w.writeZ n (v.getLsbD 0)
  | 7 => on fun y => { y with pc := v }
  | 8 => on fun y => { y with meet := v }
  | 10 => w.writeTrap (0x010 + n) v.toNat
  | _ => w

/-- WRD and WWR: handler mode, the weft and the selector are checked, then f with the weft's key. -/
def State.otherWeft (s : State) (w : EngW) (write : Bool) (f : Nat → Nat → State) : State :=
  let x := s.word w.b
  if !s.cw.hmode then s.raiseAt 0x04 0
  else if s.skipped w.ctl then s.advance
  else match s.teamWeft (s.word w.a) with
    | none => s.raiseAt 0x02 32
    | some k => if selBad x (s.weft k).width write then s.raiseAt 0x02 48 else f k x

def execWrd (w : EngW) (s : State) : Out :=
  .next (s.otherWeft w false fun k x =>
    match s.selPending k x with
    | some r => (s.mapWeft s.key fun z => { z with hold := .req r.id }).endDecision
    | none => s.advance.sendS w.dst (s.selRead k x))

def execWwr (w : EngW) (s : State) : Out :=
  .next (s.otherWeft w true fun k x =>
    if (s.selPending k x).isSome ||
        (selClass x = 2 && ((s.weft k).lane (selLane x)).tBusy (selNum x)) then s.turnAway
    else s.advance.mapWeft k fun z => z.selWrite x (s.cw.sreg w.dst.num))

/-! ### Halts and snapshots (R185, R187, R335) -/

/-- A stop is asked of a team (R177): it acts at stop sites, and after TRET in wefts in handler mode. -/
def State.askStop (s : State) (team : Nat) (f : StopReq → StopReq) : State :=
  let s1 := s.mapTeam team fun t =>
    { t with stop := f t.stop, life := if t.life = .running then .stopping else t.life }
  (s.team team).wefts.foldl (fun s k => s.mapWeft k fun z => if z.hmode then { z with haltPend := true } else z) s1

def execHalt (w : EngW) (s : State) : Out :=
  .next <|
    if s.skipped w.ctl then s.advance
    else s.advance.askStop s.cw.team fun r => { r with halt := true }

/-- One trigger of the hub (R187): blocks latch from then on, or it is counted and recorded while the set is
held. -/
def State.snapTrigger (s : State) : State :=
  if s.hub.snapHeld then
    ({ s with hub := { s.hub with snapCnt := s.hub.snapCnt + 1 } }).errorRecord 9 0xFF (s.unsaid 0) 0xFFFF (s.unsaid 1) (s.unsaid 2) (s.unsaid 3)
  else { s with hub := { s.hub with snapHeld := true, snapTrig := true, snapLatched := [] } }

def execSnap (w : EngW) (s : State) : Out :=
  .next <|
    if !s.privOf s.key then s.raiseAt 0x04 0
    else if s.skipped w.ctl then s.advance
    else s.advance.snapTrigger

end Sys2Proof.Machine
end

