-- ==== Sys2Proof/Machine/Ordering.lean ====
section
/-!
DEFINITION. The ordering machine (R98 to R116): drains, write-backs, drops, fills, satisfied loads,
read-modify-writes, the propagation of team registers, and the decisions and awakenings of lanes.
-/
namespace Sys2Proof.Machine

/-! ### Lanes and decisions (R161, R253) -/

def execIssueDecision (core quarter : Nat) (s : State) : Out :=
  .next (s.when (core < Config.cores && quarter < 4) (s.decide core quarter))

/-- A lane that sleeps a count of cycles wakes at its end. -/
def execYieldExpiry (core slot lane : Nat) (s : State) : Out :=
  let k := 64 * core + slot
  let x := (s.weft k).lane lane
  .next (match x.wait with
    | .sleepUntil c => s.when (c ≤ (s.core core).cyc)
        (s.mapWeft k fun w => w.setLane lane { x with wait := .none, age := 0 })
    | _ => s)

/-- The oldest write of a team register that a core has not yet seen reaches its copy (R116). -/
def execTeamRegisterPropagate (team core g : Nat) (s : State) : Out :=
  let mine := fun e : Nat × Nat × Word => e.1 = core && e.2.1 = g
  .next (match (s.team team).gq.find? mine with
    | some e => s.mapTeam team fun t =>
        { t with gcopy := put (16 * core + g) e.2.2 t.gcopy, gq := t.gq.eraseP mine }
    | none => s)

/-! ### The generation check (R35, R86) -/

/-- What a home decides on a request (R35). -/
inductive Fate
  | current
  | older
  | newer
  deriving DecidableEq, Repr

/-- d of R35. -/
def fateOf (cur gen : Nat) : Fate :=
  let d := (cur + 2 ^ 16 - gen % 2 ^ 16) % 2 ^ 16
  if d = 0 then .current else if d < 2 ^ 15 then .older else .newer

def State.fate (s : State) (r : Req) (t : Tgt) : Fate :=
  match s.genPlace r.agent.asid t with
  | some p => fateOf (s.curGen r.agent.asid p) r.gen
  | none => .current

/-- A rejected request waits to be translated again; its promise may break with cause STALEGEN (R86). -/
def State.reject (s : State) (r : Req) : State :=
  s.setReq { r with phase := .stale, cause := if r.cause = 0 then 3 else r.cause }

/-! ### Core views -/

/-- Some byte of [a, a + n) is dirty in the view. -/
def Core.dirtyIn (c : Core) (a n : Nat) : Bool :=
  c.view.any fun e => a ≤ e.1 && e.1 < a + n && e.2.dirty

/-- Bytes written dirty into the view (R50, R102). -/
def Core.dirty (c : Core) (a : Nat) (bs : List Byte) (uo : Bool) (asid : Nat) : Core :=
  { c with view := putAll c.view (((List.range bs.length).zip bs).map fun e =>
      (a + e.1, (⟨e.2, true, uo, asid, false⟩ : ViewByte))) }

/-- The block of a sector of the view at its Home: peers lie above this device's memory. -/
def sectorTgt (sector : Nat) : Tgt :=
  if 2 ^ 48 ≤ sector then .peer (64 * sector - 2 ^ 54) .rc else .mem (64 * sector) .rc

/-- Clean copies of a block filled from its Home, dirty bytes kept (R102); a pinned line is stale no longer (R51). -/
def State.fillSector (s : State) (core sector : Nat) (uo : Bool) (asid : Nat) : State :=
  (if sector < 2 ^ 48 then s.fetchL2 (64 * sector) asid else s).mapCore core fun c =>
    { c with
      view := (List.range 64).foldl (fun v i =>
        let a := 64 * sector + i
        match look a v with
        | some b => if b.dirty then v else put a ⟨s.homeGet asid a, false, uo, asid, false⟩ v
        | none => put a ⟨s.homeGet asid a, false, uo, asid, false⟩ v) c.view
      vtags := put sector (s.tagOf (sectorTgt sector)) c.vtags
      pins := c.pins.map fun p => if p.line = align (64 * sector) 128 then { p with stale := false } else p }

/-! ### Stores performed at their Homes -/

/-- A tracking request whose store has performed: DONE, and over. -/
def State.storeDone (s : State) (id : Nat) : State :=
  match s.req id with
  | some r => s.complete r
  | none => s

/-- Bytes of stores that have performed: those in a list of addresses (R112). -/
def stripped (r : Req) (adrs : List Nat) : Req :=
  { r with parts := r.parts.map fun p =>
      match p.tgt with
      | .mem _ _ | .peer _ _ => { p with y := (List.range r.size).foldl (fun y i =>
          if adrs.contains (p.tgt.base + i) && y.testBit i then y - 2 ^ i else y) p.y }
      | _ => p }

/-- Tracked stores of a core to RC and UO memory, drained, lose the bytes that a write-back has performed;
one with none left is DONE (R112). -/
def State.performed (s : State) (core : Nat) (adrs : List Nat) : State :=
  (s.reqs.filter fun r => r.agent.core = core && r.op = .store && !s.queued r).foldl (fun s r =>
    let r' := stripped r adrs
    if r' = r then s
    else if (r'.parts.all fun p => p.y = 0) then (s.setReq r').storeDone r.id
    else s.setReq r') s

/-- Stores to a device that is lost or refuses them are discarded: the loss is recorded where the device cannot be
reached, and tracked stores complete in ERROR (R11, R19, R80). -/
def State.discarded (s : State) (core : Nat) (lost : Tab ViewByte) : State :=
  let mine := fun (r : Req) => r.agent.core = core && r.op = .store && !s.queued r &&
    r.parts.any fun p => lost.any fun e => p.tgt.base ≤ e.1 && e.1 < p.tgt.base + r.size
  match s.reqs.filter mine, lost with
  | [], e :: _ =>
    if s.cutOff (.peer (e.1 - 2 ^ 54) .rc) then
      s.errorRecord 4 (s.unsaid 0) 8 core (s.unsaid 1) (e.1 - 2 ^ 54) (s.unsaid 3) else s
  | rs, _ => rs.foldl (fun s r => s.peerError r r.va) s

/-- Dirty bytes of this device's memory perform at their L2 homes, each line in its own. -/
def State.performDirty (s : State) (bs : Tab ViewByte) : State :=
  bs.foldl (fun t e => (if t.l2Has e.2.asid (align e.1 128) then t else t.fetchL2 e.1 e.2.asid).homeSet e.2.asid e.1 e.2.val) s

/-- Chosen dirty bytes of a sector perform at their Home and stay as clean copies (R102). -/
def State.writeBackBytes (s : State) (core : Nat) (adrs : List Nat) : State :=
  let dirty : Tab ViewByte := (s.core core).view.filter fun e => adrs.contains e.1 && e.2.dirty
  if dirty.isEmpty then s
  else
    let lost := dirty.filter fun e => 2 ^ 54 ≤ e.1 && s.peerLost (.peer (e.1 - 2 ^ 54) .rc)
    let s1 := s.performDirty (dirty.filter fun e => e.1 < 2 ^ 54)
    let clean := fun (e : Nat × ViewByte) => if adrs.contains e.1 then (e.1, { e.2 with dirty := false }) else e
    let s2 := s1.mapCore core fun c => { c with view := c.view.map clean }
    ((s2.performed core ((dirty.filter fun e => (look e.1 lost).isNone).map (·.1))).discarded core lost).wake

/-- Every dirty byte of the view that a predicate chooses is written back at once: the engines that carry
out R51 and R52 for a whole core. -/
def State.writeBackAll (s : State) (core : Nat) (p : ViewByte → Bool) : State :=
  s.writeBackBytes core (((s.core core).view.filter fun e => e.2.dirty && p e.2).map (·.1))

/-! ### L1 as a cache (R40, R49) -/

/-- Lines that hold a way of the set of a line in L1, the most recently used first. -/
def Core.ways (c : Core) (line : Nat) : List Nat :=
  c.lru.filter fun x => bits x 7 8 = bits line 7 8 && (c.holdsLine x || c.pins.any fun p => p.line = x)

/-- A line is written back and leaves L1 (R50). -/
def State.evictL1 (s : State) (core line : Nat) : State :=
  (s.writeBackBytes core ((List.range 128).map (line + ·))).mapCore core fun c =>
    { c.dropClean (fun a _ => a / 128 = line / 128) with lru := c.lru.filter (· != line) }

/-- A line is the most recently used of L1; of eight ways the least recently used that is neither pinned nor held for a
booked hit makes room for it (R49, R87). Without one it has no place now. -/
def State.useL1 (s : State) (core line : Nat) : Option State :=
  let c := s.core core
  let first := fun (t : State) => t.mapCore core fun c => { c with lru := line :: c.lru.filter (· != line) }
  let near := if c.lru.length < 8 then [] else c.ways line
  if near.contains line || near.length < 8 then some (first s)
  else
    match near.reverse.find? fun x => !(c.pins.any fun p => p.line = x) && !s.dropHeld core fun a _ => a / 128 = x / 128 with
    | some x => some (first (s.evictL1 core x))
    | none => none

/-- A line that HINT 1 has just filled is the least recently used of its set (R216). -/
def State.streamL1 (s t : State) (core hint line : Nat) (always : Bool) : State :=
  if (hint = 1 || always && hint = 2) && !((s.core core).ways line).contains line then
    t.mapCore core fun c => { c with lru := c.lru.filter (· != line) ++ [line] }
  else t

/-! ### Drain (R102) -/

/-- The bits of an address list of a sector mask. -/
def sectorAddrs (sector : Nat) (mask : BitVec 64) : List Nat :=
  ((List.range 64).filter fun i => mask.getLsbD i).map fun i => 64 * sector + i

/-- Entries that share a byte drain in program order (R104), those of one instruction in lane order (R105). -/
def State.drainBehind (s : State) (key idx : Nat) (e : SqEntry) (r : Req) : Bool :=
  ((s.weft key).sq.take idx).any fun x =>
    Machine.meets x.tgt.base x.bytes.length e.tgt.base e.bytes.length &&
    (x.lane = e.lane || (match s.req x.req with | some q => q.insn = r.insn | none => false))

/-- A store may drain: R104, R107, R108. -/
def State.mayDrain (s : State) (key idx : Nat) (e : SqEntry) (r : Req) : Bool :=
  r.phase = .waiting &&
  (e.tgt.isUo || !s.acquirePending key e.lane e.req) &&
  !s.drainBehind key idx e r &&
  (r.parts.all fun p => !s.olderOpen r p e.bytes.length) &&
  (!e.rel || s.releaseReady key e.lane e.req e.scope)

/-- The team on a member core whose allocation a fold reaches (R133, R138; assumption 20). -/
def State.memberTeam (s : State) (f : Fold) (core : Nat) : Option (Nat × Team) :=
  s.teams.find? fun t => t.2.cores.contains core && t.2.life != .saved && t.2.life != .retired &&
    (s.grid t.2.grid).tenant = f.tenant && (s.ctx (s.grid t.2.grid).ctx).asid = f.asid

/-- Members to which a store below an offset of the fold window is delivered (R138). -/
def State.owedTo (s : State) (f : Fold) (top : Nat) : List Nat :=
  (f.members.map (·.1)).filter fun c =>
    match s.memberTeam f c with | some t => top ≤ t.2.spad | none => false

/-- A mirrored store enters the Window of its source and fold. -/
def State.enterWindow (s : State) (k src : Nat) (ps : List FoldPiece) (req : Nat)
    (chunk : Option (Nat × Nat × Nat)) : State :=
  let f := s.fold k
  let owed := s.owedTo f (ps.foldl (fun m p => max m (p.off + p.bytes.length)) 0)
  if owed.isEmpty then s else s.setFold k { f with window := f.window ++ [⟨src, ps, owed, owed, req, chunk⟩] }

/-- A write of the core control window performs: template bytes, the ACL of a ring, or a ring register
whose write completes in a step of its own (R18, R128). -/
def State.ctlWrite (s : State) (core ctx off id : Nat) (bs : List Byte) : State :=
  if off < 0x10000 then
    (s.mapCore core fun c => { c with tmpl := mwrite c.tmpl off bs }).storeDone id
  else
    let n := (off - 0x12000) / 0x30
    let j := (off - 0x12000) % 0x30 / 8
    if j = 4 then
      (s.setRing core n { s.ring core n with acl := BitVec.ofNat 4 (leNat bs) }).storeDone id
    else
      { s with pwrites := s.pwrites ++
          [(⟨id, 0x300 + 6 * n + j, core, none, ctx, BitVec.ofNat 64 (leNat bs)⟩ : PWrite)] }

/-- A drained store writes its bytes as dirty bytes into the core's view, where its line has a place. -/
def State.drainView (s : State) (e : SqEntry) (r : Req) (a : Nat) : State :=
  match s.useL1 r.agent.core (align a 128) with
  | some t =>
    let s1 := (t.taintVa r.agent.asid e.va e.tgt e.bytes).mapCore r.agent.core fun c =>
      c.dirty a e.bytes e.tgt.isUo r.agent.asid
    if e.home then s1 else s1.storeDone r.id
  | none => s

/-- A drained entry takes its effect. A store to a device that is lost or refuses it is discarded (R11, R19). -/
def State.drainTo (s : State) (e : SqEntry) (r : Req) : State :=
  let n := e.bytes.length
  match e.tgt with
  | .mem _ .so => (((s.taintVa r.agent.asid e.va e.tgt e.bytes).homeWrite r.agent.asid e.tgt e.bytes).setReq
      (stripped r ((List.range n).map (e.tgt.base + ·)))).storeDone r.id
  | .mem pa _ => s.drainView e r (local46 pa)
  | .spad _ _ => (s.homeWrite r.agent.asid e.tgt e.bytes).storeDone r.id
  | .peer pa .rc | .peer pa .uo => s.drainView e r (2 ^ 54 + pa)
  | .peer _ .so | .peerSpad _ _ _ => if s.peerLost e.tgt then s.peerError r e.va else s.storeDone r.id
  | .fold d f off =>
    let k := 64 * d + f
    let s1 := s.enterWindow k r.agent.core [⟨off, e.bytes, none, none⟩] r.id none
    if (s.owedTo (s.fold k) (off + n)).isEmpty then s1.storeDone r.id else s1
  | .ctlWin off => s.ctlWrite r.agent.core r.agent.ctx off r.id e.bytes
  | .aperture _ | .cell _ _ | .peerCell _ _ => s

/-- Remove an entry of a Store Queue. -/
def State.dequeue (s : State) (key idx : Nat) : State :=
  s.mapWeft key fun w => { w with sq := w.sq.eraseIdx idx }

/-- What the GEN check says of a store that drains: at its Home, or for RC and UO memory at the core, whose views hold
nothing of an old generation once it has acknowledged the new one (R35, R52). -/
def State.drainFate (s : State) (r : Req) (t : Tgt) : Fate :=
  match t.viewAt with
  | some _ => fateOf (s.coreGen r.agent.core r.agent.asid) r.gen
  | none => s.fate r t

/-- The entry leaves its Store Queue as it takes effect; one that has no place in L1 stays. L1 allocates on write (R50),
so that HINT 2 takes a place too, the least recently used (assumption 93). -/
def State.drainEntry (s : State) (key idx : Nat) (e : SqEntry) (r : Req) : State :=
  match e.tgt.viewAt with
  | some a =>
    if (s.useL1 r.agent.core (align a 128)).isSome then
      s.streamL1 ((s.dequeue key idx).drainTo e r) r.agent.core r.hint (align a 128) true
    else s
  | none => (s.dequeue key idx).drainTo e r

def execStoreDrain (core slot idx : Nat) (s : State) : Out :=
  let key := 64 * core + slot
  .next (match (s.weft key).sq[idx]? with
    | none => s
    | some e =>
      match s.req e.req, e.tgt with
      | _, .aperture _ => s
      | none, _ => s
      | some r, _ =>
        if !s.mayDrain key idx e r then s
        else match s.drainFate r e.tgt with
          | .older => s.reject r
          | .newer => s
          | .current => s.drainEntry key idx e r)

/-- A core writes back dirty bytes of its view; beyond the cores an L2 slice writes back the line of the sector (R54).
-/
def execWriteBack (core sector : Nat) (mask : BitVec 64) (s : State) : Out :=
  .next <|
    if core < Config.cores then s.writeBackBytes core (sectorAddrs sector mask)
    else match s.l2At (core - Config.cores) (align (64 * sector) 128) with
      | some x => s.when (!s.l2Pinned x && !s.l2Held x) (s.l2Evict x)
      | none => s

/-- Clean copies leave a view; a line that is pinned, and a copy held for a booked hit, stay (R70, R87). -/
def execDrop (core sector : Nat) (mask : BitVec 64) (s : State) : Out :=
  .next (s.mapCore core fun c => c.dropClean fun a _ =>
    a / 64 = sector && mask.getLsbD (a % 64) && !s.viewHeld core a && !(c.pins.any fun p => p.line = align a 128))

/-- A translation that the core keeps maps the sector under the kind and the ASID named (R49). -/
def State.mapsSector (s : State) (core sector : Nat) (uo : Bool) (asid : Nat) : Bool :=
  (s.core core).tlb.any fun e =>
    e.asid = asid && e.gen = s.coreGen core asid && s.isLocal e.pbase && !e.leaf.getLsbD 7 &&
    bits e.leaf.toNat 2 2 = (if uo then 2 else 0) && s.genMet core asid (.mem (64 * sector) .rc) &&
    local46 e.pbase ≤ 64 * sector && 64 * sector < local46 e.pbase + e.size

def execCoreViewFill (core sector : Nat) (uo : Bool) (asid : Nat) (s : State) : Out :=
  .next (s.when (s.mapsSector core sector uo asid)
    (match s.useL1 core (align (64 * sector) 128) with
     | some t => t.fillSector core sector uo asid
     | none => s))

/-! ### Satisfy (R102, R103) -/

/-- The bytes that a part of a load takes: forwarded, from the core's view, or from its Home. -/
def State.partBytes (s : State) (r : Req) (p : Part) : List Byte :=
  match s.forward r p with
  | some (some bs) => bs
  | _ =>
    if r.acq && s.wide r.key r.scope then s.homeRead r.agent p.tgt r.size
    else s.loadBytes r.agent p.tgt r.size (r.level = 1)

/-- The tag that LDTAG returns: that of the view's block where it has one (R271). -/
def State.partTag (s : State) (r : Req) (p : Part) : Nat :=
  match p.tgt.viewAt with
  | some a =>
    if r.acq && s.wide r.key r.scope then (s.tagOf p.tgt).toNat
    else ((look (a / 64) (s.core r.agent.core).vtags).getD (s.tagOf p.tgt)).toNat
  | none => (s.tagOf p.tgt).toNat

/-- Poison that a load would read; forwarded bytes have none (R75). -/
def State.loadPoison (s : State) (r : Req) : Option Nat :=
  r.parts.findSome? fun p => match s.forward r p with
    | some (some _) => none
    | _ => s.poisonOf p.tgt (max 1 r.size)

/-- The place of a line in L1 for a request: under HINT 2 only a line that is already there has one (R216). -/
def State.placeL1 (s : State) (r : Req) (line : Nat) : Option State :=
  if r.hint = 2 && !((s.core r.agent.core).ways line).contains line then none else s.useL1 r.agent.core line

/-- A load of RC or UO memory that missed leaves its sector in L1, where it has a place (R50, R104); a hit makes its
line the most recently used. -/
def State.fillFor (s : State) (r : Req) (p : Part) : State :=
  match p.tgt.viewAt with
  | some a =>
    (match s.placeL1 r (align a 128) with
     | some t => s.streamL1 (if r.level = 1 then t else t.fillSector r.agent.core (a / 64) p.tgt.isUo r.agent.asid)
         r.agent.core r.hint (align a 128) false
     | none => s.refresh r.agent.core r.agent.asid p.tgt r.size)
  | none => s

/-- What a load returns of a part. -/
def State.loadVal (s : State) (r : Req) (p : Part) : Nat :=
  match r.op with
  | .ldtag => s.partTag r p
  | .chkt m => if leNat (s.partBytes r p) &&& m = m then 1 else 0
  | _ => leNat (s.partBytes r p)

/-- A load takes its bytes: an acquire first takes the Drop action of its scope (R108), and a copy older
than what it read does not stay (R104). -/
def State.satisfy (s : State) (r : Req) : State :=
  match s.loadPoison r with
  | some rec => s.endError r rec
  | none =>
    let wide := r.acq && s.wide r.key r.scope
    let s1 := if wide then s.acquireDrop r.agent.core false else s
    let r' := { r with satisfied := true, parts := r.parts.map fun p => { p with val := s1.loadVal r p } }
    r.parts.foldl (fun s p => s.fillFor r p) (s1.setReq r')

/-- The load may be satisfied now. An acquire that reads its Home waits until the core's own dirty bytes
there are written back (assumption 21). -/
def State.maySatisfy (s : State) (r : Req) : Bool :=
  !r.satisfied && s.clearToGo r &&
  (!(r.acq && s.wide r.key r.scope) || r.parts.all fun p => match p.tgt.viewAt with
    | some a => !(s.core r.agent.core).dirtyIn a r.size
    | none => true)

/-- Is this a load that a view or a Home serves? -/
def ReqOp.isLoad : ReqOp → Bool
  | .load _ | .ldtag | .chkt _ => true
  | _ => false

/-- Loads that the core itself serves: its own scratchpad and windows, and hits in L1. -/
def State.viewServes (s : State) (r : Req) : Bool :=
  r.level = 0 || (r.level = 1 && !(r.acq && s.wide r.key r.scope))

/-- The acquire action that a homed WAITC or BARW still owes (R108). -/
def State.acquireNow (s : State) (r : Req) : State :=
  let s1 := if s.wide r.key r.scope then s.acquireDrop r.agent.core false else s
  s1.setReq { r with satisfied := true }

def execLoadSatisfy (req : Nat) (s : State) : Out :=
  .next (match s.req req with
    | none => s
    | some r =>
      if r.op.isLoad then
        s.when ((r.phase = .booked || r.phase = .answered) && s.viewServes r && s.maySatisfy r) (s.satisfy r)
      else if r.op.isWait then
        s.when (r.homed && !r.satisfied && r.parts.all fun p => !s.acquirePending r.key p.lane r.id) (s.acquireNow r)
      else s)

/-! ### Read-modify-write (R105, R111, R114) -/

/-- A request of the same instruction, in a lower lane, to the same bytes goes first (R105). -/
def State.laneOrder (s : State) (r : Req) : Bool :=
  s.reqs.all fun q => !(r.fellow q && q.id < r.id && q.op = r.op && !q.satisfied &&
    q.parts.any fun y => r.parts.any fun p => y.meets q.span p r.span)

/-- No acquire of its lane delays the request: accesses of UO pages are exempt (R109), and so are adds and clears of
cells (R114, R274) and team registers (R116). -/
def State.acquired (s : State) (r : Req) : Bool :=
  match r.op with
  | .cadd | .clrc | .gadd _ => true
  | _ => r.parts.all fun p => p.tgt.isUo || !s.acquirePending r.key p.lane r.id

/-- Its own lane's stores to the bytes have drained (R104). -/
def State.ownDrained (s : State) (r : Req) : Bool :=
  r.parts.all fun p => !((s.overlaps r.key r.id p r.span).any fun e => e.lane = p.lane)

/-- A read-modify-write may perform: its lane's orders, its release and acquire, its place in lane order. -/
def State.mayModify (s : State) (r : Req) : Bool :=
  !r.satisfied && s.laneOrder r && s.acquired r && s.ownDrained r && (r.parts.all fun p => !s.olderOpen r p r.span) &&
  (!r.rel || r.parts.all fun p => s.releaseReady r.key p.lane r.id r.scope)

/-- The core's dirty bytes of the sector perform, and its copies of the bytes leave the view (R111). -/
def State.purge (s : State) (core : Nat) (t : Tgt) (n : Nat) : State :=
  match t.viewAt with
  | some a =>
    (s.writeBackBytes core ((List.range 64).map (align a 64 + ·))).mapCore core fun c =>
      c.dropClean fun b _ => a ≤ b && b < a + n
  | none => s

/-- Copies that a booked hit holds are not dropped before their delivery (R87). -/
def State.purgeHeld (s : State) (core : Nat) (t : Tgt) (n : Nat) : Bool :=
  match t.viewAt with
  | some a => s.dropHeld core fun b _ => a ≤ b && b < a + n
  | none => false

/-- What an access reads comes into the caches on its way (R54, R62). -/
def State.reached (s : State) (asid : Nat) (t : Tgt) (n : Nat) : State :=
  match t with
  | .mem pa .so => s.mscRange pa n false
  | .mem pa _ => s.fetchLines (local46 pa) n asid
  | _ => s

/-- The new value of an atomic or a CAS; none where a CAS fails. -/
def Req.newVal (r : Req) (old : Nat) (p : Part) : Option Nat :=
  match r.op with
  | .atom f => some (atomNew f r.ty (8 * r.size) old (p.x % 2 ^ (8 * r.size)))
  | .cas => if old = p.y % 2 ^ (8 * r.size) then some p.x else none
  | _ => none

/-- An atomic performs: the old value is read and the new one appended in one step. A peer's memory gives
a free value. -/
def State.doAtomic (s : State) (r : Req) (p : Part) : State :=
  let core := r.agent.core
  let s1 := (s.purge core p.tgt r.size).reached r.agent.asid p.tgt r.size
  let s2 := if r.acq && s.wide r.key r.scope then s1.acquireDrop core false else s1
  let old := leNat (s2.homeRead r.agent p.tgt r.size)
  let s3 := match r.newVal old p with
    | some y => (s2.taintVa r.agent.asid p.va p.tgt (leBytes r.size y)).homeWrite r.agent.asid p.tgt (leBytes r.size y)
    | none => s2
  s3.setReq { r with satisfied := true, parts := [{ p with val := old }] }

/-- BARA of R283, at the bank. -/
def baraObj (obj k : Nat) : Nat × Nat :=
  let gen := bits obj 48 16
  let phase := bits obj 16 16
  if bits k 16 16 ≠ gen then
    (setBits obj 64 32 (min (bits obj 64 32 + 1) (2 ^ 32 - 1)), 2 ^ 32 + gen * 2 ^ 16 + phase)
  else
    let count := (bits obj 0 16 + 1) % 2 ^ 16
    (if bits obj 32 16 ≤ bits obj 0 16 + 1 then setBits (setBits obj 0 16 0) 16 16 ((phase + 1) % 2 ^ 16)
     else setBits obj 0 16 count, gen * 2 ^ 16 + phase)

/-- A request that returns a value without a booking completes at once. -/
def State.finish (s : State) (r : Req) (val : Nat) : State :=
  s.complete { r with satisfied := true, parts := r.parts.map fun p => { p with val := val } }

def State.doBara (s : State) (r : Req) (p : Part) : State :=
  let b := baraObj (leNat (s.homeRead r.agent p.tgt 16)) p.x
  (s.homeWrite r.agent.asid p.tgt (leBytes 16 b.1)).finish r b.2

/-- GADD at the register's Home (R284). Older adds of the weft perform first; after a write of a higher index it reaches
the Home in a later cycle (R116). -/
def State.doGadd (s : State) (r : Req) (g : Nat) (p : Part) : State :=
  let t := r.agent.team
  let i := (s.weft r.key).index
  let old := lookD g (0 : Word) (s.team t).g
  if (s.reqs.any fun q => q.key = r.key && q.id < r.id && (match q.op with | .gadd _ => true | _ => false)) ||
      (s.gBehind t g i).isSome then s
  else (s.mapTeam t fun x => x.writeG g (old + BitVec.ofNat 64 p.x) (s.gCycle t) i true).finish r old.toNat

/-- STTAG at the block's Home; the view holds the new tag (R271). -/
def State.doSttag (s : State) (r : Req) (p : Part) : State :=
  let y := BitVec.ofNat 16 p.x
  let s1 := match p.tgt.viewAt with
    | some a =>
      let b := a / 64
      (s.writeBackBytes r.agent.core ((List.range 64).map (64 * b + ·))).mapCore r.agent.core fun c =>
        if (look b c.vtags).isSome then { c with vtags := put b y c.vtags } else c
    | none => s
  ((s1.reached r.agent.asid p.tgt 64).setTag p.tgt y).finish r 0

/-- An add at a cell home takes the next slot of its queue (R64, R83). -/
def State.queueAdd (s : State) (core pa : Nat) : State :=
  let k : Claim := ⟨8, memSidePlace pa, Config.reedOffset 8, 1, 0⟩
  match s.firstSlot core [k] 1024 (s.core core).cyc with
  | some c => s.reserve core [k] c
  | none => s

/-- CADD at its cell home, where its line is resident or has room (R63, R141). -/
def State.doCadd (s : State) (r : Req) (pa cls : Nat) (p : Part) : State :=
  if !s.cellRoom pa then s
  else
    let a := if tyIsFloat r.ty then (tyFmt r.ty).decode p.x else Fl.ofInt (toSigned (tyWidth r.ty) p.x)
    ((s.setCell r.agent.asid pa (cellAdd cls a (s.cellImg pa))).queueAdd r.agent.core pa).finish r 0

/-- The cells that a CLRC still has to clear. -/
def clrcLeft (r : Req) : List (Nat × Nat) :=
  ((List.range r.parts.length).zip r.parts).flatMap fun e =>
    ((List.range e.2.x).filter fun i => e.2.y.testBit i).map fun i => (e.1, i)

/-- Clear cell i of part j; with the other cell of its line still to be cleared, both, which clears the
line's poison (R75, R114). -/
def State.doClrc (s : State) (r : Req) : State :=
  let left := clrcLeft r
  match left[s.any 1 % max 1 left.length]? with
  | none => s.finish r 0
  | some (j, i) =>
    match r.parts[j]? with
    | none => s
    | some p =>
      (match p.tgt with
       | .cell base _ =>
         let pa := base + 32 * i
         let mate := if pa / 32 % 2 = 0 then i + 1 else i - 1
         let both := (pa / 32 % 2 = 0 || 0 < i) && mate < p.x && p.y.testBit mate
         if !s.cellRoom pa then s
         else
           let s1 := s.setCell r.agent.asid pa 0
           let s2 := if both then
               { s1.setCell r.agent.asid (if pa / 32 % 2 = 0 then pa + 32 else pa - 32) 0 with
                 poison := del (local46 pa / 64) s1.poison }
             else s1
           let y := p.y - 2 ^ i - (if both then 2 ^ mate else 0)
           let r' := { r with parts := r.parts.set j { p with y := y } }
           if (clrcLeft r').isEmpty then (s2.setReq r').finish r' 0 else s2.setReq r'
       | .peerCell _ _ => s.finish r 0
       | _ => s)

/-! ### Levels (R40, R85, R90) -/

/-- The target of a request's first part. -/
def Req.tgt (r : Req) : Tgt := match r.parts with | p :: _ => p.tgt | [] => unplaced 0

/-- Memory behind L2 that answers: the memory-side cache for a block it holds, HBM, the LPDDR tier, the hub for the
host's (R40, R62, R67, R88). -/
def State.memLevel (s : State) (pa : Nat) : Nat :=
  if isHbm pa then (if s.mscHas pa then 5 else 6) else if isLpddr pa then 7 else 8

/-- A pin that nothing can take (R70): the core answers it from its translation (assumption 82). -/
def Req.unpinnable (r : Req) : Bool :=
  match r.op with
  | .lck l2 => (pinLine r.tgt).isNone || (l2 && r.tgt.device.isSome)
  | _ => false

/-- The core's own L1 answers. -/
def State.l1Answers (s : State) (r : Req) : Bool :=
  match r.op with
  | .load _ | .ldtag => !(r.acq && s.wide r.key r.scope) && r.parts.all fun p =>
      match p.tgt.viewAt with
      | some a => (s.core r.agent.core).viewHas a r.size || ((s.forward r p).bind id).isSome
      | none => false
  | .pref | .lck false =>
    (match r.tgt.viewAt with | some a => (s.core r.agent.core).viewHas (align a 128) 128 | none => false)
  | _ => false

/-- The level may answer the probe: the first on its way down that holds the data (R40, R48, R83, R88). -/
def State.mayAnswer (s : State) (r : Req) (level : Nat) : Bool :=
  if r.hub then level = 8
  else if r.unpinnable then level = 0
  else
    match r.tgt with
    | .spad c _ => if c = r.agent.core then level = 0 else level = 2
    | .aperture _ | .ctlWin _ => level = 0
    | .cell pa _ =>
      if isLpddr pa then level = 7
      else if (look (align (local46 pa) 64) s.cells).isSome then level = 5 else level = s.memLevel pa
    | .peer _ .so | .peerCell _ _ | .peerSpad _ _ _ => level = 8
    | .peer _ _ => if s.l1Answers r then level = 1 else level = 8
    | .mem pa .so => level = s.memLevel pa
    | .mem pa _ =>
      if s.l1Answers r && level = 1 then true
      else if s.l2Has r.agent.asid (align (local46 pa) 128) then
        level = (if s.homeDie (s.partOf r.agent.asid) pa = dieOf r.agent.core then 3 else 4)
      else level = s.memLevel pa
    | .fold _ _ _ => false

/-- The request is served beyond the hub: its data comes there first, and only then is the last leg booked (R88). -/
def State.beyondHub (s : State) (r : Req) : Bool :=
  r.phase = .probe && !r.hub && !r.satisfied && s.mayAnswer r 8

/-- The phases in which a read-modify-write has reached its Home: atomics once their path is booked, or beyond the
hub. -/
def State.atHome (s : State) (r : Req) : Bool :=
  match r.op with
  | .atom _ | .cas => r.phase = .booked || r.phase = .answered || s.beyondHub r
  | _ => r.phase = .probe || r.phase = .waiting

/-- A read-modify-write at a Home whose GEN it meets (R86, R111). -/
def State.modify (s : State) (r : Req) (p : Part) : State :=
  if s.peerLost p.tgt then s.peerError r p.va
  else match s.fate r p.tgt, s.poisonOf p.tgt r.span, r.op, p.tgt with
    | .older, _, _, _ => s.reject r
    | .newer, _, _, _ => s
    | _, _, .clrc, _ => s.doClrc r
    | _, some rec, _, _ => s.endError r rec
    | _, _, .atom _, _ | _, _, .cas, _ => if s.purgeHeld r.agent.core p.tgt r.size then s else s.doAtomic r p
    | _, _, .bara, _ => s.doBara r p
    | _, _, .gadd g, _ => s.doGadd r g p
    | _, _, .sttag, _ => s.doSttag r p
    | _, _, .cadd, .cell pa cls => s.doCadd r pa cls p
    | _, _, .cadd, _ => s.finish r 0
    | _, _, _, _ => s

def execReadModifyWrite (req : Nat) (s : State) : Out :=
  .next (match s.req req with
    | none => s
    | some r => match r.parts with
      | [] => s
      | p :: _ => s.when (s.atHome r && s.mayModify r) (s.modify { r with hub := r.hub || s.beyondHub r } p))

/-- A request waits for a cell line that shares a room and is not resident. -/
def State.cellWanted (s : State) (block : Nat) : Bool :=
  s.reqs.any fun r => !r.satisfied && (r.op = .cadd || r.op = .clrc || r.op.isLoad) && r.parts.any fun p =>
    match p.tgt with
    | .cell pa _ => cellPeers (align (local46 pa) 64) block && (look (align (local46 pa) 64) s.cells).isNone
    | _ => false

/-- The least recently used cell line is written back as two raw images where another needs its room in its set, or in
its controller's buffer (R63, R67); one held for a booked load stays until the delivery (R87). -/
def execCellLineWriteback (block : Nat) (s : State) : Out :=
  .next (s.when (cellWays block ≤ (s.cellsNear block).length && s.cellWanted block && !s.mscHeld block &&
      (s.cellsNear block).getLast? = some block)
    (s.cellBack block))

end Sys2Proof.Machine
end

