-- ==== Sys2Proof/Machine/Promise.lean ====
section
/-!
DEFINITION. From probe to promise and landing (R80 to R92): walks, bookings, answers, performance at the
booked slot, landings, broken promises and their log, and the retries that break them (R74, R60, R36).
-/
namespace Sys2Proof.Machine

/-! ### Walks (R27) -/

/-- The walk of a request is over: its probe leaves now. -/
def execPageWalk (req : Nat) (s : State) : Out :=
  .next (match s.req req with
    | none => s
    | some r => s.when (r.phase = .walk) (s.setReq { r with phase := .probe, issued := (s.core r.agent.core).cyc }))

/-! ### Levels (R40, R85, R90) -/

/-- Requests that a level books: loads, atomics, CAS, pins, prefetches, and a WAITC that is answered. -/
def Req.bookable (r : Req) : Bool :=
  match r.op with
  | .load _ | .ldtag | .chkt _ | .atom _ | .cas | .pref | .lck _ => true
  | .waitc _ => r.homed
  | _ => false

/-- The distance that the level's figure depends on (R40). -/
def Req.far (r : Req) (level : Nat) : Nat :=
  match level, r.tgt with
  | 2, .spad c _ => distance r.agent.core c
  | _, _ => 0

/-- The request may be booked: nothing delays its performance past a promise (R83, R87). -/
def State.ready (s : State) (r : Req) : Bool :=
  r.bookable &&
  (match r.op with
   | .load _ | .ldtag | .chkt _ => r.satisfied || s.clearToGo r
   | .atom _ | .cas => r.satisfied || s.mayModify r
   | _ => true)

/-! ### Booking (R83, R84, R85, R88) -/

/-- The probe of a request misses on chip and needs a deadline slot of its controller (R84). -/
def State.needsSlot (s : State) (r : Req) : Bool :=
  r.phase = .probe && !r.admitted && r.bookable && !r.op.isWait && (s.mayAnswer r 6 || s.mayAnswer r 7)

/-- Older probes wait at the same controller (R84). -/
def State.queueAhead (s : State) (r : Req) : Bool :=
  s.reqs.any fun q => q.stamp ≠ 0 && (r.stamp = 0 || q.stamp < r.stamp) && s.needsSlot q &&
    memSidePlace q.tgt.base = memSidePlace r.tgt.base

/-- A probe that misses on chip joins the queue of its controller as it comes there, and the first of the queue is
admitted to a deadline slot (R84): never while its stack retrains (R363), at most one in a cycle of the hub's timer, and
one in two cycles on a channel at steps 8 to 10. -/
def execControllerAdmission (req : Nat) (s : State) : Out :=
  .next (match s.req req with
    | none => s
    | some r =>
      let pa := local46 r.tgt.base
      let st := s.stack (hbmStack pa)
      let place := memSidePlace pa
      let busy := s.reedUsed 9 place s.hub.clk 0 +
        (if isHbm pa && st.step < 11 then s.reedUsed 9 place (s.hub.clk - 1) 0 else 0)
      if !s.needsSlot r then s
      else if s.queueAhead r || busy ≠ 0 || (isHbm pa && st.retraining) then
        s.setReq { r with stamp := if r.stamp = 0 then s.fresh + 1 else r.stamp }
      else
        (s.reserve r.agent.core [⟨9, place, 0, 1, 0⟩] (s.core r.agent.core).cyc).setReq { r with admitted := true })

/-- Probes of one instruction that come to the same reed book in ascending lane order (R83). -/
def State.bookTurn (s : State) (r : Req) (level : Nat) : Bool :=
  let first := fun (q : Req) => ((s.claims q level 0).head?.map fun c => (c.cls, c.num))
  s.reqs.all fun q => !(r.fellow q && q.id < r.id && q.phase = .probe && s.ready q && s.mayAnswer q level &&
    first q = first r)

/-- A level may book now: probes that reach DRAM or the LPDDR tier are admitted first, and those of R88 have
their data at the hub. -/
def State.mayBook (s : State) (r : Req) (level : Nat) : Bool :=
  r.phase = .probe && s.ready r && s.mayAnswer r level && s.bookTurn r level &&
  (level < 6 || level = 8 || r.admitted || r.op.isWait) && (level ≠ 8 || r.hub || r.op.isWait)

/-- The first cycle from which the path is searched: the probe's own on an idle device (R365). -/
def State.readyAt (s : State) (r : Req) (level wait : Nat) : Nat :=
  let cyc := (s.core r.agent.core).cyc
  if level = 8 then cyc
  else if s.idle r && cyc < r.issued + 31 then r.issued
  else r.issued + wait

/-- A level books the return path; its answer is on its way. -/
def execBooking (req level wait : Nat) (s : State) : Out :=
  .next (match s.req req with
    | none => s
    | some r =>
      let cyc := (s.core r.agent.core).cyc
      let fig := Config.idleFigure level (r.far level) + r.extra
      let at_ := s.readyAt r level wait
      let claims := s.claims r level fig
      match s.firstSlot r.agent.core claims (cyc + 1024 - min at_ (cyc + 1023)) at_ with
      | some c =>
        s.when (s.mayBook r level && cyc < c + fig)
          ((s.reserve r.agent.core claims c).setReq { s.inject r level with
            phase := .answered, level := level, dist := r.far level, slot := c + fig })
      | none => s)

/-- The answer reaches the core before the promised cycle (R80, R85). A retry keeps the first promise. -/
def execProbeAnswer (req : Nat) (s : State) : Out :=
  .next (match s.req req with
    | none => s
    | some r =>
      let cyc := (s.core r.agent.core).cyc
      let first := r.promise = 0
      let r' := { r with phase := .booked, promise := if first then r.slot else r.promise }
      s.when (r.phase = .answered && r.issued + Config.answerFigure r.level r.dist ≤ cyc && cyc < r.slot)
        (if first then (s.setReq r').reqT r' stBooked r'.promise else s.setReq r'))

/-- A booking that a ring, a port or a collector makes itself: the promise lies fig cycles from now, or later
where the reeds are taken (R95). -/
def State.bookAt (s : State) (r : Req) (level fig : Nat) (shown : Bool) : State :=
  let cyc := (s.core r.agent.core).cyc
  let claims := s.claims r level fig
  match s.firstSlot r.agent.core claims 1024 cyc with
  | some c =>
    let r' := { r with phase := if shown then .booked else .answered, level := level, slot := c + fig,
                       promise := if shown then c + fig else 0 }
    let s1 := (s.reserve r.agent.core claims c).setReq r'
    if shown then s1.reqT r' stBooked (c + fig) else s1
  | none => s

/-! ### Performance at the booked slot (R86) -/

/-- A load performs at its Home, beyond the hub before its last leg is booked (R88). -/
def State.performLoad (s : State) (r : Req) : State :=
  let q := { r with hub := r.hub || s.beyondHub r }
  if s.peerLost r.tgt then s.peerError r r.va
  else match s.fate r r.tgt with
    | .older => s.reject r
    | .newer => s
    | .current =>
      (match r.tgt with
       | .cell pa _ => if s.cellRoom pa then (s.bringCell r.agent.asid pa).satisfy q else s
       | t => s.streamL2 ((s.reached r.agent.asid t r.size).satisfy q) r.hint)

/-- Waiting conditions that the home of a word already holds (R280). -/
def State.waitersAt (s : State) (t : Tgt) (asid : Nat) : Nat :=
  (s.reqs.filter fun q => q.op.isWait && q.admitted && !q.homed &&
    (match q.tgt, t with
     | .spad c _, .spad d _ => c = d
     | _, _ => s.genPlace q.agent.asid q.tgt = s.genPlace asid t && (s.genPlace asid t).isSome)).length

/-- A waiting condition reaches its Home (R279, R280, R283): the GEN is checked, the value tested, and it is
held unless the table is full; then it is tested against the value at its arrival only. -/
def State.arriveWait (s : State) (r : Req) : State :=
  if s.peerLost r.tgt then s.peerError r r.va
  else match s.fate r r.tgt, s.poisonOf r.tgt r.span with
    | .older, _ => s.reject r
    | .newer, _ => s
    | .current, some rec => s.endError r rec
    | .current, none =>
      let full := 256 ≤ s.waitersAt r.tgt r.agent.asid
      let s1 := (s.setReq { r with admitted := true, overflow := full }).testWaiter r.id
      match s1.req r.id with
      | some q => if full && !q.homed then s1.setReq { q with admitted := false } else s1
      | none => s1

/-- The request's line goes into the core's L1 as clean copies, where it has a place (R70, R276). -/
def State.fillLine (s : State) (r : Req) : Option State :=
  match r.tgt.viewAt with
  | some a =>
    (s.useL1 r.agent.core (align a 128)).map fun t =>
      s.streamL1 ((t.fillSector r.agent.core (align a 128 / 64) r.tgt.isUo r.agent.asid).fillSector r.agent.core
        (align a 128 / 64 + 1) r.tgt.isUo r.agent.asid) r.agent.core r.hint (align a 128) true
  | none => none

/-- Lines pinned in the L1 set of a line, and in its L2 set at its home (R70). -/
def State.pinsNear (s : State) (core part line : Nat) (l2 : Bool) : Nat :=
  if l2 then (s.l2pins.filter fun p => s.homeHash part p.line = s.homeHash part line &&
    Config.l2Set p.line = Config.l2Set line).length
  else ((s.core core).pins.filter fun p => bits p.line 7 8 = bits line 7 8).length

/-- A line takes a pin of a context: its line is fetched where it is absent (R70). Without a place in L1 now it waits.
-/
def State.addPin (s : State) (r : Req) (l2 : Bool) (line : Nat) : Option State :=
  let pin : Pin := ⟨line, r.agent.ctx, false⟩
  if l2 then
    some (({ s.fetchL2 line r.agent.asid with l2pins := pin :: s.l2pins } : State).mapCtx r.agent.ctx fun x =>
      { x with adds := x.adds ++ [2] })
  else (s.fillLine r).map fun t => t.mapCore r.agent.core fun c => { c with pins := pin :: c.pins }

/-- The status of an LCK, and the machine with its pin (R70, R72). -/
def State.pin (s : State) (r : Req) (l2 : Bool) : Option (Nat × State) :=
  let core := r.agent.core
  let ctx := r.agent.ctx
  match pinLine r.tgt with
  | some line =>
    let ps := if l2 then s.l2pins else (s.core core).pins
    let limit := if l2 then (s.block core ctx).l2lim else (s.block core ctx).l1lim
    if r.unpinnable then some (3, s)
    else if ps.any fun p => p.line = line && p.ctx = ctx then some (1, s)
    else if limit ≤ (ps.filter fun p => p.ctx = ctx).length ||
        (if l2 then 9 else 6) ≤ s.pinsNear core (s.partOf r.agent.asid) line l2 then some (2, s)
    else (s.addPin r l2 line).map fun t => (0, t)
  | none => some (3, s)

/-- LCK performs, in lane order for lanes that name one line (R70). -/
def State.performLck (s : State) (r : Req) (l2 : Bool) : State :=
  if !s.laneOrder r then s
  else match s.pin r l2 with
    | some (st, s1) => s1.setReq { r with satisfied := true, parts := r.parts.map fun p => { p with val := st } }
    | none => s

/-- A pin or a prefetch meets the GEN of its home, unless the core answers it (R35, R86). -/
def State.lineFate (s : State) (r : Req) : Fate := if r.level ≤ 1 then .current else s.fate r r.tgt

/-- A pin or a prefetch performs, beyond the hub before its last leg is booked (R88). -/
def State.performLine (s : State) (r : Req) : State :=
  let q := { r with hub := r.hub || s.beyondHub r }
  if !r.unpinnable && s.peerLost r.tgt then s.peerError r r.va
  else match s.lineFate r, r.op with
    | .older, _ => s.reject r
    | .newer, _ => s
    | .current, .lck l2 => s.performLck q l2
    | .current, _ =>
      (match s.fillLine r with
       | some t => s.streamL2 (t.setReq { q with satisfied := true }) r.hint
       | none => s)

/-- CMO's action on the core's copies of its line; copies that a booked hit holds stay (R278, R87). Its translation is
of the core's own generation (R52). -/
def State.performCmo (s : State) (r : Req) (f : Nat) : State :=
  let core := r.agent.core
  match lineOf r.tgt with
  | none => s.finish r 0
  | some line =>
    if fateOf (s.coreGen core r.agent.asid) r.gen = .older then s.reject r
    else
    let mine := (List.range 128).map (line + ·)
    let s1 := if f = 1 then s else s.writeBackBytes core mine
    let s2 := if f = 0 then s1 else s1.mapCore core fun c => c.dropClean fun a _ => a / 128 = line / 128
    if f ≠ 0 && s.dropHeld core fun a _ => a / 128 = line / 128 then s else s2.finish r 0

/-- A take of the core's ring: the oldest filled slot, as an acquire of its body (R131, R117). It is booked as a read of
the slot's first word that starts in the fill cycle: the clock waits for it (R95). -/
def State.performTake (s : State) (r : Req) (n : Nat) : State :=
  let core := r.agent.core
  let x := s.ring core n
  if !s.mayTake r n then s
  else
    let off := x.base + x.takeIdx * 2 ^ x.log2
    let s1 := s.setRing core n { x with takeIdx := (x.takeIdx + 1) % max 1 x.count, filled := x.filled - 1 }
    let s2 := if s.wide r.key r.scope then s1.acquireDrop core false else s1
    s2.bookAt { r with satisfied := true, parts := r.parts.map (fun p => { p with val := off }),
                       turns := bankTurns [] [2 ^ 20 * core + off / 4] } 0 8 true

/-- Bytes of a put's message word. -/
def msgOff (x : Nat) : Nat := bits x 0 21
def msgLen (x : Nat) : Nat := bits x 22 10 + 1

/-- A put reaches its port (R95, R129, R130): a release first, and after the older puts of its weft to the
ring. A put to a peer is answered by the peer, or is lost (R19, R286). -/
def State.performPut (s : State) (r : Req) (t : Nat) : State :=
  match r.parts, ringTarget t with
  | p :: _, some (dev, core, n) =>
    let older := s.reqs.any fun q => q.key = r.key && q.op = .rput t && q.id < r.id &&
      (q.phase = .probe || q.phase = .waiting)
    if !s.mayReach r || older || !s.releaseReady r.key p.lane r.id r.scope || s.acquirePending r.key p.lane r.id then s
    else if dev ≠ s.devnum then
      (if !s.reach dev then
         (s.errorRecord 4 r.agent.tenant 8 r.agent.core (s.unsaid 1) t (s.unsaid 3)).endError r s.errSeq
       else
        let st := s.any 2 % 3
        s.bookAt { r with satisfied := true, status := st, parts := [{ p with val := st }] } 8 40 false)
    else
      let a : Put := ⟨.lane r.id, r.agent.tenant, r.agent.team, r.agent.core, s.spbase r.key + msgOff p.x,
        msgLen p.x, [], [], false, 0⟩
      (s.setRing core n { s.ring core n with port := (s.ring core n).port ++ [a] }).setReq
        { r with phase := .waiting, dist := distance r.agent.core core }
  | _, _ => s

/-- Nothing of its lane delays a waiting condition; the core's own dirty bytes of the word are written back
first (R104; assumption 21). -/
def State.mayArrive (s : State) (r : Req) : Bool :=
  s.acquired r && s.ownDrained r &&
  r.parts.all fun p => match p.tgt.viewAt with
    | some a => !(s.core r.agent.core).dirtyIn a r.span
    | none => true

/-- The request performs, its Home sound. -/
def State.atHomeNow (s : State) (r : Req) : State :=
  let booked := r.phase = .booked || r.phase = .answered
  match r.op with
  | .load _ | .ldtag =>
    s.when ((booked || s.beyondHub r) && !s.viewServes r && s.maySatisfy r) (s.performLoad r)
  | .waitc _ | .barw =>
    s.when (r.phase = .probe && !r.admitted && !r.overflow && s.mayArrive r) (s.arriveWait r)
  | .pref | .lck _ => s.when ((booked || s.beyondHub r) && !r.satisfied) (s.performLine r)
  | .cmo f => s.when (r.phase = .probe) (s.performCmo r f)
  | .rtake n => s.when (r.phase = .probe && !r.satisfied) (s.performTake r n)
  | .rput t => s.when (r.phase = .probe) (s.performPut r t)
  | _ => s

/-- A request performs: where its booked slot lies at the home, or on its arrival where nothing books it. An
uncorrectable error that it finds poisons the block or word first (R75). -/
def execHomePerform (req : Nat) (err : Bool) (s : State) : Out :=
  .next (match s.req req with
    | none => s
    | some r => (if err then s.markPoison r else s).atHomeNow r)

/-- A WAITC that found its table full is sent again every 256 cycles (R280). -/
def execWaitcResend (req : Nat) (s : State) : Out :=
  .next (match s.req req with
    | none => s
    | some r =>
      s.when (r.op.isWait && r.overflow && !r.admitted && !r.homed &&
          r.issued + 256 * (r.tries + 1) ≤ (s.core r.agent.core).cyc)
        (s.arriveWait { r with tries := r.tries + 1 }))

/-! ### Landing (R80, R365) -/

/-- Hub return ports that a booked request's data passes. -/
def State.hubPorts (s : State) (r : Req) : List Nat :=
  ((s.claims r r.level 0).filter fun c => c.cls = 6).map (·.num)

/-- A transfer of the same path, booked before, is being retried: this one does not overtake it (R60). -/
def State.behindRetry (s : State) (r : Req) : Bool :=
  s.reqs.any fun q => q.id != r.id && q.phase = .booked && q.cause = 4 && dieOf q.agent.core = dieOf r.agent.core &&
    q.slot < r.slot && (s.hubPorts q).any (s.hubPorts r).contains

/-- A booked landing may come in this cycle: one of the 32 that end with its slot, or exactly the slot for the
core's own scratchpad and windows; later where a cause of R89 delays it. Once the promise has passed, the register is
LATE first (R80). A landing that ERRINJ has delayed comes in exactly its cycle (R289). -/
def State.landingDue (s : State) (r : Req) : Bool :=
  let cyc := (s.core r.agent.core).cyc
  r.satisfied && r.phase = .booked && (cyc ≤ r.promise || r.late) && !s.behindRetry r &&
  (if r.level = 0 || (r.inject ≠ 0 && !r.armed) then r.slot ≤ cyc else r.slot ≤ cyc + 31) &&
  (cyc ≤ r.slot || (r.cause ≠ 0 && r.cause ≠ 5))

/-- ERRINJ delays a landing that would come now (R289). -/
def Req.delays (r : Req) : Bool := r.armed && r.inject ≠ 0

/-- The landing comes now. -/
def State.mayLand (s : State) (r : Req) : Bool := s.landingDue r && !r.delays

/-- ERRINJ's COUNT decreases as it delays a landing; at 0 EN clears (R92, R289). -/
def countInject (e : Word) : Word :=
  let n := bits e.toNat 0 16 - 1
  BitVec.ofNat 64 (setBits (if n = 0 then e.toNat % 2 ^ 63 else e.toNat) 0 16 n)

/-- A refused put, or a request of a fold that its round refused, marks its lanes (R129, R135). -/
def State.markRefused (s : State) (r : Req) : State :=
  match r.op, r.status with
  | .rput t, 2 => s.mapWeft r.key fun w => w.eachLane (lanesOf r.lanes) fun _ x =>
      { x with refused := put (r.tsel.getD (4 + r.id)) (r.mark x 0x12 0 (BitVec.ofNat 64 t)) x.refused }
  | .fld f _ _ _, 1 => s.mapWeft r.key fun w => w.eachLane (lanesOf r.lanes) fun _ x =>
      { x with refused := put (r.tsel.getD (4 + r.id)) (r.mark x 0x13 1 (BitVec.ofNat 64 (f % 64))) x.refused }
  | _, _ => s

def execDataLanding (req : Nat) (s : State) : Out :=
  .next (match s.req req with
    | none => s
    | some r =>
      if r.op = .barw then s.when (r.homed && r.satisfied) (s.complete r)
      else if !s.landingDue r then s
      else
        let s1 := if !r.armed then s else s.mapCore r.agent.core fun c => { c with errinj := countInject c.errinj }
        if r.delays then s1.setReq { r with armed := false, slot := (s.core r.agent.core).cyc + r.inject }
        else (s1.complete r).markRefused r)

/-- CYC has passed the promise with no landing: LATE, logged with the first cause that occurred after the booking (R80,
R89, R90). A delay that ERRINJ set as the level booked is recorded where no other cause delays the request (assumption
77). -/
def execPromiseExpiry (req : Nat) (s : State) : Out :=
  .next (match s.req req with
    | none => s
    | some r =>
      let cause := if r.cause = 0 then 5 else r.cause
      let r' := { r with late := true, cause := cause }
      s.when (r.promise ≠ 0 && !r.late && r.promise < (s.core r.agent.core).cyc)
        (((s.setReq r').breakPromise r' cause).reqT r' stLate r.promise))

/-! ### Retries (R36, R60, R74) -/

/-- How a request's accesses are checked (R28). -/
def ReqOp.acc : ReqOp → Acc
  | .store => .write
  | .sttag => .sttag
  | .ldtag => .ldtag
  | .atom _ | .cas => .atom
  | .cadd => .cadd
  | .clrc => .clrc
  | .pref | .lck _ | .cmo _ => .pin
  | .waitc _ => .waitc
  | .bara | .barw => .bar
  | _ => .read

/-- Bytes that the check of a part covers. -/
def Req.checked (r : Req) (p : Part) : Nat :=
  match r.op with
  | .cadd => 32
  | .clrc => 32 * p.x
  | .ldtag | .sttag => 64
  | _ => max 1 r.size

/-- The parts translated again under the current GEN. -/
def State.retranslate (s : State) (r : Req) : List (Part × Check) :=
  r.parts.map fun p => (p, s.check r.agent (BitVec.ofNat 64 p.va) 1 (r.checked p) r.op.acc)

/-- A request placed at the targets of its new translation: a load probes again, a store stands in its Store
Queue with its new page. -/
def State.replaceParts (s : State) (r : Req) (cs : List (Part × Check)) : State :=
  let parts := cs.map fun c => match c.2 with | .ok t _ => { c.1 with tgt := t } | _ => c.1
  let walked := cs.any fun c => match c.2 with | .ok _ w => w.walked | _ => false
  let s1 := cs.foldl (fun s c => match c.2 with | .ok _ w => s.keepWalk r.agent.core w | _ => s) s
  let r' := { r with parts := parts, gen := s.coreGen r.agent.core r.agent.asid, satisfied := false, admitted := false,
                     overflow := false, stamp := 0, issued := (s.core r.agent.core).cyc,
                     phase := if r.op = .store then .waiting else if walked then .walk else .probe }
  let s2 := s1.setReq r'
  if r.op = .store then
    s2.mapWeft r.key fun w => { w with sq := w.sq.map fun e =>
      if e.req = r.id then { e with tgt := r'.tgt } else e }
  else s2

/-- An entry not yet posted for a page that a request of the same instruction found (R173). -/
def State.samePage (s : State) (r : Req) (va : Nat) (e : FaultEntry) : Bool :=
  match e.resume with
  | .reqs (i :: _) => e.asid = r.agent.asid && e.va / 65536 = va / 65536 &&
      (match s.req i with | some q => r.fellow q | none => false)
  | _ => false

/-- A recoverable fault that a request meets after its issue (R36, R28): one entry for each page of an instruction
(R173). -/
def State.lateFault (s : State) (r : Req) (va : Nat) : State :=
  let s1 := s.setReq { r with phase := .fault }
  if s.faults.any (s.samePage r va) then
    { s1 with faults := s.faults.map fun e =>
        if s.samePage r va e then
          { e with lanes := e.lanes ||| r.lanes,
                   resume := match e.resume with | .reqs ids => .reqs (ids ++ [r.id]) | x => x }
        else e }
  else
    s1.newFault r.agent r.op.acc.kind va r.agent.slot (match r.tsel with | some n => n | none => 0) r.lanes (.reqs [r.id])

/-- Translate again, then: replace, fault, or freeze the weft (R36). -/
def State.tryAgain (s : State) (r : Req) : State :=
  let cs := s.retranslate r
  match cs.findSome? fun c => match c.2 with | .trap a _ => some (a, c.1.va) | _ => none with
  | some (cause, _) =>
    (s.setReq { r with phase := .cancelled }).freezeLate r.key cause r.epc
  | none =>
    match cs.find? fun c => match c.2 with | .recov => true | _ => false with
    | some c => s.lateFault r c.1.va
    | none => s.replaceParts r cs

/-- A prefetch or a CMO never traps: where its page is gone it has nothing more to do (R276, R278). -/
def State.retry (s : State) (r : Req) : State :=
  match r.op with
  | .pref | .cmo _ =>
    if (s.retranslate r).any fun c => match c.2 with | .ok _ _ => false | _ => true then s.finish r 0 else s.tryAgain r
  | _ => s.tryAgain r

def execStaleRetranslate (req : Nat) (s : State) : Out :=
  .next (match s.req req with
    | none => s
    | some r => s.when (r.phase = .stale) (s.retry r))

/-- A cause of R89 meets a booked request: the first is recorded. -/
def State.delay (s : State) (req cause : Nat) (ok : Req → Bool) : State :=
  match s.req req with
  | none => s
  | some r => s.when ((r.phase = .booked || r.phase = .answered) && ok r)
      (s.setReq { r with cause := if r.cause = 0 then cause else r.cause })

/-- A corrected error in L2, the memory-side cache or DRAM is retried, and counted in the log (R74). -/
def execCorrectedErrorRetry (req : Nat) (s : State) : Out :=
  let hit := fun r : Req => 3 ≤ r.level && r.level ≤ 7
  .next (match s.req req with
    | none => s
    | some r => if (r.phase = .booked || r.phase = .answered) && hit r then
        ((s.delay req 1 hit).errorRecord 1 0xFF r.level 0xFFFF (s.unsaid 1) (local46 r.tgt.base) 1) else s)

/-- A parity error in a clean sector of L1 or L2 is refetched, and counted in the log (R74). -/
def execParityRefetch (req : Nat) (s : State) : Out :=
  let hit := fun r : Req => r.level = 1 || r.level = 3 || r.level = 4
  .next (match s.req req with
    | none => s
    | some r => if (r.phase = .booked || r.phase = .answered) && hit r then
        ((s.delay req 2 hit).errorRecord 1 0xFF r.level (if r.level = 1 then r.agent.core else 0xFFFF) (s.unsaid 1)
          (local46 r.tgt.base) 1) else s)

/-- A die-to-hub transfer is retried (R60). -/
def execLinkretry (req : Nat) (s : State) : Out :=
  .next (s.delay req 4 fun r => !(s.hubPorts r).isEmpty)

/-- The draw of an activate: the hardware's random source, or in test mode the channel's sequence (R65). -/
def State.drawOf (s : State) (st : Stack) (channel : Nat) : Nat :=
  match st.test with
  | some seed => Config.testDraw seed channel (lookD channel 0 st.draws)
  | none => s.any 0

/-- A row opens in an HBM channel, for a miss of its memory-side cache or the write-back of an evicted block (R62); a
random draw refreshes the rows beside it (R65). -/
def execDramActivate (stack channel row : Nat) (s : State) : Out :=
  let st := s.stack stack
  let st1 := { st with activates := st.activates + 1, draws := put channel (lookD channel 0 st.draws + 1) st.draws }
  .next (s.when (stack < 8 && channel < 32 && s.rows.contains (32 * stack + channel))
    (({ s with rows := s.rows.erase (32 * stack + channel) } : State).setStack stack
      (if s.drawOf st channel % 2 ^ st.k = 0 then
        { st1 with refreshed := st1.refreshed ++ [(channel, row - 1), (channel, row + 1)] } else st1)))

/-! ### The log's head and injection (R91, R92) -/

/-- A deferred control-register write completes: its weft is released, its store is DONE (R264). -/
def State.pwriteDone (s : State) (p : PWrite) : State :=
  let s1 := { s with pwrites := s.pwrites.filter fun q => q.id != p.id }
  let free : Nat × Weft → Nat × Weft := fun e =>
    if e.2.hold = .pwrite p.id then (e.1, { e.2 with hold := .none }) else e
  ({ s1 with wefts := s1.wefts.map free } : State).storeDone p.id

/-- The pending write of an id, if its register is one of some. -/
def State.pwriteOf (s : State) (id : Nat) (ok : Nat → Bool) : Option PWrite :=
  s.pwrites.find? fun p => p.id = id && ok p.num

/-- A write of HEAD sets it and zeroes every entry (R91). -/
def execBplogHeadWrite (pw : Nat) (s : State) : Out :=
  .next (match s.pwriteOf pw (· = 0x021) with
    | some p => (s.mapCore p.core fun c => { c with bphead := p.val, bplog := [] }).pwriteDone p
    | none => s)

/-- A write of ERRINJ that sets EN with COUNT = 0 leaves EN at 0 (R92). -/
def execErrinjWrite (pw : Nat) (s : State) : Out :=
  .next (match s.pwriteOf pw (· = 0x023) with
    | some p =>
      let v := if bits p.val.toNat 0 16 = 0 then BitVec.ofNat 64 (p.val.toNat % 2 ^ 63) else p.val
      (s.mapCore p.core fun c => { c with errinj := v }).pwriteDone p
    | none => s)

end Sys2Proof.Machine
end

