-- ==== Sys2Proof/Machine/Faulting.lean ====
section
/-!
DEFINITION. Recoverable faults from posting to replay (R173 to R176), generations (R37, R52), the host and
the peers as they reach this device (R19, R69, R356 to R358), and the loss of a peer (R11).
-/
namespace Sys2Proof.Machine

/-! ### Posting (R173, R174) -/

/-- A word of a tenant block (R354). -/
def State.tenantWord (s : State) (t off : Nat) : Nat := (lookD off (0 : Word) (s.tenant t).blk).toNat

/-- The next sequence number; 0xFFFF_FFFF is skipped. -/
def nextSeq (n : Nat) : Nat := if n + 1 = 2 ^ 32 - 1 then 0 else n + 1

/-- The 64 bytes of an entry. -/
def FaultEntry.image (e : FaultEntry) : List Byte :=
  leBytes 4 e.seq ++ leBytes 1 e.kind ++ leBytes 1 e.asid ++ leBytes 2 e.gen ++ leBytes 8 e.va ++
    leBytes 2 e.core ++ leBytes 1 e.weft ++ leBytes 1 e.treg ++ leBytes 16 e.lanes.toNat ++ leBytes 28 0

/-- A lane's wait on a time register whose request has come to a fault, or is made again: a sleeper parks, and goes on
with the same wait; one parked in TWAIT is in the issue pool again (R94, R290). -/
def Lane.rewait (x : Lane) (n : Nat) (fault : Bool) : Lane :=
  match x.wait with
  | .treg m _ => if m = n && fault then { x with wait := .park (some n) } else x
  | .park (some m) => if m = n && !fault then { x with wait := .treg n false } else x
  | .parkPool m => if m = n && !fault then { x with wait := .none } else x
  | _ => x

/-- The lanes that wait on a request. -/
def State.rewait (s : State) (r : Req) (fault : Bool) : State :=
  match r.tsel with
  | none => s
  | some n => s.mapWeft r.key fun w => w.eachLane (lanesOf r.lanes) fun _ x =>
      if lookD n 0 x.treq = r.id then x.rewait n fault else x

/-- A request takes FAULT in its registers; a booked one has broken its promise (R80, R90). -/
def State.faulted (s : State) (seq id : Nat) : State :=
  match s.req id with
  | none => s
  | some r =>
    let s1 := (s.endBroken r 3).closeLog r
    let r' := { r with phase := .posted seq, promise := 0, slot := 0, cause := 0, late := false }
    let v := seq % 4096 * 2 ^ 16 + seq % 2 ^ 16
    match r.op with
    | .store => s1.setReq r'
    | _ => ((s1.setReq r').reqT r' stFault v).rewait r' true

/-- Requests of the round of a fold that waits on a fault. -/
def State.roundReqs (s : State) (key n : Nat) : List Nat :=
  match (s.fold key).rounds.find? fun x => x.n = n with | some x => x.reqs | none => []

/-- What the posting of an entry marks. -/
def State.markPosted (s : State) (e : FaultEntry) : State :=
  match e.resume with
  | .reqs ids => ids.foldl (fun s id => s.faulted e.seq id) s
  | .chan core ch =>
    let c := (s.core core).chan ch
    let mark := fun (k : Cmd) => if k.parkSeq = some (2 ^ 32) then { k with parkSeq := some e.seq } else k
    s.setChan core ch { c with run := c.run.map mark }
  | .fold key =>
    let f := s.fold key
    (s.roundReqs key f.delivered).foldl (fun s id => s.faulted e.seq id)
      (s.setFold key { f with rounds := f.rounds.map fun x =>
        if x.n = f.delivered then { x with fault := some e.seq } else x })
  | .task m key mark =>
    let md := s.meadow m
    s.setMeadow m { md with queues := md.queues.map fun q =>
      (q.1, if q.1 = key then q.2.map fun t =>
              if t.parkSeq = some (2 ^ 32 + mark) then { t with parkSeq := some e.seq } else t
            else q.2) }
  | .lanes _ _ _ | .loom _ | .launch _ _ => s

/-- An entry may be posted: its queue is enabled, its slot free, and no older fault of the same weft of the
tenant is still waiting (R173, R174). -/
def State.mayPost (s : State) (idx : Nat) (e : FaultEntry) : Bool :=
  e.tenant < 16 && (s.tenantWord e.tenant 8).testBit 0 &&
  !((s.tenant e.tenant).slots.any fun q => q % 4096 = (s.tenant e.tenant).faultSeq % 4096) &&
  !((s.faults.take idx).any fun x => x.tenant = e.tenant && x.core = e.core && x.weft = e.weft)

def execFaultPost (idx : Nat) (s : State) : Out :=
  .next (match s.faults[idx]? with
    | none => s
    | some e0 =>
      if !s.mayPost idx e0 then s
      else
        let seq := (s.tenant e0.tenant).faultSeq
        let e := { e0 with seq := seq }
        let s1 := (s.wr (s.tenantWord e.tenant 0 + 64 * (seq % 4096)) e.image).wake
        let s2 := { s1 with faults := s1.faults.eraseIdx idx }
        let s3 := s2.mapTenant e.tenant fun t =>
          { t with faultSeq := nextSeq seq, faults := put seq e t.faults, slots := t.slots ++ [seq] }
        (s3.markPosted e).interrupt e.tenant 0)

/-! ### Replay (R175) -/

/-- A request that stands at a posted fault is made again: OPEN, translated afresh. -/
def State.replayReq (s : State) (id : Nat) : State :=
  match s.req id with
  | none => s
  | some r =>
    match r.phase with
    | .posted _ =>
      let cyc := (s.core r.agent.core).cyc
      let r' := { r with issued := cyc, start := cyc, level := 16 }
      ((if r.op = .store then s.setReq r' else ((s.setReq r').reqT r' stOpen cyc).rewait r' false)).tryAgain r'
    | _ => s

/-- Operand pages of MMAS entries of a loom, checked again (R320). -/
def State.resumeLoom (s : State) (core : Nat) (e : FaultEntry) : State :=
  let hit := fun o : MmaOp => o.agent.asid = e.asid && o.faults.contains e.va
  match (s.core core).loomOps.find? hit with
  | none => s
  | some o =>
    let drop := fun o : MmaOp => if hit o then { o with faults := o.faults.filter (· != e.va) } else o
    let s1 := s.mapCore core fun c => { c with loomq := c.loomq.map fun x => match x with
      | .mma o => .mma (drop o)
      | .oprdy a b => .oprdy a b }
    match s.pageCheck o.agent e.va with
    | .ok _ w => s1.keepWalk core w
    | .recov => s.newFault o.agent 0 e.va e.weft 0xFE e.lanes (.loom core)
    | .trap c _ => s1.freezeLate (64 * core + o.agent.slot) c 0

/-- A fold request made again from a fault: OPEN, at its collector or on its way there. -/
def State.openFold (s : State) (r : Req) (phase : Phase) : State :=
  let cyc := (s.core r.agent.core).cyc
  let r' := { r with phase := phase, issued := cyc, start := cyc }
  ((s.setReq r').reqT r' stOpen cyc).rewait r' false

/-- A fold request is numbered afresh, on the fold of its core's die (R134, R135). -/
def State.renumber (s : State) (r : Req) : State × Req :=
  match r.op with
  | .fld key off len _ =>
    let k := 64 * dieOf r.agent.core + key % 64
    let j := (s.fold k).nextRound r.agent.core
    (s.setFold k j.2, { r with op := .fld k off len j.1, tries := 0 })
  | _ => (s, r)

/-- Is this a fold request that stands at the fault of a sequence number? -/
def Req.foldAt (r : Req) (seq : Nat) : Bool :=
  r.phase = .posted seq && match r.op with | .fld _ _ _ _ => true | _ => false

/-- Fold requests of the fault of a round that are in it no more, their teams having been saved since (R137, R176):
those of a resumed team ask anew, those of a saved one will. -/
def State.resumeAway (s : State) (seq : Nat) : State :=
  let again : Replay → Replay := fun x => if x.req.foldAt seq then { x with req := { x.req with phase := .probe } } else x
  let turn : Nat × Team → Nat × Team := fun t =>
    if t.2.replays.any (fun x => x.req.foldAt seq) then (t.1, { t.2 with replays := t.2.replays.map again }) else t
  let s1 : State := { s with teams := s.teams.map turn }
  (s1.reqs.filter fun r => r.foldAt seq).foldl (fun s r => let j := s.renumber r; j.1.openFold j.2 .probe) s1

/-- What an entry resumes. -/
def State.resumeEntry (s : State) (e : FaultEntry) : State :=
  match e.resume with
  | .reqs ids => ids.foldl (fun s id => s.replayReq id) s
  | .lanes core slot mask => s.mapWeft (64 * core + slot) fun w => w.eachLane (lanesOf mask) fun _ x =>
      if x.wait = .park none then { x with wait := .none, age := 0 } else x
  | .chan core ch =>
    let c := (s.core core).chan ch
    let free := fun (k : Cmd) => if k.parkSeq = some e.seq then { k with parkSeq := none } else k
    s.setChan core ch { c with run := c.run.map free, queue := c.queue.map free }
  | .fold key =>
    let f := s.fold key
    let s1 := s.setFold key { f with rounds := f.rounds.map fun x => { x with fault := none } }
    (((f.rounds.filter fun x => x.fault = some e.seq).flatMap (·.reqs)).foldl (fun s id =>
      match s.req id with | some r => s.openFold r .waiting | none => s) s1).resumeAway e.seq
  | .task m key _ =>
    let md := s.meadow m
    s.setMeadow m { md with queues := md.queues.map fun q =>
      (q.1, if q.1 = key then q.2.map fun t => if t.parkSeq = some e.seq then { t with parkSeq := none } else t
            else q.2) }
  | .loom core => s.resumeLoom core e
  | .launch core slot => s.mapWeft (64 * core + slot) fun w =>
      if w.hold = .launchFault then { w with hold := .none } else w

/-- Entries whose team is saved wait for its resume (R176). -/
def Resume.ofTeam : Resume → Bool
  | .reqs _ | .lanes _ _ _ | .chan _ _ | .launch _ _ | .loom _ => true
  | _ => false

/-- The oldest accepted FRESUME of a tenant takes effect (R175, R176). -/
def execFaultResume (tenant : Nat) (s : State) : Out :=
  .next (match (s.tenant tenant).fresumes with
    | [] => s
    | seq :: rest =>
      let s1 := s.mapTenant tenant fun t => { t with fresumes := rest }
      match look seq (s.tenant tenant).faults with
      | none => s1
      | some e =>
        if e.resume.ofTeam && (s.team e.team).life = .saved then
          s1.mapTeam e.team fun t => { t with fresumes := t.fresumes ++ [seq] }
        else (s1.mapTenant tenant fun t => { t with faults := del seq t.faults }).resumeEntry e)

/-! ### Generations (R37, R38, R52) -/

/-- Places that acknowledge a GENBUMP: the homes and the cores. -/
def bumpPlaces : Nat := Config.homes + Config.cores

def State.mapBump (s : State) (asid : Nat) (f : Bump → Bump) : State :=
  { s with bumps := s.bumps.map fun b => if b.asid = asid then f b else b }

/-- A core drops the TLB entries and instruction-cache lines of the old generation (R37). -/
def Core.ageOut (c : Core) (asid gen : Nat) : Core :=
  { c with tlb := c.tlb.filter fun e => !(e.asid = asid && e.gen = gen),
           icache := c.icache.filter fun x => !(x.asid = asid && x.gen = gen) }

/-- A home or a core receives the new value. -/
def execGenbumpHomeUpdate (asid place : Nat) (s : State) : Out :=
  .next (match s.bumps.find? fun b => b.asid = asid with
    | none => s
    | some b =>
      if b.updated.contains place || bumpPlaces ≤ place then s
      else
        let s1 := s.mapBump asid fun b => { b with updated := b.updated ++ [place] }
        if place < Config.homes then s1
        else s1.mapCore (place - Config.homes) fun c => c.ageOut asid b.old)

/-- What a place has to have done before it acknowledges: a core has written back what was written under the
ASID and holds no copy of it for a booked hit (R52, R87); a peer link's requests have performed (R37). -/
def State.mayAck (s : State) (asid old place : Nat) : Bool :=
  if place < 528 then true
  else if place < Config.homes then
    s.reqs.all fun r => !(r.agent.asid = asid && r.gen = old && !r.satisfied &&
      (match r.tgt with | .peer pa _ | .peerCell pa _ => 528 + s.linkTo (bits pa 46 6) = place | _ => false) &&
      (r.phase = .booked || r.phase = .answered))
  else
    let core := place - Config.homes
    ((s.core core).view.all fun e => !(e.2.asid = asid && e.2.dirty)) &&
      !s.dropHeld core fun _ b => b.asid = asid

def execGenbumpAck (asid place : Nat) (s : State) : Out :=
  .next (match s.bumps.find? fun b => b.asid = asid with
    | none => s
    | some b =>
      if !b.updated.contains place || b.acked.contains place || !s.mayAck asid b.old place then s
      else
        let s1 := s.mapBump asid fun b => { b with acked := b.acked ++ [place] }
        if place < Config.homes then s1
        else s1.mapCore (place - Config.homes) fun c => c.dropClean fun _ b => b.asid = asid)

/-- GENBUMP completes: its weft takes the new GEN and goes on (R37, R332). -/
def execGenbumpComplete (asid : Nat) (s : State) : Out :=
  .next (match s.bumps.find? fun b => b.asid = asid with
    | none => s
    | some b =>
      if !(List.range bumpPlaces).all (fun p => b.acked.contains p) then s
      else
        let gen := (b.old + 1) % 2 ^ 16
        let free : Nat × Weft → Nat × Weft := fun e =>
          match e.2.hold with
          | .genbump a dst =>
            if a = asid then
              (e.1, { (match dst with | some n => e.2.writeS n (BitVec.ofNat 64 gen) | none => e.2) with hold := .none })
            else e
          | _ => e
        { s with bumps := s.bumps.filter (fun b => b.asid != asid), wefts := s.wefts.map free })

/-! ### The host (R69, R356, R357) -/

/-- The host asks for a line of its own memory that L2 holds: L2 gives it up after the delivery of its booked hits
(R87), and what the host writes there is not the device's to say (R69; assumption 22). -/
def execHostSnoop (line : Nat) (s : State) : Out :=
  let a := align line 128
  let mine := s.l2.filter fun x => x.line = a
  let s1 := mine.foldl (fun s x => s.l2Evict x) s
  .next (s.when (isHost a && !(mine.any s.l2Held))
    (if s.anyBool 0 then (s1.wr a ((List.range 128).map fun i => s.anyBits 8 (8 * i + 1))).wake else s1))

/-- Where a byte of a tenant's HDM range lies (R357). -/
inductive HdmAt
  | mem (pa : Nat)
  | port (off : Nat)
  | outside
  deriving DecidableEq, Repr

def State.hdm (s : State) (tenant x n : Nat) : HdmAt :=
  let hbm := s.tenantWord tenant 0x78
  let lp := s.tenantWord tenant 0x88
  let ok := fun pa : Nat => s.populated 1 pa n
  if s.tenantWord tenant 0x68 ≠ hbm + lp + 24 * 2 ^ 20 then .outside
  else if x + n ≤ hbm then
    (let pa := s.tenantWord tenant 0x70 + x
     if isHbm pa && ok pa then .mem pa else .outside)
  else if hbm ≤ x && x + n ≤ hbm + lp then
    (let pa := s.tenantWord tenant 0x80 + (x - hbm)
     if isLpddr pa && ok pa then .mem pa else .outside)
  else if hbm + lp ≤ x && x + n ≤ hbm + lp + 24 * 2 ^ 20 then .port (x - hbm - lp)
  else .outside

/-- The space of a tenant's function: its memory partition (R55, R354). -/
def State.hostSpace (s : State) (tenant : Nat) : Nat := partSpace (bits (s.tenantWord tenant 0x40) 0 4)

/-- A write of the host at its L2 homes; one of 64 bytes that replaces a block clears its poison (R75, R357). -/
def State.hostPut (s : State) (tenant pa : Nat) (bs : List Byte) : State :=
  ((s.homePut (s.hostSpace tenant) (.mem pa .rc) bs).clearPoison (.mem pa .rc) bs.length).wake

/-- A put of a tenant's ring port that the port has not read yet: what is written to its buffer now, from a byte on, may
be in the message or not (R358). -/
def State.mixPut (s : State) (tenant o : Nat) (bs : List Byte) (p : Put) : Put :=
  if p.src = .host tenant then
    { p with body := ((List.range p.body.length).zip p.body).map fun e =>
        if o ≤ e.1 && e.1 < o + bs.length && s.anyBool (8 * e.1 + 1) then bs.getD (e.1 - o) 0 else e.2 }
  else p

/-- The staging buffers of a tenant's ring ports are written (R358). -/
def State.portWrite (s : State) (tenant off : Nat) (bs : List Byte) : State :=
  let core := off / 4096 / 16
  let ring := off / 4096 % 16
  let x := s.ring core ring
  s.when (off % 4096 + bs.length ≤ 512)
    ((s.mapTenant tenant fun t => { t with ports := mwrite t.ports off bs }).setRing core ring
      { x with port := x.port.map (s.mixPut tenant (off % 4096) bs) })

/-- A write of the host through CXL.mem, from stage 3 on (R357, R362). -/
def execHostMemWrite (tenant off : Nat) (bytes : List (BitVec 8)) (s : State) : Out :=
  .next (s.when (tenant < 16 && 3 ≤ s.hub.stage && bytes.length ≤ 64)
    (match s.hdm tenant off bytes.length with
     | .mem pa => s.hostPut tenant pa bytes
     | .port p => s.portWrite tenant p bytes
     | .outside => s))

/-- The bytes of a ring port as the host reads them: the buffer, and the result word (R358). -/
def State.portRead (s : State) (tenant off n : Nat) : List Byte :=
  let t := s.tenant tenant
  if off % 4096 = 0x808 && n = 8 then leBytes 8 (lookD (off / 4096) (0 : Word) t.portStat).toNat
  else mread t.ports off n

/-- A read of the host; outside the range it completes with the poison indication (R357). -/
def execHostMemRead (tenant off len : Nat) (s : State) : Out :=
  .next (s.when (tenant < 16 && 3 ≤ s.hub.stage && len ≤ 64)
    (match s.hdm tenant off len with
     | .mem pa =>
       let bad := (List.range len).any fun i => (look ((pa + i) / 64) s.poison).isSome
       (s.reached (s.hostSpace tenant) (.mem pa .rc) len).mapTenant tenant fun t =>
         { t with hostData := s.homeGets (s.hostSpace tenant) pa len, hostPoison := bad }
     | .port p => s.mapTenant tenant fun t => { t with hostData := s.portRead tenant p len, hostPoison := false }
     | .outside => s.mapTenant tenant fun t => { t with hostData := [], hostPoison := true }))

/-- The port of (core, ring) takes the doorbell: the buffer's first bytes are put, and the port is busy until
the status stands (R358). -/
def execHostRingDoorbell (tenant core ring lenm1 : Nat) (s : State) : Out :=
  let p := 16 * core + ring
  let t := s.tenant tenant
  let body := mread t.ports (4096 * p) (lenm1 + 1)
  let st := (lookD p (0 : Word) t.portStat).toNat
  let x := s.ring core ring
  let a : Put := ⟨.host tenant, tenant, 0, 0, 0, lenm1 + 1, body, [], false, 0⟩
  .next (s.when (tenant < 16 && 3 ≤ s.hub.stage && core < Config.cores && ring < 16 && lenm1 < 512)
    ((s.mapTenant tenant fun t => { t with portStat := put p (BitVec.ofNat 64 (st ||| 4)) t.portStat }).setRing core ring
      { x with port := x.port ++ [a] }))

/-- An unmasked vector sends its pending message (R356). -/
def execVectorUnmask (tenant vec : Nat) (s : State) : Out :=
  .next (s.when (tenant < 16 && vec < 5) (s.mapTenant tenant fun t =>
    if t.pending.getLsbD vec then
      { t with masked := setBit t.masked vec false, pending := setBit t.pending vec false,
               sent := put vec (lookD vec 0 t.sent + 1) t.sent }
    else { t with masked := setBit t.masked vec false }))

/-! ### Peers (R11, R19, R352) -/

/-- The grant entry of (device, tenant). -/
def State.grant (s : State) (dev tenant : Nat) : Word := lookD (16 * dev + tenant) 0 s.hub.grants

/-- Bit 1 MEM, 2 SPAD, 3 RING of a valid entry. -/
def State.granted (s : State) (dev tenant bit : Nat) : Bool :=
  (s.grant dev tenant).getLsbD 0 && (s.grant dev tenant).getLsbD bit

/-- A local tenant's allocation on a core holds [off, off + n). -/
def State.tenantAlloc (s : State) (tenant core off n : Nat) : Bool :=
  off + n ≤ Config.spadBytes && s.teams.any fun t =>
    t.2.cores.contains core && t.2.life != .saved && t.2.life != .retired && (s.grid t.2.grid).tenant = tenant &&
    assoc t.2.cores t.2.bases core ≤ off && off + n ≤ assoc t.2.cores t.2.bases core + t.2.spad

/-- A refused access of a peer is recorded, and a read answered with the refusal (R19). -/
def State.refusePeer (s : State) (addr : Nat) : State :=
  let s1 := s.errorRecord 4 0xFF 8 0xFFFF (s.unsaid 1) addr (s.unsaid 3)
  { s1 with hub := { s1.hub with peerData := [] } }

/-- A peer's read-modify-write of n bytes of a target: the old value, none at a poisoned granule (R75), and the machine
with the new one. -/
def State.peerModify (s : State) (g : Agent) (t : Tgt) (n : Nat) (new : Nat → Option Nat) : List Byte × State :=
  if (s.poisonOf t n).isSome then ([], s)
  else
    let old := s.homeRead g t n
    (old, match new (leNat old) with
      | some y => s.homeWrite g.asid t (leBytes n y)
      | none => s.reached g.asid t n)

/-- What a granted request of a peer does, and its answer: a read that meets poison has none (R75). -/
def State.peerPerform (s : State) (dev tenant : Nat) (g : Agent) (op : PeerOp) : List Byte × State :=
  let kind := fun (so : Bool) => if so then PageKind.so else PageKind.rc
  let read := fun (t : Tgt) (n : Nat) => if (s.poisonOf t n).isSome then [] else s.homeRead g t n
  let atom := fun (f ty n x old : Nat) => some (atomNew f ty (8 * n) old (x % 2 ^ (8 * n)))
  let cas := fun (n x y old : Nat) => if old = y % 2 ^ (8 * n) then some x else none
  match op with
  | .memRead pa n so => (read (.mem pa (kind so)) n, s.reached g.asid (.mem pa (kind so)) n)
  | .memWrite pa bs so =>
    let t : Tgt := .mem pa (kind so)
    ([], ((s.homePut g.asid t bs).clearPoison t bs.length).wake)
  | .memAtom pa f ty n x so => s.peerModify g (.mem pa (kind so)) n (atom f ty n x)
  | .memCas pa n x y so => s.peerModify g (.mem pa (kind so)) n (cas n x y)
  | .tagRead pa => (leBytes 2 (s.tagOf (.mem pa .rc)).toNat, s)
  | .tagWrite pa y => ([], if (s.poisonOf (.mem pa .rc) 64).isSome then s else s.setTag (.mem pa .rc) y)
  | .cadd pa cls ty x =>
    let a := if tyIsFloat ty then (tyFmt ty).decode x else Fl.ofInt (toSigned (tyWidth ty) x)
    ([], if (s.poisonOf (.cell pa cls) 32).isSome then s
         else (s.setCell g.asid pa (cellAdd cls a (s.cellImg pa))).queueAdd 0 pa)
  | .clrc pa => ([], s.setCell g.asid pa 0)
  | .cellRead pa cls n => (read (.cell pa cls) n, s.bringCell g.asid pa)
  | .spadRead c off n => (read (.spad c off) n, s.claimBanks c off n)
  | .spadWrite c off bs => ([], s.homeWrite g.asid (.spad c off) bs)
  | .spadAtom c off f ty n x => s.peerModify g (.spad c off) n (atom f ty n x)
  | .spadCas c off n x y => s.peerModify g (.spad c off) n (cas n x y)
  | .spadTagRead c off => (leBytes 2 (s.tagOf (.spad c off)).toNat, s)
  | .spadTagWrite c off y => ([], s.setTag (.spad c off) y)
  | .ringPut core ring body =>
    let x := s.ring core ring
    ([], s.setRing core ring { x with port := x.port ++ [⟨.peer dev tenant, g.tenant, 0, 0, 0, body.length, body, [], false, 0⟩] })

/-- Bytes of this device's memory that a peer's request names. -/
def peerMemory : PeerOp → Option (Nat × Nat)
  | .memRead pa n _ | .memAtom pa _ _ n _ _ | .memCas pa n _ _ _ | .cellRead pa _ n => some (pa, n)
  | .memWrite pa bs _ => some (pa, bs.length)
  | .tagRead pa | .tagWrite pa _ => some (pa, 64)
  | .cadd pa _ _ _ | .clrc pa => some (pa, 32)
  | _ => none

/-- Bytes of a scratchpad that a peer's request names. -/
def peerScratch : PeerOp → Option (Nat × Nat × Nat)
  | .spadRead c off n | .spadAtom c off _ _ n _ | .spadCas c off n _ _ => some (c, off, n)
  | .spadWrite c off bs => some (c, off, bs.length)
  | .spadTagRead c off | .spadTagWrite c off _ => some (c, off, 64)
  | _ => none

/-- The grant entry of a peer's tenant allows its request (R19, R69, R129, R352). -/
def State.peerMay (s : State) (q : PeerReq) (lten : Nat) : Bool :=
  match peerMemory q.op, peerScratch q.op, q.op with
  | some m, _, _ => s.granted q.dev q.tenant 1 && s.populated 1 (local46 m.1) m.2
  | _, some x, _ => s.granted q.dev q.tenant 2 && s.tenantAlloc lten x.1 x.2.1 x.2.2
  | _, _, .ringPut core ring body =>
    s.granted q.dev q.tenant 3 && core < Config.cores && ring < 16 && 1 ≤ body.length && body.length ≤ 512
  | _, _, _ => false

/-- What a refusal names in the log. -/
def peerAddr (op : PeerOp) : Nat :=
  match peerMemory op, peerScratch op, op with
  | some m, _, _ => m.1
  | _, some x, _ => x.2.1
  | _, _, .ringPut _ ring _ => ring
  | _, _, _ => 0

/-- A peer's request for a cell waits at the controller while every line of the set is in use (R63, R67). -/
def State.peerWaits (s : State) (op : PeerOp) : Bool :=
  match op with
  | .cadd pa _ _ _ | .clrc pa | .cellRead pa _ _ => !s.cellRoom pa
  | _ => false

/-- A request of a peer device arrives: its grant is checked, and it is performed, its memory at the homes of the
grant's partition, or refused (R19, R69, R129). -/
def execPeerRequestArrival (q : PeerReq) (s : State) : Out :=
  let e := (s.grant q.dev q.tenant).toNat
  let g : Agent := { (default : Agent) with tenant := bits e 4 4, asid := partSpace (bits e 8 4) }
  .next (if s.peerMay q g.tenant then
      s.when (!s.peerWaits q.op) (let a := s.peerPerform q.dev q.tenant g q.op
       match q.op with
       | .ringPut _ _ _ => a.2
       | _ => { a.2 with hub := { a.2.hub with peerData := a.1 } })
    else s.refusePeer (peerAddr q.op))

/-- A peer can no longer be reached: what is on its way there is lost (R11, R19). -/
def execPeerUnreachable (dev : Nat) (s : State) : Out :=
  let s1 := { s with hub := { s.hub with lost := if s.hub.lost.contains dev then s.hub.lost else dev :: s.hub.lost } }
  let hit := s.reqs.filter fun r => r.op != .store && r.tgt.device = some dev && !r.satisfied
  .next (hit.foldl (fun s r => match s.req r.id with | some q => s.peerError q q.va | none => s) s1)

end Sys2Proof.Machine
end

