-- ==== Sys2Proof/Machine/Shuttle.lean ====
section
/-!
DEFINITION. Shuttles (R119 to R126): the acceptance of a command, its chunks, multicast acknowledgements
and completion, and the copies that other engines make by the same rules (R113, R123).
-/
namespace Sys2Proof.Machine

/-! ### Templates (R120, R121) -/

def tmplSigned (t : List Byte) (off : Nat) : Int := toSigned 32 (tmplNum t off 4)
def tmplSrc (t : List Byte) : Nat := tmplNum t 0 8
def tmplDst (t : List Byte) : Nat := tmplNum t 8 8

def Cmd.mcast (c : Cmd) : Bool := tmplFlag c.tmpl 0
def Cmd.ack (c : Cmd) : Bool := tmplFlag c.tmpl 1
def Cmd.tagw (c : Cmd) : Bool := tmplFlag c.tmpl 2
def Cmd.tagp (c : Cmd) : Bool := tmplFlag c.tmpl 3
def Cmd.uov (c : Cmd) : Bool := tmplFlag c.tmpl 4
def Cmd.bmen (c : Cmd) : Bool := tmplFlag c.tmpl 5
def Cmd.ring (c : Cmd) : Bool := tmplFlag c.tmpl 6
def Cmd.fold (c : Cmd) : Nat := tmplNum c.tmpl 36 1
def Cmd.bmoff (c : Cmd) : Nat := tmplNum c.tmpl 32 4

def divides (n : Nat) (x : Int) : Bool := x % (n : Int) = 0

/-- A ring target with a bit outside its fields (R122). -/
def ringReserved (x : Int) : Bool := x < 0 || 2 ^ 22 ≤ x || bits x.toNat 6 3 ≠ 0

/-- The rules of R121 that need no address to be resolved. A BMOFF that is no multiple of 8 (R120) breaks them too
(assumption 85). -/
def Cmd.malformed (c : Cmd) : Bool :=
  let t := c.tmpl
  let rl := tmplRowLen t
  let ss := tmplSigned t 24
  let ds := tmplSigned t 28
  rl = 0 || tmplRows t = 0 || 2048 < tmplChunks t ||
  (c.mcast && c.ring) || (c.tagw && c.tagp) ||
  (c.tagw && !(divides 64 c.dst && rl % 64 = 0 && divides 64 ds)) ||
  (c.tagp && !(divides 64 c.src && divides 64 c.dst && rl % 64 = 0 && divides 64 ss && divides 64 ds)) ||
  (c.ring && (512 < rl || ringReserved (tmplDst t) || ringReserved c.dst)) || c.bmoff % 8 ≠ 0 ||
  2 ^ 52 ≤ tmplSrc t || (!c.ring && 2 ^ 52 ≤ tmplDst t) ||
  tmplFlag t 7 || bits (tmplNum t 36 1) 6 2 ≠ 0 || (t.drop 40).any (· != 0)

/-- The destination lies in a window. -/
def inWindow (va : Int) : Bool := 0 ≤ va && va < 2 ^ 52 && bits va.toNat 48 4 = 0xF

/-! ### Targets of an engine's accesses -/

/-- A target, a recoverable fault, an ERRCODE of R125, or a home whose GEN is not yet the core's (R35). -/
inductive EngAt
  | ok (t : Tgt) (w : WalkRes)
  | recov
  | fail (code : Nat)
  | wait
  deriving DecidableEq, Repr

/-- ERRCODE of a check's trap. -/
def codeOf (cause : Nat) : Nat := if cause = 0x07 ∨ cause = 0x15 then 1 else if cause = 0x08 then 3 else 2

/-- The target of n bytes at VA for an engine, n within one block (R28, R30, R120, R167). -/
def State.engAt (s : State) (g : Agent) (va : Int) (n : Nat) (write : Bool) : EngAt :=
  let a := va.toNat
  let acc : Acc := if write then .write else .block
  if va < 0 || 2 ^ 52 ≤ va then .fail 2
  else
    match (if bits a 48 4 = 0xF then
             (if badWindow a then .trap 4 0 else s.window g a n acc)
           else s.checkLeaf g a n acc (s.walk g.core g.asid a)) with
    | .recov => .recov
    | .trap 4 _ => .fail 4
    | .trap c _ => .fail (codeOf c)
    | .ok t w =>
      match t with
      | .aperture _ | .ctlWin _ => .fail 2
      | .cell _ _ | .peerCell _ _ => .fail 3
      | _ => if write && bits a 48 4 ≠ 0xF && !s.detOk g a n .write then .fail 2
             else if s.peerLost t then .fail 2
             else if s.genMet g.core g.asid t then .ok t w else .wait

/-- The kind that a copy's access has: UO under UOV (R29). -/
def Tgt.asUo (t : Tgt) : Tgt :=
  match t with
  | .mem pa _ => .mem pa .uo
  | .peer pa _ => .peer pa .uo
  | _ => t

/-- The level that a read of an engine comes from. -/
def State.engLevel (s : State) (g : Agent) (t : Tgt) : Nat :=
  match t with
  | .spad c _ => if c = g.core then 0 else 2
  | .mem pa k =>
    if k ≠ .so && s.l2Has g.asid (align (local46 pa) 128) then
      (if s.homeDie (s.partOf g.asid) pa = dieOf g.core then 3 else 4)
    else s.memLevel pa
  | _ => 8

/-- An engine's read of n bytes takes its place on the reeds of its path, and what it reads comes into the caches on the
way (R83, R123, R54, R62). -/
def State.engBook (s : State) (g : Agent) (t : Tgt) (n : Nat) : State :=
  let words := match t with | .spad c off => (spadWords off n).map (2 ^ 20 * c + ·) | _ => []
  let r : Req := { (default : Req) with
    agent := g, size := n, parts := [{ (default : Part) with tgt := t }], turns := bankTurns [] words }
  let ks := s.claims r (s.engLevel g t) 0
  match s.firstSlot g.core ks 1024 (s.core g.core).cyc with
  | some c => (s.reserve g.core ks c).reached g.asid t n
  | none => s.reached g.asid t n

/-! ### Chunks (R113, R120) -/

/-- One piece of a chunk: source, destination and bytes, within one 64-byte block of each. -/
abbrev Piece := Int × Int × Nat

/-- Pieces of tile bytes b to e - 1. -/
def Cmd.piecesFrom (c : Cmd) : Nat → Nat → Nat → List Piece
  | 0, _, _ => []
  | fuel + 1, b, e =>
    if e ≤ b then []
    else
      let rl := max 1 (tmplRowLen c.tmpl)
      let row : Int := (b / rl : Nat)
      let src := c.src + row * tmplSigned c.tmpl 24 + (b % rl : Nat)
      let dst := (if c.ring then 0 else c.dst) + row * tmplSigned c.tmpl 28 + (b % rl : Nat)
      let n := min (min (e - b) (rl - b % rl)) (min (64 - (src % 64).toNat) (64 - (dst % 64).toNat))
      (src, dst, n) :: c.piecesFrom fuel (b + max 1 n) e

/-- Chunk i. -/
def Cmd.pieces (c : Cmd) (i : Nat) : List Piece :=
  let rl := tmplRowLen c.tmpl
  if c.ring then c.piecesFrom rl (i * rl) (i * rl + rl)
  else c.piecesFrom 512 (512 * i) (min (512 * i + 512) (tmplRows c.tmpl * rl))

/-- Bytes that an engine reads for a lane of a core: memory that is not SO through the core's view (R117). -/
def State.engRead (s : State) (g : Agent) (t : Tgt) (n : Nat) (uov : Bool) : List Byte :=
  s.loadBytes g (if uov then t.asUo else t) n false

/-- One piece performs at a target: bytes, poison and, where the copy asks, the tag (R75, R123, R32). -/
def State.putPiece (s : State) (asid : Nat) (dst : Tgt) (bs : List Byte) (tag : Option (BitVec 16)) (bad : Option Nat) : State :=
  let s1 := (s.homePut asid dst bs).clearPoison dst bs.length
  let s2 := match bad with | some rec => s1.setPoison dst bs.length rec | none => s1
  match tag with | some y => s2.setTag dst y | none => s2

/-- The tag that a piece gives its destination block. -/
def State.pieceTag (s : State) (c : Cmd) (src : Tgt) : Option (BitVec 16) :=
  if c.tagw then some (BitVec.ofNat 16 (tmplNum c.tmpl 38 1 * 256 + tmplNum c.tmpl 39 1))
  else if c.tagp then some (s.tagOf src) else none

/-- The targets of a member's copy of a piece (R123). A member whose core no longer holds a team of the fold's space
refuses it (assumption 86). -/
def State.memberAt (s : State) (c : Cmd) (member : Nat) (d : Int) (n : Nat) : EngAt :=
  match s.memberTeam (s.fold (64 * dieOf c.agent.core + c.fold)) member with
  | some (_, t) =>
    if 0 ≤ d && d + n ≤ t.spad then .ok (.spad member (assoc t.cores t.bases member + d.toNat)) .recov else .fail 2
  | none => .fail 2

/-- Where the pieces of a chunk lie: each with its target, or what stops the chunk. A fault's VA and whether it is a
write go with it. -/
inductive ChunkAt
  | ok (ps : List (Piece × Tgt × WalkRes))
  | recov (va : Nat) (write : Bool)
  | fail (code : Nat)
  | wait
  deriving DecidableEq, Repr

/-- A host block takes no tag (R32, R125); a staging copy leaves it out (R157, R159). -/
def hostTagged (c : Cmd) (t : Tgt) : Bool :=
  !c.stage && (c.tagw || c.tagp) && match t with | .mem pa _ => isHost pa | _ => false

/-- The source of a piece. -/
def State.srcAt (s : State) (c : Cmd) (p : Piece) : EngAt := s.engAt c.agent p.1 p.2.2 false

/-- The destination of a member's copy of a piece. -/
def State.dstAt (s : State) (c : Cmd) (member : Nat) (p : Piece) : EngAt :=
  match (if c.mcast then s.memberAt c member p.2.1 p.2.2 else s.engAt c.agent p.2.1 p.2.2 true) with
  | .ok t w => if hostTagged c t then .fail 2 else .ok t w
  | x => x

/-- Pieces placed on one side: the first that cannot be decides. -/
def placePieces (place : Piece → EngAt) (va : Piece → Int) (write : Bool) : List Piece → ChunkAt
  | [] => .ok []
  | p :: ps =>
    match place p with
    | .recov => .recov (va p).toNat write
    | .fail e => .fail e
    | .wait => .wait
    | .ok t w => (match placePieces place va write ps with | .ok b => .ok ((p, t, w) :: b) | x => x)

/-- The sources of a chunk. -/
def State.sources (s : State) (c : Cmd) (ps : List Piece) : ChunkAt := placePieces (s.srcAt c) (·.1) false ps

/-- The destinations of a member's copy of a chunk; the rows of RING have none of memory, nor a multicast without
members. -/
def State.targets (s : State) (c : Cmd) (member : Nat) (ps : List Piece) : ChunkAt :=
  if c.ring || (c.mcast && member = 512) then .ok [] else placePieces (s.dstAt c member) (·.2.1) true ps

/-- The kind of a chunk is SO when a page it touches is, UOV apart (R113). -/
def chunkSo (c : Cmd) (ps : List (Piece × Tgt × WalkRes)) : Bool := !c.uov && ps.any fun p => p.2.1.isSo

/-- Chunk i is an SO chunk. -/
def State.soChunk (s : State) (c : Cmd) (i : Nat) : Bool :=
  let side := fun x => match x with | ChunkAt.ok ps => chunkSo c ps | _ => false
  side (s.sources c (c.pieces i)) || (!c.mcast && side (s.targets c 0 (c.pieces i)))

/-! ### Completion bitmaps (R121, R316) -/

/-- A waiting CHKW on a word is tested again after an atomic OR on it (R316): its weft issues it again. -/
def State.retestChkw (s : State) (core a : Nat) : State :=
  let x := mnum (s.core core).spad a 8
  let free : Nat × Weft → Nat × Weft := fun e =>
    match e.2.hold with
    | .chkw off m _ =>
      if e.1 / 64 = core && s.spbase e.1 + off = a && (x &&& m.toNat) = m.toNat then (e.1, { e.2 with hold := .none }) else e
    | _ => e
  { s with wefts := s.wefts.map free }

/-- Chunk bit i is set in the command's bitmaps on some cores. -/
def State.setChunkBit (s : State) (c : Cmd) (i : Nat) (on : Nat → Bool) : State :=
  if !c.bmen then s
  else (c.bmCores.filter fun b => on b.1).foldl (fun s b =>
    let a := b.2 + 8 * (i / 64)
    let x := mnum (s.core b.1).spad a 8 ||| 2 ^ (i % 64)
    (s.homeWrite c.agent.asid (.spad b.1 a) (leBytes 8 x)).retestChkw b.1 a) s

/-- The command's bits are cleared at acceptance (R119). -/
def State.clearChunkBits (s : State) (c : Cmd) : State :=
  if !c.bmen then s
  else
    let n := tmplChunks c.tmpl
    c.bmCores.foldl (fun s b => (List.range ((n + 63) / 64)).foldl (fun s w =>
      let a := b.2 + 8 * w
      let ones := if 64 * (w + 1) ≤ n then 2 ^ 64 - 1 else 2 ^ (n % 64) - 1
      let x := mnum (s.core b.1).spad a 8
      s.homeWrite c.agent.asid (.spad b.1 a) (leBytes 8 (x - (x &&& ones)))) s) s

/-- The allocation of the ASID that holds an absolute offset of a core. -/
def State.allocAt (s : State) (asid core off : Nat) : Option (Nat × Nat) :=
  (s.teams.find? fun t => t.2.cores.contains core && t.2.life != .saved && t.2.life != .retired &&
    (s.ctx (s.grid t.2.grid).ctx).asid = asid &&
    assoc t.2.cores t.2.bases core ≤ off && off < assoc t.2.cores t.2.bases core + t.2.spad).map fun t =>
      (assoc t.2.cores t.2.bases core, t.2.spad)

/-- The bitmaps of a command, or the ERRCODE with which it fails: core, base of its allocation, bytes of it
(R121). -/
def State.bitmaps (s : State) (c : Cmd) : Except Nat (List (Nat × Nat × Nat)) :=
  let g := c.agent
  let tm := s.team g.team
  let own := [(g.core, assoc tm.cores tm.bases g.core, tm.spad)]
  let d := c.dst
  if !c.bmen then .ok []
  else if c.ring then .ok own
  else if c.mcast then
    (if c.ack then .ok own
     else .ok (c.members.filterMap fun m =>
       (s.memberTeam (s.fold (64 * dieOf g.core + c.fold)) m).map fun t =>
         (m, assoc t.2.cores t.2.bases m, t.2.spad)))
  else if !inWindow d then .ok own
  else if badWindow d.toNat then .error 4
  else
    match s.window g d.toNat 1 .write with
    | .ok (.spad core off) _ =>
      (match s.allocAt g.asid core off with | some a => .ok [(core, a.1, a.2)] | none => .error 2)
    | .ok (.peerSpad _ _ _) _ => .ok []
    | .ok (.fold _ _ _) _ => .ok own
    | _ => .error 2

/-! ### Acceptance (R119, R121) -/

/-- The slot of the ring that a command puts to is smaller than its rows (R121): a disabled ring has no slot yet, and a
peer's ring has the slot that its device gave it, a free value (assumption 12). -/
def State.slotSmall (s : State) (tmpl : List Byte) (target : Nat) : Bool :=
  match ringTarget target with
  | some (dev, core, n) =>
    if dev = s.devnum then (s.ring core n).count ≠ 0 && 2 ^ (s.ring core n).log2 < tmplRowLen tmpl
    else 2 ^ (5 + s.any (8 * target + 5) % 5) < tmplRowLen tmpl
  | none => false

/-- The agent and members of a command; its ERRCODE when it fails at acceptance. -/
def State.newCmd (s : State) (g : Agent) (tmpl : List Byte) (arg : Int) : Cmd :=
  let c : Cmd := { (default : Cmd) with tmpl := tmpl, src := tmplSrc tmpl + arg, dst := tmplDst tmpl + arg, agent := g }
  let f := s.fold (64 * dieOf g.core + c.fold)
  if c.malformed then { c with fail := 6 }
  else if c.mcast && (!f.bound || f.tenant ≠ g.tenant) then { c with fail := 5 }
  else
    let c1 := if c.mcast then { c with members := f.members.map (·.1) } else c
    if c.ring && (ringTarget c.dst.toNat).isNone then { c1 with fail := 5 }
    else if c.ring && s.slotSmall tmpl c.dst.toNat then { c1 with fail := 6 }
    else
      match s.bitmaps c1 with
      | .error e => { c1 with fail := e }
      | .ok bs =>
        if bs.any fun b => b.2.2 < c.bmoff + 8 * ((tmplChunks tmpl + 63) / 64) then { c1 with fail := 7 }
        else { c1 with bmCores := bs.map fun b => (b.1, b.2.1 + c.bmoff) }

/-- The next queued command runs when none does. -/
def Chan.start (c : Chan) : Chan :=
  match c.run, c.queue with
  | none, k :: ks => { c with run := some k, queue := ks }
  | _, _ => c

/-- The command word is accepted: a release at CORE scope that waits for every older store of the lane, UO
ones too (R117). -/
def State.mayAccept (s : State) (key idx : Nat) (e : SqEntry) (ch : Nat) : Bool :=
  ((s.core (key / 64)).chan ch).queue.length < 4 && !s.acquirePending key e.lane e.req &&
  s.olderDone key e.lane e.req false false &&
  (((s.weft key).sq.take idx).all fun x => x.lane ≠ e.lane && x.tgt != e.tgt)

/-- A command is accepted; one that fails at acceptance leaves the bits of its bitmap as they are (assumption 84). -/
def execShuttleCommand (core slot idx : Nat) (s : State) : Out :=
  let key := 64 * core + slot
  .next (match (s.weft key).sq[idx]? with
    | some e =>
      (match e.tgt, s.req e.req with
       | .aperture ch, some r =>
         if !s.mayAccept key idx e ch then s
         else
           let word := leNat e.bytes
           let cmd := s.newCmd r.agent (mread (s.core core).tmpl (64 * (word % 1024)) 64) (toSigned 32 (word / 2 ^ 32))
           let s1 := if cmd.fail = 0 then s.clearChunkBits cmd else s
           let c := (s1.core core).chan ch
           ((s1.setChan core ch ({ c with queue := c.queue ++ [cmd] } : Chan).start).dequeue key idx).storeDone r.id
       | _, _ => s)
    | none => s)

/-! ### Chunks and completion (R113, R123, R125) -/

/-- A running command changed. -/
def State.setRun (s : State) (core ch : Nat) (c : Cmd) : State :=
  s.setChan core ch { (s.core core).chan ch with run := some c }

/-- Nothing more has to come for chunk i: it is done, and its bit is set unless members have their own. -/
def State.chunkDone (s : State) (core ch : Nat) (c : Cmd) (i : Nat) : State :=
  let s1 := s.setRun core ch { c with done := c.done ++ [i] }
  if c.mcast && !c.ack then s1 else s1.setChunkBit c i fun _ => true

/-- A chunk that has performed, and that no acknowledgement is due for, is done. -/
def State.chunkSettled (s : State) (core ch : Nat) (c : Cmd) (i : Nat) : State :=
  if c.performed i && !(c.acks.any fun a => a.1 = i) then s.chunkDone core ch c i else s.setRun core ch c

/-- One row of a RING command becomes a put at its target, with the poison of its source (R122, R75). A peer's port
answers a row that has reached it (R19, R95). -/
def State.putRow (s : State) (core ch : Nat) (c : Cmd) (i : Nat) (body : List Byte) (bad : List (Nat × Nat × Nat)) : State :=
  match ringTarget c.dst.toNat with
  | none => s.setRun core ch { c with fail := 5 }
  | some (dev, tcore, n) =>
    if dev ≠ s.devnum then s.setRun core ch { c with copied := (i, 0) :: c.copied, acks := c.acks ++ [(i, 513)] }
    else
      let x := s.ring tcore n
      let a : Put := ⟨.shuttle core ch i, c.agent.tenant, c.agent.team, core, 0, body.length, body, bad, false, 0⟩
      (s.setRun core ch { c with copied := (i, 0) :: c.copied, acks := c.acks ++ [(i, 0)] }).setRing tcore n
        { x with port := x.port ++ [a] }

/-- A peer's port answers a row: FILLED has risen there, the row is refused, or the peer is lost (R122, R125;
assumption 12). -/
def State.rowAnswer (s : State) (core ch : Nat) (c : Cmd) (i : Nat) : State :=
  let c1 := { c with acks := c.acks.filter (· != (i, 513)) }
  match ringTarget c.dst.toNat with
  | some (dev, _, _) =>
    if !s.reach dev || s.anyBool 2 then s.setRun core ch { c1 with fail := 2 }
    else if s.anyBool 3 then s.setRun core ch { c1 with fail := 8 }
    else s.chunkDone core ch c1 i
  | none => s

/-- What a chunk carries: each piece's bytes, tag and poison, as its source is read. -/
def State.chunkData (s : State) (c : Cmd) (src : List (Piece × Tgt × WalkRes)) :
    List (List Byte × Option (BitVec 16) × Option Nat) :=
  src.map fun p => (s.engRead c.agent p.2.1 p.1.2.2 c.uov, s.pieceTag c p.2.1, s.poisonOf p.2.1 p.1.2.2)

/-- The sources of a chunk are read: their walks are kept, their reads booked. -/
def State.readSources (s : State) (c : Cmd) (src : List (Piece × Tgt × WalkRes)) : State :=
  src.foldl (fun s p => (s.keepWalk c.agent.core p.2.2).engBook c.agent p.2.1 p.1.2.2) s

/-- Pieces of a chunk that fall into the window of a fold: one store of it (R123). -/
def foldPieces (k : Nat) (ds : List ((Piece × Tgt × WalkRes) × List Byte × Option (BitVec 16) × Option Nat)) : List FoldPiece :=
  ds.filterMap fun d => match d.1.2.1 with
    | .fold die f off => if 64 * die + f = k then some ⟨off, d.2.1, d.2.2.1, d.2.2.2⟩ else none
    | _ => none

/-- The pieces of a chunk perform at their targets, those into fold windows as one store of the issuing core for each.
-/
def State.performPieces (s : State) (core ch : Nat) (c : Cmd) (i : Nat)
    (ds : List ((Piece × Tgt × WalkRes) × List Byte × Option (BitVec 16) × Option Nat)) : State :=
  let keys := (ds.filterMap fun d => match d.1.2.1 with | .fold die f _ => some (64 * die + f) | _ => none).eraseDups
  let s1 := ds.foldl (fun t d =>
    let p := d.1
    let dst := if c.uov then p.2.1.asUo else p.2.1
    match dst with
    | .fold _ _ _ => t
    | .mem _ _ | .peer _ _ => ((t.keepWalk c.agent.core p.2.2).taintVa c.agent.asid p.1.2.1.toNat dst d.2.1).putPiece
        c.agent.asid dst d.2.1 d.2.2.1 d.2.2.2
    | _ => t.putPiece c.agent.asid dst d.2.1 d.2.2.1 d.2.2.2) s
  keys.foldl (fun t k => t.enterWindow k core (foldPieces k ds) 0 (some (core, ch, i))) s1

/-- The chunk waits for acknowledgements from a fold window. -/
def State.windowOwes (s : State) (core ch i : Nat) : Bool :=
  s.folds.any fun f => f.2.window.any fun w => w.chunk = some (core, ch, i)

/-- Pieces of a RING row that bring poison: offset in the row, bytes, record. -/
def rowPoison (at_ : Nat) : List (List Byte × Option (BitVec 16) × Option Nat) → List (Nat × Nat × Nat)
  | [] => []
  | d :: ds =>
    let rest := rowPoison (at_ + d.1.length) ds
    match d.2.2 with | some rec => (at_, d.1.length, rec) :: rest | none => rest

/-- A member's copy of a chunk performs (R123): the source is read, the bytes perform, and what acknowledges the chunk,
or its bit, follows. -/
def State.chunkPerforms (s : State) (core ch : Nat) (c : Cmd) (i member : Nat)
    (src dst : List (Piece × Tgt × WalkRes)) : State :=
  let data := s.chunkData c src
  let s0 := s.readSources c src
  if c.ring then s0.putRow core ch c i (data.flatMap (·.1)) (rowPoison 0 data)
  else
    let s1 := (s0.performPieces core ch c i (dst.zip data)).wake
    let due := if c.mcast && c.ack && member ≠ 512 then [(i, member)] else if s1.windowOwes core ch i then [(i, 512)] else []
    let s2 := if c.mcast && !c.ack then s1.setChunkBit c i (· = member) else s1
    s2.chunkSettled core ch { c with copied := (i, member) :: c.copied, acks := c.acks ++ due } i

/-- A chunk that cannot be performed stops the command, or parks it at a recoverable fault (R125). An entry of a staging
names no weft (R157). -/
def State.chunkStops (s : State) (core ch : Nat) (c : Cmd) (at_ : ChunkAt) : State :=
  match at_ with
  | .fail e => s.setRun core ch { c with fail := e }
  | .recov va wr =>
    (s.setRun core ch { c with parkSeq := some (2 ^ 32) }).newFault c.agent (if wr then 1 else 0) va c.agent.slot 0xFE
      (if c.stage then 0 else 1#128 <<< c.agent.lane) (.chan core ch)
  | .ok _ | .wait => s

/-- A member's copy of chunk i has been made. -/
def Cmd.given (c : Cmd) (i member : Nat) : Bool := c.copied.contains (i, member)

/-- A chunk may begin: RC and UO chunks in any order, an SO chunk when the earlier SO ones have performed, the rows of
RING in order (R113, R130). -/
def State.chunkMay (s : State) (c : Cmd) (i : Nat) : Bool :=
  (!c.ring || (List.range i).all fun j => c.given j 0) &&
  (!s.soChunk c i || (List.range i).all fun j => c.performed j || !s.soChunk c j)

/-- A chunk, or one member's copy of it, performs. -/
def execShuttleChunk (core ch : Nat) (chunk : ChunkCopy) (s : State) : Out :=
  let i := chunk.chunk
  let member := chunk.member
  .next (match ((s.core core).chan ch).run with
    | none => s
    | some c =>
      if c.acks.contains (i, 513) then s.rowAnswer core ch c i
      else if c.fail ≠ 0 || c.parkSeq.isSome || tmplChunks c.tmpl ≤ i || !c.copies.contains member ||
          c.given i member then s
      else match s.sources c (c.pieces i), s.targets c member (c.pieces i) with
        | .ok src, .ok dst => s.when (s.chunkMay c i) (s.chunkPerforms core ch c i member src dst)
        | .ok _, x | x, _ => s.when ((List.range i).all c.performed) (s.chunkStops core ch c x))

/-- A member acknowledges an acknowledged multicast chunk; the last one sets the sender's bit (R123). -/
def execMulticastAck (core ch chunk member : Nat) (s : State) : Out :=
  .next (match ((s.core core).chan ch).run with
    | none => s
    | some c =>
      if !(c.mcast && c.acks.contains (chunk, member)) then s
      else s.chunkSettled core ch { c with acks := c.acks.filter (· != (chunk, member)) } chunk)

/-- A channel without some of its commands. -/
def Chan.drop (c : Chan) (p : Cmd → Bool) : Chan :=
  ({ c with run := match c.run with | some k => if p k then none else some k | none => none,
            queue := c.queue.filter fun k => !p k } : Chan).start

/-- A command completes when every chunk is done, or when it has failed; the next one starts (R119, R125). -/
def execShuttleCommandComplete (core ch : Nat) (s : State) : Out :=
  .next (match ((s.core core).chan ch).run with
    | none => s
    | some c =>
      if c.parkSeq.isSome || !c.acks.isEmpty || (c.fail = 0 && c.done.length < tmplChunks c.tmpl) then s
      else
        let h := (s.core core).chan ch
        let s1 := s.setChan core ch ({ h with run := none, done := h.done + 1, err := c.fail } : Chan).start
        if c.fail = 0 then s1
        else
          let s2 := s1.errorRecord 3 c.agent.tenant (s.unsaid 0) core c.fail (c.dst.toNat % 2 ^ 64) (s.unsaid 3)
          if c.stage then s2.mapTeam c.agent.team fun t => { t with stageFail := true } else s2)

end Sys2Proof.Machine
end

