-- ==== Sys2Proof/Machine/RingFold.lean ====
section
/-!
DEFINITION. The inbound ports of rings (R127 to R132) and the collectors and windows of folds (R133 to R138).
-/
namespace Sys2Proof.Machine

/-! ### Ports (R129) -/

/-- The source classes of a put against the ring's ACL; TEAM is a core of the owning team. A ring without an owner is
tested for the tenant of its last one, tenant 0 where it never had one (assumption 87). -/
def State.allows (s : State) (x : Ring) (p : Put) : Bool :=
  let ofTeam := match x.owner with | some t => (s.team t).cores.contains p.core | none => false
  match p.src with
  | .lane _ | .shuttle _ _ _ => p.tenant = x.tenant && ((ofTeam && x.acl.getLsbD 0) || x.acl.getLsbD 1)
  | .peer _ _ => p.tenant = x.tenant && x.acl.getLsbD 2
  | .host _ => p.tenant = x.tenant && x.acl.getLsbD 3

/-- The result word of a host port: status, no longer busy, one put more (R358). -/
def portWord (old : Word) (st : Nat) : Word :=
  BitVec.ofNat 64 ((old.toNat / 2 ^ 32 + 1) % 2 ^ 32 * 2 ^ 32 + st % 4)

/-- The answer to a lane's put, booked: the promise lies at the admission, plus 8, plus the distance's figure
(R95). -/
def State.answerPut (s : State) (id st : Nat) : State :=
  match s.req id with
  | none => s
  | some r =>
    let cyc := (s.core r.agent.core).cyc
    s.bookAt { r with satisfied := st ≠ 0, status := st, issued := cyc, parts := r.parts.map fun p => { p with val := st } }
      2 (8 + Config.answerFigure 2 r.dist) false

/-- complete(put, status). -/
def State.completePut (s : State) (core ring : Nat) (p : Put) (st : Nat) : State :=
  match p.src with
  | .lane id => s.answerPut id st
  | .host t => s.mapTenant t fun x =>
      let k := 16 * core + ring
      { x with portStat := put k (portWord (lookD k 0 x.portStat) st) x.portStat }
  | .peer _ _ => { s with hub := { s.hub with peerData := leBytes 1 st } }
  | .shuttle c h i =>
    if st = 0 then s
    else match ((s.core c).chan h).run with
      | some k => s.setRun c h { k with fail := 8, acks := k.acks.filter (· != (i, 0)) }
      | none => s

/-- refuse(code). -/
def State.refusePut (s : State) (core ring : Nat) (p : Put) (code : Nat) : State :=
  let x := s.ring core ring
  (s.setRing core ring { x with port := x.port.erase p, drops := min (x.drops + 1) (2 ^ 32 - 1) }).completePut core ring p code

/-- The body of a put as the port reads it, cut to the slot (R286). -/
def State.putBody (s : State) (p : Put) (log2 : Nat) : List Byte :=
  (match p.src with | .lane _ => mread (s.core p.core).spad p.off p.len | _ => p.body).take (2 ^ log2)

/-- The poison that the body brings: of a lane's put, that of the words which its source enters (assumption 23). -/
def State.putPoison (s : State) (p : Put) : List (Nat × Nat × Nat) :=
  match p.src with
  | .lane _ => (spadWords p.off p.len).filterMap fun w =>
      (look w (s.core p.core).spoison).map fun rec => (4 * w - p.off, min 4 (4 * w + 4 - p.off), rec)
  | _ => p.poison

/-- The ring's owner is saved: its puts wait or fail as for a full ring (R132). -/
def State.ringSaved (s : State) (x : Ring) : Bool :=
  match x.owner with | some t => (s.team t).life = .saved | none => false

/-- A put finds no slot: the ring is disabled or full, or its team is saved. -/
def State.ringFull (s : State) (x : Ring) : Bool := x.count = 0 || x.free = 0 || s.ringSaved x

/-- A put takes the slot PUTIDX: its body is read and is being written from now on. -/
def State.admitPut (s : State) (core ring : Nat) (p : Put) : State :=
  let x := s.ring core ring
  let q := { p with body := s.putBody p x.log2, poison := s.putPoison p, slot := x.putIdx }
  (s.setRing core ring { x with port := x.port.erase p, writing := x.writing ++ [q], free := x.free - 1,
                                putIdx := (x.putIdx + 1) % x.count }).completePut core ring p 0

/-- admit of R129: the oldest put not yet tested, and else the oldest of those that wait for a slot. -/
def execRingPutAdmit (core ring : Nat) (s : State) : Out :=
  let x := s.ring core ring
  .next (match x.port.find? fun p => !p.waits with
    | some p =>
      if !s.allows x p then s.refusePut core ring p 2
      else if s.ringFull x then
        (if x.fail || (match p.src with | .host _ => true | _ => false) then s.refusePut core ring p 1
         else s.setRing core ring { x with port := x.port.map fun y => if y = p then { y with waits := true } else y })
      else s.admitPut core ring (x.port.headD p)
    | none =>
      match x.port with
      | p :: _ => s.when (!s.ringFull x) (s.admitPut core ring p)
      | [] => s)

/-- The body has performed: FILLED rises, and the put is over (R117, R130). -/
def State.filledPut (s : State) (p : Put) : State :=
  match p.src with
  | .lane id => (match s.req id with | some r => s.setReq { r with satisfied := true } | none => s)
  | .shuttle c h i =>
    (match ((s.core c).chan h).run with
     | some k => s.chunkDone c h { k with acks := k.acks.filter (· != (i, 0)) } i
     | none => s)
  | _ => s

def execRingSlotFilled (core ring : Nat) (s : State) : Out :=
  let x := s.ring core ring
  .next (match x.writing with
    | [] => s
    | p :: rest =>
      let base := match x.owner with | some t => assoc (s.team t).cores (s.team t).bases core | none => 0
      let at_ := base + x.base + p.slot * 2 ^ x.log2
      let s1 := (s.setRing core ring { x with writing := rest, filled := x.filled + 1 }).homeWrite 0 (.spad core at_) p.body
      (p.poison.foldl (fun s e => s.setPoison (.spad core (at_ + e.1)) e.2.1 e.2.2) s1).filledPut p)

/-! ### Ring registers (R127, R128) -/

/-- The team that a deferred write belongs to. -/
def State.pwriteTeam (s : State) (p : PWrite) : Nat :=
  match p.weft with
  | some k => (s.weft k).team
  | none => (match s.req p.id with | some r => r.agent.team | none => 0)

/-- BASE or SHAPE: complete when no body is being written; the write that enables the ring gives it its owner. -/
def execRingReshape (pw : Nat) (s : State) : Out :=
  .next (match s.pwriteOf pw fun n => 0x300 ≤ n && n < 0x360 && (n - 0x300) % 6 ≤ 1 with
    | none => s
    | some p =>
      let n := (p.num - 0x300) / 6
      let x := s.ring p.core n
      let (base, count, lg) := x.shaped ((p.num - 0x300) % 6) p.val.toNat
      let team := s.pwriteTeam p
      if !x.writing.isEmpty then s
      else
        (s.setRing p.core n { x with
          base := base, count := count, log2 := lg, filled := 0, takeIdx := 0, putIdx := 0, free := count,
          owner := if count ≠ 0 && x.owner.isNone then some team else x.owner,
          tenant := if count ≠ 0 && x.owner.isNone then (s.grid (s.team team).grid).tenant else x.tenant }).pwriteDone p)

/-- MODE: FAIL is set, DROPS cleared. -/
def execRingModeWrite (pw : Nat) (s : State) : Out :=
  .next (match s.pwriteOf pw fun n => 0x300 ≤ n && n < 0x360 && (n - 0x300) % 6 = 5 with
    | none => s
    | some p =>
      let n := (p.num - 0x300) / 6
      (s.setRing p.core n { s.ring p.core n with fail := p.val.getLsbD 0, drops := 0 }).pwriteDone p)

/-! ### The collector of a fold (R135 to R137, R341) -/

/-- The collector's die is that of the fold, or another (R95, R135). -/
def State.foldLevel (s : State) (key va len : Nat) : Nat :=
  let f := s.fold key
  if len = 0 then 3
  else match s.walkFrom (96 * (key / 64)) f.asid 0 va 4 (align (s.asidWord f.asid 0).toNat 4096 % 2 ^ 52) [] with
    | .ok e _ => if s.homeDie (s.partOf f.asid) (e.pbase + (va - e.vbase)) = key / 64 then 3 else 4
    | _ => 3

/-- The answer to a member is booked after the close, or after a straggler's arrival (R95). -/
def State.bookFold (s : State) (r : Req) (key va len : Nat) : State :=
  let level := s.foldLevel key va len
  s.bookAt { r with issued := (s.core r.agent.core).cyc } level
    ((if level = 3 then 110 else 170) + (len + 127) / 128) false

/-- A request that its round refuses is answered with a booked status; nothing is written (R135). What its z
destination holds then is not stated: a free value (assumption 4). -/
def State.refuseFold (s : State) (r : Req) (key : Nat) : State :=
  s.bookFold { r with satisfied := true, status := 1, parts := r.parts.map fun p => { p with val := (s.anyBool 3).toNat } }
    key 0 0

/-- A fold barrier is answered with z: DONE as its round closes; a straggler's answer is booked (R95, R136). -/
def State.answerBarrier (s : State) (r : Req) (key : Nat) (z late : Bool) : State :=
  let q := { r with satisfied := true, status := 0, parts := r.parts.map fun p => { p with val := z.toNat } }
  if late then s.bookFold q key 0 0 else s.complete q

/-- The agent of a collector: the fold's space, the privilege of its grid (R28). -/
def State.foldAgent (s : State) (r : Req) (f : Fold) : Agent :=
  { r.agent with asid := f.asid, priv := (s.grid f.grid).priv }

/-- The blocks of [va, va + len) as the collector translates them. -/
def State.foldBlocks (s : State) (g : Agent) (va len : Nat) : List (Nat × Check) :=
  (List.range (len / 64)).map fun i =>
    let a := va + 64 * i
    (a, if 2 ^ 52 ≤ a || bits a 48 4 = 0xF then .trap 0x06 0
        else s.checkLeaf g a 64 .block (s.walk g.core g.asid a))

/-- The targets of those blocks. -/
def blockTgts (bs : List (Nat × Check)) : List Tgt := bs.filterMap fun b => match b.2 with | .ok t _ => some t | _ => none

/-- A delivery brings the lines that it reads into their caches (R54, R62). -/
def State.foldReads (s : State) (g : Agent) (bs : List (Nat × Check)) : State :=
  (blockTgts bs).foldl (fun s t => s.reached g.asid t 64) s

/-- The fill of a delivery, read once at the Homes: bytes, tags and poison of each block (R135, R75). -/
def State.foldData (s : State) (g : Agent) (bs : List (Nat × Check)) : Nat × Nat × Nat :=
  let ts := blockTgts bs
  (leNat (ts.flatMap fun t => s.homeRead g t 64),
   (ts.foldr (fun t a => a * 2 ^ 16 + (s.tagOf t).toNat) 0),
   (ts.foldr (fun t a => a * 2 ^ 64 + (match s.poisonOf t 64 with | some rec => rec + 1 | none => 0)) 0))

/-- One member's request takes the data and is booked; z waits in its status: 2 for 1. -/
def State.giveFill (s : State) (id key va len : Nat) (d : Nat × Nat × Nat) (z : Bool) : State :=
  match s.req id with
  | none => s
  | some r => s.bookFold { r with
      status := if z then 2 else 0,
      parts := r.parts.map fun p => { p with val := d.1, y := d.2.1, x := d.2.2 } } key va len

/-- Each of some requests is dealt with. -/
def State.forReqs (s : State) (ids : List Nat) (f : State → Req → State) : State :=
  ids.foldl (fun s id => match s.req id with | some q => f s q | none => s) s

/-- Serve requests of one (VA, L), those of a round or of a straggler: a barrier, a fill, a fault, lines of a peer that
do not come (R19), or a failure that freezes the wefts (R137). The fold's rounds advance only where it answers true. -/
def State.serveFold (s : State) (key va len : Nat) (ids : List Nat) (z late : Bool) (res : Resume) : Bool × State :=
  let f := s.fold key
  match ids.findSome? fun id => s.req id with
  | none => (true, s)
  | some r =>
    if len = 0 then
      (true, s.forReqs ids fun s q => s.answerBarrier q key z late)
    else
      let g := s.foldAgent r f
      let bs := s.foldBlocks g va len
      match bs.findSome? fun b => match b.2 with | .trap c _ => some c | _ => none with
      | some c => (true, s.forReqs ids fun s q => (s.setReq { q with phase := .cancelled }).freezeLate q.key c q.epc)
      | none =>
        match bs.find? fun b => b.2 = .recov with
        | some b => (false, s.newFault g 0 b.1 r.agent.slot 0xFE r.lanes res)
        | none =>
          if (blockTgts bs).any s.peerLost then (true, s.forReqs ids fun s q => s.peerError q va)
          else (true, ids.foldl (fun t id => t.giveFill id key va len (s.foldData g bs) z) (s.foldReads g bs))

/-- The homes of the lines have the collector's GEN (R35); a barrier has none. -/
def State.foldMet (s : State) (key va len id : Nat) : Bool :=
  match s.req id with
  | some r =>
    let g := s.foldAgent r (s.fold key)
    len = 0 || (blockTgts (s.foldBlocks g va len)).all (s.genMet g.core g.asid)
  | none => true

/-- Expiry of a timer that starts now (R341). -/
def expiryOf (timer cyc : Nat) : Option Nat := if timer = 0 then none else some (cyc + timer)

/-- A straggler is served alone (R135, R136). One that met a fault has been counted already. -/
def State.straggler (s : State) (r : Req) (key va len : Nat) : State :=
  let f := s.fold key
  match f.recent.find? fun x => x.1 = (match r.op with | .fld _ _ _ n => n | _ => 0) with
  | some x =>
    if x.2 ≠ (va, len) then s.refuseFold r key
    else
      let s1 := if r.tries = 0 then s.setFold key { f with straggle := min (f.straggle + 1) 0xFFFF } else s
      ((s1.setReq { r with tries := 1, phase := .waiting }).serveFold key va len [r.id] false true (.reqs [r.id])).2
  | none =>
    let s1 := if r.tries = 0 then s.setFold key { f with straggle := min (f.straggle + 1) 0xFFFF } else s
    ((s1.setReq { r with tries := 1, phase := .waiting }).serveFold key va len [r.id] false true (.reqs [r.id])).2

/-- A request joins its round at the collector. -/
def State.joinRound (s : State) (r : Req) (key n va len : Nat) : State :=
  let f := s.fold key
  let core := r.agent.core
  let waiting := s.setReq { r with phase := .waiting }
  match f.rounds.find? fun x => x.n = n with
  | none =>
    let x : Round := ⟨n, va, len, [core], [r.id],
      if n = f.delivered then expiryOf f.timer (s.core core).cyc else none, false, none⟩
    waiting.setFold key { f with rounds := f.rounds ++ [x] }
  | some x =>
    let set := fun y : Round => { f with rounds := f.rounds.map fun z => if z.n = n then y else z }
    if (x.va, x.len) ≠ (va, len) then
      (s.setFold key (set { x with asked := x.asked ++ [core] })).refuseFold r key
    else
      let s1 := waiting.setFold key (set { x with asked := x.asked ++ [core], reqs := x.reqs ++ [r.id] })
      match x.fault with
      | some seq => if seq < 2 ^ 32 then s1.faulted seq r.id else s1
      | none => s1

/-- A request reaches its collector; one for a fifth round above DELIVERED waits there (R135). -/
def execFoldRequestArrival (req : Nat) (s : State) : Out :=
  .next (match s.req req with
    | none => s
    | some r =>
      match r.op with
      | .fld key _ len n =>
        let f := s.fold key
        if r.phase ≠ .probe || !s.mayReach r then s
        else if n < f.delivered then s.when (s.foldMet key r.va len req) (s.straggler r key r.va len)
        else if f.delivered + 4 < n then s
        else s.joinRound r key n r.va len
      | _ => s)

/-- Every member has asked in a round. -/
def Fold.allAsked (f : Fold) (x : Round) : Bool := f.members.all fun m => x.asked.contains m.1

/-- deliver round n; the next round's timer starts (R135). -/
def execFoldRoundClose (die fold : Nat) (s : State) : Out :=
  let key := 64 * die + fold
  let f := s.fold key
  .next (match f.rounds.find? fun x => x.n = f.delivered with
    | none => s
    | some x =>
      if x.fault.isSome || !(f.allAsked x || x.expired) || !(x.reqs.all (s.foldMet key x.va x.len)) then s
      else
        let (done, s1) := s.serveFold key x.va x.len x.reqs (f.allAsked x && !x.expired) false (.fold key)
        let f1 := s1.fold key
        let clock : List Nat → Nat → Nat := fun a d => match a with | c :: _ => (s.core c).cyc | [] => d
        if done then
          let restart : Round → Round := fun y =>
            if y.n = x.n + 1 then { y with timer := expiryOf f1.timer (clock y.asked (clock x.asked 0)) } else y
          s1.setFold key { f1 with
            delivered := x.n + 1,
            recent := ((x.n, x.va, x.len) :: f1.recent).take 8,
            rounds := (f1.rounds.filter fun y => y.n ≠ x.n).map restart }
        else
          let stop : Round → Round := fun y => if y.n = x.n then { y with fault := some (2 ^ 32) } else y
          s1.setFold key { f1 with rounds := f1.rounds.map stop })

/-- The timer of round DELIVERED expires, by the clock of the core that asked first (assumption 19). -/
def execFoldTimerExpiry (die fold : Nat) (s : State) : Out :=
  let key := 64 * die + fold
  let f := s.fold key
  .next (match f.rounds.find? fun x => x.n = f.delivered with
    | none => s
    | some x =>
      match x.timer, x.asked with
      | some c, a :: _ =>
        s.when (c ≤ (s.core a).cyc && !f.allAsked x)
          (s.setFold key { f with rounds := f.rounds.map fun y => if y.n = x.n then { y with expired := true } else y })
      | _, _ => s)

/-- The fill performs in its member's scratchpad: bytes, tags and poison (R95, R75). -/
def execFoldFill (req : Nat) (s : State) : Out :=
  .next (match s.req req with
    | none => s
    | some r =>
      match r.op, r.parts with
      | .fld _ off len _, p :: _ =>
        if r.satisfied || !(r.phase = .booked || r.phase = .answered) then s
        else
          let base := s.spbase r.key + off
          let s1 := (List.range (len / 64)).foldl (fun s i =>
            let t : Tgt := .spad r.agent.core (base + 64 * i)
            let s1 := ((s.homePut 0 t (leBytes 64 (bits p.val (512 * i) 512))).setTag t (BitVec.ofNat 16 (bits p.y (16 * i) 16)))
            let rec_ := bits p.x (64 * i) 64
            if rec_ = 0 then s1 else s1.setPoison t 64 (rec_ - 1)) s
          (s1.setReq { r with satisfied := true, status := 0, parts := [{ p with val := if r.status = 2 then 1 else 0 }] }).wake
      | _, _ => s)

/-! ### Windows (R138) -/

/-- An entry of a Window has no member left to serve or to hear from: its store is DONE, its chunk performed. -/
def State.settleWindow (s : State) (key : Nat) (w : FoldStore) : State :=
  if !(w.owed.isEmpty && w.unacked.isEmpty) then s
  else
    let f := s.fold key
    let s1 := s.setFold key { f with window := f.window.erase w }
    match w.chunk with
    | none => s1.storeDone w.req
    | some (core, ch, i) =>
      (match ((s1.core core).chan ch).run with
       | some k =>
         if k.acks.contains (i, 512) && !s1.windowOwes core ch i then
           s1.chunkSettled core ch { k with acks := k.acks.filter (· != (i, 512)) } i
         else s1
       | none => s1)

/-- The entry idx of a Window changed, and settled. -/
def State.setWindow (s : State) (key idx : Nat) (w : FoldStore) : State :=
  let f := s.fold key
  (s.setFold key { f with window := f.window.set idx w }).settleWindow key w

/-- Bytes of a mirrored store perform in a member's allocation, with their tag and poison (R123, R75). -/
def State.mirror (s : State) (core base : Nat) (p : FoldPiece) : State :=
  s.putPiece 0 (.spad core (base + p.off)) p.bytes p.tag p.poison

/-- The oldest store of a Window not yet delivered to a member is delivered; a member that has left receives
none. -/
def execFoldWindowDelivery (die fold idx member : Nat) (s : State) : Out :=
  let key := 64 * die + fold
  let f := s.fold key
  .next (match f.window[idx]? with
    | none => s
    | some w =>
      if w.owed.contains (1024 + member) then s.setWindow key idx { w with owed := w.owed.filter (· != 1024 + member) }
      else if !w.owed.contains member || (f.window.take idx).any (fun x => x.src = w.src && x.owed.contains member) then s
      else
        let gone := { w with owed := w.owed.filter (· != member), unacked := w.unacked.filter (· != member) }
        match s.memberTeam f member with
        | none => s.setWindow key idx gone
        | some (_, t) =>
          ((w.pieces.foldl (fun s p => s.mirror member (assoc t.cores t.bases member) p) s).wake).setWindow key idx
            { w with owed := w.owed.filter (· != member) })

/-- A member acknowledges a store that it has received. -/
def execFoldWindowAck (die fold idx member : Nat) (s : State) : Out :=
  let key := 64 * die + fold
  .next (match (s.fold key).window[idx]? with
    | none => s
    | some w =>
      if w.owed.contains member || !w.unacked.contains member then s
      else s.setWindow key idx { w with unacked := w.unacked.filter (· != member) })

end Sys2Proof.Machine
end

