-- ==== Sys2Proof/Machine/Tasks.lean ====
section
/-!
DEFINITION. The loom's queue at work (R317 to R322, R198, R199), declared bursts (R326, R327), tile tasks from
their counters to their signal (R145 to R147), and the steps of engine queues (R117).
-/
namespace Sys2Proof.Machine

/-! ### Bursts (R327) -/

/-- Intensity of an M × N operation. -/
def intensity (m n : Nat) : Nat := min 15 ((m * n + 63) / 64)

/-- The context's declaration in force covers an operation of intensity i. -/
def Core.covers (c : Core) (ctx i : Nat) : Bool :=
  c.decls.any fun d => d.ctx = ctx && d.started && d.start ≤ c.cyc && c.cyc < d.start + 2 ^ d.len && i ≤ d.intens

/-- An uncovered operation of a context runs on a loom from one cycle to another: it begins a burst when the
one before it completed 64 cycles ago or more, and the context's UBCOUNT rises (R327). -/
def State.uncovered (s : State) (core ctx from_ until_ : Nat) : State :=
  let s1 := s.mapCore core fun c => { c with lastBurst := put ctx until_ c.lastBurst }
  match look ctx (s.core core).lastBurst with
  | some last => if from_ < last + 64 then s1 else s1.mapCtx ctx fun x => { x with adds := x.adds ++ [1] }
  | none => s1.mapCtx ctx fun x => { x with adds := x.adds ++ [1] }

/-! ### Declarations (R326) -/

def execDeclarationStart (core ctx : Nat) (s : State) : Out :=
  let c := s.core core
  let due : Decl → Bool := fun d => d.ctx = ctx && !d.started && d.start ≤ c.cyc
  let go : Decl → Decl := fun d => if due d then { d with started := true } else d
  .next (s.when (c.decls.any due) (s.mapCore core fun c =>
    { c with decls := (c.decls.filter fun d => !(d.ctx = ctx && d.started)).map go }))

def execDeclarationExpiry (core ctx : Nat) (s : State) : Out :=
  let c := s.core core
  .next (s.mapCore core fun x => { x with
    decls := x.decls.filter fun d => !(d.ctx = ctx && d.started && d.start + 2 ^ d.len ≤ c.cyc) })

/-! ### Loom entries (R317 to R320) -/

/-- The operand pages of an MMAS as they translate when it begins (R36, R320). -/
def State.operandChecks (s : State) (o : MmaOp) : List (Nat × Check) :=
  if o.fromMem then o.pages.map fun va => (va, s.pageCheck o.agent va) else []

/-- The queue has one entry less; it is empty from this cycle on when that was the last. -/
def Core.popLoom (c : Core) : Core :=
  { c with loomq := c.loomq.tail, loomEmptySince := if c.loomq.length ≤ 1 then c.cyc else c.loomEmptySince }

/-- An entry starts: K / G cycles, twice that when it is not covered, and 24 more. -/
def State.startEntry (s : State) (core : Nat) (o : MmaOp) : State :=
  let c := s.core core
  let i := intensity o.m o.n
  let slow := 4 < i && !c.covers o.agent.ctx i
  let stop := c.cyc + o.k / groupSize o.fa o.fb * (if slow then 2 else 1) + 24
  let s1 := s.mapCore core fun c => { c.popLoom with loomRun := some o, loomEnd := stop }
  if slow then s1.uncovered core o.agent.ctx c.cyc stop else s1

/-- An entry that ends without having run: its pages no longer translate, and its weft is frozen (R36). -/
def State.dropEntry (s : State) (core : Nat) (o : MmaOp) (cause : Nat) : State :=
  ((s.mapCore core fun c => { c.popLoom with loomDone := c.loomDone ++ [o] }).freeTile core o.tile o.m o.n).freezeLate
    (64 * core + o.agent.slot) cause (BitVec.ofNat 64 (s.unsaid 7))

/-- The head of the queue begins (R317): nothing runs, no fault of its pages is open, and no declaration of its
context waits to start. An OPRDY performs as it begins. -/
def execLoomEntryBegin (core : Nat) (s : State) : Out :=
  let c := s.core core
  .next (match c.loomq with
    | [] => s
    | .oprdy _ _ :: _ => s.when (c.loomRun.isNone && c.task.isNone) (s.mapCore core Core.popLoom)
    | .mma o :: rest =>
      if c.loomRun.isSome || c.task.isSome || !o.faults.isEmpty ||
          c.decls.any (fun d => d.ctx = o.agent.ctx && !d.started) then s
      else
        let cs := s.operandChecks o
        match cs.findSome? fun e => match e.2 with | .trap x _ => some x | _ => none with
        | some x => s.dropEntry core o x
        | none =>
          let bad := (cs.filter fun e => e.2 = .recov).map (·.1)
          if bad.isEmpty then s.startEntry core o
          else bad.foldl (fun s va => s.newFault o.agent 0 va o.agent.slot 0xFE o.lanes (.loom core))
            (s.mapCore core fun c => { c with loomq := .mma { o with faults := bad } :: rest }))

/-- Where byte a of an operand lies: the scratchpad of the core, or memory by VA. -/
def State.opTgt (s : State) (o : MmaOp) (core a : Nat) : Option Tgt :=
  if o.fromMem then (match s.pageCheck o.agent a with | .ok t _ => some t | _ => none) else some (.spad core a)

/-- The unit's reads of operands: at the Homes. -/
def State.opRead (s : State) (o : MmaOp) (core a n : Nat) : Nat :=
  match s.opTgt o core a with
  | some t => leNat (s.homeRead o.agent t n)
  | none => s.any (8 * (a % 2 ^ 30) + 2)

def State.opTag (s : State) (o : MmaOp) (core a : Nat) : BitVec 16 :=
  match s.opTgt o core a with
  | some t => s.tagOf t
  | none => s.anyBits 16 (8 * (a % 2 ^ 30) + 2)

/-- Some operand byte is poisoned: what the loom computes from it is not said (assumption 24). -/
def State.opPoison (s : State) (o : MmaOp) (core : Nat) : Bool :=
  o.rows.any fun r => (List.range ((r.2 + 63) / 64 + 1)).any fun i =>
    match s.opTgt o core (r.1 + min (64 * i) (r.2 - 1)) with
    | some t => (s.poisonOf t (if 64 * i < r.2 then min 64 (r.2 - 64 * i) else 1)).isSome
    | none => false

/-- The tile fetch unit streams the operands through L2 (R146). -/
def State.opFetch (s : State) (o : MmaOp) (core : Nat) : State :=
  o.rows.foldl (fun s r => (List.range ((r.1 % 128 + r.2 + 127) / 128)).foldl (fun s i =>
    match s.opTgt o core (max r.1 (align r.1 128 + 128 * i)) with
    | some (.spad c off) => s.claimBanks c off (min 128 r.2)
    | some t => s.reached o.agent.asid t 1
    | none => s) s) s

/-- The outputs of a matrix operation, or the SUB of its first error (R198, R199). -/
def State.product (s : State) (o : MmaOp) (core : Nat) (acc : Nat → Nat → Fl) : Except Nat (List Nat) :=
  loomProduct (s.opRead o core) (s.opRead o core) (s.opTag o core) (s.opTag o core) o.fmt o.m o.n o.k o.fa o.fb o.a o.b
    o.lda o.ldb acc

/-- A report held for the AWAIT of a tag: the first in acceptance order stands (R322). -/
def State.report (s : State) (o : MmaOp) (m : Mark) : State :=
  s.mapWeft (64 * o.agent.core + o.agent.slot) fun w =>
    if w.live && w.team = o.agent.team && (look o.tag w.reports).isNone then
      { w with reports := put o.tag m w.reports } else w

/-- The entry is over: an AWAIT of its tag that nothing else holds goes on. -/
def State.entryOver (s : State) (core : Nat) (o : MmaOp) : State :=
  let s1 := s.mapCore core fun c => { c with
    loomRun := none, loomDone := c.loomDone ++ [o],
    loomEmptySince := if c.loomq.isEmpty then c.cyc else c.loomEmptySince }
  if (s1.core core).loomOps.any (mineWith core o.agent.slot o.tag) then s1
  else s1.mapWeft (64 * core + o.agent.slot) fun w => if w.hold = .loom o.tag then { w with hold := .none } else w

/-- The log record of an accumulator element with an uncorrectable error that an entry reads (R73). -/
def Core.badElement (c : Core) (o : MmaOp) : Option Nat :=
  if o.zero then none else (List.range (o.m * o.n)).findSome? fun e => look (accKey o.tile (e / o.n) (e % o.n)) c.accBad

def execLoomEntryComplete (core : Nat) (s : State) : Out :=
  let c := s.core core
  .next (match c.loomRun with
    | none => s
    | some o =>
      if c.cyc < c.loomEnd then s
      else
        let acc := fun i j => if o.zero then Fl.fin false 0 0
          else f32Fmt.decode (lookD (accKey o.tile i j) (0 : W32) c.acc).toNat
        match c.badElement o, s.product o core acc with
        | some rec, _ => (((s.opFetch o core).freeTile core o.tile o.m o.n).report o ⟨0x0E, 0, BitVec.ofNat 64 rec, 0⟩).entryOver
            core o
        | none, .error sub =>
          (((s.errorRecord 8 o.agent.tenant (s.unsaid 0) core sub (s.unsaid 2) (s.unsaid 3)).freeTile core o.tile o.m
            o.n).report o ⟨0x14, sub, 0, 0⟩).entryOver core o
        | none, .ok ys =>
          let s1 :=
            if o.taint || s.opPoison o core then (s.opFetch o core).freeTile core o.tile o.m o.n
            else (s.opFetch o core).mapCore core fun c => { c with
              acc := (List.range (o.m * o.n)).foldl (fun t e =>
                put (accKey o.tile (e / o.n) (e % o.n)) (BitVec.ofNat 32 (ys.getD e 0)) t) c.acc
              accBad := clearBad o.tile o.m o.n c.accBad }
          s1.entryOver core o)

/-! ### Tile tasks (R145 to R147) -/

/-- VAs of the wait counters with their targets, and of the signal counter. -/
def taskWaits (r : List Byte) : List (Nat × Nat) :=
  [(16 * bits (tk r 40 8) 0 48, bits (tk r 40 8) 48 16), (16 * bits (tk r 48 8) 0 48, bits (tk r 48 8) 48 16)].filter
    fun w => w.1 ≠ 0
def taskSig (r : List Byte) : Nat := 16 * tk r 56 6

/-- First bytes of the 64 KiB pages that rows enter. -/
def pagesOf (rows : List (Nat × Nat)) : List Nat :=
  (rows.flatMap fun r => (List.range ((r.1 % 65536 + r.2 + 65535) / 65536)).map fun i =>
    if i = 0 then r.1 else align r.1 65536 + 65536 * i).foldl
      (fun l va => if l.any (fun x => x / 65536 = va / 65536) then l else l ++ [va]) []

/-- A page of a task checked under R28: VA, kind of access, and the check. -/
def State.taskCheck (s : State) (g : Agent) (acc : Acc) (va : Nat) : Nat × Acc × Check :=
  (va, acc, if 2 ^ 52 ≤ va then .trap 0x06 0 else if bits va 48 4 = 0xF then .trap 0x06 1
    else s.checkLeaf g va 4 acc (s.walk g.core g.asid va))

/-- The homes of what a task's checks found have the GEN of the core that enqueued it (R35). -/
def State.taskMet (s : State) (g : Agent) (cs : List (Nat × Acc × Check)) : Bool :=
  cs.all fun e => match e.2.2 with | .ok t _ => s.genMet g.core g.asid t | _ => true

/-- Every page that a task touches, in the order A and B, outputs, wait counters, signal counter. -/
def State.taskChecks (s : State) (t : Task) : List (Nat × Acc × Check) :=
  let r := t.record
  (pagesOf (taskInputs r)).map (s.taskCheck t.agent .block) ++
  (pagesOf (taskRows r)).map (s.taskCheck t.agent (if taskMode r = 2 then .cadd else .write)) ++
  (taskWaits r).map (fun w => s.taskCheck t.agent .block w.1) ++
  (if taskSig r = 0 then [] else [s.taskCheck t.agent .atom (taskSig r)])

/-- A task that has failed is discarded: a record and the error interrupt (R145). -/
def State.discardTask (s : State) (t : Task) (detail va : Nat) : State :=
  s.errorRecord 5 t.agent.tenant (s.unsaid 0) 0xFFFF detail va (s.unsaid 3)

/-- Replace, or remove, record idx of a queue. -/
def State.setTask (s : State) (m key idx : Nat) (t : Option Task) : State :=
  let md := s.meadow m
  let q := lookD key [] md.queues
  s.setMeadow m { md with queues := put key (match t with | some t => q.set idx t | none => q.eraseIdx idx) md.queues }

/-- The first failure of a record's checks, dealt with (R145): a recoverable one posts an entry that the record
waits for, any other discards it. None when all pass. -/
def State.taskFails (s : State) (m key idx : Nat) (t : Task) (cs : List (Nat × Acc × Check)) : Option State :=
  match cs.find? fun e => match e.2.2 with | .ok _ _ => false | _ => true with
  | none => none
  | some (va, _, .trap c _) => some ((s.setTask m key idx none).discardTask t c va)
  | some (va, acc, _) =>
    let e : FaultEntry :=
      ⟨t.agent.tenant, 0, acc.kind, t.agent.asid, s.coreGen t.agent.core t.agent.asid, va, 0xFFFF, 0xFF, 0xFE, 0, t.agent.team,
        .task m key s.fresh⟩
    let s1 := s.setTask m key idx (some { t with parkSeq := some (2 ^ 32 + s.fresh) })
    some { s1 with faults := s1.faults ++ [e] }

/-- The scheduler reads a record's counters at their Homes (R145, R117). -/
def execCounterRecheck (meadow tenant queue idx : Nat) (s : State) : Out :=
  let key := 8 * tenant + queue
  .next (match (lookD key [] (s.meadow meadow).queues)[idx]? with
    | none => s
    | some t =>
      let ws := taskWaits t.record
      if t.parkSeq.isSome || !s.taskMet t.agent (ws.map fun w => s.taskCheck t.agent .block w.1) then s
      else
        let cs := ws.map fun w => s.taskCheck t.agent .block w.1
        match s.taskFails meadow key idx t cs with
        | some s' => s'
        | none =>
          let met := (ws.zip cs).all fun e => match e.2.2.2 with
            | .ok tg _ => (leNat (s.homeRead t.agent tg 4) + 2 ^ 16 - e.1.2) % 2 ^ 16 < 2 ^ 15
            | _ => false
          let s1 := cs.foldl (fun s e => match e.2.2 with | .ok tg _ => s.reached t.agent.asid tg 4 | _ => s) s
          s1.setTask meadow key idx (some { t with met := met }))

/-- A record is ready: not parked, its counters met. -/
def Task.isReady (t : Task) : Bool := t.parkSeq.isNone && (t.met || (taskWaits t.record).isEmpty)

/-- The oldest ready record of the highest priority of a tenant: queue key and place. -/
def Meadow.pick (md : Meadow) (tenant : Nat) : Option (Nat × Nat × Task) :=
  (List.range 8).findSome? fun i =>
    let key := 8 * tenant + (7 - i)
    let q := lookD key [] md.queues
    match q.findIdx? Task.isReady with
    | some idx => (q[idx]?).map fun t => (key, idx, t)
    | none => none

/-- A loom is free (R145). -/
def State.loomFree (s : State) (core : Nat) : Bool :=
  let c := s.core core
  5 ≤ s.hub.stage && c.task.isNone && c.loomRun.isNone && c.loomq.isEmpty && c.loomEmptySince + 16 ≤ c.cyc

/-- Declarations of tasks are kept apart from those of contexts by this mark. -/
def taskDecl : Nat := 2 ^ 16

/-- A task starts on a loom: declared at its start under the placement of R326, at half rate when INTENS is
below its own intensity (R146, R327). -/
def State.startTask (s : State) (core : Nat) (t : Task) : State :=
  let r := t.record
  let c := s.core core
  let i := intensity (taskM r) (taskN r)
  let decl := tk r 63 1 % 16
  let st := if decl = 0 then c.cyc else s.placeStart core c.cyc decl
  let slow := 4 < i && decl < i
  let stop := st + taskK r / groupSize (taskFa r) (taskFb r) * (if slow then 2 else 1)
  let old : Decl → Bool := fun d => d.ctx != taskDecl || c.cyc < d.start + 32
  let s1 := s.mapCore core fun c => { c with
    task := some t, loomEnd := stop,
    decls := c.decls.filter old ++ (if decl = 0 then [] else [(⟨taskDecl, st, decl, 32, true⟩ : Decl)]) }
  if slow then s1.uncovered core t.agent.ctx st stop else s1

/-- The scheduler hands a record to a free loom (R145): tenants in turn, pages translated first. -/
def execTaskDispatch (core : Nat) (s : State) : Out :=
  let m := meadowOf core
  let md := s.meadow m
  let turn := (List.range 16).map fun i => (md.rr + 1 + i) % 16
  .next (if !s.loomFree core then s
    else match turn.findSome? fun t => (md.pick t).map fun p => (t, p) with
    | none => s
    | some (tenant, key, idx, t) =>
      let cs := s.taskChecks t
      if !s.taskMet t.agent cs then s
      else match s.taskFails m key idx t cs with
      | some s' => s'
      | none =>
        let s1 := cs.foldl (fun s e => match e.2.2 with | .ok _ w => s.keepWalk t.agent.core w | _ => s)
          (s.setTask m key idx none)
        (s1.setMeadow m { s1.meadow m with rr := tenant }).startTask core t)

/-- The matrix operation of a task. -/
def Task.op (t : Task) : MmaOp :=
  let r := t.record
  { agent := t.agent, tag := 0, tile := 64, m := taskM r, n := taskN r, k := taskK r, fa := taskFa r, fb := taskFb r,
    zero := true, fromMem := true, a := tk r 0 8, b := tk r 8 8, lda := tk r 24 4, ldb := tk r 28 4, fmt := t.fmt,
    faults := [], taint := false }

/-- A cell add of an engine at its Home: a line finds room by writing back the least recently used of its set (R63).
Poisoned cells change nothing (R75). -/
def State.addCell (s : State) (asid pa cls : Nat) (x : Fl) : State :=
  if (look (local46 pa / 64) s.poison).isSome then s
  else
    let s1 :=
      if s.cellRoom pa then s
      else
        match (s.cellsNear (align (local46 pa) 64)).getLast? with
        | some b => s.cellBack b
        | none => s
    (s1.setCell asid pa (cellAdd cls x (s1.cellImg pa))).queueAdd 0 pa

/-- A byte of a task, at the VA, that a store has met: some mix of old and new ones (R147). -/
def State.mixed (s : State) (t : Task) (va : Nat) (b : Byte) : Byte :=
  let bs := b :: (t.past.filter fun e => e.1 = va).map (·.2)
  bs.getD (s.any (8 * (va % 2 ^ 40) + 2) % bs.length) b

/-- A task reads operand bytes at their Homes, as stores may have mixed them. -/
def State.taskRead (s : State) (t : Task) (va n : Nat) : Nat :=
  let bs := leBytes n (s.opRead t.op t.agent.core va n)
  leNat (((List.range n).zip bs).map fun e => if t.past.isEmpty then e.2 else s.mixed t (va + e.1) e.2)

/-- What a task computes, or the SUB of its first error. -/
def State.taskProduct (s : State) (t : Task) : Except Nat (List Nat) :=
  let o := t.op
  let tag := s.opTag o t.agent.core
  loomProduct (s.taskRead t) (s.taskRead t) tag tag o.fmt o.m o.n o.k o.fa o.fb o.a o.b o.lda o.ldb
    fun _ _ => Fl.fin false 0 0

/-- Output bytes that a task writes at a VA: in a block that a store has met, each is the task's or stays (R147). -/
def State.outputMix (s : State) (t : Task) (tg : Tgt) (va : Nat) (bs : List Byte) : List Byte :=
  let old := s.homeRead t.agent tg bs.length
  ((List.range bs.length).zip (bs.zip old)).map fun e =>
    if (t.past.any fun p => p.1 / 64 = (va + e.1) / 64) && s.anyBool (8 * ((va + e.1) % 2 ^ 40) + 3) then e.2.2 else e.2.1

/-- One output element at its Home. -/
def State.putOutput (s : State) (t : Task) (va code : Nat) : State :=
  let mode := taskMode t.record
  let bs := if mode = 0 then leBytes 4 code else leBytes 2 (bf16Fmt.encode 0 false (f32Fmt.decode code))
  match (s.taskCheck t.agent (if mode = 2 then .cadd else .write) va).2.2 with
  | .ok (.cell pa cls) _ => s.addCell t.agent.asid pa cls (f32Fmt.decode code)
  | .ok tg _ =>
    (s.taintVa t.agent.asid va tg (s.outputMix t tg va bs)).homePut t.agent.asid tg (s.outputMix t tg va bs)
  | _ => s

/-- 1 is added to the signal counter, after every output (R146). -/
def State.signal (s : State) (t : Task) : State :=
  if taskSig t.record = 0 then s
  else match (s.taskCheck t.agent .atom (taskSig t.record)).2.2 with
    | .ok tg _ =>
      if (s.poisonOf tg 4).isSome then s
      else s.homePut t.agent.asid tg (leBytes 4 (leNat (s.homeRead t.agent tg 4) + 1))
    | _ => s

/-- The loom runs no task from now on. A burst that the task was part of ends now (R327). -/
def State.endTask (s : State) (core : Nat) (t : Task) : State :=
  s.mapCore core fun c => { c with
    task := none,
    lastBurst := if look t.agent.ctx c.lastBurst = some c.loomEnd then put t.agent.ctx c.cyc c.lastBurst else c.lastBurst }

/-- A running task whose pages no longer translate (R36): discarded, or at a recoverable fault the head of its queue
again, to be run anew after FRESUME (R145; assumption 54). -/
def State.taskLost (s : State) (core : Nat) (t : Task) : Option State :=
  let m := meadowOf core
  let md := s.meadow m
  let back := s.setMeadow m { md with queues := put t.queue (t :: lookD t.queue [] md.queues) md.queues }
  (back.taskFails m t.queue 0 t (s.taskChecks t)).map fun s1 => s1.endTask core t

/-- A task has read its operands and writes its outputs, then signals (R146); a bad block discards it (R145). -/
def execTaskComplete (core : Nat) (s : State) : Out :=
  let c := s.core core
  .next (match c.task with
    | none => s
    | some t =>
      if c.cyc < c.loomEnd || !s.taskMet t.agent (s.taskChecks t) then s
      else match s.taskLost core t with
      | some s1 => s1
      | none => match s.taskProduct t with
        | .error sub => (s.endTask core t).discardTask t sub (tk t.record 0 8)
        | .ok ys =>
          let free := s.opPoison t.op t.agent.core
          let r := t.record
          let s1 := (List.range (taskM r * taskN r)).foldl (fun (x : State) e =>
            let i := e / taskN r
            let j := e % taskN r
            let y := if free then (s.anyBits 32 (8 * e + 6)).toNat else ys.getD e 0
            x.putOutput t (tk r 16 8 + i * tk r 32 4 + outBytes (taskMode r) * j) y) (s.opFetch t.op t.agent.core)
          ((s1.signal t).endTask core t).wake)

/-! ### Steps of engine queues (R117) -/

/-- One unit of work of an Engine Queue is performed: that of the engine's own event. -/
def execEngineStep (q : EngineRef) (s : State) : Out :=
  match q with
  | .shuttle core ch chunk => execShuttleChunk core ch chunk s
  | .loomBegin core => execLoomEntryBegin core s
  | .loomEnd core => execLoomEntryComplete core s
  | .ringAdmit core ring => execRingPutAdmit core ring s
  | .ringFill core ring => execRingSlotFilled core ring s
  | .foldClose die fold => execFoldRoundClose die fold s
  | .foldFill req => execFoldFill req s
  | .cell req => execReadModifyWrite req s

end Sys2Proof.Machine
end

