-- ==== Sys2Proof/Machine/Grids.lean ====
section
/-!
DEFINITION. Grids from launch to completion: the front end's checks (R148, R150, R151, R163, R167), queues
(R152, R153, R165), admission and placement (R149, R154, R155, R166), pre-emption for priority (R156), team
start, retirement and completion (R157 to R159), contexts (R182, R355).
-/
namespace Sys2Proof.Machine

/-! ### Contexts (R182, R355) -/

/-- The table entry of a context: tenant × 4,096 + index. -/
def State.ctxAddr (s : State) (c : Nat) : Nat := s.tenantWord (c / 4096) 0x48 + 64 * (c % 4096)

/-- The device takes a context from its table entry; an entry whose CTXID breaks the index rule is not valid. -/
def State.loadCtx (s : State) (c : Nat) : State :=
  let a := s.ctxAddr c
  s.mapCtx c fun x => { x with
    valid := s.rd a 2 = c && (s.rd (a + 3) 1).testBit 0, tenant := c / 4096, asid := s.rd (a + 2) 1,
    privOk := (s.rd (a + 3) 1).testBit 1, accbase := s.rd (a + 8) 8, savebase := s.rd (a + 16) 8,
    savesize := s.rd (a + 24) 8, tbase := BitVec.ofNat 64 (s.rd (a + 32) 8),
    stkbase := BitVec.ofNat 64 (s.rd (a + 40) 8), stksize := BitVec.ofNat 64 (s.rd (a + 48) 8),
    cregbase := s.rd (a + 56) 8 }

/-- The context register block as its home holds it (R182). -/
def State.homeBlock (s : State) (c : Nat) : CtxBlock :=
  let x := s.ctx c
  let at_ := fun off n => leNat (s.homeGets x.asid (local46 x.cregbase + off) n)
  { bp := at_ 0 4, ub := at_ 4 4, l1lim := at_ 8 3, l2lim := at_ 12 3, l2used := at_ 16 3,
    fmt := (List.range 16).map fun n => (n, BitVec.ofNat 32 (at_ (64 + 4 * n) 4)) }

/-- A core reads the block into a copy of its own (R182). -/
def State.readBlock (s : State) (c core : Nat) : State :=
  s.mapCore core fun x => { x with blocks := put c (s.homeBlock c) x.blocks }

/-- A field of the block changes at its home and in every copy (R182). -/
def State.setBlock (s : State) (c off : Nat) (bs : List Byte) (f : CtxBlock → CtxBlock) : State :=
  let x := s.ctx c
  (s.homeWrite x.asid (.mem (x.cregbase + off) .rc) bs).mapBlocks c f

/-- The context has no L2 pin any more: USED is 0, whatever changes were still to be made (R57, R71). -/
def State.usedZero (s : State) (c : Nat) : State :=
  (s.setBlock c 16 (leBytes 4 0) fun b => { b with l2used := 0 }).mapCtx c fun x =>
    { x with adds := x.adds.filter (· < 2) }

/-- Presets of the image whose text holds a grid's ENTRY (R158). -/
def State.presetsOf (s : State) (g : Grid) : Tab W32 :=
  match (s.ctx g.ctx).presets.find? fun p => p.1 ≤ g.entry && g.entry < p.1 + p.2.1 with
  | some p => p.2.2
  | none => []

/-- A grid starts with its first team: FMT0..15 hold the presets of its image, those without one 0 (R158, R192). -/
def State.startGrid (s : State) (g : Grid) : State :=
  if g.started then s
  else
    let tab := (List.range 16).map fun n => (n, lookD n (0 : W32) (s.presetsOf g))
    (s.setBlock g.ctx 64 (tab.flatMap fun e => leBytes 4 e.2.toNat) fun b => { b with fmt := tab }).setGrid g.handle
      { g with started := true }

/-- A team that holds a place on cores. -/
def Team.resident (t : Team) : Bool := t.life != .saved && t.life != .retired

/-- A team of the context is resident. -/
def State.ctxResident (s : State) (c : Nat) : Bool :=
  s.teams.any fun t => t.2.resident && (s.grid t.2.grid).ctx = c

/-! ### Descriptors (R148, R150, R151) -/

/-- A signed field of 8 bytes. -/
def tmplSigned64 (d : List Byte) (off : Nat) : Int := toSigned 64 (tmplNum d off 8)

/-- Region or fold entry i of a descriptor. -/
def descEntry (d : List Byte) (i : Nat) : List Byte := (d.drop (64 + 32 * i)).take 32

def isFoldEntry (e : List Byte) : Bool := (tmplNum e 24 1).testBit 7

def regionOf (e : List Byte) : Region :=
  let f := tmplNum e 24 1
  { va := tmplNum e 0 8, tstride := tmplSigned64 e 8, len := tmplNum e 16 4, spoff := tmplNum e 20 4,
    stageIn := f.testBit 0, stageOut := f.testBit 1, write := f.testBit 2, cell := f.testBit 3, allCores := f.testBit 4 }

def foldDeclOf (e : List Byte) : FoldDecl := ⟨tmplNum e 20 1, tmplNum e 16 4, tmplNum e 0 4⟩

/-- The rules of R150 and R151 for one entry. -/
def entryOk (spad : Nat) (e : List Byte) : Bool :=
  if isFoldEntry e then
    tmplNum e 24 1 = 0x80 && tmplNum e 25 7 = 0 && tmplNum e 21 3 = 0 && tmplNum e 20 1 < 64 && tmplNum e 4 12 = 0 &&
    tmplNum e 16 4 % 4096 = 0 && 4096 ≤ tmplNum e 16 4 && tmplNum e 16 4 ≤ Config.spadBytes
  else
    let r := regionOf e
    tmplNum e 25 7 = 0 && bits (tmplNum e 24 1) 5 2 = 0 && r.va < 2 ^ 52 && 1 ≤ r.len &&
    (!(r.stageIn || r.stageOut) || r.spoff + r.len ≤ spad) && (!r.cell || r.write)

/-- Widths and stack sizes of the codes of R150. -/
def widthOf (code : Nat) : Nat := if code = 0 then 32 else if code = 1 then 64 else 128
def stackOf (code : Nat) : Nat :=
  if code = 0 then 32 else if code = 1 then 48 else if code = 2 then 64 else if code = 3 then 96
  else if code = 4 then 128 else 256

/-- Fields of the descriptor that are checked whatever the shape (R148, R150). -/
def descOk (d : List Byte) (indirect : Bool) : Bool :=
  let b := fun i => tmplNum d i 1
  let spad := tmplNum d 28 4
  let es := (List.range (b 33)).map (descEntry d)
  tmplNum d 0 8 % 4 = 0 && tmplNum d 0 8 < 2 ^ 52 && tmplNum d 60 4 = 0 && tmplNum d 34 2 = 0 && b 32 < 8 && b 33 ≤ 32 &&
  tmplNum d 52 8 % 8 = 0 && (!indirect || tmplNum d 44 8 % 4 = 0) &&
  1 ≤ b 27 && b 27 ≤ 64 && 1 ≤ b 26 && b 26 ≤ 8 && b 25 < 8 && bits (b 24) 0 2 < 3 && bits (b 24) 2 3 < 6 &&
  spad % 2048 = 0 && spad ≤ Config.spadBytes && b 26 * b 27 * widthOf (bits (b 24) 0 2) ≤ 65536 &&
  es.all (entryOk spad) &&
  (let fs := (es.filter isFoldEntry).map fun e => tmplNum e 20 1
   fs.length = fs.eraseDups.length)

/-- The shape rule of R148. -/
def shapeOk (gx gy gz : Nat) : Bool :=
  1 ≤ gx && 1 ≤ gy && 1 ≤ gz && gx < 2 ^ 32 && gy < 2 ^ 16 && gz < 2 ^ 16 && gx * gy * gz < 2 ^ 32

def Grid.teamCount (g : Grid) : Nat := g.gx * g.gy * g.gz

/-- The grid that a descriptor asks for, launched from a grid. -/
def gridOfDesc (d : List Byte) (indirect : Bool) (parent : Grid) (handle seq : Nat) : Grid :=
  let b := fun i => tmplNum d i 1
  let es := (List.range (b 33)).map (descEntry d)
  { handle := handle, ctx := parent.ctx, tenant := parent.tenant, entry := tmplNum d 0 8, argva := tmplNum d 8 8,
    gx := if indirect then 0 else tmplNum d 16 4, gy := tmplNum d 20 2, gz := tmplNum d 22 2,
    width := widthOf (bits (b 24) 0 2), stk := stackOf (bits (b 24) 2 3), cores := b 26, wpc := b 27,
    spad := tmplNum d 28 4, prio := bits (b 24) 5 3, queue := bits (b 32) 0 3, det := (b 25).testBit 0,
    cosched := (b 25).testBit 1, priv := (b 25).testBit 2, sptva := tmplNum d 52 8, cntva := tmplNum d 44 8,
    dep0 := tmplNum d 36 4, dep1 := tmplNum d 40 4, indirect := indirect, depth := parent.depth + 1, seq := seq,
    regions := (es.filter fun e => !isFoldEntry e).map regionOf, folds := (es.filter isFoldEntry).map foldDeclOf,
    bound := false, started := false, placed := 0, retired := 0, failed := false, stkSlot := none, stkbase := 0, stksize := 0,
    waitedSince := none, status := .pending }

/-! ### Admission (R149) -/

/-- A core lies in a tenant's core set. -/
def State.inCoreSet (s : State) (tenant core : Nat) : Bool :=
  (s.tenantWord tenant (0x10 + 8 * (core / 64))).testBit (core % 64)

/-- Quarters as (free slots, free registers): the first that takes weft j, from j mod 4 on. -/
def takeQuarter (qs : List (Nat × Nat)) (cost j : Nat) : Option Nat :=
  ((List.range 4).map fun d => (j + d) % 4).find? fun q =>
    let x := qs.getD q (0, 0)
    0 < x.1 && cost ≤ x.2

/-- Quarters of n wefts from weft j on, and what is left. -/
def fillQuarters (cost : Nat) : Nat → Nat → List (Nat × Nat) → Option (List Nat × List (Nat × Nat))
  | 0, _, qs => some ([], qs)
  | n + 1, j, qs =>
    match takeQuarter qs cost j with
    | none => none
    | some q =>
      let x := qs.getD q (0, 0)
      match fillQuarters cost n (j + 1) (qs.set q (x.1 - 1, x.2 - cost)) with
      | none => none
      | some (l, rest) => some (q :: l, rest)

/-- Shares that an empty core holds, up to a number. -/
def sharesOf (cost wpc : Nat) : Nat → List (Nat × Nat) → Nat
  | 0, _ => 0
  | n + 1, qs =>
    match fillQuarters cost wpc 0 qs with
    | some (_, rest) => sharesOf cost wpc n rest + 1
    | none => 0

/-- Shares of a grid's teams that an empty core holds (R149). -/
def Grid.shares (g : Grid) : Nat :=
  min (sharesOf (g.width * g.stk) g.wpc 64 (List.replicate 4 (16, 65536)))
    (if g.spad = 0 then 64 else Config.spadBytes / g.spad)

/-- Wefts that hold slots of a core. -/
def State.slotsHeld (s : State) (core : Nat) : List (Nat × Weft) :=
  s.wefts.filter fun w => w.1 / 64 = core && w.2.live

/-- Free slots and registers of a core's quarters. -/
def State.quarters (s : State) (core : Nat) : List (Nat × Nat) :=
  let held := s.slotsHeld core
  (List.range 4).map fun q =>
    let mine := held.filter fun w => w.1 % 64 / 16 = q
    (16 - mine.length, 65536 - (mine.map fun w => w.2.width * w.2.stk).sum)

/-- Starts of the free 2 KiB-aligned runs of a core's scratchpad. -/
def State.freeRuns (s : State) (core spad : Nat) : List Nat :=
  let held := (s.teams.filter fun t => t.2.resident && t.2.cores.contains core && t.2.spad ≠ 0).map fun t =>
    (assoc t.2.cores t.2.bases core, t.2.spad)
  ((List.range 768).map (2048 * ·)).filter fun b =>
    b + spad ≤ Config.spadBytes && held.all fun h => !meets b spad h.1 h.2

/-- Slots for the wefts of given quarters, one free slot each; which one is not said (assumption 25). -/
def State.pickSlots (s : State) (core : Nat) : List Nat → List Nat → List Nat
  | [], _ => []
  | q :: qs, mine =>
    let held := (s.slotsHeld core).map fun w => w.1 % 64
    let free := ((List.range 16).map (16 * q + ·)).filter fun i => !held.contains i && !mine.contains i
    let i := free.getD (s.any (64 * core + 16 * q + mine.length) % max 1 free.length) 0
    i :: s.pickSlots core qs (i :: mine)

/-- A share of a team on a core: slots in weft order and the base of the allocation; none when it does not fit. -/
def State.fits (s : State) (g : Grid) (core : Nat) : Option (List Nat × Nat) :=
  let runs := s.freeRuns core g.spad
  if !s.inCoreSet g.tenant core || runs.isEmpty then none
  else match fillQuarters (g.width * g.stk) g.wpc 0 (s.quarters core) with
    | none => none
    | some (qs, _) =>
      some (s.pickSlots core qs [], runs.getD (s.any (64 * core + 63) % runs.length) 0)

/-! ### Placement (R154, R155, R166) -/

/-- The rank of a core without its number (R155): smaller is better. -/
def State.coreRank (s : State) (core : Nat) : Nat :=
  let c := s.core core
  let shares := (s.teams.filter fun t => t.2.resident && t.2.cores.contains core).length
  ((c.avoid.toNat * 2 ^ 10 + min shares 1023) * 2 ^ 16 + min c.temp 65535) * 2 ^ 32 + min c.droops.length (2 ^ 32 - 1)

/-- Insert by key, keeping the order of equal ones. -/
def insertBy {α : Type} (f : α → Nat) (x : α) : List α → List α
  | [] => [x]
  | y :: ys => if f x < f y then x :: y :: ys else y :: insertBy f x ys

def sortBy {α : Type} (f : α → Nat) (xs : List α) : List α := xs.foldl (fun l x => insertBy f x l) []

/-- The cores chosen in a meadow, best first, and the rank of the worst. A DET grid takes the lowest. -/
def State.meadowChoice (s : State) (g : Grid) (m : Nat) : Option (Nat × List Nat) :=
  let ok := ((List.range 16).map (16 * m + ·)).filter fun c => (s.fits g c).isSome
  if ok.length < g.cores then none
  else if g.det then some (0, ok.take g.cores)
  else
    let best := (sortBy (fun c => s.coreRank c) ok).take g.cores
    some ((best.map fun c => s.coreRank c).foldl max 0, best)

/-- The cores of a team: of the meadow whose worst chosen core ranks best, the lowest meadow among equals. -/
def State.chooseCores (s : State) (g : Grid) : Option (List Nat) :=
  let cs := (List.range 24).filterMap (s.meadowChoice g)
  match cs with
  | [] => none
  | c :: rest => some (sortBy id (rest.foldl (fun a b => if b.1 < a.1 then b else a) c).2)

/-- The Hilbert index of R166. -/
def hilbert (n : Nat) : Nat → Nat → Nat → Nat → Nat
  | 0, _, _, _ => 0
  | k + 1, half, x, y =>
    let rx := if x &&& half ≠ 0 then 1 else 0
    let ry := if y &&& half ≠ 0 then 1 else 0
    let x1 := if ry = 0 && rx = 1 then n - 1 - x else x
    let y1 := if ry = 0 && rx = 1 then n - 1 - y else y
    half * half * ((3 * rx) ^^^ ry) +
      (if ry = 0 then hilbert n k (half / 2) y1 x1 else hilbert n k (half / 2) x1 y1)

/-- The power of two that covers a grid's plane, and its exponent. -/
def curveBits (gx gy : Nat) : Nat := Nat.log2 (2 * max gx gy - 1)
def curveAt (gx gy x y : Nat) : Nat :=
  hilbert (2 ^ curveBits gx gy) (curveBits gx gy) (2 ^ curveBits gx gy / 2) x y

/-- Where a team stands in the grid's order: curve order for a DET grid (R166). -/
def Grid.orderOf (g : Grid) (index : Nat) : Nat :=
  if !g.det || (g.gy = 1 && g.gz = 1) then index
  else
    let e := index % (g.gx * g.gy)
    index / (g.gx * g.gy) * 4 ^ curveBits g.gx g.gy + curveAt g.gx g.gy (e % g.gx) (e / g.gx)

/-- The linear index of the team at a place of the grid's order: curve order for a DET grid (R166). -/
def Grid.teamAt (g : Grid) (p : Nat) : Nat :=
  if !g.det || (g.gy = 1 && g.gz = 1) then p
  else
    let plane := g.gx * g.gy
    let d := fun e => curveAt g.gx g.gy (e % g.gx) (e / g.gx)
    let k := p % plane
    p - k + (((List.range plane).find? fun e =>
      ((List.range plane).filter fun f => d f < d e).length = k).getD k)

/-- A team put on cores: where its allocations lie and its wefts' slots, held from now on. -/
def State.seat (s : State) (id : Nat) (t : Team) (cores : List Nat) : State :=
  let g := s.grid t.grid
  let shares := cores.map fun c => (s.fits g c).getD ([], 0)
  let keys := (cores.zip shares).flatMap fun p => p.2.1.map fun i => 64 * p.1 + i
  let t1 : Team :=
    { t with cores := cores, bases := shares.map (·.2), wefts := keys, life := .placed, placedAt := s.hub.places }
  let s1 := ({ s with hub := { s.hub with places := s.hub.places + 1 } } : State).setTeam id t1
  (List.range keys.length).foldl (fun (s : State) i =>
    s.setWeft (keys.getD i 0) { live := true, team := id, index := i, width := g.width, stk := g.stk }) s1

/-- The next team of a grid put on its cores. -/
def State.placeTeam (s : State) (g : Grid) (cores : List Nat) : State :=
  let t : Team := { grid := g.handle, index := g.teamAt g.placed, wpc := g.wpc, width := g.width, stk := g.stk, spad := g.spad }
  (({ s with nextId := s.nextId + 1 } : State).seat s.nextId t cores).setGrid g.handle
    { g with placed := g.placed + 1, waitedSince := none }

/-- Teams of a grid placed one after another, as far as they fit. -/
def State.placeMany (s : State) (h : Nat) : Nat → Option State
  | 0 => some s
  | n + 1 =>
    match s.chooseCores (s.grid h) with
    | some cs => (s.placeTeam (s.grid h) cs).placeMany h n
    | none => none

/-! ### Queues (R152, R153) -/

/-- The grid still has teams to place. -/
def Grid.unplaced (g : Grid) : Bool := g.status = .pending && !g.failed && (g.indirect || g.placed < g.teamCount)

def Grid.queueId (g : Grid) : Nat := 8 * g.tenant + g.queue

/-- A grid has a team to be placed: a new one, or one that is saved (R153, R156; assumption 90). -/
def State.wanting (s : State) (g : Grid) : Bool :=
  g.unplaced || s.teams.any fun t => t.2.life = .saved && t.2.grid = g.handle

/-- Queues that hold a grid not yet fully placed. -/
def State.busyQueues (s : State) : List Nat :=
  ((s.grids.filter fun g => s.wanting g.2).map fun g => g.2.queueId).eraseDups

/-- Mapped queues, longest mapped first, and waiting ones, longest waiting first, as work comes and goes. -/
def State.remap (s : State) : State :=
  let qs := s.busyQueues
  let m := s.hub.mapped.filter qs.contains
  let w := s.hub.waiting.filter fun q => qs.contains q && !m.contains q
  let new := qs.filter fun q => !m.contains q && !w.contains q
  let all := w ++ new
  { s with hub := { s.hub with mapped := m ++ all.take (64 - m.length), waiting := all.drop (64 - m.length) } }

/-- The hub's own timer, in microseconds (R153; assumption 26). -/
def State.micros (s : State) : Nat := s.hub.clk / Config.cyclesPerMicro

/-- At the end of a quantum the queues mapped longest give way to those that wait (R153). -/
def execQueueRotation (s : State) : Out :=
  let h := s.hub
  let n := min 64 h.waiting.length
  .next (s.when (h.quantum + 1000 * s.mgmt 0x10 ≤ s.micros)
    { s with hub := { h with
        quantum := s.micros, mapped := h.mapped.drop n ++ h.waiting.take n,
        waiting := h.waiting.drop n ++ h.mapped.take n } })

/-- The grid at the head of its mapped queue. -/
def State.atHead (s : State) (g : Grid) : Bool :=
  g.unplaced && s.hub.mapped.contains g.queueId &&
    s.grids.all fun o => !(o.2.queueId = g.queueId && o.2.unplaced && o.2.seq < g.seq)

/-! ### Folds and stack slots of a grid (R133, R355) -/

/-- Dies on which a tenant's core set has a core. -/
def State.diesOf (s : State) (tenant : Nat) : List Nat :=
  (List.range 4).filter fun d => (List.range 96).any fun i => s.inCoreSet tenant (96 * d + i)

/-- The folds that the grid declares are free of other grids on all of its dies. -/
def State.foldsFree (s : State) (g : Grid) : Bool :=
  (s.diesOf g.tenant).all fun d => g.folds.all fun f =>
    let x := s.fold (64 * d + f.num)
    !x.bound || x.grid = g.handle

def State.bindFolds (s : State) (g : Grid) : State :=
  if g.bound then s
  else
    let asid := (s.ctx g.ctx).asid
    let s1 := (s.diesOf g.tenant).foldl (fun s d => g.folds.foldl (fun s f =>
      s.setFold (64 * d + f.num)
        { bound := true, grid := g.handle, tenant := g.tenant, asid := asid, wsize := f.wsize, timer := f.timer }) s) s
    s1.setGrid g.handle { s1.grid g.handle with bound := true }

/-- Free stack slots of a tenant. -/
def State.freeStacks (s : State) (tenant : Nat) : List Nat :=
  (List.range (bits (s.tenantWord tenant 0x58) 32 16)).filter fun i => !(s.tenant tenant).stkUsed.contains i

/-- A device-launched grid takes a stack slot at its first placement; which one is not said (assumption 25). -/
def State.takeStack (s : State) (g : Grid) : State :=
  if g.depth = 0 || g.stkSlot.isSome then s
  else
    let free := s.freeStacks g.tenant
    let i := free.getD (s.any 61 % max 1 free.length) 0
    let w := s.tenantWord g.tenant 0x58
    let s1 := s.setGrid g.handle { s.grid g.handle with
      stkSlot := some i, stkbase := s.tenantWord g.tenant 0x50 + i * bits w 0 32, stksize := bits w 48 16 }
    s1.mapTenant g.tenant fun t => { t with stkUsed := t.stkUsed ++ [i] }

/-- The threads of a grid fit a stack slot (R355). -/
def State.stackOk (s : State) (g : Grid) (teams : Nat) : Bool :=
  let w := s.tenantWord g.tenant 0x58
  teams * (g.cores * g.wpc * g.width) * bits w 48 16 ≤ bits w 0 32

/-! ### Launches (R150, R151, R163, R164, R167) -/

/-- COSCHED: all teams fit the tenant's core set on an empty device (R163). -/
def State.coschedOk (s : State) (g : Grid) : Bool :=
  !g.cosched ||
  g.teamCount ≤ ((List.range 24).map fun m =>
    let n := (((List.range 16).map (16 * m + ·)).filter (s.inCoreSet g.tenant)).length
    if n < g.cores then 0 else n * g.shares / g.cores).sum

/-- DET: write ranges of two teams do not overlap, CELL ranges apart (R167). -/
def detRangesOk (g : Grid) : Bool :=
  let ws := g.regions.filter (·.write)
  !g.det || (List.range g.teamCount).all fun i => (List.range i).all fun j =>
    ws.all fun a => ws.all fun b =>
      (a.cell && b.cell) || !(a.base i < b.base j + b.len && b.base j < a.base i + a.len)

/-- Checks that need the number of teams (R148, R163, R167, R355). The count of a LAUNCHI that breaks R167 or R355 has
its grid REFUSED as one that breaks R148 or R163 has (assumption 88). -/
def State.teamsOk (s : State) (g : Grid) : Bool :=
  shapeOk g.gx g.gy g.gz && s.coschedOk g && detRangesOk g && s.stackOk g g.teamCount

/-- Statuses that a launch may be answered with: OK when none of the others holds, else one that holds; their
order is not said (assumption 27). -/
def State.launchStatus (s : State) (g : Grid) (d : List Byte) : Nat :=
  let bad := !descOk d g.indirect || (g.priv && !(s.ctx g.ctx).privOk) ||
    !(if g.indirect then shapeOk 1 g.gy g.gz else s.teamsOk g)
  let full := 4096 ≤ (s.tenant g.tenant).pool
  let all := (if full then [1] else []) ++ (if 8 < g.depth then [2] else []) ++ (if bad then [3] else [])
  if all.isEmpty then 0 else all.getD (s.any 62 % all.length) 0

/-- The front end answers a weft's launch. -/
def execLaunchAnswer (core slot : Nat) (s : State) : Out :=
  let key := 64 * core + slot
  let w := s.weft key
  .next (match w.hold with
    | .launch indirect d dst zp =>
      let p := s.gridOf key
      let q := (s.tenant p.tenant).launchSeq
      let seq := if q = 0 then 1 else q
      let h := p.tenant * 2 ^ 28 + seq
      let g := gridOfDesc d indirect p h s.hub.acceptSeq
      let st := s.launchStatus g d
      let ans : Nat → Weft → Weft := fun h w =>
        (((w.writeS dst (BitVec.ofNat 64 h)).writeZ zp (decide (st % 2 = 1))).writeZ (zp + 1) (decide (2 ≤ st)))
      let free : Weft → Weft := fun w => { w with hold := .none }
      if st = 0 then
        let s1 := { s with hub := { s.hub with acceptSeq := s.hub.acceptSeq + 1 } }
        let s2 := (s1.setGrid h g).mapTenant p.tenant fun t =>
          { t with launchSeq := if seq + 1 = 2 ^ 28 then 1 else seq + 1, pool := t.pool + 1 }
        (s2.remap).mapWeft key fun w => free (ans h w)
      else s.mapWeft key fun w => free (ans 0 w)
    | _ => s)

/-- A grid completes: its status stands, wefts that wait for it go on, its stack slot, folds and pool entry
return (R159, R164). The host may have asked for the interrupt (assumption 28). -/
def State.endGrid (s : State) (h : Nat) (st : GridStatus) : State :=
  let g := s.grid h
  let s1 := s.setGrid h { g with status := st }
  let s2 := s1.mapTenant g.tenant fun t => { t with
    stkUsed := (match g.stkSlot with | some i => t.stkUsed.filter (· != i) | none => t.stkUsed),
    pool := if g.indirect || g.placed ≠ g.teamCount then t.pool - 1 else t.pool }
  let unbind : Nat × Fold → Nat × Fold := fun f => if f.2.bound && f.2.grid = h then (f.1, {}) else f
  let wakeUp : Nat × Weft → Nat × Weft := fun w =>
    match w.2.hold with
    | .waitg x _ => if x = h then (w.1, { w.2 with hold := .none }) else w
    | _ => w
  let s3 : State := { s2 with folds := s2.folds.map unbind, wefts := s2.wefts.map wakeUp }
  let s4 := if st = .failed then s3.errorRecord 6 g.tenant (s.unsaid 0) 0xFFFF (s.unsaid 1) (s.unsaid 2) h else s3
  (if s.anyBool 60 then s4.interrupt g.tenant 1 else s4).remap

/-- A dependence is over (R165). -/
def State.depDone (s : State) (tenant h : Nat) : Bool :=
  h = 0 || match s.recentGrid tenant h with | some g => g.status != .pending | none => true

/-- LAUNCHI takes its count (R165, R329). -/
def execLaunchiDequeue (grid : Nat) (s : State) : Out :=
  let g := s.grid grid
  let a : Agent := { ctx := g.ctx, tenant := g.tenant, asid := (s.ctx g.ctx).asid, team := 0, core := 0, slot := 0,
                     lane := 0, priv := g.priv }
  .next (if !(g.indirect && s.atHead g && s.depDone g.tenant g.dep0 && s.depDone g.tenant g.dep1) then s
    else match s.check a (BitVec.ofNat 64 g.cntva) 4 4 .read with
      | .ok t w =>
        let n := leNat (s.homeRead a t 4)
        let g1 := { g with gx := n, indirect := false }
        let s1 := (s.keepWalk 0 w).reached a.asid t 4
        if s.peerLost t || (s.poisonOf t 4).isSome then s.endGrid grid .refused
        else if !s.genMet 0 a.asid t then s
        else if n = 0 then s1.endGrid grid .done
        else if s.teamsOk g1 then s1.setGrid grid g1
        else s1.endGrid grid .refused
      | _ => s.endGrid grid .refused)

/-! ### The scheduler (R154, R156, R163) -/

/-- A checkpoint is under way: launches accepted meanwhile stay queued (R361). -/
def State.checkpointing (s : State) : Bool := s.hub.busy && s.hub.cmd = 1

/-- Resources apart, the grid's next team may be placed. -/
def State.mayPlace (s : State) (g : Grid) : Bool :=
  !s.checkpointing && s.atHead g && !g.indirect && s.foldsFree g && (s.ctx g.ctx).valid &&
    (g.depth = 0 || g.stkSlot.isSome || !(s.freeStacks g.tenant).isEmpty)

/-- The grid's next team, or every team of a COSCHED grid, can be placed now; what it would leave. -/
def State.placedNext (s : State) (g : Grid) : Option State :=
  if !s.mayPlace g then none
  else ((s.takeStack g).bindFolds (s.grid g.handle)).placeMany g.handle (if g.cosched then g.teamCount else 1)

/-- A saved team's cores: those it was saved from when it owns a ring, otherwise as for a new team (R132, R156). -/
def State.resumeCores (s : State) (id : Nat) : Option (List Nat) :=
  let t := s.team id
  let g := s.grid t.grid
  if s.cores.any fun c => c.2.rings.any fun r => r.2.owner = some id && r.2.count ≠ 0 then
    (if t.cores.all fun c => (s.fits g c).isSome then some t.cores else none)
  else s.chooseCores g

/-- The saved teams that are resumed together with one: all of a COSCHED grid (R156). -/
def State.resumeGroup (s : State) (id : Nat) : List Nat :=
  let t := s.team id
  if (s.grid t.grid).cosched then (s.teams.filter fun x => x.2.grid = t.grid && x.2.life = .saved).map (·.1) else [id]

/-- Resources apart, a saved team may be placed: no team of a COSCHED grid before the last of them is saved. -/
def State.mayResume (s : State) (id : Nat) : Bool :=
  let t := s.team id
  let g := s.grid t.grid
  t.life = .saved && !s.checkpointing && s.hub.mapped.contains g.queueId &&
    !(g.cosched && s.teams.any fun x => x.2.grid = t.grid && x.2.resident)

/-- Saved teams take places one after another; none when one has no place. -/
def State.seatMany (s : State) : List Nat → Option State
  | [] => some s
  | t :: ts =>
    match s.resumeCores t with
    | some cs => (s.seat t (s.team t) cs).seatMany ts
    | none => none

/-- A saved team can be placed now, with those that are resumed with it. -/
def State.resumable (s : State) (id : Nat) : Bool := s.mayResume id && (s.seatMany (s.resumeGroup id)).isSome

/-- Turn of a queue after the one served last. -/
def State.turnOf (s : State) (q : Nat) : Nat := (q + 128 - (s.hub.rr + 1) % 128) % 128

/-- Where a ready team stands in the scheduler's order (R154): priority, turn of the queue, order of the grid in its
queue, place in the grid. -/
def State.rankOf (s : State) (g : Grid) (index : Nat) : List Nat :=
  [8 - g.prio, s.turnOf g.queueId, g.seq, g.orderOf index]

/-- Lexicographic order. -/
def ranksBefore : List Nat → List Nat → Bool
  | [], _ => false
  | _, [] => false
  | a :: as, b :: bs => a < b || (a = b && ranksBefore as bs)

/-- A ready team, new or saved, goes before one of a rank (R154). -/
def State.outranked (s : State) (rank : List Nat) : Bool :=
  (s.grids.any fun g => ranksBefore (s.rankOf g.2 (g.2.teamAt g.2.placed)) rank && (s.placedNext g.2).isSome) ||
  s.teams.any fun t => t.2.life = .saved && ranksBefore (s.rankOf (s.grid t.2.grid) t.2.index) rank && s.resumable t.1

/-- The scheduler places the next team of a grid, when no other is to go first (R154). -/
def execTeamPlacement (grid : Nat) (s : State) : Out :=
  let s0 := if s.ctxResident (s.grid grid).ctx then s else s.loadCtx (s.grid grid).ctx
  let g := s0.grid grid
  .next (match s0.placedNext g with
    | none => s
    | some s1 =>
      if s0.outranked (s0.rankOf g (g.teamAt g.placed)) then s
      else
        let s2 := { s1 with hub := { s1.hub with rr := g.queueId } }
        let done := (s2.grid grid).placed = g.teamCount
        (if done then s2.mapTenant g.tenant fun t => { t with pool := t.pool - 1 } else s2).remap)

/-- A sample of temperatures and droops (R155): an event of the last millisecond is at most 100 samples old, and 201
cool samples span 2 ms. -/
def Core.sample (c : Core) (temp : Nat) : Core :=
  let ages := (c.droops.map (· + 1)).filter (· ≤ 100)
  let cool := temp < 88 && ages.length < 2
  let n := if cool then c.coolSamples + 1 else 0
  { c with temp := temp, droops := ages, coolSamples := n,
           avoid := if 95 ≤ temp || 8 ≤ ages.length then true else if 201 ≤ n then false else c.avoid }

def execThermalSample (readings : List (Nat × Nat)) (s : State) : Out :=
  let cs := ((s.cores.map (·.1)) ++ (readings.map (·.1)).filter (· < Config.cores)).eraseDups
  .next (cs.foldl (fun s c => s.mapCore c fun x => x.sample (((readings.find? fun r => r.1 = c).map (·.2)).getD x.temp)) s)

def execDroopEvent (core : Nat) (s : State) : Out :=
  .next (s.when (core < Config.cores) (s.mapCore core fun c => { c with droops := c.droops ++ [0] }))

/-- Every team of a COSCHED grid is pre-empted together (R156). -/
def State.partners (s : State) (team : Nat) : List Nat :=
  let h := (s.team team).grid
  if (s.grid h).cosched then (s.teams.filter fun t => t.2.grid = h && t.2.resident).map (·.1) else [team]

/-- A team with a frozen weft stays resident (R172), and those that would be pre-empted with it. -/
def State.staysPut (s : State) (team : Nat) : Bool :=
  (s.partners team).any fun t => (s.team t).wefts.any fun k => (s.weft k).frozen

def State.preempt (s : State) (team : Nat) : State :=
  (s.partners team).foldl (fun s t => s.askStop t fun r => { r with preempt := true }) s

def execPreemptRequest (team : Nat) (s : State) : Out :=
  .next (s.when (((s.team team).life = .running || (s.team team).life = .stopping || (s.team team).life = .halted) &&
    !s.staysPut team) (s.preempt team))

/-- Resident teams that can give way to a priority: lower ones, the lowest first, the latest placed among equals. -/
def State.victims (s : State) (prio : Nat) : List Nat :=
  let vs := s.teams.filter fun t => t.2.resident && t.2.life != .placed && (s.grid t.2.grid).prio < prio && !s.staysPut t.1
  (sortBy (fun t => (s.grid t.2.grid).prio * 2 ^ 64 + (2 ^ 64 - 1 - t.2.placedAt)) vs).map (·.1)

/-- Ready teams of a grid that only want of resources keeps from being placed: 0 for its next new one, or all of a
COSCHED grid, and the saved ones. -/
def State.stuck (s : State) (g : Grid) : List Nat :=
  (if s.mayPlace g && (s.placedNext g).isNone then [0] else []) ++
  (s.teams.filter fun t => t.2.grid = g.handle && s.mayResume t.1 && !s.resumable t.1).map (·.1)

/-- The machine as the departure of some teams would leave its cores. -/
def State.gone (s : State) (away : List Nat) : State :=
  { s with
    teams := s.teams.map fun t => if away.contains t.1 then (t.1, { t.2 with life := .retired }) else t
    wefts := s.wefts.filter fun w => !away.contains w.2.team }

/-- The departure of a team, and of those that leave with it, lets a waiting one of the grid be placed. -/
def State.makesRoom (s : State) (g : Grid) (team : Nat) : Bool :=
  let rest := (s.gone (s.partners team)).stuck g
  (s.stuck g).any fun k => !rest.contains k

/-- A ready team waits: the wait is noted, and after 100 µs a lower one is pre-empted (R156). -/
def execPriorityPreemption (grid : Nat) (s : State) : Out :=
  let g := s.grid grid
  .next (if (s.stuck g).isEmpty then s
    else match g.waitedSince with
      | none => s.setGrid grid { g with waitedSince := some s.micros }
      | some c =>
        if s.micros < c + 100 then s
        else match (s.victims g.prio).find? (s.makesRoom g) with
          | some v => (s.preempt v).setGrid grid { g with waitedSince := none }
          | none => s)

/-! ### Start (R157, R158) -/

/-- The agent of a team's staging on a core. -/
def State.stageAgent (s : State) (team core : Nat) : Agent :=
  let g := s.grid (s.team team).grid
  { ctx := g.ctx, tenant := g.tenant, asid := (s.ctx g.ctx).asid, team := team, core := core, slot := 0xFF, lane := 0,
    priv := g.priv }

/-- The copy of an entry between its range and LOCAL on a core, one row with TAGP: a command of channel 7 (R157, R159;
assumption 91). -/
def State.stageCmd (s : State) (team core : Nat) (r : Region) (out : Bool) : Cmd :=
  let va := r.base (s.team team).index
  let sp : Int := ((2 ^ 52 - 2 ^ 48 + r.spoff : Nat) : Int)
  { (default : Cmd) with
    tmpl := leBytes 16 0 ++ leBytes 4 r.len ++ leBytes 4 1 ++ leBytes 13 0 ++ leBytes 1 8 ++ leBytes 26 0
    src := if out then sp else va
    dst := if out then va else sp
    agent := s.stageAgent team core
    stage := true }

/-- Channel 7 of each core takes a team's copies as it has room: what is left waits for it (R119). -/
def State.feedStage (s : State) (team : Nat) (out : Bool) : List (Nat × Region) → State × List (Nat × Region)
  | [] => (s, [])
  | x :: xs =>
    let c := (s.core x.1).chan 7
    if c.queue.length < 4 then
      (s.setChan x.1 7 ({ c with queue := c.queue ++ [s.stageCmd team x.1 x.2 out] } : Chan).start).feedStage team out xs
    else
      let y := s.feedStage team out xs
      (y.1, x :: y.2)

/-- A copy of the team's staging. -/
def Cmd.stages (c : Cmd) (team : Nat) : Bool := c.stage && c.agent.team = team

/-- Copies of the team's staging are queued or run. -/
def State.stagesOn (s : State) (team : Nat) : Bool :=
  (s.team team).cores.any fun c => let h := (s.core c).chan 7; (h.run.toList ++ h.queue).any fun k => k.stages team

/-- The staging of a team goes on, from its first step where it has none. -/
def State.stageOn (s : State) (team : Nat) (out : Bool) (work : List (Nat × Region)) : State :=
  let y := s.feedStage team out work
  y.1.mapTeam team fun t => { t with staging := some y.2 }

/-- Every copy of the team's staging has completed. -/
def State.staged (s : State) (team : Nat) : Bool := (s.team team).staging = some [] && !s.stagesOn team

/-- The team's staging is given up: its copies stop (R157). -/
def State.dropStage (s : State) (team : Nat) : State :=
  let s1 := (s.team team).cores.foldl (fun (s : State) c => s.setChan c 7 (((s.core c).chan 7).drop fun k => k.stages team)) s
  { s1 with faults := s1.faults.filter fun f => !(f.team = team && f.weft = 0xFF) }

def State.stageWork (s : State) (team : Nat) (out : Bool) : List (Nat × Region) :=
  let t := s.team team
  ((s.grid t.grid).regions.filter fun r => if out then r.stageOut else r.stageIn).flatMap fun r =>
    (if r.allCores then t.cores else t.cores.take 1).map fun c => (c, r)

/-- The allocations are cleared: bytes, tags and poison. -/
def State.clearSpad (s : State) (team : Nat) : State :=
  let t := s.team team
  t.cores.foldl (fun s c =>
    let b := assoc t.cores t.bases c
    let away : Nat → Nat → Bool := fun unit k => unit * k + unit ≤ b || b + t.spad ≤ unit * k
    s.mapCore c fun x => { x with
      spad := x.spad.filter fun e => away 1 e.1, stags := x.stags.filter fun e => away 64 e.1,
      spoison := x.spoison.filter fun e => away 4 e.1 }) s

/-- The first state of a thread (R158). -/
def Grid.lane (g : Grid) (weft lane : Nat) : Lane :=
  { started := true, pc := BitVec.ofNat 64 g.entry, regs := [(0, BitVec.ofNat 32 (weft * g.width + lane))] }

/-- The first state of a weft (R158, R355). -/
def State.firstWeft (s : State) (team : Nat) (w : Weft) : Weft :=
  let t := s.team team
  let g := s.grid t.grid
  let x := t.index % g.gx
  let y := t.index / g.gx % g.gy
  let z := t.index / (g.gx * g.gy)
  let vals := [g.argva, x, y, z, t.index, w.index, w.index / t.wpc, g.handle]
  { w with
    s := (List.range 8).map fun i => (i, BitVec.ofNat 64 (vals.getD i 0)),
    tbase := (s.ctx g.ctx).tbase,
    lanes := (List.range w.width).map fun l => (l, g.lane w.index l) }

/-- A core drops its copy of a context's block when no other team of the context is on it (R182). -/
def State.dropBlock (s : State) (team core : Nat) : State :=
  let c := (s.grid (s.team team).grid).ctx
  s.when (!s.teams.any fun t => t.1 ≠ team && t.2.resident && t.2.cores.contains core && (s.grid t.2.grid).ctx = c)
    (s.mapCore core fun x => { x with blocks := del c x.blocks })

/-- Remove a team from its cores: slots, allocations, memberships, rings, pins, tile reports and copies of the context's
block (R71, R132, R134, R159, R182). -/
def State.freeTeam (s : State) (team : Nat) (life : Life) : State :=
  let t := s.team team
  let ctx := (s.grid t.grid).ctx
  let s1 := t.folds.foldl (fun s f => s.setFold (f / 512) ((s.fold (f / 512)).leave (f % 512))) s
  let close : Nat × Ring → Nat × Ring := fun r =>
    if life = .retired && r.2.owner = some team then
      (r.1, { r.2 with count := 0, filled := 0, free := 0, takeIdx := 0, putIdx := 0, owner := none })
    else r
  let s2 := t.cores.foldl (fun s c => (s.dropBlock team c).mapCore c fun x => { x with
    rings := x.rings.map close, pins := x.pins.filter (fun p => p.ctx != ctx),
    loomDone := x.loomDone.filter (fun o => o.agent.team != team) }) s1
  let s3 : State := { s2 with wefts := s2.wefts.filter fun w => !(w.2.live && w.2.team = team) }
  s3.mapTeam team fun t => { t with life := life, wefts := if life = .saved then t.wefts else [] }

/-- A grid ends its team without starting it: staging failed (R157). -/
def State.abandon (s : State) (team : Nat) : State :=
  let h := (s.team team).grid
  let s1 := (s.dropStage team).freeTeam team .retired
  let g := s1.grid h
  (s1.setGrid h { g with failed := true, retired := g.retired + 1 }).remap

/-- The team's wefts start: the grid with its first team, then each core's copy of the block, what earlier writes left
in L1 dropped (R158, R164, R182). -/
def State.startTeam (s : State) (team : Nat) : State :=
  let t := s.team team
  let g := s.grid t.grid
  let s1 := t.cores.foldl (fun (s : State) c => (s.readBlock g.ctx c).acquireDrop c false) (s.startGrid g)
  let s2 := t.wefts.foldl (fun s k => s.mapWeft k fun w => s.firstWeft team w) s1
  (s2.mapTeam team fun t => { t with life := .running, staging := none }).wake

/-- A team starts (R157): cleared, staged through channel 7, and its wefts take their first state. -/
def execTeamStart (team : Nat) (s : State) : Out :=
  let t := s.team team
  .next (if t.life != .placed then s
    else if t.stageFail then s.abandon team
    else
      let s1 := match t.staging with
        | none => (t.cores.foldl (fun (s : State) c => s.acquireDrop c false) (s.clearSpad team)).stageOn team false (s.stageWork team false)
        | some work => s.stageOn team false work
      if s1.staged team then s1.startTeam team else s1)

/-! ### Retirement and completion (R159) -/

/-- Requests of exited lanes that end without effect: no part of them has to perform (R252, R97). -/
def ReqOp.droppable : ReqOp → Bool
  | .load _ | .ldtag | .pref | .lck _ | .waitc _ | .barw | .fld _ _ _ _ | .rtake _ => true
  | _ => false

/-- No body is being written into a ring that the team owns (R132). -/
def State.ringsQuiet (s : State) (team : Nat) : Bool :=
  s.cores.all fun c => c.2.rings.all fun r => r.2.owner ≠ some team || r.2.writing.isEmpty

/-- Everything that the team's lanes have started and that still has to happen has happened (R252, R159). -/
def State.teamQuiet (s : State) (team : Nat) : Bool :=
  let t := s.team team
  t.wefts.all (fun k => (s.weft k).allExited && (s.weft k).sq.isEmpty) &&
  s.reqs.all (fun r => r.agent.team != team || r.op.droppable) &&
  t.cores.all (fun c => s.written c false && !(s.core c).loomOps.any (fun o => o.agent.team = team) &&
    (s.core c).chans.all fun h => (h.2.run.toList ++ h.2.queue).all fun x => x.agent.team != team || x.stage) &&
  s.pwrites.all (fun p => match p.weft with | some k => !t.wefts.contains k | none => true) && t.gq.isEmpty &&
  s.ringsQuiet team

/-- Requests of a team leave, and their cores' marks with them. -/
def State.dropReqs (s : State) (team : Nat) : State :=
  { s with reqs := s.reqs.filter (fun r => r.agent.team != team),
           faults := s.faults.filter fun f => !(f.team = team && f.resume.ofTeam) }

/-- Fold requests of the team leave their rounds (R134, R97). -/
def State.leaveRounds (s : State) (team : Nat) : State :=
  let ids := (s.reqs.filter fun r => r.agent.team = team).map (·.id)
  let strip : Round → Round := fun x => { x with reqs := x.reqs.filter fun i => !ids.contains i }
  { s with folds := s.folds.map fun f => (f.1, { f.2 with rounds := f.2.rounds.map strip }) }

/-- Teams of a DET grid retire in curve order: one before this has not retired (R166). -/
def State.heldBack (s : State) (team : Nat) : Bool :=
  let t := s.team team
  let g := s.grid t.grid
  g.det && s.teams.any fun o => o.2.grid = t.grid && o.2.life != .retired && g.orderOf o.2.index < g.orderOf t.index

/-- The team leaves for good; a copy out that failed fails the grid, those made before it standing. -/
def State.retireTeam (s : State) (team : Nat) : State :=
  let t := s.team team
  let s1 := ((s.leaveRounds team).dropReqs team).freeTeam team .retired
  let g := s1.grid t.grid
  (s1.setGrid t.grid { g with retired := g.retired + 1, failed := g.failed || t.stageFail }).wake

/-- A team retires: its copies out go through channel 7, and when the last has completed it leaves. -/
def execTeamRetire (team : Nat) (s : State) : Out :=
  let t := s.team team
  .next (if t.life = .retired || t.life = .saved || t.life = .placed || !s.teamQuiet team || s.heldBack team then s
    else
      let s1 := s.stageOn team true (if t.stageFail then [] else t.staging.getD (s.stageWork team true))
      if s1.staged team then s1.retireTeam team else s1)

/-- A grid completes when its last team has retired. -/
def execGridComplete (grid : Nat) (s : State) : Out :=
  let g := s.grid grid
  .next (s.when ((look grid s.grids).isSome && g.status = .pending && !g.indirect && g.retired = g.placed &&
      (g.failed || g.placed = g.teamCount))
    (s.endGrid grid (if g.failed then .failed else .done)))

/-- The lanes of a frozen weft exit, and what waited for them goes on (R159, R252, R281). -/
def State.endWeft (s : State) (key : Nat) : State :=
  let ls := (s.weft key).lanes.map (·.1)
  (s.mapWeft key fun w =>
    (w.eachLane ls fun _ x => { x with exited := true, wait := .none }).leaveMasks (maskOf ls)).testBarrier (s.weft key).team

/-- System software ends a grid with a frozen weft: no further team is placed, and the frozen wefts, which nothing
will release, exit so that their teams can retire (R159, R172). -/
def execSystemSoftwareEndsGrid (grid : Nat) (s : State) : Out :=
  let g := s.grid grid
  let hit : Nat × Weft → Bool := fun w => w.2.live && w.2.frozen && (s.team w.2.team).grid = grid
  .next (s.when (g.status = .pending && s.wefts.any hit)
    (((((s.wefts.filter hit).map (·.1)).foldl State.endWeft s).setGrid grid { g with failed := true }).remap))

/-- System software destroys a context: its pins are released at both levels (R71). -/
def execContextDestroyed (ctx : Nat) (s : State) : Out :=
  let unpin : Nat × Core → Nat × Core := fun c => (c.1, { c.2 with pins := c.2.pins.filter fun p => p.ctx != ctx })
  .next (s.when (!s.ctxResident ctx)
    ((({ s with cores := s.cores.map unpin, l2pins := s.l2pins.filter fun p => p.ctx != ctx } : State).usedZero ctx).mapCtx
      ctx fun x => { x with valid := false }))

end Sys2Proof.Machine
end

