-- ==== Sys2Proof/Machine/Image.lean ====
section
/-!
DEFINITION. The save image (R180): how a team is written and how it is read back, and the dump's records (R186).
-/
namespace Sys2Proof.Machine

/-! ### Stop sites and live masks (R177, R238) -/

/-- The record of the stop site at which a lane stands: ordinal and live masks of v, t and p. -/
def State.siteOf (s : State) (key lane : Nat) : Option (Nat × Nat × Nat × Nat) :=
  let w := s.weft key
  let x := w.lane lane
  let here := match s.chain key 1 x.pc.toNat with | (i, _) :: _ => i.ctl.s | [] => false
  if s.laneCode key lane ≠ 0 || !here then none
  else
    let o := s.ordinalOf key x.pc
    let a := (s.gridOf key).sptva + 16 + 40 * o
    if o = 0xFFFFFFFF then none
    else match s.readVa key (a + 16) 4, s.readVa key (a + 36) 1, s.readVa key (a + 37) 1 with
      | some v, some t, some p => some (o, v, t % 16, p)
      | _, _, _ => none

/-- UV, UT and UP of a weft: the unions of its lanes' masks, all ones when a lane stands away from a site. -/
def State.liveMasks (s : State) (key : Nat) : Nat × Nat × Nat :=
  let w := s.weft key
  ((List.range w.width).filter fun l => !(w.lane l).exited).foldl (fun m l =>
    match s.siteOf key l with
    | some (_, v, t, p) => (m.1 ||| v, m.2.1 ||| t, m.2.2 ||| p)
    | none => (2 ^ 32 - 1, 15, 255)) (0, 0, 0)

def setBitsOf (n m : Nat) : List Nat := (List.range n).filter m.testBit

/-- Bytes added to reach a multiple of 8. -/
def padTo8 (bs : List Byte) : List Byte := bs ++ leBytes ((8 - bs.length % 8) % 8) 0

/-! ### Lane and weft records -/

/-- A flag byte: bit n for each time register of a table. -/
def markBits (t : Tab TMark) : Nat := ((List.range 4).map fun n => if (look n t).isSome then 2 ^ n else 0).sum

/-- Logical registers of a lane below its window that the image carries. -/
def belowWindow (wb stk : Nat) : List Nat := (List.range (min wb (stk - 32))).map fun i => wb - min wb (stk - 32) + i

/-- A register of a lane by logical number: one that is not resident is read from its slot, as the lane would read it
(R247, R104). -/
def State.laneReg (s : State) (key lane L : Nat) : W32 :=
  let w := s.weft key
  let x := w.lane lane
  let va := s.stkSlot key lane L
  let g := s.agent key lane
  if x.lo ≤ L then lookD (L % w.stk) (0 : W32) x.regs
  else match w.sq.reverse.find? fun e => e.lane = lane && e.va = va with
    | some e => BitVec.ofNat 32 (leNat e.bytes)
    | none =>
      match s.check g (BitVec.ofNat 64 va) 4 4 .read with
      | .ok t _ => BitVec.ofNat 32 (leNat (s.loadBytes g t 4 false))
      | _ => s.anyBits 32 (8 * (va % 2 ^ 24) + 1)

def State.laneRecord (s : State) (key lane : Nat) (m : Nat × Nat × Nat) : List Byte :=
  let w := s.weft key
  let x := w.lane lane
  let ord := match s.siteOf key lane with | some (o, _) => o | none => 0xFFFFFFFF
  padTo8 (leBytes 8 x.pc.toNat ++ leBytes 8 x.meet.toNat ++ leBytes 4 ord ++ leBytes 2 x.wb ++
    leBytes 1 (s.laneCode key lane) ++ leBytes 1 (markBits x.broken + 16 * markBits x.refused) ++ leBytes 8 0 ++
    ((setBitsOf 32 m.1).flatMap fun i => leBytes 4 (x.v w.stk i).toNat) ++
    ((setBitsOf 4 m.2.1).flatMap fun n => leBytes 4 (x.treg n).toNat) ++ leBytes 1 x.preds.toNat ++
    ((belowWindow x.wb w.stk).flatMap fun L => leBytes 4 (s.laneReg key lane L).toNat))

def State.weftRecord (s : State) (key : Nat) : List Byte :=
  let w := s.weft key
  let m := s.liveMasks key
  [(List.range 128).flatMap fun n => leBytes 8 (w.sreg n).toNat,
    (List.range 12).flatMap fun n => leBytes 16 (w.kmem n).toNat,
    (List.range 12).flatMap fun n => leBytes 16 (w.karr n).toNat,
    leBytes 1 w.z.toNat, leBytes 1 (w.allExited.toNat + 2 * w.frozen.toNat), leBytes 6 0,
    leBytes 8 w.tcause.toNat, leBytes 8 w.tepc.toNat, leBytes 16 w.tlanes.toNat, leBytes 8 w.taddr.toNat,
    leBytes 8 w.tstat, leBytes 8 w.tctl,
    leBytes 4 m.1, leBytes 1 m.2.1, leBytes 1 m.2.2, leBytes 58 0,
    (List.range w.width).flatMap fun l => s.laneRecord key l m].flatten

/-! ### Replay records -/

/-- OPC of the instruction behind a request. -/
def Req.opc (r : Req) : Nat :=
  let uni := match r.dst with | .s _ => true | _ => false
  match r.op with
  | .load _ => if uni then 0xA2 else 0xA0
  | .ldtag => 0xA4
  | .atom _ => if uni then 0xA7 else 0xA6
  | .cas => 0xA8
  | .cadd => 0xA9
  | .clrc => 0xAA
  | .store => if (lanesOf r.lanes).length ≤ 1 then 0xA1 else 0xA3
  | .sttag => 0xA5
  | .pref => 0xAC
  | .lck _ => 0xAD
  | .cmo _ => 0xAF
  | .waitc _ => 0xB0
  | .gadd _ => 0xB7
  | .bara => 0xB2
  | .barw => 0xB3
  | .rtake _ => 0xC1
  | .rput _ => 0xC0
  | .fld _ _ _ _ => 0xC6
  | .chkt _ => 0xD1

def Req.subop (r : Req) : Nat :=
  match r.op with
  | .atom f | .waitc f | .cmo f => f
  | .gadd g => g
  | .fld f _ _ _ => f % 64
  | _ => 0

/-- The destination: v by its number in the window of the lane. -/
def Req.dstOf (r : Req) (wb : Nat) (p : Part) : Dst :=
  match r.dst with
  | .none => .none
  | .v => .v (Fin.ofNat 32 (p.reg - wb))
  | .s n => .s (Fin.ofNat 128 n)
  | .z n => .z (Fin.ofNat 4 n)
  | .p n => .p (Fin.ofNat 8 n)

/-- The VA field, and the operand data of 16 bytes. -/
def Req.replayData (r : Req) (p : Part) : Nat × List Byte :=
  match r.op with
  | .store => (p.va, leBytes 16 p.x)
  | .cas => (p.va, leBytes 8 p.x ++ leBytes 8 p.y)
  | .rput t => (t, leBytes 4 p.x ++ leBytes 12 0)
  | .rtake n => (n, leBytes 16 0)
  | .fld _ off len _ => (p.va, leBytes 8 (off + len * 2 ^ 21) ++ leBytes 8 0)
  | .clrc => (p.va, leBytes 4 p.x ++ leBytes 12 0)
  | .chkt m => (p.va, leBytes 8 m ++ leBytes 8 0)
  | _ => (p.va, leBytes 8 p.x ++ leBytes 8 0)

/-- The record of one lane of a cancelled request; what R180 gives no field for is in assumption 92. -/
def replayRecord (wb : Nat) (x : Replay) (p : Part) : List Byte :=
  let r := x.req
  let d := r.replayData p
  leBytes 8 d.1 ++ d.2 ++ leBytes 2 x.weft ++ leBytes 1 (if r.parts.length ≤ 1 then r.lowLane else p.lane) ++
  leBytes 1 r.opc ++ leBytes 1 (r.ty % 32) ++ leBytes 1 r.subop ++
  leBytes 1 (Nat.log2 (max 1 r.size) % 8 + 8 * (r.hint % 8)) ++
  leBytes 1 (match r.tsel with | some n => 4 + n % 4 | none => 0) ++ leBytes 2 (r.dstOf wb p).toBits.toNat ++
  leBytes 1 (r.acq.toNat + 2 * r.rel.toNat + 4 * (r.scope % 8)) ++ leBytes 13 0

/-- Order of replay records: weft, lane, register (R180, R96). -/
def replayKey (x : Replay × Part) : Nat :=
  (x.1.weft * 128 + (if x.1.req.parts.length ≤ 1 then x.1.req.lowLane else x.2.lane)) * 8 +
    (match x.1.req.tsel with | some n => n | none => 4)

/-- Cancelled requests by lane, in that order. -/
def replayParts (rs : List Replay) : List (Replay × Part) :=
  sortBy replayKey (rs.flatMap fun x => x.req.parts.map fun p => (x, p))

/-- The replay list; wefts are the team's, by index. -/
def replayList (wefts : List Weft) (rs : List Replay) : List (List Byte) :=
  (replayParts rs).map fun x => replayRecord ((wefts.getD x.1.weft default).lane x.2.lane).wb x.1 x.2

/-! ### The header and the whole image -/

def widthCode (g : Team) : Nat :=
  wcode g.width + 4 * (if g.stk = 32 then 0 else if g.stk = 48 then 1 else if g.stk = 64 then 2
    else if g.stk = 96 then 3 else if g.stk = 128 then 4 else 5)

/-- The team owns an enabled ring (R132). -/
def State.holdsRing (s : State) (team : Nat) : Bool :=
  s.cores.any fun c => c.2.rings.any fun r => r.2.owner = some team && r.2.count ≠ 0

def State.imageHeader (s : State) (team nreplay : Nat) (retrain : Bool) : List Byte :=
  let t := s.team team
  let g := s.grid t.grid
  let folds := (t.folds.map fun f => f / 512 % 64).eraseDups
  let arrived := t.arrived.foldl (fun a i => a ||| 2 ^ i) 0
  let phstep := t.wefts.any fun k => (s.weft k).phstep
  [leBytes 4 0x54594D47, leBytes 2 1,
    leBytes 2 (retrain.toNat + 2 * g.cosched.toNat + 4 * (s.holdsRing team).toNat + 8 * phstep.toNat),
    leBytes 8 (s.core (t.cores.headD 0)).cyc, leBytes 4 g.handle, leBytes 4 t.index, leBytes 1 t.cores.length,
    leBytes 1 t.wpc, leBytes 1 (widthCode t), leBytes 1 0, leBytes 4 t.spad,
    (List.range 8).flatMap fun i => leBytes 2 (t.cores.getD i 0),
    leBytes 4 nreplay, leBytes 4 folds.length, leBytes 8 (folds.foldl (fun a i => a ||| 2 ^ i) 0),
    (List.range 16).flatMap fun n => leBytes 8 (lookD n (0 : Word) t.g).toNat,
    leBytes 4 (2 * t.phase + 1), leBytes 4 t.arrived.length, leBytes 56 0, leBytes 64 arrived].flatten

/-- Scratchpad of a team on a core: the bytes, then FORMAT and SCALE of each 64-byte block (assumption 92). -/
def State.spadImage (s : State) (team core : Nat) : List Byte :=
  let t := s.team team
  let base := assoc t.cores t.bases core
  mread (s.core core).spad base t.spad ++ (List.range (t.spad / 64)).flatMap fun i =>
    let y := (s.tagOf (.spad core (base + 64 * i))).toNat
    leBytes 1 (y / 256) ++ leBytes 1 y

/-- Bytes of that. -/
def spadSize (spad : Nat) : Nat := spad + 2 * (spad / 64)

/-- The image of a team whose requests rs are cancelled. -/
def State.teamImage (s : State) (team : Nat) (rs : List Replay) : List Byte :=
  let t := s.team team
  let recs := replayList (t.wefts.map s.weft) rs
  s.imageHeader team recs.length t.retrain ++ t.wefts.flatMap s.weftRecord ++
    (t.cores.flatMap fun c => s.spadImage team c) ++ recs.flatten

/-! ### Reading an image back (R181) -/

/-- Bytes that a lane record takes. -/
def laneSize (m : Nat × Nat × Nat) (wb stk : Nat) : Nat :=
  let n := 32 + 4 * (setBitsOf 32 m.1).length + 4 * (setBitsOf 4 m.2.1).length + 1 + 4 * min wb (stk - 32)
  n + (8 - n % 8) % 8

/-- What a lane waits for by its state code: what it waited for when that had this code, else what the weft's masks
tell (assumption 56). -/
def waitOf (w : Weft) (lane code : Nat) : Wait :=
  if code = w.stateCode lane then (w.lane lane).wait
  else if code = 2 then .park none
  else if code = 3 then .dst
  else if code = 4 then .meeting
  else if code = 5 then
    (match (List.range 12).find? fun k => (w.karr k).getLsbD lane with | some k => .mask k | none => .barrier)
  else .none

/-- A lane of a weft from its record: the registers that the record carries are resident (R247), others hold undefined
values (free); marks and the requests that its time registers carry come with the team. -/
def State.loadLane (s : State) (w : Weft) (lane : Nat) (m : Nat × Nat × Nat) (salt : Nat) (b : List Byte) : Lane :=
  let old := w.lane lane
  let wb := tmplNum b 20 2
  let vs := setBitsOf 32 m.1
  let ts := setBitsOf 4 m.2.1
  let at_ := 32 + 4 * vs.length
  let code := tmplNum b 22 1
  let flags := tmplNum b 23 1
  let win := (List.range 32).map fun i =>
    ((wb + i) % w.stk, if m.1.testBit i then BitVec.ofNat 32 (tmplNum b (32 + 4 * vs.idxOf i) 4)
      else s.anyBits 32 (8 * (40 * salt + i) + 1))
  let below := belowWindow wb w.stk
  let spilled := below.map fun L =>
    (L % w.stk, BitVec.ofNat 32 (tmplNum b (at_ + 4 * ts.length + 1 + 4 * below.idxOf L) 4))
  let tv := (List.range 4).map fun n =>
    (n, if m.2.1.testBit n then BitVec.ofNat 32 (tmplNum b (at_ + 4 * ts.idxOf n) 4)
        else if (look n old.treq).isSome then old.treg n else s.anyBits 32 (8 * (40 * salt + 32 + n) + 1))
  { old with
    pc := BitVec.ofNat 64 (tmplNum b 0 8), meet := BitVec.ofNat 64 (tmplNum b 8 8), wb := wb,
    lo := wb - min wb (w.stk - 32), wait := waitOf w lane code, exited := code = 7,
    susp := code = 6 && w.hmode && !w.tlanes.getLsbD lane,
    regs := putAll (putAll [] win) spilled, t := putAll [] tv,
    preds := BitVec.ofNat 8 (tmplNum b (at_ + 4 * ts.length) 1),
    broken := old.broken.filter (fun e => flags.testBit e.1), refused := old.refused.filter (fun e => flags.testBit (4 + e.1)) }

/-- Lane records of a weft, and the bytes that follow them. -/
def State.loadLanes (s : State) (w : Weft) (m : Nat × Nat × Nat) (salt : Nat) : List Nat → List Byte → Tab Lane × List Byte
  | [], b => ([], b)
  | l :: ls, b =>
    let n := laneSize m (tmplNum b 20 2) w.stk
    let (t, rest) := s.loadLanes w m salt ls (b.drop n)
    ((l, s.loadLane w l m (128 * salt + l) (b.take n)) :: t, rest)

/-- A weft from its record. -/
def State.loadWeft (s : State) (w : Weft) (salt : Nat) (b : List Byte) : Weft × List Byte :=
  let m := (tmplNum b 1472 4, tmplNum b 1476 1 % 16, tmplNum b 1477 1)
  let tstat := tmplNum b 1456 8
  let tctl := tmplNum b 1464 8
  let x := { w with
     s := (List.range 128).map fun n => (n, BitVec.ofNat 64 (tmplNum b (8 * n) 8)),
     kMem := (List.range 12).map fun n => (n, BitVec.ofNat 128 (tmplNum b (1024 + 16 * n) 16)),
     kArr := (List.range 12).map fun n => (n, BitVec.ofNat 128 (tmplNum b (1216 + 16 * n) 16)),
     z := BitVec.ofNat 4 (tmplNum b 1408 1), frozen := (tmplNum b 1409 1).testBit 1,
     tcause := BitVec.ofNat 64 (tmplNum b 1416 8), tepc := BitVec.ofNat 64 (tmplNum b 1424 8),
     tlanes := BitVec.ofNat 128 (tmplNum b 1432 16), taddr := BitVec.ofNat 64 (tmplNum b 1448 8),
     ncause := BitVec.ofNat 8 (tstat / 256), prevPriv := tstat.testBit 2, haltPend := tstat.testBit 1,
     hmode := tstat.testBit 0, phstep := tctl.testBit 2, rfp := tctl.testBit 1, bpt := tctl.testBit 0 }
  let (lanes, rest) := s.loadLanes x m salt (List.range w.width) (b.drop 1536)
  ({ x with lanes := lanes }, rest)

def State.loadWefts (s : State) : Nat → List Weft → List Byte → List Weft × List Byte
  | _, [], b => ([], b)
  | salt, w :: ws, b =>
    let (x, rest) := s.loadWeft w salt b
    let (xs, rest') := s.loadWefts (salt + 1) ws rest
    (x :: xs, rest')

/-- What a replay record asks for (R180); none for an OPC that makes no request. -/
def recordOp (b : List Byte) : Option ReqOp :=
  let opc := tmplNum b 27 1
  let sub := tmplNum b 29 1
  let d := tmplNum b 8 8
  if opc = 0xA0 || opc = 0xA2 then some (.load (tySigned (tmplNum b 28 1 % 32)))
  else if opc = 0xA1 || opc = 0xA3 then some .store
  else if opc = 0xA4 then some .ldtag
  else if opc = 0xA5 then some .sttag
  else if opc = 0xA6 || opc = 0xA7 then some (.atom sub)
  else if opc = 0xA8 then some .cas
  else if opc = 0xA9 then some .cadd
  else if opc = 0xAA then some .clrc
  else if opc = 0xAC then some .pref
  else if opc = 0xAD then some (.lck (bits (tmplNum b 34 1) 2 3 = 3))
  else if opc = 0xAF then some (.cmo sub)
  else if opc = 0xB0 then some (.waitc sub)
  else if opc = 0xB2 then some .bara
  else if opc = 0xB3 then some .barw
  else if opc = 0xB7 then some (.gadd sub)
  else if opc = 0xC0 then some (.rput (tmplNum b 0 8))
  else if opc = 0xC1 then some (.rtake (tmplNum b 0 8))
  else if opc = 0xC6 then some (.fld sub (bits d 0 21) (bits d 21 17) 0)
  else if opc = 0xD1 then some (.chkt d)
  else none

/-- Where a request that has no address yet stands among the targets. -/
def ReqOp.apart : ReqOp → Nat
  | .rput _ => 2 ^ 53
  | .rtake _ => 2 ^ 53 + 16
  | .fld _ _ _ _ => 2 ^ 53 + 17
  | .gadd g => 2 ^ 52 + g
  | _ => 2 ^ 53 + 18

/-- The request of a replay record of a team whose wefts are at some keys. -/
def State.recordReq (s : State) (keys : List Nat) (b : List Byte) : Option Req :=
  (recordOp b).map fun op =>
    let key := keys.getD (tmplNum b 24 2) 0
    let lane := tmplNum b 26 1 % 128
    let x := (s.weft key).lane lane
    let dst := (Dst.ofBits (BitVec.ofNat 9 (tmplNum b 32 2))).getD .none
    let size := 2 ^ (tmplNum b 30 1 % 8)
    let o := tmplNum b 34 1
    let p : Part :=
      { lane := lane, va := tmplNum b 0 8, x := if op = .store then leNat ((b.drop 8).take size) else tmplNum b 8 8,
        y := if op = .store then 2 ^ size - 1 else tmplNum b 16 8, val := 0,
        reg := match dst with | .v n => x.wb + n | _ => 0, tgt := unplaced op.apart }
    { s.newReq (s.agent key lane) op size [p] (reqDst dst) with
      ty := tmplNum b 28 1 % 32, hint := bits (tmplNum b 30 1) 3 3, acq := o.testBit 0, rel := o.testBit 1,
      scope := bits o 2 3, epc := x.pc,
      tsel := let n := tmplNum b 31 1 % 8; if 4 ≤ n then some (n - 4) else none }

/-! ### Where images and dumps lie -/

/-- The agent of the device's own copies for a context: no team, privileged. -/
def State.ctxAgent (s : State) (ctx asid : Nat) : Agent :=
  { ctx := ctx, tenant := (s.ctx ctx).tenant, asid := asid, team := 0, core := 0, slot := 0, lane := 0, priv := true }

/-- Bytes written by VA, as far as they translate: what is left unwritten. -/
def State.writeVa (s : State) (g : Agent) (va : Nat) (bs : List Byte) : Nat → State × Nat
  | 0 => (s, 0)
  | fuel + 1 =>
    if bs.isEmpty then (s, 0)
    else
      let n := min bs.length (64 - va % 64)
      match s.engAt g va n true with
      | .ok t w => ((s.keepWalk g.core w).homePut g.asid t (bs.take n)).writeVa g (va + n) (bs.drop n) fuel
      | _ => (s, bs.length)

/-- Bytes read by VA; those that do not translate are free values. -/
def State.readBytes (s : State) (g : Agent) (va n : Nat) : Nat → List Byte
  | 0 => []
  | fuel + 1 =>
    if n = 0 then []
    else
      let k := min n (64 - va % 64)
      let b : List Byte := match s.engAt g va k false with
        | .ok t _ => s.homeRead g t k
        | _ => (List.range k).map fun i => s.anyBits 8 (8 * ((va + i) % 2 ^ 24) + 1)
      b ++ s.readBytes g (va + k) (n - k) fuel

/-- Some block of [va, va + n) lies at a home that has not yet the core's GEN (R35). -/
def State.spanWaits (s : State) (g : Agent) (va n : Nat) (write : Bool) : Bool :=
  (List.range ((va % 64 + n + 63) / 64)).any fun i =>
    let a := max va (align va 64 + 64 * i)
    s.engAt g a 1 write = .wait

end Sys2Proof.Machine
end

