-- ==== Sys2Proof/Machine/Saving.lean ====
section
/-!
DEFINITION. Stops, saves and resumes of teams (R177 to R181, R96, R97), halts and dumps (R185, R186), snapshots
(R187), and the registers whose writes complete in steps of their own (R57, R182, R263, R264).
-/
namespace Sys2Proof.Machine

/-! ### Stops (R177, R178, R185) -/

/-- The word of the stop site at which a lane that no wait holds stands, outside handler mode. -/
def State.siteWord (s : State) (key lane : Nat) : Option Info :=
  let x := (s.weft key).lane lane
  match s.chain key 1 x.pc.toNat with
  | (i, _) :: _ => if x.free (s.core (key / 64)).cyc && i.ctl.s && !(s.weft key).hmode then some i else none
  | [] => none

/-- Some lane of the team's wefts, by weft and lane. -/
def State.anyLane (s : State) (team : Nat) (p : Nat → Nat → Bool) : Bool :=
  (s.team team).wefts.any fun k => (List.range (s.weft k).width).any (p k)

/-- A lane stands at a BAR where a phase step stops it (R178). -/
def State.phaseStop (s : State) (key lane : Nat) : Bool :=
  s.phased (s.weft key).team && !(s.weft key).phgo.getLsbD lane &&
  match s.siteWord key lane with | some i => i.opc = 0xB1 | none => false

/-- Nothing of the team runs on: no lane is runnable away from a stop site, no weft is in handler mode, and no BOOKED or
LATE request is about to release a lane (R178). -/
def State.allStopped (s : State) (team : Nat) : Bool :=
  (s.team team).wefts.all (fun k => (s.issuables k).isEmpty && (!(s.weft k).hmode || (s.weft k).allExited)) &&
  s.reqs.all fun r => r.agent.team != team || r.promise = 0

/-- Every weft has stopped at a BAR under PHSTEP (R178). -/
def State.allPhased (s : State) (team : Nat) : Bool :=
  let t := s.team team
  s.phased team && t.wefts.any (fun k => !(s.weft k).allExited) &&
  t.wefts.all fun k => (s.weft k).allExited || (List.range (s.weft k).width).any (s.phaseStop k)

/-- A stopped team has come to a halt: one that was asked for, a breakpoint at the ordinal of a lane's site, or a phase
step (R177, R178, R185). -/
def State.haltDue (s : State) (team : Nat) : Bool :=
  let st := (s.team team).stop
  st.halt || s.allPhased team ||
  match st.ordinal with
  | some o => s.anyLane team fun k l => (s.siteWord k l).isSome && s.ordinalOf k ((s.weft k).lane l).pc = o
  | none => false

/-- A team comes to its stop: a halt first, with its interrupt; a pre-emption then follows from the stopped
state (R185). -/
def execTeamStop (team : Nat) (s : State) : Out :=
  let t := s.team team
  .next (if t.life = .halted && t.stop.preempt then s.setTeam team { t with life := .stopped }
    else if !(t.life = .running || t.life = .stopping) || !s.allStopped team then s
    else if s.haltDue team then
      (s.setTeam team { t with life := .halted, stop := { t.stop with halt := false, ordinal := none } }).interrupt
        (s.grid t.grid).tenant 4
    else if t.stop.preempt then s.setTeam team { t with life := .stopped }
    else s)

/-- System software asks for a halt, or sets a breakpoint at an ordinal (R177, R185). -/
def execHaltRequest (team : Nat) (ordinal : Option Nat) (s : State) : Out :=
  let f : StopReq → StopReq := fun r =>
    match ordinal with
    | some o => { r with ordinal := some o }
    | none => { r with halt := true }
  .next (s.when ((s.team team).life = .running || (s.team team).life = .stopping) (s.askStop team f))

/-- A halted team runs on; lanes at a BAR that a phase step stopped go past it (R178). -/
def execDebuggerResume (team : Nat) (s : State) : Out :=
  let t := s.team team
  let go : State → Nat → State := fun s k => s.mapWeft k fun w =>
    { w with phgo := maskOf ((List.range w.width).filter (s.phaseStop k)) }
  .next (s.when (t.life = .halted && !t.stop.preempt)
    (t.wefts.foldl go (s.setTeam team { t with life := .running })))

/-! ### Saves (R179, R96, R97, R126) -/

/-- Requests that a save does not cancel once they have left the core: it waits for them (R97, R179). -/
def ReqOp.leaves : ReqOp → Bool
  | .atom _ | .cas | .cadd | .clrc => true
  | _ => false

/-- Requests without an effect at their Home, which may be made again whatever has become of them (R97). -/
def ReqOp.repeatable : ReqOp → Bool
  | .load _ | .ldtag | .pref | .waitc _ | .barw | .chkt _ => true
  | _ => false

/-- A request is in a state in which its team can be saved: FAULT, or OPEN and to be cancelled, whether or not its probe
has been answered. One whose effect has been had is waited for (R96, R97; assumption 89). -/
def State.reqSavable (s : State) (r : Req) : Bool :=
  r.promise = 0 &&
  match r.phase with
  | .posted _ | .walk | .fault | .cancelled => true
  | .booked => false
  | .answered => r.op.repeatable
  | .stale => !r.op.leaves
  | .probe | .waiting =>
    (r.op.repeatable || !r.satisfied) && !r.op.leaves && (match r.op with | .store => s.queued r | _ => true)

/-- The team's commands on a channel, in order. -/
def Chan.mine (h : Chan) (team : Nat) : List Cmd := (h.run.toList ++ h.queue).filter fun c => c.agent.team = team

/-- Every accepted command of the team has completed, or is parked at a posted fault, nothing of it being under way, or
is queued behind one that is (R126, R179). -/
def Chan.parked (h : Chan) (team : Nat) : Bool :=
  match h.mine team with
  | [] => true
  | c :: _ => c.acks.isEmpty && (match c.parkSeq with | some q => q != 2 ^ 32 | none => false)

/-- Every step before the image is done (R179): engine work complete or parked, requests drained, views written
back. Held instructions that are about to be answered are waited for. A team with a frozen weft stays (R172). -/
def State.savable (s : State) (team : Nat) : Bool :=
  let t := s.team team
  t.life = .stopped && t.staging.isNone && t.gq.isEmpty && !s.staysPut team && s.ringsQuiet team &&
  s.reqs.all (fun r => r.agent.team != team || s.reqSavable r) &&
  t.wefts.all (fun k => match (s.weft k).hold with
    | .launch _ _ _ _ | .genbump _ _ | .pwrite _ => false
    | _ => true) &&
  s.pwrites.all (fun p => s.pwriteTeam p ≠ team) &&
  t.cores.all fun c => s.written c false && !(s.core c).loomOps.any (fun o => o.agent.team = team) &&
    (s.core c).chans.all fun h => h.2.parked team

/-- Requests of a team with the weft of each. -/
def State.teamReqs (s : State) (team : Nat) : List Replay :=
  (s.reqs.filter fun r => r.agent.team = team).map fun r => ⟨(s.weft r.key).index, r⟩

/-- Requests of a save that its replay list holds. -/
def cancelledOf (rs : List Replay) : List Replay := rs.filter fun x => x.req.phase = .cancelled

/-- A request is cancelled: its register becomes CANCEL, and VALUE stays the cycle of its issue (R80). -/
def State.cancel (s : State) (r : Req) : State :=
  if r.isPosted then s else (s.setReq { r with phase := .cancelled }).reqT r stCancel r.start

/-- Faults of the team that were not posted: walks are abandoned (R97), lanes that stand at one stay parked, the entry
still to be posted (R176). -/
def Resume.lasts : Resume → Bool
  | .lanes _ _ _ => true
  | _ => false

/-- Unposted faults of a team that a save gives up; an instruction that one of them holds issues again. -/
def State.dropUnposted (s : State) (team : Nat) : State :=
  let mine : FaultEntry → Bool := fun f => f.team = team && f.resume.ofTeam && !f.resume.lasts
  (s.faults.filter mine).foldl (fun s f => match f.resume with
    | .launch core slot => s.mapWeft (64 * core + slot) fun w => { w with hold := .none }
    | _ => s) { s with faults := s.faults.filter fun f => !mine f }

/-- Cancelled puts leave the ports they wait at (R97). -/
def State.withdraw (s : State) (team : Nat) : State :=
  let ids := (s.reqs.filter fun r => r.agent.team = team).map (·.id)
  let keep : Put → Bool := fun p => match p.src with | .lane r => !ids.contains r | _ => true
  let clean : Nat × Ring → Nat × Ring := fun r => (r.1, { r.2 with port := r.2.port.filter keep })
  { s with cores := s.cores.map fun c => (c.1, { c.2 with rings := c.2.rings.map clean }) }

/-- A YIELD's sleep ends with a save (R253). -/
def Lane.awake (x : Lane) : Lane :=
  { x with wait := match x.wait with | .sleepUntil _ => .none | y => y }

/-- The team as its image shows it: requests cancelled, reports discarded, sleeps ended (R179, R253, R322). -/
def State.settleTeam (s : State) (team : Nat) : State :=
  let t := s.team team
  let s1 := ((s.dropUnposted team).leaveRounds team).withdraw team
  let s2 := (s1.reqs.filter fun r => r.agent.team = team).foldl State.cancel s1
  t.wefts.foldl (fun s k => s.mapWeft k fun w =>
    { w with reports := [], lanes := w.lanes.map fun l => (l.1, l.2.awake) }) s2

/-- A channel gives up the team's commands. -/
def Chan.without (h : Chan) (team : Nat) : Chan := h.drop fun c => c.agent.team = team

/-- Parked commands with those queued behind them: team core, channel, command (R126). -/
def State.parkedOf (s : State) (team : Nat) : List (Nat × Nat × Cmd) :=
  let t := s.team team
  (List.range t.cores.length).flatMap fun i =>
    (s.core (t.cores.getD i 0)).chans.flatMap fun h => (h.2.mine team).map fun c => (i, h.1, c)

/-- What is kept of a core. -/
def State.keepCore (s : State) (team core : Nat) : SavedCore :=
  let t := s.team team
  let c := s.core core
  let b := assoc t.cores t.bases core
  { cyc := c.cyc
    poison := (c.spoison.filter fun e => b ≤ 4 * e.1 && 4 * e.1 < b + t.spad).map fun e => (e.1 - b / 4, e.2) }

/-- The team, settled, leaves its cores, the image written at a place (R179 steps 4 to 6). A breakpoint stays asked for
(R177). -/
def State.leaveCores (s : State) (team va size : Nat) (rs : List Replay) : State :=
  let t := s.team team
  let ctx := (s.grid t.grid).ctx
  let parked := s.parkedOf team
  let keep := t.cores.map (s.keepCore team)
  let saved := t.wefts.map fun k => { s.weft k with sq := [] }
  let off : Core → Core := fun c => { c with
    chans := c.chans.map (fun h => (h.1, h.2.without team)), decls := c.decls.filter fun d => d.ctx != ctx }
  let s1 := t.cores.foldl (fun s c => s.mapCore c off) { s with reqs := s.reqs.filter fun r => r.agent.team != team }
  ((s1.freeTeam team .saved).mapTeam team fun t => { t with
    saveVa := va, saveSize := size, saved := saved, savedCores := keep, parked := parked, replays := rs,
    epoch := t.epoch + 1, stop := { t.stop with preempt := false, halt := false }, retrain := false }).remap

/-- Places in a save pool where an image fits beside the others. -/
def State.poolPlaces (s : State) (ctx size : Nat) : List Nat :=
  let x := s.ctx ctx
  let held := (s.teams.filter fun t => t.2.life = .saved && (s.grid t.2.grid).ctx = ctx && t.2.saveVa < 2 ^ 52).map fun t =>
    (t.2.saveVa, t.2.saveSize)
  ((List.range (x.savesize / 4096)).map fun i => x.savebase + 4096 * i).filter fun a =>
    a + size ≤ x.savebase + x.savesize && held.all fun h => !meets a size h.1 h.2

/-- Some block of [va, va + n) lies on a stack that retrains (R363). -/
def State.retrainsAt (s : State) (g : Agent) (va n : Nat) : Bool :=
  (List.range ((n + 4095) / 4096)).any fun i =>
    match s.engAt g (va + 4096 * i : Nat) 1 true with
    | .ok (.mem pa _) _ => isHbm pa && (s.stack (hbmStack pa)).retraining
    | _ => false

/-- A stopped team is saved (R179). An image that fits nowhere, or cannot be written, leaves the team resident and
raises the error interrupt (R355). -/
def execTeamSave (team : Nat) (s : State) : Out :=
  let t := s.team team
  let gr := s.grid t.grid
  .next (if !s.savable team then s
    else
      let s1 := s.settleTeam team
      let rs := s1.teamReqs team
      let img := s1.teamImage team (cancelledOf rs)
      let places := s.poolPlaces gr.ctx img.length
      let va := places.getD (s.any 59 % max 1 places.length) 0
      let g := s.ctxAgent gr.ctx (s.ctx gr.ctx).asid
      let stay : State := (s.setTeam team { t with life := .running, stop := { t.stop with preempt := false } }).interrupt
        gr.tenant 3
      if places.isEmpty then stay
      else if s.retrainsAt g va img.length then s.setTeam team { t with retrain := true }
      else if s.spanWaits g va img.length true then s
      else
        let w := s1.writeVa g va img img.length
        if w.2 ≠ 0 then stay else (w.1.leaveCores team va img.length rs).wake)

/-! ### Resumes (R181) -/

/-- Bytes of a team's image. -/
def State.savedImage (s : State) (team : Nat) : List Byte :=
  let t := s.team team
  let gr := s.grid t.grid
  if 2 ^ 52 ≤ t.saveVa then mread s.mem (local46 (t.saveVa - 2 ^ 52)) t.saveSize
  else s.readBytes (s.ctxAgent gr.ctx (s.ctx gr.ctx).asid) t.saveVa t.saveSize t.saveSize

/-- A time register rebased by d cycles (R96). -/
def rebaseT (d : Nat) (x : W32) : W32 :=
  if tstate x = stFault || tstate x = stError then x else timage (tstate x) (tvalue x + d)

def rebaseLane (d : Nat) (x : Lane) : Lane := { x with t := x.t.map fun e => (e.1, rebaseT d e.2) }

/-- An agent of the team on its new cores: weft keys and cores, old to new. -/
def moveAgent (keys : List (Nat × Nat)) (g : Agent) : Agent :=
  match keys.find? fun k => k.1 = 64 * g.core + g.slot with
  | some k => { g with core := k.2 / 64, slot := k.2 % 64 }
  | none => g

/-- A weft's key, old to new. -/
def moveKey (keys : List (Nat × Nat)) (key : Nat) : Nat :=
  match keys.find? fun k => k.1 = key with | some k => k.2 | none => key

/-- A core, old to new. -/
def moveCore (cores : List (Nat × Nat)) (core : Nat) : Nat :=
  match cores.find? fun k => k.1 = core with | some k => k.2 | none => core

/-- Faults name the team's new places. -/
def moveResume (keys cores : List (Nat × Nat)) (r : Resume) : Resume :=
  let at_ : Nat → Nat → Nat := fun core slot => moveKey keys (64 * core + slot)
  match r with
  | .lanes core slot m => .lanes (at_ core slot / 64) (at_ core slot % 64) m
  | .launch core slot => .launch (at_ core slot / 64) (at_ core slot % 64)
  | .chan core ch => .chan (moveCore cores core) ch
  | .loom core => .loom (moveCore cores core)
  | x => x

/-- A fault of the team that is not yet posted will name the new places. -/
def moveFault (team : Nat) (keys cores : List (Nat × Nat)) (e : FaultEntry) : FaultEntry :=
  let k := moveKey keys (64 * e.core + e.weft)
  if e.team = team then { e with core := k / 64, weft := k % 64, resume := moveResume keys cores e.resume } else e

/-- The loaded scratchpads, with their tags, and the poison that was kept. -/
def State.loadSpads (s : State) (t : Team) : List Nat → List SavedCore → List Byte → State
  | c :: cs, k :: ks, b =>
    let base := assoc t.cores t.bases c
    let tag := fun i => BitVec.ofNat 16 (256 * tmplNum b (t.spad + 2 * i) 1 + tmplNum b (t.spad + 2 * i + 1) 1)
    let put_ : Core → Core := fun x => { x with
      spad := mwrite x.spad base (b.take t.spad)
      stags := (List.range (t.spad / 64)).foldl (fun m i => putOr 0 (i + base / 64) (tag i) m) x.stags
      spoison := k.poison.foldl (fun m e => put (e.1 + base / 4) e.2 m) x.spoison }
    (s.mapCore c put_).loadSpads t cs ks (b.drop (spadSize t.spad))
  | _, _, _ => s

/-- The time register of a request that a changed image brings carries it. -/
def State.carry (s : State) (r : Req) : State :=
  match r.tsel with
  | none => s
  | some n => s.mapWeft r.key fun w => w.eachLane (lanesOf r.lanes) fun _ x => { x with treq := put n r.id x.treq }

/-- A request of a resumed team is made again (R96): OPEN at its replay issue cycle. -/
def State.replayOne (s0 : State) (r0 : Req) : State :=
  let (s, r) := s0.renumber r0
  let cyc := (s.core r.agent.core).cyc
  let p := { r with issued := cyc, start := cyc, level := 16, satisfied := false, admitted := false, overflow := false,
                    homed := false, hub := false, stamp := 0, tries := 0, error := none, status := 0, phase := .probe,
                    epoch := (s.team r.agent.team).epoch }
  let s1 : State := { s with reqs := s.reqs ++ [p], nextId := max s.nextId (p.id + 1) }
  let s2 := (if p.id < s.nextId then s1 else s1.carry p).reqT p stOpen cyc
  match r.op, r.parts with
  | .store, q :: _ =>
    (s2.mapWeft p.key fun w => { w with sq := w.sq ++
      [(⟨q.lane, q.tgt, leBytes r.size q.x, r.rel, r.scope, r.tsel.isSome, r.id, q.va⟩ : SqEntry)] }).tryAgain p
  | .rput _, _ | .rtake _, _ | .fld _ _ _ _, _ | .gadd _, _ => s2
  | _, _ => s2.tryAgain p

/-- Commands come back on channels of the same number; their bitmaps lie in the new allocations (R126). -/
def State.restoreCmd (s : State) (core ch : Nat) (g : Agent) (c : Cmd) : State :=
  let c1 := { c with agent := g }
  let c2 := match s.bitmaps c1 with
    | .ok bs => { c1 with bmCores := bs.map fun b => (b.1, b.2.1 + c.bmoff) }
    | .error _ => c1
  let h := (s.core core).chan ch
  s.setChan core ch ({ h with queue := h.queue ++ [c2] } : Chan).start

/-- What an image says beside wefts and scratchpads: SAVECYC, folds, team registers, the barrier (R180). -/
def imgCyc (img : List Byte) : Nat := tmplNum img 8 8
def imgG (img : List Byte) (n : Nat) : Word := BitVec.ofNat 64 (tmplNum img (64 + 8 * n) 8)

/-- The replay list that an image carries: NREPLAY records at its end. -/
def imgReplays (img rest : List Byte) : List (List Byte) :=
  (List.range (tmplNum img 48 4)).map fun i => (rest.drop (48 * i)).take 48

/-- Requests that a resume makes again, in order (R96): those of the image, which are the ones that were cancelled
unless its records have been changed since, and fold requests whose fault was resumed meanwhile (R137, R176). -/
def State.replaysOf (s : State) (t : Team) (km : List (Nat × Nat)) (recs : List (List Byte)) : List Req :=
  let move := fun (r : Req) => { r with agent := moveAgent km r.agent }
  let kept := cancelledOf t.replays
  let again := t.replays.filter fun x => x.req.phase = .probe
  let all := (replayParts (kept ++ again)).map fun x => x.1.req
  if recs = replayList t.saved kept then ((all.foldl (fun l r => if l.any fun q => q.id = r.id then l else l ++ [r]) []).map move)
  else
    let new := recs.filterMap (s.recordReq (km.map (·.2)))
    (List.range new.length).map (fun i => { new.getD i default with id := s.nextId + i }) ++ again.map fun x => move x.req

/-- The wefts of a resumed team on its cores, time registers rebased (R96). -/
def State.seatWefts (s : State) (team : Nat) (delta : Nat → Nat) (ws : List (Nat × Weft × Nat)) : State :=
  ws.foldl (fun (s : State) x => s.setWeft x.1 { x.2.1 with
    live := true, team := team, index := x.2.2, chosen := 0,
    lanes := x.2.1.lanes.map fun l => (l.1, rebaseLane (delta x.2.2) l.2) }) s

/-- FJOIN for each membership that the image names, on the team's cores (R134, R181). -/
def State.rejoin (s : State) (team : Nat) (cm : List (Nat × Nat)) (mask : Nat) (fs : List Nat) : State :=
  let gr := s.grid (s.team team).grid
  (fs.filter fun f => mask.testBit (f / 512 % 64)).foldl (fun (s : State) (f : Nat) =>
    let c := moveCore cm (f % 512)
    let k := 64 * dieOf c + f / 512 % 64
    let j := (s.fold k).join gr.tenant (s.ctx gr.ctx).asid c
    (s.setFold k j.2).mapTeam team fun t => if j.1 = 0 then { t with folds := t.folds ++ [512 * k + c] } else t) s

/-- A saved team placed on cores and running again (R181). -/
def State.resumeOn (s : State) (team : Nat) (cores : List Nat) : State :=
  let t := s.team team
  let gr := s.grid t.grid
  let img := s.savedImage team
  let s0 := s.seat team t cores
  let t0 := s0.team team
  let keys := t0.wefts
  let km := t.wefts.zip keys
  let cm := t.cores.zip cores
  let loaded := s.loadWefts 0 t.saved (img.drop 320)
  let recs := imgReplays img (loaded.2.drop (cores.length * spadSize t.spad))
  let cycOf := fun j => (t.savedCores.getD j default).cyc
  let delta : Nat → Nat := fun i =>
    let j := i / max 1 t.wpc
    (s.core (cores.getD j 0)).cyc + 2 ^ 29 + cycOf 0 % 2 ^ 28 - imgCyc img % 2 ^ 28 - cycOf j % 2 ^ 28
  let nt : Team := { t0 with
    life := .running,
    g := (List.range 16).map fun n => (n, imgG img n),
    gcopy := cores.flatMap (fun c => (List.range 16).map fun n => (16 * c + n, imgG img n)),
    phase := tmplNum img 192 4 / 2, arrived := setBitsOf 512 (tmplNum img 256 64),
    folds := [], replays := [], fresumes := [], parked := [], saved := [], savedCores := [] }
  let s1 := (s0.setTeam team nt).seatWefts team delta (keys.zip (loaded.1.zip (List.range keys.length)))
  let s2 := (s1.clearSpad team).loadSpads nt cores t.savedCores loaded.2
  let s3 := cores.foldl (fun (s : State) c => (s.readBlock gr.ctx c).acquireDrop c false) s2
  let s4 := s3.rejoin team cm (tmplNum img 56 8) t.folds
  let fix : Nat × FaultEntry → Nat × FaultEntry := fun e =>
    if e.2.team = team then (e.1, { e.2 with resume := moveResume km cm e.2.resume }) else e
  let s5 := { s4 with faults := s4.faults.map (moveFault team km cm) }.mapTenant gr.tenant fun x =>
    { x with faults := x.faults.map fix }
  let s6 := t.parked.foldl (fun (s : State) (p : Nat × Nat × Cmd) =>
    s.restoreCmd (cores.getD p.1 0) p.2.1 (moveAgent km p.2.2.agent) p.2.2) s5
  let held := (t.replays.filter fun x => x.req.isPosted).map fun x => { x.req with agent := moveAgent km x.req.agent }
  let s7 : State := { s6 with reqs := s6.reqs ++ held }
  let s8 := t.fresumes.foldl (fun (s : State) (q : Nat) => match look q (s.tenant gr.tenant).faults with
    | some e => (s.mapTenant gr.tenant fun x => { x with faults := del q x.faults }).resumeEntry e
    | none => s) s7
  ((s8.replaysOf t km recs).foldl State.replayOne s8).remap

/-- Saved teams resumed one after another; none when one has no place. -/
def State.resumeMany (s : State) : List Nat → Option State
  | [] => some s
  | t :: ts =>
    match s.resumeCores t with
    | some cs => (s.resumeOn t cs).resumeMany ts
    | none => none

/-- The image of a saved team lies where it cannot be read yet (R35). -/
def State.imageWaits (s : State) (team : Nat) : Bool :=
  let t := s.team team
  let c := (s.grid t.grid).ctx
  t.saveVa < 2 ^ 52 && s.spanWaits (s.ctxAgent c (s.ctx c).asid) t.saveVa t.saveSize false

/-- A saved team is resumed when it can be placed and no other is to go first; every team of a COSCHED grid
together (R154, R156, R181). -/
def execTeamResume (team : Nat) (s : State) : Out :=
  let t := s.team team
  let g := s.grid t.grid
  .next (if !s.mayResume team || (s.resumeGroup team).any s.imageWaits || s.outranked (s.rankOf g t.index) then s
    else match s.resumeMany (s.resumeGroup team) with
      | some s1 => ({ s1 with hub := { s1.hub with rr := g.queueId } } : State).wake
      | none => s)

/-! ### Dumps (R186) -/

/-- A record: head and body. -/
def dumpRecord (ty : Nat) (body : List Byte) : List Byte := leBytes 2 ty ++ leBytes 4 body.length ++ leBytes 2 0 ++ body

/-- The records of a dump, in order. -/
def State.dumpRecords (s : State) (team : Nat) : List (List Byte) :=
  let t := s.team team
  let g := s.grid t.grid
  let log := fun c => (List.range 256).flatMap fun i =>
    match look i (s.core c).bplog with | some e => leBytes 32 e.img.toNat | none => leBytes 32 0
  [dumpRecord 1 (s.imageHeader team 0 t.retrain)] ++ (t.wefts.map fun k => dumpRecord 2 (s.weftRecord k)) ++
  (t.cores.map fun c => dumpRecord 3 (s.spadImage team c)) ++ (t.cores.map fun c => dumpRecord 4 (log c)) ++
  [dumpRecord 5 (((s.tenant g.tenant).faults.filter fun e => e.2.team = team).flatMap fun e => e.2.image)]

/-- Records written one after another from an offset: the state, the bytes of whole records written, those
dropped, and whether a write faulted. -/
def State.writeRecords (s : State) (g : Agent) (va size off : Nat) : List (List Byte) → State × Nat × Nat × Bool
  | [] => (s, 0, 0, false)
  | r :: rs =>
    if size < off + r.length then (s, 0, ((r :: rs).map (·.length)).sum, false)
    else
      let w := s.writeVa g (va + off) r r.length
      if w.2 ≠ 0 then (w.1, 0, 0, true)
      else
        let (s1, done, drop, bad) := w.1.writeRecords g va size (off + r.length) rs
        (s1, done + r.length, drop, bad)

/-- A dump of a halted or frozen team into a buffer by VA; the header last. -/
def execDump (team asid va size : Nat) (s : State) : Out :=
  let t := s.team team
  let gr := s.grid t.grid
  let g := s.ctxAgent gr.ctx asid
  .next (if !(t.life = .halted || (t.resident && t.wefts.any fun k => (s.weft k).frozen)) || s.spanWaits g va size true then s
    else
      let (s1, done, drop, bad) := s.writeRecords g va size 64 (s.dumpRecords team)
      let head := leBytes 4 0x504D5544 ++ leBytes 4 ((if drop ≠ 0 then 1 else 0) + (if bad then 2 else 0)) ++
        leBytes 8 done ++ leBytes 8 drop ++ leBytes 8 (if bad then 64 + done else 0) ++ leBytes 32 0
      let w := s1.writeVa g va head 64
      if size < 64 || w.2 ≠ 0 then
        s1.errorRecord 7 gr.tenant (s.unsaid 0) 0xFFFF (s.unsaid 1) va (s.unsaid 3)
      else w.1.wake)

/-! ### Snapshots (R187, R351) -/

/-- Blocks that a trigger reaches: the cores by number, then the rest of the device. -/
def snapBlocks : Nat := 512

/-- The trigger arrives at a block. A core's droop count is among its registers (R155); what the other words hold,
and where the count stands among them, is not said (assumption 29). -/
def execSnapshotLatch (block : Nat) (s : State) : Out :=
  .next (s.when (s.hub.snapTrig && block < snapBlocks && !s.hub.snapLatched.contains block)
    { s with hub := { s.hub with
        snapLatched := s.hub.snapLatched ++ [block],
        snapRegs := put block (if block < Config.cores then BitVec.ofNat 64 (s.core block).droops.length
          else s.anyBits 64 1) s.hub.snapRegs } })

/-- A write of SNAPCNT clears it and arms the latches again. -/
def execSnapcntWrite (_val : BitVec 64) (s : State) : Out :=
  .next { s with hub := { s.hub with snapCnt := 0, snapHeld := false, snapTrig := false, snapLatched := [] } }

/-! ### Registers of the context block (R182, R264) -/

/-- Offset in the context register block of a register that it holds. -/
def blockOff (n : Nat) : Nat :=
  if n = 0x022 then 0 else if n = 0x030 then 4 else if n = 0x031 then 8 else if n = 0x032 then 12
  else 64 + 4 * (n - 0x100)

/-- The copies take a register's new value. -/
def CtxBlock.take (x : CtxBlock) (n val : Nat) : CtxBlock :=
  if n = 0x022 then { x with bp := val % 2 ^ 32 }
  else if n = 0x030 then { x with ub := val % 2 ^ 32 }
  else if n = 0x031 then { x with l1lim := val % 2 ^ 24 }
  else if n = 0x032 then { x with l2lim := val % 2 ^ 24 }
  else { x with fmt := put (n - 0x100) (BitVec.ofNat 32 val) x.fmt }

/-- The write performs at the block's home and in every copy (R182). -/
def execContextRegisterWrite (pw : Nat) (s : State) : Out :=
  .next (match s.pwriteOf pw fun n => n = 0x022 || n = 0x030 || n = 0x031 || n = 0x032 || (0x100 ≤ n && n < 0x110) with
    | none => s
    | some p =>
      let v := p.val.toNat % (if p.num = 0x031 || p.num = 0x032 then 2 ^ 24 else 2 ^ 32)
      (s.setBlock p.ctx (blockOff p.num) (leBytes 4 v) fun b => b.take p.num v).pwriteDone p)

/-- A counter of the block after one change: 0 BPCOUNT, 1 UBCOUNT, 2 and 3 L2 USED up and down (R182). -/
def counted (k old : Nat) : Nat :=
  if k = 0 || k = 1 then min (old + 1) (2 ^ 32 - 1)
  else if k = 2 then min (old % 2 ^ 24 + 1) (2 ^ 24 - 1) else old % 2 ^ 24 - 1

/-- A saturating add at a counter of the block, and the copies of it (R182). -/
def execContextCounterUpdate (ctx idx : Nat) (s : State) : Out :=
  let x := s.ctx ctx
  .next (match x.adds[idx]? with
    | none => s
    | some k =>
      let b := s.homeBlock ctx
      let v := counted k (if k = 0 then b.bp else if k = 1 then b.ub else b.l2used)
      (s.setBlock ctx (if k = 0 then 0 else if k = 1 then 4 else 16) (leBytes 4 v) fun y =>
        if k = 0 then { y with bp := v } else if k = 1 then { y with ub := v } else { y with l2used := v }).mapCtx ctx fun x =>
          { x with adds := x.adds.eraseIdx idx })

/-! ### Hash masks (R57) -/

/-- A mask is written: the partition's accesses are held, its lines are written back and leave L2 with their pins, and
the mask is in place. A line that a booked hit holds is waited for (R87). -/
def execHmaskWrite (pw : Nat) (s : State) : Out :=
  .next (match s.pwriteOf pw fun n => 0x400 ≤ n && n < 0x408 with
    | none => s
    | some p =>
      let part := s.partOf (s.ctx p.ctx).asid
      let mine := s.l2.filter fun x => x.asids.any fun a => s.partOf a = part
      let ours : Nat → Bool := fun c => s.partOf (s.ctx c).asid = part
      let freed := (s.l2pins.map (·.ctx) ++ (s.ctxs.filter fun c => c.2.adds.any (2 ≤ ·)).map (·.1)).eraseDups.filter ours
      if mine.any s.l2Held then s
      else
        let s1 := mine.foldl State.l2Evict { s with l2pins := s.l2pins.filter fun e => !ours e.ctx }
        let s2 : State := { s1 with hmask := put (8 * part + (p.num - 0x400)) p.val s1.hmask }
        (freed.foldl State.usedZero s2).pwriteDone p)

/-! ### Writes from outside and by firmware (R263, R351, R354, R355) -/

/-- Words of the management block that are written (R351): DEVNUM and ASIDTAB before stage 5 only, SNAPCNT in its
own step. -/
def State.writeMgmt (s : State) (off : Nat) (val : Word) : State :=
  let set : State → State := fun s => { s with hub := { s.hub with mgmt := put off val s.hub.mgmt } }
  if off = 0x00 ∨ off = 0x08 then s.when (s.hub.stage < 5) (set s)
  else if off = 0x10 then s.when (1 ≤ val.toNat && val.toNat ≤ 255) (set s)
  else if off = 0x20 then
    s.when (!s.hub.busy) { s with hub := { s.hub with
      mgmt := put 0x28 1 (put 0x20 val s.hub.mgmt), cmd := val.toNat % 256, cmdArg := val.toNat / 256, busy := true } }
  else if off = 0x30 then s.when (val.toNat % 4096 = 0) (set s)
  else if off = 0x38 then
    s.when (256 ≤ val.toNat && val.toNat ≤ 2 ^ 20 && 2 ^ Nat.log2 val.toNat = val.toNat) (set s)
  else s

/-- A tenant block is written only while the tenant has no resident team (R354). -/
def State.writeTenant (s : State) (tenant off : Nat) (val : Word) : State :=
  s.when (tenant < 16 && off % 8 = 0 && off ≤ 0x88 &&
      !s.teams.any fun t => t.2.resident && (s.grid t.2.grid).tenant = tenant)
    (s.mapTenant tenant fun t => { t with blk := put off val t.blk })

def execRegisterWrite (r : RegRef) (val : BitVec 64) (s : State) : Out :=
  .next (match r with
    | .control core slot num =>
      let key := 64 * core + slot
      s.when ((s.weft key).live && (s.weft key).hold = .none && (regRule num).isSome &&
        (s.ctrlCheck key num val.toNat).isNone) (s.writeCtrl key num val.toNat)
    | .management off => s.writeMgmt off val
    | .tenant t off => s.writeTenant t off val
    | .context ctx off =>
      s.when (ctx < 65536 && off % 8 = 0 && off < 64)
        ((s.wr (s.ctxAddr ctx + off) (leBytes 8 val.toNat)).loadCtx ctx))

end Sys2Proof.Machine
end

