-- ==== Sys2Proof/Machine/HostSide.lean ====
section
/-!
DEFINITION. Management commands (R351 to R353), checkpoint (R361), memory training, power and heat (R363, R364),
bring-up (R362), images and attestation (R360, R241).
-/
namespace Sys2Proof.Machine

/-! ### Commands (R351) -/

/-- The command in progress, by its code. -/
def State.commanded (s : State) (code : Nat) : Bool := s.hub.busy && s.hub.cmd = code

/-- The command completes with a result: CMDSTAT. -/
def State.cmdDone (s : State) (result : Nat) : State :=
  { s with hub := { s.hub with
      busy := false, result := result, mgmt := put 0x28 (BitVec.ofNat 64 (result % 256 * 256)) s.hub.mgmt } }

/-- Resident cell lines that an ASID of a partition brought in (R63, R351; assumption 31). -/
def State.cellsOf (s : State) (part : Nat) : List Nat :=
  (s.cellBy.filter fun e => s.partOf e.2 = part).map (·.1)

/-- CELLWB: the cell lines of the partition go back as raw images (R63). -/
def execCellwb (s : State) : Out :=
  .next (s.when (s.commanded 2) (((s.cellsOf (bits s.hub.cmdArg 0 4)).foldl (fun s b => s.cellBack b) s).cmdDone 0))

/-- SNAP: one trigger (R187). -/
def execSnapCommand (s : State) : Out := .next (s.when (s.commanded 3) (s.snapTrigger.cmdDone 0))

def execUnknownCommand (s : State) : Out :=
  .next (s.when (s.hub.busy && (s.hub.cmd = 0 || 5 < s.hub.cmd)) (s.cmdDone 1))

/-! ### Routes and grants (R352) -/

/-- Entry i of a table of 8-byte words at PA. -/
def State.words (s : State) (pa n : Nat) : List Nat := (List.range n).map fun i => s.rd (pa + 8 * i) 8

/-- The rules of the table. -/
def State.routesOk (s : State) (routes grants : List Nat) : Bool :=
  routes.all (fun r => r < 2 ^ 13 && (!r.testBit 0 || r ≠ 1)) && !((routes.getD s.devnum 0).testBit 0) &&
  grants.all fun g => g < 2 ^ 12

/-- PEERROUTE: the table is installed as a whole, or not at all. -/
def execPeerroute (s : State) : Out :=
  let pa := s.hub.cmdArg
  if !s.commanded 5 then .next s
  else if pa % 4096 ≠ 0 then .next (s.cmdDone 3)
  else if 2 ^ 52 ≤ pa || !s.isLocal pa || !s.populated 0 (local46 pa) 8704 then .fault (.absentAddress pa)
  else
    let routes := s.words pa 64
    let grants := s.words (pa + 512) 1024
    let tab : List Nat → Tab Word := fun xs => (List.range xs.length).map fun i => (i, BitVec.ofNat 64 (xs.getD i 0))
    if !s.routesOk routes grants then .next (s.cmdDone 3)
    else .next (({ s with hub := { s.hub with routes := tab routes, grants := tab grants, lost := [] } } : State).cmdDone 0)

/-! ### Rates and retraining (R353, R363) -/

/-- The stack and the step that RATE names. -/
def State.rateStack (s : State) : Nat := bits s.hub.cmdArg 0 3
def State.rateStep (s : State) : Nat := bits s.hub.cmdArg 4 4

/-- RATE: steps 0 to 7 change nothing; another step retrains the stack, and the command stays busy. -/
def execRate (s : State) : Out :=
  let k := s.rateStack
  .next (s.when (s.commanded 4)
    (if s.rateStep < 8 then s.cmdDone 2 else s.setStack k { s.stack k with retraining := true }))

/-- Link errors force a retrain: the controller admits nothing until it is over. -/
def execHbmRetrain (stack : Nat) (s : State) : Out :=
  .next (s.when (stack < 8) (s.setStack stack { s.stack stack with retraining := true }))

/-- Admitted requests of a stack that have still to be served. -/
def State.stackOwes (s : State) (stack : Nat) : Bool :=
  s.reqs.any fun r => (r.admitted || r.phase = .booked || r.phase = .answered) && !r.satisfied && r.level = 6 &&
    (match r.tgt with
     | .mem pa _ | .cell pa _ => isHbm pa && hbmStack pa = stack
     | _ => false)

/-- The stack serves requests again: at a new step when a RATE asked for it. -/
def execHbmRetrainComplete (stack : Nat) (s : State) : Out :=
  let x := s.stack stack
  let rate := s.commanded 4 && s.rateStack = stack && 8 ≤ s.rateStep
  let s1 := s.setStack stack { x with retraining := false, step := if rate then s.rateStep else x.step }
  .next (s.when (x.retraining && !s.stackOwes stack) (if rate then s1.cmdDone 0 else s1))

/-! ### Checkpoint (R361) -/

def ckptRegion : Nat := 0x01F400000000
def ckptControl : Nat := 0x01F380000000
def ckptControlBytes : Nat := 2 ^ 31

/-- Bytes put into the control area from an offset. Where each item lies is not said: they follow one another
(assumption 32). -/
def State.toControl (s : State) (off : Nat) (bs : List Byte) : State × Nat :=
  (s.wr (ckptControl + off) bs, off + bs.length)

/-- One team saved into the control area. -/
def State.ckptTeam (s : State) (off team : Nat) : State × Nat :=
  let s1 := s.settleTeam team
  let rs := s1.teamReqs team
  let img := s1.teamImage team (cancelledOf rs)
  let w := s1.toControl off img
  (w.1.leaveCores team (2 ^ 52 + ckptControl + off) img.length rs, (w.2 + 4095) / 4096 * 4096)

/-- The tiles of a core that have an owner, with their ACOWN. -/
def Core.tileBytes (c : Core) : List Byte :=
  (c.acown.filter fun e => e.2.getLsbD 63).flatMap fun e =>
    leBytes 8 e.2.toNat ++ (List.range 1024).flatMap fun i => leBytes 4 (lookD (1024 * e.1 + i) (0 : W32) c.acc).toNat

/-- The management block, tenant blocks, context tables and context register blocks. -/
def State.tables (s : State) : List Byte :=
  (s.hub.mgmt.flatMap fun e => leBytes 8 e.1 ++ leBytes 8 e.2.toNat) ++
  (s.tenants.flatMap fun t => (t.2.blk.flatMap fun e => leBytes 8 e.1 ++ leBytes 8 e.2.toNat) ++
    (if s.tenantWord t.1 0x48 = 0 then [] else mread s.mem (local46 (s.tenantWord t.1 0x48)) (64 * 4096))) ++
  s.ctxs.flatMap fun c => mread s.mem (local46 c.2.cregbase) 256

/-- HBM copied into the region block for block, with the tags. -/
def State.copyHbm (s : State) : State :=
  let below : Nat → Bool := fun a => a < 0x008000000000
  let inRegion : Nat → Bool := fun a => ckptRegion ≤ a && a < ckptRegion + 0x008000000000
  { s with
    mem := (s.mem.filter fun c => below c.1).foldl (fun m c => mset m (ckptRegion + c.1) c.2)
      (s.mem.filter fun c => !inRegion c.1),
    tags := (s.tags.filter fun t => below (64 * t.1)).foldl (fun m t => put (ckptRegion / 64 + t.1) t.2 m)
      (s.tags.filter fun t => !inRegion (64 * t.1)) }

/-- The header, written last. -/
def ckptHeader (region control : Nat) : List Byte :=
  leBytes 4 0x54504B43 ++ leBytes 4 0 ++ leBytes 8 region ++ leBytes 8 control ++ leBytes 40 0

/-- Everything once every team is stopped and savable. -/
def State.checkpoint (s : State) (teams : List Nat) : State :=
  let a := teams.foldl (fun (p : State × Nat) t => p.1.ckptTeam p.2 t) (s, 4096)
  let b := a.1.cores.foldl (fun (p : State × Nat) c => p.1.toControl p.2 c.2.tileBytes) a
  let s1 := (b.1.cells.map (·.1)).foldl (fun s x => s.cellBack x) b.1
  let s2 := ({ s1.l2.foldl State.l2Evict s1 with msc := [] } : State).copyHbm
  let c := s2.toControl b.2 s1.tables
  let s3 := c.1.wr ckptControl (ckptHeader 0x008000000000 c.2)
  { s3 with hub := { s3.hub with ckptData := some (0x008000000000, c.2) } }

/-- What the loss of main power leaves: the checkpoint space, in self-refresh (R68), when it is reserved. -/
def State.powerDown (s : State) : State :=
  let keep : Nat → Bool := fun a => s.hub.ckptReserved && ckptControl ≤ a && a < ckptRegion + 0x008000000000
  { State.reset with
    fresh := s.fresh, agenda := s.agenda, nextId := s.nextId, mem := s.mem.filter fun c => keep c.1,
    tags := s.tags.filter fun t => keep (64 * t.1), fw := {},
    hub := { State.reset.hub with mainPower := false, ckptReserved := s.hub.ckptReserved, ckptData := s.hub.ckptData } }

/-- CHECKPOINT asks every resident team to stop, and once all can be saved does the rest. Without the reserved
space there is nowhere to write, and the result is not said. -/
def execCheckpoint (s : State) : Out :=
  let ts := s.teams.filter fun t => t.2.resident
  .next (if !s.commanded 1 then s
    else if !s.hub.ckptReserved then s.cmdDone (1 + s.unsaid 8 % 255)
    else if ts.any fun t => !t.2.stop.preempt && t.2.life != .stopped && t.2.life != .placed then
      ts.foldl (fun s t => if t.2.life = .placed then s else s.askStop t.1 fun r => { r with preempt := true }) s
    else if !ts.all fun t => s.savable t.1 then s
    else
      let s1 := s.checkpoint (ts.map (·.1))
      if s.hub.mainPower then (s1.cmdDone 0).wake else s1.powerDown)

/-- Main power is lost. A checkpoint that has started goes on from the hold-up supply; otherwise the device goes
down at once. -/
def execMainPowerLoss (s : State) : Out :=
  .next (if s.commanded 1 then { s with hub := { s.hub with mainPower := false } } else s.powerDown)

/-! ### Power and heat (R364) -/

/-- A sample of module power every 10 µs; those of the last millisecond are kept. -/
def execPowerSample (milliwatts : Nat) (s : State) : Out :=
  .next { s with hub := { s.hub with power := (milliwatts :: s.hub.power).take 100 } }

/-- Each millisecond the meadows' clock falls or rises by one step of 68.75 MHz. -/
def execClockStep (s : State) : Out :=
  let h := s.hub
  let mean := h.power.sum / 100
  let c := if 3000000 < mean then max 8 (h.clock - 1) else if mean < 2850000 then min 16 (h.clock + 1) else h.clock
  .next (s.when (h.power.length = 100 && h.stage = 5) { s with hub := { h with clock := c, power := [] } })

/-- A core at 105 °C or above runs at 550 MHz until it falls below 95 °C. -/
def execThermalThrottle (core deg : Nat) (s : State) : Out :=
  .next (s.when (core < Config.cores) (s.mapCore core fun c =>
    { c with temp := deg, hot := if 105 ≤ deg then true else if deg < 95 then false else c.hot }))

/-! ### Bring-up (R362) -/

/-- Reset: Dunanaum verifies itself and bring-up starts at stage 1. Memory is not said to change (assumption 33). -/
def execDeviceReset (s : State) : Out :=
  .next { State.reset with
    fresh := s.fresh, agenda := s.agenda, nextId := s.nextId, mem := s.mem, tags := s.tags, poison := s.poison,
    hub := { State.reset.hub with ckptReserved := s.hub.ckptReserved, ckptData := s.hub.ckptData } }

/-- HMASKn as Dunanaum writes it (R56). -/
def defaultMask (n : Nat) : Nat := if n < 7 then 0x0101010101 * 2 ^ n else 0x0080808080

/-- Firmware sets how often the neighbours of a stack's rows are refreshed, 6 to 12, and may put its random source into
test mode with a seed (R65; assumption 83). -/
def State.trainStacks (s : State) : Tab Stack :=
  (List.range 8).map fun i => (i, { s.stack i with
    k := 6 + s.any (64 + i) % 7, test := if s.anyBool (72 + i) then some (s.any (80 + i)) else none, draws := [] })

/-- The next stage: LPDDR trained, reduced service, HBM trained, full service. The masks are written before any
tenant runs; whether the checkpoint space is reserved is firmware's choice. -/
def execStageAdvance (s : State) : Out :=
  let h := s.hub
  let n := h.stage + 1
  let masks : Tab Word := (List.range 128).map fun i => (i, BitVec.ofNat 64 (defaultMask (i % 8)))
  .next (s.when (h.stage < 5 && s.fw.verified && h.mainPower)
    { s with
      hmask := if n = 3 then masks else s.hmask,
      hbm := if n = 4 then s.trainStacks else s.hbm,
      hub := { h with
        stage := n, mgmt := put 0x18 (BitVec.ofNat 64 n) h.mgmt, clock := if n = 5 then 16 else if 3 ≤ n then 8 else h.clock,
        ckptReserved := if n = 2 then s.anyBool 58 else h.ckptReserved } })

/-! ### Images (R235, R240, R241, R360) -/

/-- A section header of a KOF file. -/
def section_ (f : List Byte) (i : Nat) : List Byte := (f.drop (tmplNum f 8 8 + 48 * i)).take 48
def sections (f : List Byte) : List (List Byte) := (List.range (tmplNum f 16 4)).map (section_ f)

/-- Dunanaum loads the image: a linked KOF file of version 1, and one with a PRIV kernel only under a signature
that verifies (R241). -/
def imageOk (f : List Byte) : Bool :=
  let fl := tmplNum f 6 2
  tmplNum f 0 4 = 0x01464F4B && tmplNum f 4 2 = 1 && fl.testBit 0 && fl < 8 &&
  (!fl.testBit 1 || (fl.testBit 2 && Config.signatureValid f))

/-- Sections that go to memory: text, data, rodata and safept. -/
def loads (h : List Byte) : Bool := [1, 2, 3, 7].contains (tmplNum h 4 1)

/-- The pages of a section translate: system software has mapped them (assumption 34). -/
def State.sectionMapped (s : State) (g : Agent) (h : List Byte) : Bool :=
  (pagesOf [(tmplNum h 24 8, tmplNum h 16 8)]).all fun va =>
    match s.engAt g va 1 false with | .ok (.mem _ _) _ => true | _ => false

/-- A section's bytes at its VA, and its tags when it is TAGGED. -/
def State.loadSection (s : State) (g : Agent) (f h : List Byte) : State :=
  let va := tmplNum h 24 8
  let n := tmplNum h 16 8
  let off := tmplNum h 8 8
  (List.range ((n + 63) / 64)).foldl (fun (s : State) i =>
    match s.engAt g (va + 64 * i : Nat) 1 false with
    | .ok t _ =>
      let tag := BitVec.ofNat 16 (256 * tmplNum f (off + n + 2 * i) 1 + tmplNum f (off + n + 2 * i + 1) 1)
      s.putPiece g.asid t ((f.drop (off + 64 * i)).take (min 64 (n - 64 * i)))
        (if (tmplNum h 5 1).testBit 0 then some tag else none) none
    | _ => s) s

/-- The valid presets of `.fmt` (R240). -/
def fmtPresets (f : List Byte) : Tab W32 :=
  match (sections f).find? fun h => tmplNum h 4 1 = 6 with
  | none => []
  | some h => ((List.range 16).filter fun n => (tmplNum f (tmplNum h 8 8 + 8 * n + 4) 1).testBit 0).map fun n =>
      (n, BitVec.ofNat 32 (tmplNum f (tmplNum h 8 8 + 8 * n) 4))

/-- Presets with the VA and the bytes of the text that they belong to (R158). -/
def textPresets (f : List Byte) : List (Nat × Nat × Tab W32) :=
  ((sections f).filter fun h => tmplNum h 4 1 = 1).map fun h => (tmplNum h 24 8, tmplNum h 16 8, fmtPresets f)

def execImageLoad (ctx : Nat) (image : List (BitVec 8)) (s : State) : Out :=
  let s0 := s.loadCtx ctx
  let g := s0.ctxAgent ctx (s0.ctx ctx).asid
  let hs := (sections image).filter loads
  .next (if !imageOk image || !(s0.ctx ctx).valid || !hs.all (s0.sectionMapped g) then s
    else
      let s1 := hs.foldl (fun s h => s.loadSection g image h) s0
      let s2 := s1.mapCtx ctx fun x => { x with presets := textPresets image ++ x.presets }
      let fw := if (tmplNum image 6 2).testBit 1 then { s2.fw with digests := s2.fw.digests ++ [Config.sha512 image] }
        else s2.fw
      ({ s2 with fw := fw } : State).wake)

/-! ### Attestation (R360): SPDM 1.2 over the DOE mailbox. What the messages hold beside the measurements is not in
the manual (assumption 30). -/

/-- A response whose bytes the manual leaves to SPDM. -/
def State.respond (s : State) (k : Nat) (fw : Firmware) (tail : List Byte) : State :=
  { s with fw := { fw with response := Config.spdmBytes (16 * s.fresh + k) ++ tail } }

def execGetVersion (s : State) : Out := .next (s.respond 0 { s.fw with version := true, caps := false, algs := false } [])
def execGetCapabilities (s : State) : Out := .next (s.respond 1 { s.fw with caps := s.fw.version } [])

/-- Only ECDSA P-521 and SHA-512 are offered; the bits that name them are those of SPDM (assumption 30). -/
def execNegotiateAlgorithms (asym hash : Nat) (s : State) : Out :=
  .next (s.respond 2 { s.fw with algs := s.fw.caps && asym.testBit 8 && hash.testBit 2 } [])

def execGetDigests (s : State) : Out := .next (s.respond 3 s.fw [])
def execGetCertificate (slot off len : Nat) (s : State) : Out := .next (s.respond (4 + (slot + off + len) % 4) s.fw [])
def execChallenge (slot nonce : Nat) (s : State) : Out := .next (s.respond (8 + (slot + nonce) % 4) s.fw [])

/-- Measurements 3 onward are the SHA-512 hashes of the privileged images in load order. -/
def execGetMeasurements (index : Nat) (s : State) : Out :=
  .next (s.respond 12 s.fw (match s.fw.digests[index - 3]? with
    | some d => if 3 ≤ index then leBytes 64 d else []
    | none => []))

end Sys2Proof.Machine
end

