-- ==== Sys2Proof/Machine/Dispatch.lean ====
section
/-!
DEFINITION. The meaning of every instruction, one arm per constructor.
-/
namespace Sys2Proof.Machine

def exec (i : Instr) (s : State) : Host.Outcome State Fault Refusal :=
  match i with
  | .nop w => Sys2Proof.Machine.execNop w s
  | .nop96 w => Sys2Proof.Machine.execNop96 w s
  | .nop128 w => Sys2Proof.Machine.execNop128 w s
  | .bra w => Sys2Proof.Machine.execBra w s
  | .brt w => Sys2Proof.Machine.execBrt w s
  | .jmp w => Sys2Proof.Machine.execJmp w s
  | .call w => Sys2Proof.Machine.execCall w s
  | .calli w => Sys2Proof.Machine.execCalli w s
  | .ret w => Sys2Proof.Machine.execRet w s
  | .frame w => Sys2Proof.Machine.execFrame w s
  | .spill w => Sys2Proof.Machine.execSpill w s
  | .fill w => Sys2Proof.Machine.execFill w s
  | .meet w => Sys2Proof.Machine.execMeet w s
  | .meetReg w => Sys2Proof.Machine.execMeetReg w s
  | .join w => Sys2Proof.Machine.execJoin w s
  | .leave w => Sys2Proof.Machine.execLeave w s
  | .waitm w => Sys2Proof.Machine.execWaitm w s
  | .exit w => Sys2Proof.Machine.execExit w s
  | .yield w => Sys2Proof.Machine.execYield w s
  | .yieldt w => Sys2Proof.Machine.execYieldt w s
  | .twait w => Sys2Proof.Machine.execTwait w s
  | .brk w => Sys2Proof.Machine.execBrk w s
  | .trap w => Sys2Proof.Machine.execTrap w s
  | .tret w => Sys2Proof.Machine.execTret w s
  | .bdec w => Sys2Proof.Machine.execBdec w s
  | .sadd w => Sys2Proof.Machine.execSadd w s
  | .ssub w => Sys2Proof.Machine.execSsub w s
  | .smul w => Sys2Proof.Machine.execSmul w s
  | .smulh w => Sys2Proof.Machine.execSmulh w s
  | .sand w => Sys2Proof.Machine.execSand w s
  | .sor w => Sys2Proof.Machine.execSor w s
  | .sxor w => Sys2Proof.Machine.execSxor w s
  | .sshl w => Sys2Proof.Machine.execSshl w s
  | .sshr w => Sys2Proof.Machine.execSshr w s
  | .smin w => Sys2Proof.Machine.execSmin w s
  | .smax w => Sys2Proof.Machine.execSmax w s
  | .scmp w => Sys2Proof.Machine.execScmp w s
  | .ssel w => Sys2Proof.Machine.execSsel w s
  | .smov w => Sys2Proof.Machine.execSmov w s
  | .spopc w => Sys2Proof.Machine.execSpopc w s
  | .sclz w => Sys2Proof.Machine.execSclz w s
  | .sbfe w => Sys2Proof.Machine.execSbfe w s
  | .sbfi w => Sys2Proof.Machine.execSbfi w s
  | .sgetl w => Sys2Proof.Machine.execSgetl w s
  | .sputl w => Sys2Proof.Machine.execSputl w s
  | .zop w => Sys2Proof.Machine.execZop w s
  | .smovs w => Sys2Proof.Machine.execSmovs w s
  | .smovc w => Sys2Proof.Machine.execSmovc w s
  | .smovi w => Sys2Proof.Machine.execSmovi w s
  | .sldlit w => Sys2Proof.Machine.execSldlit w s
  | .iadd w => Sys2Proof.Machine.execIadd w s
  | .isub w => Sys2Proof.Machine.execIsub w s
  | .imul w => Sys2Proof.Machine.execImul w s
  | .imulh w => Sys2Proof.Machine.execImulh w s
  | .imad w => Sys2Proof.Machine.execImad w s
  | .iand w => Sys2Proof.Machine.execIand w s
  | .ior w => Sys2Proof.Machine.execIor w s
  | .ixor w => Sys2Proof.Machine.execIxor w s
  | .ishl w => Sys2Proof.Machine.execIshl w s
  | .ishr w => Sys2Proof.Machine.execIshr w s
  | .imin w => Sys2Proof.Machine.execImin w s
  | .imax w => Sys2Proof.Machine.execImax w s
  | .iabs w => Sys2Proof.Machine.execIabs w s
  | .icmp w => Sys2Proof.Machine.execIcmp w s
  | .isel w => Sys2Proof.Machine.execIsel w s
  | .popc w => Sys2Proof.Machine.execPopc w s
  | .clz w => Sys2Proof.Machine.execClz w s
  | .bfe w => Sys2Proof.Machine.execBfe w s
  | .bfi w => Sys2Proof.Machine.execBfi w s
  | .bperm w => Sys2Proof.Machine.execBperm w s
  | .mov w => Sys2Proof.Machine.execMov w s
  | .movs w => Sys2Proof.Machine.execMovs w s
  | .rng w => Sys2Proof.Machine.execRng w s
  | .plop w => Sys2Proof.Machine.execPlop w s
  | .pset w => Sys2Proof.Machine.execPset w s
  | .vote w => Sys2Proof.Machine.execVote w s
  | .ballot w => Sys2Proof.Machine.execBallot w s
  | .kop w => Sys2Proof.Machine.execKop w s
  | .shfl w => Sys2Proof.Machine.execShfl w s
  | .redux w => Sys2Proof.Machine.execRedux w s
  | .scan w => Sys2Proof.Machine.execScan w s
  | .trank w => Sys2Proof.Machine.execTrank w s
  | .elect w => Sys2Proof.Machine.execElect w s
  | .fadd w => Sys2Proof.Machine.execFadd w s
  | .fsub w => Sys2Proof.Machine.execFsub w s
  | .fmul w => Sys2Proof.Machine.execFmul w s
  | .ffma w => Sys2Proof.Machine.execFfma w s
  | .fmin w => Sys2Proof.Machine.execFmin w s
  | .fmax w => Sys2Proof.Machine.execFmax w s
  | .fcmp w => Sys2Proof.Machine.execFcmp w s
  | .fclass w => Sys2Proof.Machine.execFclass w s
  | .frcp w => Sys2Proof.Machine.execFrcp w s
  | .frsq w => Sys2Proof.Machine.execFrsq w s
  | .fsqrt w => Sys2Proof.Machine.execFsqrt w s
  | .fex2 w => Sys2Proof.Machine.execFex2 w s
  | .flg2 w => Sys2Proof.Machine.execFlg2 w s
  | .fsin w => Sys2Proof.Machine.execFsin w s
  | .fcos w => Sys2Proof.Machine.execFcos w s
  | .frnd w => Sys2Proof.Machine.execFrnd w s
  | .fcvt w => Sys2Proof.Machine.execFcvt w s
  | .ftoi w => Sys2Proof.Machine.execFtoi w s
  | .itof w => Sys2Proof.Machine.execItof w s
  | .fpack w => Sys2Proof.Machine.execFpack w s
  | .funpk w => Sys2Proof.Machine.execFunpk w s
  | .fldexp w => Sys2Proof.Machine.execFldexp w s
  | .fdot2 w => Sys2Proof.Machine.execFdot2 w s
  | .ffma2 w => Sys2Proof.Machine.execFfma2 w s
  | .fadd2 w => Sys2Proof.Machine.execFadd2 w s
  | .fmul2 w => Sys2Proof.Machine.execFmul2 w s
  | .vldlit w => Sys2Proof.Machine.execVldlit w s
  | .ld w => Sys2Proof.Machine.execLd w s
  | .st w => Sys2Proof.Machine.execSt w s
  | .ldu w => Sys2Proof.Machine.execLdu w s
  | .stu w => Sys2Proof.Machine.execStu w s
  | .ldtag w => Sys2Proof.Machine.execLdtag w s
  | .sttag w => Sys2Proof.Machine.execSttag w s
  | .atom w => Sys2Proof.Machine.execAtom w s
  | .atomu w => Sys2Proof.Machine.execAtomu w s
  | .cas w => Sys2Proof.Machine.execCas w s
  | .cadd w => Sys2Proof.Machine.execCadd w s
  | .clrc w => Sys2Proof.Machine.execClrc w s
  | .fence w => Sys2Proof.Machine.execFence w s
  | .pref w => Sys2Proof.Machine.execPref w s
  | .lck w => Sys2Proof.Machine.execLck w s
  | .ulck w => Sys2Proof.Machine.execUlck w s
  | .cmo w => Sys2Proof.Machine.execCmo w s
  | .waitc w => Sys2Proof.Machine.execWaitc w s
  | .bar w => Sys2Proof.Machine.execBar w s
  | .bara w => Sys2Proof.Machine.execBara w s
  | .barw w => Sys2Proof.Machine.execBarw w s
  | .bari w => Sys2Proof.Machine.execBari w s
  | .gget w => Sys2Proof.Machine.execGget w s
  | .gset w => Sys2Proof.Machine.execGset w s
  | .gadd w => Sys2Proof.Machine.execGadd w s
  | .rput w => Sys2Proof.Machine.execRput w s
  | .rtake w => Sys2Proof.Machine.execRtake w s
  | .rdone w => Sys2Proof.Machine.execRdone w s
  | .rstat w => Sys2Proof.Machine.execRstat w s
  | .fjoin w => Sys2Proof.Machine.execFjoin w s
  | .fleave w => Sys2Proof.Machine.execFleave w s
  | .fld w => Sys2Proof.Machine.execFld w s
  | .fset w => Sys2Proof.Machine.execFset w s
  | .chkw w => Sys2Proof.Machine.execChkw w s
  | .chkt w => Sys2Proof.Machine.execChkt w s
  | .mma w => Sys2Proof.Machine.execMma w s
  | .mmas w => Sys2Proof.Machine.execMmas w s
  | .ald w => Sys2Proof.Machine.execAld w s
  | .ast w => Sys2Proof.Machine.execAst w s
  | .azero w => Sys2Proof.Machine.execAzero w s
  | .await w => Sys2Proof.Machine.execAwait w s
  | .oprdy w => Sys2Proof.Machine.execOprdy w s
  | .phint w => Sys2Proof.Machine.execPhint w s
  | .tqadd w => Sys2Proof.Machine.execTqadd w s
  | .asave w => Sys2Proof.Machine.execAsave w s
  | .arest w => Sys2Proof.Machine.execArest w s
  | .launch w => Sys2Proof.Machine.execLaunch w s
  | .launchi w => Sys2Proof.Machine.execLaunchi w s
  | .waitg w => Sys2Proof.Machine.execWaitg w s
  | .fresume w => Sys2Proof.Machine.execFresume w s
  | .genbump w => Sys2Proof.Machine.execGenbump w s
  | .tlbinv w => Sys2Proof.Machine.execTlbinv w s
  | .wrd w => Sys2Proof.Machine.execWrd w s
  | .wwr w => Sys2Proof.Machine.execWwr w s
  | .halt w => Sys2Proof.Machine.execHalt w s
  | .snap w => Sys2Proof.Machine.execSnap w s
  | .yieldExpiry core slot lane => Sys2Proof.Machine.execYieldExpiry core slot lane s
  | .waitcResend req => Sys2Proof.Machine.execWaitcResend req s
  | .teamRegisterPropagate team core g => Sys2Proof.Machine.execTeamRegisterPropagate team core g s
  | .issueDecision core quarter => Sys2Proof.Machine.execIssueDecision core quarter s
  | .storeDrain core slot idx => Sys2Proof.Machine.execStoreDrain core slot idx s
  | .writeBack core sector mask => Sys2Proof.Machine.execWriteBack core sector mask s
  | .drop core sector mask => Sys2Proof.Machine.execDrop core sector mask s
  | .coreViewFill core sector uo asid => Sys2Proof.Machine.execCoreViewFill core sector uo asid s
  | .loadSatisfy req => Sys2Proof.Machine.execLoadSatisfy req s
  | .readModifyWrite req => Sys2Proof.Machine.execReadModifyWrite req s
  | .engineStep q => Sys2Proof.Machine.execEngineStep q s
  | .pageWalk req => Sys2Proof.Machine.execPageWalk req s
  | .probeAnswer req => Sys2Proof.Machine.execProbeAnswer req s
  | .booking req level wait => Sys2Proof.Machine.execBooking req level wait s
  | .controllerAdmission req => Sys2Proof.Machine.execControllerAdmission req s
  | .dramActivate stack channel row => Sys2Proof.Machine.execDramActivate stack channel row s
  | .dataLanding req => Sys2Proof.Machine.execDataLanding req s
  | .promiseExpiry req => Sys2Proof.Machine.execPromiseExpiry req s
  | .homePerform req err => Sys2Proof.Machine.execHomePerform req err s
  | .staleRetranslate req => Sys2Proof.Machine.execStaleRetranslate req s
  | .correctedErrorRetry req => Sys2Proof.Machine.execCorrectedErrorRetry req s
  | .parityRefetch req => Sys2Proof.Machine.execParityRefetch req s
  | .linkretry req => Sys2Proof.Machine.execLinkretry req s
  | .cellLineWriteback block => Sys2Proof.Machine.execCellLineWriteback block s
  | .hostSnoop line => Sys2Proof.Machine.execHostSnoop line s
  | .hostMemWrite tenant off bytes => Sys2Proof.Machine.execHostMemWrite tenant off bytes s
  | .hostMemRead tenant off len => Sys2Proof.Machine.execHostMemRead tenant off len s
  | .peerRequestArrival r => Sys2Proof.Machine.execPeerRequestArrival r s
  | .peerUnreachable dev => Sys2Proof.Machine.execPeerUnreachable dev s
  | .faultPost idx => Sys2Proof.Machine.execFaultPost idx s
  | .faultResume tenant => Sys2Proof.Machine.execFaultResume tenant s
  | .genbumpHomeUpdate asid place => Sys2Proof.Machine.execGenbumpHomeUpdate asid place s
  | .genbumpAck asid place => Sys2Proof.Machine.execGenbumpAck asid place s
  | .genbumpComplete asid => Sys2Proof.Machine.execGenbumpComplete asid s
  | .shuttleCommand core slot idx => Sys2Proof.Machine.execShuttleCommand core slot idx s
  | .shuttleChunk core ch chunk => Sys2Proof.Machine.execShuttleChunk core ch chunk s
  | .shuttleCommandComplete core ch => Sys2Proof.Machine.execShuttleCommandComplete core ch s
  | .multicastAck core ch chunk member => Sys2Proof.Machine.execMulticastAck core ch chunk member s
  | .ringPutAdmit core ring => Sys2Proof.Machine.execRingPutAdmit core ring s
  | .ringSlotFilled core ring => Sys2Proof.Machine.execRingSlotFilled core ring s
  | .ringReshape pw => Sys2Proof.Machine.execRingReshape pw s
  | .ringModeWrite pw => Sys2Proof.Machine.execRingModeWrite pw s
  | .hostRingDoorbell tenant core ring lenm1 => Sys2Proof.Machine.execHostRingDoorbell tenant core ring lenm1 s
  | .foldRequestArrival req => Sys2Proof.Machine.execFoldRequestArrival req s
  | .foldRoundClose die fold => Sys2Proof.Machine.execFoldRoundClose die fold s
  | .foldTimerExpiry die fold => Sys2Proof.Machine.execFoldTimerExpiry die fold s
  | .foldFill req => Sys2Proof.Machine.execFoldFill req s
  | .foldWindowDelivery die fold idx member => Sys2Proof.Machine.execFoldWindowDelivery die fold idx member s
  | .foldWindowAck die fold idx member => Sys2Proof.Machine.execFoldWindowAck die fold idx member s
  | .taskDispatch core => Sys2Proof.Machine.execTaskDispatch core s
  | .counterRecheck meadow tenant queue idx => Sys2Proof.Machine.execCounterRecheck meadow tenant queue idx s
  | .taskComplete core => Sys2Proof.Machine.execTaskComplete core s
  | .loomEntryBegin core => Sys2Proof.Machine.execLoomEntryBegin core s
  | .loomEntryComplete core => Sys2Proof.Machine.execLoomEntryComplete core s
  | .declarationStart core ctx => Sys2Proof.Machine.execDeclarationStart core ctx s
  | .declarationExpiry core ctx => Sys2Proof.Machine.execDeclarationExpiry core ctx s
  | .launchAnswer core slot => Sys2Proof.Machine.execLaunchAnswer core slot s
  | .launchiDequeue grid => Sys2Proof.Machine.execLaunchiDequeue grid s
  | .queueRotation => Sys2Proof.Machine.execQueueRotation s
  | .teamPlacement grid => Sys2Proof.Machine.execTeamPlacement grid s
  | .thermalSample readings => Sys2Proof.Machine.execThermalSample readings s
  | .droopEvent core => Sys2Proof.Machine.execDroopEvent core s
  | .priorityPreemption grid => Sys2Proof.Machine.execPriorityPreemption grid s
  | .preemptRequest team => Sys2Proof.Machine.execPreemptRequest team s
  | .teamStart team => Sys2Proof.Machine.execTeamStart team s
  | .teamRetire team => Sys2Proof.Machine.execTeamRetire team s
  | .gridComplete grid => Sys2Proof.Machine.execGridComplete grid s
  | .teamStop team => Sys2Proof.Machine.execTeamStop team s
  | .teamSave team => Sys2Proof.Machine.execTeamSave team s
  | .teamResume team => Sys2Proof.Machine.execTeamResume team s
  | .haltRequest team ordinal => Sys2Proof.Machine.execHaltRequest team ordinal s
  | .dump team asid va size => Sys2Proof.Machine.execDump team asid va size s
  | .snapshotLatch block => Sys2Proof.Machine.execSnapshotLatch block s
  | .snapcntWrite val => Sys2Proof.Machine.execSnapcntWrite val s
  | .hmaskWrite pw => Sys2Proof.Machine.execHmaskWrite pw s
  | .bplogHeadWrite pw => Sys2Proof.Machine.execBplogHeadWrite pw s
  | .errinjWrite pw => Sys2Proof.Machine.execErrinjWrite pw s
  | .contextRegisterWrite pw => Sys2Proof.Machine.execContextRegisterWrite pw s
  | .contextCounterUpdate ctx idx => Sys2Proof.Machine.execContextCounterUpdate ctx idx s
  | .registerWrite r val => Sys2Proof.Machine.execRegisterWrite r val s
  | .checkpoint => Sys2Proof.Machine.execCheckpoint s
  | .cellwb => Sys2Proof.Machine.execCellwb s
  | .snapCommand => Sys2Proof.Machine.execSnapCommand s
  | .rate => Sys2Proof.Machine.execRate s
  | .peerroute => Sys2Proof.Machine.execPeerroute s
  | .unknownCommand => Sys2Proof.Machine.execUnknownCommand s
  | .hbmRetrain stack => Sys2Proof.Machine.execHbmRetrain stack s
  | .powerSample milliwatts => Sys2Proof.Machine.execPowerSample milliwatts s
  | .clockStep => Sys2Proof.Machine.execClockStep s
  | .thermalThrottle core deg => Sys2Proof.Machine.execThermalThrottle core deg s
  | .mainPowerLoss => Sys2Proof.Machine.execMainPowerLoss s
  | .deviceReset => Sys2Proof.Machine.execDeviceReset s
  | .stageAdvance => Sys2Proof.Machine.execStageAdvance s
  | .imageLoad ctx image => Sys2Proof.Machine.execImageLoad ctx image s
  | .getVersion => Sys2Proof.Machine.execGetVersion s
  | .getCapabilities => Sys2Proof.Machine.execGetCapabilities s
  | .negotiateAlgorithms asym hash => Sys2Proof.Machine.execNegotiateAlgorithms asym hash s
  | .getDigests => Sys2Proof.Machine.execGetDigests s
  | .getCertificate slot off len => Sys2Proof.Machine.execGetCertificate slot off len s
  | .challenge slot nonce => Sys2Proof.Machine.execChallenge slot nonce s
  | .getMeasurements index => Sys2Proof.Machine.execGetMeasurements index s
  | .debuggerResume team => Sys2Proof.Machine.execDebuggerResume team s
  | .systemSoftwareEndsGrid grid => Sys2Proof.Machine.execSystemSoftwareEndsGrid grid s
  | .contextDestroyed ctx => Sys2Proof.Machine.execContextDestroyed ctx s
  | .vectorUnmask tenant vec => Sys2Proof.Machine.execVectorUnmask tenant vec s
  | .hbmRetrainComplete stack => Sys2Proof.Machine.execHbmRetrainComplete stack s

end Sys2Proof.Machine
end

