-- ==== Sys2Proof/Machine/Step.lean ====
section
/-!
DEFINITION. One step of the device: the next word of a decision being carried out (R161), or the next
move (assumption 1), over the meaning of one instruction.
-/
namespace Sys2Proof.Machine

/-- After a word that ended normally, its chain goes on (R211). -/
def settle (i : Instr) (o : Host.Outcome State Fault Refusal) : Host.Outcome State Fault Refusal :=
  match o with
  | .next s => .next (s.afterWord i)
  | .fault f => .fault f
  | .refused r => .refused r

/-- A word of the current decision. -/
def stepWord (s : State) : Host.Outcome State Fault Refusal :=
  match s.nextWord with
  | .done t => .next t
  | .run i t => settle i (exec i t)
  | .touched i x ts t => settle i (t.touchedWord x ts (exec i))

/-- A move: a cycle of a clock, an event, or a soft error. Words are issued by ISSUE_DECISION only, so a word
is no move. -/
def stepMove (m : Move) (s : State) : Host.Outcome State Fault Refusal :=
  match m with
  | .tick core => .next (s.tick core)
  | .act i => if i.raw.isSome then .next s else exec i s
  | .upset u => .next (s.upset u)

/-- One step (assumptions 1, 4 and 5). -/
def step (s : State) : Host.Outcome State Fault Refusal :=
  if s.countStep.issuing then stepWord s.countStep
  else stepMove s.countStep.nextMove.1 s.countStep.nextMove.2

/-- The state that fetches this instruction next (assumption 13). -/
def State.withFetchWord (s : State) (nbits w : Nat) : State := s.placeWord (leBytes 16 (w % 2 ^ nbits))

end Sys2Proof.Machine
end

