-- ==== Sys2Proof/WellFormed.lean ====
section
/-!
DEFINITION. Which instructions a word can hold: every field keeps the rules of its opcode
(R202), and the word has a place for each (R214).
-/
namespace Sys2Proof

/-- The instruction is one that some word encodes, and none of its fields breaks a rule. -/
def Instr.WellFormed (i : Instr) : Prop := (i.fieldsOk && i.shaped) = true

end Sys2Proof
end

