-- ==== Sys2Proof/Safety.lean ====
section
/-!
DEFINITION. What claims are stated in: a safe run, and the ways in which one state differs from another.
-/
namespace Sys2Proof.Machine

/-- Every byte memory of the state keeps its canonical form (assumption 6). -/
def State.memOk (s : State) : Bool :=
  Memory.wf s.mem && (s.cores.all fun c => Memory.wf c.2.spad && Memory.wf c.2.tmpl) &&
    s.tenants.all fun t => Memory.wf t.2.ports

/-- The step answers a next state: neither a fault nor a refusal. -/
def Goes (s : State) : Prop := ∃ t, step s = .next t

/-! ### Frames -/

/-- Every byte of memory and of every scratchpad reads as before. -/
def SameBytes (s t : State) : Prop :=
  (∀ a, mget t.mem a = mget s.mem a) ∧ ∀ c a, mget (t.core c).spad a = mget (s.core c).spad a

/-- Only the issuing weft differs: every other weft, every memory and every other piece of state is as before. -/
def OnlyWeft (s t : State) : Prop :=
  t = { s with wefts := t.wefts } ∧ (∀ k, k ≠ s.key → t.weft k = s.weft k) ∧ SameBytes s t

/-- Only lanes of the decision differ; the scalar file, the masks and the trap registers of the weft stay. -/
def OnlyLanes (s t : State) : Prop :=
  OnlyWeft s t ∧ t.cw = { s.cw with lanes := t.cw.lanes } ∧ ∀ l, l ∉ s.lanes → t.cw.lane l = s.cw.lane l

/-- The lane goes on to the next word and keeps everything else. -/
def Passed (s : State) (x y : Lane) : Prop := y = { x with pc := s.nextVa }

/-- Everything is as before but the PCs of the issuing lanes, which go on to the next word. -/
def PassedOn (s t : State) : Prop :=
  OnlyLanes s t ∧ ∀ l ∈ s.lanes, Passed s (s.cw.lane l) (t.cw.lane l)

/-- The physical registers that a result of a type in v(n) fills. -/
def resultRegs (stk n ty : Nat) (x : Lane) : List Nat :=
  if tyWidth ty = 64 then [x.phys stk n, x.phys stk (n + 1)] else [x.phys stk n]

/-- What v(n) holds after a result y of a type: the pair, or 32 bits extended by the type's signedness (R210). -/
def Holds (stk n ty y : Nat) (x : Lane) : Prop :=
  if tyWidth ty = 64 then x.vPair stk n = BitVec.ofNat 64 y
  else x.v stk n = BitVec.ofNat 32 (extend (tySigned ty) (tyWidth ty) 32 y)

/-- A lane that took a lane instruction's result y: v(n) holds it unless N is set, b0 holds it, the older
latches move up, the PC goes on; no other register changes (R205, R210, R212). -/
def Took (s : State) (c : Ctl) (n ty y : Nat) (x z : Lane) : Prop :=
  z = { x with pc := s.nextVa, regs := z.regs, lat := z.lat, dstMarks := z.dstMarks } ∧
  z.lat = (resultV ty y :: x.lat).take 4 ∧
  (c.n = true → z.regs = x.regs ∧ z.dstMarks = x.dstMarks) ∧
  (c.n = false → Holds s.cw.stk n ty y z ∧
    ∀ i, i ∉ resultRegs s.cw.stk n ty x → lookD i 0 z.regs = lookD i 0 x.regs)

/-- A lane instruction's whole effect: each executing lane takes f of its number, the lanes whose predicate
is false only go on, and nothing else changes (R292, R205). -/
def LaneResult (s t : State) (c : Ctl) (n ty : Nat) (f : Nat → Nat) : Prop :=
  OnlyLanes s t ∧ ∀ l ∈ s.lanes,
    if ctlHolds c (s.cw.lane l) then Took s c n ty (f l) (s.cw.lane l) (t.cw.lane l)
    else Passed s (s.cw.lane l) (t.cw.lane l)

/-- A predicate written in each executing lane. -/
def LanePred (s t : State) (c : Ctl) (n : Nat) (f : Nat → Bool) : Prop :=
  OnlyLanes s t ∧ ∀ l ∈ s.lanes,
    if ctlHolds c (s.cw.lane l) then
      t.cw.lane l = { s.cw.lane l with pc := s.nextVa, preds := (t.cw.lane l).preds } ∧
      ∀ i, i < 8 → (t.cw.lane l).pred i = if i = n then f l else (s.cw.lane l).pred i
    else Passed s (s.cw.lane l) (t.cw.lane l)

/-- A scalar register's new value: s(n) holds y unless N is set, the lanes of ls have y in b0, every issuing lane
goes on, and nothing else changes (R212, R256). -/
def ScalarResult (s t : State) (c : Ctl) (n : Nat) (y : Word) (ls : List Nat) : Prop :=
  OnlyWeft s t ∧
  t.cw = { s.cw with lanes := t.cw.lanes, s := t.cw.s, sMarks := t.cw.sMarks } ∧
  (∀ m, t.cw.sreg m = if m = n ∧ c.n = false then y else s.cw.sreg m) ∧
  (∀ l, l ∉ s.lanes → t.cw.lane l = s.cw.lane l) ∧
  ∀ l ∈ s.lanes, t.cw.lane l = { s.cw.lane l with
    pc := s.nextVa, lat := if l ∈ ls then (y :: (s.cw.lane l).lat).take 4 else (s.cw.lane l).lat }

/-- A z register's new value; the issuing lanes go on, and nothing else changes. -/
def ZResult (s t : State) (n : Nat) (b : Bool) : Prop :=
  OnlyWeft s t ∧
  t.cw = { s.cw with lanes := t.cw.lanes, z := t.cw.z, sMarks := t.cw.sMarks } ∧
  (∀ m, m < 4 → t.cw.zreg m = if m = n then b else s.cw.zreg m) ∧
  (∀ l, l ∉ s.lanes → t.cw.lane l = s.cw.lane l) ∧
  ∀ l ∈ s.lanes, Passed s (s.cw.lane l) (t.cw.lane l)

/-- The issuing lanes go to new PCs, each its own, and nothing else changes. -/
def WentTo (s t : State) (pc : Nat → Word) : Prop :=
  OnlyLanes s t ∧ ∀ l ∈ s.lanes, t.cw.lane l = { s.cw.lane l with pc := pc l }

/-- A mask tested (R251): when its arrived bits are not empty and cover its members, they clear and the lanes that
wait on it are released; otherwise nothing changes. -/
def MaskTested (w w' : Weft) (k : Nat) : Prop :=
  if w.karr k ≠ 0 ∧ w.kmem k &&& ~~~(w.karr k) = 0 then
    w' = { w with lanes := w'.lanes, kArr := put k 0 w.kArr } ∧
    ∀ l, w'.lane l = if (w.karr k).getLsbD l ∧ (w.lane l).wait = .mask k
      then { w.lane l with wait := .none, age := 0 } else w.lane l
  else w' = w

/-! ### Accesses that enter the machine -/

/-- A lane keeps everything but its time registers and what they carry. -/
def TimesOnly (x y : Lane) : Prop :=
  y = { x with t := y.t, treq := y.treq, broken := y.broken, refused := y.refused }

/-- Requests have entered the machine for words of the issuing weft: new ones stand after the old ones, reeds may
be reserved, translations kept with their page-table lines in L2, Store Queue entries added and time registers taken; no
byte, no other register, no other weft and no other piece of state has changed. -/
def Entered (s t : State) : Prop :=
  t = { s with
    reqs := t.reqs
    nextId := t.nextId
    slots := t.slots
    cores := t.cores
    wefts := t.wefts
    l2 := t.l2
    msc := t.msc
    rows := t.rows } ∧
  (∀ c, t.core c = { s.core c with tlb := (t.core c).tlb, walkc := (t.core c).walkc }) ∧
  (∀ k, k ≠ s.key → t.weft k = s.weft k) ∧
  t.cw = { s.cw with lanes := t.cw.lanes, sq := t.cw.sq } ∧
  (∀ l, TimesOnly (s.cw.lane l) (t.cw.lane l)) ∧
  (∃ more, t.reqs = s.reqs ++ more ∧ ∀ r ∈ more, s.nextId ≤ r.id ∧ r.id < t.nextId) ∧
  s.nextId ≤ t.nextId ∧ SameBytes s t

/-- A request is one of the word's: new, of its operation, size, type, registers and order (R79, R80). -/
def IsOf (w : MemW) (s : State) (op : ReqOp) (size : Nat) (q : Req) : Prop :=
  s.nextId ≤ q.id ∧ q.key = s.key ∧ q.op = op ∧ q.size = size ∧ q.ty = w.ty.toNat ∧ q.tsel = w.tnum ∧
  q.dst = reqDst w.dst ∧ q.acq = w.acquires ∧ q.rel = w.releases ∧ q.scope = w.scope.toNat ∧ q.epc = s.cur.va

/-- The accesses of a word have become requests of it, and nothing else has been asked: each is a part of a request,
with its lane, VA, operands, first register and target. -/
def AllAsked (w : MemW) (s t : State) (op : ReqOp) (size : Nat) (uniform : Bool) (xs : List Access) (tg : Nat → Tgt) : Prop :=
  Entered s.advance t ∧ ∃ more, t.reqs = s.reqs ++ more ∧ more.length ≤ xs.length ∧
    (∀ q ∈ more, IsOf w s op size q ∧ (uniform = true → q.lanes = s.cur.lanes)) ∧
    ∀ x ∈ xs, ∃ q ∈ more, s.part w x (tg x.lane) ∈ q.parts

/-- The stores of a word stand in the weft's Store Queue, after the older ones, each with its address and bytes. -/
def AllQueued (w : MemW) (s t : State) (xs : List Access) (tg : Nat → Tgt) : Prop :=
  Entered s.advance t ∧ ∃ es, t.cw.sq = s.cw.sq ++ es ∧ es.length = xs.length ∧ ∀ x ∈ xs, ∃ e ∈ es,
    e.lane = x.lane ∧ e.va = x.va.toNat ∧ e.tgt = tg x.lane ∧ e.bytes = leBytes w.bytes x.x ∧ e.rel = w.releases ∧
    e.scope = w.scope.toNat ∧ e.home = w.tnum.isSome ∧ s.nextId ≤ e.req

end Sys2Proof.Machine
end

