-- ==== Sys2Proof/Certificates/Slice0/Obligations.lean ====
section
/-!
DEFINITION. What is claimed of the machine. Tables before the claims name the instructions that a claim covers, with
what each computes.
-/
namespace Sys2Proof.Claims
open Sys2Proof.Machine

/-- A lane instruction that writes v(n) of DST: how it is built, and its result in a lane. -/
abbrev LaneOp := (AluW → Instr) × (AluW → State → Nat → Nat)

/-- Operands of a lane, of the word's type, and the one read in full (R209, R257). -/
def opA (w : AluW) (s : State) (l : Nat) : Nat := s.val l w.a w.ty.toNat
def opB (w : AluW) (s : State) (l : Nat) : Nat := s.val l w.b w.ty.toNat
def opC (w : AluW) (s : State) (l : Nat) : Nat := s.val l w.c w.ty.toNat
def fullB (w : AluW) (s : State) (l : Nat) : Nat := s.full l w.b w.ty.toNat
def fullC (w : AluW) (s : State) (l : Nat) : Nat := s.full l w.c w.ty.toNat

/-- Lane integer instructions and moves whose result has the word's type (R295 to R298). -/
def laneInts : List LaneOp := [
  (.iadd, fun w s l => opAdd w.sg w.sat w.wd (opA w s l) (opB w s l)),
  (.isub, fun w s l => opSub w.sg w.sat w.wd (opA w s l) (opB w s l)),
  (.imul, fun w s l => opMul w.sg w.sat w.wd (opA w s l) (opB w s l)),
  (.imulh, fun w s l => opMulh w.sg w.wd (opA w s l) (opB w s l)),
  (.imad, fun w s l => opMad w.sg w.sat w.wd (opA w s l) (opB w s l) (opC w s l)),
  (.iand, fun w s l => opAnd w.wd (opA w s l) (opB w s l)),
  (.ior, fun w s l => opOr w.wd (opA w s l) (opB w s l)),
  (.ixor, fun w s l => opXor w.wd (opA w s l) (opB w s l)),
  (.ishl, fun w s l => opShl w.wd (opA w s l) (fullB w s l)),
  (.ishr, fun w s l => opShr w.sg w.wd (opA w s l) (fullB w s l)),
  (.imin, fun w s l => opMin w.sg w.wd (opA w s l) (opB w s l)),
  (.imax, fun w s l => opMax w.sg w.wd (opA w s l) (opB w s l)),
  (.iabs, fun w s l => opAbs w.sat w.wd (opA w s l)),
  (.isel, fun w s l => if s.raw l w.a false = 1 then opB w s l else opC w s l),
  (.popc, fun w s l => opPopc w.wd (opA w s l)),
  (.clz, fun w s l => opClz w.wd (opA w s l)),
  (.bfe, fun w s l => opBfe w.sg w.wd (opA w s l) (fullB w s l)),
  (.bfi, fun w s l => opBfi w.wd (opA w s l) (opB w s l) (fullC w s l)),
  (.bperm, fun w s l => opBperm (opA w s l) (opB w s l) (opC w s l)),
  (.mov, fun w s l => opA w s l),
  (.rng, fun w s l => opRng (opA w s l) (opB w s l))]

/-- Comparisons and classes (R295, R308). -/
def laneWords : List LaneOp := [
  (.icmp, fun w s l => relBits w.sg w.wd (opA w s l) (opB w s l)),
  (.fcmp, fun w s l =>
    let g := fun a b => frelBits ((tyFmt w.ty.toNat).decode a) ((tyFmt w.ty.toNat).decode b)
    if tyIsPacked w.ty.toNat then
      g (bits (opA w s l) 0 16) (bits (opB w s l) 0 16) + 16 * g (bits (opA w s l) 16 16) (bits (opB w s l) 16 16)
    else g (opA w s l) (opB w s l)),
  (.fclass, fun w s l =>
    let g := fclassBits (tyFmt w.ty.toNat)
    if tyIsPacked w.ty.toNat then g (bits (opA w s l) 0 16) + 65536 * g (bits (opA w s l) 16 16)
    else g (opA w s l))]

/-- MOVS (R297): its result is 32 bits. -/
def laneMovs : List LaneOp := [
  (.movs, fun w s l =>
    if w.ty = 0 then l
    else if w.ty = 1 then s.cw.width
    else if w.ty = 2 then s.cw.index * s.cw.width + l
    else if w.ty = 3 then (s.core s.cur.core).cyc % 2 ^ 32
    else (s.cw.lane l).wb)]

/-- One element, or both of a packed type. -/
def elements (w : AluW) (g : Nat → Nat → Nat → Nat) (a b c : Nat) : Nat :=
  if tyIsPacked w.ty.toNat then
    g (bits a 0 16) (bits b 0 16) (bits c 0 16) + g (bits a 16 16) (bits b 16 16) (bits c 16 16) * 2 ^ 16
  else g a b c

/-- An exact result rounded once to the type (R189, R190). -/
def rounded (w : AluW) (x : Fl) : Nat := (tyFmt w.ty.toNat).encode w.rm.toNat w.sat x
def dec (w : AluW) (x : Nat) : Fl := (tyFmt w.ty.toNat).decode x
def rnd (w : AluW) : Nat := w.rm.toNat

/-- A function whose exact value is rounded to FP32, and to the type when that is another (R309). -/
def viaSingle (w : AluW) (x : Fl) : Nat :=
  let y := f32Fmt.encode 0 w.sat x
  if w.ty.toNat = 11 then y else (tyFmt w.ty.toNat).encode 0 w.sat (f32Fmt.decode y)

/-- Floating-point instructions whose result has the word's type (R307, R309, R310). -/
def laneFloats : List LaneOp := [
  (.fadd, fun w s l => elements w (fun a b _ => rounded w (Fl.add (rnd w) (dec w a) (dec w b))) (opA w s l) (opB w s l) 0),
  (.fsub, fun w s l => elements w (fun a b _ => rounded w (Fl.add (rnd w) (dec w a) (dec w b).neg)) (opA w s l) (opB w s l) 0),
  (.fmul, fun w s l => elements w (fun a b _ => rounded w ((dec w a).mul (dec w b))) (opA w s l) (opB w s l) 0),
  (.ffma, fun w s l => elements w (fun a b c => rounded w (Fl.add (rnd w) ((dec w a).mul (dec w b)) (dec w c)))
    (opA w s l) (opB w s l) (opC w s l)),
  (.fmin, fun w s l => elements w (fun a b _ => rounded w (Fl.least false (dec w a) (dec w b))) (opA w s l) (opB w s l) 0),
  (.fmax, fun w s l => elements w (fun a b _ => rounded w (Fl.least true (dec w a) (dec w b))) (opA w s l) (opB w s l) 0),
  (.fldexp, fun w s l => elements w (fun a _ _ => rounded w ((dec w a).scale (toSigned 32 (s.val l w.b 6)))) (opA w s l) 0 0),
  (.frcp, fun w s l => elements w (fun a _ _ => rounded w (dec w a).recip) (opA w s l) 0 0),
  (.fsqrt, fun w s l => elements w (fun a _ _ => rounded w (dec w a).sqrt) (opA w s l) 0 0),
  (.frnd, fun w s l => elements w (fun a _ _ => rounded w (Fl.roundIntegral (rnd w) (dec w a))) (opA w s l) 0 0),
  (.frsq, fun w s l => viaSingle w (dec w (opA w s l)).rsqrt),
  (.fex2, fun w s l => viaSingle w (dec w (opA w s l)).exp2),
  (.flg2, fun w s l => viaSingle w (dec w (opA w s l)).log2),
  (.fsin, fun w s l => viaSingle w (dec w (opA w s l)).sinPi),
  (.fcos, fun w s l => viaSingle w (dec w (opA w s l)).cosPi),
  (.fcvt, fun w s l => rounded w ((tyFmt (AluW.srcType w)).decode (s.val l w.a (AluW.srcType w)))),
  (.ftoi, fun w s l => ofInt w.wd (flToInt w.sg w.wd (rnd w) ((tyFmt (AluW.srcType w)).decode (s.val l w.a (AluW.srcType w))))),
  (.itof, fun w s l => rounded w (.ofInt (intOf (tySigned (AluW.srcType w)) (tyWidth (AluW.srcType w)) (s.val l w.a (AluW.srcType w)))))]

/-- Both halves of FP32 pairs (R312). -/
def halves (g : Nat → Nat → Nat → Nat) (a b c : Nat) : Nat :=
  g (bits a 0 32) (bits b 0 32) (bits c 0 32) + g (bits a 32 32) (bits b 32 32) (bits c 32 32) * 2 ^ 32

/-- FP32 pairs: a 64-bit result (R312). -/
def lanePairs : List LaneOp := [
  (.fadd2, fun w s l => halves (fun a b _ => f32Fmt.encode (rnd w) w.sat (Fl.add (rnd w) (f32Fmt.decode a) (f32Fmt.decode b)))
    (s.pairVal l w.a) (s.pairVal l w.b) (s.pairVal l w.c)),
  (.fmul2, fun w s l => halves (fun a b _ => f32Fmt.encode (rnd w) w.sat ((f32Fmt.decode a).mul (f32Fmt.decode b)))
    (s.pairVal l w.a) (s.pairVal l w.b) (s.pairVal l w.c)),
  (.ffma2, fun w s l => halves (fun a b c => f32Fmt.encode (rnd w) w.sat
      (Fl.add (rnd w) ((f32Fmt.decode a).mul (f32Fmt.decode b)) (f32Fmt.decode c)))
    (s.pairVal l w.a) (s.pairVal l w.b) (s.pairVal l w.c))]

/-- Every instruction of a table completes for every word with DST v(n), with its result in every executing lane
and nothing else changed. ty gives the type of the result. -/
def LaneTable (ops : List LaneOp) (ty : AluW → Nat) : Prop :=
  ∀ p ∈ ops, ∀ (w : AluW) (s : State) (n : Fin 32), w.dst = .v n → 2 ≤ s.cw.stk →
    ∃ t, exec (p.1 w) s = .next t ∧ LaneResult s t w.ctl n (ty w) (p.2 w s)

/-! ### Uniform instructions -/

/-- A uniform instruction that writes s(n) of DST, and its result (R256). -/
abbrev UniformOp := (AluW → Instr) × (AluW → State → Nat)

def ua (w : AluW) (s : State) : Nat := s.val s.lead w.a w.ty.toNat
def ub (w : AluW) (s : State) : Nat := s.val s.lead w.b w.ty.toNat
def uc (w : AluW) (s : State) : Nat := s.val s.lead w.c w.ty.toNat
def fullUb (w : AluW) (s : State) : Nat := s.full s.lead w.b w.ty.toNat
def fullUc (w : AluW) (s : State) : Nat := s.full s.lead w.c w.ty.toNat

/-- Uniform instructions whose result has the word's type (R257, R258). -/
def uniforms : List UniformOp := [
  (.sadd, fun w s => opAdd w.sg w.sat w.wd (ua w s) (ub w s)),
  (.ssub, fun w s => opSub w.sg w.sat w.wd (ua w s) (ub w s)),
  (.smul, fun w s => opMul w.sg w.sat w.wd (ua w s) (ub w s)),
  (.smulh, fun w s => opMulh w.sg w.wd (ua w s) (ub w s)),
  (.sand, fun w s => opAnd w.wd (ua w s) (ub w s)),
  (.sor, fun w s => opOr w.wd (ua w s) (ub w s)),
  (.sxor, fun w s => opXor w.wd (ua w s) (ub w s)),
  (.sshl, fun w s => opShl w.wd (ua w s) (fullUb w s)),
  (.sshr, fun w s => opShr w.sg w.wd (ua w s) (fullUb w s)),
  (.smin, fun w s => opMin w.sg w.wd (ua w s) (ub w s)),
  (.smax, fun w s => opMax w.sg w.wd (ua w s) (ub w s)),
  (.ssel, fun w s => if s.raw s.lead w.a false = 1 then ub w s else uc w s),
  (.smov, fun w s => ua w s),
  (.spopc, fun w s => opPopc w.wd (ua w s)),
  (.sclz, fun w s => opClz w.wd (ua w s)),
  (.sbfe, fun w s => opBfe w.sg w.wd (ua w s) (fullUb w s)),
  (.sbfi, fun w s => opBfi w.wd (ua w s) (ub w s) (fullUc w s))]

/-- A uniform result of a type into s(n), or only the step past the word where the z predicate is false. -/
def UniformDone (s t : State) (c : Ctl) (n : Nat) (ty y : Nat) : Prop :=
  if ctlHoldsU c s.cw then ScalarResult s t c n (resultS ty y) s.lanes else PassedOn s t

def UniformTable (ops : List UniformOp) (ty : AluW → Nat) : Prop :=
  ∀ p ∈ ops, ∀ (w : AluW) (s : State) (n : Fin 128), w.dst = .s n →
    ∃ t, exec (p.1 w) s = .next t ∧ UniformDone s t w.ctl n (ty w) (p.2 w s)

/-- A value that goes to v(n) of every executing lane, or once to s(n) (R300, R302, R304). -/
def SharedDone (s t : State) (c : Ctl) (d : Dst) (ty y : Nat) : Prop :=
  match d with
  | .v n => 2 ≤ s.cw.stk → LaneResult s t c n ty fun _ => y
  | .s n => if s.active c = [] then PassedOn s t else ScalarResult s t c n (resultS ty y) (s.active c)
  | _ => True

/-- A predicate that goes to p(n) of every executing lane, or, from the lowest of them, to z(n) (R299, R302). -/
def PredDone (s t : State) (c : Ctl) (d : Dst) (f : Nat → Bool) : Prop :=
  match d with
  | .p n => LanePred s t c n f
  | .z n => (match s.active c with | [] => PassedOn s t | l :: _ => ZResult s t n (f l))
  | _ => True

abbrev PredOp := (AluW → Instr) × (AluW → State → Nat → Bool)

/-- Predicates and votes (R299, R302). -/
def predicates : List PredOp := [
  (.plop, fun w s l => plopOf w.ty.toNat (s.truth l w.a) (s.truth l w.b)),
  (.pset, fun w s l => psetOf w.ty.toNat (s.val l w.a 15) (s.val l w.b 15)),
  (.vote, fun w s _ =>
    let xs := (s.active w.ctl).map fun l => s.truth l w.a
    if w.ty = 0 then xs.all id else if w.ty = 1 then xs.any id else xs.all id || xs.all (!·)),
  (.elect, fun w s l =>
    ((s.active w.ctl).filter fun l => match w.a with | .k n => (s.cw.kmem n).getLsbD l | _ => true).head? = some l)]

/-- Values that pass between lanes (R303, R305). -/
def crossLanes : List LaneOp := [
  (.shfl, fun w s l => if s.cw.width ≤ s.val l w.b 5 then 0 else s.val (s.val l w.b 5) w.a w.ty.toNat),
  (.scan, fun w s l =>
    let op := AluW.reduction w % 8
    let excl := decide (8 ≤ AluW.reduction w)
    let before := (s.active w.ctl).filter fun m => m < l || (m = l && !excl)
    let start := if tyIsFloat w.ty.toNat && op = 0 && excl then 0 else reduxId op w.ty.toNat
    canonical w.ty.toNat (scanOf (reduxOp op w.ty.toNat w.rm.toNat w.sat) start (before.map fun m => opA w s m)))]

/-- TRANK (R306): the rank of a lane by the distance of its time register, ties by lane number. -/
def rankOf (w : AluW) (s : State) (l : Nat) : Nat :=
  let d := fun l => tdist ((s.cw.lane l).treg w.a.num) (s.core s.cur.core).cyc
  let ranked := (s.active w.ctl).filter fun l => match w.b with | .k n => (s.cw.kmem n).getLsbD l | _ => true
  if ranked.contains l then (ranked.filter fun m => d m < d l || (d m = d l && m < l)).length else 0xFFFFFFFF

end Sys2Proof.Claims

open Sys2Proof Sys2Proof.Machine Sys2Proof.Claims

/-- R295 to R298: the lane integer instructions. -/
def Obligations.LaneIntegersComplete : Prop := LaneTable laneInts fun w => w.ty.toNat

/-- R295, R297, R308: comparisons and classes, written as ui32 or, of a 64-bit type, into the pair (R210), and MOVS,
of 32 bits. -/
def Obligations.LaneWordsComplete : Prop :=
  LaneTable laneWords (fun w => if tyWidth w.ty.toNat = 64 then 16 else 5) ∧ LaneTable laneMovs fun _ => 5

/-- R307, R309, R310: the floating-point instructions. -/
def Obligations.LaneFloatsComplete : Prop := LaneTable laneFloats fun w => w.ty.toNat

/-- R312: packed FP32 pairs write a pair, and FDOT2 an FP32 value. -/
def Obligations.PackedFloatsComplete : Prop :=
  LaneTable lanePairs (fun _ => 16) ∧
  LaneTable [(.fdot2, fun w s l => f32Fmt.encode w.rm.toNat w.sat
    (dot2 (tyFmt w.ty.toNat) w.rm.toNat (opA w s l) (opB w s l) (f32Fmt.decode (s.val l w.c 11))))] fun _ => 11

/-- R256 to R259, R263: the uniform instructions that write a scalar register. -/
def Obligations.UniformsComplete : Prop :=
  UniformTable uniforms (fun w => w.ty.toNat) ∧
  UniformTable [(.scmp, fun w s => relBits w.sg w.wd (ua w s) (ub w s))] (fun _ => 7) ∧
  (∀ (w : MoviW) (s : State) (n : Fin 128), w.dst = .s n →
    ∃ t, exec (.smovi w) s = .next t ∧ UniformDone s t w.ctl n 16 w.imm.toNat) ∧
  (∀ (w : AluW) (s : State) (n : Fin 128), w.dst = .s n → regAssigned (s.full s.lead w.a 7) = true →
    ∃ t, exec (.smovs w) s = .next t ∧ UniformDone s t w.ctl n 7 (s.ctrlReg s.key (s.full s.lead w.a 7)))

/-- R299 to R306: predicates, votes, shuffles, scans, ranks, ballots and reductions. -/
def Obligations.CrossLanesComplete : Prop :=
  (∀ p ∈ predicates, ∀ (w : AluW) (s : State),
    ∃ t, exec (p.1 w) s = .next t ∧ PredDone s t w.ctl w.dst (p.2 w s)) ∧
  LaneTable crossLanes (fun w => w.ty.toNat) ∧ LaneTable [(.trank, rankOf)] (fun _ => 5) ∧
  (∀ (w : AluW) (s : State), ∃ t, exec (.ballot w) s = .next t ∧ SharedDone s t w.ctl w.dst 16
    ((maskOf ((s.active w.ctl).filter fun l => s.truth l w.a)).toNat /
      2 ^ (64 * (w.b.immVal.getD 0).toNat) % 2 ^ 64)) ∧
  (∀ (w : AluW) (s : State), ∃ t, exec (.redux w) s = .next t ∧ SharedDone s t w.ctl w.dst w.ty.toNat
    (reduceTree (reduxOp (AluW.reduction w) w.ty.toNat w.rm.toNat w.sat)
      ((List.range s.cw.width).map fun l => if (s.active w.ctl).contains l then opA w s l
        else reduxId (AluW.reduction w) w.ty.toNat))) ∧
  (∀ (w : AluW) (s : State), w.ty = 6 → ∃ t, exec (.kop w) s = .next t ∧ SharedDone s t w.ctl w.dst 16
    ((s.cw.kmem w.a.num).toNat % 2 ^ s.cw.width / 2 ^ (64 * (w.b.immVal.getD 0).toNat) % 2 ^ 64))

/-- R251, R300: masks take and lose members, lanes arrive, and a mask whose arrived bits cover its members
releases the lanes that wait on it. -/
def Obligations.MasksComplete : Prop :=
  (∀ (w : CtlW) (s : State), ∃ t, exec (.join w) s = .next t ∧ OnlyWeft s t ∧
    MaskTested { s.advance.cw with
      kMem := put w.a.num (s.cw.kmem w.a.num ||| maskOf (s.active w.ctl)) s.cw.kMem } t.cw w.a.num) ∧
  (∀ (w : CtlW) (s : State), ∃ t, exec (.leave w) s = .next t ∧ OnlyWeft s t ∧
    MaskTested { s.advance.cw with
      kMem := put w.a.num (s.cw.kmem w.a.num &&& ~~~(maskOf (s.active w.ctl))) s.cw.kMem,
      kArr := put w.a.num (s.cw.karr w.a.num &&& ~~~(maskOf (s.active w.ctl))) s.cw.kArr } t.cw w.a.num) ∧
  (∀ (w : CtlW) (s : State), ∃ t u, exec (.waitm w) s = .next t ∧ OnlyWeft s t ∧
    (let ls := (s.active w.ctl).filter fun l => (s.cw.kmem w.a.num).getLsbD l
     u = { s.cw with lanes := u.lanes, kArr := put w.a.num (s.cw.karr w.a.num ||| maskOf ls) s.cw.kArr } ∧
     (∀ l, u.lane l = if l ∈ ls then { s.cw.lane l with pc := s.nextVa, wait := .mask w.a.num }
       else if l ∈ s.lanes then { s.cw.lane l with pc := s.nextVa } else s.cw.lane l)) ∧
    MaskTested u t.cw w.a.num) ∧
  (∀ (w : AluW) (s : State), w.ty ≠ 6 → ∃ t, exec (.kop w) s = .next t ∧
    if s.active w.ctl = [] then PassedOn s t
    else OnlyWeft s t ∧
      (let y := s.kopMembers w &&& maskOf ((List.range s.cw.width).filter fun l => !(s.cw.lane l).exited)
       MaskTested { s.advance.cw with
         kMem := put w.dst.num y s.cw.kMem, kArr := put w.dst.num (s.cw.karr w.dst.num &&& y) s.cw.kArr }
         t.cw w.dst.num))

/-- R203, R244, R245: NOPs go on; BRA, JMP, BRT and BDEC send the lanes whose condition holds to their targets, the
others on, where every target taken is below 2^52 and a multiple of 4. -/
def Obligations.BranchesComplete : Prop :=
  (∀ p ∈ [Instr.nop, Instr.nop96, Instr.nop128], ∀ (w : CtlW) (s : State),
    ∃ t, exec (p w) s = .next t ∧ PassedOn s t) ∧
  (∀ (w : CtlW) (s : State), (∀ l ∈ s.active w.ctl, targetRaise l (s.target w.off) = none) →
    ∃ t, exec (.bra w) s = .next t ∧
      WentTo s t fun l => if ctlHolds w.ctl (s.cw.lane l) then s.cur.va + w.off.signExtend 64 * 4 else s.nextVa) ∧
  (∀ (w : CtlW) (s : State), (∀ l ∈ s.active w.ctl, targetRaise l (s.jumpSource w.a l) = none) →
    ∃ t, exec (.jmp w) s = .next t ∧
      WentTo s t fun l => if ctlHolds w.ctl (s.cw.lane l) then BitVec.ofNat 64 (s.val l w.a 16) else s.nextVa) ∧
  (∀ (w : CtlW) (s : State),
    let taken := fun l => ctlHolds w.ctl (s.cw.lane l) &&
      brtCond w.ty.toNat ((s.cw.lane l).treg w.a.num) (s.core s.cur.core).cyc (s.count w.b s.lead)
    (∀ l ∈ s.lanes, taken l = true → targetRaise l (s.target w.off) = none) →
    ∃ t, exec (.brt w) s = .next t ∧
      WentTo s t fun l => if taken l then s.cur.va + w.off.signExtend 64 * 4 else s.nextVa) ∧
  (∀ (w : CtlW) (s : State),
    (ctlHoldsU w.ctl s.cw = true → s.cw.sreg w.dst.num - 1 ≠ 0 → targetRaise s.lead (s.target w.off) = none) →
    ∃ t, exec (.bdec w) s = .next t ∧
      if ctlHoldsU w.ctl s.cw then
        OnlyWeft s t ∧
        (∀ m, t.cw.sreg m = if m = w.dst.num then s.cw.sreg m - 1 else s.cw.sreg m) ∧
        (∀ l, l ∉ s.lanes → t.cw.lane l = s.cw.lane l) ∧
        (∀ l ∈ s.lanes, t.cw.lane l = { s.cw.lane l with
          pc := if s.cw.sreg w.dst.num - 1 = 0 then s.nextVa else s.target w.off })
      else PassedOn s t)

/-- R242: an illegal target of JMP or BRA traps at the branch, in every lane with that cause, TADDR the target: PROT
with SUB 0 at 2^52 and above, ALIGN with SUB 4 where it is no multiple of 4. -/
def Obligations.IllegalTargetsTrap : Prop :=
  ∀ p ∈ [(Instr.jmp, fun (w : CtlW) (s : State) => s.jumpSource w.a), (.bra, fun w s _ => s.target w.off)],
  ∀ (w : CtlW) (s : State) (r : Raise) (rs : List Raise),
    ((s.active w.ctl).filterMap fun l => targetRaise l (p.2 w s l)) = r :: rs →
    (exec (p.1 w) s = .next (s.enterTrap s.key r.cause r.sub
      (maskOf (((r :: rs).filter fun x => x.cause = r.cause).map (·.lane))) r.addr s.cur.va)) ∧
    (2 ^ 52 ≤ r.addr.toNat → r.cause = 0x06 ∧ r.sub = 0) ∧
    (r.addr.toNat < 2 ^ 52 → r.cause = 0x05 ∧ r.sub = 4 ∧ r.addr.toNat % 4 ≠ 0)

/-- R247, R248: CALL and CALLI slide the window of each executing lane up by N, write the link into v30 and v31, and go
to the target, where the spills that this takes succeed. Rests on the model's choice of assumption 9. -/
def Obligations.CallsComplete : Prop :=
  ∀ (w : CtlW) (s s1 : State), 2 ≤ s.cw.stk →
    s.slideWaits s.key w.ty.toNat (s.active w.ctl) = false →
    s.spillAll s.key w.ty.toNat s.cur.va (s.active w.ctl) = (s1, []) →
    let called := fun (t : State) (target : Nat → Word) => Entered s s1 ∧ OnlyLanes s1 t ∧
      ∀ l ∈ s.active w.ctl,
        (t.cw.lane l).pc = target l ∧ (t.cw.lane l).wb = (s.cw.lane l).wb + w.ty.toNat ∧
        (t.cw.lane l).lo = max (s.cw.lane l).lo ((s.cw.lane l).wb + w.ty.toNat + 32 - s.cw.stk) ∧
        (t.cw.lane l).v s.cw.stk 30 = linkLo s.nextVa ∧ (t.cw.lane l).v s.cw.stk 31 = linkHi w.ty.toNat s.nextVa
    ((∀ l ∈ s.active w.ctl, targetRaise l (s.target w.off) = none) →
      ∃ t, exec (.call w) s = .next t ∧ called t fun _ => s.target w.off) ∧
    ((∀ l ∈ s.active w.ctl, targetRaise l (s.jumpSource w.a l) = none) →
      ∃ t, exec (.calli w) s = .next t ∧ called t (s.jumpSource w.a))

/-- R246, R248: RET in lanes with a legal link and readable slots, where the core has room for the fills, slides the
window down and goes to the link. The link that a call writes is one that RET takes, and RET undoes the slide: the
window base and the next word's VA come back. -/
def Obligations.RetCompletes : Prop :=
  (∀ (w : CtlW) (s : State), (∀ l ∈ s.active w.ctl, s.retRaise l = none) →
    s.roomFor s.cur.core ((s.active w.ctl).map fun l => (s.retFills l).length).sum = true →
    ∃ t, exec (.ret w) s = .next t ∧ SameBytes s t ∧
      (∀ l ∈ s.active w.ctl,
        let x := s.cw.lane l
        (t.cw.lane l).pc = linkVa (x.v s.cw.stk 30) (x.v s.cw.stk 31) ∧
        (t.cw.lane l).wb = x.wb - linkRot (x.v s.cw.stk 31) ∧
        (t.cw.lane l).lo = min x.lo (x.wb - linkRot (x.v s.cw.stk 31)) ∧ (t.cw.lane l).regs = x.regs) ∧
      ∀ l ∈ s.lanes, l ∉ s.active w.ctl → TimesOnly { s.cw.lane l with pc := s.nextVa } (t.cw.lane l)) ∧
  ∀ (s : State) (n stk l : Nat) (t : Word) (x : Lane), n ∈ [8, 16, 24] → 2 ≤ stk → s.nextVa.toNat < 2 ^ 52 →
    let y := s.calledLane n t stk l x
    linkOk (y.v stk 31) = true ∧ (returnedLane stk y).wb = x.wb ∧ (returnedLane stk y).pc = s.nextVa

/-- R249: FRAME writes the window base, the registers below it that are held, or the room left; SPILL moves the
oldest registers out and FILL brings the nearest back, without moving the window. -/
def Obligations.WindowInstructionsComplete : Prop :=
  (∀ (w : CtlW) (s : State) (n : Fin 32), w.dst = .v n → 2 ≤ s.cw.stk →
    ∃ t, exec (.frame w) s = .next t ∧ OnlyLanes s t ∧ ∀ l ∈ s.active w.ctl,
      let x := s.cw.lane l
      (t.cw.lane l).v s.cw.stk n = BitVec.ofNat 32 (if w.ty = 0 then x.wb else if w.ty = 1 then x.wb - x.lo
        else (s.gridOf s.key).stksize / 4 - x.wb - 32) ∧ (t.cw.lane l).pc = s.nextVa ∧
      ∀ i, i ≠ x.phys s.cw.stk n → lookD i 0 (t.cw.lane l).regs = lookD i 0 x.regs) ∧
  (∀ (w : CtlW) (s s1 : State),
    (∀ l ∈ s.active w.ctl, ∀ L ∈ s.spillList w.a l, s.vPending s.key l L = none) →
    s.roomFor s.cur.core ((s.active w.ctl).map fun l => (s.spillList w.a l).length).sum = true →
    s.spillLists (s.spillList w.a) (s.active w.ctl) = (s1, []) →
    ∃ t, exec (.spill w) s = .next t ∧ Entered s s1 ∧ OnlyLanes s1 t ∧ ∀ l ∈ s.active w.ctl,
      let x := s.cw.lane l
      (t.cw.lane l).lo = x.lo + min (s.count w.a l) (x.wb - x.lo) ∧ (t.cw.lane l).wb = x.wb ∧
      (t.cw.lane l).regs = x.regs ∧ (t.cw.lane l).pc = s.nextVa) ∧
  (∀ (w : CtlW) (s : State), (∀ l ∈ s.active w.ctl, s.fillFault s.key l (s.fillList w.a l) = none) →
    s.roomFor s.cur.core ((s.active w.ctl).map fun l => (s.fillList w.a l).length).sum = true →
    ∃ t, exec (.fill w) s = .next t ∧ SameBytes s t ∧ ∀ l ∈ s.active w.ctl,
      let x := s.cw.lane l
      (t.cw.lane l).lo = x.lo - min (s.count w.a l) (min x.lo ((s.cw.stk - 32) - (x.wb - x.lo))) ∧
      (t.cw.lane l).wb = x.wb ∧ (t.cw.lane l).regs = x.regs ∧ (t.cw.lane l).pc = s.nextVa)

/-- R250: MEET sets the meeting address of each executing lane and hands the old one to the pair that DST names. -/
def Obligations.MeetsComplete : Prop :=
  let met := fun (w : CtlW) (s t : State) (m : Nat → Word) => OnlyLanes s t ∧ ∀ l ∈ s.lanes,
    let x := s.cw.lane l
    let y := t.cw.lane l
    if ctlHolds w.ctl x then y.meet = m l ∧ y.pc = s.nextVa ∧
      (match w.dst with
       | .v n => y.vPair s.cw.stk n = x.meet ∧ ∀ i, i ∉ resultRegs s.cw.stk n 16 x → lookD i 0 y.regs = lookD i 0 x.regs
       | _ => y.regs = x.regs)
    else Passed s x y
  (∀ (w : CtlW) (s : State), 2 ≤ s.cw.stk → ∃ t, exec (.meet w) s = .next t ∧ met w s t fun _ => s.target w.off) ∧
  (∀ (w : CtlW) (s : State), 2 ≤ s.cw.stk → ∃ t, exec (.meetReg w) s = .next t ∧ met w s t (s.jumpSource w.a))

namespace Sys2Proof.Claims

/-- A time register that YIELDT and TWAIT are satisfied by: it carries no request, or its request has ended (R82,
R94). -/
def Settled (x : Lane) (n : Nat) : Prop :=
  (look n x.treq).isNone ∨ tstate (x.treg n) = stDone ∨ stError ≤ tstate (x.treg n)

end Sys2Proof.Claims

/-- R252, R253, R94: EXIT ends the executing lanes, outside handler mode, and takes them out of every mask, the other
issuing lanes going on; in handler mode it traps with PRIV. YIELD sends the executing lanes to sleep for its count of
cycles, at most 65,535, and where that is 0 they go on. YIELDT and TWAIT go on to the next word where the time register
of every executing lane carries no request or its request has ended; a lane whose request is pending stays at the
instruction, asleep or in the issue pool, and one whose request is at a fault is parked there. -/
def Obligations.WaitsComplete : Prop :=
  (∀ (w : CtlW) (s : State),
    (s.active w.ctl = [] → ∃ t, exec (.exit w) s = .next t ∧ PassedOn s t) ∧
    (s.active w.ctl ≠ [] → s.cw.hmode = false → ∃ t, exec (.exit w) s = .next t ∧ SameBytes s t ∧
      t = { s with wefts := t.wefts, teams := t.teams, cores := t.cores } ∧
      (∀ l ∈ s.active w.ctl, (t.cw.lane l).exited = true ∧ (t.cw.lane l).wait = .none ∧
        ∀ k, k < 12 → (t.cw.kmem k).getLsbD l = false ∧ (t.cw.karr k).getLsbD l = false) ∧
      ∀ l ∈ s.lanes, l ∉ s.active w.ctl →
        (t.cw.lane l).pc = s.nextVa ∧ (t.cw.lane l).exited = (s.cw.lane l).exited) ∧
    (s.active w.ctl ≠ [] → s.cw.hmode = true → exec (.exit w) s =
      .next (s.enterTrap s.key 0x04 0 (maskOf (s.active w.ctl)) s.cur.va s.cur.va))) ∧
  (∀ (w : CtlW) (s : State),
    let n := min (s.count w.a s.lead) 65535
    ∃ t, exec (.yield w) s = .next t ∧ OnlyWeft s t ∧ ∀ l ∈ s.lanes, t.cw.lane l =
      if l ∈ s.active w.ctl ∧ n ≠ 0 then
        { s.cw.lane l with pc := s.nextVa, wait := .sleepUntil ((s.core s.cur.core).cyc + n) }
      else { s.cw.lane l with pc := s.nextVa }) ∧
  (∀ (w : CtlW) (s : State), (∀ l ∈ s.active w.ctl, Settled (s.cw.lane l) w.a.num) →
    (∃ t, exec (.yieldt w) s = .next t ∧ PassedOn s t) ∧ ∃ t, exec (.twait w) s = .next t ∧ PassedOn s t) ∧
  ∀ (w : CtlW) (s : State),
    let stays := fun (t : State) (parked : Wait) (waits : Nat → Wait) => OnlyLanes s t ∧ ∀ l ∈ s.active w.ctl,
      let x := s.cw.lane l
      let st := tstate (x.treg w.a.num)
      ((look w.a.num x.treq).isSome → st = stFault →
        t.cw.lane l = { x with pc := s.cur.va, wait := parked }) ∧
      ((look w.a.num x.treq).isSome → st = stBooked ∨ st = stLate ∨ st = stOpen →
        t.cw.lane l = { x with pc := s.cur.va, wait := waits l }) ∧
      (Settled x w.a.num → t.cw.lane l = { x with pc := s.nextVa })
    (∃ t, exec (.yieldt w) s = .next t ∧
      stays t (.park (some w.a.num)) fun l => .treg w.a.num (tstate ((s.cw.lane l).treg w.a.num) = stLate)) ∧
    ∃ t, exec (.twait w) s = .next t ∧ stays t (.parkPool w.a.num) fun l => (s.cw.lane l).wait

/-- A fetch kept its block and its walk at the core, and nothing else changed (R27, R53). -/
def Sys2Proof.Claims.FetchKept (s t : State) : Prop :=
  t = { s with cores := t.cores, l2 := t.l2, msc := t.msc, rows := t.rows } ∧
  ∀ c, t.core c = { s.core c with icache := (t.core c).icache, tlb := (t.core c).tlb, walkc := (t.core c).walkc }

/-- R259, R297: SLDLIT and VLDLIT, where the literal can be fetched, give its bytes as one little-endian value. -/
def Obligations.LiteralsComplete : Prop :=
  ∀ (w : CtlW) (s : State) (va pa : Nat) (bs : List Byte) (wk : WalkRes),
    s.literal w.off (tyWidth w.ty.toNat / 8) = (va, .bytes bs pa wk) →
    (∀ n : Fin 128, w.dst = .s n → ∃ s1 t, exec (.sldlit w) s = .next t ∧ FetchKept s s1 ∧
      UniformDone s1 t w.ctl n w.ty.toNat (leNat bs)) ∧
    (∀ n : Fin 32, w.dst = .v n → 2 ≤ s.cw.stk → ∃ s1 t, exec (.vldlit w) s = .next t ∧ FetchKept s s1 ∧
      LaneResult s1 t w.ctl n w.ty.toNat fun _ => leNat bs)

/-- R311: FPACK places the code of a scaled FP32 value and keeps the other bits of its destination; FUNPK gives the
FP32 value of a code; a control word that R311 refuses traps with ILLFLD, SUB 48, in the executing lanes. -/
def Obligations.NarrowComplete : Prop :=
  ∀ (w : AluW) (s : State) (n : Fin 32), w.dst = .v n → 2 ≤ s.cw.stk →
    let c := s.full s.lead w.b 7
    let f := s.narrowOf c
    let cw := narrowCw w.ty.toNat
    let pos := cw * bits c 4 3
    let scale : Int := (bits c 8 8 : Int) - 127
    (s.narrowBad w.ty.toNat c = false →
      (∃ t, exec (.fpack w) s = .next t ∧ LaneResult s t w.ctl n 15 fun l =>
        setBits ((s.cw.lane l).v s.cw.stk n).toNat pos cw (f.encode w.rm.toNat w.sat
          (if bits c 8 8 = 255 then .nan else (f32Fmt.decode (s.val l w.a 11)).scale (-scale)))) ∧
      ∃ t, exec (.funpk w) s = .next t ∧ LaneResult s t w.ctl n 15 fun l =>
        if bits c 8 8 = 255 then 0x7FC00000
        else f32Fmt.encode 0 false ((f.decode (bits (s.val l w.a 15) pos cw)).scale scale)) ∧
    (s.narrowBad w.ty.toNat c = true → s.active w.ctl ≠ [] →
      ∀ i ∈ [Instr.fpack, Instr.funpk], exec (i w) s =
        .next (s.enterTrap s.key 2 48 (maskOf (s.active w.ctl)) s.cur.va s.cur.va))

/-- R297, R82: MOV into a time register of each executing lane: the register holds the image written, where a STATE of
7 or more is written as 0, and carries no request. R258: ZOP combines two z sources, tests a value for zero, or takes
a bit of it. -/
def Obligations.TimeAndZWritesComplete : Prop :=
  (∀ (w : AluW) (s : State) (n : Fin 4), w.dst = .t n →
    ∃ t, exec (.mov w) s = .next t ∧ OnlyLanes s t ∧ ∀ l ∈ s.lanes,
      let x := s.cw.lane l
      let y := BitVec.ofNat 32 (s.val l w.a w.ty.toNat)
      if ctlHolds w.ctl x then t.cw.lane l = { x with
        pc := s.nextVa, t := put n (if 7 ≤ tstate y then timage 0 (tvalue y) else y) x.t, treq := del n x.treq }
      else Passed s x (t.cw.lane l)) ∧
  ∀ (w : AluW) (s : State), ∃ t, exec (.zop w) s = .next t ∧
    let a := s.raw s.lead w.a false = 1
    let b := s.raw s.lead w.b false = 1
    if ctlHoldsU w.ctl s.cw then ∃ r, ZResult s t w.dst.num r ∧
      (w.ty = 0 → (r = true ↔ a ∧ b)) ∧ (w.ty = 1 → (r = true ↔ a ∨ b)) ∧ (w.ty = 2 → (r = true ↔ ¬(a ↔ b))) ∧
      (w.ty = 3 → (r = true ↔ a ∧ ¬b)) ∧ (w.ty = 4 → (r = true ↔ s.val s.lead w.a 16 ≠ 0)) ∧
      (w.ty = 5 → r = (s.val s.lead w.a 16).testBit (s.val s.lead w.b 15 % 64))
    else PassedOn s t

/-- R260: SGETL reads a register of any lane into s(n), 0 where the lane number is W or more; SPUTL writes a register
of one lane and pushes the value in every issuing lane. -/
def Obligations.TransfersComplete : Prop :=
  (∀ (w : AluW) (s : State) (n : Fin 128), w.dst = .s n → s.getlMark w = none →
    (∀ i, i < w.wd / 32 → s.vPending s.key (s.laneIdx w) ((s.cw.lane (s.laneIdx w)).wb + w.a.num + i) = none) →
    ∃ t, exec (.sgetl w) s = .next t ∧ UniformDone s t w.ctl n w.ty.toNat
      (if s.cw.width ≤ s.laneIdx w then 0
       else applyMod w.ty.toNat w.a.md (hiHalf w.a (if w.wd = 64
         then ((s.cw.lane (s.laneIdx w)).vPair s.cw.stk w.a.num).toNat
         else ((s.cw.lane (s.laneIdx w)).v s.cw.stk w.a.num).toNat)))) ∧
  (∀ (w : AluW) (s : State), 2 ≤ s.cw.stk → ctlHoldsU w.ctl s.cw = true →
    s.vHeld s.key (s.laneIdx w) w.dst.num (w.wd / 32) = false →
    let v := s.val s.lead w.a w.ty.toNat
    ∃ t, exec (.sputl w) s = .next t ∧ OnlyWeft s t ∧ t.cw = { s.cw with lanes := t.cw.lanes } ∧ ∀ l,
      let x := s.cw.lane l
      let y := t.cw.lane l
      (if l ∈ s.lanes then y.pc = s.nextVa ∧ y.lat = (resultV w.ty.toNat v :: x.lat).take 4
       else y.pc = x.pc ∧ y.lat = x.lat) ∧
      y = { x with pc := y.pc, lat := y.lat, regs := y.regs, dstMarks := y.dstMarks } ∧
      if l = s.laneIdx w ∧ l < s.cw.width ∧ w.ctl.n = false then
        Holds s.cw.stk w.dst.num w.ty.toNat v y ∧
        ∀ i, i ∉ resultRegs s.cw.stk w.dst.num w.ty.toNat x → lookD i 0 y.regs = lookD i 0 x.regs
      else y.regs = x.regs)

/-- R168, R261, R263, R264: SMOVC of a register whose write is allowed. Trap registers and accumulator owners read back
what was written; FOLD.T keeps the fold selected; a write with a step of its own is under way, and holds the weft.
Rests on the model's choices of assumptions 14 and 15. -/
def Obligations.SmovcCompletes : Prop :=
  ∀ (w : AluW) (s : State), ctlHoldsU w.ctl s.cw = true →
    let n := s.full s.lead w.a 7
    let val := s.val s.lead w.b 16
    s.ctrlCheck s.key n val = none →
    ∃ t, exec (.smovc w) s = .next t ∧ SameBytes s t ∧
      (n ≠ 0x016 → ∀ l ∈ s.lanes, Passed s (s.cw.lane l) (t.cw.lane l)) ∧
      (n ∈ [0x010, 0x011, 0x012, 0x013, 0x014, 0x015] → OnlyWeft s t ∧ t.ctrlReg s.key n = val) ∧
      (0x200 ≤ n ∧ n < 0x240 → t.ctrlReg s.key n = val) ∧
      (n = 0x040 → OnlyWeft s t ∧ t.cw.foldSel = BitVec.ofNat 6 (bits val 32 6)) ∧
      (regDeferred n = true →
        t.pwrites = s.pwrites ++ [⟨s.nextId, n, s.key / 64, some s.key, s.ctxOf s.key, BitVec.ofNat 64 val⟩] ∧
        t.cw.hold = .pwrite s.nextId ∧ t.ctrlReg s.key n = s.ctrlReg s.key n)

/-- R170: outside handler mode, with a handler table and its spills possible, taking a trap saves the cause with its
SUB, the VA of the instruction, the lanes and the address; notes the privilege and enters handler mode, HALTPEND set
where a stop is asked of the team; slides the window of each trapping lane up by 32 and sends it to the table's slot
for the cause; holds every other lane that has not exited where it is; and ends the decision. The spills alone enter
the machine. Rests on the model's choice of assumption 9. -/
def Obligations.TrapEntry : Prop :=
  ∀ (s s1 : State) (cause sub : Nat) (mask : LaneMask) (addr epc : Word),
    s.cw.hmode = false → s.cw.tbase ≠ 0 → s.slideWaits s.key 32 (lanesOf mask) = false →
    s.spillAll s.key 32 epc (lanesOf mask) = (s1, []) →
    let t := s.enterTrap s.key cause sub mask addr epc
    Entered s s1 ∧ t = { s1 with wefts := t.wefts, issuing := false } ∧ (∀ k, k ≠ s.key → t.weft k = s.weft k) ∧
    t.cw.tcause = BitVec.ofNat 64 (256 * sub + cause) ∧ t.cw.tepc = epc &&& 0xFFFFFFFFFFFFF ∧ t.cw.tlanes = mask ∧
    t.cw.taddr = addr ∧ t.cw.prevPriv = s.privOf s.key ∧ t.cw.hmode = true ∧
    t.cw = { s1.cw with
      lanes := t.cw.lanes, tcause := t.cw.tcause, tepc := t.cw.tepc, tlanes := mask, taddr := addr,
      prevPriv := t.cw.prevPriv, hmode := true, haltPend := s.stopAsked s.key } ∧
    (∀ l ∈ lanesOf mask, (t.cw.lane l).pc = s.cw.tbase + BitVec.ofNat 64 (64 * cause) ∧
      (t.cw.lane l).wb = (s.cw.lane l).wb + 32 ∧ (t.cw.lane l).wait = .none) ∧
    ∀ l, l ∉ lanesOf mask → (look l s1.cw.lanes).isSome = true → t.cw.lane l =
      if (s1.cw.lane l).exited then s1.cw.lane l else { s1.cw.lane l with susp := true }

/-- R170: a trap in handler mode or without a handler freezes the weft, tells the tenant, and leaves every other
register as it was; a spill that fails during entry freezes it with SPILLFLT, the cause of the failure as SUB and
its VA in TADDR. Rests on the model's choice of assumption 9. -/
def Obligations.TrapFreezes : Prop :=
  ∀ (s : State) (cause sub : Nat) (mask : LaneMask) (addr epc : Word),
    let t := s.enterTrap s.key cause sub mask addr epc
    (s.cw.hmode = true ∨ s.cw.tbase = 0 →
      t = { s with wefts := t.wefts, tenants := (s.interrupt (s.gridOf s.key).tenant 2).tenants, issuing := false } ∧
      (∀ k, k ≠ s.key → t.weft k = s.weft k) ∧ t.cw = { s.cw with ncause := BitVec.ofNat 8 cause, frozen := true }) ∧
    (s.cw.hmode = false → s.cw.tbase ≠ 0 → s.slideWaits s.key 32 (lanesOf mask) = false →
      ∀ s0 r0 rs0, s.spillAll s.key 32 epc (lanesOf mask) = (s0, r0 :: rs0) →
        ∀ s1 r, s.enterUpTo s.key cause s.cw.tbase epc (lanesOf mask) = (s1, some r) →
        SameBytes s t ∧ (∀ k, k ≠ s.key → t.weft k = s.weft k) ∧ t.cw.frozen = true ∧ t.cw.ncause = 0x16 ∧
        t.cw.tepc = epc &&& 0xFFFFFFFFFFFFF ∧ t.cw.tlanes = mask ∧ t.cw.hmode = true ∧
        t.cw.prevPriv = s.privOf s.key ∧ t.cw.taddr = r.addr ∧
        t.cw.tcause = BitVec.ofNat 64 (setBits (256 * sub + cause) 8 8 (if r.cause = 0x16 then r.sub else r.cause)) ∧
        (∀ l ∈ lanesOf mask, l < r.lane → (t.cw.lane l).pc = s.cw.tbase + BitVec.ofNat 64 (64 * cause) ∧
          (t.cw.lane l).wb = (s.cw.lane l).wb + 32) ∧
        ∀ l ∈ lanesOf mask, r.lane ≤ l → (t.cw.lane l).wb = (s.cw.lane l).wb ∧ (t.cw.lane l).pc = (s.cw.lane l).pc)

/-- R254, R171: BRK and TRAP raise BREAK and SWTRAP in the executing lanes, with the safe-point ordinal and the operand
in TADDR; TRET in handler mode, where its fills can be made, returns each lane of TLANES to TEPC with its window
back, releases the suspended lanes and leaves handler mode; outside it traps with PRIV. Rests on the model's choice
of assumption 9. -/
def Obligations.TrapWordsComplete : Prop :=
  ∀ (w : CtlW) (s : State),
    (s.active w.ctl ≠ [] →
      exec (.brk w) s = .next (s.enterTrap s.key 0x10 0 (maskOf (s.active w.ctl))
        (BitVec.ofNat 64 (s.ordinalOf s.key s.cur.va)) s.cur.va) ∧
      exec (.trap w) s = .next (s.enterTrap s.key 0x0F 0 (maskOf (s.active w.ctl))
        (BitVec.ofNat 64 (s.val s.lead w.a 16)) s.cur.va)) ∧
    (s.active w.ctl = [] → ∀ i ∈ [Instr.brk, Instr.trap], ∃ t, exec (i w) s = .next t ∧ PassedOn s t) ∧
    (s.cw.hmode = true → (∀ l ∈ lanesOf s.cw.tlanes, 32 ≤ (s.cw.lane l).wb ∧
        s.fillFault s.key l (span ((s.cw.lane l).wb - 32) (s.cw.lane l).lo) = none) →
      s.roomFor (s.key / 64) ((lanesOf s.cw.tlanes).map fun l =>
        (s.cw.lane l).lo - ((s.cw.lane l).wb - 32)).sum = true →
      ∃ t, exec (.tret w) s = .next t ∧ SameBytes s t ∧ t.cw.hmode = false ∧ t.cw.haltPend = false ∧
        (∀ k, k ≠ s.key → t.weft k = s.weft k) ∧
        t.cw = { s.cw with lanes := t.cw.lanes, sq := t.cw.sq, hmode := false, haltPend := false } ∧
        ∀ l, (look l s.cw.lanes).isSome = true → (t.cw.lane l).susp = false ∧
          (t.cw.lane l).regs = (s.cw.lane l).regs ∧
          if l ∈ lanesOf s.cw.tlanes then
            (t.cw.lane l).pc = s.cw.tepc ∧ (t.cw.lane l).wb = (s.cw.lane l).wb - 32 ∧ (t.cw.lane l).wait = .none
          else (t.cw.lane l).pc = (s.cw.lane l).pc ∧ (t.cw.lane l).wb = (s.cw.lane l).wb ∧
            (t.cw.lane l).wait = (s.cw.lane l).wait) ∧
    (s.cw.hmode = false → exec (.tret w) s =
      .next (s.enterTrap s.key 0x04 0 s.cur.lanes s.cur.va s.cur.va))

/-- R169, R172, R324, R331 to R335: the privileged words trap with PRIV in every lane of the decision where the weft is
not privileged, and WRD and WWR where it is not in handler mode. -/
def Obligations.PrivilegeTraps : Prop :=
  ∀ (w : EngW) (s : State),
    let trap := .next (s.enterTrap s.key 0x04 0 s.cur.lanes s.cur.va s.cur.va)
    (s.privOf s.key = false → ∀ i ∈ [Instr.fresume, .genbump, .tlbinv, .snap, .asave, .arest], exec (i w) s = trap) ∧
    (s.cw.hmode = false → ∀ i ∈ [Instr.wrd, .wwr], exec (i w) s = trap)

namespace Sys2Proof.Claims

/-- How a memory word asks: operation, alignment, bytes checked, size of a value, kind of access, whether one access
stands for the whole weft, and its accesses (R79, R268). -/
structure Asking where
  op : ReqOp
  al : Nat
  n : Nat
  size : Nat
  acc : Acc
  uniform : Bool
  xs : List Access

/-- Loads, tag reads, atomics, cell adds and waits, each with what it asks (R269 to R274, R279). -/
def askings : List ((MemW → Instr) × (MemW → State → Asking)) := [
  (.ld, fun w s => ⟨.load (tySigned w.ty.toNat), w.bytes, w.bytes, w.bytes, .read, false,
    s.accesses w false (fun _ => 0) fun _ => 0⟩),
  (.ldu, fun w s => ⟨.load (tySigned w.ty.toNat), w.bytes, w.bytes, w.bytes, .read, true,
    s.accesses w true (fun _ => 0) fun _ => 0⟩),
  (.ldtag, fun w s => ⟨.ldtag, 64, 64, 1, .ldtag, false, s.accesses w false (fun _ => 0) fun _ => 0⟩),
  (.atom, fun w s => ⟨.atom w.subop.toNat, w.bytes, w.bytes, w.bytes, .atom, false,
    s.accesses w false (fun l => s.val l w.b w.ty.toNat) (oldGroup w s)⟩),
  (.atomu, fun w s => ⟨.atom w.subop.toNat, w.bytes, w.bytes, w.bytes, .atom, true,
    s.accesses w true (fun l => s.val l w.b w.ty.toNat) (oldGroup w s)⟩),
  (.cas, fun w s => ⟨.cas, w.bytes, w.bytes, w.bytes, .atom, false,
    s.accesses w false (fun l => s.val l w.b w.ty.toNat) (oldGroup w s)⟩),
  (.cadd, fun w s => ⟨.cadd, 32, 32, w.bytes, .cadd, false,
    s.accesses w false (fun l => s.val l w.b w.ty.toNat) fun _ => 0⟩),
  (.waitc, fun w s => ⟨.waitc w.subop.toNat, w.bytes, w.bytes, w.bytes, .waitc, false,
    s.accesses w false (fun l => s.val l w.b w.ty.toNat) fun _ => 0⟩)]
where
  /-- The destination group as it was, which CAS compares (R273). -/
  oldGroup (w : MemW) (s : State) (l : Nat) : Nat :=
    match w.dst with | .v n => s.groupVal l (.v n 0 0) w.bytes | _ => 0

/-- A store that its target takes (R18, R119, R128): a command word with bits [31:10] zero, a ring register write that
passes its checks. -/
def Storable (s : State) (x : Access) : Tgt → Prop
  | .aperture _ => bits x.x 10 22 = 0
  | .ctlWin off => off < 0x12000 ∨
      s.ringCheck s.cw.team s.cur.core ((off - 0x12000) / 0x30) ((off - 0x12000) % 0x30 / 8) x.x = none
  | _ => True

end Sys2Proof.Claims

/-- R79, R268 to R274, R279: a load, tag read, atomic, cell add or wait whose accesses pass their checks enters the
machine: a request for each access, and no byte changes yet. -/
def Obligations.AccessesComplete : Prop :=
  (∀ p ∈ askings, ∀ (w : MemW) (s : State) (tg : Nat → Tgt),
    let a := p.2 w s
    (∀ x ∈ a.xs, ∃ wk, s.check (s.agent s.key x.lane) x.va a.al a.n a.acc = .ok (tg x.lane) wk) →
    (∀ x ∈ a.xs, (tg x.lane).isSo = true → s.soPending s.key x.lane = false) →
    s.outstanding s.cur.core + a.xs.length ≤ Config.maxRequests →
    ∃ t, exec (p.1 w) s = .next t ∧ AllAsked w s t a.op a.size a.uniform a.xs tg) ∧
  (∀ (w : MemW) (s : State) (tg : Nat → Tgt),
    let xs := s.accesses w false (fun l => s.val l w.b 5 % 2 ^ 16) fun _ => 0
    (∀ x ∈ xs, tagBad x.x = false ∧ (match tg x.lane with | .mem pa _ => isHost pa = false | _ => True) ∧
      ∃ wk, s.check (s.agent s.key x.lane) x.va 64 64 .sttag = .ok (tg x.lane) wk) →
    (∀ x ∈ xs, (tg x.lane).isSo = true → s.soPending s.key x.lane = false) →
    s.outstanding s.cur.core + xs.length ≤ Config.maxRequests →
    ∃ t, exec (.sttag w) s = .next t ∧ AllAsked w s t .sttag 1 false xs tg)

/-- R102, R266, R269: a store whose accesses pass their checks enters the Store Queue, with its address and its data;
no byte of memory changes until it drains. -/
def Obligations.StoresComplete : Prop :=
  ∀ p ∈ [(Instr.st, false), (Instr.stu, true)], ∀ (w : MemW) (s : State) (tg : Nat → Tgt),
    let xs := s.accesses w p.2 (fun l => s.storeData l w.b w.ty.toNat w.bytes) fun _ => 0
    (∀ x ∈ xs, Storable s x (tg x.lane) ∧ ∃ wk, s.mustWait true [(x, tg x.lane, wk)] = false ∧
      s.check (s.agent s.key x.lane) x.va w.bytes w.bytes .write = .ok (tg x.lane) wk) →
    s.outstanding s.cur.core + xs.length ≤ Config.maxRequests →
    ∃ t, exec (p.1 w) s = .next t ∧ AllQueued w s t xs tg

/-- R78, R80, R82, R83: at the issue of a request its time register, in each lane of it, carries the request and is
BOOKED at the promised cycle or OPEN at the cycle of issue; a booking is never earlier than the level's idle figure.
Rests on the model's choices of assumptions 8 and 17. -/
def Obligations.TimeAtIssue : Prop :=
  ∀ (s : State) (r : Req) (walked : Bool) (n : Nat), r.tsel = some n →
    let t := s.placeLoad r walked
    ∀ l ∈ lanesOf r.lanes,
      let x := (t.weft r.key).lane l
      lookD n 0 x.treq = r.id ∧ look n x.broken = none ∧
      (x.treg n = timage stOpen r.start ∨
       ∃ level p, s.coreBooks r = some level ∧ r.issued + Config.idleFigure level 0 + r.extra ≤ p ∧
         x.treg n = timage stBooked p)

/-- R274, R276 to R278: CLRC asks for each lane's range of cells, if it has any; PREF and CMO never trap, and ask for
the lanes whose line they act on; LCK asks for each lane's line; ULCK drops the pins of the context. Rests on the
model's choice of assumption 38. -/
def Obligations.LinesComplete : Prop :=
  (∀ (w : MemW) (s : State) (tg : Nat → Nat → Tgt),
    (∀ l ∈ s.active w.ctl, s.val l w.b 5 ≤ 65536 ∧
      (s.val l w.b 5 = 0 → ∃ wk, s.check (s.agent s.key l) (s.ea w l) 32 32 .clrc = .ok (tg l 0) wk) ∧
      ∀ c ∈ s.clrcCheck l (s.ea w l).toNat (s.val l w.b 5), ∃ wk, c.2 = .ok (tg l c.1.va.toNat) wk) →
    s.outstanding s.cur.core + (s.active w.ctl).length ≤ Config.maxRequests →
    ∃ t, exec (.clrc w) s = .next t ∧ Entered s.advance t ∧ ∀ l ∈ s.active w.ctl, 0 < s.val l w.b 5 → ∃ q ∈ t.reqs,
      IsOf w s .clrc 32 q ∧ ∀ p ∈ clrcPieces (s.ea w l).toNat (s.val l w.b 5), ∃ y ∈ q.parts,
        y.lane = l ∧ y.va = (BitVec.ofNat 64 p.1).toNat ∧ y.x = p.2) ∧
  (∀ (w : MemW) (s : State), s.outstanding s.cur.core + (s.active w.ctl).length ≤ Config.maxRequests →
    (∃ t, exec (.pref w) s = .next t ∧ Entered s.advance t ∧ ∀ l ∈ s.active w.ctl, ∀ pa k wk,
      s.softTarget (s.agent s.key l) (s.ea w l).toNat = some (.mem pa k, wk) → k ≠ .so → isHost pa = false →
      ∃ q ∈ t.reqs, IsOf w s .pref 1 q ∧ ∃ y ∈ q.parts, y.lane = l ∧ y.va = (s.ea w l).toNat ∧ y.tgt = .mem pa k) ∧
    (∃ t, exec (.cmo w) s = .next t ∧ Entered s.advance t ∧ ∀ l ∈ s.active w.ctl, ∀ pa k wk,
      s.softTarget (s.agent s.key l) (s.ea w l).toNat = some (.mem pa k, wk) → k ≠ .so →
      (s.core s.cur.core).holdsLine (align (local46 pa) 128) = true →
      ∃ q ∈ t.reqs, IsOf w s (.cmo w.subop.toNat) 1 q ∧ ∃ y ∈ q.parts, y.lane = l ∧ y.tgt = .mem pa k)) ∧
  (∀ (w : MemW) (s : State) (tg : Nat → Tgt),
    (∀ l ∈ s.active w.ctl, ∃ wk, s.lckCheck (s.agent s.key l) (s.ea w l) = .ok (tg l) wk) →
    (s.outstanding s.cur.core + (s.active w.ctl).length ≤ Config.maxRequests →
      ∃ t, exec (.lck w) s = .next t ∧ Entered s.advance t ∧ ∀ l ∈ s.active w.ctl, ∃ q ∈ t.reqs,
        IsOf w s (.lck (w.scope = 3)) 1 q ∧ ∃ y ∈ q.parts, y.lane = l ∧ y.va = (s.ea w l).toNat ∧ y.tgt = tg l) ∧
    ∃ t, exec (.ulck w) s = .next t ∧ SameBytes s t ∧ t.reqs = s.reqs ∧ t.wefts = s.advance.wefts ∧
      ∀ l ∈ s.active w.ctl, ∀ line, pinLine (tg l) = some line →
        let pin := fun p : Pin => p.line = line ∧ p.ctx = s.ctxOf s.key
        if w.scope = 3 then ∀ p ∈ t.l2pins, ¬pin p else ∀ p ∈ (t.core s.cur.core).pins, ¬pin p)

/-- R51, R87, R110, R275: a FENCE goes on when every executing lane's older accesses have performed to its scope, and
otherwise stays at its instruction; at a scope wider than the core's view no clean copy older than the acquire is
left, but those held for a booked delivery, which are dropped after it. Rests on the model's choice of assumption
39. -/
def Obligations.FenceCompletes : Prop :=
  ∀ (w : MemW) (s : State),
    ((∀ l ∈ s.active w.ctl, s.fenceWaits s.key l w.scope.toNat = false) →
      ∃ t, exec (.fence w) s = .next t ∧ SameBytes s t ∧ t.wefts = s.advance.wefts ∧
        t = { s with wefts := t.wefts, cores := t.cores } ∧
        (s.active w.ctl ≠ [] → s.wide s.key w.scope.toNat = true → ∀ e ∈ (t.core s.cur.core).view,
          e.2.dirty = false → (e.2.uo = false ∨ w.scope = 5) →
            e.2.doomed = true ∧ s.viewHeld s.cur.core e.1 = true)) ∧
    ((∃ l ∈ s.active w.ctl, s.fenceWaits s.key l w.scope.toNat = true) → exec (.fence w) s = .next s.turnAway)

namespace Sys2Proof.Claims

/-- A value sent to s(n), past the latches: the issuing lanes go on and nothing else changes. -/
def Sent (s t : State) (n y : Nat) : Prop :=
  OnlyWeft s t ∧ t.cw = { s.cw with lanes := t.cw.lanes, s := t.cw.s, sMarks := t.cw.sMarks } ∧
  (∀ m, t.cw.sreg m = if m = n then BitVec.ofNat 64 y else s.cw.sreg m) ∧
  (∀ l, l ∉ s.lanes → t.cw.lane l = s.cw.lane l) ∧ ∀ l ∈ s.lanes, Passed s (s.cw.lane l) (t.cw.lane l)

/-- A request made by the issuing weft for a lane, its operation and its operands. -/
def AskedOne (s t : State) (op : ReqOp) (d : ReqDst) (acq rel : Bool) (tsel : Option Nat) (lane va x : Nat) : Prop :=
  ∃ q ∈ t.reqs, s.nextId ≤ q.id ∧ q.key = s.key ∧ q.op = op ∧ q.dst = d ∧ q.acq = acq ∧ q.rel = rel ∧ q.tsel = tsel ∧
    ∃ y ∈ q.parts, y.lane = lane ∧ y.va = va ∧ y.x = x

/-- The wefts of a team that have not exited, and whether these arrivals complete the phase (R281). -/
def liveWefts (s : State) (team : Nat) : List Nat := (s.team team).wefts.filter fun k => !(s.weft k).allExited
def phaseOver (s : State) (team : Nat) (arrived : List Nat) : Prop :=
  liveWefts s team ≠ [] ∧ ∀ k ∈ liveWefts s team, (s.weft k).index ∈ arrived

/-- Class-U words of memory, and of engines, that a false z predicate skips (R205, R314). -/
def skippedMem : List (MemW → Instr) :=
  [.bar, .bara, .barw, .bari, .gget, .gset, .gadd, .rdone, .rstat, .fjoin, .fleave, .fset, .fld]
def skippedEng : List (EngW → Instr) :=
  [.chkw, .chkt, .mma, .mmas, .ald, .ast, .azero, .await, .oprdy, .phint, .tqadd, .launch, .launchi, .waitg, .halt]
def skippedPriv : List (EngW → Instr) := [.asave, .arest, .fresume, .genbump, .tlbinv, .snap]

end Sys2Proof.Claims

/-- R205, R314: a false z predicate skips a class-U word for the whole weft. -/
def Obligations.SkippedWords : Prop :=
  (∀ i ∈ skippedMem, ∀ (w : MemW) (s : State), ctlHoldsU w.ctl s.cw = false → ∃ t, exec (i w) s = .next t ∧ PassedOn s t) ∧
  (∀ i ∈ skippedEng, ∀ (w : EngW) (s : State), ctlHoldsU w.ctl s.cw = false → ∃ t, exec (i w) s = .next t ∧ PassedOn s t) ∧
  (∀ i ∈ skippedPriv, ∀ (w : EngW) (s : State), ctlHoldsU w.ctl s.cw = false → s.privOf s.key = true →
    ∃ t, exec (i w) s = .next t ∧ PassedOn s t) ∧
  ∀ i ∈ [Instr.wrd, Instr.wwr], ∀ (w : EngW) (s : State), ctlHoldsU w.ctl s.cw = false → s.cw.hmode = true →
    ∃ t, exec (i w) s = .next t ∧ PassedOn s t

/-- R281, R283: BAR arrives, and when every weft of the team that has not exited has arrived the phase advances and
releases every held lane; BARA and BARW ask of the object with the token; BARI, once the lane's acquires and older
accesses to the object are done, re-initialises it with the next generation, the count it is given and phase 0, and
gives the new token. Rests on the model's choice of assumption 42. -/
def Obligations.BarriersComplete : Prop :=
  (∀ (w : MemW) (s : State), ctlHoldsU w.ctl s.cw = true →
    (∀ l ∈ s.lanes, s.releaseReady s.key l s.nextId 1 = true) →
    let n := s.cw.team
    let arr := if s.cw.index ∈ (s.team n).arrived then (s.team n).arrived else (s.team n).arrived ++ [s.cw.index]
    ∃ t, exec (.bar w) s = .next t ∧ SameBytes s t ∧
      (phaseOver s n arr → t.team n = { s.team n with arrived := [], phase := (s.team n).phase + 1 } ∧
        ∀ k ∈ (s.team n).wefts, ∀ l, ((t.weft k).lane l).wait ≠ .barrier) ∧
      (¬phaseOver s n arr → t.team n = { s.team n with arrived := arr } ∧
        ∀ l ∈ s.lanes, t.cw.lane l = { s.cw.lane l with pc := s.nextVa, wait := .barrier })) ∧
  (∀ (w : MemW) (s : State) (tg : Nat → Tgt), ctlHoldsU w.ctl s.cw = true →
    let xs := s.accesses w true (fun _ => s.half w.b) fun _ => 0
    (∀ x ∈ xs, ∃ wk, s.check (s.agent s.key x.lane) x.va 16 16 .bar = .ok (tg x.lane) wk) →
    (∀ x ∈ xs, (tg x.lane).isSo = true → s.soPending s.key x.lane = false) →
    s.outstanding s.cur.core + xs.length ≤ Config.maxRequests →
    (∃ t, exec (.bara w) s = .next t ∧ AllAsked { w with ord := 2 } s t .bara 8 true xs tg) ∧
    ∃ t, exec (.barw w) s = .next t ∧ AllAsked { w with ord := 1 } s t .barw 8 true xs tg) ∧
  (∀ (w : MemW) (s : State) (n : Fin 128) (core off : Nat) (wk : WalkRes), ctlHoldsU w.ctl s.cw = true → w.dst = .s n →
    let x := s.word w.b
    1 ≤ x → x ≤ 65535 →
    s.check (s.agent s.key s.lead) (s.ea w s.lead) 16 16 .bar = .ok (.spad core off) wk →
    s.actsNow s.lead (s.ea w s.lead).toNat (.spad core off) 16 = true →
    let gen := (bits (mnum (s.core core).spad off 16) 48 16 + 1) % 2 ^ 16
    let old := mnum (s.core core).spad off 16
    ∃ t, exec (.bari w) s = .next t ∧ t.cw.sreg n = BitVec.ofNat 64 (gen * 2 ^ 16) ∧ (∀ a, mget t.mem a = mget s.mem a) ∧
      (∀ l ∈ s.lanes, Passed s (s.cw.lane l) (t.cw.lane l)) ∧
      ∀ c a, mget (t.core c).spad a = if c = core ∧ off ≤ a ∧ a < off + 16
        then (leBytes 16 (setBits old 0 64 (gen * 2 ^ 48 + x * 2 ^ 32))).getD (a - off) 0
        else mget (s.core c).spad a)

/-- R116, R284: GGET reads the issuing core's copy; GSET writes the Home and sends the value to every copy, unless a
weft of a higher index has written the register in this cycle: then that write survives, and where it was a GADD,
which has read the register already, the GSET waits; GADD asks for an addition at the Home. Rests on the model's
choice of assumption 36. -/
def Obligations.TeamRegistersComplete : Prop :=
  ∀ (w : MemW) (s : State), ctlHoldsU w.ctl s.cw = true →
    (s.gaddPending s.key = false → ∀ n : Fin 128, w.dst = .s n →
      ∃ t, exec (.gget w) s = .next t ∧ Sent s t n (s.greg s.key w.a.num).toNat) ∧
    (s.gaddPending s.key = false → s.gBehind s.cw.team w.dst.num s.cw.index = none →
      ∃ t, exec (.gset w) s = .next t ∧ SameBytes s t ∧ t.wefts = s.advance.wefts ∧
      (let tm := s.team s.cw.team
       let y := BitVec.ofNat 64 (s.val s.lead w.a 16)
       (t.team s.cw.team).gq = tm.gq ++ tm.cores.map (fun c => (c, w.dst.num, y)) ∧
       (∀ m, lookD m 0 (t.team s.cw.team).g = if m = w.dst.num then y else lookD m 0 tm.g) ∧
       (t.team s.cw.team).gcopy = tm.gcopy)) ∧
    (s.gaddPending s.key = false →
      (s.gBehind s.cw.team w.dst.num s.cw.index = some false → ∃ t, exec (.gset w) s = .next t ∧ PassedOn s t) ∧
      (s.gBehind s.cw.team w.dst.num s.cw.index = some true → exec (.gset w) s = .next s.turnAway)) ∧
    ∃ t, exec (.gadd w) s = .next t ∧ Entered s.advance t ∧
      AskedOne s t (.gadd w.a.num) (reqDst w.dst) w.acquires w.releases w.tnum s.lead 0 (s.val s.lead w.b 16)

/-- R127, R131, R285, R286: RPUT offers each lane's message to its target's port and RTAKE asks for a message of a ring
that the team owns; RDONE frees taken slots, as many as it is given at most; RSTAT reads the ring's counts. Rests on
the model's choice of assumption 14. -/
def Obligations.RingsComplete : Prop :=
  (∀ (w : MemW) (s : State), (∀ l ∈ s.active w.ctl, s.rputRaise w l = none) →
    s.outstanding s.cur.core + (s.active w.ctl).length ≤ Config.maxRequests →
    ∃ t, exec (.rput w) s = .next t ∧ Entered s.advance t ∧ ∀ l ∈ s.active w.ctl,
      AskedOne s t (.rput (s.val l w.a 16)) (reqDst w.dst) w.acquires true w.tnum l
        (BitVec.ofNat 64 (s.val l w.a 16)).toNat (s.raw l w.b false)) ∧
  (∀ (w : MemW) (s : State), s.word w.a ≤ 15 → s.ownsRing (s.word w.a) = true →
    s.outstanding s.cur.core + (s.active w.ctl).length ≤ Config.maxRequests →
    ∃ t, exec (.rtake w) s = .next t ∧ Entered s.advance t ∧ ∀ l ∈ s.active w.ctl,
      AskedOne s t (.rtake (s.word w.a)) (reqDst w.dst) true w.releases w.tnum l
        (BitVec.ofNat 64 (s.word w.a)).toNat 0) ∧
  (∀ (w : MemW) (s : State), ctlHoldsU w.ctl s.cw = true → s.word w.a ≤ 15 → s.ownsRing (s.word w.a) = true →
    let r := s.ring s.cur.core (s.word w.a)
    (∃ t, exec (.rdone w) s = .next t ∧ SameBytes s t ∧ t.wefts = s.advance.wefts ∧
      t.ring s.cur.core (s.word w.a) = { r with free := r.free + min (s.word w.b) (r.count - r.filled - r.free) } ∧
      ∀ c m, (c, m) ≠ (s.cur.core, s.word w.a) → t.ring c m = s.ring c m) ∧
    ∀ n : Fin 128, w.dst = .s n → ∃ t, exec (.rstat w) s = .next t ∧
      Sent s t n (r.putIdx * 2 ^ 48 + r.takeIdx * 2 ^ 32 + r.free * 2 ^ 16 + r.filled))

/-- R134, R135, R287, R288: FJOIN makes the core a member with a status, FLEAVE ends its membership and what mirrored
stores owe it, FSET sets the timer of the tenant's own fold, and FLD asks of the fold with the core's next request
number. Rests on the model's choice of assumption 20. -/
def Obligations.FoldsComplete : Prop :=
  ∀ (w : MemW) (s : State), ctlHoldsU w.ctl s.cw = true →
    let k := s.foldKey (s.word w.a)
    let f := s.fold k
    (s.word w.a ≤ 63 →
      (∀ n : Fin 128, w.dst = .s n → ∃ t y, exec (.fjoin w) s = .next t ∧ SameBytes s t ∧ t.cw.sreg n = BitVec.ofNat 64 y ∧
        (if f.bound = false ∨ f.tenant ≠ (s.agent s.key s.lead).tenant ∨ f.asid ≠ (s.agent s.key s.lead).asid
         then y = 3 ∧ t.fold k = f
         else if ∃ m ∈ f.members, m.1 = s.cur.core then y = 1 ∧ t.fold k = f
         else if 32 ≤ f.members.length then y = 2 ∧ t.fold k = f
         else y = 0 ∧ t.fold k = { f with members := f.members ++ [(s.cur.core, f.delivered)] })) ∧
      (s.foldBusy s.cur.core k = false → ∃ t, exec (.fleave w) s = .next t ∧ SameBytes s t ∧ t.wefts = s.advance.wefts ∧
        t.fold k = { f with members := f.members.filter (fun m => m.1 ≠ s.cur.core), window := (t.fold k).window } ∧
        (t.fold k).window.map (·.pieces) = f.window.map (·.pieces) ∧
        (∀ e ∈ (t.fold k).window, s.cur.core ∉ e.owed ∧ s.cur.core ∉ e.unacked) ∧ ∀ j, j ≠ k → t.fold j = s.fold j) ∧
      (f.bound = true → f.tenant = (s.gridOf s.key).tenant → ∃ t, exec (.fset w) s = .next t ∧ SameBytes s t ∧
        t.wefts = s.advance.wefts ∧ t.fold k = { f with timer := s.half w.b } ∧ ∀ j, j ≠ k → t.fold j = s.fold j)) ∧
    (s.fldRaise w = none →
      let k := s.foldKey w.subop.toNat
      let d := s.word w.b
      let m := (((s.fold k).members.find? fun m => m.1 = s.cur.core).map (·.2)).getD 0
      ∃ t, exec (.fld w) s = .next t ∧ SameBytes s t ∧
        AskedOne s t (.fld k (bits d 0 21) (bits d 21 17) m) (reqDst w.dst) w.acquires w.releases w.tnum s.lead
          (s.ea w s.lead).toNat d ∧
        (t.fold k).members = (s.fold k).members.map fun x => if x.1 = s.cur.core then (x.1, x.2 + 1) else x)

namespace Sys2Proof.Claims

/-- The view of the issuing core after an acquire: no clean RC copy is left in it (R51), but one that a booked delivery
holds, which is given up after it (R87). -/
def Fresh (s t : State) : Prop :=
  ∀ e ∈ (t.core s.cur.core).view, e.2.dirty = false → e.2.uo = false →
    e.2.doomed = true ∧ s.viewHeld s.cur.core e.1 = true

/-- The issuing context may use the tile: it owns it, or nobody does (R43). -/
def MayUse (s : State) (tile : Nat) : Prop :=
  let o := lookD tile (0 : Word) (s.core s.cur.core).acown
  o.getLsbD 63 = false ∨ o.toNat % 2 ^ 16 = s.ctxOf s.key

/-- The issuing context owns the tile. -/
def Owns (s t : State) (tile : Nat) : Prop :=
  let o := lookD tile (0 : Word) (t.core s.cur.core).acown
  o.getLsbD 63 = true ∧ o.toNat % 2 ^ 16 = s.ctxOf s.key % 2 ^ 16

/-- An element of a tile. -/
def acc (s : State) (core k : Nat) : W32 := lookD k 0 (s.core core).acc

/-- An element as a use of the tile finds it: a tile that is claimed reads +0 (R43). -/
def accUsed (s : State) (tile k : Nat) : W32 :=
  if k / 1024 = tile ∧ (lookD tile (0 : Word) (s.core s.cur.core).acown).getLsbD 63 = false then 0
  else acc s s.cur.core k

end Sys2Proof.Claims

/-- R316, R51, R117: CHKW, once the lane's acquires and older accesses to its word are done, goes on if the bits are
set, with the acquire of its scope, and otherwise holds the weft; CHKT is a plain load of the word: it asks for it
with its mask, and its register waits for the answer. -/
def Obligations.ChunkWaitsComplete : Prop :=
  ∀ (w : EngW) (s : State) (x : Nat), ctlHoldsU w.ctl s.cw = true →
    let off := fieldOf w 64 21
    let m := s.word w.a
    let va := 0xF000000000000 + off
    s.chunkWord off = some x →
    (s.actsNow s.lead va (s.localTgt off) 8 = true → x &&& m = m → ∃ t, exec (.chkw w) s = .next t ∧ SameBytes s t ∧ t.wefts = s.advance.wefts ∧
      (s.wide s.key (fieldOf w 104 3) = true → Fresh s t)) ∧
    (s.actsNow s.lead va (s.localTgt off) 8 = true → x &&& m ≠ m → ∃ t, exec (.chkw w) s = .next t ∧ OnlyWeft { s with issuing := false } t ∧
      t.cw = { s.cw with hold := .chkw off (BitVec.ofNat 64 m) (fieldOf w 104 3) }) ∧
    ∃ t q, exec (.chkt w) s = .next t ∧ Entered s.advance t ∧ t.reqs = s.reqs ++ [q] ∧ q.op = .chkt m ∧ q.size = 8 ∧
      q.key = s.key ∧ q.dst = reqDst w.dst ∧ q.lanes = s.cur.lanes ∧ q.acq = false ∧ q.rel = false ∧
      q.parts = [⟨s.lead, va, 0, 0, 0, 0, s.localTgt off⟩]

/-- R317 to R322: MMA and MMAS enter the loom queue with their operands, and their tile is the context's; OPRDY enters
behind the weft's own stores; AWAIT holds while an entry of its tag is open, then, where the tag has no report,
collects the entries done. -/
def Obligations.LoomWordsComplete : Prop :=
  ∀ (w : EngW) (s : State), ctlHoldsU w.ctl s.cw = true →
    let c := s.core s.cur.core
    let entered := fun (t : State) (e : LoomEntry) => SameBytes s t ∧ t.wefts = s.advance.wefts ∧
      (t.core s.cur.core).loomq = c.loomq ++ [e]
    (s.loomOut = false → s.loomFull = false →
      (s.ownQueued = false → ∃ t, exec (.oprdy w) s = .next t ∧ entered t (.oprdy s.cur.core s.cur.slot)) ∧
      (MayUse s (fieldOf w 64 6) →
        (let o := s.mmaOp w false []
         mmaBad o (s.word w.a) (s.word w.b) = none → s.ownQueued = false →
         (∀ r ∈ o.rows, r.1 - s.spbase s.key + r.2 ≤ (s.teamOf s.key).spad) →
         ∃ t, exec (.mma w) s = .next t ∧ entered t (.mma o) ∧ Owns s t (fieldOf w 64 6)) ∧
        (let o := s.mmaOp w true []
         mmaBad o o.a o.b = none → s.releaseReady s.key s.lead s.nextId 3 = true →
         (∀ va ∈ o.pages, ∃ g wk, s.pageCheck o.agent va = .ok g wk) →
         ∃ t, exec (.mmas w) s = .next t ∧ entered t (.mma o) ∧ Owns s t (fieldOf w 64 6)))) ∧
    (MayUse s (fieldOf w 64 6) →
      let tag := fieldOf w 103 3
      let mine := fun o : MmaOp => o.agent.core = s.cur.core ∧ o.agent.slot = s.cur.slot ∧ o.tag = tag
      ((∃ o ∈ c.loomOps, mine o) → ∃ t, exec (.await w) s = .next t ∧ SameBytes s t ∧ t.issuing = false ∧
        t.cw = { s.cw with hold := .loom tag }) ∧
      ((∀ o ∈ c.loomOps, ¬mine o) → look tag s.cw.reports = none → ∃ t, exec (.await w) s = .next t ∧ SameBytes s t ∧
        t.wefts = s.advance.wefts ∧ (∀ o ∈ (t.core s.cur.core).loomDone, o ∈ c.loomDone ∧ ¬mine o) ∧
        Owns s t (fieldOf w 64 6)))

/-- R323, R324: AZERO clears a tile; ALD reads its rows from LOCAL memory; AST writes its elements there, scaled and
rounded, and no byte outside the rows; ASAVE writes the 1,024 elements to memory and AREST reads them back. -/
def Obligations.TileWordsComplete : Prop :=
  ∀ (w : EngW) (s : State), ctlHoldsU w.ctl s.cw = true →
    let core := s.cur.core
    let tile := fieldOf w 64 6
    let o := s.word w.a
    let d := (s.cw.sreg w.dst.num).toNat % 2 ^ 32
    let m := fieldOf w 70 6
    let n := fieldOf w 76 6
    let fm := fieldOf w 82 2
    let base := s.spbase s.key
    (s.core core).tilePending tile = false →
    (MayUse s tile →
      (∃ t, exec (.azero w) s = .next t ∧ SameBytes s t ∧ t.wefts = s.advance.wefts ∧ Owns s t tile ∧
        ∀ k, acc t core k = if k / 1024 = tile then 0 else acc s core k) ∧
      (d % 4 = 0 → o % 4 = 0 → s.rowsFree o d m (tileRow fm n) = true → n ≤ 32 → m ≤ 32 →
        (∀ i, i < m → o + i * d + tileRow fm n ≤ (s.teamOf s.key).spad) →
        ∃ t, exec (.ald w) s = .next t ∧ SameBytes s t ∧ t.wefts = s.advance.wefts ∧ Owns s t tile ∧
          (∀ i j, i < m → j < n → acc t core (accKey tile i j) = BitVec.ofNat 32
            (if fm = 0 then mnum (s.core core).spad (base + o + i * d + 4 * j) 4
             else f32Fmt.encode 0 false (bf16Fmt.decode (mnum (s.core core).spad (base + o + i * d + 2 * j) 2)))) ∧
          ∀ k, (∀ i j, i < m → j < n → k ≠ accKey tile i j) → acc t core k = accUsed s tile k) ∧
      (let tagw := w.ext.getLsbD 35
       let al := if tagw then 64 else 4
       let len := astRow fm n tagw
       let f := s.narrowOf (fieldOf w 84 4)
       d % al = 0 → o % al = 0 → s.rowsFree o d m len = true →
       (∀ i j, i < m → j < n → MayUse s tile → look (accKey tile i j) (s.core core).accBad = none) → (fm < 2 ∨ f.valid = true ∧ (f.cw = true ↔ fm = 2)) →
       (∀ i, i < m → o + i * d + len ≤ (s.teamOf s.key).spad) → (m ≤ 1 ∨ len ≤ d) →
       ∃ t, exec (.ast w) s = .next t ∧ t.wefts = s.advance.wefts ∧ (∀ a, mget t.mem a = mget s.mem a) ∧
         (∀ i, i < m → mread (t.core core).spad (base + o + i * d) len = packRow fm len ((List.range n).map fun j =>
           astCode fm (fieldOf w 96 2) (w.ext.getLsbD 34) f (fieldOf w 88 8) (accUsed s tile (accKey tile i j)).toNat)) ∧
         ∀ c a, (c = core → ∀ i, i < m → a < base + o + i * d ∨ base + o + i * d + len ≤ a) →
           mget (t.core c).spad a = mget (s.core c).spad a)) ∧
    (s.privOf s.key = true → o % 4096 = 0 → o < 2 ^ 52 → s.isLocal o = true →
      s.populated (s.ctx (s.ctxOf s.key)).asid (local46 o) 4096 = true →
      (∃ t, exec (.asave w) s = .next t ∧ t.wefts = s.advance.wefts ∧ (∀ c a, mget (t.core c).spad a = mget (s.core c).spad a) ∧
        (∀ e, e < 1024 → look (1024 * tile + e) (s.core core).accBad = none →
          mnum t.mem (local46 o + 4 * e) 4 = (acc s core (1024 * tile + e)).toNat) ∧
        ∀ a, a < local46 o ∨ local46 o + 4096 ≤ a → mget t.mem a = mget s.mem a) ∧
      ((∀ b, b < 64 → look (local46 o / 64 + b) s.poison = none) →
        ∃ t, exec (.arest w) s = .next t ∧ SameBytes s t ∧ t.wefts = s.advance.wefts ∧
          ∀ k, acc t core k = if k / 1024 = tile then BitVec.ofNat 32
            (leNat (s.homeGets (s.agent s.key s.lead).asid (local46 o + 4 * (k % 1024)) 4)) else acc s core k))

/-- R144, R326, R328: PHINT declares a burst whose start is placed from the cycle asked for to 64 cycles after it, or
withdraws the context's declarations; TQADD puts each record at the end of the queue of its tenant and priority, with
status 0, or leaves the queue with status 1 when it is full and 2 when the record is not valid. -/
def Obligations.HintsAndTasksComplete : Prop :=
  (∀ (w : EngW) (s : State), ctlHoldsU w.ctl s.cw = true →
    let c := s.core s.cur.core
    let me := s.ctxOf s.key
    ∃ t st, exec (.phint w) s = .next t ∧ SameBytes s t ∧ t.wefts = s.advance.wefts ∧
      c.cyc + fieldOf w 64 12 ≤ st ∧ st ≤ c.cyc + fieldOf w 64 12 + 64 ∧
      (t.core s.cur.core).decls = if fieldOf w 76 4 = 0 then c.decls.filter fun d => d.ctx ≠ me
        else (c.decls.filter fun d => d.ctx ≠ me ∨ d.started = true) ++ [⟨me, st, fieldOf w 76 4, fieldOf w 80 5, false⟩]) ∧
  (∀ (w : EngW) (s : State), ctlHoldsU w.ctl s.cw = true → s.loomOut = false →
    (∀ l ∈ s.lanes, s.releaseReady s.key l s.nextId 3 = true) →
    (∀ n : Fin 128, w.dst = .s n → w.a.kind ≠ 1 → s.word w.a % 64 = 0 → s.word w.a + 64 ≤ (s.teamOf s.key).spad →
      let e := s.enqueueTask (s.agent s.key s.lead) (fieldOf w 64 3)
        (mread (s.core s.cur.core).spad (s.spbase s.key + s.word w.a) 64)
      ∃ t, exec (.tqadd w) s = .next t ∧ SameBytes s t ∧ t.meadows = e.2.meadows ∧ t.cw.sreg n = BitVec.ofNat 64 e.1 ∧
        ∀ l ∈ s.lanes, Passed s (s.cw.lane l) (t.cw.lane l)) ∧
    (∀ n : Fin 32, w.dst = .v n → w.a.kind = 1 → s.lanes ≠ [] → (∀ l ∈ s.lanes, s.raw l w.a false % 64 = 0 ∧
        s.raw l w.a false + 64 ≤ (s.teamOf s.key).spad) →
      let e := s.enqueueAll (fieldOf w 64 3) (s.lanes.map fun l => (l, s.raw l w.a false))
      ∃ t, exec (.tqadd w) s = .next t ∧ SameBytes s t ∧ t.meadows = e.1.meadows ∧ ∀ l ∈ s.lanes, ∀ y, (l, y) ∈ e.2 →
        (t.cw.lane l).pc = s.nextVa ∧ (t.cw.lane l).v s.cw.stk n = BitVec.ofNat 32 y)) ∧
  (∀ (s : State) (g : Agent) (prio : Nat) (r : List Byte),
    let q := lookD (8 * g.tenant + prio) [] (s.meadow (meadowOf g.core)).queues
    let e := s.enqueueTask g prio r
    let q' := lookD (8 * g.tenant + prio) [] (e.2.meadow (meadowOf g.core)).queues
    (taskValid r = false → e.1 = 2) ∧ (e.1 ≠ 0 → q' = q) ∧ (e.1 = 1 → 256 ≤ q.length) ∧
    (e.1 = 0 → taskValid r = true ∧ q.length < 256 ∧ ∃ t : Task, q' = q ++ [t] ∧ t.record = r ∧ t.agent = g))

/-- R329, R330, R151: LAUNCH and LAUNCHI hand the descriptor and its entries to the front end as a release at DEVICE
scope, read as loads of the lane, and hold the weft at the next word for the answer; WAITG writes 3 for a handle
that is not recent, the outcome of a grid that has ended, as an acquire, and holds the weft while it runs. Rests on
the model's choice of assumption 40. -/
def Obligations.LaunchesComplete : Prop :=
  (∀ (w : EngW) (s : State), ctlHoldsU w.ctl s.cw = true →
    let va := s.cw.sreg w.a.num
    let d := s.readLoad va 64 64
    let all := (va, d) :: (launchParts va d.2).map fun p => (p.1, s.readLoad p.1 32 p.2)
    (∀ e ∈ all, (∃ g wk, e.2.1 = .ok g wk) ∧ s.mayRead e = true ∧ s.readTrap e = none) →
    (∀ l ∈ s.lanes, s.releaseReady s.key l s.nextId 4 = true) →
    ∀ i indirect, ((i, indirect) = (Instr.launch w, false) ∨ (i, indirect) = (Instr.launchi w, true)) →
      ∃ t, exec i s = .next t ∧ OnlyWeft { s with issuing := false } t ∧
        t.cw = { s.cw with
          lanes := t.cw.lanes
          hold := .launch indirect (all.flatMap fun e => e.2.2) w.dst.num (2 * fieldOf w 64 1) } ∧
        (∀ l, l ∉ s.lanes → t.cw.lane l = s.cw.lane l) ∧ ∀ l ∈ s.lanes, Passed s (s.cw.lane l) (t.cw.lane l)) ∧
  ∀ (w : EngW) (s : State) (n : Fin 128), ctlHoldsU w.ctl s.cw = true → w.dst = .s n →
    let h := s.word w.a % 2 ^ 32
    let r := s.recentGrid (s.gridOf s.key).tenant h
    (r = none → ∃ t, exec (.waitg w) s = .next t ∧ Sent s t n 3) ∧
    ∀ g, r = some g →
      (∀ y, ((g.status, y) = (.done, 0) ∨ (g.status, y) = (.refused, 1) ∨ (g.status, y) = (.failed, 2)) →
        ∃ t, exec (.waitg w) s = .next t ∧ SameBytes s t ∧ Fresh s t ∧
          (∀ m, t.cw.sreg m = if m = n then BitVec.ofNat 64 y else s.cw.sreg m) ∧
          ∀ l ∈ s.lanes, Passed s (s.cw.lane l) (t.cw.lane l)) ∧
      (g.status = .pending → ∃ t, exec (.waitg w) s = .next t ∧ OnlyWeft { s with issuing := false } t ∧
        t.cw = { s.cw with hold := .waitg h n })

/-- R331 to R333, R335, R187, R177: FRESUME frees the slot of its entry and lists it for resumption; GENBUMP writes
GEN + 1 in the ASID table and holds the weft; TLBINV drops the entries of an ASID, or every entry, on one core or on
all; SNAP latches from then on, or counts a trigger while a set is held; HALT asks its team to stop. -/
def Obligations.SystemWordsComplete : Prop :=
  ∀ (w : EngW) (s : State), ctlHoldsU w.ctl s.cw = true →
    (s.privOf s.key = true →
      ((∀ l ∈ s.lanes, s.releaseReady s.key l s.nextId 4 = true) →
        let n := (s.gridOf s.key).tenant
        let q := s.word w.a % 2 ^ 32
        let known := (∃ e ∈ (s.tenant n).faults, e.2.seq = q) ∧ q ∉ (s.tenant n).fresumes
        ∃ t, exec (.fresume w) s = .next t ∧ SameBytes s t ∧ t.wefts = s.advance.wefts ∧
          (known → t.tenant n = { s.tenant n with
            fresumes := (s.tenant n).fresumes ++ [q]
            slots := (s.tenant n).slots.filter (· ≠ q) }) ∧
          (¬known → t.tenant n = s.tenant n) ∧ ∀ m, m ≠ n → t.tenant m = s.tenant m) ∧
      (let a := s.word w.a
       let at' := local46 (s.mgmt 0x08 + 16 * a + 8)
       a ≤ 255 → (s.asidWord a 0).getLsbD 0 = true → (∀ b ∈ s.bumps, b.asid ≠ a) →
       (∀ l ∈ s.lanes, s.olderDone s.key l s.nextId true true = true) → s.written s.cur.core true = true →
       ∃ t, exec (.genbump w) s = .next t ∧ mnum t.mem at' 2 = (s.tableGen a + 1) % 2 ^ 16 ∧
         (∀ x, x < at' ∨ at' + 2 ≤ x → mget t.mem x = mget s.mem x) ∧
         t.bumps = s.bumps ++ [⟨a, s.tableGen a, [], []⟩] ∧ t.issuing = false ∧
         (∀ n : Fin 128, w.dst = .s n → t.cw.hold = .genbump a (some n)) ∧
         ((∀ n : Fin 128, w.dst ≠ .s n) → t.cw.hold = .genbump a none)) ∧
      (let a := s.word w.a
       a ≤ 256 → ∃ t, exec (.tlbinv w) s = .next t ∧ SameBytes s t ∧ t.wefts = s.advance.wefts ∧
         ∀ c, t.core c = { s.core c with tlb := (t.core c).tlb, walkc := (t.core c).walkc } ∧
           if fieldOf w 104 3 = 2 ∧ c ≠ s.cur.core then t.core c = s.core c
           else (∀ e, e ∈ (t.core c).tlb ↔ e ∈ (s.core c).tlb ∧ a ≠ 256 ∧ e.asid ≠ a) ∧
             ∀ e, e ∈ (t.core c).walkc ↔ e ∈ (s.core c).walkc ∧ a ≠ 256 ∧ e.asid ≠ a) ∧
      ∃ t, exec (.snap w) s = .next t ∧ t.wefts = s.advance.wefts ∧
        (s.hub.snapHeld = false → SameBytes s t ∧
          t.hub = { s.hub with snapHeld := true, snapTrig := true, snapLatched := [] }) ∧
        (s.hub.snapHeld = true → t.hub.snapCnt = s.hub.snapCnt + 1 ∧ t.hub.snapLatched = s.hub.snapLatched)) ∧
    ∃ t, exec (.halt w) s = .next t ∧ SameBytes s t ∧
      let m := s.team s.cw.team
      t.team s.cw.team = { m with
        stop := { m.stop with halt := true }
        life := if m.life = .running then .stopping else m.life } ∧
      ∀ k ∈ m.wefts, (t.weft k).haltPend = ((s.weft k).haltPend || (s.weft k).hmode)

/-- R334: WRD reads the selected state of a weft of the team and WWR writes it; what WWR has written, WRD reads back. -/
def Obligations.OtherWeftsComplete : Prop :=
  (∀ (w : EngW) (s : State) (k : Nat), ctlHoldsU w.ctl s.cw = true → s.cw.hmode = true → s.teamWeft (s.word w.a) = some k →
    let x := s.word w.b
    s.selPending k x = none →
    (∀ n : Fin 128, w.dst = .s n → selBad x (s.weft k).width false = false →
      ∃ t, exec (.wrd w) s = .next t ∧ Sent s t n (s.selRead k x)) ∧
    (selBad x (s.weft k).width true = false → (selClass x = 2 → ((s.weft k).lane (selLane x)).tBusy (selNum x) = false) →
      ∃ t, exec (.wwr w) s = .next t ∧ SameBytes s t ∧
        t.weft k = (s.advance.weft k).selWrite x (s.cw.sreg w.dst.num) ∧
        ∀ j, j ≠ k → t.weft j = s.advance.weft j)) ∧
  ∀ (s : State) (k x : Nat) (v : Word), selBad x (s.weft k).width true = false →
    let t := s.mapWeft k fun z => z.selWrite x v
    (selClass x = 0 → 0 < (s.weft k).stk → t.selRead k x = v.toNat % 2 ^ 32) ∧
    (selClass x = 1 ∨ selClass x = 7 ∨ selClass x = 8 → t.selRead k x = v.toNat) ∧
    (selClass x = 3 ∨ selClass x = 6 → t.selRead k x = v.toNat % 2)

namespace Sys2Proof.Claims

/-- The request of an id stands in the list with this content, and the others are as before. -/
def ReqNow (s t : State) (id : Nat) (r : Req) : Prop :=
  t.req id = some r ∧ ∀ j, j ≠ id → t.req j = s.req j

/-- Bytes of memory are a list's from an address on, and every other byte of memory is as before. -/
def Wrote (s t : State) (a : Nat) (bs : List Byte) : Prop :=
  mread t.mem a bs.length = bs ∧ ∀ x, x < a ∨ a + bs.length ≤ x → mget t.mem x = mget s.mem x

end Sys2Proof.Claims

/-- R161, R253, R116: a decision of a quarter issues the issuable lanes of its weft at one PC, with AGE 0 and empty
latches; a sleep ends when its count of cycles is over; a write of a team register reaches a core's copy, oldest
first. Rests on the model's choices of assumptions 1 and 4. -/
def Obligations.DecisionsComplete : Prop :=
  ∀ (s : State) (core : Nat),
    (∀ quarter k, core < Config.cores → quarter < 4 → s.expiryDue core = false → s.chooseWeft core quarter = some k →
      ∃ t, exec (.issueDecision core quarter) s = .next t ∧ t.issuing = true ∧ t.cur.core = core ∧ t.cur.slot = k % 64 ∧
        t.cur.len = 8 ∧ t.cur.pos = 0 ∧ SameBytes s t ∧ t.reqs = s.reqs ∧ (∀ j, j ≠ k → t.weft j = s.weft j) ∧
        (∀ l, l ∈ t.lanes ↔ l < 128 ∧ l ∈ s.issuables k ∧ ((s.weft k).lane l).pc = t.cur.va) ∧
        ∀ l ∈ t.lanes, ((t.weft k).lane l).age = 0 ∧ ((t.weft k).lane l).lat = [] ∧
          ((t.weft k).lane l).pc = t.cur.va ∧ ((t.weft k).lane l).regs = ((s.weft k).lane l).regs) ∧
    (∀ slot lane c, let k := 64 * core + slot
      ((s.weft k).lane lane).wait = .sleepUntil c → c ≤ (s.core core).cyc →
      ∃ t, exec (.yieldExpiry core slot lane) s = .next t ∧ t = { s with wefts := t.wefts } ∧
        (∀ j, j ≠ k → t.weft j = s.weft j) ∧
        t.weft k = (s.weft k).setLane lane { (s.weft k).lane lane with wait := .none, age := 0 }) ∧
    ∀ team g e, (s.team team).gq.find? (fun e => decide (e.1 = core) && decide (e.2.1 = g)) = some e →
      ∃ t, exec (.teamRegisterPropagate team core g) s = .next t ∧ t = { s with teams := t.teams } ∧
        (∀ j, j ≠ team → t.team j = s.team j) ∧ (t.team team).g = (s.team team).g ∧
        (t.team team).gq.length + 1 = (s.team team).gq.length ∧
        ∀ n, look n (t.team team).gcopy = if n = 16 * core + g then some e.2.2 else look n (s.team team).gcopy

namespace Sys2Proof.Claims

/-- Bytes of memory are as before, but those of which the core's view held a dirty copy, which an eviction may write
back (R50). -/
def OnlyWrittenBack (s t : State) (core : Nat) : Prop :=
  (∀ a, mget t.mem a = mget s.mem a ∨ ∃ b, (a, b) ∈ (s.core core).view ∧ b.dirty = true) ∧
  ∀ c a, mget (t.core c).spad a = mget (s.core c).spad a

end Sys2Proof.Claims

/-- R102, R104, R107, R108, R49, R50, R51, R54, R58: a store that may drain leaves its queue; on an SO page or in a
scratchpad its bytes are at their Home and no other byte changes; on an RC or UO page they are dirty in the core's
view, once its line has a place in L1, and no byte of memory changes but by the eviction that makes the place. A
core's write-back puts its bytes at the Home; an L2 slice's write-back puts the line's dirty bytes behind L2 and
drops the line; a drop removes clean copies that nothing pins or holds; a fill copies the Home and keeps dirty
bytes; the least recently used cell line is written back where another needs its room. Rests on the model's choices
of assumptions 1 and 18. -/
def Obligations.ViewEventsComplete : Prop :=
  ∀ (s : State) (core : Nat),
    (∀ slot idx (e : SqEntry) (r : Req), (s.weft (64 * core + slot)).sq[idx]? = some e → s.req e.req = some r →
      s.mayDrain (64 * core + slot) idx e r = true → s.drainFate r e.tgt = .current →
      (∀ pa, e.tgt = .mem pa .so → ∃ t, exec (.storeDrain core slot idx) s = .next t ∧
        (t.weft (64 * core + slot)).sq = (s.weft (64 * core + slot)).sq.eraseIdx idx ∧
        Wrote s t (local46 pa) e.bytes ∧ ∀ c a, mget (t.core c).spad a = mget (s.core c).spad a) ∧
      (∀ c off, e.tgt = .spad c off → ∃ t, exec (.storeDrain core slot idx) s = .next t ∧
        (t.weft (64 * core + slot)).sq = (s.weft (64 * core + slot)).sq.eraseIdx idx ∧
        mread (t.core c).spad off e.bytes.length = e.bytes ∧ (∀ a, mget t.mem a = mget s.mem a) ∧
        ∀ d a, (d = c → a < off ∨ off + e.bytes.length ≤ a) → mget (t.core d).spad a = mget (s.core d).spad a) ∧
      (∀ pa k, e.tgt = .mem pa k → k ≠ .so →
        (s.useL1 r.agent.core (align (local46 pa) 128) = none → exec (.storeDrain core slot idx) s = .next s) ∧
        (∀ s1, s.useL1 r.agent.core (align (local46 pa) 128) = some s1 →
          ∃ t, exec (.storeDrain core slot idx) s = .next t ∧
            (t.weft (64 * core + slot)).sq = (s.weft (64 * core + slot)).sq.eraseIdx idx ∧
            OnlyWrittenBack s t r.agent.core ∧ ∀ i, i < e.bytes.length →
              look (local46 pa + i) (t.core r.agent.core).view =
                some ⟨e.bytes.getD i 0, true, decide (k = .uo), r.agent.asid, false⟩))) ∧
    (∀ sector mask, core < Config.cores → sector < 2 ^ 48 → let hit := fun a => a ∈ sectorAddrs sector mask
      ∃ t, exec (.writeBack core sector mask) s = .next t ∧ (∀ a, ¬hit a → mget t.mem a = mget s.mem a) ∧
        (∀ c a, mget (t.core c).spad a = mget (s.core c).spad a) ∧
        (((s.core core).view.map (·.1)).Nodup → ∀ e ∈ (s.core core).view, hit e.1 → e.2.dirty = true →
          mget t.mem e.1 = e.2.val)) ∧
    (∀ slice sector mask x, s.l2At slice (align (64 * sector) 128) = some x → s.l2Pinned x = false → s.l2Held x = false →
      ∃ t, exec (.writeBack (Config.cores + slice) sector mask) s = .next t ∧ t.cores = s.cores ∧ t.wefts = s.wefts ∧
        t.l2At slice x.line = none ∧
        ∀ a, a / 128 = x.line / 128 → (look a x.under).isSome = true → t.behind a = (look a x.own).getD (mget s.mem a)) ∧
    (∀ sector mask, ∃ t, exec (.drop core sector mask) s = .next t ∧ SameBytes s t ∧ t.wefts = s.wefts ∧
      ∀ e, e ∈ (t.core core).view ↔ e ∈ (s.core core).view ∧ ¬(e.1 / 64 = sector ∧ mask.getLsbD (e.1 % 64) = true ∧
        e.2.dirty = false ∧ s.viewHeld core e.1 = false ∧ ∀ p ∈ (s.core core).pins, p.line ≠ align e.1 128)) ∧
    (∀ sector uo asid, s.mapsSector core sector uo asid = true →
      (s.useL1 core (align (64 * sector) 128) = none → exec (.coreViewFill core sector uo asid) s = .next s) ∧
      ∀ s1, s.useL1 core (align (64 * sector) 128) = some s1 →
        ∃ t, exec (.coreViewFill core sector uo asid) s = .next t ∧ SameBytes s1 t ∧ t.wefts = s1.wefts ∧
          OnlyWrittenBack s t core ∧ ∀ i, i < 64 → ∀ b, look (64 * sector + i) (t.core core).view = some b →
            b = ⟨t.homeGet asid (64 * sector + i), false, uo, asid, false⟩ ∨
              (b.dirty = true ∧ look (64 * sector + i) (s1.core core).view = some b)) ∧
    ∀ block x, look block s.cells = some x →
      (if isLpddr block then 32768 else 12) ≤ (s.cellsNear block).length → s.cellWanted block = true →
      s.mscHeld block = false → (s.cellsNear block).getLast? = some block →
      ∃ t, exec (.cellLineWriteback block) s = .next t ∧ Wrote s t block (leBytes 64 x.toNat) ∧
        look block t.cells = none ∧ block ∉ t.cellUse ∧ t.cores = s.cores

/-- R103, R104, R108, R111, R117, R279, R283, R284: a load that may be satisfied takes the bytes of its parts, and CHKT
whether they hold its mask; a waiting condition that its Home answered takes its acquire; an atomic reads the old
value at its Home and writes the new one in one step; GADD adds at the team register's Home. Rests on the model's
choice of assumption 21. -/
def Obligations.ReadsComplete : Prop :=
  ∀ (s : State) (id : Nat) (r : Req), s.req id = some r →
    ((r.phase = .booked ∨ r.phase = .answered) → s.viewServes r = true → s.maySatisfy r = true →
      s.loadPoison r = none → r.acq = false → ∀ f : Part → Nat,
      (((∃ sg, r.op = .load sg) ∧ f = fun p => leNat (s.partBytes r p)) ∨
        (∃ m, r.op = .chkt m ∧ f = fun p => if leNat (s.partBytes r p) &&& m = m then 1 else 0)) →
      ∃ t, exec (.loadSatisfy id) s = .next t ∧ OnlyWrittenBack s t r.agent.core ∧
        t.req id = some { r with
          satisfied := true
          parts := r.parts.map fun p => { p with val := f p } } ∧
        ((∀ p ∈ r.parts, p.tgt.viewAt = none) → SameBytes s t ∧ t.cores = s.cores ∧ t.wefts = s.wefts ∧
          ∀ j, j ≠ id → t.req j = s.req j)) ∧
    (r.op.isWait = true → r.homed = true → r.satisfied = false →
      (∀ p ∈ r.parts, s.acquirePending r.key p.lane r.id = false) →
      ∃ t, exec (.loadSatisfy id) s = .next t ∧ SameBytes s t ∧ t.wefts = s.wefts ∧
        ReqNow s t id { r with satisfied := true }) ∧
    (∀ f p pa, r.op = .atom f → r.parts = [p] → p.tgt = .mem pa .so → (r.phase = .booked ∨ r.phase = .answered) →
      s.mayModify r = true → s.fate r p.tgt = .current → s.poisonOf p.tgt r.span = none → r.acq = false →
      let old := leNat (s.sideGets (local46 pa) r.size)
      ∃ t, exec (.readModifyWrite id) s = .next t ∧
        Wrote s t (local46 pa) (leBytes r.size (atomNew f r.ty (8 * r.size) old (p.x % 2 ^ (8 * r.size)))) ∧
        t.wefts = s.wefts ∧ t.req id = some { r with
          satisfied := true
          parts := [{ p with val := old }] }) ∧
    (∀ g p, r.op = .gadd g → r.parts = [p] → s.peerLost p.tgt = false → s.fate r p.tgt = .current →
      s.poisonOf p.tgt r.span = none → (r.phase = .probe ∨ r.phase = .waiting) → s.mayModify r = true →
      (∀ q ∈ s.reqs, q.key = r.key → q.id < r.id → ∀ h, q.op ≠ .gadd h) →
      s.gBehind r.agent.team g (s.weft r.key).index = none →
      let m := r.agent.team
      ∃ t, exec (.readModifyWrite id) s = .next t ∧ SameBytes s t ∧ t.req id = none ∧
        ∀ n, lookD n (0 : Word) (t.team m).g =
          if n = g then lookD g (0 : Word) (s.team m).g + BitVec.ofNat 64 p.x else lookD n (0 : Word) (s.team m).g)

namespace Sys2Proof.Claims

/-- The time registers that carry a request hold a state and a value (R76, R78). -/
def TShows (s t : State) (r : Req) (st v : Nat) : Prop :=
  ∀ n, r.tsel = some n → ∀ l ∈ lanesOf r.lanes, lookD n 0 ((s.weft r.key).lane l).treq = r.id →
    ((t.weft r.key).lane l).treg n = timage st v

end Sys2Proof.Claims

/-- R80 to R85, R365: a walk that is over sends the probe; a controller admits the first probe of its queue at a free
slot, and the others wait in order; a level books the return path at the first cycle with room; the answer gives the
promise once, and the time registers show it; a landing that ERRINJ delays is put off and counted (R92, R289); a
landing delivers the value, shows DONE with its cycle and ends the request. Rests on the model's choices of
assumptions 1 and 17. -/
def Obligations.PromisesComplete : Prop :=
  ∀ (s : State) (id : Nat) (r : Req), s.req id = some r →
    let cyc := (s.core r.agent.core).cyc
    (r.phase = .walk → ∃ t, exec (.pageWalk id) s = .next t ∧ t = { s with reqs := t.reqs } ∧
      ReqNow s t id { r with
        phase := .probe
        issued := cyc }) ∧
    (s.needsSlot r = true →
      let pa := local46 r.tgt.base
      let place := memSidePlace pa
      let st := s.stack (hbmStack pa)
      (s.queueAhead r = false → s.reedUsed 9 place s.hub.clk 0 = 0 →
        (isHbm pa = true → st.retraining = false ∧ (st.step < 11 → s.reedUsed 9 place (s.hub.clk - 1) 0 = 0)) →
        ∃ t, exec (.controllerAdmission id) s = .next t ∧ t.slots = ⟨9, place, s.hub.clk, 1, 0⟩ :: s.slots ∧
          t = { s with
            reqs := t.reqs
            slots := t.slots } ∧ ReqNow s t id { r with admitted := true }) ∧
      (s.queueAhead r = true ∨ s.reedUsed 9 place s.hub.clk 0 ≠ 0 ∨ isHbm pa = true ∧ st.retraining = true →
        ∃ t, exec (.controllerAdmission id) s = .next t ∧ t = { s with reqs := t.reqs } ∧
          ReqNow s t id { r with stamp := if r.stamp = 0 then s.fresh + 1 else r.stamp })) ∧
    (∀ level wait c, let fig := Config.idleFigure level (r.far level) + r.extra
      let at' := s.readyAt r level wait
      let claims := s.claims r level fig
      s.firstSlot r.agent.core claims (cyc + 1024 - min at' (cyc + 1023)) at' = some c → s.mayBook r level = true →
      cyc < c + fig → ∃ t, exec (.booking id level wait) s = .next t ∧
        t.slots = claims.map (fun k =>
          ⟨k.cls, k.num, s.reedCycle r.agent.core k.cls k.num (c + k.off), k.units, k.tag⟩) ++ s.slots ∧
        t = { s with
          reqs := t.reqs
          slots := t.slots } ∧
        ReqNow s t id { r with
          phase := .answered
          level := level
          dist := r.far level
          slot := c + fig
          inject := (s.injectFor r level).getD 0
          armed := (s.injectFor r level).isSome }) ∧
    (r.phase = .answered → r.issued + Config.answerFigure r.level r.dist ≤ cyc → cyc < r.slot →
      ∃ t, exec (.probeAnswer id) s = .next t ∧ SameBytes s t ∧
        ReqNow s t id { r with
          phase := .booked
          promise := if r.promise = 0 then r.slot else r.promise } ∧
        (r.promise = 0 → TShows s t r stBooked r.slot) ∧ (r.promise ≠ 0 → t.wefts = s.wefts)) ∧
    (s.landingDue r = true → r.delays = true → r.op ≠ .barw → ∃ t, exec (.dataLanding id) s = .next t ∧ SameBytes s t ∧
      t.wefts = s.wefts ∧ (t.core r.agent.core).errinj = countInject (s.core r.agent.core).errinj ∧
      ReqNow s t id { r with armed := false, slot := cyc + r.inject }) ∧
    (s.mayLand r = true → r.op ≠ .barw → ∃ t, exec (.dataLanding id) s = .next t ∧ SameBytes s t ∧ t.req id = none ∧
      TShows s t r stDone cyc ∧
      (∀ n p ps, r.dst = .s n → r.parts = p :: ps → r.size = 8 → (t.weft r.key).sreg n = BitVec.ofNat 64 (bits p.val 0 64)) ∧
      (∀ n p ps, r.dst = .p n → n < 8 → r.parts = p :: ps → ∀ l ∈ lanesOf r.lanes,
        ((t.weft r.key).lane l).pred n = decide (p.val ≠ 0)) ∧
      ∀ n p ps, r.dst = .z n → n < 4 → r.parts = p :: ps → (t.weft r.key).zreg n = decide (p.val ≠ 0)) ∧
    (r.op = .barw → r.homed = true → r.satisfied = true → ∃ t, exec (.dataLanding id) s = .next t ∧ SameBytes s t ∧
      t.req id = none ∧ ∀ n p ps, r.dst = .z n → n < 4 → r.parts = p :: ps → (t.weft r.key).zreg n = decide (p.val ≠ 0))

/-- R80, R86, R90, R75, R279, R280: a load performs at the Home of an SO page with the bytes there, and one that finds
an uncorrectable error in a scratchpad word poisons it and ends in ERROR with the number of its record; a waiting
condition that its Home can answer is answered, at its arrival or when it is sent again; a promise whose cycle has
passed is LATE, in the log and in the time registers. Rests on the model's choice of assumption 21. -/
def Obligations.HomesComplete : Prop :=
  ∀ (s : State) (id : Nat) (r : Req), s.req id = some r →
    let cyc := (s.core r.agent.core).cyc
    (∀ c p pa, r.op = .load c → r.parts = [p] → p.tgt = .mem pa .so → (r.phase = .booked ∨ r.phase = .answered) →
      s.viewServes r = false → s.maySatisfy r = true → s.fate r p.tgt = .current → s.loadPoison r = none → r.acq = false →
      s.forward r p = some none → ∃ t, exec (.homePerform id false) s = .next t ∧ SameBytes s t ∧ t.wefts = s.wefts ∧ ReqNow s t id { r with
        satisfied := true
        parts := [{ p with val := leNat (s.sideGets (local46 pa) r.size) }] }) ∧
    (∀ c p d off, r.op = .load c → r.parts = [p] → p.tgt = .spad d off → (r.phase = .booked ∨ r.phase = .answered) →
      1 ≤ r.size → (let u := s.markPoison r
      u.viewServes r = false → u.maySatisfy r = true → u.fate r p.tgt = .current → u.forward r p = some none →
      (∀ w ∈ spadWords off r.size, look w (u.core d).spoison = some s.errSeq) ∧ u.errSeq = (s.errSeq + 1) % 2 ^ 64 ∧
      ∃ t, exec (.homePerform id true) s = .next t ∧ SameBytes u t ∧ t.req id = none ∧
        TShows s t r stError s.errSeq)) ∧
    (∀ p m, r.op.isWait = true → r.parts = [p] → s.peerLost p.tgt = false → s.fate r p.tgt = .current →
      s.poisonOf p.tgt r.span = none → s.waitersAt p.tgt r.agent.asid < 256 → r.homed = false →
      s.waitAnswer r = some m →
      (r.phase = .probe → r.admitted = false → r.overflow = false → s.mayArrive r = true →
        ∃ t, exec (.homePerform id false) s = .next t ∧ SameBytes s t ∧ t.wefts = s.wefts ∧
          t.req id = some ({ r with
            admitted := true
            overflow := false }.answeredBy m)) ∧
      (r.admitted = false → r.overflow = true → r.issued + 256 * (r.tries + 1) ≤ cyc →
        ∃ t, exec (.waitcResend id) s = .next t ∧ SameBytes s t ∧ t.wefts = s.wefts ∧
          t.req id = some ({ r with
            admitted := true
            overflow := false
            tries := r.tries + 1 }.answeredBy m))) ∧
    (r.promise ≠ 0 → r.late = false → r.promise < cyc → ∃ t, exec (.promiseExpiry id) s = .next t ∧ SameBytes s t ∧
      ReqNow s t id { r with
        late := true
        cause := if r.cause = 0 then 5 else r.cause } ∧
      (t.core r.agent.core).bphead = (s.core r.agent.core).bphead + 1 ∧ TShows s t r stLate r.promise)

/-- R36, R60, R65, R74, R89, R91, R92: a stale request is translated again and probes anew; errors that are retried
record the first cause that delays a booked request, and corrected ones are logged; an activate of a row that a miss
or a write-back opens is counted, and the rows beside it are refreshed on the stack's draw; HEAD and ERRINJ take
their writes. Rests on the model's choice of assumption 23. -/
def Obligations.RetriesComplete : Prop :=
  (∀ (s : State) (id : Nat) (r : Req), s.req id = some r →
    (∀ p g wk, r.phase = .stale → r.op ≠ .store → r.parts = [p] →
      s.check r.agent (BitVec.ofNat 64 p.va) 1 (r.checked p) r.op.acc = .ok g wk →
      ∃ t, exec (.staleRetranslate id) s = .next t ∧ SameBytes s t ∧ t.wefts = s.wefts ∧ ReqNow s t id { r with
        parts := [{ p with tgt := g }]
        gen := s.coreGen r.agent.core r.agent.asid
        satisfied := false
        admitted := false
        overflow := false
        stamp := 0
        issued := (s.core r.agent.core).cyc
        phase := if wk.walked then .walk else .probe }) ∧
    ((r.phase = .booked ∨ r.phase = .answered) →
      let delayed := fun (t : State) cause => t.req id = some { r with cause := if r.cause = 0 then cause else r.cause }
      (3 ≤ r.level → r.level ≤ 7 → ∃ t, exec (.correctedErrorRetry id) s = .next t ∧ delayed t 1 ∧
        t.errSeq = (s.errSeq + 1) % 2 ^ 64) ∧
      (r.level = 1 ∨ r.level = 3 ∨ r.level = 4 → ∃ t, exec (.parityRefetch id) s = .next t ∧ delayed t 2 ∧
        t.errSeq = (s.errSeq + 1) % 2 ^ 64) ∧
      (s.hubPorts r ≠ [] → ∃ t, exec (.linkretry id) s = .next t ∧ SameBytes s t ∧ delayed t 4))) ∧
  (∀ (s : State) stack channel row, stack < 8 → channel < 32 → 32 * stack + channel ∈ s.rows →
    ∃ t, exec (.dramActivate stack channel row) s = .next t ∧ SameBytes s t ∧
      (t.stack stack).activates = (s.stack stack).activates + 1 ∧
      t.rows = s.rows.erase (32 * stack + channel) ∧
      (t.stack stack).refreshed = (s.stack stack).refreshed ++
        (if s.drawOf (s.stack stack) channel % 2 ^ (s.stack stack).k = 0 then [(channel, row - 1), (channel, row + 1)] else []) ∧
      ∀ j, j ≠ stack → t.stack j = s.stack j) ∧
  ∀ (s : State) (pw : Nat) (p : PWrite), s.pwrites.find? (fun q => decide (q.id = pw)) = some p →
    (p.num = 0x021 → ∃ t, exec (.bplogHeadWrite pw) s = .next t ∧ SameBytes s t ∧ (t.core p.core).bphead = p.val ∧
      (t.core p.core).bplog = [] ∧ ∀ q ∈ t.pwrites, q.id ≠ pw) ∧
    (p.num = 0x023 → ∃ t, exec (.errinjWrite pw) s = .next t ∧ SameBytes s t ∧
      (t.core p.core).errinj =
        (if bits p.val.toNat 0 16 = 0 then BitVec.ofNat 64 (p.val.toNat % 2 ^ 63) else p.val) ∧
      ∀ q ∈ t.pwrites, q.id ≠ pw)

/-- R37, R52, R172 to R176: a fault entry is written to the queue of its tenant at its slot and counted; FRESUME lets
the lanes that stand at the entry go on; a GENBUMP reaches a place, which forgets the old generation, is acknowledged
by a place that has dropped its clean copies, and completes when every place has acknowledged it. -/
def Obligations.FaultsComplete : Prop :=
  ∀ (s : State),
    (∀ idx e, s.faults[idx]? = some e → s.mayPost idx e = true →
      let seq := (s.tenant e.tenant).faultSeq
      ∃ t, exec (.faultPost idx) s = .next t ∧
        Wrote s t (local46 (s.tenantWord e.tenant 0 + 64 * (seq % 4096))) ({ e with seq := seq } : FaultEntry).image ∧
        t.faults = s.faults.eraseIdx idx ∧ (t.tenant e.tenant).faultSeq = nextSeq seq ∧
        look seq (t.tenant e.tenant).faults = some { e with seq := seq } ∧
        (t.tenant e.tenant).slots = (s.tenant e.tenant).slots ++ [seq]) ∧
    (∀ tenant seq rest e core slot mask, (s.tenant tenant).fresumes = seq :: rest → look seq (s.tenant tenant).faults = some e →
      e.resume = .lanes core slot mask → (s.team e.team).life ≠ .saved →
      ∃ t, exec (.faultResume tenant) s = .next t ∧ SameBytes s t ∧ (t.tenant tenant).fresumes = rest ∧
        look seq (t.tenant tenant).faults = none ∧
        ∀ l, (t.weft (64 * core + slot)).lane l =
          (let x := (s.weft (64 * core + slot)).lane l
           if l ∈ lanesOf mask ∧ x.wait = .park none then { x with
             wait := .none
             age := 0 } else x)) ∧
    ∀ asid b, s.bumps.find? (fun b => decide (b.asid = asid)) = some b →
      (∀ place, place ∉ b.updated → place < bumpPlaces → ∃ t, exec (.genbumpHomeUpdate asid place) s = .next t ∧ SameBytes s t ∧
        t.bumps.find? (fun b => decide (b.asid = asid)) = some { b with updated := b.updated ++ [place] } ∧
        (Config.homes ≤ place → ∀ e ∈ (t.core (place - Config.homes)).tlb, ¬(e.asid = asid ∧ e.gen = b.old))) ∧
      (∀ place, place ∈ b.updated → place ∉ b.acked → s.mayAck asid b.old place = true →
        ∃ t, exec (.genbumpAck asid place) s = .next t ∧ SameBytes s t ∧
          t.bumps.find? (fun b => decide (b.asid = asid)) = some { b with acked := b.acked ++ [place] } ∧
          (Config.homes ≤ place → ∀ e ∈ (t.core (place - Config.homes)).view, e.2.asid = asid → e.2.dirty = true)) ∧
      ((∀ place, place < bumpPlaces → place ∈ b.acked) → ∃ t, exec (.genbumpComplete asid) s = .next t ∧ SameBytes s t ∧
        (∀ b ∈ t.bumps, b.asid ≠ asid) ∧ ∀ k (n : Nat), (s.weft k).hold = .genbump asid (some n) →
          (t.weft k).hold = .none ∧ (t.weft k).sreg n = BitVec.ofNat 64 ((b.old + 1) % 2 ^ 16))

/-- R11, R19, R69, R356 to R358: the host takes a line that L2 gives up, and reads and writes the ranges of a tenant; a
doorbell puts the buffer to the ring's port; a vector that is unmasked sends its pending message; a peer with a
grant reads, writes, modifies and reads tags, and one without is refused, with a record; a peer that is lost is
listed. Rests on the model's choices of assumptions 12 and 22. -/
def Obligations.HostAccessesComplete : Prop :=
  ∀ (s : State),
    (∀ line, let b := align line 128
      isHost b = true →
      (∀ x ∈ s.l2, x.line = b → s.l2Held x = false ∧ ∀ e ∈ x.under, b ≤ e.1 ∧ e.1 < b + 128) →
      ∃ t, exec (.hostSnoop line) s = .next t ∧ (∀ x ∈ t.l2, x.line ≠ b) ∧ t.wefts = s.wefts ∧
        ∀ a, a < b ∨ b + 128 ≤ a → mget t.mem a = mget s.mem a) ∧
    (∀ tenant, tenant < 16 → 3 ≤ s.hub.stage →
      (∀ off pa (bs : List Byte), bs.length ≤ 64 → s.hdm tenant off bs.length = .mem pa →
        ∃ t, exec (.hostMemWrite tenant off bs) s = .next t ∧ Wrote s t (local46 pa) bs ∧ t.wefts = s.wefts) ∧
      (∀ off pa len, len ≤ 64 → s.hdm tenant off len = .mem pa → ∃ t, exec (.hostMemRead tenant off len) s = .next t ∧
        SameBytes s t ∧ (t.tenant tenant).hostData = s.homeGets (s.hostSpace tenant) pa len) ∧
      (∀ core ring lenm1, core < Config.cores → ring < 16 → lenm1 < 512 →
        ∃ t, exec (.hostRingDoorbell tenant core ring lenm1) s = .next t ∧ SameBytes s t ∧
          t.ring core ring = { s.ring core ring with port := (s.ring core ring).port ++
            [⟨.host tenant, tenant, 0, 0, 0, lenm1 + 1, mread (s.tenant tenant).ports (4096 * (16 * core + ring)) (lenm1 + 1),
              [], false, 0⟩] }) ∧
      ∀ vec, vec < 5 → ∃ t, exec (.vectorUnmask tenant vec) s = .next t ∧ SameBytes s t ∧
        (t.tenant tenant).masked.getLsbD vec = false ∧
        lookD vec 0 (t.tenant tenant).sent =
          lookD vec 0 (s.tenant tenant).sent + if (s.tenant tenant).pending.getLsbD vec = true then 1 else 0) ∧
    (∀ dev tenant pa,
      let asks := fun (op : PeerOp) (t : State) => exec (.peerRequestArrival ⟨dev, tenant, op⟩) s = .next t
      let space := partSpace (bits (s.grant dev tenant).toNat 8 4)
      (s.granted dev tenant 1 = true →
        (∀ len so, s.populated 1 (local46 pa) len = true → s.poisonOf (.mem pa .rc) len = none →
          ∃ t, asks (.memRead pa len so) t ∧ SameBytes s t ∧
            t.hub.peerData = if so then s.sideGets (local46 pa) len else s.homeGets space (local46 pa) len) ∧
        (∀ bs so, s.populated 1 (local46 pa) bs.length = true →
          ∃ t, asks (.memWrite pa bs so) t ∧ Wrote s t (local46 pa) bs) ∧
        (∀ f ty n x, s.populated 1 (local46 pa) n = true → s.poisonOf (.mem pa .rc) n = none →
          let old := s.homeGets space (local46 pa) n
          ∃ t, asks (.memAtom pa f ty n x false) t ∧ t.hub.peerData = old ∧
            Wrote s t (local46 pa) (leBytes n (atomNew f ty (8 * n) (leNat old) (x % 2 ^ (8 * n))))) ∧
        (s.populated 1 (local46 pa) 64 = true →
          ∃ t, asks (.tagRead pa) t ∧ SameBytes s t ∧ t.hub.peerData = leBytes 2 (s.tagOf (.mem pa .rc)).toNat)) ∧
      (s.granted dev tenant 1 = false → ∀ len so,
        ∃ t, asks (.memRead pa len so) t ∧ t.hub.peerData = [] ∧ t.errSeq = (s.errSeq + 1) % 2 ^ 64)) ∧
    ∀ dev, ∃ t, exec (.peerUnreachable dev) s = .next t ∧ dev ∈ t.hub.lost

/-- R119, R120, R123, R125: a shuttle takes a command of the Store Queue into its queue; a chunk of one piece whose
destination is memory performs there and is done; the last acknowledgement of a multicast chunk whose copies have
all performed ends it; a command completes with its count and its error code, and the next one starts. Rests on the
model's choice of assumption 23. -/
def Obligations.ShuttlesComplete : Prop :=
  ∀ (s : State) (core ch : Nat),
    (∀ slot idx e r, (s.weft (64 * core + slot)).sq[idx]? = some e → e.tgt = .aperture ch → s.req e.req = some r →
      s.mayAccept (64 * core + slot) idx e ch = true →
      let cmd := s.newCmd r.agent (mread (s.core core).tmpl (64 * (leNat e.bytes % 1024)) 64) (toSigned 32 (leNat e.bytes / 2 ^ 32))
      ∃ t, exec (.shuttleCommand core slot idx) s = .next t ∧ t.req e.req = none ∧
        (t.weft (64 * core + slot)).sq = (s.weft (64 * core + slot)).sq.eraseIdx idx ∧
        (t.core core).chan ch =
          Chan.start { (s.core core).chan ch with queue := ((s.core core).chan ch).queue ++ [cmd] }) ∧
    ∀ c, ((s.core core).chan ch).run = some c →
      (∀ i p src pa k wa wb, c.fail = 0 → c.parkSeq = none → i < tmplChunks c.tmpl → c.given i 0 = false → c.ring = false →
        c.mcast = false → c.bmen = false → (∀ a ∈ c.acks, a.1 ≠ i) → c.pieces i = [p] →
        s.srcAt c p = .ok src wa → s.dstAt c 0 p = .ok (.mem pa k) wb → s.chunkMay c i = true →
        s.windowOwes core ch i = false →
        ∃ t, exec (.shuttleChunk core ch ⟨i, 0⟩) s = .next t ∧
          Wrote s t (local46 pa) (s.engRead c.agent src p.2.2 c.uov) ∧
          ((t.core core).chan ch).run = some { c with
            copied := (i, 0) :: c.copied
            done := c.done ++ [i] } ∧ t.wefts = s.wefts) ∧
      (∀ i m, c.mcast = true → c.acks.contains (i, m) = true →
        let left := c.acks.filter (· != (i, m))
        ∃ t, exec (.multicastAck core ch i m) s = .next t ∧
          ((t.core core).chan ch).run = some { c with
            acks := left
            done := if c.performed i = true ∧ ∀ a ∈ left, a.1 ≠ i then c.done ++ [i] else c.done }) ∧
      (c.parkSeq = none → c.acks = [] → c.fail ≠ 0 ∨ tmplChunks c.tmpl ≤ c.done.length →
        ∃ t, exec (.shuttleCommandComplete core ch) s = .next t ∧ t.wefts = s.wefts ∧
          (∀ d a, mget (t.core d).spad a = mget (s.core d).spad a) ∧ (c.fail = 0 → t.mem = s.mem) ∧
          (t.core core).chan ch = Chan.start { (s.core core).chan ch with
            run := none
            done := ((s.core core).chan ch).done + 1
            err := c.fail })

/-- R127 to R130, R132, R135, R138: a ring's port tests each put by its ACL as it comes, refuses it, admits the oldest
into a slot, or lets it wait, and the body fills the slot; BASE and SHAPE empty the ring and MODE clears its drops;
a fold's first request of a round opens it, the round that every member has asked in (or whose timer is over) is
delivered, a barrier's requests being over then, a fill performs in its member's scratchpad, and a Window's store is
delivered to a member and acknowledged. Rests on the model's choices of assumptions 19 and 20. -/
def Obligations.RingsAndFoldsComplete : Prop :=
  ∀ (s : State),
    (∀ core ring, let x := s.ring core ring
      let becomes := fun (y : Ring) => ∃ t, exec (.ringPutAdmit core ring) s = .next t ∧ SameBytes s t ∧ t.ring core ring = y
      let admits := fun (q : Put) => becomes { x with
        port := x.port.erase q
        writing := x.writing ++ [{ q with body := s.putBody q x.log2, poison := s.putPoison q, slot := x.putIdx }]
        free := x.free - 1
        putIdx := (x.putIdx + 1) % x.count }
      let refuses := fun (q : Put) => becomes { x with
        port := x.port.erase q
        drops := min (x.drops + 1) (2 ^ 32 - 1) }
      (∀ p, x.port.find? (fun p => !p.waits) = some p →
        (s.allows x p = false → refuses p) ∧
        (s.allows x p = true → s.ringFull x = false → admits (x.port.headD p)) ∧
        (s.allows x p = true → s.ringFull x = true → (x.fail = true ∨ ∃ h, p.src = .host h) → refuses p) ∧
        (s.allows x p = true → s.ringFull x = true → x.fail = false → (∀ h, p.src ≠ .host h) →
          becomes { x with port := x.port.map fun y => if y = p then { y with waits := true } else y })) ∧
      ∀ p rest, x.port = p :: rest → (∀ q ∈ x.port, q.waits = true) → s.ringFull x = false → admits p) ∧
    (∀ core ring p rest team, (s.ring core ring).writing = p :: rest → (s.ring core ring).owner = some team →
      ∃ t, exec (.ringSlotFilled core ring) s = .next t ∧ (∀ a, mget t.mem a = mget s.mem a) ∧
        t.ring core ring = { s.ring core ring with
          writing := rest
          filled := (s.ring core ring).filled + 1 } ∧
        ((∀ c h i, p.src ≠ .shuttle c h i) →
          mread (t.core core).spad (assoc (s.team team).cores (s.team team).bases core + (s.ring core ring).base +
            p.slot * 2 ^ (s.ring core ring).log2) p.body.length = p.body)) ∧
    (∀ pw p, s.pwriteOf pw (fun n => decide (0x300 ≤ n) && decide (n < 0x360) && decide ((n - 0x300) % 6 ≤ 1)) = some p →
      (s.ring p.core ((p.num - 0x300) / 6)).writing = [] → ∃ t, exec (.ringReshape pw) s = .next t ∧ SameBytes s t ∧
        let y := t.ring p.core ((p.num - 0x300) / 6)
        (y.base, y.count, y.log2) = (s.ring p.core ((p.num - 0x300) / 6)).shaped ((p.num - 0x300) % 6) p.val.toNat ∧
        y.filled = 0 ∧ y.takeIdx = 0 ∧ y.putIdx = 0 ∧ y.free = y.count) ∧
    (∀ pw p, s.pwriteOf pw (fun n => decide (0x300 ≤ n) && decide (n < 0x360) && decide ((n - 0x300) % 6 = 5)) = some p →
      ∃ t, exec (.ringModeWrite pw) s = .next t ∧ SameBytes s t ∧
        t.ring p.core ((p.num - 0x300) / 6) = { s.ring p.core ((p.num - 0x300) / 6) with
          fail := p.val.getLsbD 0
          drops := 0 }) ∧
    (∀ id r key off len n, s.req id = some r → r.phase = .probe → s.mayReach r = true → r.op = .fld key off len n → (s.fold key).delivered ≤ n →
      n ≤ (s.fold key).delivered + 4 → (s.fold key).rounds.find? (fun x => decide (x.n = n)) = none →
      ∃ t, exec (.foldRequestArrival id) s = .next t ∧ SameBytes s t ∧ t.req id = some { r with phase := .waiting } ∧
        (t.fold key).rounds = (s.fold key).rounds ++ [⟨n, r.va, len, [r.agent.core], [r.id],
          if n = (s.fold key).delivered then expiryOf (s.fold key).timer (s.core r.agent.core).cyc else none, false, none⟩]) ∧
    (∀ die f x, (s.fold (64 * die + f)).rounds.find? (fun x => decide (x.n = (s.fold (64 * die + f)).delivered)) = some x →
      (x.fault = none → x.len = 0 → (s.fold (64 * die + f)).allAsked x = true ∨ x.expired = true →
        ∃ t, exec (.foldRoundClose die f) s = .next t ∧ SameBytes s t ∧
          (t.fold (64 * die + f)).delivered = (s.fold (64 * die + f)).delivered + 1 ∧ (∀ id ∈ x.reqs, t.req id = none) ∧
          ∀ y ∈ (t.fold (64 * die + f)).rounds, y.n ≠ (s.fold (64 * die + f)).delivered) ∧
      (∀ c a asked, x.timer = some c → x.asked = a :: asked → c ≤ (s.core a).cyc → (s.fold (64 * die + f)).allAsked x = false →
        ∃ t, exec (.foldTimerExpiry die f) s = .next t ∧ SameBytes s t ∧
          (t.fold (64 * die + f)).rounds = (s.fold (64 * die + f)).rounds.map fun y => if y.n = x.n then { y with expired := true } else y)) ∧
    (∀ id r key off len n p ps, s.req id = some r → r.op = .fld key off len n → r.parts = p :: ps → r.satisfied = false →
      r.phase = .booked ∨ r.phase = .answered → ∃ t, exec (.foldFill id) s = .next t ∧ (∀ a, mget t.mem a = mget s.mem a) ∧
        (∀ i, i < len / 64 → mread (t.core r.agent.core).spad (s.spbase r.key + off + 64 * i) 64 =
          leBytes 64 (bits p.val (512 * i) 512)) ∧
        ∀ c a, (c = r.agent.core → a < s.spbase r.key + off ∨ s.spbase r.key + off + 64 * (len / 64) ≤ a) →
          mget (t.core c).spad a = mget (s.core c).spad a) ∧
    ∀ die f idx member w, (s.fold (64 * die + f)).window[idx]? = some w → w.unacked.contains member = true →
      (∀ k tm q, w.owed.contains member = true → w.owed.contains (1024 + member) = false → w.pieces = [q] →
        ((s.fold (64 * die + f)).window.take idx).any (fun x => decide (x.src = w.src) && x.owed.contains member) = false →
        s.memberTeam (s.fold (64 * die + f)) member = some (k, tm) →
        ∃ t, exec (.foldWindowDelivery die f idx member) s = .next t ∧
          mread (t.core member).spad (assoc tm.cores tm.bases member + q.off) q.bytes.length = q.bytes ∧
          (t.fold (64 * die + f)).window[idx]? = some { w with owed := w.owed.filter (· != member) }) ∧
      (w.owed.contains member = false → w.owed ≠ [] ∨ w.unacked.filter (· != member) ≠ [] →
        ∃ t, exec (.foldWindowAck die f idx member) s = .next t ∧ SameBytes s t ∧
          (t.fold (64 * die + f)).window[idx]? = some { w with unacked := w.unacked.filter (· != member) })

namespace Sys2Proof.Claims

/-- The value that an output of a loom entry starts from (R198): 0 under ZERO, else the tile's element. -/
def startAcc (s : State) (core : Nat) (o : MmaOp) (i j : Nat) : Fl :=
  if o.zero then Fl.fin false 0 0 else f32Fmt.decode (lookD (accKey o.tile i j) (0 : W32) (s.core core).acc).toNat

/-- Every check of a list passes. -/
def AllPass (cs : List Check) : Prop := ∀ c ∈ cs, ∃ g w, c = .ok g w

end Sys2Proof.Claims

/-- R117, R145 to R147, R155, R198, R317, R318, R326, R327: a loom entry begins with its cost in cycles and ends with
the outputs of its product in its tile; declarations start and expire; a sample stores temperatures and ages droops;
a record whose counters have arrived is met, a free loom takes the record that is next, and a task whose pages still
translate ends with its outputs written. Rests on the model's choice of assumption 24. -/
def Obligations.LoomAndTasksComplete : Prop :=
  ∀ (s : State) (core : Nat),
    (∀ a b rest, (s.core core).loomq = .oprdy a b :: rest → (s.core core).loomRun = none → (s.core core).task = none →
      ∃ t, exec (.loomEntryBegin core) s = .next t ∧ SameBytes s t ∧ (t.core core).loomq = rest) ∧
    (∀ o rest, (s.core core).loomq = .mma o :: rest → (s.core core).loomRun = none → (s.core core).task = none → o.faults = [] →
      (∀ d ∈ (s.core core).decls, d.ctx = o.agent.ctx → d.started = true) → AllPass ((s.operandChecks o).map (·.2)) →
      ∀ i ∈ [Instr.loomEntryBegin core, .engineStep (.loomBegin core)], ∃ t, exec i s = .next t ∧ SameBytes s t ∧
        (t.core core).loomRun = some o ∧ (t.core core).loomq = rest ∧
        (t.core core).loomEnd = (s.core core).cyc + o.k / groupSize o.fa o.fb *
          (if 4 < intensity o.m o.n ∧ (s.core core).covers o.agent.ctx (intensity o.m o.n) = false then 2 else 1) + 24) ∧
    (∀ o ys, (s.core core).loomRun = some o → (s.core core).loomEnd ≤ (s.core core).cyc →
      s.product o core (startAcc s core o) = .ok ys → o.taint = false → s.opPoison o core = false →
      (s.core core).badElement o = none → o.m ≤ 32 → o.n ≤ 32 →
      ∃ t, exec (.loomEntryComplete core) s = .next t ∧ SameBytes s t ∧ (t.core core).loomRun = none ∧
        ∀ i j, i < o.m → j < o.n →
          lookD (accKey o.tile i j) (0 : W32) (t.core core).acc = BitVec.ofNat 32 (ys.getD (i * o.n + j) 0)) ∧
    (∀ d ∈ (s.core core).decls, d.started = false → d.start ≤ (s.core core).cyc →
      ∃ t, exec (.declarationStart core d.ctx) s = .next t ∧ SameBytes s t ∧ { d with started := true } ∈ (t.core core).decls ∧
        ∀ e ∈ (t.core core).decls, e.ctx = d.ctx → e.start ≤ (s.core core).cyc → e.started = true) ∧
    (∀ ctx, ∃ t, exec (.declarationExpiry core ctx) s = .next t ∧ SameBytes s t ∧
      ∀ e, e ∈ (t.core core).decls ↔ e ∈ (s.core core).decls ∧
        ¬(e.ctx = ctx ∧ e.started = true ∧ e.start + 2 ^ e.len ≤ (s.core core).cyc)) ∧
    (∀ (readings : List (Nat × Nat)) temp, core < Config.cores → readings.find? (fun r => decide (r.1 = core)) = some (core, temp) →
      ∃ t, exec (.thermalSample readings) s = .next t ∧ SameBytes s t ∧ t.core core = (s.core core).sample temp) ∧
    (core < Config.cores → ∃ t, exec (.droopEvent core) s = .next t ∧ SameBytes s t ∧
      (t.core core).droops = (s.core core).droops ++ [0]) ∧
    (∀ m tenant queue idx k, (lookD (8 * tenant + queue) [] (s.meadow m).queues)[idx]? = some k → k.parkSeq = none →
      s.taskMet k.agent ((taskWaits k.record).map fun w => s.taskCheck k.agent .block w.1) = true →
      (∀ w ∈ taskWaits k.record, ∃ g x, (s.taskCheck k.agent .block w.1).2.2 = .ok g x ∧
        (leNat (s.homeRead k.agent g 4) + 2 ^ 16 - w.2) % 2 ^ 16 < 2 ^ 15) →
      ∃ t, exec (.counterRecheck m tenant queue idx) s = .next t ∧ SameBytes s t ∧
        (lookD (8 * tenant + queue) [] (t.meadow m).queues)[idx]? = some { k with met := true }) ∧
    (∀ tenant key idx k, s.loomFree core = true →
      ((List.range 16).map fun i => ((s.meadow (meadowOf core)).rr + 1 + i) % 16).findSome?
        (fun n => ((s.meadow (meadowOf core)).pick n).map fun p => (n, p)) = some (tenant, key, idx, k) →
      s.taskMet k.agent (s.taskChecks k) = true → AllPass ((s.taskChecks k).map (·.2.2)) →
      ∃ t, exec (.taskDispatch core) s = .next t ∧ SameBytes s t ∧
        (t.core core).task = some k ∧ (t.meadow (meadowOf core)).rr = tenant ∧
        lookD key [] (t.meadow (meadowOf core)).queues = (lookD key [] (s.meadow (meadowOf core)).queues).eraseIdx idx) ∧
    (∀ k ys, (s.core core).task = some k → (s.core core).loomEnd ≤ (s.core core).cyc →
      s.taskMet k.agent (s.taskChecks k) = true → AllPass ((s.taskChecks k).map (·.2.2)) → s.taskProduct k = .ok ys →
      ∃ t, exec (.taskComplete core) s = .next t ∧ (t.core core).task = none ∧
        ∀ pa o w, taskM k.record = 1 → taskN k.record = 1 → taskMode k.record = 0 → taskSig k.record = 0 →
          k.past = [] → s.opPoison k.op k.agent.core = false →
          ((s.opFetch k.op k.agent.core).taskCheck k.agent .write (tk k.record 16 8)).2.2 = .ok (.mem pa o) w →
          Wrote s t (local46 pa) (leBytes 4 (ys.getD 0 0))) ∧
    ∀ (a b : Nat) (k : ChunkCopy),
      exec (.engineStep (.shuttle core a k)) s = exec (.shuttleChunk core a k) s ∧
      exec (.engineStep (.loomEnd core)) s = exec (.loomEntryComplete core) s ∧
      exec (.engineStep (.ringAdmit core a)) s = exec (.ringPutAdmit core a) s ∧
      exec (.engineStep (.ringFill core a)) s = exec (.ringSlotFilled core a) s ∧
      exec (.engineStep (.foldClose a b)) s = exec (.foldRoundClose a b) s ∧
      exec (.engineStep (.foldFill a)) s = exec (.foldFill a) s ∧
      exec (.engineStep (.cell a)) s = exec (.readModifyWrite a) s

/-- R148 to R150, R152 to R154, R157 to R159, R164, R165, R182: a launch that is accepted gives its weft the handle and
the grid its place in its queue, one that is not gives 0 and its status; an indirect launch takes its count; the
quantum ends for the queues mapped longest; a team is placed, starts with the registers that R158 states, and
retires; a grid completes and its waiters go on; system software ends a grid and destroys a context. Rests on the
model's choices of assumptions 25, 26, 27, 28, 45 and 46. -/
def Obligations.GridsComplete : Prop :=
  ∀ (s : State),
    (∀ core slot indirect d dst zp, (s.weft (64 * core + slot)).hold = .launch indirect d dst zp → zp < 3 →
      let p := s.gridOf (64 * core + slot)
      let seq := if (s.tenant p.tenant).launchSeq = 0 then 1 else (s.tenant p.tenant).launchSeq
      let h := p.tenant * 2 ^ 28 + seq
      let g := gridOfDesc d indirect p h s.hub.acceptSeq
      ∃ t, exec (.launchAnswer core slot) s = .next t ∧ SameBytes s t ∧ (t.weft (64 * core + slot)).hold = .none ∧
        (t.weft (64 * core + slot)).zreg zp = decide (s.launchStatus g d % 2 = 1) ∧
        (t.weft (64 * core + slot)).zreg (zp + 1) = decide (2 ≤ s.launchStatus g d) ∧
        (s.launchStatus g d = 0 → (t.weft (64 * core + slot)).sreg dst = BitVec.ofNat 64 h ∧ t.grid h = g ∧
          (t.tenant p.tenant).pool = (s.tenant p.tenant).pool + 1) ∧
        (s.launchStatus g d ≠ 0 → (t.weft (64 * core + slot)).sreg dst = 0 ∧ t.grids = s.grids)) ∧
    (∀ grid tg w, let g := s.grid grid
      let a : Agent := ⟨g.ctx, g.tenant, (s.ctx g.ctx).asid, 0, 0, 0, 0, g.priv⟩
      g.indirect = true → s.atHead g = true → s.depDone g.tenant g.dep0 = true → s.depDone g.tenant g.dep1 = true →
      s.check a (BitVec.ofNat 64 g.cntva) 4 4 .read = .ok tg w → s.peerLost tg = false → s.poisonOf tg 4 = none →
      s.genMet 0 a.asid tg = true → leNat (s.homeRead a tg 4) ≠ 0 →
      s.teamsOk { g with gx := leNat (s.homeRead a tg 4), indirect := false } = true →
      ∃ t, exec (.launchiDequeue grid) s = .next t ∧ SameBytes s t ∧
        t.grid grid = { g with
          gx := leNat (s.homeRead a tg 4)
          indirect := false }) ∧
    (s.hub.quantum + 1000 * s.mgmt 0x10 ≤ s.micros → ∃ t, exec .queueRotation s = .next t ∧ SameBytes s t ∧
      t.hub.quantum = s.micros ∧
      t.hub.mapped = s.hub.mapped.drop (min 64 s.hub.waiting.length) ++ s.hub.waiting.take (min 64 s.hub.waiting.length) ∧
      t.hub.waiting = s.hub.waiting.drop (min 64 s.hub.waiting.length) ++ s.hub.mapped.take (min 64 s.hub.waiting.length)) ∧
    (∀ grid s1, let s0 := if s.ctxResident (s.grid grid).ctx then s else s.loadCtx (s.grid grid).ctx
      let g := s0.grid grid
      s0.placedNext g = some s1 → s0.outranked (s0.rankOf g (g.teamAt g.placed)) = false →
      ∃ t, exec (.teamPlacement grid) s = .next t ∧ t.teams = s1.teams ∧ t.grids = s1.grids ∧ t.wefts = s1.wefts ∧
        t.hub.rr = (s.grid grid).queueId) ∧
    (∀ team, (s.team team).life = .placed → (s.team team).stageFail = false → s.stagesOn team = false →
      (s.team team).staging = some [] ∨ (s.team team).staging = none ∧ s.stageWork team false = [] →
      let g := s.grid (s.team team).grid
      ∃ t, exec (.teamStart team) s = .next t ∧ (t.team team).life = .running ∧
        (g.started = true → ∀ a, mget t.mem a = mget s.mem a) ∧
        (g.started = false → Wrote s t (local46 ((s.ctx g.ctx).cregbase + 64))
          ((List.range 16).flatMap fun n => leBytes 4 (lookD n (0 : W32) (s.presetsOf g)).toNat)) ∧
        (∀ c ∈ (s.team team).cores, t.block c g.ctx = t.homeBlock g.ctx) ∧
        ∀ k ∈ (s.team team).wefts, (t.weft k).s = (s.firstWeft team (s.weft k)).s ∧
          ∀ l, l < (s.weft k).width → (t.weft k).lane l = (s.grid (s.team team).grid).lane (s.weft k).index l) ∧
    (∀ team, (s.team team).life ≠ .retired → (s.team team).life ≠ .saved → (s.team team).life ≠ .placed →
      s.teamQuiet team = true → s.heldBack team = false → s.stagesOn team = false →
      (s.team team).stageFail = true ∨ (s.team team).staging = some [] ∨
        (s.team team).staging = none ∧ s.stageWork team true = [] →
      ∃ t, exec (.teamRetire team) s = .next t ∧ SameBytes s t ∧ (t.team team).life = .retired ∧
        (t.grid (s.team team).grid).retired = (s.grid (s.team team).grid).retired + 1 ∧
        ((t.grid (s.team team).grid).failed = true ↔
          (s.grid (s.team team).grid).failed = true ∨ (s.team team).stageFail = true) ∧
        ∀ k, (t.weft k).live = true → (t.weft k).team ≠ team) ∧
    (∀ grid, (look grid s.grids).isSome = true → (s.grid grid).status = .pending → (s.grid grid).indirect = false →
      (s.grid grid).retired = (s.grid grid).placed → (s.grid grid).failed = false →
      (s.grid grid).placed = (s.grid grid).teamCount →
      ∃ t, exec (.gridComplete grid) s = .next t ∧ SameBytes s t ∧ (t.grid grid).status = .done ∧
        ∀ k n, (s.weft k).hold = .waitg grid n → (t.weft k).hold = .none) ∧
    (∀ grid k, look k s.wefts = some (s.weft k) → (s.grid grid).status = .pending → (s.weft k).live = true →
      (s.weft k).frozen = true → (s.team (s.weft k).team).grid = grid →
      ∃ t, exec (.systemSoftwareEndsGrid grid) s = .next t ∧ SameBytes s t ∧ (t.grid grid).failed = true ∧
        ∀ l ∈ (s.weft k).lanes.map (·.1), ((t.weft k).lane l).exited = true) ∧
    ∀ ctx, s.ctxResident ctx = false → ∃ t, exec (.contextDestroyed ctx) s = .next t ∧
      (t.ctx ctx).valid = false ∧ Wrote s t (local46 ((s.ctx ctx).cregbase + 16)) (leBytes 4 0) ∧
      (∀ k ∈ (t.ctx ctx).adds, k < 2) ∧ (∀ p ∈ t.l2pins, p.ctx ≠ ctx) ∧
      ∀ c, (t.block c ctx).l2used = 0 ∧ ∀ p ∈ (t.core c).pins, p.ctx ≠ ctx

/-- R156, R177 to R182, R185 to R187, R57, R264: halts, breakpoints and pre-emptions are asked for and taken, a halted
team runs on, a waiting grid is noted, a stopped team is saved and leaves its cores, a saved one comes back on the
cores that it is given; a dump leaves the team alone; a trigger latches a block once and a write of SNAPCNT arms the
latches again; hash masks and the registers of the context block take their values. Rests on the model's choices of
assumptions 25, 29 and 56. -/
def Obligations.SavesComplete : Prop :=
  ∀ (s : State) (team : Nat),
    ((s.team team).life = .halted → (s.team team).stop.preempt = true →
      ∃ t, exec (.teamStop team) s = .next t ∧ SameBytes s t ∧ (t.team team).life = .stopped) ∧
    ((s.team team).life = .running ∨ (s.team team).life = .stopping →
      (s.allStopped team = true → s.haltDue team = true → ∃ t, exec (.teamStop team) s = .next t ∧ SameBytes s t ∧
        (t.team team).life = .halted ∧ (t.team team).stop.halt = false ∧ (t.team team).stop.ordinal = none) ∧
      (s.allStopped team = true → s.haltDue team = false → (s.team team).stop.preempt = true →
        ∃ t, exec (.teamStop team) s = .next t ∧ SameBytes s t ∧ (t.team team).life = .stopped) ∧
      (∃ t, exec (.haltRequest team none) s = .next t ∧ SameBytes s t ∧ (t.team team).life = .stopping ∧
        (t.team team).stop = { (s.team team).stop with halt := true }) ∧
      (∀ o, ∃ t, exec (.haltRequest team (some o)) s = .next t ∧ SameBytes s t ∧ (t.team team).life = .stopping ∧
        (t.team team).stop = { (s.team team).stop with ordinal := some o }) ∧
      ((s.grid (s.team team).grid).cosched = false → s.staysPut team = false → ∃ t, exec (.preemptRequest team) s = .next t ∧ SameBytes s t ∧
        (t.team team).life = .stopping ∧ (t.team team).stop = { (s.team team).stop with preempt := true })) ∧
    ((s.team team).life = .halted → (s.team team).stop.preempt = false →
      ∃ t, exec (.debuggerResume team) s = .next t ∧ SameBytes s t ∧ (t.team team).life = .running) ∧
    (∀ grid, s.stuck (s.grid grid) ≠ [] → (s.grid grid).waitedSince = none →
      ∃ t, exec (.priorityPreemption grid) s = .next t ∧ SameBytes s t ∧ (t.grid grid).waitedSince = some s.micros) ∧
    (s.savable team = true →
      let s1 := s.settleTeam team
      let img := s1.teamImage team (cancelledOf (s1.teamReqs team))
      let ctx := (s.grid (s.team team).grid).ctx
      let g := s.ctxAgent ctx (s.ctx ctx).asid
      let places := s.poolPlaces ctx img.length
      let va := places.getD (s.any 59 % max 1 places.length) 0
      places ≠ [] → s.retrainsAt g va img.length = false → s.spanWaits g va img.length true = false →
      (s1.writeVa g va img img.length).2 = 0 →
      ∃ t, exec (.teamSave team) s = .next t ∧ (t.team team).life = .saved ∧ (t.team team).saveVa = va ∧
        (t.team team).saveSize = img.length ∧ ∀ k, (t.weft k).live = true → (t.weft k).team ≠ team) ∧
    (∀ cores, let g := s.grid (s.team team).grid
      s.mayResume team = true → g.cosched = false → s.imageWaits team = false →
      s.outranked (s.rankOf g (s.team team).index) = false → s.resumeCores team = some cores →
      ∃ t, exec (.teamResume team) s = .next t ∧ t.mem = (s.resumeOn team cores).mem ∧ t.wefts = (s.resumeOn team cores).wefts ∧
        t.teams = (s.resumeOn team cores).teams ∧ t.hub.rr = g.queueId) ∧
    (∀ asid va size, ∃ t, exec (.dump team asid va size) s = .next t ∧ t.wefts = s.wefts ∧ t.team team = s.team team) ∧
    (∀ block, s.hub.snapTrig = true → block < snapBlocks → block ∉ s.hub.snapLatched →
      ∃ t, exec (.snapshotLatch block) s = .next t ∧ SameBytes s t ∧ t.hub.snapLatched = s.hub.snapLatched ++ [block]) ∧
    (∀ v, ∃ t, exec (.snapcntWrite v) s = .next t ∧ SameBytes s t ∧ t.hub.snapCnt = 0 ∧ t.hub.snapHeld = false ∧
      t.hub.snapLatched = []) ∧
    (∀ pw p, s.pwriteOf pw (fun n => decide (0x400 ≤ n) && decide (n < 0x408)) = some p →
      let part := s.partOf (s.ctx p.ctx).asid
      (∀ x ∈ s.l2, (x.asids.any fun a => s.partOf a = part) = true → s.l2Held x = false) →
      ∃ t, exec (.hmaskWrite pw) s = .next t ∧ lookD (8 * part + (p.num - 0x400)) 0 t.hmask = p.val ∧
        (∀ e ∈ t.l2pins, s.partOf (s.ctx e.ctx).asid ≠ part) ∧
        (∀ ctx, s.partOf (s.ctx ctx).asid = part → ∀ k ∈ (t.ctx ctx).adds, k < 2) ∧
        ((∀ e ∈ s.l2pins, s.partOf (s.ctx e.ctx).asid ≠ part) → (∀ c ∈ s.ctxs, ∀ k ∈ c.2.adds, k < 2) →
          ∀ x ∈ t.l2, (x.asids.any fun a => s.partOf a = part) = false)) ∧
    (∀ pw p, s.pwriteOf pw (fun n => n = 0x022 || n = 0x030 || n = 0x031 || n = 0x032 || (0x100 ≤ n && n < 0x110)) = some p →
      let v := p.val.toNat % (if p.num = 0x031 ∨ p.num = 0x032 then 2 ^ 24 else 2 ^ 32)
      ∃ t, exec (.contextRegisterWrite pw) s = .next t ∧
        (∀ c b, look p.ctx (s.core c).blocks = some b → look p.ctx (t.core c).blocks = some (b.take p.num v)) ∧
        Wrote s t (local46 ((s.ctx p.ctx).cregbase + blockOff p.num)) (leBytes 4 v)) ∧
    ∀ ctx idx k, (s.ctx ctx).adds[idx]? = some k →
      let old := s.homeBlock ctx
      let v := counted k (if k = 0 then old.bp else if k = 1 then old.ub else old.l2used)
      ∃ t, exec (.contextCounterUpdate ctx idx) s = .next t ∧ (t.ctx ctx).adds = (s.ctx ctx).adds.eraseIdx idx ∧
        Wrote s t (local46 ((s.ctx ctx).cregbase + (if k = 0 then 0 else if k = 1 then 4 else 16))) (leBytes 4 v) ∧
        ∀ c b, look ctx (s.core c).blocks = some b → look ctx (t.core c).blocks =
          some (if k = 0 then { b with bp := v } else if k = 1 then { b with ub := v } else { b with l2used := v })

/-- R63, R187, R241, R351 to R354, R360 to R364: writes of the management and tenant blocks by their rules; the results
of the management commands; training of a memory stack; samples of power and the clock's step, the heat of a core;
reset, the stages of bring-up and the loss of power; an image that is loaded, and the answers of attestation. Rests
on the model's choices of assumptions 30, 31, 32, 33 and 34. -/
def Obligations.DeviceEventsComplete : Prop :=
  ∀ (s : State),
    (∀ tenant off v, tenant < 16 → off % 8 = 0 → off ≤ 0x88 →
      (∀ t ∈ s.teams, t.2.resident = true → (s.grid t.2.grid).tenant ≠ tenant) →
      ∃ t, exec (.registerWrite (.tenant tenant off) v) s = .next t ∧ SameBytes s t ∧
        lookD off 0 (t.tenant tenant).blk = v) ∧
    (∀ v : Word, v.toNat % 4096 = 0 → ∃ t, exec (.registerWrite (.management 0x30) v) s = .next t ∧ SameBytes s t ∧
      lookD 0x30 0 t.hub.mgmt = v) ∧
    (∀ v : Word, s.hub.busy = false → ∃ t, exec (.registerWrite (.management 0x20) v) s = .next t ∧ SameBytes s t ∧
      t.hub.busy = true ∧ t.hub.cmd = v.toNat % 256 ∧ t.hub.cmdArg = v.toNat / 256) ∧
    (s.commanded 1 = true → s.hub.ckptReserved = true → (∀ t ∈ s.teams, t.2.resident = false) → s.hub.mainPower = true →
      ∃ t n, exec .checkpoint s = .next t ∧ t.hub.busy = false ∧ t.hub.result = 0 ∧
        t.hub.ckptData = some (0x008000000000, n) ∧
        mread t.mem (local46 ckptControl) 64 = ckptHeader 0x008000000000 n) ∧
    (s.commanded 2 = true → ∃ t, exec .cellwb s = .next t ∧ t.hub.busy = false ∧ t.hub.result = 0 ∧
      ∀ b, look b t.cells = if b ∈ s.cellsOf (s.hub.cmdArg % 16) then none else look b s.cells) ∧
    (s.commanded 3 = true → s.hub.snapHeld = false → ∃ t, exec .snapCommand s = .next t ∧ SameBytes s t ∧
      t.hub.snapTrig = true ∧ t.hub.snapHeld = true ∧ t.hub.busy = false ∧ t.hub.result = 0) ∧
    (s.commanded 4 = true → (s.rateStep < 8 → ∃ t, exec .rate s = .next t ∧ SameBytes s t ∧ t.hub.busy = false ∧ t.hub.result = 2) ∧
      (8 ≤ s.rateStep → ∃ t, exec .rate s = .next t ∧ SameBytes s t ∧ (t.stack s.rateStack).retraining = true ∧ t.hub = s.hub)) ∧
    (s.commanded 5 = true → s.hub.cmdArg % 4096 = 0 → s.hub.cmdArg < 2 ^ 52 → s.isLocal s.hub.cmdArg = true →
      s.populated 0 (local46 s.hub.cmdArg) 8704 = true →
      s.routesOk (s.words s.hub.cmdArg 64) (s.words (s.hub.cmdArg + 512) 1024) = true →
      ∃ t, exec .peerroute s = .next t ∧ SameBytes s t ∧ t.hub.busy = false ∧ t.hub.result = 0 ∧
        (∀ i, i < 64 → lookD i 0 t.hub.routes = BitVec.ofNat 64 (s.rd (s.hub.cmdArg + 8 * i) 8)) ∧
        ∀ i, i < 1024 → lookD i 0 t.hub.grants = BitVec.ofNat 64 (s.rd (s.hub.cmdArg + 512 + 8 * i) 8)) ∧
    (s.hub.busy = true → s.hub.cmd = 0 ∨ 5 < s.hub.cmd → ∃ t, exec .unknownCommand s = .next t ∧ SameBytes s t ∧
      t.hub.busy = false ∧ t.hub.result = 1) ∧
    (∀ k, k < 8 → ∃ t, exec (.hbmRetrain k) s = .next t ∧ SameBytes s t ∧ (t.stack k).retraining = true) ∧
    (∀ k, (s.stack k).retraining = true → s.stackOwes k = false → ∃ t, exec (.hbmRetrainComplete k) s = .next t ∧ SameBytes s t ∧
      (t.stack k).retraining = false ∧
      (s.commanded 4 = true → s.rateStack = k → 8 ≤ s.rateStep → (t.stack k).step = s.rateStep ∧ t.hub.result = 0)) ∧
    (∀ mw, ∃ t, exec (.powerSample mw) s = .next t ∧ SameBytes s t ∧ t.hub.power = (mw :: s.hub.power).take 100) ∧
    (s.hub.power.length = 100 → s.hub.stage = 5 → ∃ t, exec .clockStep s = .next t ∧ SameBytes s t ∧
      (3000000 < s.hub.power.sum / 100 → t.hub.clock = max 8 (s.hub.clock - 1)) ∧
      (s.hub.power.sum / 100 < 2850000 → t.hub.clock = min 16 (s.hub.clock + 1)) ∧
      (2850000 ≤ s.hub.power.sum / 100 → s.hub.power.sum / 100 ≤ 3000000 → t.hub.clock = s.hub.clock)) ∧
    (∀ core deg, core < Config.cores → ∃ t, exec (.thermalThrottle core deg) s = .next t ∧ SameBytes s t ∧
      (t.core core).temp = deg ∧ (105 ≤ deg → (t.core core).hot = true) ∧ (deg < 95 → (t.core core).hot = false)) ∧
    (∃ t, exec .mainPowerLoss s = .next t ∧ t.hub.mainPower = false) ∧
    (∃ t, exec .deviceReset s = .next t ∧ t.wefts = [] ∧ t.teams = [] ∧ t.grids = [] ∧ t.hub.stage = State.reset.hub.stage ∧
      t.fw.verified = true ∧ t.fw.digests = []) ∧
    (s.hub.stage < 5 → s.fw.verified = true → s.hub.mainPower = true → ∃ t, exec .stageAdvance s = .next t ∧ SameBytes s t ∧
      t.hub.stage = s.hub.stage + 1 ∧ lookD 0x18 0 t.hub.mgmt = BitVec.ofNat 64 (s.hub.stage + 1)) ∧
    (∀ ctx (image : List (BitVec 8)), let s0 := s.loadCtx ctx
      imageOk image = true → (s0.ctx ctx).valid = true →
      ((sections image).filter loads).all (s0.sectionMapped (s0.ctxAgent ctx (s0.ctx ctx).asid)) = true →
      ∃ t, exec (.imageLoad ctx image) s = .next t ∧ t.wefts = s.wefts ∧
        (t.ctx ctx).presets = textPresets image ++ (s0.ctx ctx).presets ∧
        t.fw.digests = s.fw.digests ++ (if (tmplNum image 6 2).testBit 1 = true then [Config.sha512 image] else [])) ∧
    (∃ t, exec .getVersion s = .next t ∧ SameBytes s t ∧ t.fw.version = true ∧ t.fw.caps = false ∧ t.fw.algs = false) ∧
    (∃ t, exec .getCapabilities s = .next t ∧ SameBytes s t ∧ t.fw.caps = s.fw.version) ∧
    (∀ a h, ∃ t, exec (.negotiateAlgorithms a h) s = .next t ∧ SameBytes s t ∧
      t.fw.algs = (s.fw.caps && a.testBit 8 && h.testBit 2)) ∧
    (∀ a b c, ∀ i ∈ [Instr.getDigests, .getCertificate a b c, .challenge a b], ∃ t r, exec i s = .next t ∧
      t = { s with fw := { s.fw with response := r } }) ∧
    ∀ index d, 3 ≤ index → s.fw.digests[index - 3]? = some d → ∃ t r, exec (.getMeasurements index) s = .next t ∧
      SameBytes s t ∧ t.fw.response = r ++ leBytes 64 d

/-! ### The whole machine -/

/-- R200, R202, R204 to R218: the decoder reads from the bytes of a well-formed instruction that instruction, with every
field as it was, wherever the bytes lie within a fetch block and whatever follows them. -/
def Obligations.RoundTrip : Prop :=
  ∀ (i : Instr) (pc : Nat) (bs rest : List Byte), i.WellFormed → encode i = some bs → pc % 4 = 0 →
    pc % 32 + bs.length ≤ 32 → decodeWord pc (bs ++ rest) = .ok (i, bs.length)

namespace Sys2Proof.Claims

/-- The unassigned OPC values as R219 lists them. -/
def unassigned : List Nat :=
  [(0x16, 0x1F), (0x39, 0x3F), (0x62, 0x6F), (0x8A, 0x9F), (0xB8, 0xBF), (0xC8, 0xCF), (0xDD, 0xDF), (0xEA, 0xFF)].flatMap
    fun r => (List.range (r.2 + 1 - r.1)).map (r.1 + ·)

end Sys2Proof.Claims

/-- R219: the unassigned OPC values number 94, the others are assigned, and a word with an unassigned one is no
instruction at any length, whatever else it holds; the step that fetches it takes the trap ILLOP in every lane of the
decision. (A word that crosses a fetch block has failed an earlier check of R202.) -/
def Obligations.UnassignedOpcodesTrap : Prop :=
  let crosses := fun (pc : Nat) (bs : List Byte) => leNat bs % 4 ≠ 3 ∧ 32 < pc % 32 + lenBytes (BitVec.ofNat 2 (leNat bs))
  unassigned.length = 94 ∧ (∀ opc, opc < 256 → (opRow opc = none ↔ opc ∈ unassigned)) ∧
  (∀ (pc : Nat) (bs : List Byte), leNat bs / 32 % 256 ∈ unassigned → pc % 4 = 0 → ¬crosses pc bs →
    decodeWord pc bs = .error .illop) ∧
  ∀ (s : State) (bs : List Byte) (pa : Nat) (w : WalkRes),
    let u := s.countStep
    let va := u.cur.va.toNat
    s.issuing = true → va < 2 ^ 52 → va % 4 = 0 → u.fetch u.key va (min 16 (32 - va % 32)) = .bytes bs pa w →
    leNat bs / 32 % 256 ∈ unassigned → ¬crosses va bs →
    step s = .next ((u.keepFetch u.key pa w).enterTrap u.key 0x01 0 u.cur.lanes u.cur.va u.cur.va)

/-- R161, R202, R211: where the bytes at the VA of the decision decode to an instruction that may stand there and that
touches no marked register, or is barred from this mode, the step is that instruction's meaning at the state that
has kept the fetch and dropped the marks of what the word overwrites, and then the chain goes on or the decision
ends. With no decision to carry out the step is the oldest move of the agenda, or a free one when it is empty (the
model's, assumption 1): an event's own meaning, a cycle of a core's clock, or nothing where the move is a word,
which only a decision issues. Rests on the model's choices of assumptions 4 and 5. -/
def Obligations.StepRunsDecoded : Prop :=
  ∀ (s : State), let u := s.countStep
    (∀ (bs : List Byte) (pa n : Nat) (w : WalkRes) (i : Instr) (r : Raw),
      let va := u.cur.va.toNat
      let v0 : State := { u.keepFetch u.key pa w with cur := { u.cur with len := n } }
      let ls := (rawInfo r).effect v0.cw v0.lanes
      let v := v0.overwritten v0.key (rawInfo r) ls
      s.issuing = true → va < 2 ^ 52 → u.fetch u.key va (min 16 (32 - va % 32)) = .bytes bs pa w →
      decodeWord va bs = .ok (i, n) → i.raw = some r →
      s.cur.pos = 0 ∨ memberBroken (Raw.ofBits (BitVec.ofNat 128 (leNat bs))) = none →
      (privOpcs.contains r.opc.toNat = true ∧ s.privOf s.key = false) ∨
        (handlerOpcs.contains r.opc.toNat = true ∧ s.cw.hmode = false) ∨
        (∀ l ∈ ls, v0.touchOf v0.key l (rawInfo r) (shflOf i) = none) →
      step s = settle i (exec i v) ∧ (∀ t, exec i v = .next t → step s = .next (t.afterWord i)) ∧
      v = { s with
        fresh := s.fresh + 1
        cores := v.cores
        l2 := v.l2
        msc := v.msc
        rows := v.rows
        wefts := v.wefts
        cur := { s.cur with len := n } } ∧
      ((∀ l ∈ ls, (s.cw.lane l).fileMarks = []) → v.wefts = s.wefts)) ∧
    (s.issuing = false →
      (∀ m ms, s.agenda = m :: ms → u.nextMove = (m, { u with agenda := ms })) ∧
      (s.agenda = [] → u.nextMove.2 = u) ∧
      (∀ i, u.nextMove.1 = .act i →
        (i.raw = none → step s = exec i u.nextMove.2) ∧ (i.raw ≠ none → step s = .next u.nextMove.2)) ∧
      ∀ core, u.nextMove.1 = .tick core → step s = .next (u.nextMove.2.tick core))

/-- The memory of the device keeps its canonical form at every step, from every state that has it (assumption 6: the
form is the model's): addresses rise, and no byte is listed that an unlisted one reads as. -/
def Obligations.MemoryKept : Prop :=
  ∀ (s t : State), Memory.wf s.mem = true → step s = .next t → Memory.wf t.mem = true

/-- R56, R76, R91, R92, R127, R168, R351, R362: at reset the management block holds the values of its map, bring-up is
at stage 1, every control register and every time register reads 0 but those that identify the core (R262), and
every memory is in its canonical form. No team is resident and no page is mapped: the values of registers without a
stated reset value are the model's (assumption 3). Rests on the model's choice of assumption 6. -/
def Obligations.ResetValues : Prop :=
  let s := State.reset
  s.memOk = true ∧ s.hub.stage = 1 ∧ s.devnum = 0 ∧ s.mgmt 0x08 = 0 ∧ s.mgmt 0x10 = 2 ∧ s.mgmt 0x18 = 1 ∧ s.mgmt 0x30 = 0 ∧
  s.mgmt 0x38 = 256 ∧ s.mgmt 0x40 = 0 ∧ s.mgmt 0x48 = 0 ∧ s.hub.busy = false ∧
  (∀ key n, n = 0x000 ∨ (0x010 ≤ n ∧ n < 0x018) ∨ (0x020 ≤ n ∧ n < 0x024) ∨ (0x030 ≤ n ∧ n < 0x033) ∨ n = 0x040 ∨
    (0x100 ≤ n ∧ n < 0x110) ∨ (0x200 ≤ n ∧ n < 0x240) ∨ (0x300 ≤ n ∧ n < 0x360) ∨ (0x400 ≤ n ∧ n < 0x408) →
    s.ctrlReg key n = 0) ∧
  (∀ core, core < 384 → s.ctrlReg (64 * core) 0x001 =
    core % 16 * 2 ^ 14 + core / 16 % 6 * 2 ^ 11 + core / 96 * 2 ^ 9 + core) ∧
  (∀ key l n, ((s.weft key).lane l).treg n = 0) ∧ (∀ a, mget s.mem a = 0) ∧ (∀ key, (s.weft key).live = false) ∧
  s.fw.digests = [] ∧ s.agenda = [] ∧ s.issuing = false

namespace Sys2Proof.Claims

def plainCtl : Ctl := ⟨false, false, 0, false, false, false⟩

/-- Why the bytes at a VA are no instruction. -/
def refusal (pc : Nat) (bs : List Byte) : Option Reject :=
  match decodeWord pc bs with
  | .error e => some e
  | .ok _ => none

end Sys2Proof.Claims

/-- R202, R203 and the worked encodings of the manual: each word is the instruction it is said to be; the all-zero
word, a literal-pool header, a word across the end of a fetch block and a word off a multiple of 4 are refused as R202
says. -/
def Obligations.WordsDecode : Prop :=
  refusal 0 (leBytes 8 0) = some (.illfld 23) ∧ refusal 0 (leBytes 8 3) = some .illop ∧
  refusal 28 (leBytes 4 0) = some (.illlen 0) ∧ refusal 2 (leBytes 8 0) = some .align ∧
  refusal 28 (leBytes 4 0x01816E00) = some (.illlen 0) ∧
  refusal 0 (leBytes 16 (0xBF8045800101F401 + 2 ^ 64 * 0x0000045400000000)) = some (.illlen 1) ∧
  -- the NOPs of R203
  decodeTableWord 64 0xBF80BF80BF800000 = some (.nop ⟨plainCtl, 0, .none, .none, .none, 0⟩) ∧
  decodeTableWord 96 0xBF80BF80BF800001 = some (.nop96 ⟨plainCtl, 0, .none, .none, .none, 0⟩) ∧
  decodeTableWord 128 0xBF80BF80BF800002 = some (.nop128 ⟨plainCtl, 0, .none, .none, .none, 0⟩) ∧
  -- (9.3) fadd.f32 v3, v1, v2.rot1
  decodeTableWord 64 0x0108008001816E00 =
    some (.fadd ⟨plainCtl, 11, .v 3, .v 1 0 0, .v 2 1 0, .none, 0, false, false⟩) ∧
  -- (4.1) ld.b32.acq.device v2, [s11], t0
  decodeTableWord 128 (0xBF8045800101F402 + 2 ^ 64 * 0x0000045400000000) =
    some (.ld ⟨plainCtl, 15, .v 2, .s 11 0, .none, 0, some 0, 2, 1, 4, 0, 0⟩) ∧
  -- (10.1) iadd.i32 v5, v1, -3
  decodeTableWord 64 0xFFFD00800280C800 =
    some (.iadd ⟨plainCtl, 6, .v 5, .v 1 0 0, .imm 0x3FFD, .none, 0, false, false⟩) ∧
  -- (10.2) ffma.f32.rz.sat v6, v1, v2, v3
  decodeTableWord 96 (0x0100008003016E61 + 2 ^ 64 * 0x00050180) =
    some (.ffma ⟨plainCtl, 11, .v 6, .v 1 0 0, .v 2 0 0, .v 3 0 0, 1, true, true⟩) ∧
  -- (11.8) [p1] bra done
  decodeTableWord 96 (0xBF80BF80BFC40021 + 2 ^ 64 * 0x00000010) =
    some (.bra ⟨⟨true, false, 1, false, false, false⟩, 0, .none, .none, .none, 0x10⟩) ∧
  -- (11.9) call.rot16 f
  decodeTableWord 96 (0xBF80BF80BF820081 + 2 ^ 64 * 0xFFFFFF80) =
    some (.call ⟨plainCtl, 16, .none, .none, .none, 0xFFFFFF80⟩) ∧
  -- (11.10) smovi s9, 0x0123456789ABCDEF
  decodeTableWord 128 (0xBF80BF80448205C2 + 2 ^ 64 * 0x0123456789ABCDEF) =
    some (.smovi ⟨plainCtl, 16, .s 9, .none, .none, 0x0123456789ABCDEF⟩) ∧
  -- (4.2) st.b32.rel.device [s11], v1
  decodeTableWord 128 (0x00804580BF81F422 + 2 ^ 64 * 0x0000049000000000) =
    some (.st ⟨plainCtl, 15, .none, .s 11 0, .v 1 0 0, 0, none, 2, 2, 4, 0, 0⟩) ∧
  -- (12.1) rput.device v5, s20, v6, t1
  decodeTableWord 128 (0x03004A0002801802 + 2 ^ 64 * 0x0000040500000000) =
    some (.rput ⟨plainCtl, 0, .v 5, .s 20 0, .v 6 0 0, 0, some 1, 0, 0, 4, 0, 0⟩) ∧
  -- (12.2) fld.f5 z1, [s6], s7, t2
  decodeTableWord 128 (0x438043008C8018C2 + 2 ^ 64 * 0x0001400600000000) =
    some (.fld ⟨plainCtl, 0, .z 1, .s 6 0, .s 7 0, 0, some 2, 0, 0, 0, 0, 5⟩) ∧
  -- (14.3) mov.b32 v12, t0
  decodeTableWord 64 0xBF8084000601EA80 =
    some (.mov ⟨plainCtl, 15, .v 12, .t 0 0, .none, .none, 0, false, false⟩) ∧
  -- chkw.core s20
  decodeTableWord 128 (0xBF804A00BF801A02 + 2 ^ 64 * 0x0000020000000000) =
    some (.chkw ⟨plainCtl, 0, .none, .s 20 0, .none, 0x0000020000000000⟩)
end

