-- ==== Sys2Proof/Laws/Tables.lean ====
section
/-!
SUPPORT. Laws of tables and of memories: read after write, and the canonical form that every write keeps.
-/
namespace Sys2Proof.Machine

variable {α : Type}

/-! ### Reads after writes -/

@[simp] theorem look_put_same (k : Nat) (v : α) (t : Tab α) : look k (put k v t) = some v := by
  induction t with
  | nil => simp [put, look]
  | cons e t ih =>
    obtain ⟨j, u⟩ := e
    simp only [put]
    split
    · simp [look]
    · split
      · simp [look]
      · simp [look, *]

theorem look_put_other {k j : Nat} (h : j ≠ k) (v : α) (t : Tab α) : look j (put k v t) = look j t := by
  induction t with
  | nil => simp [put, look, h]
  | cons e t ih =>
    obtain ⟨i, u⟩ := e
    simp only [put]
    split
    · simp [look, h]
    · split
      · next h1 h2 => subst h2; simp [look, h]
      · simp only [look, ih]

theorem look_put (k j : Nat) (v : α) (t : Tab α) : look j (put k v t) = if j = k then some v else look j t := by
  split
  · next h => subst h; simp
  · next h => exact look_put_other h v t

@[simp] theorem lookD_put_same (k : Nat) (d v : α) (t : Tab α) : lookD k d (put k v t) = v := by simp [lookD]

theorem lookD_put_other {k j : Nat} (h : j ≠ k) (d v : α) (t : Tab α) : lookD j d (put k v t) = lookD j d t := by
  simp [lookD, look_put_other h]

theorem lookD_put (k j : Nat) (d v : α) (t : Tab α) : lookD j d (put k v t) = if j = k then v else lookD j d t := by
  simp only [lookD, look_put]; split <;> rfl

@[simp] theorem look_del_same (k : Nat) (t : Tab α) : look k (del k t) = none := by
  induction t with
  | nil => rfl
  | cons e t ih =>
    obtain ⟨j, u⟩ := e
    simp only [del]
    split
    · exact ih
    · simp [look, *]

theorem look_del_other {k j : Nat} (h : j ≠ k) (t : Tab α) : look j (del k t) = look j t := by
  induction t with
  | nil => rfl
  | cons e t ih =>
    obtain ⟨i, u⟩ := e
    simp only [del]
    split
    · next h1 => subst h1; simp [look, h, ih]
    · simp only [look, ih]

/-! ### Keys rising -/

theorem rising_tail {e : Nat × α} {t : Tab α} (h : rising (e :: t) = true) : rising t = true := by
  cases t with
  | nil => rfl
  | cons f t => obtain ⟨j, u⟩ := e; obtain ⟨k, v⟩ := f; simp [rising] at h; exact h.2

theorem rising_cons {j : Nat} {u : α} {t : Tab α} :
    rising ((j, u) :: t) = true ↔ (∀ e ∈ t, j < e.1) ∧ rising t = true := by
  induction t generalizing j u with
  | nil => simp [rising]
  | cons f t ih =>
    obtain ⟨k, v⟩ := f
    simp only [rising, Bool.and_eq_true, decide_eq_true_eq, List.mem_cons, forall_eq_or_imp, ih]
    constructor
    · rintro ⟨h1, h2, h3⟩
      exact ⟨⟨h1, fun e he => Nat.lt_trans h1 (h2 e he)⟩, h2, h3⟩
    · rintro ⟨⟨h1, _⟩, h2, h3⟩
      exact ⟨h1, h2, h3⟩

theorem mem_put {k : Nat} {v : α} {t : Tab α} {e : Nat × α} (h : e ∈ put k v t) : e = (k, v) ∨ e ∈ t := by
  induction t with
  | nil => simpa [put] using h
  | cons f t ih =>
    obtain ⟨j, u⟩ := f
    simp only [put] at h
    split at h
    · simpa using h
    · split at h
      · rcases List.mem_cons.1 h with h | h
        · exact .inl h
        · exact .inr (List.mem_cons_of_mem _ h)
      · rcases List.mem_cons.1 h with h | h
        · exact .inr (h ▸ List.mem_cons_self)
        · rcases ih h with h | h
          · exact .inl h
          · exact .inr (List.mem_cons_of_mem _ h)

theorem mem_del {k : Nat} {t : Tab α} {e : Nat × α} (h : e ∈ del k t) : e ∈ t := by
  induction t with
  | nil => exact h
  | cons f t ih =>
    obtain ⟨j, u⟩ := f
    simp only [del] at h
    split at h
    · exact List.mem_cons_of_mem _ (ih h)
    · rcases List.mem_cons.1 h with h | h
      · exact h ▸ List.mem_cons_self
      · exact List.mem_cons_of_mem _ (ih h)

theorem rising_put (k : Nat) (v : α) {t : Tab α} (h : rising t = true) : rising (put k v t) = true := by
  induction t with
  | nil => rfl
  | cons f t ih =>
    obtain ⟨j, u⟩ := f
    have h1 := rising_cons.1 h
    simp only [put]
    split
    · next hk =>
      refine rising_cons.2 ⟨fun e he => ?_, h⟩
      rcases List.mem_cons.1 he with he | he
      · subst he; exact hk
      · exact Nat.lt_trans hk (h1.1 e he)
    · split
      · next hk => subst hk; exact rising_cons.2 h1
      · next hk hn =>
        refine rising_cons.2 ⟨fun e he => ?_, ih h1.2⟩
        rcases mem_put he with he | he
        · subst he; simp; omega
        · exact h1.1 e he

theorem rising_del (k : Nat) {t : Tab α} (h : rising t = true) : rising (del k t) = true := by
  induction t with
  | nil => rfl
  | cons f t ih =>
    obtain ⟨j, u⟩ := f
    have h1 := rising_cons.1 h
    simp only [del]
    split
    · exact ih h1.2
    · exact rising_cons.2 ⟨fun e he => h1.1 e (mem_del he), ih h1.2⟩

/-! ### Memories -/

@[simp] theorem mget_mset_same (m : Memory) (a : Nat) (b : Byte) : mget (mset m a b) a = b := by
  unfold mset mget
  split
  · next h => subst h; simp [lookD]
  · simp

theorem mget_mset_other {a c : Nat} (h : c ≠ a) (m : Memory) (b : Byte) : mget (mset m a b) c = mget m c := by
  unfold mset mget
  split
  · simp [lookD, look_del_other h]
  · exact lookD_put_other h _ _ _

/-- A write keeps the canonical form. -/
theorem mset_wf {m : Memory} (h : Memory.wf m = true) (a : Nat) (b : Byte) : Memory.wf (mset m a b) = true := by
  simp only [Memory.wf, Bool.and_eq_true, List.all_eq_true, bne_iff_ne] at h ⊢
  unfold mset
  split
  · exact ⟨rising_del a h.1, fun e he => h.2 e (mem_del he)⟩
  · next hb =>
    refine ⟨rising_put a b h.1, fun e he => ?_⟩
    rcases mem_put he with he | he
    · subst he; exact hb
    · exact h.2 e he

theorem mwrite_wf {m : Memory} (h : Memory.wf m = true) (a : Nat) (bs : List Byte) :
    Memory.wf (mwrite m a bs) = true := by
  induction bs generalizing m a with
  | nil => exact h
  | cons b bs ih => exact ih (mset_wf h a b) (a + 1)

/-- Bytes outside those written read as before. -/
theorem mget_mwrite_outside (m : Memory) (a : Nat) (bs : List Byte) (c : Nat)
    (h : c < a ∨ a + bs.length ≤ c) : mget (mwrite m a bs) c = mget m c := by
  induction bs generalizing m a with
  | nil => rfl
  | cons b bs ih =>
    simp only [List.length_cons] at h
    rw [mwrite, ih (mset m a b) (a + 1) (by omega), mget_mset_other (by omega)]

/-- A byte written reads as written. -/
theorem mget_mwrite_inside (m : Memory) (a : Nat) (bs : List Byte) (i : Nat) (h : i < bs.length) :
    mget (mwrite m a bs) (a + i) = bs[i] := by
  induction bs generalizing m a i with
  | nil => simp at h
  | cons b bs ih =>
    cases i with
    | zero =>
      rw [mwrite, mget_mwrite_outside _ _ _ _ (by omega)]
      simp
    | succ i =>
      have := ih (mset m a b) (a + 1) i (by simpa using h)
      rw [mwrite, show a + (i + 1) = a + 1 + i by omega, this]
      simp

@[simp] theorem mread_length (m : Memory) (a n : Nat) : (mread m a n).length = n := by
  induction n generalizing a with
  | zero => rfl
  | succ n ih => simp [mread, ih]

/-- A read after a write of the same bytes gives them back. -/
theorem mread_mwrite (m : Memory) (a : Nat) (bs : List Byte) : mread (mwrite m a bs) a bs.length = bs := by
  have key : ∀ n, n ≤ bs.length → ∀ a', a' = a + (bs.length - n) →
      mread (mwrite m a bs) a' n = bs.drop (bs.length - n) := by
    intro n
    induction n with
    | zero => intro _ a' _; simp [mread]
    | succ n ih =>
      intro hn a' ha
      have h1 : bs.length - (n + 1) < bs.length := by omega
      rw [mread, ha, mget_mwrite_inside _ _ _ _ h1, ih (by omega) _ (by omega),
        List.drop_eq_getElem_cons h1, show bs.length - (n + 1) + 1 = bs.length - n by omega]
  have := key bs.length (Nat.le_refl _) a (by omega)
  simpa using this

end Sys2Proof.Machine
end

