-- ==== Sys2Proof/Laws/State.lean ====
section
/-!
SUPPORT. What each update of the state leaves as it was, field by field, and reads of the entry it writes.
-/
namespace Sys2Proof.Machine

/-! ### setCore -/

@[simp] theorem setCore_fresh (s : State) (k : Nat) (x : Core) : (s.setCore k x).fresh = s.fresh := rfl
@[simp] theorem setCore_agenda (s : State) (k : Nat) (x : Core) : (s.setCore k x).agenda = s.agenda := rfl
@[simp] theorem setCore_issuing (s : State) (k : Nat) (x : Core) : (s.setCore k x).issuing = s.issuing := rfl
@[simp] theorem setCore_cur (s : State) (k : Nat) (x : Core) : (s.setCore k x).cur = s.cur := rfl
@[simp] theorem setCore_nextId (s : State) (k : Nat) (x : Core) : (s.setCore k x).nextId = s.nextId := rfl
@[simp] theorem setCore_mem (s : State) (k : Nat) (x : Core) : (s.setCore k x).mem = s.mem := rfl
@[simp] theorem setCore_tags (s : State) (k : Nat) (x : Core) : (s.setCore k x).tags = s.tags := rfl
@[simp] theorem setCore_poison (s : State) (k : Nat) (x : Core) : (s.setCore k x).poison = s.poison := rfl
@[simp] theorem setCore_cells (s : State) (k : Nat) (x : Core) : (s.setCore k x).cells = s.cells := rfl
@[simp] theorem setCore_cellBy (s : State) (k : Nat) (x : Core) : (s.setCore k x).cellBy = s.cellBy := rfl
@[simp] theorem setCore_cellUse (s : State) (k : Nat) (x : Core) : (s.setCore k x).cellUse = s.cellUse := rfl
@[simp] theorem setCore_l2 (s : State) (k : Nat) (x : Core) : (s.setCore k x).l2 = s.l2 := rfl
@[simp] theorem setCore_msc (s : State) (k : Nat) (x : Core) : (s.setCore k x).msc = s.msc := rfl
@[simp] theorem setCore_rows (s : State) (k : Nat) (x : Core) : (s.setCore k x).rows = s.rows := rfl
@[simp] theorem setCore_l2pins (s : State) (k : Nat) (x : Core) : (s.setCore k x).l2pins = s.l2pins := rfl
@[simp] theorem setCore_hmask (s : State) (k : Nat) (x : Core) : (s.setCore k x).hmask = s.hmask := rfl
@[simp] theorem setCore_reqs (s : State) (k : Nat) (x : Core) : (s.setCore k x).reqs = s.reqs := rfl
@[simp] theorem setCore_slots (s : State) (k : Nat) (x : Core) : (s.setCore k x).slots = s.slots := rfl
@[simp] theorem setCore_wefts (s : State) (k : Nat) (x : Core) : (s.setCore k x).wefts = s.wefts := rfl
@[simp] theorem setCore_teams (s : State) (k : Nat) (x : Core) : (s.setCore k x).teams = s.teams := rfl
@[simp] theorem setCore_grids (s : State) (k : Nat) (x : Core) : (s.setCore k x).grids = s.grids := rfl
@[simp] theorem setCore_ctxs (s : State) (k : Nat) (x : Core) : (s.setCore k x).ctxs = s.ctxs := rfl
@[simp] theorem setCore_tenants (s : State) (k : Nat) (x : Core) : (s.setCore k x).tenants = s.tenants := rfl
@[simp] theorem setCore_folds (s : State) (k : Nat) (x : Core) : (s.setCore k x).folds = s.folds := rfl
@[simp] theorem setCore_meadows (s : State) (k : Nat) (x : Core) : (s.setCore k x).meadows = s.meadows := rfl
@[simp] theorem setCore_bumps (s : State) (k : Nat) (x : Core) : (s.setCore k x).bumps = s.bumps := rfl
@[simp] theorem setCore_pwrites (s : State) (k : Nat) (x : Core) : (s.setCore k x).pwrites = s.pwrites := rfl
@[simp] theorem setCore_faults (s : State) (k : Nat) (x : Core) : (s.setCore k x).faults = s.faults := rfl
@[simp] theorem setCore_hbm (s : State) (k : Nat) (x : Core) : (s.setCore k x).hbm = s.hbm := rfl
@[simp] theorem setCore_fw (s : State) (k : Nat) (x : Core) : (s.setCore k x).fw = s.fw := rfl
@[simp] theorem setCore_hub (s : State) (k : Nat) (x : Core) : (s.setCore k x).hub = s.hub := rfl
@[simp] theorem core_setCore_same (s : State) (k : Nat) (x : Core) : (s.setCore k x).core k = x := by
  simp [State.core, State.setCore]
theorem core_setCore_other {s : State} {k j : Nat} (x : Core) (h : j ≠ k) : (s.setCore k x).core j = s.core j := by
  simp [State.core, State.setCore, lookD_put_other h]
@[simp] theorem weft_setCore (s : State) (k j : Nat) (x : Core) : (s.setCore k x).weft j = s.weft j := rfl
@[simp] theorem team_setCore (s : State) (k j : Nat) (x : Core) : (s.setCore k x).team j = s.team j := rfl
@[simp] theorem grid_setCore (s : State) (k j : Nat) (x : Core) : (s.setCore k x).grid j = s.grid j := rfl
@[simp] theorem ctx_setCore (s : State) (k j : Nat) (x : Core) : (s.setCore k x).ctx j = s.ctx j := rfl
@[simp] theorem tenant_setCore (s : State) (k j : Nat) (x : Core) : (s.setCore k x).tenant j = s.tenant j := rfl
@[simp] theorem fold_setCore (s : State) (k j : Nat) (x : Core) : (s.setCore k x).fold j = s.fold j := rfl
@[simp] theorem meadow_setCore (s : State) (k j : Nat) (x : Core) : (s.setCore k x).meadow j = s.meadow j := rfl
@[simp] theorem stack_setCore (s : State) (k j : Nat) (x : Core) : (s.setCore k x).stack j = s.stack j := rfl

/-! ### setWeft -/

@[simp] theorem setWeft_fresh (s : State) (k : Nat) (x : Weft) : (s.setWeft k x).fresh = s.fresh := rfl
@[simp] theorem setWeft_agenda (s : State) (k : Nat) (x : Weft) : (s.setWeft k x).agenda = s.agenda := rfl
@[simp] theorem setWeft_issuing (s : State) (k : Nat) (x : Weft) : (s.setWeft k x).issuing = s.issuing := rfl
@[simp] theorem setWeft_cur (s : State) (k : Nat) (x : Weft) : (s.setWeft k x).cur = s.cur := rfl
@[simp] theorem setWeft_nextId (s : State) (k : Nat) (x : Weft) : (s.setWeft k x).nextId = s.nextId := rfl
@[simp] theorem setWeft_mem (s : State) (k : Nat) (x : Weft) : (s.setWeft k x).mem = s.mem := rfl
@[simp] theorem setWeft_tags (s : State) (k : Nat) (x : Weft) : (s.setWeft k x).tags = s.tags := rfl
@[simp] theorem setWeft_poison (s : State) (k : Nat) (x : Weft) : (s.setWeft k x).poison = s.poison := rfl
@[simp] theorem setWeft_cells (s : State) (k : Nat) (x : Weft) : (s.setWeft k x).cells = s.cells := rfl
@[simp] theorem setWeft_cellBy (s : State) (k : Nat) (x : Weft) : (s.setWeft k x).cellBy = s.cellBy := rfl
@[simp] theorem setWeft_cellUse (s : State) (k : Nat) (x : Weft) : (s.setWeft k x).cellUse = s.cellUse := rfl
@[simp] theorem setWeft_l2 (s : State) (k : Nat) (x : Weft) : (s.setWeft k x).l2 = s.l2 := rfl
@[simp] theorem setWeft_msc (s : State) (k : Nat) (x : Weft) : (s.setWeft k x).msc = s.msc := rfl
@[simp] theorem setWeft_rows (s : State) (k : Nat) (x : Weft) : (s.setWeft k x).rows = s.rows := rfl
@[simp] theorem setWeft_l2pins (s : State) (k : Nat) (x : Weft) : (s.setWeft k x).l2pins = s.l2pins := rfl
@[simp] theorem setWeft_hmask (s : State) (k : Nat) (x : Weft) : (s.setWeft k x).hmask = s.hmask := rfl
@[simp] theorem setWeft_reqs (s : State) (k : Nat) (x : Weft) : (s.setWeft k x).reqs = s.reqs := rfl
@[simp] theorem setWeft_slots (s : State) (k : Nat) (x : Weft) : (s.setWeft k x).slots = s.slots := rfl
@[simp] theorem setWeft_cores (s : State) (k : Nat) (x : Weft) : (s.setWeft k x).cores = s.cores := rfl
@[simp] theorem setWeft_teams (s : State) (k : Nat) (x : Weft) : (s.setWeft k x).teams = s.teams := rfl
@[simp] theorem setWeft_grids (s : State) (k : Nat) (x : Weft) : (s.setWeft k x).grids = s.grids := rfl
@[simp] theorem setWeft_ctxs (s : State) (k : Nat) (x : Weft) : (s.setWeft k x).ctxs = s.ctxs := rfl
@[simp] theorem setWeft_tenants (s : State) (k : Nat) (x : Weft) : (s.setWeft k x).tenants = s.tenants := rfl
@[simp] theorem setWeft_folds (s : State) (k : Nat) (x : Weft) : (s.setWeft k x).folds = s.folds := rfl
@[simp] theorem setWeft_meadows (s : State) (k : Nat) (x : Weft) : (s.setWeft k x).meadows = s.meadows := rfl
@[simp] theorem setWeft_bumps (s : State) (k : Nat) (x : Weft) : (s.setWeft k x).bumps = s.bumps := rfl
@[simp] theorem setWeft_pwrites (s : State) (k : Nat) (x : Weft) : (s.setWeft k x).pwrites = s.pwrites := rfl
@[simp] theorem setWeft_faults (s : State) (k : Nat) (x : Weft) : (s.setWeft k x).faults = s.faults := rfl
@[simp] theorem setWeft_hbm (s : State) (k : Nat) (x : Weft) : (s.setWeft k x).hbm = s.hbm := rfl
@[simp] theorem setWeft_fw (s : State) (k : Nat) (x : Weft) : (s.setWeft k x).fw = s.fw := rfl
@[simp] theorem setWeft_hub (s : State) (k : Nat) (x : Weft) : (s.setWeft k x).hub = s.hub := rfl
@[simp] theorem weft_setWeft_same (s : State) (k : Nat) (x : Weft) : (s.setWeft k x).weft k = x := by
  simp [State.weft, State.setWeft]
theorem weft_setWeft_other {s : State} {k j : Nat} (x : Weft) (h : j ≠ k) : (s.setWeft k x).weft j = s.weft j := by
  simp [State.weft, State.setWeft, lookD_put_other h]
@[simp] theorem core_setWeft (s : State) (k j : Nat) (x : Weft) : (s.setWeft k x).core j = s.core j := rfl
@[simp] theorem team_setWeft (s : State) (k j : Nat) (x : Weft) : (s.setWeft k x).team j = s.team j := rfl
@[simp] theorem grid_setWeft (s : State) (k j : Nat) (x : Weft) : (s.setWeft k x).grid j = s.grid j := rfl
@[simp] theorem ctx_setWeft (s : State) (k j : Nat) (x : Weft) : (s.setWeft k x).ctx j = s.ctx j := rfl
@[simp] theorem tenant_setWeft (s : State) (k j : Nat) (x : Weft) : (s.setWeft k x).tenant j = s.tenant j := rfl
@[simp] theorem fold_setWeft (s : State) (k j : Nat) (x : Weft) : (s.setWeft k x).fold j = s.fold j := rfl
@[simp] theorem meadow_setWeft (s : State) (k j : Nat) (x : Weft) : (s.setWeft k x).meadow j = s.meadow j := rfl
@[simp] theorem stack_setWeft (s : State) (k j : Nat) (x : Weft) : (s.setWeft k x).stack j = s.stack j := rfl

/-! ### setTeam -/

@[simp] theorem setTeam_fresh (s : State) (k : Nat) (x : Team) : (s.setTeam k x).fresh = s.fresh := rfl
@[simp] theorem setTeam_agenda (s : State) (k : Nat) (x : Team) : (s.setTeam k x).agenda = s.agenda := rfl
@[simp] theorem setTeam_issuing (s : State) (k : Nat) (x : Team) : (s.setTeam k x).issuing = s.issuing := rfl
@[simp] theorem setTeam_cur (s : State) (k : Nat) (x : Team) : (s.setTeam k x).cur = s.cur := rfl
@[simp] theorem setTeam_nextId (s : State) (k : Nat) (x : Team) : (s.setTeam k x).nextId = s.nextId := rfl
@[simp] theorem setTeam_mem (s : State) (k : Nat) (x : Team) : (s.setTeam k x).mem = s.mem := rfl
@[simp] theorem setTeam_tags (s : State) (k : Nat) (x : Team) : (s.setTeam k x).tags = s.tags := rfl
@[simp] theorem setTeam_poison (s : State) (k : Nat) (x : Team) : (s.setTeam k x).poison = s.poison := rfl
@[simp] theorem setTeam_cells (s : State) (k : Nat) (x : Team) : (s.setTeam k x).cells = s.cells := rfl
@[simp] theorem setTeam_cellBy (s : State) (k : Nat) (x : Team) : (s.setTeam k x).cellBy = s.cellBy := rfl
@[simp] theorem setTeam_cellUse (s : State) (k : Nat) (x : Team) : (s.setTeam k x).cellUse = s.cellUse := rfl
@[simp] theorem setTeam_l2 (s : State) (k : Nat) (x : Team) : (s.setTeam k x).l2 = s.l2 := rfl
@[simp] theorem setTeam_msc (s : State) (k : Nat) (x : Team) : (s.setTeam k x).msc = s.msc := rfl
@[simp] theorem setTeam_rows (s : State) (k : Nat) (x : Team) : (s.setTeam k x).rows = s.rows := rfl
@[simp] theorem setTeam_l2pins (s : State) (k : Nat) (x : Team) : (s.setTeam k x).l2pins = s.l2pins := rfl
@[simp] theorem setTeam_hmask (s : State) (k : Nat) (x : Team) : (s.setTeam k x).hmask = s.hmask := rfl
@[simp] theorem setTeam_reqs (s : State) (k : Nat) (x : Team) : (s.setTeam k x).reqs = s.reqs := rfl
@[simp] theorem setTeam_slots (s : State) (k : Nat) (x : Team) : (s.setTeam k x).slots = s.slots := rfl
@[simp] theorem setTeam_cores (s : State) (k : Nat) (x : Team) : (s.setTeam k x).cores = s.cores := rfl
@[simp] theorem setTeam_wefts (s : State) (k : Nat) (x : Team) : (s.setTeam k x).wefts = s.wefts := rfl
@[simp] theorem setTeam_grids (s : State) (k : Nat) (x : Team) : (s.setTeam k x).grids = s.grids := rfl
@[simp] theorem setTeam_ctxs (s : State) (k : Nat) (x : Team) : (s.setTeam k x).ctxs = s.ctxs := rfl
@[simp] theorem setTeam_tenants (s : State) (k : Nat) (x : Team) : (s.setTeam k x).tenants = s.tenants := rfl
@[simp] theorem setTeam_folds (s : State) (k : Nat) (x : Team) : (s.setTeam k x).folds = s.folds := rfl
@[simp] theorem setTeam_meadows (s : State) (k : Nat) (x : Team) : (s.setTeam k x).meadows = s.meadows := rfl
@[simp] theorem setTeam_bumps (s : State) (k : Nat) (x : Team) : (s.setTeam k x).bumps = s.bumps := rfl
@[simp] theorem setTeam_pwrites (s : State) (k : Nat) (x : Team) : (s.setTeam k x).pwrites = s.pwrites := rfl
@[simp] theorem setTeam_faults (s : State) (k : Nat) (x : Team) : (s.setTeam k x).faults = s.faults := rfl
@[simp] theorem setTeam_hbm (s : State) (k : Nat) (x : Team) : (s.setTeam k x).hbm = s.hbm := rfl
@[simp] theorem setTeam_fw (s : State) (k : Nat) (x : Team) : (s.setTeam k x).fw = s.fw := rfl
@[simp] theorem setTeam_hub (s : State) (k : Nat) (x : Team) : (s.setTeam k x).hub = s.hub := rfl
@[simp] theorem team_setTeam_same (s : State) (k : Nat) (x : Team) : (s.setTeam k x).team k = x := by
  simp [State.team, State.setTeam]
theorem team_setTeam_other {s : State} {k j : Nat} (x : Team) (h : j ≠ k) : (s.setTeam k x).team j = s.team j := by
  simp [State.team, State.setTeam, lookD_put_other h]
@[simp] theorem core_setTeam (s : State) (k j : Nat) (x : Team) : (s.setTeam k x).core j = s.core j := rfl
@[simp] theorem weft_setTeam (s : State) (k j : Nat) (x : Team) : (s.setTeam k x).weft j = s.weft j := rfl
@[simp] theorem grid_setTeam (s : State) (k j : Nat) (x : Team) : (s.setTeam k x).grid j = s.grid j := rfl
@[simp] theorem ctx_setTeam (s : State) (k j : Nat) (x : Team) : (s.setTeam k x).ctx j = s.ctx j := rfl
@[simp] theorem tenant_setTeam (s : State) (k j : Nat) (x : Team) : (s.setTeam k x).tenant j = s.tenant j := rfl
@[simp] theorem fold_setTeam (s : State) (k j : Nat) (x : Team) : (s.setTeam k x).fold j = s.fold j := rfl
@[simp] theorem meadow_setTeam (s : State) (k j : Nat) (x : Team) : (s.setTeam k x).meadow j = s.meadow j := rfl
@[simp] theorem stack_setTeam (s : State) (k j : Nat) (x : Team) : (s.setTeam k x).stack j = s.stack j := rfl

/-! ### setGrid -/

@[simp] theorem setGrid_fresh (s : State) (k : Nat) (x : Grid) : (s.setGrid k x).fresh = s.fresh := rfl
@[simp] theorem setGrid_agenda (s : State) (k : Nat) (x : Grid) : (s.setGrid k x).agenda = s.agenda := rfl
@[simp] theorem setGrid_issuing (s : State) (k : Nat) (x : Grid) : (s.setGrid k x).issuing = s.issuing := rfl
@[simp] theorem setGrid_cur (s : State) (k : Nat) (x : Grid) : (s.setGrid k x).cur = s.cur := rfl
@[simp] theorem setGrid_nextId (s : State) (k : Nat) (x : Grid) : (s.setGrid k x).nextId = s.nextId := rfl
@[simp] theorem setGrid_mem (s : State) (k : Nat) (x : Grid) : (s.setGrid k x).mem = s.mem := rfl
@[simp] theorem setGrid_tags (s : State) (k : Nat) (x : Grid) : (s.setGrid k x).tags = s.tags := rfl
@[simp] theorem setGrid_poison (s : State) (k : Nat) (x : Grid) : (s.setGrid k x).poison = s.poison := rfl
@[simp] theorem setGrid_cells (s : State) (k : Nat) (x : Grid) : (s.setGrid k x).cells = s.cells := rfl
@[simp] theorem setGrid_cellBy (s : State) (k : Nat) (x : Grid) : (s.setGrid k x).cellBy = s.cellBy := rfl
@[simp] theorem setGrid_cellUse (s : State) (k : Nat) (x : Grid) : (s.setGrid k x).cellUse = s.cellUse := rfl
@[simp] theorem setGrid_l2 (s : State) (k : Nat) (x : Grid) : (s.setGrid k x).l2 = s.l2 := rfl
@[simp] theorem setGrid_msc (s : State) (k : Nat) (x : Grid) : (s.setGrid k x).msc = s.msc := rfl
@[simp] theorem setGrid_rows (s : State) (k : Nat) (x : Grid) : (s.setGrid k x).rows = s.rows := rfl
@[simp] theorem setGrid_l2pins (s : State) (k : Nat) (x : Grid) : (s.setGrid k x).l2pins = s.l2pins := rfl
@[simp] theorem setGrid_hmask (s : State) (k : Nat) (x : Grid) : (s.setGrid k x).hmask = s.hmask := rfl
@[simp] theorem setGrid_reqs (s : State) (k : Nat) (x : Grid) : (s.setGrid k x).reqs = s.reqs := rfl
@[simp] theorem setGrid_slots (s : State) (k : Nat) (x : Grid) : (s.setGrid k x).slots = s.slots := rfl
@[simp] theorem setGrid_cores (s : State) (k : Nat) (x : Grid) : (s.setGrid k x).cores = s.cores := rfl
@[simp] theorem setGrid_wefts (s : State) (k : Nat) (x : Grid) : (s.setGrid k x).wefts = s.wefts := rfl
@[simp] theorem setGrid_teams (s : State) (k : Nat) (x : Grid) : (s.setGrid k x).teams = s.teams := rfl
@[simp] theorem setGrid_ctxs (s : State) (k : Nat) (x : Grid) : (s.setGrid k x).ctxs = s.ctxs := rfl
@[simp] theorem setGrid_tenants (s : State) (k : Nat) (x : Grid) : (s.setGrid k x).tenants = s.tenants := rfl
@[simp] theorem setGrid_folds (s : State) (k : Nat) (x : Grid) : (s.setGrid k x).folds = s.folds := rfl
@[simp] theorem setGrid_meadows (s : State) (k : Nat) (x : Grid) : (s.setGrid k x).meadows = s.meadows := rfl
@[simp] theorem setGrid_bumps (s : State) (k : Nat) (x : Grid) : (s.setGrid k x).bumps = s.bumps := rfl
@[simp] theorem setGrid_pwrites (s : State) (k : Nat) (x : Grid) : (s.setGrid k x).pwrites = s.pwrites := rfl
@[simp] theorem setGrid_faults (s : State) (k : Nat) (x : Grid) : (s.setGrid k x).faults = s.faults := rfl
@[simp] theorem setGrid_hbm (s : State) (k : Nat) (x : Grid) : (s.setGrid k x).hbm = s.hbm := rfl
@[simp] theorem setGrid_fw (s : State) (k : Nat) (x : Grid) : (s.setGrid k x).fw = s.fw := rfl
@[simp] theorem setGrid_hub (s : State) (k : Nat) (x : Grid) : (s.setGrid k x).hub = s.hub := rfl
@[simp] theorem grid_setGrid_same (s : State) (k : Nat) (x : Grid) : (s.setGrid k x).grid k = x := by
  simp [State.grid, State.setGrid]
theorem grid_setGrid_other {s : State} {k j : Nat} (x : Grid) (h : j ≠ k) : (s.setGrid k x).grid j = s.grid j := by
  simp [State.grid, State.setGrid, lookD_put_other h]
@[simp] theorem core_setGrid (s : State) (k j : Nat) (x : Grid) : (s.setGrid k x).core j = s.core j := rfl
@[simp] theorem weft_setGrid (s : State) (k j : Nat) (x : Grid) : (s.setGrid k x).weft j = s.weft j := rfl
@[simp] theorem team_setGrid (s : State) (k j : Nat) (x : Grid) : (s.setGrid k x).team j = s.team j := rfl
@[simp] theorem ctx_setGrid (s : State) (k j : Nat) (x : Grid) : (s.setGrid k x).ctx j = s.ctx j := rfl
@[simp] theorem tenant_setGrid (s : State) (k j : Nat) (x : Grid) : (s.setGrid k x).tenant j = s.tenant j := rfl
@[simp] theorem fold_setGrid (s : State) (k j : Nat) (x : Grid) : (s.setGrid k x).fold j = s.fold j := rfl
@[simp] theorem meadow_setGrid (s : State) (k j : Nat) (x : Grid) : (s.setGrid k x).meadow j = s.meadow j := rfl
@[simp] theorem stack_setGrid (s : State) (k j : Nat) (x : Grid) : (s.setGrid k x).stack j = s.stack j := rfl

/-! ### setCtx -/

@[simp] theorem setCtx_fresh (s : State) (k : Nat) (x : Ctx) : (s.setCtx k x).fresh = s.fresh := rfl
@[simp] theorem setCtx_agenda (s : State) (k : Nat) (x : Ctx) : (s.setCtx k x).agenda = s.agenda := rfl
@[simp] theorem setCtx_issuing (s : State) (k : Nat) (x : Ctx) : (s.setCtx k x).issuing = s.issuing := rfl
@[simp] theorem setCtx_cur (s : State) (k : Nat) (x : Ctx) : (s.setCtx k x).cur = s.cur := rfl
@[simp] theorem setCtx_nextId (s : State) (k : Nat) (x : Ctx) : (s.setCtx k x).nextId = s.nextId := rfl
@[simp] theorem setCtx_mem (s : State) (k : Nat) (x : Ctx) : (s.setCtx k x).mem = s.mem := rfl
@[simp] theorem setCtx_tags (s : State) (k : Nat) (x : Ctx) : (s.setCtx k x).tags = s.tags := rfl
@[simp] theorem setCtx_poison (s : State) (k : Nat) (x : Ctx) : (s.setCtx k x).poison = s.poison := rfl
@[simp] theorem setCtx_cells (s : State) (k : Nat) (x : Ctx) : (s.setCtx k x).cells = s.cells := rfl
@[simp] theorem setCtx_cellBy (s : State) (k : Nat) (x : Ctx) : (s.setCtx k x).cellBy = s.cellBy := rfl
@[simp] theorem setCtx_cellUse (s : State) (k : Nat) (x : Ctx) : (s.setCtx k x).cellUse = s.cellUse := rfl
@[simp] theorem setCtx_l2 (s : State) (k : Nat) (x : Ctx) : (s.setCtx k x).l2 = s.l2 := rfl
@[simp] theorem setCtx_msc (s : State) (k : Nat) (x : Ctx) : (s.setCtx k x).msc = s.msc := rfl
@[simp] theorem setCtx_rows (s : State) (k : Nat) (x : Ctx) : (s.setCtx k x).rows = s.rows := rfl
@[simp] theorem setCtx_l2pins (s : State) (k : Nat) (x : Ctx) : (s.setCtx k x).l2pins = s.l2pins := rfl
@[simp] theorem setCtx_hmask (s : State) (k : Nat) (x : Ctx) : (s.setCtx k x).hmask = s.hmask := rfl
@[simp] theorem setCtx_reqs (s : State) (k : Nat) (x : Ctx) : (s.setCtx k x).reqs = s.reqs := rfl
@[simp] theorem setCtx_slots (s : State) (k : Nat) (x : Ctx) : (s.setCtx k x).slots = s.slots := rfl
@[simp] theorem setCtx_cores (s : State) (k : Nat) (x : Ctx) : (s.setCtx k x).cores = s.cores := rfl
@[simp] theorem setCtx_wefts (s : State) (k : Nat) (x : Ctx) : (s.setCtx k x).wefts = s.wefts := rfl
@[simp] theorem setCtx_teams (s : State) (k : Nat) (x : Ctx) : (s.setCtx k x).teams = s.teams := rfl
@[simp] theorem setCtx_grids (s : State) (k : Nat) (x : Ctx) : (s.setCtx k x).grids = s.grids := rfl
@[simp] theorem setCtx_tenants (s : State) (k : Nat) (x : Ctx) : (s.setCtx k x).tenants = s.tenants := rfl
@[simp] theorem setCtx_folds (s : State) (k : Nat) (x : Ctx) : (s.setCtx k x).folds = s.folds := rfl
@[simp] theorem setCtx_meadows (s : State) (k : Nat) (x : Ctx) : (s.setCtx k x).meadows = s.meadows := rfl
@[simp] theorem setCtx_bumps (s : State) (k : Nat) (x : Ctx) : (s.setCtx k x).bumps = s.bumps := rfl
@[simp] theorem setCtx_pwrites (s : State) (k : Nat) (x : Ctx) : (s.setCtx k x).pwrites = s.pwrites := rfl
@[simp] theorem setCtx_faults (s : State) (k : Nat) (x : Ctx) : (s.setCtx k x).faults = s.faults := rfl
@[simp] theorem setCtx_hbm (s : State) (k : Nat) (x : Ctx) : (s.setCtx k x).hbm = s.hbm := rfl
@[simp] theorem setCtx_fw (s : State) (k : Nat) (x : Ctx) : (s.setCtx k x).fw = s.fw := rfl
@[simp] theorem setCtx_hub (s : State) (k : Nat) (x : Ctx) : (s.setCtx k x).hub = s.hub := rfl
@[simp] theorem ctx_setCtx_same (s : State) (k : Nat) (x : Ctx) : (s.setCtx k x).ctx k = x := by
  simp [State.ctx, State.setCtx]
theorem ctx_setCtx_other {s : State} {k j : Nat} (x : Ctx) (h : j ≠ k) : (s.setCtx k x).ctx j = s.ctx j := by
  simp [State.ctx, State.setCtx, lookD_put_other h]
@[simp] theorem core_setCtx (s : State) (k j : Nat) (x : Ctx) : (s.setCtx k x).core j = s.core j := rfl
@[simp] theorem weft_setCtx (s : State) (k j : Nat) (x : Ctx) : (s.setCtx k x).weft j = s.weft j := rfl
@[simp] theorem team_setCtx (s : State) (k j : Nat) (x : Ctx) : (s.setCtx k x).team j = s.team j := rfl
@[simp] theorem grid_setCtx (s : State) (k j : Nat) (x : Ctx) : (s.setCtx k x).grid j = s.grid j := rfl
@[simp] theorem tenant_setCtx (s : State) (k j : Nat) (x : Ctx) : (s.setCtx k x).tenant j = s.tenant j := rfl
@[simp] theorem fold_setCtx (s : State) (k j : Nat) (x : Ctx) : (s.setCtx k x).fold j = s.fold j := rfl
@[simp] theorem meadow_setCtx (s : State) (k j : Nat) (x : Ctx) : (s.setCtx k x).meadow j = s.meadow j := rfl
@[simp] theorem stack_setCtx (s : State) (k j : Nat) (x : Ctx) : (s.setCtx k x).stack j = s.stack j := rfl

/-! ### setTenant -/

@[simp] theorem setTenant_fresh (s : State) (k : Nat) (x : Tenant) : (s.setTenant k x).fresh = s.fresh := rfl
@[simp] theorem setTenant_agenda (s : State) (k : Nat) (x : Tenant) : (s.setTenant k x).agenda = s.agenda := rfl
@[simp] theorem setTenant_issuing (s : State) (k : Nat) (x : Tenant) : (s.setTenant k x).issuing = s.issuing := rfl
@[simp] theorem setTenant_cur (s : State) (k : Nat) (x : Tenant) : (s.setTenant k x).cur = s.cur := rfl
@[simp] theorem setTenant_nextId (s : State) (k : Nat) (x : Tenant) : (s.setTenant k x).nextId = s.nextId := rfl
@[simp] theorem setTenant_mem (s : State) (k : Nat) (x : Tenant) : (s.setTenant k x).mem = s.mem := rfl
@[simp] theorem setTenant_tags (s : State) (k : Nat) (x : Tenant) : (s.setTenant k x).tags = s.tags := rfl
@[simp] theorem setTenant_poison (s : State) (k : Nat) (x : Tenant) : (s.setTenant k x).poison = s.poison := rfl
@[simp] theorem setTenant_cells (s : State) (k : Nat) (x : Tenant) : (s.setTenant k x).cells = s.cells := rfl
@[simp] theorem setTenant_cellBy (s : State) (k : Nat) (x : Tenant) : (s.setTenant k x).cellBy = s.cellBy := rfl
@[simp] theorem setTenant_cellUse (s : State) (k : Nat) (x : Tenant) : (s.setTenant k x).cellUse = s.cellUse := rfl
@[simp] theorem setTenant_l2 (s : State) (k : Nat) (x : Tenant) : (s.setTenant k x).l2 = s.l2 := rfl
@[simp] theorem setTenant_msc (s : State) (k : Nat) (x : Tenant) : (s.setTenant k x).msc = s.msc := rfl
@[simp] theorem setTenant_rows (s : State) (k : Nat) (x : Tenant) : (s.setTenant k x).rows = s.rows := rfl
@[simp] theorem setTenant_l2pins (s : State) (k : Nat) (x : Tenant) : (s.setTenant k x).l2pins = s.l2pins := rfl
@[simp] theorem setTenant_hmask (s : State) (k : Nat) (x : Tenant) : (s.setTenant k x).hmask = s.hmask := rfl
@[simp] theorem setTenant_reqs (s : State) (k : Nat) (x : Tenant) : (s.setTenant k x).reqs = s.reqs := rfl
@[simp] theorem setTenant_slots (s : State) (k : Nat) (x : Tenant) : (s.setTenant k x).slots = s.slots := rfl
@[simp] theorem setTenant_cores (s : State) (k : Nat) (x : Tenant) : (s.setTenant k x).cores = s.cores := rfl
@[simp] theorem setTenant_wefts (s : State) (k : Nat) (x : Tenant) : (s.setTenant k x).wefts = s.wefts := rfl
@[simp] theorem setTenant_teams (s : State) (k : Nat) (x : Tenant) : (s.setTenant k x).teams = s.teams := rfl
@[simp] theorem setTenant_grids (s : State) (k : Nat) (x : Tenant) : (s.setTenant k x).grids = s.grids := rfl
@[simp] theorem setTenant_ctxs (s : State) (k : Nat) (x : Tenant) : (s.setTenant k x).ctxs = s.ctxs := rfl
@[simp] theorem setTenant_folds (s : State) (k : Nat) (x : Tenant) : (s.setTenant k x).folds = s.folds := rfl
@[simp] theorem setTenant_meadows (s : State) (k : Nat) (x : Tenant) : (s.setTenant k x).meadows = s.meadows := rfl
@[simp] theorem setTenant_bumps (s : State) (k : Nat) (x : Tenant) : (s.setTenant k x).bumps = s.bumps := rfl
@[simp] theorem setTenant_pwrites (s : State) (k : Nat) (x : Tenant) : (s.setTenant k x).pwrites = s.pwrites := rfl
@[simp] theorem setTenant_faults (s : State) (k : Nat) (x : Tenant) : (s.setTenant k x).faults = s.faults := rfl
@[simp] theorem setTenant_hbm (s : State) (k : Nat) (x : Tenant) : (s.setTenant k x).hbm = s.hbm := rfl
@[simp] theorem setTenant_fw (s : State) (k : Nat) (x : Tenant) : (s.setTenant k x).fw = s.fw := rfl
@[simp] theorem setTenant_hub (s : State) (k : Nat) (x : Tenant) : (s.setTenant k x).hub = s.hub := rfl
@[simp] theorem tenant_setTenant_same (s : State) (k : Nat) (x : Tenant) : (s.setTenant k x).tenant k = x := by
  simp [State.tenant, State.setTenant]
theorem tenant_setTenant_other {s : State} {k j : Nat} (x : Tenant) (h : j ≠ k) : (s.setTenant k x).tenant j = s.tenant j := by
  simp [State.tenant, State.setTenant, lookD_put_other h]
@[simp] theorem core_setTenant (s : State) (k j : Nat) (x : Tenant) : (s.setTenant k x).core j = s.core j := rfl
@[simp] theorem weft_setTenant (s : State) (k j : Nat) (x : Tenant) : (s.setTenant k x).weft j = s.weft j := rfl
@[simp] theorem team_setTenant (s : State) (k j : Nat) (x : Tenant) : (s.setTenant k x).team j = s.team j := rfl
@[simp] theorem grid_setTenant (s : State) (k j : Nat) (x : Tenant) : (s.setTenant k x).grid j = s.grid j := rfl
@[simp] theorem ctx_setTenant (s : State) (k j : Nat) (x : Tenant) : (s.setTenant k x).ctx j = s.ctx j := rfl
@[simp] theorem fold_setTenant (s : State) (k j : Nat) (x : Tenant) : (s.setTenant k x).fold j = s.fold j := rfl
@[simp] theorem meadow_setTenant (s : State) (k j : Nat) (x : Tenant) : (s.setTenant k x).meadow j = s.meadow j := rfl
@[simp] theorem stack_setTenant (s : State) (k j : Nat) (x : Tenant) : (s.setTenant k x).stack j = s.stack j := rfl

/-! ### setFold -/

@[simp] theorem setFold_fresh (s : State) (k : Nat) (x : Fold) : (s.setFold k x).fresh = s.fresh := rfl
@[simp] theorem setFold_agenda (s : State) (k : Nat) (x : Fold) : (s.setFold k x).agenda = s.agenda := rfl
@[simp] theorem setFold_issuing (s : State) (k : Nat) (x : Fold) : (s.setFold k x).issuing = s.issuing := rfl
@[simp] theorem setFold_cur (s : State) (k : Nat) (x : Fold) : (s.setFold k x).cur = s.cur := rfl
@[simp] theorem setFold_nextId (s : State) (k : Nat) (x : Fold) : (s.setFold k x).nextId = s.nextId := rfl
@[simp] theorem setFold_mem (s : State) (k : Nat) (x : Fold) : (s.setFold k x).mem = s.mem := rfl
@[simp] theorem setFold_tags (s : State) (k : Nat) (x : Fold) : (s.setFold k x).tags = s.tags := rfl
@[simp] theorem setFold_poison (s : State) (k : Nat) (x : Fold) : (s.setFold k x).poison = s.poison := rfl
@[simp] theorem setFold_cells (s : State) (k : Nat) (x : Fold) : (s.setFold k x).cells = s.cells := rfl
@[simp] theorem setFold_cellBy (s : State) (k : Nat) (x : Fold) : (s.setFold k x).cellBy = s.cellBy := rfl
@[simp] theorem setFold_cellUse (s : State) (k : Nat) (x : Fold) : (s.setFold k x).cellUse = s.cellUse := rfl
@[simp] theorem setFold_l2 (s : State) (k : Nat) (x : Fold) : (s.setFold k x).l2 = s.l2 := rfl
@[simp] theorem setFold_msc (s : State) (k : Nat) (x : Fold) : (s.setFold k x).msc = s.msc := rfl
@[simp] theorem setFold_rows (s : State) (k : Nat) (x : Fold) : (s.setFold k x).rows = s.rows := rfl
@[simp] theorem setFold_l2pins (s : State) (k : Nat) (x : Fold) : (s.setFold k x).l2pins = s.l2pins := rfl
@[simp] theorem setFold_hmask (s : State) (k : Nat) (x : Fold) : (s.setFold k x).hmask = s.hmask := rfl
@[simp] theorem setFold_reqs (s : State) (k : Nat) (x : Fold) : (s.setFold k x).reqs = s.reqs := rfl
@[simp] theorem setFold_slots (s : State) (k : Nat) (x : Fold) : (s.setFold k x).slots = s.slots := rfl
@[simp] theorem setFold_cores (s : State) (k : Nat) (x : Fold) : (s.setFold k x).cores = s.cores := rfl
@[simp] theorem setFold_wefts (s : State) (k : Nat) (x : Fold) : (s.setFold k x).wefts = s.wefts := rfl
@[simp] theorem setFold_teams (s : State) (k : Nat) (x : Fold) : (s.setFold k x).teams = s.teams := rfl
@[simp] theorem setFold_grids (s : State) (k : Nat) (x : Fold) : (s.setFold k x).grids = s.grids := rfl
@[simp] theorem setFold_ctxs (s : State) (k : Nat) (x : Fold) : (s.setFold k x).ctxs = s.ctxs := rfl
@[simp] theorem setFold_tenants (s : State) (k : Nat) (x : Fold) : (s.setFold k x).tenants = s.tenants := rfl
@[simp] theorem setFold_meadows (s : State) (k : Nat) (x : Fold) : (s.setFold k x).meadows = s.meadows := rfl
@[simp] theorem setFold_bumps (s : State) (k : Nat) (x : Fold) : (s.setFold k x).bumps = s.bumps := rfl
@[simp] theorem setFold_pwrites (s : State) (k : Nat) (x : Fold) : (s.setFold k x).pwrites = s.pwrites := rfl
@[simp] theorem setFold_faults (s : State) (k : Nat) (x : Fold) : (s.setFold k x).faults = s.faults := rfl
@[simp] theorem setFold_hbm (s : State) (k : Nat) (x : Fold) : (s.setFold k x).hbm = s.hbm := rfl
@[simp] theorem setFold_fw (s : State) (k : Nat) (x : Fold) : (s.setFold k x).fw = s.fw := rfl
@[simp] theorem setFold_hub (s : State) (k : Nat) (x : Fold) : (s.setFold k x).hub = s.hub := rfl
@[simp] theorem fold_setFold_same (s : State) (k : Nat) (x : Fold) : (s.setFold k x).fold k = x := by
  simp [State.fold, State.setFold]
theorem fold_setFold_other {s : State} {k j : Nat} (x : Fold) (h : j ≠ k) : (s.setFold k x).fold j = s.fold j := by
  simp [State.fold, State.setFold, lookD_put_other h]
@[simp] theorem core_setFold (s : State) (k j : Nat) (x : Fold) : (s.setFold k x).core j = s.core j := rfl
@[simp] theorem weft_setFold (s : State) (k j : Nat) (x : Fold) : (s.setFold k x).weft j = s.weft j := rfl
@[simp] theorem team_setFold (s : State) (k j : Nat) (x : Fold) : (s.setFold k x).team j = s.team j := rfl
@[simp] theorem grid_setFold (s : State) (k j : Nat) (x : Fold) : (s.setFold k x).grid j = s.grid j := rfl
@[simp] theorem ctx_setFold (s : State) (k j : Nat) (x : Fold) : (s.setFold k x).ctx j = s.ctx j := rfl
@[simp] theorem tenant_setFold (s : State) (k j : Nat) (x : Fold) : (s.setFold k x).tenant j = s.tenant j := rfl
@[simp] theorem meadow_setFold (s : State) (k j : Nat) (x : Fold) : (s.setFold k x).meadow j = s.meadow j := rfl
@[simp] theorem stack_setFold (s : State) (k j : Nat) (x : Fold) : (s.setFold k x).stack j = s.stack j := rfl

/-! ### setMeadow -/

@[simp] theorem setMeadow_fresh (s : State) (k : Nat) (x : Meadow) : (s.setMeadow k x).fresh = s.fresh := rfl
@[simp] theorem setMeadow_agenda (s : State) (k : Nat) (x : Meadow) : (s.setMeadow k x).agenda = s.agenda := rfl
@[simp] theorem setMeadow_issuing (s : State) (k : Nat) (x : Meadow) : (s.setMeadow k x).issuing = s.issuing := rfl
@[simp] theorem setMeadow_cur (s : State) (k : Nat) (x : Meadow) : (s.setMeadow k x).cur = s.cur := rfl
@[simp] theorem setMeadow_nextId (s : State) (k : Nat) (x : Meadow) : (s.setMeadow k x).nextId = s.nextId := rfl
@[simp] theorem setMeadow_mem (s : State) (k : Nat) (x : Meadow) : (s.setMeadow k x).mem = s.mem := rfl
@[simp] theorem setMeadow_tags (s : State) (k : Nat) (x : Meadow) : (s.setMeadow k x).tags = s.tags := rfl
@[simp] theorem setMeadow_poison (s : State) (k : Nat) (x : Meadow) : (s.setMeadow k x).poison = s.poison := rfl
@[simp] theorem setMeadow_cells (s : State) (k : Nat) (x : Meadow) : (s.setMeadow k x).cells = s.cells := rfl
@[simp] theorem setMeadow_cellBy (s : State) (k : Nat) (x : Meadow) : (s.setMeadow k x).cellBy = s.cellBy := rfl
@[simp] theorem setMeadow_cellUse (s : State) (k : Nat) (x : Meadow) : (s.setMeadow k x).cellUse = s.cellUse := rfl
@[simp] theorem setMeadow_l2 (s : State) (k : Nat) (x : Meadow) : (s.setMeadow k x).l2 = s.l2 := rfl
@[simp] theorem setMeadow_msc (s : State) (k : Nat) (x : Meadow) : (s.setMeadow k x).msc = s.msc := rfl
@[simp] theorem setMeadow_rows (s : State) (k : Nat) (x : Meadow) : (s.setMeadow k x).rows = s.rows := rfl
@[simp] theorem setMeadow_l2pins (s : State) (k : Nat) (x : Meadow) : (s.setMeadow k x).l2pins = s.l2pins := rfl
@[simp] theorem setMeadow_hmask (s : State) (k : Nat) (x : Meadow) : (s.setMeadow k x).hmask = s.hmask := rfl
@[simp] theorem setMeadow_reqs (s : State) (k : Nat) (x : Meadow) : (s.setMeadow k x).reqs = s.reqs := rfl
@[simp] theorem setMeadow_slots (s : State) (k : Nat) (x : Meadow) : (s.setMeadow k x).slots = s.slots := rfl
@[simp] theorem setMeadow_cores (s : State) (k : Nat) (x : Meadow) : (s.setMeadow k x).cores = s.cores := rfl
@[simp] theorem setMeadow_wefts (s : State) (k : Nat) (x : Meadow) : (s.setMeadow k x).wefts = s.wefts := rfl
@[simp] theorem setMeadow_teams (s : State) (k : Nat) (x : Meadow) : (s.setMeadow k x).teams = s.teams := rfl
@[simp] theorem setMeadow_grids (s : State) (k : Nat) (x : Meadow) : (s.setMeadow k x).grids = s.grids := rfl
@[simp] theorem setMeadow_ctxs (s : State) (k : Nat) (x : Meadow) : (s.setMeadow k x).ctxs = s.ctxs := rfl
@[simp] theorem setMeadow_tenants (s : State) (k : Nat) (x : Meadow) : (s.setMeadow k x).tenants = s.tenants := rfl
@[simp] theorem setMeadow_folds (s : State) (k : Nat) (x : Meadow) : (s.setMeadow k x).folds = s.folds := rfl
@[simp] theorem setMeadow_bumps (s : State) (k : Nat) (x : Meadow) : (s.setMeadow k x).bumps = s.bumps := rfl
@[simp] theorem setMeadow_pwrites (s : State) (k : Nat) (x : Meadow) : (s.setMeadow k x).pwrites = s.pwrites := rfl
@[simp] theorem setMeadow_faults (s : State) (k : Nat) (x : Meadow) : (s.setMeadow k x).faults = s.faults := rfl
@[simp] theorem setMeadow_hbm (s : State) (k : Nat) (x : Meadow) : (s.setMeadow k x).hbm = s.hbm := rfl
@[simp] theorem setMeadow_fw (s : State) (k : Nat) (x : Meadow) : (s.setMeadow k x).fw = s.fw := rfl
@[simp] theorem setMeadow_hub (s : State) (k : Nat) (x : Meadow) : (s.setMeadow k x).hub = s.hub := rfl
@[simp] theorem meadow_setMeadow_same (s : State) (k : Nat) (x : Meadow) : (s.setMeadow k x).meadow k = x := by
  simp [State.meadow, State.setMeadow]
theorem meadow_setMeadow_other {s : State} {k j : Nat} (x : Meadow) (h : j ≠ k) : (s.setMeadow k x).meadow j = s.meadow j := by
  simp [State.meadow, State.setMeadow, lookD_put_other h]
@[simp] theorem core_setMeadow (s : State) (k j : Nat) (x : Meadow) : (s.setMeadow k x).core j = s.core j := rfl
@[simp] theorem weft_setMeadow (s : State) (k j : Nat) (x : Meadow) : (s.setMeadow k x).weft j = s.weft j := rfl
@[simp] theorem team_setMeadow (s : State) (k j : Nat) (x : Meadow) : (s.setMeadow k x).team j = s.team j := rfl
@[simp] theorem grid_setMeadow (s : State) (k j : Nat) (x : Meadow) : (s.setMeadow k x).grid j = s.grid j := rfl
@[simp] theorem ctx_setMeadow (s : State) (k j : Nat) (x : Meadow) : (s.setMeadow k x).ctx j = s.ctx j := rfl
@[simp] theorem tenant_setMeadow (s : State) (k j : Nat) (x : Meadow) : (s.setMeadow k x).tenant j = s.tenant j := rfl
@[simp] theorem fold_setMeadow (s : State) (k j : Nat) (x : Meadow) : (s.setMeadow k x).fold j = s.fold j := rfl
@[simp] theorem stack_setMeadow (s : State) (k j : Nat) (x : Meadow) : (s.setMeadow k x).stack j = s.stack j := rfl

/-! ### setStack -/

@[simp] theorem setStack_fresh (s : State) (k : Nat) (x : Stack) : (s.setStack k x).fresh = s.fresh := rfl
@[simp] theorem setStack_agenda (s : State) (k : Nat) (x : Stack) : (s.setStack k x).agenda = s.agenda := rfl
@[simp] theorem setStack_issuing (s : State) (k : Nat) (x : Stack) : (s.setStack k x).issuing = s.issuing := rfl
@[simp] theorem setStack_cur (s : State) (k : Nat) (x : Stack) : (s.setStack k x).cur = s.cur := rfl
@[simp] theorem setStack_nextId (s : State) (k : Nat) (x : Stack) : (s.setStack k x).nextId = s.nextId := rfl
@[simp] theorem setStack_mem (s : State) (k : Nat) (x : Stack) : (s.setStack k x).mem = s.mem := rfl
@[simp] theorem setStack_tags (s : State) (k : Nat) (x : Stack) : (s.setStack k x).tags = s.tags := rfl
@[simp] theorem setStack_poison (s : State) (k : Nat) (x : Stack) : (s.setStack k x).poison = s.poison := rfl
@[simp] theorem setStack_cells (s : State) (k : Nat) (x : Stack) : (s.setStack k x).cells = s.cells := rfl
@[simp] theorem setStack_cellBy (s : State) (k : Nat) (x : Stack) : (s.setStack k x).cellBy = s.cellBy := rfl
@[simp] theorem setStack_cellUse (s : State) (k : Nat) (x : Stack) : (s.setStack k x).cellUse = s.cellUse := rfl
@[simp] theorem setStack_l2 (s : State) (k : Nat) (x : Stack) : (s.setStack k x).l2 = s.l2 := rfl
@[simp] theorem setStack_msc (s : State) (k : Nat) (x : Stack) : (s.setStack k x).msc = s.msc := rfl
@[simp] theorem setStack_rows (s : State) (k : Nat) (x : Stack) : (s.setStack k x).rows = s.rows := rfl
@[simp] theorem setStack_l2pins (s : State) (k : Nat) (x : Stack) : (s.setStack k x).l2pins = s.l2pins := rfl
@[simp] theorem setStack_hmask (s : State) (k : Nat) (x : Stack) : (s.setStack k x).hmask = s.hmask := rfl
@[simp] theorem setStack_reqs (s : State) (k : Nat) (x : Stack) : (s.setStack k x).reqs = s.reqs := rfl
@[simp] theorem setStack_slots (s : State) (k : Nat) (x : Stack) : (s.setStack k x).slots = s.slots := rfl
@[simp] theorem setStack_cores (s : State) (k : Nat) (x : Stack) : (s.setStack k x).cores = s.cores := rfl
@[simp] theorem setStack_wefts (s : State) (k : Nat) (x : Stack) : (s.setStack k x).wefts = s.wefts := rfl
@[simp] theorem setStack_teams (s : State) (k : Nat) (x : Stack) : (s.setStack k x).teams = s.teams := rfl
@[simp] theorem setStack_grids (s : State) (k : Nat) (x : Stack) : (s.setStack k x).grids = s.grids := rfl
@[simp] theorem setStack_ctxs (s : State) (k : Nat) (x : Stack) : (s.setStack k x).ctxs = s.ctxs := rfl
@[simp] theorem setStack_tenants (s : State) (k : Nat) (x : Stack) : (s.setStack k x).tenants = s.tenants := rfl
@[simp] theorem setStack_folds (s : State) (k : Nat) (x : Stack) : (s.setStack k x).folds = s.folds := rfl
@[simp] theorem setStack_meadows (s : State) (k : Nat) (x : Stack) : (s.setStack k x).meadows = s.meadows := rfl
@[simp] theorem setStack_bumps (s : State) (k : Nat) (x : Stack) : (s.setStack k x).bumps = s.bumps := rfl
@[simp] theorem setStack_pwrites (s : State) (k : Nat) (x : Stack) : (s.setStack k x).pwrites = s.pwrites := rfl
@[simp] theorem setStack_faults (s : State) (k : Nat) (x : Stack) : (s.setStack k x).faults = s.faults := rfl
@[simp] theorem setStack_fw (s : State) (k : Nat) (x : Stack) : (s.setStack k x).fw = s.fw := rfl
@[simp] theorem setStack_hub (s : State) (k : Nat) (x : Stack) : (s.setStack k x).hub = s.hub := rfl
@[simp] theorem stack_setStack_same (s : State) (k : Nat) (x : Stack) : (s.setStack k x).stack k = x := by
  simp [State.stack, State.setStack]
theorem stack_setStack_other {s : State} {k j : Nat} (x : Stack) (h : j ≠ k) : (s.setStack k x).stack j = s.stack j := by
  simp [State.stack, State.setStack, lookD_put_other h]
@[simp] theorem core_setStack (s : State) (k j : Nat) (x : Stack) : (s.setStack k x).core j = s.core j := rfl
@[simp] theorem weft_setStack (s : State) (k j : Nat) (x : Stack) : (s.setStack k x).weft j = s.weft j := rfl
@[simp] theorem team_setStack (s : State) (k j : Nat) (x : Stack) : (s.setStack k x).team j = s.team j := rfl
@[simp] theorem grid_setStack (s : State) (k j : Nat) (x : Stack) : (s.setStack k x).grid j = s.grid j := rfl
@[simp] theorem ctx_setStack (s : State) (k j : Nat) (x : Stack) : (s.setStack k x).ctx j = s.ctx j := rfl
@[simp] theorem tenant_setStack (s : State) (k j : Nat) (x : Stack) : (s.setStack k x).tenant j = s.tenant j := rfl
@[simp] theorem fold_setStack (s : State) (k j : Nat) (x : Stack) : (s.setStack k x).fold j = s.fold j := rfl
@[simp] theorem meadow_setStack (s : State) (k j : Nat) (x : Stack) : (s.setStack k x).meadow j = s.meadow j := rfl

/-! ### mapCore -/

@[simp] theorem mapCore_fresh (s : State) (k : Nat) (g : Core → Core) : (s.mapCore k g).fresh = s.fresh := rfl
@[simp] theorem mapCore_agenda (s : State) (k : Nat) (g : Core → Core) : (s.mapCore k g).agenda = s.agenda := rfl
@[simp] theorem mapCore_issuing (s : State) (k : Nat) (g : Core → Core) : (s.mapCore k g).issuing = s.issuing := rfl
@[simp] theorem mapCore_cur (s : State) (k : Nat) (g : Core → Core) : (s.mapCore k g).cur = s.cur := rfl
@[simp] theorem mapCore_nextId (s : State) (k : Nat) (g : Core → Core) : (s.mapCore k g).nextId = s.nextId := rfl
@[simp] theorem mapCore_mem (s : State) (k : Nat) (g : Core → Core) : (s.mapCore k g).mem = s.mem := rfl
@[simp] theorem mapCore_tags (s : State) (k : Nat) (g : Core → Core) : (s.mapCore k g).tags = s.tags := rfl
@[simp] theorem mapCore_poison (s : State) (k : Nat) (g : Core → Core) : (s.mapCore k g).poison = s.poison := rfl
@[simp] theorem mapCore_cells (s : State) (k : Nat) (g : Core → Core) : (s.mapCore k g).cells = s.cells := rfl
@[simp] theorem mapCore_cellBy (s : State) (k : Nat) (g : Core → Core) : (s.mapCore k g).cellBy = s.cellBy := rfl
@[simp] theorem mapCore_cellUse (s : State) (k : Nat) (g : Core → Core) : (s.mapCore k g).cellUse = s.cellUse := rfl
@[simp] theorem mapCore_l2 (s : State) (k : Nat) (g : Core → Core) : (s.mapCore k g).l2 = s.l2 := rfl
@[simp] theorem mapCore_msc (s : State) (k : Nat) (g : Core → Core) : (s.mapCore k g).msc = s.msc := rfl
@[simp] theorem mapCore_rows (s : State) (k : Nat) (g : Core → Core) : (s.mapCore k g).rows = s.rows := rfl
@[simp] theorem mapCore_l2pins (s : State) (k : Nat) (g : Core → Core) : (s.mapCore k g).l2pins = s.l2pins := rfl
@[simp] theorem mapCore_hmask (s : State) (k : Nat) (g : Core → Core) : (s.mapCore k g).hmask = s.hmask := rfl
@[simp] theorem mapCore_reqs (s : State) (k : Nat) (g : Core → Core) : (s.mapCore k g).reqs = s.reqs := rfl
@[simp] theorem mapCore_slots (s : State) (k : Nat) (g : Core → Core) : (s.mapCore k g).slots = s.slots := rfl
@[simp] theorem mapCore_wefts (s : State) (k : Nat) (g : Core → Core) : (s.mapCore k g).wefts = s.wefts := rfl
@[simp] theorem mapCore_teams (s : State) (k : Nat) (g : Core → Core) : (s.mapCore k g).teams = s.teams := rfl
@[simp] theorem mapCore_grids (s : State) (k : Nat) (g : Core → Core) : (s.mapCore k g).grids = s.grids := rfl
@[simp] theorem mapCore_ctxs (s : State) (k : Nat) (g : Core → Core) : (s.mapCore k g).ctxs = s.ctxs := rfl
@[simp] theorem mapCore_tenants (s : State) (k : Nat) (g : Core → Core) : (s.mapCore k g).tenants = s.tenants := rfl
@[simp] theorem mapCore_folds (s : State) (k : Nat) (g : Core → Core) : (s.mapCore k g).folds = s.folds := rfl
@[simp] theorem mapCore_meadows (s : State) (k : Nat) (g : Core → Core) : (s.mapCore k g).meadows = s.meadows := rfl
@[simp] theorem mapCore_bumps (s : State) (k : Nat) (g : Core → Core) : (s.mapCore k g).bumps = s.bumps := rfl
@[simp] theorem mapCore_pwrites (s : State) (k : Nat) (g : Core → Core) : (s.mapCore k g).pwrites = s.pwrites := rfl
@[simp] theorem mapCore_faults (s : State) (k : Nat) (g : Core → Core) : (s.mapCore k g).faults = s.faults := rfl
@[simp] theorem mapCore_hbm (s : State) (k : Nat) (g : Core → Core) : (s.mapCore k g).hbm = s.hbm := rfl
@[simp] theorem mapCore_fw (s : State) (k : Nat) (g : Core → Core) : (s.mapCore k g).fw = s.fw := rfl
@[simp] theorem mapCore_hub (s : State) (k : Nat) (g : Core → Core) : (s.mapCore k g).hub = s.hub := rfl
@[simp] theorem core_mapCore_same (s : State) (k : Nat) (g : Core → Core) : (s.mapCore k g).core k = g (s.core k) := by
  simp [State.mapCore]
theorem core_mapCore_other {s : State} {k j : Nat} (g : Core → Core) (h : j ≠ k) : (s.mapCore k g).core j = s.core j :=
  core_setCore_other _ h
@[simp] theorem weft_mapCore (s : State) (k j : Nat) (g : Core → Core) : (s.mapCore k g).weft j = s.weft j := rfl
@[simp] theorem team_mapCore (s : State) (k j : Nat) (g : Core → Core) : (s.mapCore k g).team j = s.team j := rfl
@[simp] theorem grid_mapCore (s : State) (k j : Nat) (g : Core → Core) : (s.mapCore k g).grid j = s.grid j := rfl
@[simp] theorem ctx_mapCore (s : State) (k j : Nat) (g : Core → Core) : (s.mapCore k g).ctx j = s.ctx j := rfl
@[simp] theorem tenant_mapCore (s : State) (k j : Nat) (g : Core → Core) : (s.mapCore k g).tenant j = s.tenant j := rfl
@[simp] theorem fold_mapCore (s : State) (k j : Nat) (g : Core → Core) : (s.mapCore k g).fold j = s.fold j := rfl
@[simp] theorem meadow_mapCore (s : State) (k j : Nat) (g : Core → Core) : (s.mapCore k g).meadow j = s.meadow j := rfl
@[simp] theorem stack_mapCore (s : State) (k j : Nat) (g : Core → Core) : (s.mapCore k g).stack j = s.stack j := rfl

/-! ### mapWeft -/

@[simp] theorem mapWeft_fresh (s : State) (k : Nat) (g : Weft → Weft) : (s.mapWeft k g).fresh = s.fresh := rfl
@[simp] theorem mapWeft_agenda (s : State) (k : Nat) (g : Weft → Weft) : (s.mapWeft k g).agenda = s.agenda := rfl
@[simp] theorem mapWeft_issuing (s : State) (k : Nat) (g : Weft → Weft) : (s.mapWeft k g).issuing = s.issuing := rfl
@[simp] theorem mapWeft_cur (s : State) (k : Nat) (g : Weft → Weft) : (s.mapWeft k g).cur = s.cur := rfl
@[simp] theorem mapWeft_nextId (s : State) (k : Nat) (g : Weft → Weft) : (s.mapWeft k g).nextId = s.nextId := rfl
@[simp] theorem mapWeft_mem (s : State) (k : Nat) (g : Weft → Weft) : (s.mapWeft k g).mem = s.mem := rfl
@[simp] theorem mapWeft_tags (s : State) (k : Nat) (g : Weft → Weft) : (s.mapWeft k g).tags = s.tags := rfl
@[simp] theorem mapWeft_poison (s : State) (k : Nat) (g : Weft → Weft) : (s.mapWeft k g).poison = s.poison := rfl
@[simp] theorem mapWeft_cells (s : State) (k : Nat) (g : Weft → Weft) : (s.mapWeft k g).cells = s.cells := rfl
@[simp] theorem mapWeft_cellBy (s : State) (k : Nat) (g : Weft → Weft) : (s.mapWeft k g).cellBy = s.cellBy := rfl
@[simp] theorem mapWeft_cellUse (s : State) (k : Nat) (g : Weft → Weft) : (s.mapWeft k g).cellUse = s.cellUse := rfl
@[simp] theorem mapWeft_l2 (s : State) (k : Nat) (g : Weft → Weft) : (s.mapWeft k g).l2 = s.l2 := rfl
@[simp] theorem mapWeft_msc (s : State) (k : Nat) (g : Weft → Weft) : (s.mapWeft k g).msc = s.msc := rfl
@[simp] theorem mapWeft_rows (s : State) (k : Nat) (g : Weft → Weft) : (s.mapWeft k g).rows = s.rows := rfl
@[simp] theorem mapWeft_l2pins (s : State) (k : Nat) (g : Weft → Weft) : (s.mapWeft k g).l2pins = s.l2pins := rfl
@[simp] theorem mapWeft_hmask (s : State) (k : Nat) (g : Weft → Weft) : (s.mapWeft k g).hmask = s.hmask := rfl
@[simp] theorem mapWeft_reqs (s : State) (k : Nat) (g : Weft → Weft) : (s.mapWeft k g).reqs = s.reqs := rfl
@[simp] theorem mapWeft_slots (s : State) (k : Nat) (g : Weft → Weft) : (s.mapWeft k g).slots = s.slots := rfl
@[simp] theorem mapWeft_cores (s : State) (k : Nat) (g : Weft → Weft) : (s.mapWeft k g).cores = s.cores := rfl
@[simp] theorem mapWeft_teams (s : State) (k : Nat) (g : Weft → Weft) : (s.mapWeft k g).teams = s.teams := rfl
@[simp] theorem mapWeft_grids (s : State) (k : Nat) (g : Weft → Weft) : (s.mapWeft k g).grids = s.grids := rfl
@[simp] theorem mapWeft_ctxs (s : State) (k : Nat) (g : Weft → Weft) : (s.mapWeft k g).ctxs = s.ctxs := rfl
@[simp] theorem mapWeft_tenants (s : State) (k : Nat) (g : Weft → Weft) : (s.mapWeft k g).tenants = s.tenants := rfl
@[simp] theorem mapWeft_folds (s : State) (k : Nat) (g : Weft → Weft) : (s.mapWeft k g).folds = s.folds := rfl
@[simp] theorem mapWeft_meadows (s : State) (k : Nat) (g : Weft → Weft) : (s.mapWeft k g).meadows = s.meadows := rfl
@[simp] theorem mapWeft_bumps (s : State) (k : Nat) (g : Weft → Weft) : (s.mapWeft k g).bumps = s.bumps := rfl
@[simp] theorem mapWeft_pwrites (s : State) (k : Nat) (g : Weft → Weft) : (s.mapWeft k g).pwrites = s.pwrites := rfl
@[simp] theorem mapWeft_faults (s : State) (k : Nat) (g : Weft → Weft) : (s.mapWeft k g).faults = s.faults := rfl
@[simp] theorem mapWeft_hbm (s : State) (k : Nat) (g : Weft → Weft) : (s.mapWeft k g).hbm = s.hbm := rfl
@[simp] theorem mapWeft_fw (s : State) (k : Nat) (g : Weft → Weft) : (s.mapWeft k g).fw = s.fw := rfl
@[simp] theorem mapWeft_hub (s : State) (k : Nat) (g : Weft → Weft) : (s.mapWeft k g).hub = s.hub := rfl
@[simp] theorem weft_mapWeft_same (s : State) (k : Nat) (g : Weft → Weft) : (s.mapWeft k g).weft k = g (s.weft k) := by
  simp [State.mapWeft]
theorem weft_mapWeft_other {s : State} {k j : Nat} (g : Weft → Weft) (h : j ≠ k) : (s.mapWeft k g).weft j = s.weft j :=
  weft_setWeft_other _ h
@[simp] theorem core_mapWeft (s : State) (k j : Nat) (g : Weft → Weft) : (s.mapWeft k g).core j = s.core j := rfl
@[simp] theorem team_mapWeft (s : State) (k j : Nat) (g : Weft → Weft) : (s.mapWeft k g).team j = s.team j := rfl
@[simp] theorem grid_mapWeft (s : State) (k j : Nat) (g : Weft → Weft) : (s.mapWeft k g).grid j = s.grid j := rfl
@[simp] theorem ctx_mapWeft (s : State) (k j : Nat) (g : Weft → Weft) : (s.mapWeft k g).ctx j = s.ctx j := rfl
@[simp] theorem tenant_mapWeft (s : State) (k j : Nat) (g : Weft → Weft) : (s.mapWeft k g).tenant j = s.tenant j := rfl
@[simp] theorem fold_mapWeft (s : State) (k j : Nat) (g : Weft → Weft) : (s.mapWeft k g).fold j = s.fold j := rfl
@[simp] theorem meadow_mapWeft (s : State) (k j : Nat) (g : Weft → Weft) : (s.mapWeft k g).meadow j = s.meadow j := rfl
@[simp] theorem stack_mapWeft (s : State) (k j : Nat) (g : Weft → Weft) : (s.mapWeft k g).stack j = s.stack j := rfl

/-! ### mapTeam -/

@[simp] theorem mapTeam_fresh (s : State) (k : Nat) (g : Team → Team) : (s.mapTeam k g).fresh = s.fresh := rfl
@[simp] theorem mapTeam_agenda (s : State) (k : Nat) (g : Team → Team) : (s.mapTeam k g).agenda = s.agenda := rfl
@[simp] theorem mapTeam_issuing (s : State) (k : Nat) (g : Team → Team) : (s.mapTeam k g).issuing = s.issuing := rfl
@[simp] theorem mapTeam_cur (s : State) (k : Nat) (g : Team → Team) : (s.mapTeam k g).cur = s.cur := rfl
@[simp] theorem mapTeam_nextId (s : State) (k : Nat) (g : Team → Team) : (s.mapTeam k g).nextId = s.nextId := rfl
@[simp] theorem mapTeam_mem (s : State) (k : Nat) (g : Team → Team) : (s.mapTeam k g).mem = s.mem := rfl
@[simp] theorem mapTeam_tags (s : State) (k : Nat) (g : Team → Team) : (s.mapTeam k g).tags = s.tags := rfl
@[simp] theorem mapTeam_poison (s : State) (k : Nat) (g : Team → Team) : (s.mapTeam k g).poison = s.poison := rfl
@[simp] theorem mapTeam_cells (s : State) (k : Nat) (g : Team → Team) : (s.mapTeam k g).cells = s.cells := rfl
@[simp] theorem mapTeam_cellBy (s : State) (k : Nat) (g : Team → Team) : (s.mapTeam k g).cellBy = s.cellBy := rfl
@[simp] theorem mapTeam_cellUse (s : State) (k : Nat) (g : Team → Team) : (s.mapTeam k g).cellUse = s.cellUse := rfl
@[simp] theorem mapTeam_l2 (s : State) (k : Nat) (g : Team → Team) : (s.mapTeam k g).l2 = s.l2 := rfl
@[simp] theorem mapTeam_msc (s : State) (k : Nat) (g : Team → Team) : (s.mapTeam k g).msc = s.msc := rfl
@[simp] theorem mapTeam_rows (s : State) (k : Nat) (g : Team → Team) : (s.mapTeam k g).rows = s.rows := rfl
@[simp] theorem mapTeam_l2pins (s : State) (k : Nat) (g : Team → Team) : (s.mapTeam k g).l2pins = s.l2pins := rfl
@[simp] theorem mapTeam_hmask (s : State) (k : Nat) (g : Team → Team) : (s.mapTeam k g).hmask = s.hmask := rfl
@[simp] theorem mapTeam_reqs (s : State) (k : Nat) (g : Team → Team) : (s.mapTeam k g).reqs = s.reqs := rfl
@[simp] theorem mapTeam_slots (s : State) (k : Nat) (g : Team → Team) : (s.mapTeam k g).slots = s.slots := rfl
@[simp] theorem mapTeam_cores (s : State) (k : Nat) (g : Team → Team) : (s.mapTeam k g).cores = s.cores := rfl
@[simp] theorem mapTeam_wefts (s : State) (k : Nat) (g : Team → Team) : (s.mapTeam k g).wefts = s.wefts := rfl
@[simp] theorem mapTeam_grids (s : State) (k : Nat) (g : Team → Team) : (s.mapTeam k g).grids = s.grids := rfl
@[simp] theorem mapTeam_ctxs (s : State) (k : Nat) (g : Team → Team) : (s.mapTeam k g).ctxs = s.ctxs := rfl
@[simp] theorem mapTeam_tenants (s : State) (k : Nat) (g : Team → Team) : (s.mapTeam k g).tenants = s.tenants := rfl
@[simp] theorem mapTeam_folds (s : State) (k : Nat) (g : Team → Team) : (s.mapTeam k g).folds = s.folds := rfl
@[simp] theorem mapTeam_meadows (s : State) (k : Nat) (g : Team → Team) : (s.mapTeam k g).meadows = s.meadows := rfl
@[simp] theorem mapTeam_bumps (s : State) (k : Nat) (g : Team → Team) : (s.mapTeam k g).bumps = s.bumps := rfl
@[simp] theorem mapTeam_pwrites (s : State) (k : Nat) (g : Team → Team) : (s.mapTeam k g).pwrites = s.pwrites := rfl
@[simp] theorem mapTeam_faults (s : State) (k : Nat) (g : Team → Team) : (s.mapTeam k g).faults = s.faults := rfl
@[simp] theorem mapTeam_hbm (s : State) (k : Nat) (g : Team → Team) : (s.mapTeam k g).hbm = s.hbm := rfl
@[simp] theorem mapTeam_fw (s : State) (k : Nat) (g : Team → Team) : (s.mapTeam k g).fw = s.fw := rfl
@[simp] theorem mapTeam_hub (s : State) (k : Nat) (g : Team → Team) : (s.mapTeam k g).hub = s.hub := rfl
@[simp] theorem team_mapTeam_same (s : State) (k : Nat) (g : Team → Team) : (s.mapTeam k g).team k = g (s.team k) := by
  simp [State.mapTeam]
theorem team_mapTeam_other {s : State} {k j : Nat} (g : Team → Team) (h : j ≠ k) : (s.mapTeam k g).team j = s.team j :=
  team_setTeam_other _ h
@[simp] theorem core_mapTeam (s : State) (k j : Nat) (g : Team → Team) : (s.mapTeam k g).core j = s.core j := rfl
@[simp] theorem weft_mapTeam (s : State) (k j : Nat) (g : Team → Team) : (s.mapTeam k g).weft j = s.weft j := rfl
@[simp] theorem grid_mapTeam (s : State) (k j : Nat) (g : Team → Team) : (s.mapTeam k g).grid j = s.grid j := rfl
@[simp] theorem ctx_mapTeam (s : State) (k j : Nat) (g : Team → Team) : (s.mapTeam k g).ctx j = s.ctx j := rfl
@[simp] theorem tenant_mapTeam (s : State) (k j : Nat) (g : Team → Team) : (s.mapTeam k g).tenant j = s.tenant j := rfl
@[simp] theorem fold_mapTeam (s : State) (k j : Nat) (g : Team → Team) : (s.mapTeam k g).fold j = s.fold j := rfl
@[simp] theorem meadow_mapTeam (s : State) (k j : Nat) (g : Team → Team) : (s.mapTeam k g).meadow j = s.meadow j := rfl
@[simp] theorem stack_mapTeam (s : State) (k j : Nat) (g : Team → Team) : (s.mapTeam k g).stack j = s.stack j := rfl

/-! ### mapCtx -/

@[simp] theorem mapCtx_fresh (s : State) (k : Nat) (g : Ctx → Ctx) : (s.mapCtx k g).fresh = s.fresh := rfl
@[simp] theorem mapCtx_agenda (s : State) (k : Nat) (g : Ctx → Ctx) : (s.mapCtx k g).agenda = s.agenda := rfl
@[simp] theorem mapCtx_issuing (s : State) (k : Nat) (g : Ctx → Ctx) : (s.mapCtx k g).issuing = s.issuing := rfl
@[simp] theorem mapCtx_cur (s : State) (k : Nat) (g : Ctx → Ctx) : (s.mapCtx k g).cur = s.cur := rfl
@[simp] theorem mapCtx_nextId (s : State) (k : Nat) (g : Ctx → Ctx) : (s.mapCtx k g).nextId = s.nextId := rfl
@[simp] theorem mapCtx_mem (s : State) (k : Nat) (g : Ctx → Ctx) : (s.mapCtx k g).mem = s.mem := rfl
@[simp] theorem mapCtx_tags (s : State) (k : Nat) (g : Ctx → Ctx) : (s.mapCtx k g).tags = s.tags := rfl
@[simp] theorem mapCtx_poison (s : State) (k : Nat) (g : Ctx → Ctx) : (s.mapCtx k g).poison = s.poison := rfl
@[simp] theorem mapCtx_cells (s : State) (k : Nat) (g : Ctx → Ctx) : (s.mapCtx k g).cells = s.cells := rfl
@[simp] theorem mapCtx_cellBy (s : State) (k : Nat) (g : Ctx → Ctx) : (s.mapCtx k g).cellBy = s.cellBy := rfl
@[simp] theorem mapCtx_cellUse (s : State) (k : Nat) (g : Ctx → Ctx) : (s.mapCtx k g).cellUse = s.cellUse := rfl
@[simp] theorem mapCtx_l2 (s : State) (k : Nat) (g : Ctx → Ctx) : (s.mapCtx k g).l2 = s.l2 := rfl
@[simp] theorem mapCtx_msc (s : State) (k : Nat) (g : Ctx → Ctx) : (s.mapCtx k g).msc = s.msc := rfl
@[simp] theorem mapCtx_rows (s : State) (k : Nat) (g : Ctx → Ctx) : (s.mapCtx k g).rows = s.rows := rfl
@[simp] theorem mapCtx_l2pins (s : State) (k : Nat) (g : Ctx → Ctx) : (s.mapCtx k g).l2pins = s.l2pins := rfl
@[simp] theorem mapCtx_hmask (s : State) (k : Nat) (g : Ctx → Ctx) : (s.mapCtx k g).hmask = s.hmask := rfl
@[simp] theorem mapCtx_reqs (s : State) (k : Nat) (g : Ctx → Ctx) : (s.mapCtx k g).reqs = s.reqs := rfl
@[simp] theorem mapCtx_slots (s : State) (k : Nat) (g : Ctx → Ctx) : (s.mapCtx k g).slots = s.slots := rfl
@[simp] theorem mapCtx_cores (s : State) (k : Nat) (g : Ctx → Ctx) : (s.mapCtx k g).cores = s.cores := rfl
@[simp] theorem mapCtx_wefts (s : State) (k : Nat) (g : Ctx → Ctx) : (s.mapCtx k g).wefts = s.wefts := rfl
@[simp] theorem mapCtx_teams (s : State) (k : Nat) (g : Ctx → Ctx) : (s.mapCtx k g).teams = s.teams := rfl
@[simp] theorem mapCtx_grids (s : State) (k : Nat) (g : Ctx → Ctx) : (s.mapCtx k g).grids = s.grids := rfl
@[simp] theorem mapCtx_tenants (s : State) (k : Nat) (g : Ctx → Ctx) : (s.mapCtx k g).tenants = s.tenants := rfl
@[simp] theorem mapCtx_folds (s : State) (k : Nat) (g : Ctx → Ctx) : (s.mapCtx k g).folds = s.folds := rfl
@[simp] theorem mapCtx_meadows (s : State) (k : Nat) (g : Ctx → Ctx) : (s.mapCtx k g).meadows = s.meadows := rfl
@[simp] theorem mapCtx_bumps (s : State) (k : Nat) (g : Ctx → Ctx) : (s.mapCtx k g).bumps = s.bumps := rfl
@[simp] theorem mapCtx_pwrites (s : State) (k : Nat) (g : Ctx → Ctx) : (s.mapCtx k g).pwrites = s.pwrites := rfl
@[simp] theorem mapCtx_faults (s : State) (k : Nat) (g : Ctx → Ctx) : (s.mapCtx k g).faults = s.faults := rfl
@[simp] theorem mapCtx_hbm (s : State) (k : Nat) (g : Ctx → Ctx) : (s.mapCtx k g).hbm = s.hbm := rfl
@[simp] theorem mapCtx_fw (s : State) (k : Nat) (g : Ctx → Ctx) : (s.mapCtx k g).fw = s.fw := rfl
@[simp] theorem mapCtx_hub (s : State) (k : Nat) (g : Ctx → Ctx) : (s.mapCtx k g).hub = s.hub := rfl
@[simp] theorem ctx_mapCtx_same (s : State) (k : Nat) (g : Ctx → Ctx) : (s.mapCtx k g).ctx k = g (s.ctx k) := by
  simp [State.mapCtx]
theorem ctx_mapCtx_other {s : State} {k j : Nat} (g : Ctx → Ctx) (h : j ≠ k) : (s.mapCtx k g).ctx j = s.ctx j :=
  ctx_setCtx_other _ h
@[simp] theorem core_mapCtx (s : State) (k j : Nat) (g : Ctx → Ctx) : (s.mapCtx k g).core j = s.core j := rfl
@[simp] theorem weft_mapCtx (s : State) (k j : Nat) (g : Ctx → Ctx) : (s.mapCtx k g).weft j = s.weft j := rfl
@[simp] theorem team_mapCtx (s : State) (k j : Nat) (g : Ctx → Ctx) : (s.mapCtx k g).team j = s.team j := rfl
@[simp] theorem grid_mapCtx (s : State) (k j : Nat) (g : Ctx → Ctx) : (s.mapCtx k g).grid j = s.grid j := rfl
@[simp] theorem tenant_mapCtx (s : State) (k j : Nat) (g : Ctx → Ctx) : (s.mapCtx k g).tenant j = s.tenant j := rfl
@[simp] theorem fold_mapCtx (s : State) (k j : Nat) (g : Ctx → Ctx) : (s.mapCtx k g).fold j = s.fold j := rfl
@[simp] theorem meadow_mapCtx (s : State) (k j : Nat) (g : Ctx → Ctx) : (s.mapCtx k g).meadow j = s.meadow j := rfl
@[simp] theorem stack_mapCtx (s : State) (k j : Nat) (g : Ctx → Ctx) : (s.mapCtx k g).stack j = s.stack j := rfl

/-! ### mapTenant -/

@[simp] theorem mapTenant_fresh (s : State) (k : Nat) (g : Tenant → Tenant) : (s.mapTenant k g).fresh = s.fresh := rfl
@[simp] theorem mapTenant_agenda (s : State) (k : Nat) (g : Tenant → Tenant) : (s.mapTenant k g).agenda = s.agenda := rfl
@[simp] theorem mapTenant_issuing (s : State) (k : Nat) (g : Tenant → Tenant) : (s.mapTenant k g).issuing = s.issuing := rfl
@[simp] theorem mapTenant_cur (s : State) (k : Nat) (g : Tenant → Tenant) : (s.mapTenant k g).cur = s.cur := rfl
@[simp] theorem mapTenant_nextId (s : State) (k : Nat) (g : Tenant → Tenant) : (s.mapTenant k g).nextId = s.nextId := rfl
@[simp] theorem mapTenant_mem (s : State) (k : Nat) (g : Tenant → Tenant) : (s.mapTenant k g).mem = s.mem := rfl
@[simp] theorem mapTenant_tags (s : State) (k : Nat) (g : Tenant → Tenant) : (s.mapTenant k g).tags = s.tags := rfl
@[simp] theorem mapTenant_poison (s : State) (k : Nat) (g : Tenant → Tenant) : (s.mapTenant k g).poison = s.poison := rfl
@[simp] theorem mapTenant_cells (s : State) (k : Nat) (g : Tenant → Tenant) : (s.mapTenant k g).cells = s.cells := rfl
@[simp] theorem mapTenant_cellBy (s : State) (k : Nat) (g : Tenant → Tenant) : (s.mapTenant k g).cellBy = s.cellBy := rfl
@[simp] theorem mapTenant_cellUse (s : State) (k : Nat) (g : Tenant → Tenant) : (s.mapTenant k g).cellUse = s.cellUse := rfl
@[simp] theorem mapTenant_l2 (s : State) (k : Nat) (g : Tenant → Tenant) : (s.mapTenant k g).l2 = s.l2 := rfl
@[simp] theorem mapTenant_msc (s : State) (k : Nat) (g : Tenant → Tenant) : (s.mapTenant k g).msc = s.msc := rfl
@[simp] theorem mapTenant_rows (s : State) (k : Nat) (g : Tenant → Tenant) : (s.mapTenant k g).rows = s.rows := rfl
@[simp] theorem mapTenant_l2pins (s : State) (k : Nat) (g : Tenant → Tenant) : (s.mapTenant k g).l2pins = s.l2pins := rfl
@[simp] theorem mapTenant_hmask (s : State) (k : Nat) (g : Tenant → Tenant) : (s.mapTenant k g).hmask = s.hmask := rfl
@[simp] theorem mapTenant_reqs (s : State) (k : Nat) (g : Tenant → Tenant) : (s.mapTenant k g).reqs = s.reqs := rfl
@[simp] theorem mapTenant_slots (s : State) (k : Nat) (g : Tenant → Tenant) : (s.mapTenant k g).slots = s.slots := rfl
@[simp] theorem mapTenant_cores (s : State) (k : Nat) (g : Tenant → Tenant) : (s.mapTenant k g).cores = s.cores := rfl
@[simp] theorem mapTenant_wefts (s : State) (k : Nat) (g : Tenant → Tenant) : (s.mapTenant k g).wefts = s.wefts := rfl
@[simp] theorem mapTenant_teams (s : State) (k : Nat) (g : Tenant → Tenant) : (s.mapTenant k g).teams = s.teams := rfl
@[simp] theorem mapTenant_grids (s : State) (k : Nat) (g : Tenant → Tenant) : (s.mapTenant k g).grids = s.grids := rfl
@[simp] theorem mapTenant_ctxs (s : State) (k : Nat) (g : Tenant → Tenant) : (s.mapTenant k g).ctxs = s.ctxs := rfl
@[simp] theorem mapTenant_folds (s : State) (k : Nat) (g : Tenant → Tenant) : (s.mapTenant k g).folds = s.folds := rfl
@[simp] theorem mapTenant_meadows (s : State) (k : Nat) (g : Tenant → Tenant) : (s.mapTenant k g).meadows = s.meadows := rfl
@[simp] theorem mapTenant_bumps (s : State) (k : Nat) (g : Tenant → Tenant) : (s.mapTenant k g).bumps = s.bumps := rfl
@[simp] theorem mapTenant_pwrites (s : State) (k : Nat) (g : Tenant → Tenant) : (s.mapTenant k g).pwrites = s.pwrites := rfl
@[simp] theorem mapTenant_faults (s : State) (k : Nat) (g : Tenant → Tenant) : (s.mapTenant k g).faults = s.faults := rfl
@[simp] theorem mapTenant_hbm (s : State) (k : Nat) (g : Tenant → Tenant) : (s.mapTenant k g).hbm = s.hbm := rfl
@[simp] theorem mapTenant_fw (s : State) (k : Nat) (g : Tenant → Tenant) : (s.mapTenant k g).fw = s.fw := rfl
@[simp] theorem mapTenant_hub (s : State) (k : Nat) (g : Tenant → Tenant) : (s.mapTenant k g).hub = s.hub := rfl
@[simp] theorem tenant_mapTenant_same (s : State) (k : Nat) (g : Tenant → Tenant) : (s.mapTenant k g).tenant k = g (s.tenant k) := by
  simp [State.mapTenant]
theorem tenant_mapTenant_other {s : State} {k j : Nat} (g : Tenant → Tenant) (h : j ≠ k) : (s.mapTenant k g).tenant j = s.tenant j :=
  tenant_setTenant_other _ h
@[simp] theorem core_mapTenant (s : State) (k j : Nat) (g : Tenant → Tenant) : (s.mapTenant k g).core j = s.core j := rfl
@[simp] theorem weft_mapTenant (s : State) (k j : Nat) (g : Tenant → Tenant) : (s.mapTenant k g).weft j = s.weft j := rfl
@[simp] theorem team_mapTenant (s : State) (k j : Nat) (g : Tenant → Tenant) : (s.mapTenant k g).team j = s.team j := rfl
@[simp] theorem grid_mapTenant (s : State) (k j : Nat) (g : Tenant → Tenant) : (s.mapTenant k g).grid j = s.grid j := rfl
@[simp] theorem ctx_mapTenant (s : State) (k j : Nat) (g : Tenant → Tenant) : (s.mapTenant k g).ctx j = s.ctx j := rfl
@[simp] theorem fold_mapTenant (s : State) (k j : Nat) (g : Tenant → Tenant) : (s.mapTenant k g).fold j = s.fold j := rfl
@[simp] theorem meadow_mapTenant (s : State) (k j : Nat) (g : Tenant → Tenant) : (s.mapTenant k g).meadow j = s.meadow j := rfl
@[simp] theorem stack_mapTenant (s : State) (k j : Nat) (g : Tenant → Tenant) : (s.mapTenant k g).stack j = s.stack j := rfl

/-! ### advance -/

@[simp] theorem advance_fresh (s : State) : (s.advance).fresh = s.fresh := rfl
@[simp] theorem advance_agenda (s : State) : (s.advance).agenda = s.agenda := rfl
@[simp] theorem advance_issuing (s : State) : (s.advance).issuing = s.issuing := rfl
@[simp] theorem advance_cur (s : State) : (s.advance).cur = s.cur := rfl
@[simp] theorem advance_nextId (s : State) : (s.advance).nextId = s.nextId := rfl
@[simp] theorem advance_mem (s : State) : (s.advance).mem = s.mem := rfl
@[simp] theorem advance_tags (s : State) : (s.advance).tags = s.tags := rfl
@[simp] theorem advance_poison (s : State) : (s.advance).poison = s.poison := rfl
@[simp] theorem advance_cells (s : State) : (s.advance).cells = s.cells := rfl
@[simp] theorem advance_cellBy (s : State) : (s.advance).cellBy = s.cellBy := rfl
@[simp] theorem advance_cellUse (s : State) : (s.advance).cellUse = s.cellUse := rfl
@[simp] theorem advance_l2 (s : State) : (s.advance).l2 = s.l2 := rfl
@[simp] theorem advance_msc (s : State) : (s.advance).msc = s.msc := rfl
@[simp] theorem advance_rows (s : State) : (s.advance).rows = s.rows := rfl
@[simp] theorem advance_l2pins (s : State) : (s.advance).l2pins = s.l2pins := rfl
@[simp] theorem advance_hmask (s : State) : (s.advance).hmask = s.hmask := rfl
@[simp] theorem advance_reqs (s : State) : (s.advance).reqs = s.reqs := rfl
@[simp] theorem advance_slots (s : State) : (s.advance).slots = s.slots := rfl
@[simp] theorem advance_cores (s : State) : (s.advance).cores = s.cores := rfl
@[simp] theorem advance_teams (s : State) : (s.advance).teams = s.teams := rfl
@[simp] theorem advance_grids (s : State) : (s.advance).grids = s.grids := rfl
@[simp] theorem advance_ctxs (s : State) : (s.advance).ctxs = s.ctxs := rfl
@[simp] theorem advance_tenants (s : State) : (s.advance).tenants = s.tenants := rfl
@[simp] theorem advance_folds (s : State) : (s.advance).folds = s.folds := rfl
@[simp] theorem advance_meadows (s : State) : (s.advance).meadows = s.meadows := rfl
@[simp] theorem advance_bumps (s : State) : (s.advance).bumps = s.bumps := rfl
@[simp] theorem advance_pwrites (s : State) : (s.advance).pwrites = s.pwrites := rfl
@[simp] theorem advance_faults (s : State) : (s.advance).faults = s.faults := rfl
@[simp] theorem advance_hbm (s : State) : (s.advance).hbm = s.hbm := rfl
@[simp] theorem advance_fw (s : State) : (s.advance).fw = s.fw := rfl
@[simp] theorem advance_hub (s : State) : (s.advance).hub = s.hub := rfl
@[simp] theorem core_advance (s : State) (j : Nat) : (s.advance).core j = s.core j := rfl
@[simp] theorem team_advance (s : State) (j : Nat) : (s.advance).team j = s.team j := rfl
@[simp] theorem grid_advance (s : State) (j : Nat) : (s.advance).grid j = s.grid j := rfl
@[simp] theorem ctx_advance (s : State) (j : Nat) : (s.advance).ctx j = s.ctx j := rfl
@[simp] theorem tenant_advance (s : State) (j : Nat) : (s.advance).tenant j = s.tenant j := rfl
@[simp] theorem fold_advance (s : State) (j : Nat) : (s.advance).fold j = s.fold j := rfl
@[simp] theorem meadow_advance (s : State) (j : Nat) : (s.advance).meadow j = s.meadow j := rfl
@[simp] theorem stack_advance (s : State) (j : Nat) : (s.advance).stack j = s.stack j := rfl

/-! ### turnAway -/

@[simp] theorem turnAway_fresh (s : State) : (s.turnAway).fresh = s.fresh := rfl
@[simp] theorem turnAway_agenda (s : State) : (s.turnAway).agenda = s.agenda := rfl
@[simp] theorem turnAway_cur (s : State) : (s.turnAway).cur = s.cur := rfl
@[simp] theorem turnAway_nextId (s : State) : (s.turnAway).nextId = s.nextId := rfl
@[simp] theorem turnAway_mem (s : State) : (s.turnAway).mem = s.mem := rfl
@[simp] theorem turnAway_tags (s : State) : (s.turnAway).tags = s.tags := rfl
@[simp] theorem turnAway_poison (s : State) : (s.turnAway).poison = s.poison := rfl
@[simp] theorem turnAway_cells (s : State) : (s.turnAway).cells = s.cells := rfl
@[simp] theorem turnAway_cellBy (s : State) : (s.turnAway).cellBy = s.cellBy := rfl
@[simp] theorem turnAway_cellUse (s : State) : (s.turnAway).cellUse = s.cellUse := rfl
@[simp] theorem turnAway_l2 (s : State) : (s.turnAway).l2 = s.l2 := rfl
@[simp] theorem turnAway_msc (s : State) : (s.turnAway).msc = s.msc := rfl
@[simp] theorem turnAway_rows (s : State) : (s.turnAway).rows = s.rows := rfl
@[simp] theorem turnAway_l2pins (s : State) : (s.turnAway).l2pins = s.l2pins := rfl
@[simp] theorem turnAway_hmask (s : State) : (s.turnAway).hmask = s.hmask := rfl
@[simp] theorem turnAway_reqs (s : State) : (s.turnAway).reqs = s.reqs := rfl
@[simp] theorem turnAway_slots (s : State) : (s.turnAway).slots = s.slots := rfl
@[simp] theorem turnAway_cores (s : State) : (s.turnAway).cores = s.cores := rfl
@[simp] theorem turnAway_teams (s : State) : (s.turnAway).teams = s.teams := rfl
@[simp] theorem turnAway_grids (s : State) : (s.turnAway).grids = s.grids := rfl
@[simp] theorem turnAway_ctxs (s : State) : (s.turnAway).ctxs = s.ctxs := rfl
@[simp] theorem turnAway_tenants (s : State) : (s.turnAway).tenants = s.tenants := rfl
@[simp] theorem turnAway_folds (s : State) : (s.turnAway).folds = s.folds := rfl
@[simp] theorem turnAway_meadows (s : State) : (s.turnAway).meadows = s.meadows := rfl
@[simp] theorem turnAway_bumps (s : State) : (s.turnAway).bumps = s.bumps := rfl
@[simp] theorem turnAway_pwrites (s : State) : (s.turnAway).pwrites = s.pwrites := rfl
@[simp] theorem turnAway_faults (s : State) : (s.turnAway).faults = s.faults := rfl
@[simp] theorem turnAway_hbm (s : State) : (s.turnAway).hbm = s.hbm := rfl
@[simp] theorem turnAway_fw (s : State) : (s.turnAway).fw = s.fw := rfl
@[simp] theorem turnAway_hub (s : State) : (s.turnAway).hub = s.hub := rfl
@[simp] theorem core_turnAway (s : State) (j : Nat) : (s.turnAway).core j = s.core j := rfl
@[simp] theorem team_turnAway (s : State) (j : Nat) : (s.turnAway).team j = s.team j := rfl
@[simp] theorem grid_turnAway (s : State) (j : Nat) : (s.turnAway).grid j = s.grid j := rfl
@[simp] theorem ctx_turnAway (s : State) (j : Nat) : (s.turnAway).ctx j = s.ctx j := rfl
@[simp] theorem tenant_turnAway (s : State) (j : Nat) : (s.turnAway).tenant j = s.tenant j := rfl
@[simp] theorem fold_turnAway (s : State) (j : Nat) : (s.turnAway).fold j = s.fold j := rfl
@[simp] theorem meadow_turnAway (s : State) (j : Nat) : (s.turnAway).meadow j = s.meadow j := rfl
@[simp] theorem stack_turnAway (s : State) (j : Nat) : (s.turnAway).stack j = s.stack j := rfl

/-! ### mapBlocks -/

@[simp] theorem mapBlocks_fresh (s : State) (c : Nat) (f : CtxBlock → CtxBlock) : (s.mapBlocks c f).fresh = s.fresh := rfl
@[simp] theorem mapBlocks_agenda (s : State) (c : Nat) (f : CtxBlock → CtxBlock) : (s.mapBlocks c f).agenda = s.agenda := rfl
@[simp] theorem mapBlocks_issuing (s : State) (c : Nat) (f : CtxBlock → CtxBlock) : (s.mapBlocks c f).issuing = s.issuing := rfl
@[simp] theorem mapBlocks_cur (s : State) (c : Nat) (f : CtxBlock → CtxBlock) : (s.mapBlocks c f).cur = s.cur := rfl
@[simp] theorem mapBlocks_nextId (s : State) (c : Nat) (f : CtxBlock → CtxBlock) : (s.mapBlocks c f).nextId = s.nextId := rfl
@[simp] theorem mapBlocks_mem (s : State) (c : Nat) (f : CtxBlock → CtxBlock) : (s.mapBlocks c f).mem = s.mem := rfl
@[simp] theorem mapBlocks_tags (s : State) (c : Nat) (f : CtxBlock → CtxBlock) : (s.mapBlocks c f).tags = s.tags := rfl
@[simp] theorem mapBlocks_poison (s : State) (c : Nat) (f : CtxBlock → CtxBlock) : (s.mapBlocks c f).poison = s.poison := rfl
@[simp] theorem mapBlocks_cells (s : State) (c : Nat) (f : CtxBlock → CtxBlock) : (s.mapBlocks c f).cells = s.cells := rfl
@[simp] theorem mapBlocks_cellBy (s : State) (c : Nat) (f : CtxBlock → CtxBlock) : (s.mapBlocks c f).cellBy = s.cellBy := rfl
@[simp] theorem mapBlocks_cellUse (s : State) (c : Nat) (f : CtxBlock → CtxBlock) : (s.mapBlocks c f).cellUse = s.cellUse := rfl
@[simp] theorem mapBlocks_l2 (s : State) (c : Nat) (f : CtxBlock → CtxBlock) : (s.mapBlocks c f).l2 = s.l2 := rfl
@[simp] theorem mapBlocks_msc (s : State) (c : Nat) (f : CtxBlock → CtxBlock) : (s.mapBlocks c f).msc = s.msc := rfl
@[simp] theorem mapBlocks_rows (s : State) (c : Nat) (f : CtxBlock → CtxBlock) : (s.mapBlocks c f).rows = s.rows := rfl
@[simp] theorem mapBlocks_l2pins (s : State) (c : Nat) (f : CtxBlock → CtxBlock) : (s.mapBlocks c f).l2pins = s.l2pins := rfl
@[simp] theorem mapBlocks_hmask (s : State) (c : Nat) (f : CtxBlock → CtxBlock) : (s.mapBlocks c f).hmask = s.hmask := rfl
@[simp] theorem mapBlocks_reqs (s : State) (c : Nat) (f : CtxBlock → CtxBlock) : (s.mapBlocks c f).reqs = s.reqs := rfl
@[simp] theorem mapBlocks_slots (s : State) (c : Nat) (f : CtxBlock → CtxBlock) : (s.mapBlocks c f).slots = s.slots := rfl
@[simp] theorem mapBlocks_wefts (s : State) (c : Nat) (f : CtxBlock → CtxBlock) : (s.mapBlocks c f).wefts = s.wefts := rfl
@[simp] theorem mapBlocks_teams (s : State) (c : Nat) (f : CtxBlock → CtxBlock) : (s.mapBlocks c f).teams = s.teams := rfl
@[simp] theorem mapBlocks_grids (s : State) (c : Nat) (f : CtxBlock → CtxBlock) : (s.mapBlocks c f).grids = s.grids := rfl
@[simp] theorem mapBlocks_ctxs (s : State) (c : Nat) (f : CtxBlock → CtxBlock) : (s.mapBlocks c f).ctxs = s.ctxs := rfl
@[simp] theorem mapBlocks_tenants (s : State) (c : Nat) (f : CtxBlock → CtxBlock) : (s.mapBlocks c f).tenants = s.tenants := rfl
@[simp] theorem mapBlocks_folds (s : State) (c : Nat) (f : CtxBlock → CtxBlock) : (s.mapBlocks c f).folds = s.folds := rfl
@[simp] theorem mapBlocks_meadows (s : State) (c : Nat) (f : CtxBlock → CtxBlock) : (s.mapBlocks c f).meadows = s.meadows := rfl
@[simp] theorem mapBlocks_bumps (s : State) (c : Nat) (f : CtxBlock → CtxBlock) : (s.mapBlocks c f).bumps = s.bumps := rfl
@[simp] theorem mapBlocks_pwrites (s : State) (c : Nat) (f : CtxBlock → CtxBlock) : (s.mapBlocks c f).pwrites = s.pwrites := rfl
@[simp] theorem mapBlocks_faults (s : State) (c : Nat) (f : CtxBlock → CtxBlock) : (s.mapBlocks c f).faults = s.faults := rfl
@[simp] theorem mapBlocks_hbm (s : State) (c : Nat) (f : CtxBlock → CtxBlock) : (s.mapBlocks c f).hbm = s.hbm := rfl
@[simp] theorem mapBlocks_fw (s : State) (c : Nat) (f : CtxBlock → CtxBlock) : (s.mapBlocks c f).fw = s.fw := rfl
@[simp] theorem mapBlocks_hub (s : State) (c : Nat) (f : CtxBlock → CtxBlock) : (s.mapBlocks c f).hub = s.hub := rfl
@[simp] theorem weft_mapBlocks (s : State) (c : Nat) (f : CtxBlock → CtxBlock) (j : Nat) : (s.mapBlocks c f).weft j = s.weft j := rfl
@[simp] theorem team_mapBlocks (s : State) (c : Nat) (f : CtxBlock → CtxBlock) (j : Nat) : (s.mapBlocks c f).team j = s.team j := rfl
@[simp] theorem grid_mapBlocks (s : State) (c : Nat) (f : CtxBlock → CtxBlock) (j : Nat) : (s.mapBlocks c f).grid j = s.grid j := rfl
@[simp] theorem ctx_mapBlocks (s : State) (c : Nat) (f : CtxBlock → CtxBlock) (j : Nat) : (s.mapBlocks c f).ctx j = s.ctx j := rfl
@[simp] theorem tenant_mapBlocks (s : State) (c : Nat) (f : CtxBlock → CtxBlock) (j : Nat) : (s.mapBlocks c f).tenant j = s.tenant j := rfl
@[simp] theorem fold_mapBlocks (s : State) (c : Nat) (f : CtxBlock → CtxBlock) (j : Nat) : (s.mapBlocks c f).fold j = s.fold j := rfl
@[simp] theorem meadow_mapBlocks (s : State) (c : Nat) (f : CtxBlock → CtxBlock) (j : Nat) : (s.mapBlocks c f).meadow j = s.meadow j := rfl
@[simp] theorem stack_mapBlocks (s : State) (c : Nat) (f : CtxBlock → CtxBlock) (j : Nat) : (s.mapBlocks c f).stack j = s.stack j := rfl

/-! ### addReq -/

@[simp] theorem addReq_fresh (s : State) (r : Req) : (s.addReq r).fresh = s.fresh := rfl
@[simp] theorem addReq_agenda (s : State) (r : Req) : (s.addReq r).agenda = s.agenda := rfl
@[simp] theorem addReq_issuing (s : State) (r : Req) : (s.addReq r).issuing = s.issuing := rfl
@[simp] theorem addReq_cur (s : State) (r : Req) : (s.addReq r).cur = s.cur := rfl
@[simp] theorem addReq_mem (s : State) (r : Req) : (s.addReq r).mem = s.mem := rfl
@[simp] theorem addReq_tags (s : State) (r : Req) : (s.addReq r).tags = s.tags := rfl
@[simp] theorem addReq_poison (s : State) (r : Req) : (s.addReq r).poison = s.poison := rfl
@[simp] theorem addReq_cells (s : State) (r : Req) : (s.addReq r).cells = s.cells := rfl
@[simp] theorem addReq_cellBy (s : State) (r : Req) : (s.addReq r).cellBy = s.cellBy := rfl
@[simp] theorem addReq_cellUse (s : State) (r : Req) : (s.addReq r).cellUse = s.cellUse := rfl
@[simp] theorem addReq_l2 (s : State) (r : Req) : (s.addReq r).l2 = s.l2 := rfl
@[simp] theorem addReq_msc (s : State) (r : Req) : (s.addReq r).msc = s.msc := rfl
@[simp] theorem addReq_rows (s : State) (r : Req) : (s.addReq r).rows = s.rows := rfl
@[simp] theorem addReq_l2pins (s : State) (r : Req) : (s.addReq r).l2pins = s.l2pins := rfl
@[simp] theorem addReq_hmask (s : State) (r : Req) : (s.addReq r).hmask = s.hmask := rfl
@[simp] theorem addReq_slots (s : State) (r : Req) : (s.addReq r).slots = s.slots := rfl
@[simp] theorem addReq_cores (s : State) (r : Req) : (s.addReq r).cores = s.cores := rfl
@[simp] theorem addReq_wefts (s : State) (r : Req) : (s.addReq r).wefts = s.wefts := rfl
@[simp] theorem addReq_teams (s : State) (r : Req) : (s.addReq r).teams = s.teams := rfl
@[simp] theorem addReq_grids (s : State) (r : Req) : (s.addReq r).grids = s.grids := rfl
@[simp] theorem addReq_ctxs (s : State) (r : Req) : (s.addReq r).ctxs = s.ctxs := rfl
@[simp] theorem addReq_tenants (s : State) (r : Req) : (s.addReq r).tenants = s.tenants := rfl
@[simp] theorem addReq_folds (s : State) (r : Req) : (s.addReq r).folds = s.folds := rfl
@[simp] theorem addReq_meadows (s : State) (r : Req) : (s.addReq r).meadows = s.meadows := rfl
@[simp] theorem addReq_bumps (s : State) (r : Req) : (s.addReq r).bumps = s.bumps := rfl
@[simp] theorem addReq_pwrites (s : State) (r : Req) : (s.addReq r).pwrites = s.pwrites := rfl
@[simp] theorem addReq_faults (s : State) (r : Req) : (s.addReq r).faults = s.faults := rfl
@[simp] theorem addReq_hbm (s : State) (r : Req) : (s.addReq r).hbm = s.hbm := rfl
@[simp] theorem addReq_fw (s : State) (r : Req) : (s.addReq r).fw = s.fw := rfl
@[simp] theorem addReq_hub (s : State) (r : Req) : (s.addReq r).hub = s.hub := rfl
@[simp] theorem core_addReq (s : State) (r : Req) (j : Nat) : (s.addReq r).core j = s.core j := rfl
@[simp] theorem weft_addReq (s : State) (r : Req) (j : Nat) : (s.addReq r).weft j = s.weft j := rfl
@[simp] theorem team_addReq (s : State) (r : Req) (j : Nat) : (s.addReq r).team j = s.team j := rfl
@[simp] theorem grid_addReq (s : State) (r : Req) (j : Nat) : (s.addReq r).grid j = s.grid j := rfl
@[simp] theorem ctx_addReq (s : State) (r : Req) (j : Nat) : (s.addReq r).ctx j = s.ctx j := rfl
@[simp] theorem tenant_addReq (s : State) (r : Req) (j : Nat) : (s.addReq r).tenant j = s.tenant j := rfl
@[simp] theorem fold_addReq (s : State) (r : Req) (j : Nat) : (s.addReq r).fold j = s.fold j := rfl
@[simp] theorem meadow_addReq (s : State) (r : Req) (j : Nat) : (s.addReq r).meadow j = s.meadow j := rfl
@[simp] theorem stack_addReq (s : State) (r : Req) (j : Nat) : (s.addReq r).stack j = s.stack j := rfl

/-! ### setReq -/

@[simp] theorem setReq_fresh (s : State) (r : Req) : (s.setReq r).fresh = s.fresh := rfl
@[simp] theorem setReq_agenda (s : State) (r : Req) : (s.setReq r).agenda = s.agenda := rfl
@[simp] theorem setReq_issuing (s : State) (r : Req) : (s.setReq r).issuing = s.issuing := rfl
@[simp] theorem setReq_cur (s : State) (r : Req) : (s.setReq r).cur = s.cur := rfl
@[simp] theorem setReq_nextId (s : State) (r : Req) : (s.setReq r).nextId = s.nextId := rfl
@[simp] theorem setReq_mem (s : State) (r : Req) : (s.setReq r).mem = s.mem := rfl
@[simp] theorem setReq_tags (s : State) (r : Req) : (s.setReq r).tags = s.tags := rfl
@[simp] theorem setReq_poison (s : State) (r : Req) : (s.setReq r).poison = s.poison := rfl
@[simp] theorem setReq_cells (s : State) (r : Req) : (s.setReq r).cells = s.cells := rfl
@[simp] theorem setReq_cellBy (s : State) (r : Req) : (s.setReq r).cellBy = s.cellBy := rfl
@[simp] theorem setReq_cellUse (s : State) (r : Req) : (s.setReq r).cellUse = s.cellUse := rfl
@[simp] theorem setReq_l2 (s : State) (r : Req) : (s.setReq r).l2 = s.l2 := rfl
@[simp] theorem setReq_msc (s : State) (r : Req) : (s.setReq r).msc = s.msc := rfl
@[simp] theorem setReq_rows (s : State) (r : Req) : (s.setReq r).rows = s.rows := rfl
@[simp] theorem setReq_l2pins (s : State) (r : Req) : (s.setReq r).l2pins = s.l2pins := rfl
@[simp] theorem setReq_hmask (s : State) (r : Req) : (s.setReq r).hmask = s.hmask := rfl
@[simp] theorem setReq_slots (s : State) (r : Req) : (s.setReq r).slots = s.slots := rfl
@[simp] theorem setReq_cores (s : State) (r : Req) : (s.setReq r).cores = s.cores := rfl
@[simp] theorem setReq_wefts (s : State) (r : Req) : (s.setReq r).wefts = s.wefts := rfl
@[simp] theorem setReq_teams (s : State) (r : Req) : (s.setReq r).teams = s.teams := rfl
@[simp] theorem setReq_grids (s : State) (r : Req) : (s.setReq r).grids = s.grids := rfl
@[simp] theorem setReq_ctxs (s : State) (r : Req) : (s.setReq r).ctxs = s.ctxs := rfl
@[simp] theorem setReq_tenants (s : State) (r : Req) : (s.setReq r).tenants = s.tenants := rfl
@[simp] theorem setReq_folds (s : State) (r : Req) : (s.setReq r).folds = s.folds := rfl
@[simp] theorem setReq_meadows (s : State) (r : Req) : (s.setReq r).meadows = s.meadows := rfl
@[simp] theorem setReq_bumps (s : State) (r : Req) : (s.setReq r).bumps = s.bumps := rfl
@[simp] theorem setReq_pwrites (s : State) (r : Req) : (s.setReq r).pwrites = s.pwrites := rfl
@[simp] theorem setReq_faults (s : State) (r : Req) : (s.setReq r).faults = s.faults := rfl
@[simp] theorem setReq_hbm (s : State) (r : Req) : (s.setReq r).hbm = s.hbm := rfl
@[simp] theorem setReq_fw (s : State) (r : Req) : (s.setReq r).fw = s.fw := rfl
@[simp] theorem setReq_hub (s : State) (r : Req) : (s.setReq r).hub = s.hub := rfl
@[simp] theorem core_setReq (s : State) (r : Req) (j : Nat) : (s.setReq r).core j = s.core j := rfl
@[simp] theorem weft_setReq (s : State) (r : Req) (j : Nat) : (s.setReq r).weft j = s.weft j := rfl
@[simp] theorem team_setReq (s : State) (r : Req) (j : Nat) : (s.setReq r).team j = s.team j := rfl
@[simp] theorem grid_setReq (s : State) (r : Req) (j : Nat) : (s.setReq r).grid j = s.grid j := rfl
@[simp] theorem ctx_setReq (s : State) (r : Req) (j : Nat) : (s.setReq r).ctx j = s.ctx j := rfl
@[simp] theorem tenant_setReq (s : State) (r : Req) (j : Nat) : (s.setReq r).tenant j = s.tenant j := rfl
@[simp] theorem fold_setReq (s : State) (r : Req) (j : Nat) : (s.setReq r).fold j = s.fold j := rfl
@[simp] theorem meadow_setReq (s : State) (r : Req) (j : Nat) : (s.setReq r).meadow j = s.meadow j := rfl
@[simp] theorem stack_setReq (s : State) (r : Req) (j : Nat) : (s.setReq r).stack j = s.stack j := rfl

/-! ### dropReq -/

@[simp] theorem dropReq_fresh (s : State) (n : Nat) : (s.dropReq n).fresh = s.fresh := rfl
@[simp] theorem dropReq_agenda (s : State) (n : Nat) : (s.dropReq n).agenda = s.agenda := rfl
@[simp] theorem dropReq_issuing (s : State) (n : Nat) : (s.dropReq n).issuing = s.issuing := rfl
@[simp] theorem dropReq_cur (s : State) (n : Nat) : (s.dropReq n).cur = s.cur := rfl
@[simp] theorem dropReq_nextId (s : State) (n : Nat) : (s.dropReq n).nextId = s.nextId := rfl
@[simp] theorem dropReq_mem (s : State) (n : Nat) : (s.dropReq n).mem = s.mem := rfl
@[simp] theorem dropReq_tags (s : State) (n : Nat) : (s.dropReq n).tags = s.tags := rfl
@[simp] theorem dropReq_poison (s : State) (n : Nat) : (s.dropReq n).poison = s.poison := rfl
@[simp] theorem dropReq_cells (s : State) (n : Nat) : (s.dropReq n).cells = s.cells := rfl
@[simp] theorem dropReq_cellBy (s : State) (n : Nat) : (s.dropReq n).cellBy = s.cellBy := rfl
@[simp] theorem dropReq_cellUse (s : State) (n : Nat) : (s.dropReq n).cellUse = s.cellUse := rfl
@[simp] theorem dropReq_l2 (s : State) (n : Nat) : (s.dropReq n).l2 = s.l2 := rfl
@[simp] theorem dropReq_msc (s : State) (n : Nat) : (s.dropReq n).msc = s.msc := rfl
@[simp] theorem dropReq_rows (s : State) (n : Nat) : (s.dropReq n).rows = s.rows := rfl
@[simp] theorem dropReq_l2pins (s : State) (n : Nat) : (s.dropReq n).l2pins = s.l2pins := rfl
@[simp] theorem dropReq_hmask (s : State) (n : Nat) : (s.dropReq n).hmask = s.hmask := rfl
@[simp] theorem dropReq_slots (s : State) (n : Nat) : (s.dropReq n).slots = s.slots := rfl
@[simp] theorem dropReq_cores (s : State) (n : Nat) : (s.dropReq n).cores = s.cores := rfl
@[simp] theorem dropReq_wefts (s : State) (n : Nat) : (s.dropReq n).wefts = s.wefts := rfl
@[simp] theorem dropReq_teams (s : State) (n : Nat) : (s.dropReq n).teams = s.teams := rfl
@[simp] theorem dropReq_grids (s : State) (n : Nat) : (s.dropReq n).grids = s.grids := rfl
@[simp] theorem dropReq_ctxs (s : State) (n : Nat) : (s.dropReq n).ctxs = s.ctxs := rfl
@[simp] theorem dropReq_tenants (s : State) (n : Nat) : (s.dropReq n).tenants = s.tenants := rfl
@[simp] theorem dropReq_folds (s : State) (n : Nat) : (s.dropReq n).folds = s.folds := rfl
@[simp] theorem dropReq_meadows (s : State) (n : Nat) : (s.dropReq n).meadows = s.meadows := rfl
@[simp] theorem dropReq_bumps (s : State) (n : Nat) : (s.dropReq n).bumps = s.bumps := rfl
@[simp] theorem dropReq_pwrites (s : State) (n : Nat) : (s.dropReq n).pwrites = s.pwrites := rfl
@[simp] theorem dropReq_faults (s : State) (n : Nat) : (s.dropReq n).faults = s.faults := rfl
@[simp] theorem dropReq_hbm (s : State) (n : Nat) : (s.dropReq n).hbm = s.hbm := rfl
@[simp] theorem dropReq_fw (s : State) (n : Nat) : (s.dropReq n).fw = s.fw := rfl
@[simp] theorem dropReq_hub (s : State) (n : Nat) : (s.dropReq n).hub = s.hub := rfl
@[simp] theorem core_dropReq (s : State) (n : Nat) (j : Nat) : (s.dropReq n).core j = s.core j := rfl
@[simp] theorem weft_dropReq (s : State) (n : Nat) (j : Nat) : (s.dropReq n).weft j = s.weft j := rfl
@[simp] theorem team_dropReq (s : State) (n : Nat) (j : Nat) : (s.dropReq n).team j = s.team j := rfl
@[simp] theorem grid_dropReq (s : State) (n : Nat) (j : Nat) : (s.dropReq n).grid j = s.grid j := rfl
@[simp] theorem ctx_dropReq (s : State) (n : Nat) (j : Nat) : (s.dropReq n).ctx j = s.ctx j := rfl
@[simp] theorem tenant_dropReq (s : State) (n : Nat) (j : Nat) : (s.dropReq n).tenant j = s.tenant j := rfl
@[simp] theorem fold_dropReq (s : State) (n : Nat) (j : Nat) : (s.dropReq n).fold j = s.fold j := rfl
@[simp] theorem meadow_dropReq (s : State) (n : Nat) (j : Nat) : (s.dropReq n).meadow j = s.meadow j := rfl
@[simp] theorem stack_dropReq (s : State) (n : Nat) (j : Nat) : (s.dropReq n).stack j = s.stack j := rfl

/-! ### countStep -/

@[simp] theorem countStep_agenda (s : State) : (s.countStep).agenda = s.agenda := rfl
@[simp] theorem countStep_issuing (s : State) : (s.countStep).issuing = s.issuing := rfl
@[simp] theorem countStep_cur (s : State) : (s.countStep).cur = s.cur := rfl
@[simp] theorem countStep_nextId (s : State) : (s.countStep).nextId = s.nextId := rfl
@[simp] theorem countStep_mem (s : State) : (s.countStep).mem = s.mem := rfl
@[simp] theorem countStep_tags (s : State) : (s.countStep).tags = s.tags := rfl
@[simp] theorem countStep_poison (s : State) : (s.countStep).poison = s.poison := rfl
@[simp] theorem countStep_cells (s : State) : (s.countStep).cells = s.cells := rfl
@[simp] theorem countStep_cellBy (s : State) : (s.countStep).cellBy = s.cellBy := rfl
@[simp] theorem countStep_cellUse (s : State) : (s.countStep).cellUse = s.cellUse := rfl
@[simp] theorem countStep_l2 (s : State) : (s.countStep).l2 = s.l2 := rfl
@[simp] theorem countStep_msc (s : State) : (s.countStep).msc = s.msc := rfl
@[simp] theorem countStep_rows (s : State) : (s.countStep).rows = s.rows := rfl
@[simp] theorem countStep_l2pins (s : State) : (s.countStep).l2pins = s.l2pins := rfl
@[simp] theorem countStep_hmask (s : State) : (s.countStep).hmask = s.hmask := rfl
@[simp] theorem countStep_reqs (s : State) : (s.countStep).reqs = s.reqs := rfl
@[simp] theorem countStep_slots (s : State) : (s.countStep).slots = s.slots := rfl
@[simp] theorem countStep_cores (s : State) : (s.countStep).cores = s.cores := rfl
@[simp] theorem countStep_wefts (s : State) : (s.countStep).wefts = s.wefts := rfl
@[simp] theorem countStep_teams (s : State) : (s.countStep).teams = s.teams := rfl
@[simp] theorem countStep_grids (s : State) : (s.countStep).grids = s.grids := rfl
@[simp] theorem countStep_ctxs (s : State) : (s.countStep).ctxs = s.ctxs := rfl
@[simp] theorem countStep_tenants (s : State) : (s.countStep).tenants = s.tenants := rfl
@[simp] theorem countStep_folds (s : State) : (s.countStep).folds = s.folds := rfl
@[simp] theorem countStep_meadows (s : State) : (s.countStep).meadows = s.meadows := rfl
@[simp] theorem countStep_bumps (s : State) : (s.countStep).bumps = s.bumps := rfl
@[simp] theorem countStep_pwrites (s : State) : (s.countStep).pwrites = s.pwrites := rfl
@[simp] theorem countStep_faults (s : State) : (s.countStep).faults = s.faults := rfl
@[simp] theorem countStep_hbm (s : State) : (s.countStep).hbm = s.hbm := rfl
@[simp] theorem countStep_fw (s : State) : (s.countStep).fw = s.fw := rfl
@[simp] theorem countStep_hub (s : State) : (s.countStep).hub = s.hub := rfl
@[simp] theorem core_countStep (s : State) (j : Nat) : (s.countStep).core j = s.core j := rfl
@[simp] theorem weft_countStep (s : State) (j : Nat) : (s.countStep).weft j = s.weft j := rfl
@[simp] theorem team_countStep (s : State) (j : Nat) : (s.countStep).team j = s.team j := rfl
@[simp] theorem grid_countStep (s : State) (j : Nat) : (s.countStep).grid j = s.grid j := rfl
@[simp] theorem ctx_countStep (s : State) (j : Nat) : (s.countStep).ctx j = s.ctx j := rfl
@[simp] theorem tenant_countStep (s : State) (j : Nat) : (s.countStep).tenant j = s.tenant j := rfl
@[simp] theorem fold_countStep (s : State) (j : Nat) : (s.countStep).fold j = s.fold j := rfl
@[simp] theorem meadow_countStep (s : State) (j : Nat) : (s.countStep).meadow j = s.meadow j := rfl
@[simp] theorem stack_countStep (s : State) (j : Nat) : (s.countStep).stack j = s.stack j := rfl

/-! ### Registers of a weft and of a lane -/

@[simp] theorem setLane_live (w : Weft) (l : Nat) (x : Lane) : (w.setLane l x).live = w.live := rfl
@[simp] theorem setLane_team (w : Weft) (l : Nat) (x : Lane) : (w.setLane l x).team = w.team := rfl
@[simp] theorem setLane_index (w : Weft) (l : Nat) (x : Lane) : (w.setLane l x).index = w.index := rfl
@[simp] theorem setLane_width (w : Weft) (l : Nat) (x : Lane) : (w.setLane l x).width = w.width := rfl
@[simp] theorem setLane_stk (w : Weft) (l : Nat) (x : Lane) : (w.setLane l x).stk = w.stk := rfl
@[simp] theorem setLane_s (w : Weft) (l : Nat) (x : Lane) : (w.setLane l x).s = w.s := rfl
@[simp] theorem setLane_z (w : Weft) (l : Nat) (x : Lane) : (w.setLane l x).z = w.z := rfl
@[simp] theorem setLane_kMem (w : Weft) (l : Nat) (x : Lane) : (w.setLane l x).kMem = w.kMem := rfl
@[simp] theorem setLane_kArr (w : Weft) (l : Nat) (x : Lane) : (w.setLane l x).kArr = w.kArr := rfl
@[simp] theorem setLane_tbase (w : Weft) (l : Nat) (x : Lane) : (w.setLane l x).tbase = w.tbase := rfl
@[simp] theorem setLane_tcause (w : Weft) (l : Nat) (x : Lane) : (w.setLane l x).tcause = w.tcause := rfl
@[simp] theorem setLane_tepc (w : Weft) (l : Nat) (x : Lane) : (w.setLane l x).tepc = w.tepc := rfl
@[simp] theorem setLane_tlanes (w : Weft) (l : Nat) (x : Lane) : (w.setLane l x).tlanes = w.tlanes := rfl
@[simp] theorem setLane_taddr (w : Weft) (l : Nat) (x : Lane) : (w.setLane l x).taddr = w.taddr := rfl
@[simp] theorem setLane_ncause (w : Weft) (l : Nat) (x : Lane) : (w.setLane l x).ncause = w.ncause := rfl
@[simp] theorem setLane_frozen (w : Weft) (l : Nat) (x : Lane) : (w.setLane l x).frozen = w.frozen := rfl
@[simp] theorem setLane_prevPriv (w : Weft) (l : Nat) (x : Lane) : (w.setLane l x).prevPriv = w.prevPriv := rfl
@[simp] theorem setLane_haltPend (w : Weft) (l : Nat) (x : Lane) : (w.setLane l x).haltPend = w.haltPend := rfl
@[simp] theorem setLane_hmode (w : Weft) (l : Nat) (x : Lane) : (w.setLane l x).hmode = w.hmode := rfl
@[simp] theorem setLane_phstep (w : Weft) (l : Nat) (x : Lane) : (w.setLane l x).phstep = w.phstep := rfl
@[simp] theorem setLane_phgo (w : Weft) (l : Nat) (x : Lane) : (w.setLane l x).phgo = w.phgo := rfl
@[simp] theorem setLane_rfp (w : Weft) (l : Nat) (x : Lane) : (w.setLane l x).rfp = w.rfp := rfl
@[simp] theorem setLane_bpt (w : Weft) (l : Nat) (x : Lane) : (w.setLane l x).bpt = w.bpt := rfl
@[simp] theorem setLane_foldSel (w : Weft) (l : Nat) (x : Lane) : (w.setLane l x).foldSel = w.foldSel := rfl
@[simp] theorem setLane_sq (w : Weft) (l : Nat) (x : Lane) : (w.setLane l x).sq = w.sq := rfl
@[simp] theorem setLane_hold (w : Weft) (l : Nat) (x : Lane) : (w.setLane l x).hold = w.hold := rfl
@[simp] theorem setLane_reports (w : Weft) (l : Nat) (x : Lane) : (w.setLane l x).reports = w.reports := rfl
@[simp] theorem setLane_sMarks (w : Weft) (l : Nat) (x : Lane) : (w.setLane l x).sMarks = w.sMarks := rfl
@[simp] theorem setLane_chosen (w : Weft) (l : Nat) (x : Lane) : (w.setLane l x).chosen = w.chosen := rfl
@[simp] theorem setS_live (w : Weft) (n : Nat) (y : Word) : (w.setS n y).live = w.live := rfl
@[simp] theorem setS_team (w : Weft) (n : Nat) (y : Word) : (w.setS n y).team = w.team := rfl
@[simp] theorem setS_index (w : Weft) (n : Nat) (y : Word) : (w.setS n y).index = w.index := rfl
@[simp] theorem setS_width (w : Weft) (n : Nat) (y : Word) : (w.setS n y).width = w.width := rfl
@[simp] theorem setS_stk (w : Weft) (n : Nat) (y : Word) : (w.setS n y).stk = w.stk := rfl
@[simp] theorem setS_z (w : Weft) (n : Nat) (y : Word) : (w.setS n y).z = w.z := rfl
@[simp] theorem setS_kMem (w : Weft) (n : Nat) (y : Word) : (w.setS n y).kMem = w.kMem := rfl
@[simp] theorem setS_kArr (w : Weft) (n : Nat) (y : Word) : (w.setS n y).kArr = w.kArr := rfl
@[simp] theorem setS_tbase (w : Weft) (n : Nat) (y : Word) : (w.setS n y).tbase = w.tbase := rfl
@[simp] theorem setS_tcause (w : Weft) (n : Nat) (y : Word) : (w.setS n y).tcause = w.tcause := rfl
@[simp] theorem setS_tepc (w : Weft) (n : Nat) (y : Word) : (w.setS n y).tepc = w.tepc := rfl
@[simp] theorem setS_tlanes (w : Weft) (n : Nat) (y : Word) : (w.setS n y).tlanes = w.tlanes := rfl
@[simp] theorem setS_taddr (w : Weft) (n : Nat) (y : Word) : (w.setS n y).taddr = w.taddr := rfl
@[simp] theorem setS_ncause (w : Weft) (n : Nat) (y : Word) : (w.setS n y).ncause = w.ncause := rfl
@[simp] theorem setS_frozen (w : Weft) (n : Nat) (y : Word) : (w.setS n y).frozen = w.frozen := rfl
@[simp] theorem setS_prevPriv (w : Weft) (n : Nat) (y : Word) : (w.setS n y).prevPriv = w.prevPriv := rfl
@[simp] theorem setS_haltPend (w : Weft) (n : Nat) (y : Word) : (w.setS n y).haltPend = w.haltPend := rfl
@[simp] theorem setS_hmode (w : Weft) (n : Nat) (y : Word) : (w.setS n y).hmode = w.hmode := rfl
@[simp] theorem setS_phstep (w : Weft) (n : Nat) (y : Word) : (w.setS n y).phstep = w.phstep := rfl
@[simp] theorem setS_phgo (w : Weft) (n : Nat) (y : Word) : (w.setS n y).phgo = w.phgo := rfl
@[simp] theorem setS_rfp (w : Weft) (n : Nat) (y : Word) : (w.setS n y).rfp = w.rfp := rfl
@[simp] theorem setS_bpt (w : Weft) (n : Nat) (y : Word) : (w.setS n y).bpt = w.bpt := rfl
@[simp] theorem setS_foldSel (w : Weft) (n : Nat) (y : Word) : (w.setS n y).foldSel = w.foldSel := rfl
@[simp] theorem setS_lanes (w : Weft) (n : Nat) (y : Word) : (w.setS n y).lanes = w.lanes := rfl
@[simp] theorem setS_sq (w : Weft) (n : Nat) (y : Word) : (w.setS n y).sq = w.sq := rfl
@[simp] theorem setS_hold (w : Weft) (n : Nat) (y : Word) : (w.setS n y).hold = w.hold := rfl
@[simp] theorem setS_reports (w : Weft) (n : Nat) (y : Word) : (w.setS n y).reports = w.reports := rfl
@[simp] theorem setS_sMarks (w : Weft) (n : Nat) (y : Word) : (w.setS n y).sMarks = w.sMarks := rfl
@[simp] theorem setS_chosen (w : Weft) (n : Nat) (y : Word) : (w.setS n y).chosen = w.chosen := rfl
@[simp] theorem setZ_live (w : Weft) (n : Nat) (b : Bool) : (w.setZ n b).live = w.live := rfl
@[simp] theorem setZ_team (w : Weft) (n : Nat) (b : Bool) : (w.setZ n b).team = w.team := rfl
@[simp] theorem setZ_index (w : Weft) (n : Nat) (b : Bool) : (w.setZ n b).index = w.index := rfl
@[simp] theorem setZ_width (w : Weft) (n : Nat) (b : Bool) : (w.setZ n b).width = w.width := rfl
@[simp] theorem setZ_stk (w : Weft) (n : Nat) (b : Bool) : (w.setZ n b).stk = w.stk := rfl
@[simp] theorem setZ_s (w : Weft) (n : Nat) (b : Bool) : (w.setZ n b).s = w.s := rfl
@[simp] theorem setZ_kMem (w : Weft) (n : Nat) (b : Bool) : (w.setZ n b).kMem = w.kMem := rfl
@[simp] theorem setZ_kArr (w : Weft) (n : Nat) (b : Bool) : (w.setZ n b).kArr = w.kArr := rfl
@[simp] theorem setZ_tbase (w : Weft) (n : Nat) (b : Bool) : (w.setZ n b).tbase = w.tbase := rfl
@[simp] theorem setZ_tcause (w : Weft) (n : Nat) (b : Bool) : (w.setZ n b).tcause = w.tcause := rfl
@[simp] theorem setZ_tepc (w : Weft) (n : Nat) (b : Bool) : (w.setZ n b).tepc = w.tepc := rfl
@[simp] theorem setZ_tlanes (w : Weft) (n : Nat) (b : Bool) : (w.setZ n b).tlanes = w.tlanes := rfl
@[simp] theorem setZ_taddr (w : Weft) (n : Nat) (b : Bool) : (w.setZ n b).taddr = w.taddr := rfl
@[simp] theorem setZ_ncause (w : Weft) (n : Nat) (b : Bool) : (w.setZ n b).ncause = w.ncause := rfl
@[simp] theorem setZ_frozen (w : Weft) (n : Nat) (b : Bool) : (w.setZ n b).frozen = w.frozen := rfl
@[simp] theorem setZ_prevPriv (w : Weft) (n : Nat) (b : Bool) : (w.setZ n b).prevPriv = w.prevPriv := rfl
@[simp] theorem setZ_haltPend (w : Weft) (n : Nat) (b : Bool) : (w.setZ n b).haltPend = w.haltPend := rfl
@[simp] theorem setZ_hmode (w : Weft) (n : Nat) (b : Bool) : (w.setZ n b).hmode = w.hmode := rfl
@[simp] theorem setZ_phstep (w : Weft) (n : Nat) (b : Bool) : (w.setZ n b).phstep = w.phstep := rfl
@[simp] theorem setZ_phgo (w : Weft) (n : Nat) (b : Bool) : (w.setZ n b).phgo = w.phgo := rfl
@[simp] theorem setZ_rfp (w : Weft) (n : Nat) (b : Bool) : (w.setZ n b).rfp = w.rfp := rfl
@[simp] theorem setZ_bpt (w : Weft) (n : Nat) (b : Bool) : (w.setZ n b).bpt = w.bpt := rfl
@[simp] theorem setZ_foldSel (w : Weft) (n : Nat) (b : Bool) : (w.setZ n b).foldSel = w.foldSel := rfl
@[simp] theorem setZ_lanes (w : Weft) (n : Nat) (b : Bool) : (w.setZ n b).lanes = w.lanes := rfl
@[simp] theorem setZ_sq (w : Weft) (n : Nat) (b : Bool) : (w.setZ n b).sq = w.sq := rfl
@[simp] theorem setZ_hold (w : Weft) (n : Nat) (b : Bool) : (w.setZ n b).hold = w.hold := rfl
@[simp] theorem setZ_reports (w : Weft) (n : Nat) (b : Bool) : (w.setZ n b).reports = w.reports := rfl
@[simp] theorem setZ_sMarks (w : Weft) (n : Nat) (b : Bool) : (w.setZ n b).sMarks = w.sMarks := rfl
@[simp] theorem setZ_chosen (w : Weft) (n : Nat) (b : Bool) : (w.setZ n b).chosen = w.chosen := rfl
@[simp] theorem setV_started (x : Lane) (c : Nat) (n : Nat) (y : W32) : (x.setV c n y).started = x.started := rfl
@[simp] theorem setV_exited (x : Lane) (c : Nat) (n : Nat) (y : W32) : (x.setV c n y).exited = x.exited := rfl
@[simp] theorem setV_susp (x : Lane) (c : Nat) (n : Nat) (y : W32) : (x.setV c n y).susp = x.susp := rfl
@[simp] theorem setV_wait (x : Lane) (c : Nat) (n : Nat) (y : W32) : (x.setV c n y).wait = x.wait := rfl
@[simp] theorem setV_pc (x : Lane) (c : Nat) (n : Nat) (y : W32) : (x.setV c n y).pc = x.pc := rfl
@[simp] theorem setV_meet (x : Lane) (c : Nat) (n : Nat) (y : W32) : (x.setV c n y).meet = x.meet := rfl
@[simp] theorem setV_wb (x : Lane) (c : Nat) (n : Nat) (y : W32) : (x.setV c n y).wb = x.wb := rfl
@[simp] theorem setV_lo (x : Lane) (c : Nat) (n : Nat) (y : W32) : (x.setV c n y).lo = x.lo := rfl
@[simp] theorem setV_t (x : Lane) (c : Nat) (n : Nat) (y : W32) : (x.setV c n y).t = x.t := rfl
@[simp] theorem setV_treq (x : Lane) (c : Nat) (n : Nat) (y : W32) : (x.setV c n y).treq = x.treq := rfl
@[simp] theorem setV_broken (x : Lane) (c : Nat) (n : Nat) (y : W32) : (x.setV c n y).broken = x.broken := rfl
@[simp] theorem setV_refused (x : Lane) (c : Nat) (n : Nat) (y : W32) : (x.setV c n y).refused = x.refused := rfl
@[simp] theorem setV_dstMarks (x : Lane) (c : Nat) (n : Nat) (y : W32) : (x.setV c n y).dstMarks = x.dstMarks := rfl
@[simp] theorem setV_fileMarks (x : Lane) (c : Nat) (n : Nat) (y : W32) : (x.setV c n y).fileMarks = x.fileMarks := rfl
@[simp] theorem setV_preds (x : Lane) (c : Nat) (n : Nat) (y : W32) : (x.setV c n y).preds = x.preds := rfl
@[simp] theorem setV_lat (x : Lane) (c : Nat) (n : Nat) (y : W32) : (x.setV c n y).lat = x.lat := rfl
@[simp] theorem setV_age (x : Lane) (c : Nat) (n : Nat) (y : W32) : (x.setV c n y).age = x.age := rfl
@[simp] theorem setPair_started (x : Lane) (c : Nat) (n : Nat) (y : Word) : (x.setPair c n y).started = x.started := rfl
@[simp] theorem setPair_exited (x : Lane) (c : Nat) (n : Nat) (y : Word) : (x.setPair c n y).exited = x.exited := rfl
@[simp] theorem setPair_susp (x : Lane) (c : Nat) (n : Nat) (y : Word) : (x.setPair c n y).susp = x.susp := rfl
@[simp] theorem setPair_wait (x : Lane) (c : Nat) (n : Nat) (y : Word) : (x.setPair c n y).wait = x.wait := rfl
@[simp] theorem setPair_pc (x : Lane) (c : Nat) (n : Nat) (y : Word) : (x.setPair c n y).pc = x.pc := rfl
@[simp] theorem setPair_meet (x : Lane) (c : Nat) (n : Nat) (y : Word) : (x.setPair c n y).meet = x.meet := rfl
@[simp] theorem setPair_wb (x : Lane) (c : Nat) (n : Nat) (y : Word) : (x.setPair c n y).wb = x.wb := rfl
@[simp] theorem setPair_lo (x : Lane) (c : Nat) (n : Nat) (y : Word) : (x.setPair c n y).lo = x.lo := rfl
@[simp] theorem setPair_t (x : Lane) (c : Nat) (n : Nat) (y : Word) : (x.setPair c n y).t = x.t := rfl
@[simp] theorem setPair_treq (x : Lane) (c : Nat) (n : Nat) (y : Word) : (x.setPair c n y).treq = x.treq := rfl
@[simp] theorem setPair_broken (x : Lane) (c : Nat) (n : Nat) (y : Word) : (x.setPair c n y).broken = x.broken := rfl
@[simp] theorem setPair_refused (x : Lane) (c : Nat) (n : Nat) (y : Word) : (x.setPair c n y).refused = x.refused := rfl
@[simp] theorem setPair_dstMarks (x : Lane) (c : Nat) (n : Nat) (y : Word) : (x.setPair c n y).dstMarks = x.dstMarks := rfl
@[simp] theorem setPair_fileMarks (x : Lane) (c : Nat) (n : Nat) (y : Word) : (x.setPair c n y).fileMarks = x.fileMarks := rfl
@[simp] theorem setPair_preds (x : Lane) (c : Nat) (n : Nat) (y : Word) : (x.setPair c n y).preds = x.preds := rfl
@[simp] theorem setPair_lat (x : Lane) (c : Nat) (n : Nat) (y : Word) : (x.setPair c n y).lat = x.lat := rfl
@[simp] theorem setPair_age (x : Lane) (c : Nat) (n : Nat) (y : Word) : (x.setPair c n y).age = x.age := rfl
@[simp] theorem setT_started (x : Lane) (n : Nat) (y : W32) : (x.setT n y).started = x.started := rfl
@[simp] theorem setT_exited (x : Lane) (n : Nat) (y : W32) : (x.setT n y).exited = x.exited := rfl
@[simp] theorem setT_susp (x : Lane) (n : Nat) (y : W32) : (x.setT n y).susp = x.susp := rfl
@[simp] theorem setT_wait (x : Lane) (n : Nat) (y : W32) : (x.setT n y).wait = x.wait := rfl
@[simp] theorem setT_pc (x : Lane) (n : Nat) (y : W32) : (x.setT n y).pc = x.pc := rfl
@[simp] theorem setT_meet (x : Lane) (n : Nat) (y : W32) : (x.setT n y).meet = x.meet := rfl
@[simp] theorem setT_wb (x : Lane) (n : Nat) (y : W32) : (x.setT n y).wb = x.wb := rfl
@[simp] theorem setT_lo (x : Lane) (n : Nat) (y : W32) : (x.setT n y).lo = x.lo := rfl
@[simp] theorem setT_regs (x : Lane) (n : Nat) (y : W32) : (x.setT n y).regs = x.regs := rfl
@[simp] theorem setT_treq (x : Lane) (n : Nat) (y : W32) : (x.setT n y).treq = x.treq := rfl
@[simp] theorem setT_broken (x : Lane) (n : Nat) (y : W32) : (x.setT n y).broken = x.broken := rfl
@[simp] theorem setT_refused (x : Lane) (n : Nat) (y : W32) : (x.setT n y).refused = x.refused := rfl
@[simp] theorem setT_dstMarks (x : Lane) (n : Nat) (y : W32) : (x.setT n y).dstMarks = x.dstMarks := rfl
@[simp] theorem setT_fileMarks (x : Lane) (n : Nat) (y : W32) : (x.setT n y).fileMarks = x.fileMarks := rfl
@[simp] theorem setT_preds (x : Lane) (n : Nat) (y : W32) : (x.setT n y).preds = x.preds := rfl
@[simp] theorem setT_lat (x : Lane) (n : Nat) (y : W32) : (x.setT n y).lat = x.lat := rfl
@[simp] theorem setT_age (x : Lane) (n : Nat) (y : W32) : (x.setT n y).age = x.age := rfl
@[simp] theorem setP_started (x : Lane) (n : Nat) (b : Bool) : (x.setP n b).started = x.started := rfl
@[simp] theorem setP_exited (x : Lane) (n : Nat) (b : Bool) : (x.setP n b).exited = x.exited := rfl
@[simp] theorem setP_susp (x : Lane) (n : Nat) (b : Bool) : (x.setP n b).susp = x.susp := rfl
@[simp] theorem setP_wait (x : Lane) (n : Nat) (b : Bool) : (x.setP n b).wait = x.wait := rfl
@[simp] theorem setP_pc (x : Lane) (n : Nat) (b : Bool) : (x.setP n b).pc = x.pc := rfl
@[simp] theorem setP_meet (x : Lane) (n : Nat) (b : Bool) : (x.setP n b).meet = x.meet := rfl
@[simp] theorem setP_wb (x : Lane) (n : Nat) (b : Bool) : (x.setP n b).wb = x.wb := rfl
@[simp] theorem setP_lo (x : Lane) (n : Nat) (b : Bool) : (x.setP n b).lo = x.lo := rfl
@[simp] theorem setP_regs (x : Lane) (n : Nat) (b : Bool) : (x.setP n b).regs = x.regs := rfl
@[simp] theorem setP_t (x : Lane) (n : Nat) (b : Bool) : (x.setP n b).t = x.t := rfl
@[simp] theorem setP_treq (x : Lane) (n : Nat) (b : Bool) : (x.setP n b).treq = x.treq := rfl
@[simp] theorem setP_broken (x : Lane) (n : Nat) (b : Bool) : (x.setP n b).broken = x.broken := rfl
@[simp] theorem setP_refused (x : Lane) (n : Nat) (b : Bool) : (x.setP n b).refused = x.refused := rfl
@[simp] theorem setP_dstMarks (x : Lane) (n : Nat) (b : Bool) : (x.setP n b).dstMarks = x.dstMarks := rfl
@[simp] theorem setP_fileMarks (x : Lane) (n : Nat) (b : Bool) : (x.setP n b).fileMarks = x.fileMarks := rfl
@[simp] theorem setP_lat (x : Lane) (n : Nat) (b : Bool) : (x.setP n b).lat = x.lat := rfl
@[simp] theorem setP_age (x : Lane) (n : Nat) (b : Bool) : (x.setP n b).age = x.age := rfl

@[simp] theorem sreg_setS_same (w : Weft) (n : Nat) (y : Word) : (w.setS n y).sreg n = y := by
  simp [Weft.sreg, Weft.setS]
theorem sreg_setS_other {w : Weft} {n m : Nat} (y : Word) (h : m ≠ n) : (w.setS n y).sreg m = w.sreg m := by
  simp [Weft.sreg, Weft.setS, lookD_put_other h]
@[simp] theorem lane_setLane_same (w : Weft) (l : Nat) (x : Lane) : (w.setLane l x).lane l = x := by
  simp [Weft.lane, Weft.setLane]
theorem lane_setLane_other {w : Weft} {l m : Nat} (x : Lane) (h : m ≠ l) : (w.setLane l x).lane m = w.lane m := by
  simp [Weft.lane, Weft.setLane, lookD_put_other h]
@[simp] theorem treg_setT_same (x : Lane) (n : Nat) (y : W32) : (x.setT n y).treg n = y := by
  simp [Lane.treg, Lane.setT]
theorem treg_setT_other {x : Lane} {n m : Nat} (y : W32) (h : m ≠ n) : (x.setT n y).treg m = x.treg m := by
  simp [Lane.treg, Lane.setT, lookD_put_other h]
@[simp] theorem v_setV_same (x : Lane) (c n : Nat) (y : W32) : (x.setV c n y).v c n = y := by
  simp [Lane.v, Lane.setV, Lane.phys]

end Sys2Proof.Machine
end

