-- ==== Sys2Proof/Laws/Lanes.lean ====
section
/-!
SUPPORT. Lanes: masks as lists, and what a pass over the lanes of a weft leaves in each of them.
-/
namespace Sys2Proof.Machine

theorem mem_lanesOf {m : LaneMask} {l : Nat} : l ∈ lanesOf m ↔ m.getLsbD l = true := by
  constructor
  · intro h; exact (List.mem_filter.1 h).2
  · intro h
    refine List.mem_filter.2 ⟨List.mem_range.2 ?_, h⟩
    rcases Nat.lt_or_ge l 128 with hl | hl
    · exact hl
    · rw [BitVec.getLsbD_of_ge _ _ hl] at h
      cases h

/-- The lanes of the mask of a list are those of the list that a mask can hold. -/
theorem mem_lanesOf_maskOf {ls : List Nat} {l : Nat} : l ∈ lanesOf (maskOf ls) ↔ l < 128 ∧ l ∈ ls := by
  have h : ∀ (xs : List Nat) (a : Nat), (xs.foldl (fun a l => a ||| 2 ^ l) a).testBit l = (a.testBit l || decide (l ∈ xs)) := by
    intro xs
    induction xs with
    | nil => intro a; simp
    | cons x xs ih =>
      intro a
      rw [List.foldl_cons, ih, Nat.testBit_or, Nat.testBit_two_pow]
      by_cases e : x = l
      · simp [e]
      · have e' : ¬l = x := fun h => e h.symm
        simp [e, e']
  rw [mem_lanesOf]
  unfold maskOf
  rw [BitVec.getLsbD_ofNat, h]
  simp

theorem lanesOf_nodup (m : LaneMask) : (lanesOf m).Nodup := List.nodup_range.filter _

theorem lanes_nodup (s : State) : s.lanes.Nodup := lanesOf_nodup _

theorem active_nodup (s : State) (c : Ctl) : (s.active c).Nodup := (lanes_nodup s).filter _

theorem mem_active {s : State} {c : Ctl} {l : Nat} :
    l ∈ s.active c ↔ l ∈ s.lanes ∧ ctlHolds c (s.cw.lane l) = true := List.mem_filter

/-- A fold that writes each key of a list of distinct keys from its own entry. -/
theorem lookD_foldl_put {α : Type} (d : α) (f : Nat → α → α) (ls : List Nat) (h : ls.Nodup) (t : Tab α) (l : Nat) :
    lookD l d (ls.foldl (fun t l => put l (f l (lookD l d t)) t) t) =
      if l ∈ ls then f l (lookD l d t) else lookD l d t := by
  induction ls generalizing t with
  | nil => simp
  | cons m ls ih =>
    simp only [List.foldl_cons]
    rw [ih (List.nodup_cons.1 h).2]
    have hm := (List.nodup_cons.1 h).1
    by_cases e : l = m
    · subst e; simp [hm]
    · simp [e, lookD_put_other e]

/-- A pass over distinct lanes: each lane of the list takes its f, the others stay. -/
theorem lane_eachLane {w : Weft} {ls : List Nat} (h : ls.Nodup) (f : Nat → Lane → Lane) (l : Nat) :
    (w.eachLane ls f).lane l = if l ∈ ls then f l (w.lane l) else w.lane l :=
  lookD_foldl_put _ f ls h w.lanes l

/-- A pass over lanes leaves the rest of the weft. -/
theorem eachLane_eq (w : Weft) (ls : List Nat) (f : Nat → Lane → Lane) :
    w.eachLane ls f = { w with lanes := (w.eachLane ls f).lanes } := rfl

@[simp] theorem key_mapWeft (s : State) (k : Nat) (f : Weft → Weft) : (s.mapWeft k f).key = s.key := rfl
@[simp] theorem lanes_mapWeft (s : State) (k : Nat) (f : Weft → Weft) : (s.mapWeft k f).lanes = s.lanes := rfl
@[simp] theorem nextVa_mapWeft (s : State) (k : Nat) (f : Weft → Weft) : (s.mapWeft k f).nextVa = s.nextVa := rfl
@[simp] theorem key_advance (s : State) : s.advance.key = s.key := rfl
@[simp] theorem lanes_advance (s : State) : s.advance.lanes = s.lanes := rfl

/-- The weft that issues, after a change of it. -/
@[simp] theorem cw_mapKey (s : State) (f : Weft → Weft) : (s.mapWeft s.key f).cw = f s.cw := by
  simp [State.cw]

/-- The weft that issues, after the step past the word. -/
theorem cw_advance (s : State) :
    s.advance.cw = s.cw.eachLane s.lanes fun _ x => { x with pc := s.nextVa } := by
  exact cw_mapKey s _

/-- A pass over lanes that may repeat, by a function that acts once. -/
theorem eachLane_idem (w : Weft) (ls : List Nat) (f : Nat → Lane → Lane) (h : ∀ l x, f l (f l x) = f l x) (l : Nat) :
    (w.eachLane ls f).lane l = if l ∈ ls then f l (w.lane l) else w.lane l := by
  have : ∀ (ls : List Nat) (t : Tab Lane), lookD l {} (ls.foldl (fun t l => put l (f l (lookD l {} t)) t) t) =
      if l ∈ ls then f l (lookD l {} t) else lookD l {} t := by
    intro ls
    induction ls with
    | nil => intro t; simp
    | cons m ls ih =>
      intro t
      simp only [List.foldl_cons]
      rw [ih]
      by_cases e : l = m
      · subst e; simp [h]
      · simp [e, lookD_put_other e]
  exact this ls w.lanes

/-- The listed keys of a table. -/
theorem look_mem {α} (l : Nat) (t : Tab α) : (look l t).isSome = true ↔ l ∈ t.map (·.1) := by
  induction t with
  | nil => simp [look]
  | cons e t ih =>
    obtain ⟨j, v⟩ := e
    simp only [look, List.map_cons, List.mem_cons]
    by_cases h : l = j
    · simp [h]
    · simp only [h, if_false, false_or]; exact ih

end Sys2Proof.Machine
end

