-- ==== Sys2Proof/Laws/Results.lean ====
section
/-!
SUPPORT. Where results go: what each shared operation of the lane and uniform instructions does, whole.
-/
namespace Sys2Proof.Machine

/-! ### Registers -/

theorem lookD_setV {x : Lane} {c n : Nat} {y : W32} (i : Nat) (h : i ≠ x.phys c n) :
    lookD i 0 (x.setV c n y).regs = lookD i 0 x.regs := lookD_put_other h _ _ _

theorem join_halves (y : BitVec (32 + 32)) : y.extractLsb' 32 32 ++ y.setWidth 32 = y := by
  apply BitVec.eq_of_getLsbD_eq; intro i hi
  rw [BitVec.getLsbD_append]
  rcases Nat.lt_or_ge i 32 with g | g
  · simp [g]
  · have h3 : ¬ i < 32 := by omega
    have h4 : i - 32 < 32 := by omega
    have h5 : 32 + (i - 32) = i := by omega
    simp [h3, h4, h5]

/-- A pair reads as written, where its two registers are different ones. -/
theorem vPair_setPair (x : Lane) (c n : Nat) (y : Word) (h : x.phys c (n + 1) ≠ x.phys c n) :
    (x.setPair c n y).vPair c n = y := by
  have h1 : (x.setPair c n y).v c (n + 1) = y.extractLsb' 32 32 := by
    simp [Lane.setPair, Lane.v, Lane.setV, Lane.phys]
  have h2 : (x.setPair c n y).v c n = y.setWidth 32 := by
    simp only [Lane.phys] at h
    simp [Lane.setPair, Lane.v, Lane.setV, Lane.phys, lookD_put_other (Ne.symm h)]
  simp only [Lane.vPair, h1, h2]
  exact join_halves y

/-- The two registers of a pair differ in a stack of two or more. -/
theorem phys_pair (x : Lane) (c n : Nat) (h : 2 ≤ c) : x.phys c (n + 1) ≠ x.phys c n := by
  unfold Lane.phys
  intro e
  have h1 : x.wb + (n + 1) = (x.wb + n) + 1 := by omega
  rw [h1] at e
  have h2 := Nat.add_mod (x.wb + n) 1 c
  rw [h2, Nat.mod_eq_of_lt (show 1 < c by omega)] at e
  have h3 : (x.wb + n) % c < c := Nat.mod_lt _ (by omega)
  rcases Nat.lt_or_ge ((x.wb + n) % c + 1) c with g | g
  · rw [Nat.mod_eq_of_lt g] at e; omega
  · have : (x.wb + n) % c + 1 = c := by omega
    rw [this, Nat.mod_self] at e; omega

/-- writeV: the destination holds the value, other registers stay. -/
theorem writeV_holds (c n ty y : Nat) (x : Lane) (h : 2 ≤ c) : Holds c n ty y (writeV c n ty y x) := by
  unfold Holds writeV
  split
  · exact vPair_setPair x c n _ (phys_pair x c n h)
  · simp [Lane.clearMark, Lane.v, Lane.setV, Lane.phys]

theorem writeV_other (c n ty y : Nat) (x : Lane) (i : Nat) (h : i ∉ resultRegs c n ty x) :
    lookD i 0 (writeV c n ty y x).regs = lookD i 0 x.regs := by
  unfold resultRegs at h
  unfold writeV
  split at h
  · simp only [List.mem_cons, List.not_mem_nil, or_false, not_or] at h
    rw [if_pos (by assumption)]
    simp only [Lane.clearMark, Lane.setPair, Lane.setV, Lane.phys] at h ⊢
    rw [lookD_put_other h.2, lookD_put_other h.1]
  · simp only [List.mem_cons, List.not_mem_nil, or_false] at h
    rw [if_neg (by assumption)]
    simp only [Lane.clearMark, Lane.setV, Lane.phys] at h ⊢
    rw [lookD_put_other h]

theorem writeV_rest (c n ty y : Nat) (x : Lane) : ∃ r d, writeV c n ty y x = { x with regs := r, dstMarks := d } := by
  unfold writeV
  split <;> exact ⟨_, _, rfl⟩

/-! ### Frames -/

theorem sameBytes_of {s t : State} (h : t = { s with wefts := t.wefts }) : SameBytes s t := by
  rw [h]; exact ⟨fun _ => rfl, fun _ _ => rfl⟩

theorem onlyWeft_map (s : State) (f : Weft → Weft) : OnlyWeft s (s.mapWeft s.key f) :=
  ⟨rfl, fun _ h => weft_mapWeft_other f h, sameBytes_of rfl⟩

/-- A second change of the issuing weft. -/
theorem OnlyWeft.map {s t : State} (h : OnlyWeft s t) (f : Weft → Weft) : OnlyWeft s (t.mapWeft s.key f) := by
  obtain ⟨h1, h2, h3⟩ := h
  have e : t.mapWeft s.key f = { s with wefts := (t.mapWeft s.key f).wefts } := by
    conv => lhs; rw [h1]
    rw [h1]; rfl
  exact ⟨e, fun k hk => (weft_mapWeft_other f hk).trans (h2 k hk), sameBytes_of e⟩

/-- Two passes over lanes of the decision, the second past the word. -/
theorem passes_lane {s : State} {ls : List Nat} (hn : ls.Nodup) (f : Weft → Nat → Lane → Lane) (l : Nat) :
    (s.mapWeft s.key fun w => w.eachLane ls (f w)).advance.cw.lane l =
      if l ∈ s.lanes then
        { (if l ∈ ls then f s.cw l (s.cw.lane l) else s.cw.lane l) with pc := s.nextVa }
      else if l ∈ ls then f s.cw l (s.cw.lane l) else s.cw.lane l := by
  have e := cw_advance (s.mapWeft s.key fun w => w.eachLane ls (f w))
  rw [e, lane_eachLane (lanes_nodup _), cw_mapKey, lane_eachLane hn, lanes_mapWeft, nextVa_mapWeft]

theorem onlyLanes_map {s : State} {ls : List Nat} (hn : ls.Nodup) (hs : ∀ l ∈ ls, l ∈ s.lanes)
    (f : Weft → Nat → Lane → Lane) : OnlyLanes s (s.mapWeft s.key fun w => w.eachLane ls (f w)).advance := by
  refine ⟨(onlyWeft_map s _).map _, ?_, ?_⟩
  · rw [cw_advance, cw_mapKey]; rfl
  · intro l hl
    rw [passes_lane hn, if_neg hl, if_neg fun h => hl (hs l h)]

/-- laneResult, whole. -/
theorem laneResult_spec (s : State) (c : Ctl) (n : Fin 32) (ty : Nat) (f : Nat → Nat) (h : 2 ≤ s.cw.stk) :
    LaneResult s (s.laneResult c (.v n) ty f) c n ty f := by
  have hn := active_nodup s c
  refine ⟨onlyLanes_map hn (fun l hl => (mem_active.1 hl).1) fun w l x => putV c w.stk n ty (f l) x, ?_⟩
  intro l hl
  have e : (s.laneResult c (.v n) ty f).cw.lane l = _ :=
    passes_lane hn (fun w l x => putV c w.stk n ty (f l) x) l
  rw [if_pos hl] at e
  rw [e]
  by_cases g : ctlHolds c (s.cw.lane l) = true
  · rw [if_pos g, if_pos (mem_active.2 ⟨hl, g⟩)]
    unfold putV pushLatch
    by_cases hc : c.n = true
    · simp only [hc, if_true]
      exact ⟨rfl, rfl, fun _ => ⟨rfl, rfl⟩, fun h => by simp [hc] at h⟩
    · rw [if_neg hc]
      have h1 := writeV_holds s.cw.stk n ty (f l) (s.cw.lane l) h
      have h2 := writeV_other s.cw.stk n ty (f l) (s.cw.lane l)
      obtain ⟨r, d, hw⟩ := writeV_rest s.cw.stk n ty (f l) (s.cw.lane l)
      rw [hw] at h1 h2 ⊢
      refine ⟨rfl, rfl, fun h => absurd h hc, fun _ => ⟨?_, h2⟩⟩
      · simpa [Holds, Lane.vPair, Lane.v, Lane.phys] using h1
  · rw [if_neg g, if_neg fun h => g (mem_active.1 h).2]
    rfl

/-! ### Lanes that go on, and what they take on top -/

/-- A pass over lanes of the decision after the step past the word. -/
theorem passThen_lane {s : State} {ls : List Nat} (hn : ls.Nodup) (hs : ∀ l ∈ ls, l ∈ s.lanes)
    (f : Weft → Nat → Lane → Lane) (l : Nat) :
    (s.passThen ls f).cw.lane l =
      if l ∈ ls then f s.advance.cw l { s.cw.lane l with pc := s.nextVa }
      else if l ∈ s.lanes then { s.cw.lane l with pc := s.nextVa } else s.cw.lane l := by
  have e : (s.passThen ls f).cw = s.advance.cw.eachLane ls (f s.advance.cw) := cw_mapKey s.advance _
  rw [e, lane_eachLane hn, cw_advance, lane_eachLane (lanes_nodup s)]
  by_cases h : l ∈ ls
  · rw [if_pos h, if_pos h, if_pos (hs l h)]
  · rw [if_neg h, if_neg h]

theorem onlyWeft_passThen (s : State) (ls : List Nat) (f : Weft → Nat → Lane → Lane) :
    OnlyWeft s (s.passThen ls f) := (onlyWeft_map s _).map _

theorem onlyLanes_passThen {s : State} {ls : List Nat} (hn : ls.Nodup) (hs : ∀ l ∈ ls, l ∈ s.lanes)
    (f : Weft → Nat → Lane → Lane) : OnlyLanes s (s.passThen ls f) := by
  refine ⟨onlyWeft_passThen s ls f, ?_, ?_⟩
  · have e : (s.passThen ls f).cw = s.advance.cw.eachLane ls (f s.advance.cw) := cw_mapKey s.advance _
    rw [e, cw_advance]; rfl
  · intro l hl
    rw [passThen_lane hn hs, if_neg fun h => hl (hs l h), if_neg hl]

theorem active_sub (s : State) (c : Ctl) : ∀ l ∈ s.active c, l ∈ s.lanes := fun _ hl => (mem_active.1 hl).1

/-- The step past the word, whole. -/
theorem advance_spec (s : State) : PassedOn s s.advance := by
  refine ⟨⟨onlyWeft_map s _, ?_, ?_⟩, ?_⟩
  · rw [cw_advance]; rfl
  · intro l hl
    rw [cw_advance, lane_eachLane (lanes_nodup s), if_neg hl]
  · intro l hl
    show s.advance.cw.lane l = _
    rw [cw_advance, lane_eachLane (lanes_nodup s), if_pos hl]

theorem setBit_get {w : Nat} (x : BitVec w) (n i : Nat) (b : Bool) (hi : i < w) :
    (setBit x n b).getLsbD i = if i = n then b else x.getLsbD i := by
  unfold setBit
  by_cases h : i = n
  · subst h; cases b <;> simp [hi]
  · have h1 : ¬ n = i := fun e => h e.symm
    by_cases h2 : i < n
    · cases b <;> simp [hi, h, h2]
    · have h3 : i - n ≠ 0 := by omega
      cases b <;> simp [hi, h, h2, h3]

theorem pred_setP (x : Lane) (n i : Nat) (b : Bool) (hi : i < 8) :
    (x.setP n b).pred i = if i = n then b else x.pred i := setBit_get x.preds n i b hi

theorem zreg_setZ (w : Weft) (n i : Nat) (b : Bool) (hi : i < 4) :
    (w.setZ n b).zreg i = if i = n then b else w.zreg i := setBit_get w.z n i b hi

/-- predResult into p, whole. -/
theorem predResult_p (s : State) (c : Ctl) (n : Fin 8) (f : Nat → Bool) :
    LanePred s (s.predResult c (.p n) f) c n f := by
  have hn := active_nodup s c
  refine ⟨onlyLanes_passThen hn (active_sub s c) fun _ l x => x.setP n (f l), ?_⟩
  intro l hl
  have e : (s.predResult c (.p n) f).cw.lane l = _ :=
    passThen_lane hn (active_sub s c) (fun _ l x => x.setP n (f l)) l
  rw [e]
  by_cases g : ctlHolds c (s.cw.lane l) = true
  · rw [if_pos g, if_pos (mem_active.2 ⟨hl, g⟩)]
    exact ⟨rfl, fun i hi => pred_setP _ n i (f l) hi⟩
  · rw [if_neg g, if_neg (fun h => g (mem_active.1 h).2), if_pos hl]
    rfl

/-- A z register written past the word. -/
theorem writeZ_spec (s : State) (n : Nat) (b : Bool) :
    ZResult s (s.advance.mapWeft s.key fun z => z.writeZ n b) n b := by
  have e : (s.advance.mapWeft s.key fun z => z.writeZ n b).cw = s.advance.cw.writeZ n b := cw_mapKey s.advance _
  refine ⟨(onlyWeft_map s _).map _, ?_, ?_, ?_, ?_⟩
  · rw [e, cw_advance]; rfl
  · intro m hm
    rw [e, cw_advance]
    exact zreg_setZ _ n m b hm
  · intro l hl
    rw [e]
    show (s.advance.cw).lane l = _
    rw [cw_advance, lane_eachLane (lanes_nodup s), if_neg hl]
  · intro l hl
    unfold Passed
    rw [e]
    show (s.advance.cw).lane l = _
    rw [cw_advance, lane_eachLane (lanes_nodup s), if_pos hl]

/-- predResult into z: the value of the lowest executing lane. -/
theorem predResult_z (s : State) (c : Ctl) (n : Fin 4) (f : Nat → Bool) (l : Nat) (ls : List Nat)
    (h : s.active c = l :: ls) : ZResult s (s.predResult c (.z n) f) n (f l) := by
  simp only [State.predResult, h]
  exact writeZ_spec s n (f l)

/-! ### Scalar results -/

theorem advance_lanes (s : State) : ∃ L, s.advance.cw = { s.cw with lanes := L } := by
  rw [cw_advance]; exact ⟨_, rfl⟩

theorem weft_lanes {a b : Weft} {r : Tab Word} {m : Tab Mark} (h : ∃ L, a = { b with lanes := L, s := r, sMarks := m }) :
    a = { b with lanes := a.lanes, s := r, sMarks := m } := by
  obtain ⟨L, rfl⟩ := h
  rfl

/-- A scalar write with a push in some lanes, and the step past the word, in either order. -/
theorem scalar_spec {s t : State} {c : Ctl} {n : Nat} {y : Word} {ls : List Nat} {r : Tab Word} {m : Tab Mark}
    (h1 : OnlyWeft s t) (h2 : t.cw = { s.cw with lanes := t.cw.lanes, s := r, sMarks := m })
    (h3 : r = if c.n then s.cw.s else put n y s.cw.s)
    (h4 : ∀ l, t.cw.lane l = if l ∈ s.lanes then { s.cw.lane l with
      pc := s.nextVa, lat := if l ∈ ls then (y :: (s.cw.lane l).lat).take 4 else (s.cw.lane l).lat } else s.cw.lane l) :
    ScalarResult s t c n y ls := by
  refine ⟨h1, by rw [h2], ?_, fun l hl => by rw [h4, if_neg hl], fun l hl => by rw [h4, if_pos hl]⟩
  intro k
  rw [h2]
  show lookD k 0 r = _
  rw [h3]
  cases hc : c.n with
  | true => simp; rfl
  | false => simp only [Bool.false_eq_true, if_false, and_true]; rw [lookD_put]; rfl

/-- putS past the word, whole. -/
theorem putS_spec (s : State) (c : Ctl) (n : Nat) (y : Word) :
    ScalarResult s (s.putS c n y).advance c n y s.lanes := by
  have e1 : (s.putS c n y).cw = _ := cw_mapKey s _
  have e : (s.putS c n y).advance.cw = (s.putS c n y).cw.eachLane s.lanes fun _ x => { x with pc := s.nextVa } :=
    cw_advance _
  refine scalar_spec (r := if c.n then s.cw.s else put n y s.cw.s)
    (m := if c.n then s.cw.sMarks else del n s.cw.sMarks) ((onlyWeft_map s _).map _) ?_ rfl ?_
  · apply weft_lanes
    rw [e, e1]
    cases c.n <;> exact ⟨_, rfl⟩
  · intro l
    rw [e, lane_eachLane (lanes_nodup s), e1, lane_eachLane (lanes_nodup s)]
    have hw : ∀ m, (if c.n = true then s.cw else { s.cw.setS n y with sMarks := del n s.cw.sMarks }).lane m =
        s.cw.lane m := by intro m; split <;> rfl
    rw [hw]
    by_cases hl : l ∈ s.lanes
    · simp only [if_pos hl, pushLatch]
    · simp only [if_neg hl]

/-- sharedResult into s: pushed into the executing lanes. -/
theorem sharedResult_s (s : State) (c : Ctl) (n : Fin 128) (ty y : Nat) (h : s.active c ≠ []) :
    ScalarResult s (s.sharedResult c (.s n) ty y) c n (resultS ty y) (s.active c) := by
  obtain ⟨l0, ls0, h0⟩ := List.exists_cons_of_ne_nil h
  have ht : s.sharedResult c (.s n) ty y = s.advance.mapWeft s.key fun z =>
      (if c.n then z else z.writeS n (resultS ty y)).eachLane (s.active c) fun _ x => pushLatch x (resultS ty y) := by
    simp only [State.sharedResult, h0]
  have e : (s.sharedResult c (.s n) ty y).cw =
      (if c.n then s.advance.cw else s.advance.cw.writeS n (resultS ty y)).eachLane (s.active c)
        fun _ x => pushLatch x (resultS ty y) := by
    rw [ht]; exact cw_mapKey s.advance _
  refine scalar_spec (r := if c.n then s.cw.s else put n.val (resultS ty y) s.cw.s)
    (m := if c.n then s.cw.sMarks else del n.val s.cw.sMarks) (by rw [ht]; exact (onlyWeft_map s _).map _) ?_ rfl ?_
  · apply weft_lanes
    obtain ⟨L, hL⟩ := advance_lanes s
    rw [e, hL]
    cases c.n <;> exact ⟨_, rfl⟩
  · intro l
    rw [e, lane_eachLane (active_nodup s c)]
    have hw : ∀ m, (if c.n = true then s.advance.cw else s.advance.cw.writeS n (resultS ty y)).lane m =
        s.advance.cw.lane m := by intro m; split <;> rfl
    rw [hw, cw_advance, lane_eachLane (lanes_nodup s)]
    by_cases hl : l ∈ s.active c
    · have hs := (mem_active.1 hl).1
      simp only [if_pos hl, if_pos hs, pushLatch]
    · by_cases hs : l ∈ s.lanes
      · simp only [if_neg hl, if_pos hs]
      · simp only [if_neg hl, if_neg hs]

/-- uniformResult into s, the z predicate true. -/
theorem uniformResult_spec (s : State) (c : Ctl) (n : Fin 128) (ty y : Nat) (h : ctlHoldsU c s.cw = true) :
    ScalarResult s (s.uniformResult c (.s n) ty y) c n (resultS ty y) s.lanes := by
  simp only [State.uniformResult, h]
  exact putS_spec s c n (resultS ty y)

/-- A false z predicate: the word only passes. -/
theorem uniformResult_skip (s : State) (c : Ctl) (d : Dst) (ty y : Nat) (h : ctlHoldsU c s.cw = false) :
    s.uniformResult c d ty y = s.advance := by
  simp [State.uniformResult, h]

/-! ### Masks -/

theorem testMask_spec (w : Weft) (k : Nat) : MaskTested w (w.testMask k) k := by
  unfold MaskTested Weft.testMask
  by_cases h : w.karr k ≠ 0 ∧ w.kmem k &&& ~~~(w.karr k) = 0
  · have h1 : (w.karr k ≠ 0 && decide (w.kmem k &&& ~~~(w.karr k) = 0)) = true := by simpa using h
    rw [if_pos h, if_pos h1]
    refine ⟨rfl, fun l => ?_⟩
    have e : ∀ w' : Weft, ({ w' with kArr := put k 0 w.kArr } : Weft).lane l = w'.lane l := fun _ => rfl
    rw [e, lane_eachLane (lanesOf_nodup (w.karr k))]
    by_cases hl : (w.karr k).getLsbD l = true
    · simp only [mem_lanesOf, hl, if_true, true_and]
    · simp only [mem_lanesOf, hl, if_false, false_and, Bool.false_eq_true]
  · have h1 : (w.karr k ≠ 0 && decide (w.kmem k &&& ~~~(w.karr k) = 0)) ≠ true := by simpa using h
    rw [if_neg h, if_neg h1]

end Sys2Proof.Machine
end

