-- ==== Sys2Proof/Laws/Caches.lean ====
section
/-!
SUPPORT. The caches: what a fetch into L2, a use of a memory-side cache and an eviction can change.
-/
namespace Sys2Proof.Machine

/-- Only what the caches hold, and the rows opened, has changed. -/
def CachesOnly (s t : State) : Prop := t = { s with l2 := t.l2, msc := t.msc, rows := t.rows }

theorem CachesOnly.refl (s : State) : CachesOnly s s := rfl

theorem CachesOnly.trans {s t u : State} (h : CachesOnly s t) (g : CachesOnly t u) : CachesOnly s u := by
  unfold CachesOnly at *
  rw [g, h]

theorem caches_foldl {α : Type} (f : State → α → State) (hf : ∀ s x, CachesOnly s (f s x)) (xs : List α) (s : State) :
    CachesOnly s (xs.foldl f s) := by
  induction xs generalizing s with
  | nil => rfl
  | cons x xs ih => exact (hf s x).trans (ih _)

theorem caches_l2 (s : State) (l : List L2Line) : CachesOnly s { s with l2 := l } := rfl

theorem caches_openRow (s : State) (b : Nat) : CachesOnly s (s.openRow b) := by
  unfold State.openRow; split <;> rfl

theorem caches_mscTrim (s : State) (b n : Nat) : CachesOnly s (s.mscTrim b n) := by
  induction n generalizing s with
  | zero => rfl
  | succ n ih =>
    simp only [State.mscTrim]
    split
    · rfl
    · split
      · next x _ =>
        refine CachesOnly.trans ?_ (ih _)
        have h : CachesOnly s { s with msc := s.msc.filter fun y => y.block != x.block } := rfl
        split
        · exact h.trans (caches_openRow _ _)
        · exact h
      · rfl

theorem caches_mscUse (s : State) (pa : Nat) (w : Bool) : CachesOnly s (s.mscUse pa w) := by
  unfold State.mscUse
  simp only
  split
  · rfl
  · split
    · rfl
    · refine CachesOnly.trans ?_ (caches_mscTrim _ _ _)
      split
      · rfl
      · have h := caches_openRow s (align (local46 pa) 64)
        exact h.trans rfl

theorem caches_mscRange (s : State) (pa n : Nat) (w : Bool) : CachesOnly s (s.mscRange pa n w) :=
  caches_foldl _ (fun t _ => caches_mscUse t _ _) _ s

/-- A line with no byte of its own writes no byte of memory back: memory has what the line has. -/
theorem caches_memorySet (s : State) (x : L2Line) (a : Nat) (h : x.own = []) : CachesOnly s (s.memorySet x a) := by
  unfold State.memorySet
  simp only [h, look]
  split
  · rfl
  · rfl

theorem caches_l2Evict (s : State) (x : L2Line) (h : x.own = []) : CachesOnly s (s.l2Evict x) := by
  unfold State.l2Evict
  simp only
  have h1 := caches_foldl (fun s (e : Nat × Byte) => s.memorySet x e.1) (fun t e => caches_memorySet t x e.1 h) x.under s
  have h2 := h1.trans (caches_l2 _ (List.filter (fun y => !(decide (y.slice = x.slice) && decide (y.line = x.line)))
    (x.under.foldl (fun s (e : Nat × Byte) => s.memorySet x e.1) s).l2))
  split
  · exact (h2.trans (caches_mscUse _ _ _)).trans (caches_mscUse _ _ _)
  · exact h2

/-- Bringing a line into L2 changes no byte of memory. -/
theorem caches_intoL2 (s : State) (a asid : Nat) : CachesOnly s (s.intoL2 a asid) := by
  unfold State.intoL2
  simp only
  split
  · rfl
  · split
    · rfl
    · next u hu =>
      refine CachesOnly.trans (t := u) ?_ rfl
      split at hu
      · cases hu; rfl
      · cases hx : (s.l2Set (s.sliceOf asid a) (align a 128)).reverse.find?
            (fun x => !s.l2Pinned x && !s.l2Held x && x.own.isEmpty) with
        | none => rw [hx] at hu; cases hu
        | some x =>
          rw [hx] at hu
          cases hu
          have := List.find?_some hx
          refine caches_l2Evict s x ?_
          simp only [Bool.and_eq_true] at this
          exact List.isEmpty_iff.1 this.2

theorem caches_fetchL2 (s : State) (a asid : Nat) : CachesOnly s (s.fetchL2 a asid) := by
  unfold State.fetchL2
  split
  · exact caches_intoL2 s a asid
  · exact (caches_mscUse s a false).trans (caches_intoL2 _ _ _)

theorem caches_fetchLines (s : State) (a n asid : Nat) : CachesOnly s (s.fetchLines a n asid) :=
  caches_foldl _ (fun t _ => caches_fetchL2 t _ _) _ s

/-! ### Bytes written at their Home -/

theorem keepOwn_only (s : State) (slice a : Nat) : s.keepOwn slice a = { s with l2 := (s.keepOwn slice a).l2 } := rfl

/-- A byte written at its memory side: it changes, and nothing else of memory does. -/
theorem sideSet_only (s : State) (a : Nat) (b : Byte) :
    s.sideSet a b = { s with
      mem := mset s.mem a b
      l2 := (s.sideSet a b).l2 } := by
  unfold State.sideSet; simp only; split <;> rfl

/-- A byte written at its L2 home: it changes, and nothing else of memory does. -/
theorem homeSet_only (s : State) (asid a : Nat) (b : Byte) :
    s.homeSet asid a b = { s with
      mem := mset s.mem a b
      l2 := (s.homeSet asid a b).l2 } := by
  unfold State.homeSet; simp only; split
  · exact sideSet_only s a b
  · rfl

theorem sideSets_only (s : State) (a : Nat) (bs : List Byte) :
    s.sideSets a bs = { s with
      mem := mwrite s.mem a bs
      l2 := (s.sideSets a bs).l2 } := by
  induction bs generalizing s a with
  | nil => rfl
  | cons b bs ih =>
    simp only [State.sideSets, mwrite]
    rw [ih, sideSet_only]

theorem homeSets_only (s : State) (asid a : Nat) (bs : List Byte) :
    s.homeSets asid a bs = { s with
      mem := mwrite s.mem a bs
      l2 := (s.homeSets asid a bs).l2 } := by
  induction bs generalizing s a with
  | nil => rfl
  | cons b bs ih =>
    simp only [State.homeSets, mwrite]
    rw [ih, homeSet_only]

end Sys2Proof.Machine
end

