-- ==== Sys2Proof/Laws/Issue.lean ====
section
/-!
SUPPORT. How accesses enter the machine: what one request, one store and one kept walk change, and that these
changes add up.
-/
namespace Sys2Proof.Machine

theorem timesOnly_refl (x : Lane) : TimesOnly x x := rfl

theorem TimesOnly.trans {x y z : Lane} (h1 : TimesOnly x y) (h2 : TimesOnly y z) : TimesOnly x z := by
  unfold TimesOnly at *
  rw [h2, h1]

theorem SameBytes.trans {s t u : State} (h1 : SameBytes s t) (h2 : SameBytes t u) : SameBytes s u :=
  ⟨fun a => (h2.1 a).trans (h1.1 a), fun c a => (h2.2 c a).trans (h1.2 c a)⟩

theorem entered_refl (s : State) : Entered s s :=
  ⟨rfl, fun _ => rfl, fun _ _ => rfl, rfl, fun _ => rfl, ⟨[], by simp, by simp⟩, Nat.le_refl _,
    fun _ => rfl, fun _ _ => rfl⟩

theorem Entered.key {s t : State} (h : Entered s t) : t.key = s.key := by rw [h.1]; rfl
theorem Entered.lanes {s t : State} (h : Entered s t) : t.lanes = s.lanes := by rw [h.1]; rfl
theorem Entered.nextVa {s t : State} (h : Entered s t) : t.nextVa = s.nextVa := by rw [h.1]; rfl
theorem Entered.mem {s t : State} (h : Entered s t) : t.mem = s.mem := by rw [h.1]
theorem Entered.teams {s t : State} (h : Entered s t) : t.teams = s.teams := by rw [h.1]

theorem Entered.trans {s t u : State} (h1 : Entered s t) (h2 : Entered t u) : Entered s u := by
  obtain ⟨a1, b1, c1, d1, e1, ⟨m1, f1, g1⟩, i1, j1⟩ := h1
  obtain ⟨a2, b2, c2, d2, e2, ⟨m2, f2, g2⟩, i2, j2⟩ := h2
  have hk : t.key = s.key := by rw [a1]; rfl
  refine ⟨?_, ?_, ?_, ?_, fun l => (e1 l).trans (e2 l), ⟨m1 ++ m2, ?_, ?_⟩, Nat.le_trans i1 i2, j1.trans j2⟩
  · rw [a2, a1]
  · intro c; rw [b2, b1]
  · intro k h; rw [c2 k (by rw [hk]; exact h), c1 k h]
  · rw [d2, d1]
  · rw [f2, f1, List.append_assoc]
  · intro r hr
    rcases List.mem_append.1 hr with hr | hr
    · exact ⟨(g1 r hr).1, Nat.lt_of_lt_of_le (g1 r hr).2 i2⟩
    · exact ⟨Nat.le_trans i1 (g2 r hr).1, (g2 r hr).2⟩

theorem core_mapCore (s : State) (k c : Nat) (f : Core → Core) :
    (s.mapCore k f).core c = if c = k then f (s.core k) else s.core c := by
  split
  · next h => subst h; simp
  · next h => exact core_mapCore_other f h

theorem caches_entered {s t : State} (h : CachesOnly s t) : Entered s t := by
  unfold CachesOnly at h
  rw [h]
  exact ⟨rfl, fun _ => rfl, fun _ _ => rfl, rfl, fun _ => rfl, ⟨[], by simp, by simp⟩, Nat.le_refl _, fun _ => rfl,
    fun _ _ => rfl⟩

/-- A core's translations change, and nothing else. -/
theorem translations_entered (s : State) (core : Nat) (f : Core → List TlbEntry) (g : Core → List WalkEntry) :
    Entered s (s.mapCore core fun c => { c with tlb := f c, walkc := g c }) := by
  have hc : ∀ c, (s.mapCore core fun c => { c with tlb := f c, walkc := g c }).core c = { s.core c with
      tlb := ((s.mapCore core fun c => { c with tlb := f c, walkc := g c }).core c).tlb
      walkc := ((s.mapCore core fun c => { c with tlb := f c, walkc := g c }).core c).walkc } := by
    intro c
    rw [core_mapCore]
    split
    · next h => subst h; rfl
    · rfl
  refine ⟨rfl, hc, fun _ _ => rfl, rfl, fun _ => rfl, ⟨[], by simp, by simp⟩, Nat.le_refl _, fun _ => rfl, ?_⟩
  intro c a
  rw [hc c]

theorem keepWalk_entered (s : State) (core : Nat) (w : WalkRes) : Entered s (s.keepWalk core w) := by
  unfold State.keepWalk
  split
  · exact (caches_entered (caches_foldl _ (fun t _ => caches_fetchL2 t _ _) _ s)).trans
      (translations_entered _ core _ _)
  · exact entered_refl s

/-- A walk that is kept adds no request. -/
theorem keepWalk_reqs (s : State) (core : Nat) (w : WalkRes) :
    (s.keepWalk core w).reqs = s.reqs ∧ (s.keepWalk core w).nextId = s.nextId := by
  unfold State.keepWalk
  split
  · rename_i e ptrs
    have h : CachesOnly s (List.foldl (fun s a => s.fetchL2 (local46 a) e.asid) s
        (List.filter s.isLocal (ptrs.map (·.addr) ++ (leafAt e ptrs).toList))) :=
      caches_foldl _ (fun t _ => caches_fetchL2 t _ _) _ s
    unfold CachesOnly at h
    refine ⟨?_, ?_⟩
    · show (List.foldl _ s _).reqs = _
      rw [h]
    · show (List.foldl _ s _).nextId = _
      rw [h]
  · exact ⟨rfl, rfl⟩

/-- A walk that is kept changes a core, and what the caches hold. -/
theorem keepWalk_only (s : State) (core : Nat) (w : WalkRes) :
    ∃ u, CachesOnly s u ∧ s.keepWalk core w = { u with cores := (s.keepWalk core w).cores } := by
  unfold State.keepWalk
  split
  · exact ⟨_, caches_foldl _ (fun t _ => caches_fetchL2 t _ _) _ s, rfl⟩
  · exact ⟨s, rfl, rfl⟩

/-- A fetch that is kept changes a core, and what the caches hold (R27, R53). -/
theorem keepFetch_only (s : State) (key pa : Nat) (w : WalkRes) :
    s.keepFetch key pa w = { s with
      cores := (s.keepFetch key pa w).cores
      l2 := (s.keepFetch key pa w).l2
      msc := (s.keepFetch key pa w).msc
      rows := (s.keepFetch key pa w).rows } := by
  obtain ⟨u, hc, hu⟩ := keepWalk_only s (s.agent key 0).core w
  have h2 := caches_fetchL2 (s.keepWalk (s.agent key 0).core w) (local46 pa) (s.agent key 0).asid
  unfold CachesOnly at h2 hc
  unfold State.keepFetch
  simp only
  split
  · show State.mapCore _ _ _ = _
    rw [h2, hu, hc]; rfl
  · show State.mapCore _ _ _ = _
    rw [hu, hc]; rfl

/-- A change of the lanes of the issuing weft that touches only times. -/
theorem lanes_entered (s : State) (f : Weft → Weft) (h1 : f s.cw = { s.cw with lanes := (f s.cw).lanes, sq := (f s.cw).sq })
    (h2 : ∀ l, TimesOnly (s.cw.lane l) ((f s.cw).lane l)) : Entered s (s.mapWeft s.key f) := by
  refine ⟨rfl, fun _ => rfl, fun _ h => weft_mapWeft_other f h, ?_, ?_, ⟨[], by simp, by simp⟩, Nat.le_refl _,
    fun _ => rfl, fun _ _ => rfl⟩
  · rw [cw_mapKey]; exact h1
  · intro l; rw [cw_mapKey]; exact h2 l

theorem takeT_entered (s : State) (r : Req) (st v : Nat) (h : r.key = s.key) : Entered s (s.takeT r st v) := by
  unfold State.takeT
  cases r.tsel with
  | none => exact entered_refl s
  | some n =>
    simp only [h]
    refine lanes_entered s _ rfl fun l => ?_
    rw [lane_eachLane (lanesOf_nodup _)]
    split
    · rfl
    · rfl

theorem addReq_entered (s : State) (r : Req) (h : r.id = s.nextId) : Entered s (s.addReq r) :=
  ⟨rfl, fun _ => rfl, fun _ _ => rfl, rfl, fun _ => rfl,
    ⟨[r], rfl, by simp [State.addReq, h]⟩,
    Nat.le_succ _, fun _ => rfl, fun _ _ => rfl⟩

theorem reserve_entered (s : State) (core : Nat) (ks : List Claim) (c : Nat) : Entered s (s.reserve core ks c) :=
  ⟨rfl, fun _ => rfl, fun _ _ => rfl, rfl, fun _ => rfl, ⟨[], by simp [State.reserve], by simp⟩, Nat.le_refl _,
    fun _ => rfl, fun _ _ => rfl⟩

/-- A request placed: it stands among the requests, with the fields it was made with but phase, level, promise, slot
and injection. -/
def PlacedAs (r q : Req) : Prop :=
  q = { r with
    phase := q.phase
    level := q.level
    promise := q.promise
    slot := q.slot
    inject := q.inject
    armed := q.armed }

theorem takeT_reqs (s : State) (r : Req) (st v : Nat) : (s.takeT r st v).reqs = s.reqs := by
  unfold State.takeT; split <;> rfl

theorem takeT_nextId (s : State) (r : Req) (st v : Nat) : (s.takeT r st v).nextId = s.nextId := by
  unfold State.takeT; split <;> rfl

/-- A request as it is among its fellows: only what they take of banks and reeds together is its own. -/
def SharedAs (r q : Req) : Prop :=
  q = { r with
    turns := q.turns
    extra := q.extra
    groups := q.groups
    batch := q.batch }

/-- Two lists of one length, related entry by entry. -/
def Paired {α β : Type} (R : α → β → Prop) : List α → List β → Prop
  | [], [] => True
  | x :: xs, y :: ys => R x y ∧ Paired R xs ys
  | _, _ => False

theorem paired_length {α β : Type} {R : α → β → Prop} {xs : List α} {ys : List β} (h : Paired R xs ys) :
    ys.length = xs.length := by
  induction xs generalizing ys with
  | nil => cases ys with
    | nil => rfl
    | cons y ys => cases h
  | cons x xs ih => cases ys with
    | nil => cases h
    | cons y ys => simp [ih h.2]

theorem paired_left {α β : Type} {R : α → β → Prop} {xs : List α} {ys : List β} (h : Paired R xs ys) {x : α}
    (hx : x ∈ xs) : ∃ y ∈ ys, R x y := by
  induction xs generalizing ys with
  | nil => cases hx
  | cons z xs ih => cases ys with
    | nil => cases h
    | cons y ys =>
      rcases List.mem_cons.1 hx with rfl | hx
      · exact ⟨y, List.mem_cons_self, h.1⟩
      · obtain ⟨y', h1, h2⟩ := ih h.2 hx
        exact ⟨y', List.mem_cons_of_mem _ h1, h2⟩

theorem paired_right {α β : Type} {R : α → β → Prop} {xs : List α} {ys : List β} (h : Paired R xs ys) {y : β}
    (hy : y ∈ ys) : ∃ x ∈ xs, R x y := by
  induction xs generalizing ys with
  | nil => cases ys with
    | nil => cases hy
    | cons z ys => cases h
  | cons z xs ih => cases ys with
    | nil => cases h
    | cons w ys =>
      rcases List.mem_cons.1 hy with rfl | hy
      · exact ⟨z, List.mem_cons_self, h.1⟩
      · obtain ⟨x, h1, h2⟩ := ih h.2 hy
        exact ⟨x, List.mem_cons_of_mem _ h1, h2⟩

theorem paired_trans {α β γ : Type} {R : α → β → Prop} {S : β → γ → Prop} {T : α → γ → Prop}
    (f : ∀ x y z, R x y → S y z → T x z) {xs : List α} {ys : List β} {zs : List γ} (h : Paired R xs ys)
    (g : Paired S ys zs) : Paired T xs zs := by
  induction xs generalizing ys zs with
  | nil => cases ys with
    | nil => cases zs with
      | nil => trivial
      | cons z zs => cases g
    | cons y ys => cases h
  | cons x xs ih => cases ys with
    | nil => cases h
    | cons y ys => cases zs with
      | nil => cases g
      | cons z zs => exact ⟨f x y z h.1 g.1, ih h.2 g.2⟩

theorem paired_map {α β γ : Type} {R : α → γ → Prop} (f : β → γ) {xs : List α} {ys : List β}
    (h : Paired (fun x y => R x (f y)) xs ys) : Paired R xs (ys.map f) := by
  induction xs generalizing ys with
  | nil => cases ys with
    | nil => trivial
    | cons y ys => cases h
  | cons x xs ih => cases ys with
    | nil => cases h
    | cons y ys => exact ⟨h.1, ih h.2⟩

/-- A pass that adds one entry at a time pairs what it read with what it added. -/
theorem paired_pass {α β γ : Type} {R : α → β → Prop} (f : γ × List β → α → γ × List β)
    (hf : ∀ a x, ∃ y, (f a x).2 = a.2 ++ [y] ∧ R x y) (xs : List α) (a : γ × List β) :
    ∃ out, (xs.foldl f a).2 = a.2 ++ out ∧ Paired R xs out := by
  induction xs generalizing a with
  | nil => exact ⟨[], by simp, trivial⟩
  | cons x xs ih =>
    obtain ⟨y, hy, hr⟩ := hf a x
    obtain ⟨out, h1, h2⟩ := ih (f a x)
    exact ⟨y :: out, by rw [List.foldl_cons, h1, hy, List.append_assoc]; rfl, hr, h2⟩

/-- Requests taken together are those requests, in order. -/
theorem together_spec (rs : List Req) : Paired SharedAs rs (together rs) := by
  unfold together
  simp only
  refine paired_map (R := SharedAs) _ ?_
  generalize groupsOf _ = gs
  generalize (match rs with | r :: _ => r.id | [] => 0) = b
  generalize hf : (fun (acc : List Nat × List Req) (r : Req) => _) = f
  obtain ⟨out, h1, h2⟩ := paired_pass (R := SharedAs) f (by
    intro a x
    rw [← hf]
    exact ⟨_, rfl, rfl⟩) rs ([], [])
  rw [List.nil_append] at h1
  rw [h1]
  refine paired_trans (S := fun q p => p = q) (fun r q p h g => ?_) h2 ?_
  · subst g; unfold SharedAs at *; rw [h]
  · clear h2 h1
    induction out with
    | nil => trivial
    | cons q qs ih => exact ⟨rfl, ih⟩

theorem alone_spec (r : Req) : SharedAs r r.alone := by
  have h := together_spec [r]
  unfold Req.alone
  cases hq : together [r] with
  | nil => rfl
  | cons q qs =>
    rw [hq] at h
    exact h.1

/-- One request joins, and the registers take it. -/
theorem join_entered (s : State) (r : Req) (st v : Nat) (hk : r.key = s.key) (hi : r.id = s.nextId) :
    Entered s ((s.addReq r).takeT r st v) := (addReq_entered s r hi).trans (takeT_entered (s.addReq r) r st v hk)

theorem placeLoad_entered (s : State) (r : Req) (walked : Bool) (hk : r.key = s.key) (hi : r.id = s.nextId) :
    Entered s (s.placeLoad r walked) := by
  unfold State.placeLoad
  split
  · simp only
    split
    · next c _ =>
      exact (reserve_entered s _ _ c).trans (join_entered _ _ _ _ hk hi)
    · exact join_entered s r _ _ hk hi
  · simp only
    exact join_entered s _ _ _ hk hi

/-- placeLoad adds exactly one request. -/
theorem placeLoad_reqs (s : State) (r : Req) (walked : Bool) :
    ∃ q, PlacedAs r q ∧ (s.placeLoad r walked).reqs = s.reqs ++ [q] ∧ (s.placeLoad r walked).nextId = s.nextId + 1 := by
  unfold State.placeLoad
  split
  · simp only
    split
    · next c _ =>
      refine ⟨_, ?_, by rw [takeT_reqs]; rfl, by rw [takeT_nextId]; rfl⟩
      rfl
    · refine ⟨r, ?_, by rw [takeT_reqs]; rfl, by rw [takeT_nextId]; rfl⟩
      rfl
  · simp only
    refine ⟨_, ?_, by rw [takeT_reqs]; rfl, by rw [takeT_nextId]; rfl⟩
    rfl

theorem pushStore_entered (s : State) (g : Agent) (va : Nat) (tgt : Tgt) (bytes : List Byte) (rel : Bool)
    (scope : Nat) (tsel : Option Nat) (lanes : LaneMask) (ty hint : Nat) (h : 64 * g.core + g.slot = s.key) :
    Entered s (s.pushStore g va tgt bytes rel scope tsel lanes ty hint) := by
  unfold State.pushStore
  simp only
  have h0 : ∀ q : Req, q.agent = g → q.id = s.nextId → ∀ e : SqEntry,
      Entered s (((s.addReq q).mapWeft q.key fun w => { w with sq := w.sq ++ [e] }).takeT q stOpen q.start) := by
    intro q hg hi e
    have hk : q.key = s.key := by simp [Req.key, hg, h]
    refine ((addReq_entered s q hi).trans ?_).trans (takeT_entered _ q _ _ (by rw [hk]; rfl))
    rw [hk]
    exact lanes_entered (s.addReq q) _ rfl fun _ => rfl
  exact h0 _ rfl rfl _

theorem key_eq (s : State) : 64 * (s.key / 64) + s.key % 64 = s.key := Nat.div_add_mod s.key 64

theorem spillRegs_entered (s : State) (lane : Nat) (ls : List Nat) :
    Entered s (s.spillRegs s.key lane ls).1 := by
  suffices h : ∀ t, t.key = s.key → Entered t (t.spillRegs s.key lane ls).1 from h s rfl
  induction ls with
  | nil => intro t _; exact entered_refl t
  | cons L ls ih =>
    intro t ht
    simp only [State.spillRegs]
    split
    · next tg w _ =>
      have h1 := keepWalk_entered t (t.agent s.key lane).core w
      have h2 := pushStore_entered (t.keepWalk (t.agent s.key lane).core w) (t.agent s.key lane)
        (t.stkSlot s.key lane L) tg
        (leBytes 4 (lookD (L % (t.weft s.key).stk) 0 ((t.weft s.key).lane lane).regs).toNat) false 0 none (1#128 <<< lane) 0 0
        (by rw [h1.key, ht]; exact key_eq s)
      have h3 := h1.trans h2
      exact h3.trans (ih _ (h3.key.trans ht))
    · exact entered_refl t

theorem spillAll_entered (s : State) (n : Nat) (va : Word) (ls : List Nat) :
    Entered s (s.spillAll s.key n va ls).1 := by
  suffices h : ∀ t, t.key = s.key → Entered t (t.spillAll s.key n va ls).1 from h s rfl
  induction ls with
  | nil => intro t _; exact entered_refl t
  | cons l ls ih =>
    intro t ht
    simp only [State.spillAll]
    split
    · exact ih t ht
    · have h1 := spillRegs_entered t l (spillSpan ((t.weft s.key).lane l) (t.weft s.key).stk n)
      rw [ht] at h1
      split
      · next s1 e => rw [e] at h1; exact h1.trans (ih _ (h1.key.trans ht))
      · next s1 r e => rw [e] at h1; exact h1.trans (ih _ (h1.key.trans ht))

theorem fillRegs_entered (s : State) (lane : Nat) (ls : List Nat) : Entered s (s.fillRegs s.key lane ls) := by
  suffices h : ∀ t, t.key = s.key → Entered t (t.fillRegs s.key lane ls) from h s rfl
  induction ls with
  | nil => intro t _; exact entered_refl t
  | cons L ls ih =>
    intro t ht
    simp only [State.fillRegs]
    split
    · next tg w _ =>
      have h1 := keepWalk_entered t (t.agent s.key lane).core w
      have ha := alone_spec ((t.keepWalk (t.agent s.key lane).core w).newReq (t.agent s.key lane) (.load false) 4
        [{ lane := lane, va := t.stkSlot s.key lane L, x := 0, y := 0, val := 0, reg := L, tgt := tg }] .v)
      unfold SharedAs at ha
      have h3 : Entered t _ := h1.trans (placeLoad_entered (t.keepWalk (t.agent s.key lane).core w)
        ((t.keepWalk (t.agent s.key lane).core w).newReq (t.agent s.key lane) (.load false) 4
          [{ lane := lane, va := t.stkSlot s.key lane L, x := 0, y := 0, val := 0, reg := L, tgt := tg }] .v).alone w.walked
        (by rw [ha, h1.key, ht]; exact key_eq s) (by rw [ha]; rfl))
      exact h3.trans (ih _ (h3.key.trans ht))
    · exact ih t ht

/-- Changes that add up over a list. -/
theorem foldl_entered {α : Type} (f : State → α → State) (xs : List α) (s : State)
    (h : ∀ t x, t.key = s.key → x ∈ xs → Entered t (f t x)) : Entered s (xs.foldl f s) := by
  suffices g : ∀ t, t.key = s.key → Entered t (xs.foldl f t) from g s rfl
  induction xs with
  | nil => intro t _; exact entered_refl t
  | cons x xs ih =>
    intro t ht
    have h1 := h t x ht List.mem_cons_self
    exact h1.trans (ih (fun t y hy hm => h t y hy (List.mem_cons_of_mem _ hm)) _ (h1.key.trans ht))

end Sys2Proof.Machine
end

