-- ==== Sys2Proof/Laws/Barrier.lean ====
section
/-!
SUPPORT. What releases leave alone: masks and barriers wake lanes, acquires drop clean copies, and neither changes a
byte or brings back a lane that has exited.
-/
namespace Sys2Proof.Machine

/-- No byte changes, the decision stays, and no lane changes whether it has exited. -/
def Quiet (s t : State) : Prop :=
  SameBytes s t ∧ t.cur = s.cur ∧ ∀ k l, ((t.weft k).lane l).exited = ((s.weft k).lane l).exited

theorem quiet_refl (s : State) : Quiet s s := ⟨⟨fun _ => rfl, fun _ _ => rfl⟩, rfl, fun _ _ => rfl⟩

theorem Quiet.trans {s t u : State} (h1 : Quiet s t) (h2 : Quiet t u) : Quiet s u :=
  ⟨h1.1.trans h2.1, h2.2.1.trans h1.2.1, fun k l => (h2.2.2 k l).trans (h1.2.2 k l)⟩

theorem foldl_quiet {α : Type} (f : State → α → State) (h : ∀ t x, Quiet t (f t x)) (xs : List α) (s : State) :
    Quiet s (xs.foldl f s) := by
  induction xs generalizing s with
  | nil => exact quiet_refl s
  | cons x xs ih => exact (h s x).trans (ih _)

/-- A fold of tables whose every write keeps a property of all entries. -/
theorem lookD_foldl_keep {α β : Type} (d : α) (p : α → β) (f : Tab α → Nat → α)
    (h : ∀ t l, p (f t l) = p (lookD l d t)) (ls : List Nat) (t : Tab α) (m : Nat) :
    p (lookD m d (ls.foldl (fun t l => put l (f t l) t) t)) = p (lookD m d t) := by
  induction ls generalizing t with
  | nil => rfl
  | cons l ls ih =>
    simp only [List.foldl_cons]
    rw [ih, lookD_put]
    split
    · next e => rw [e, h]
    · rfl

theorem eachLane_exited (w : Weft) (ls : List Nat) (f : Nat → Lane → Lane) (h : ∀ l x, (f l x).exited = x.exited)
    (m : Nat) : ((w.eachLane ls f).lane m).exited = (w.lane m).exited :=
  lookD_foldl_keep _ Lane.exited (fun t l => f l (lookD l {} t)) (fun _ l => h l _) ls w.lanes m

theorem mapWeft_quiet (s : State) (k : Nat) (f : Weft → Weft) (h : ∀ l, ((f (s.weft k)).lane l).exited = ((s.weft k).lane l).exited) :
    Quiet s (s.mapWeft k f) := by
  refine ⟨⟨fun _ => rfl, fun _ _ => rfl⟩, rfl, fun j l => ?_⟩
  by_cases e : j = k
  · subst e; rw [weft_mapWeft_same]; exact h l
  · rw [weft_mapWeft_other f e]

theorem testMask_exited (w : Weft) (k l : Nat) : ((w.testMask k).lane l).exited = (w.lane l).exited := by
  unfold Weft.testMask
  split
  · have e : ∀ w' : Weft, ({ w' with kArr := put k 0 w.kArr } : Weft).lane l = w'.lane l := fun _ => rfl
    rw [e]
    refine eachLane_exited w (lanesOf (w.karr k)) _ (fun m x => ?_) l
    split <;> rfl
  · rfl

theorem leaveMask_exited (w : Weft) (k : Nat) (m : LaneMask) (l : Nat) :
    ((w.leaveMask k m).lane l).exited = (w.lane l).exited := testMask_exited _ k l

theorem leaveMasks_exited (w : Weft) (m : LaneMask) (l : Nat) :
    ((w.leaveMasks m).lane l).exited = (w.lane l).exited := by
  unfold Weft.leaveMasks
  generalize List.range 12 = ks
  induction ks generalizing w with
  | nil => rfl
  | cons k ks ih => simp only [List.foldl_cons]; rw [ih, leaveMask_exited]

theorem mapCore_quiet (s : State) (c : Nat) (f : Core → Core) (h : (f (s.core c)).spad = (s.core c).spad) :
    Quiet s (s.mapCore c f) := by
  refine ⟨⟨fun _ => rfl, fun j a => ?_⟩, rfl, fun _ _ => rfl⟩
  rw [core_mapCore]
  split
  · next e => rw [h, e]
  · rfl

theorem acquireDrop_quiet (s : State) (c : Nat) (u : Bool) : Quiet s (s.acquireDrop c u) :=
  mapCore_quiet s c _ rfl

theorem acquireTeam_quiet (s : State) (team : Nat) : Quiet s (s.acquireTeam team) := by
  unfold State.acquireTeam
  simp only
  split
  · exact quiet_refl s
  · exact foldl_quiet _ (fun t c => acquireDrop_quiet t c false) _ s

theorem testBarrier_quiet (s : State) (team : Nat) : Quiet s (s.testBarrier team) := by
  unfold State.testBarrier
  simp only
  split
  · refine Quiet.trans (Quiet.trans ?_ (foldl_quiet _ (fun t k => ?_) (s.team team).wefts _)) (acquireTeam_quiet _ team)
    · exact ⟨⟨fun _ => rfl, fun _ _ => rfl⟩, rfl, fun _ _ => rfl⟩
    · refine mapWeft_quiet t k _ fun l => eachLane_exited _ _ _ (fun m x => ?_) l
      split <;> rfl
  · exact quiet_refl s

end Sys2Proof.Machine
end

