-- ==== Sys2Proof/Laws/Access.lean ====
section
/-!
SUPPORT. The issue of memory words: what accesses that pass their checks become, and what stores, prefetches, cell
clears and pins leave.
-/
namespace Sys2Proof.Machine

theorem keepWalks_entered (ps : List (Access × Tgt × WalkRes)) (s : State) : Entered s (s.keepWalks ps) := by
  unfold State.keepWalks
  exact foldl_entered _ ps s fun t p _ _ => keepWalk_entered t _ _

/-- Keeping walks makes no request. -/
theorem keepWalks_reqs (ps : List (Access × Tgt × WalkRes)) (s : State) :
    (s.keepWalks ps).reqs = s.reqs ∧ (s.keepWalks ps).nextId = s.nextId := by
  induction ps generalizing s with
  | nil => exact ⟨rfl, rfl⟩
  | cons p ps ih =>
    have h := ih (s.keepWalk s.cur.core p.2.2)
    have k := keepWalk_reqs s s.cur.core p.2.2
    exact ⟨h.1.trans k.1, h.2.trans k.2⟩

theorem entered_cur {s t : State} (h : Entered s t) : t.cur = s.cur := by rw [h.1]

/-- Both sides go on to the next word. -/
theorem entered_advance {s t : State} (h : Entered s t) : Entered s.advance t.advance := by
  obtain ⟨h1, h2, h3, h4, h5, ⟨more, h6, h6'⟩, h7, h8⟩ := h
  have hk : t.key = s.key := by rw [h1]; rfl
  have hl : t.lanes = s.lanes := by rw [h1]; rfl
  have hv : t.nextVa = s.nextVa := by rw [h1]; rfl
  have cwl : ∀ l, t.advance.cw.lane l = if l ∈ s.lanes then { t.cw.lane l with pc := s.nextVa } else t.cw.lane l := by
    intro l; rw [cw_advance, lane_eachLane (lanes_nodup t), hl, hv]
  have cwl' : ∀ l, s.advance.cw.lane l = if l ∈ s.lanes then { s.cw.lane l with pc := s.nextVa } else s.cw.lane l := by
    intro l; rw [cw_advance, lane_eachLane (lanes_nodup s)]
  refine ⟨?_, h2, ?_, ?_, ?_, ⟨more, h6, h6'⟩, h7, h8⟩
  · show ({ t with wefts := t.advance.wefts } : State) = { s with wefts := t.advance.wefts, reqs := t.reqs, nextId := t.nextId, slots := t.slots, cores := t.cores, l2 := t.l2, msc := t.msc, rows := t.rows }
    generalize t.advance.wefts = q
    rw [h1]
  · intro k hk'
    have a : t.advance.weft k = t.weft k := by
      rw [show t.advance = t.mapWeft t.key _ from rfl]; exact weft_mapWeft_other _ (by rw [hk]; exact hk')
    have b : s.advance.weft k = s.weft k := by
      rw [show s.advance = s.mapWeft s.key _ from rfl]; exact weft_mapWeft_other _ hk'
    rw [a, b, h3 k hk']
  · have e1 : ∃ L, t.advance.cw = { t.cw with lanes := L } := by rw [cw_advance]; exact ⟨_, rfl⟩
    obtain ⟨L, e1⟩ := e1
    have e2 : ∃ L, s.advance.cw = { s.cw with lanes := L } := by rw [cw_advance]; exact ⟨_, rfl⟩
    obtain ⟨M, e2⟩ := e2
    rw [e1, e2, h4]
  · intro l
    rw [cwl, cwl']
    have := h5 l
    unfold TimesOnly at this ⊢
    split
    · rw [this]
    · exact this

theorem entered_wb {s t : State} (h : Entered s.advance t) (l : Nat) : (t.cw.lane l).wb = (s.cw.lane l).wb := by
  have := h.2.2.2.2.1 l
  rw [this]
  rw [cw_advance, lane_eachLane (lanes_nodup s)]
  split <;> rfl

theorem part_same {s t : State} (h : Entered s.advance t) (w : MemW) (x : Access) (g : Tgt) : t.part w x g = s.part w x g := by
  unfold State.part State.firstReg
  split
  · rw [entered_wb h]
  · rfl

/-- A state from which a word's requests can be made as from s. -/
def MakesAs (w : MemW) (s b : State) : Prop :=
  b.key = s.key ∧ b.cur = s.cur ∧ s.nextId ≤ b.nextId ∧ ∀ x g, b.part w x g = s.part w x g

theorem makes_self (w : MemW) (s : State) : MakesAs w s s := ⟨rfl, rfl, Nat.le_refl _, fun _ _ => rfl⟩

theorem makes_entered {w : MemW} {s t : State} (h : Entered s.advance t) : MakesAs w s t :=
  ⟨h.key, (entered_cur h : t.cur = s.advance.cur), h.2.2.2.2.2.2.1, fun x g => part_same h w x g⟩

/-- A request that stands for a word's group. -/
def StandsFor (w : MemW) (s : State) (op : ReqOp) (n : Nat) (u : Bool) (ps : List Part) (q : Req) : Prop :=
  IsOf w s op n q ∧ (u = true → q.lanes = s.cur.lanes) ∧ q.parts = ps

theorem placed_stands {w : MemW} {s b : State} (h : MakesAs w s b) (op : ReqOp) (n : Nat) (u : Bool) (ps : List Part) (i : Nat) (r p q : Req)
    (hr : r = { b.reqFor w op n u ps with id := b.nextId + i }) (hs : SharedAs r p) (hp : PlacedAs p q) : StandsFor w s op n u ps q := by
  obtain ⟨hk, hc, hid, _⟩ := h
  unfold PlacedAs at hp
  unfold SharedAs at hs
  rw [hp, hs, hr]
  refine ⟨⟨Nat.le_trans hid (Nat.le_add_right _ _), ?_, rfl, rfl, rfl, rfl, rfl, rfl, rfl, rfl, ?_⟩, ?_, rfl⟩
  · show 64 * (b.key / 64) + b.key % 64 = _
    rw [hk]; exact key_eq s
  · show b.cur.va = _; rw [hc]
  · intro hu; subst hu; show b.cur.lanes = _; rw [hc]

theorem reqFor_key {w : MemW} {t : State} (op n u ps) : (t.reqFor w op n u ps).key = t.key := by
  show 64 * (t.key / 64) + t.key % 64 = _
  exact key_eq t

theorem groupUp_length (m : Bool) (n : Nat) (ps) : (groupUp m n ps).length ≤ ps.length := by
  induction ps with
  | nil => simp [groupUp]
  | cons p ps ih =>
    simp only [groupUp]
    split
    · simp only [List.length_cons]
      rename_i k _
      have := List.length_filter_le (fun g => !(g.any fun q => decide (mergeKey n q.2.1 = some k))) (groupUp true n ps)
      omega
    · simp; exact ih

theorem groupUp_mem (m : Bool) (n : Nat) (ps : List (Access × Tgt × WalkRes)) (p) (h : p ∈ ps) : ∃ g ∈ groupUp m n ps, p ∈ g := by
  induction ps with
  | nil => cases h
  | cons q ps ih =>
    simp only [groupUp]
    split
    · next k hk =>
      rcases List.mem_cons.1 h with rfl | h
      · exact ⟨_, List.mem_cons_self, List.mem_cons_self⟩
      · obtain ⟨g, hg, hp⟩ := ih h
        by_cases e : (g.any fun q => decide (mergeKey n q.2.1 = some k)) = true
        · refine ⟨_, List.mem_cons_self, List.mem_cons_of_mem _ ?_⟩
          exact List.mem_flatten.2 ⟨g, List.mem_filter.2 ⟨hg, e⟩, hp⟩
        · exact ⟨g, List.mem_cons_of_mem _ (List.mem_filter.2 ⟨hg, by simpa using e⟩), hp⟩
    · rcases List.mem_cons.1 h with rfl | h
      · exact ⟨_, List.mem_cons_self, List.mem_cons_self⟩
      · obtain ⟨g, hg, hp⟩ := ih h
        exact ⟨g, List.mem_cons_of_mem _ hg, hp⟩

/-- Requests of the issuing weft, with the next ids, enter in order. -/
theorem placeAll_spec (rs : List (Req × Bool)) (t : State) (hk : ∀ r ∈ rs, r.1.key = t.key)
    (hi : rs.map (·.1.id) = List.range' t.nextId rs.length) :
    Entered t (t.placeAll rs) ∧ ∃ more, (t.placeAll rs).reqs = t.reqs ++ more ∧ Paired PlacedAs (rs.map (·.1)) more := by
  induction rs generalizing t with
  | nil => exact ⟨entered_refl t, [], by simp [State.placeAll], trivial⟩
  | cons r rs ih =>
    have hid : r.1.id = t.nextId := by
      simp only [List.map_cons, List.length_cons, List.range'_succ, List.cons.injEq] at hi; exact hi.1
    have hg := placeLoad_entered t r.1 r.2 (hk r List.mem_cons_self) hid
    obtain ⟨q, hq, hr, hn⟩ := placeLoad_reqs t r.1 r.2
    obtain ⟨e, more, hm, hp⟩ := ih (t.placeLoad r.1 r.2)
      (fun x hx => by rw [hg.key]; exact hk x (List.mem_cons_of_mem _ hx))
      (by
        simp only [List.map_cons, List.length_cons, List.range'_succ, List.cons.injEq] at hi
        rw [hn]; exact hi.2)
    refine ⟨hg.trans e, q :: more, ?_, hq, hp⟩
    show (State.placeAll (t.placeLoad r.1 r.2) rs).reqs = _
    rw [hm, hr, List.append_assoc]; rfl

theorem paired_zip {γ : Type} (h : Nat → γ → Req) (gs : List γ) (k : Nat) :
    Paired (fun g r => ∃ i, r = h i g) gs (((List.range' k gs.length).zip gs).map fun e => h e.1 e.2) := by
  induction gs generalizing k with
  | nil => trivial
  | cons g gs ih =>
    simp only [List.length_cons, List.range'_succ, List.zip_cons_cons, List.map_cons]
    exact ⟨⟨k, rfl⟩, ih (k + 1)⟩

/-- Groups of accesses become one request each. -/
theorem groups_spec (w : MemW) (s : State) (op : ReqOp) (n : Nat) (u : Bool) (gs : List (List (Access × Tgt × WalkRes))) (b t : State) (hb : MakesAs w s b)
    (hn : b.nextId = t.nextId) (ht : Entered s.advance t) :
    let t' := t.placeAll (b.groupReqs w op n u gs)
    Entered t t' ∧ ∃ more, t'.reqs = t.reqs ++ more ∧ more.length = gs.length ∧
      (∀ q ∈ more, IsOf w s op n q ∧ (u = true → q.lanes = s.cur.lanes)) ∧
      ∀ g ∈ gs, ∃ q ∈ more, q.parts = g.map fun p => s.part w p.1 p.2.1 := by
  intro t'
  generalize hrs : ((List.range gs.length).zip gs).map (fun e =>
    { b.reqFor w op n u (e.2.map fun p => b.part w p.1 p.2.1) with id := b.nextId + e.1 }) = rs
  have h1 : Paired (fun g r => ∃ i, r = { b.reqFor w op n u (g.map fun p => b.part w p.1 p.2.1) with id := b.nextId + i }) gs rs := by
    rw [← hrs, List.range_eq_range']
    exact paired_zip (fun i (g : List (Access × Tgt × WalkRes)) => { b.reqFor w op n u (g.map fun p => b.part w p.1 p.2.1) with id := b.nextId + i }) gs 0
  have h2 := together_spec rs
  have e1 : b.groupReqs w op n u gs = (together rs).zip (gs.map fun g => g.any fun p => p.2.2.walked) := by
    unfold State.groupReqs; rw [hrs]
  have l1 := paired_length h1
  have l2 := paired_length h2
  have e2 : (b.groupReqs w op n u gs).map (·.1) = together rs := by
    rw [e1]; exact List.map_fst_zip (by rw [List.length_map]; omega)
  have h12 : Paired (fun g p => ∃ i r, r = { b.reqFor w op n u (g.map fun p => b.part w p.1 p.2.1) with id := b.nextId + i } ∧ SharedAs r p) gs (together rs) :=
    paired_trans (fun g r p h h' => ⟨h.choose, r, h.choose_spec, h'⟩) h1 h2
  have hids : (together rs).map (·.id) = List.range' b.nextId gs.length := by
    have a : ∀ (xs ys : List Req), Paired SharedAs xs ys → ys.map (·.id) = xs.map (·.id) := by
      intro xs
      induction xs with
      | nil => intro ys h; cases ys with
        | nil => rfl
        | cons y ys => cases h
      | cons x xs ih => intro ys h; cases ys with
        | nil => cases h
        | cons y ys =>
          obtain ⟨h, h'⟩ := h
          unfold SharedAs at h
          simp only [List.map_cons, ih ys h', List.cons.injEq, and_true]
          rw [h]
    rw [a _ _ h2, ← hrs, List.map_map]
    have hh : ∀ (gs : List (List (Access × Tgt × WalkRes))) k, List.map ((fun r : Req => r.id) ∘ fun e : Nat × List (Access × Tgt × WalkRes) =>
        { b.reqFor w op n u (e.2.map fun p => b.part w p.1 p.2.1) with id := b.nextId + e.1 }) ((List.range' k gs.length).zip gs) = List.range' (b.nextId + k) gs.length := by
      intro gs
      induction gs with
      | nil => intro k; rfl
      | cons g gs ih =>
        intro k
        simp only [List.length_cons, List.range'_succ, List.zip_cons_cons, List.map_cons, ih, List.cons.injEq]
        exact ⟨rfl, rfl⟩
    rw [List.range_eq_range', hh gs 0]; rfl
  obtain ⟨he, more, hm, hp⟩ := placeAll_spec (b.groupReqs w op n u gs) t (by
      intro r hr
      have hr' : r.1 ∈ together rs := by rw [← e2]; exact List.mem_map.2 ⟨r, hr, rfl⟩
      obtain ⟨g, _, i, r0, h0, h0'⟩ := paired_right h12 hr'
      unfold SharedAs at h0'
      rw [h0', h0]
      show 64 * (b.key / 64) + b.key % 64 = _
      rw [key_eq, hb.1]; exact ht.key.symm) (by
      have : (b.groupReqs w op n u gs).map (·.1.id) = (together rs).map (·.id) := by
        rw [← e2, List.map_map]; rfl
      rw [this, hids, hn]
      congr 1
      have := congrArg List.length e2
      rw [List.length_map] at this; omega)
  rw [e2] at hp
  have h3 : Paired (fun g q => StandsFor w s op n u (g.map fun p => b.part w p.1 p.2.1) q) gs more := by
    refine paired_trans (fun g p q h h' => ?_) h12 hp
    obtain ⟨i, r, h, hs⟩ := h
    exact placed_stands hb op n u _ i r p q h hs h'
  refine ⟨he, more, hm, paired_length h3, fun q hq => ?_, fun g hg => ?_⟩
  · obtain ⟨g, _, h⟩ := paired_right h3 hq
    exact ⟨h.1, h.2.1⟩
  · obtain ⟨q, hq, h⟩ := paired_left h3 hg
    refine ⟨q, hq, ?_⟩
    rw [h.2.2]
    exact List.map_congr_left fun p _ => hb.2.2.2 p.1 p.2.1

/-- One request for each of a list, its operands read beforehand. -/
theorem each_one {α} (s : State) (f : State → α → State) (P : α → Req → Prop) (xs : List α)
    (h : ∀ t x, x ∈ xs → Entered s.advance t → Entered t (f t x) ∧ ∃ q, (f t x).reqs = t.reqs ++ [q] ∧ P x q) :
    Entered s.advance (xs.foldl f s.advance) ∧ ∀ x ∈ xs, ∃ q ∈ (xs.foldl f s.advance).reqs, P x q := by
  suffices hh : ∀ (xs : List α) (t : State), (∀ t x, x ∈ xs → Entered s.advance t → Entered t (f t x) ∧ ∃ q, (f t x).reqs = t.reqs ++ [q] ∧ P x q) → Entered s.advance t →
      Entered s.advance (xs.foldl f t) ∧ (∃ m, (xs.foldl f t).reqs = t.reqs ++ m) ∧ ∀ x ∈ xs, ∃ q ∈ (xs.foldl f t).reqs, P x q from
    ⟨(hh xs s.advance h (entered_refl _)).1, (hh xs s.advance h (entered_refl _)).2.2⟩
  intro xs
  induction xs with
  | nil => intro t _ ht; exact ⟨ht, ⟨[], by simp⟩, by simp⟩
  | cons x xs ih =>
    intro t h ht
    simp only [List.foldl_cons]
    obtain ⟨a, q, b, c⟩ := h t x List.mem_cons_self ht
    obtain ⟨a', ⟨m, b'⟩, c'⟩ := ih (f t x) (fun t y hy => h t y (List.mem_cons_of_mem _ hy)) (ht.trans a)
    refine ⟨a', ⟨[q] ++ m, by rw [b', b, List.append_assoc]⟩, ?_⟩
    intro y hy
    rcases List.mem_cons.1 hy with rfl | hy
    · exact ⟨q, by rw [b', b]; simp, c⟩
    · exact c' y hy

theorem checks_ok (s : State) (al n : Nat) (acc : Acc) (xs : List Access) (tg : Nat → Tgt)
    (h : ∀ x ∈ xs, ∃ wk, s.check (s.agent s.key x.lane) x.va al n acc = .ok (tg x.lane) wk) :
    ∃ wk : Access → WalkRes, s.checks al n acc xs = xs.map fun x => (x, .ok (tg x.lane) (wk x)) := by
  refine ⟨fun x => match s.check (s.agent s.key x.lane) x.va al n acc with | .ok _ w => w | _ => .recov, ?_⟩
  unfold State.checks
  refine List.map_congr_left fun x hx => ?_
  obtain ⟨w, hw⟩ := h x hx
  simp only [hw]

theorem checks_lists (xs : List Access) (tg : Nat → Tgt) (wk : Access → WalkRes) (pc : Word) :
    (xs.map fun x => (x, Check.ok (tg x.lane) (wk x))).filterMap (raiseOf pc) = [] ∧
    (xs.map fun x => (x, Check.ok (tg x.lane) (wk x))).filterMap placedOf = xs.map (fun x => (x, tg x.lane, wk x)) ∧
    (xs.map fun x => (x, Check.ok (tg x.lane) (wk x))).filter isFault = [] := by
  induction xs with
  | nil => simp
  | cons x xs ih =>
    obtain ⟨a, b, c⟩ := ih
    refine ⟨?_, ?_, ?_⟩
    · simp only [List.map_cons, List.filterMap_cons, raiseOf]; exact a
    · simp only [List.map_cons, List.filterMap_cons, placedOf]; rw [b]
    · simp only [List.map_cons, List.filter_cons, isFault]; simpa using c

theorem issueReqs_ok (w : MemW) (s : State) (op : ReqOp) (al n size : Nat) (acc : Acc) (u merge : Bool) (xs : List Access) (tg : Nat → Tgt)
    (h1 : ∀ x ∈ xs, ∃ wk, s.check (s.agent s.key x.lane) x.va al n acc = .ok (tg x.lane) wk)
    (h2 : ∀ x ∈ xs, (tg x.lane).isSo = true → s.soPending s.key x.lane = false)
    (h3 : s.outstanding s.cur.core + xs.length ≤ Config.maxRequests) :
    AllAsked w s (s.issueReqs w op al n size acc u merge xs) op size u xs tg := by
  obtain ⟨wk, hc⟩ := checks_ok s al n acc xs tg h1
  obtain ⟨o1, o2, o3⟩ := checks_lists xs tg wk s.cur.va
  unfold State.issueReqs
  simp only [hc, o1, o2, o3, List.map_nil, List.length_nil, Nat.add_zero]
  generalize hps : xs.map (fun x => (x, tg x.lane, wk x)) = ps
  have hw : s.mustWait false ps = false := by
    unfold State.mustWait
    rw [List.any_eq_false, ← hps]
    intro p hp
    obtain ⟨x, hx, rfl⟩ := List.mem_map.1 hp
    have := h2 x hx
    cases e : tg x.lane <;> simp [e, Tgt.isSo] at this ⊢ <;> exact this
  have hlen : (groupUp merge size ps).length ≤ xs.length := by
    have := groupUp_length merge size ps; rw [← hps] at this ⊢; simpa using this
  rw [hw, if_neg (by simp; omega)]
  have hw1 := entered_advance (keepWalks_entered ps s)
  obtain ⟨he, more, hm, hl, ho, hp⟩ := groups_spec w s op size u (groupUp merge size ps) s ((s.keepWalks ps).advance)
    (makes_self w s) (keepWalks_reqs ps s).2.symm hw1
  rw [show (s.keepWalks ps).advance.reqs = s.reqs from (keepWalks_reqs ps s).1] at hm
  generalize State.placeAll _ _ = t at *
  have hf : t.faultReqs w op size acc u [] = t := rfl
  rw [hf]
  refine ⟨hw1.trans he, more, hm, by omega, ho, fun x hx => ?_⟩
  obtain ⟨g, hg, hxg⟩ := groupUp_mem merge size ps (x, tg x.lane, wk x) (by rw [← hps]; exact List.mem_map.2 ⟨x, hx, rfl⟩)
  obtain ⟨q, hq, hqp⟩ := hp g hg
  refine ⟨q, hq, ?_⟩
  rw [hqp]
  exact List.mem_map.2 ⟨_, hxg, rfl⟩


theorem pushStore_sq (t : State) (g : Agent) (va : Nat) (tgt : Tgt) (bytes : List Byte) (rel : Bool) (scope : Nat) (tsel : Option Nat) (lanes : LaneMask) (ty hint : Nat)
    (h : 64 * g.core + g.slot = t.key) :
    (t.pushStore g va tgt bytes rel scope tsel lanes ty hint).cw.sq = t.cw.sq ++ [⟨g.lane, tgt, bytes, rel, scope, tsel.isSome, t.nextId, va⟩] := by
  unfold State.pushStore
  simp only
  have h0 : ∀ (q : Req) (e : SqEntry), q.agent = g → (((t.addReq q).mapWeft q.key fun w => { w with sq := w.sq ++ [e] }).takeT q stOpen q.start).cw.sq = t.cw.sq ++ [e] := by
    intro q e hg
    have hk : q.key = t.key := by simp [Req.key, hg, h]
    have h1 : ((t.addReq q).mapWeft q.key fun w => { w with sq := w.sq ++ [e] }).cw.sq = t.cw.sq ++ [e] := by
      rw [hk]
      have := cw_mapKey (t.addReq q) fun w => { w with sq := w.sq ++ [e] }
      rw [show (t.addReq q).key = t.key from rfl] at this
      rw [this]; rfl
    rw [← h1]
    generalize (t.addReq q).mapWeft q.key (fun w => { w with sq := w.sq ++ [e] }) = u
    have hq : q.key = q.key := rfl
    unfold State.takeT
    split
    · rfl
    · by_cases hku : q.key = u.key
      · rw [hku, cw_mapKey]; rfl
      · have : ∀ f, (u.mapWeft q.key f).cw = u.cw := by
          intro f
          show (u.mapWeft q.key f).weft u.key = u.weft u.key
          exact weft_mapWeft_other _ (fun e => hku e.symm)
        rw [this]
  exact h0 _ _ rfl

theorem stores_spec (w : MemW) (s : State) (n : Nat) (lm : State → Nat → LaneMask) (ps : List (Access × Tgt × WalkRes)) (t : State) (ht : Entered s.advance t)
    (pre : List SqEntry) (hpre : t.cw.sq = s.cw.sq ++ pre) :
    ∃ t', t' = ps.foldl (fun s p => s.storeOne w n (lm s p.1.lane) p) t ∧ Entered s.advance t' ∧ ∃ es, t'.cw.sq = s.cw.sq ++ (pre ++ es) ∧ es.length = ps.length ∧
      ∀ p ∈ ps, ∃ e ∈ es, e.lane = p.1.lane ∧ e.va = p.1.va.toNat ∧ e.tgt = p.2.1 ∧ e.bytes = leBytes n p.1.x ∧ e.rel = w.releases ∧
        e.scope = w.scope.toNat ∧ e.home = w.tnum.isSome ∧ s.nextId ≤ e.req := by
  induction ps generalizing t pre with
  | nil => exact ⟨t, rfl, ht, [], by simpa using hpre, rfl, by simp⟩
  | cons p ps ih =>
    simp only [List.foldl_cons]
    have hk : 64 * (t.agent t.key p.1.lane).core + (t.agent t.key p.1.lane).slot = t.key := key_eq t
    have hg : Entered t (t.storeOne w n (lm t p.1.lane) p) := pushStore_entered t _ _ _ _ _ _ _ _ _ _ hk
    have hq := pushStore_sq t (t.agent t.key p.1.lane) p.1.va.toNat p.2.1 (leBytes n p.1.x) w.releases w.scope.toNat w.tnum (lm t p.1.lane) w.ty.toNat w.hint.toNat hk
    obtain ⟨t', e, he, es, hm, hl, ho⟩ := ih (t.storeOne w n (lm t p.1.lane) p) (ht.trans hg) (pre ++ [_]) (by
      unfold State.storeOne; rw [hq, hpre, List.append_assoc])
    refine ⟨t', e, he, [_] ++ es, by rw [hm, List.append_assoc], by simp [hl], ?_⟩
    intro p' hp'
    rcases List.mem_cons.1 hp' with rfl | hp'
    · exact ⟨_, List.mem_append_left _ (List.mem_singleton.2 rfl), rfl, rfl, rfl, rfl, rfl, rfl, rfl, ht.2.2.2.2.2.2.1⟩
    · obtain ⟨e', h1, h2⟩ := ho p' hp'
      exact ⟨e', List.mem_append_right _ h1, h2⟩

theorem entered_noop {s t : State} (h : Entered s t) : Entered s (t.mapWeft t.key fun z => z.eachLane [] fun _ x => { x with pc := t.cur.va }) :=
  h.trans (lanes_entered t _ rfl fun _ => rfl)


theorem lineReqs_spec (w : MemW) (s : State) (op : ReqOp) (tf : Nat → Option (Tgt × WalkRes)) (ls : List Nat) (hls : s.outstanding s.cur.core + ls.length ≤ Config.maxRequests) :
    Entered s.advance (s.lineReqs w op ls tf) ∧ ∀ l ∈ ls, ∀ tg wk, tf l = some (tg, wk) →
      ∃ q ∈ (s.lineReqs w op ls tf).reqs, IsOf w s op 1 q ∧ ∃ y ∈ q.parts, y = s.part w ⟨l, s.ea w l, 0, 0⟩ tg := by
  unfold State.lineReqs
  have := List.length_filter_le (fun l => (tf l).isSome) ls
  rw [if_neg (by omega)]
  suffices h : ∀ (ls : List Nat) (t : State), Entered s.advance t → Entered s.advance ((ls.map fun l => (⟨l, s.ea w l, 0, 0⟩ : Access)).foldl (fun s x => s.lineReq w op x (tf x.lane)) t) ∧
      (∃ m, ((ls.map fun l => (⟨l, s.ea w l, 0, 0⟩ : Access)).foldl (fun s x => s.lineReq w op x (tf x.lane)) t).reqs = t.reqs ++ m) ∧
      ∀ l ∈ ls, ∀ tg wk, tf l = some (tg, wk) → ∃ q ∈ ((ls.map fun l => (⟨l, s.ea w l, 0, 0⟩ : Access)).foldl (fun s x => s.lineReq w op x (tf x.lane)) t).reqs, IsOf w s op 1 q ∧ ∃ y ∈ q.parts, y = s.part w ⟨l, s.ea w l, 0, 0⟩ tg from by
    have := h ls s.advance (entered_refl _)
    exact ⟨this.1, this.2.2⟩
  intro ls
  induction ls with
  | nil => intro t ht; exact ⟨ht, ⟨[], by simp⟩, by simp⟩
  | cons l ls ih =>
    intro t ht
    simp only [List.map_cons, List.foldl_cons]
    have hstep : Entered t (t.lineReq w op ⟨l, s.ea w l, 0, 0⟩ (tf l)) ∧ (∃ m, (t.lineReq w op ⟨l, s.ea w l, 0, 0⟩ (tf l)).reqs = t.reqs ++ m) ∧ ∀ tg wk, tf l = some (tg, wk) →
        ∃ q ∈ (t.lineReq w op ⟨l, s.ea w l, 0, 0⟩ (tf l)).reqs, IsOf w s op 1 q ∧ ∃ y ∈ q.parts, y = s.part w ⟨l, s.ea w l, 0, 0⟩ tg := by
      unfold State.lineReq
      cases hc : tf l with
      | none =>
        simp only
        refine ⟨?_, ⟨[], by rw [takeT_reqs]; simp⟩, by intro tg wk h; cases h⟩
        have h0 : Entered t ({ t with nextId := t.nextId + 1 } : State) :=
          ⟨rfl, fun _ => rfl, fun _ _ => rfl, rfl, fun _ => rfl, ⟨[], by simp, by simp⟩, Nat.le_succ _, fun _ => rfl, fun _ _ => rfl⟩
        exact h0.trans (takeT_entered _ _ _ _ (reqFor_key _ _ _ _))
      | some p =>
        obtain ⟨tg, wk⟩ := p
        simp only
        have h1 := keepWalk_entered t t.cur.core wk
        have hkr := keepWalk_reqs t t.cur.core wk
        obtain ⟨he, more, hm, hl, ho, hp⟩ := groups_spec w s op 1 false [[((⟨l, s.ea w l, 0, 0⟩ : Access), tg, wk)]] t
          (t.keepWalk t.cur.core wk) (makes_entered ht) hkr.2.symm (ht.trans h1)
        refine ⟨h1.trans he, ⟨more, by rw [hm, hkr.1]⟩, ?_⟩
        intro tg' wk' h
        cases h
        obtain ⟨q, hq, hh⟩ := hp _ (List.mem_singleton.2 rfl)
        exact ⟨q, by rw [hm]; exact List.mem_append_right _ hq, (ho q hq).1, _, by rw [hh]; exact List.mem_singleton.2 rfl, rfl⟩
    obtain ⟨a, ⟨m1, b⟩, c⟩ := hstep
    obtain ⟨a', ⟨m2, b'⟩, c'⟩ := ih _ (ht.trans a)
    refine ⟨a', ⟨m1 ++ m2, by rw [b', b, List.append_assoc]⟩, ?_⟩
    intro l' hl' tg wk h
    rcases List.mem_cons.1 hl' with rfl | hl'
    · obtain ⟨q, hq, hh⟩ := c tg wk h
      exact ⟨q, by rw [b']; exact List.mem_append_left _ hq, hh⟩
    · exact c' l' hl' tg wk h

theorem part_fields (s : State) (w : MemW) (x : Access) (g : Tgt) : (s.part w x g).lane = x.lane ∧ (s.part w x g).va = x.va.toNat ∧ (s.part w x g).x = x.x ∧ (s.part w x g).tgt = g := ⟨rfl, rfl, rfl, rfl⟩

theorem clrcLane_spec (w : MemW) (s t : State) (ht : Entered s.advance t) (l n : Nat) (cs : List (Access × Check)) (hcs : ∀ c ∈ cs, ∃ g wk, c.2 = .ok g wk) :
    Entered t (t.clrcLane w l n cs) ∧ (∃ m, (t.clrcLane w l n cs).reqs = t.reqs ++ m) ∧ (0 < n →
      ∃ q ∈ (t.clrcLane w l n cs).reqs, IsOf w s .clrc 32 q ∧ ∀ c ∈ cs, ∃ y ∈ q.parts, y.lane = c.1.lane ∧ y.va = c.1.va.toNat ∧ y.x = c.1.x) := by
  unfold State.clrcLane
  by_cases h0 : n = 0
  · rw [if_pos h0]
    refine ⟨?_, ⟨[], by rw [takeT_reqs]; simp⟩, fun h => by omega⟩
    have h0 : Entered t ({ t with nextId := t.nextId + 1 } : State) :=
      ⟨rfl, fun _ => rfl, fun _ _ => rfl, rfl, fun _ => rfl, ⟨[], by simp, by simp⟩, Nat.le_succ _, fun _ => rfl, fun _ _ => rfl⟩
    exact h0.trans (takeT_entered _ _ _ _ (reqFor_key _ _ _ _))
  · rw [if_neg h0]
    have hff : firstFail cs = none := by
      clear h0
      induction cs with
      | nil => rfl
      | cons c cs ih =>
        obtain ⟨g, wk, h⟩ := hcs c List.mem_cons_self
        simp only [firstFail, h]
        exact ih fun c hc => hcs c (List.mem_cons_of_mem _ hc)
    rw [hff]
    simp only
    generalize hps : List.filterMap placedOf cs = ps
    have h1 := keepWalks_entered ps t
    have hkr := keepWalks_reqs ps t
    obtain ⟨he, more, hm, hl, ho, hp⟩ := groups_spec w s .clrc 32 false [ps] t (t.keepWalks ps) (makes_entered ht)
      hkr.2.symm (ht.trans h1)
    rw [hkr.1] at hm
    obtain ⟨q, hq, hh⟩ := hp _ (List.mem_singleton.2 rfl)
    refine ⟨h1.trans he, ⟨more, hm⟩, fun _ => ⟨q, by rw [hm]; exact List.mem_append_right _ hq, (ho q hq).1, fun c hc => ?_⟩⟩
    obtain ⟨g, wk, h⟩ := hcs c hc
    refine ⟨s.part w c.1 g, ?_, rfl, rfl, rfl⟩
    rw [hh]
    refine List.mem_map.2 ⟨(c.1, g, wk), ?_, rfl⟩
    rw [← hps]
    exact List.mem_filterMap.2 ⟨c, hc, by simp [placedOf, h]⟩

theorem unpin_spec (s : State) (core ctx line : Nat) (l2 : Bool) :
    SameBytes s (s.unpin core ctx line l2) ∧ (s.unpin core ctx line l2).reqs = s.reqs ∧ (s.unpin core ctx line l2).wefts = s.wefts ∧
    (l2 = true → ∀ p ∈ (s.unpin core ctx line l2).l2pins, p ∈ s.l2pins ∧ ¬(p.line = line ∧ p.ctx = ctx)) ∧
    (l2 = false → ∀ p ∈ ((s.unpin core ctx line l2).core core).pins, p ∈ (s.core core).pins ∧ ¬(p.line = line ∧ p.ctx = ctx)) := by
  unfold State.unpin
  cases l2
  · simp only [Bool.false_eq_true, if_false]
    refine ⟨⟨fun _ => rfl, fun c a => ?_⟩, rfl, rfl, fun h => (by cases h), fun _ p hp => ?_⟩
    · rw [core_mapCore]; split
      · next e => subst e; rfl
      · rfl
    · rw [core_mapCore, if_pos rfl] at hp
      have := List.mem_filter.1 hp
      refine ⟨this.1, fun e => ?_⟩
      have := this.2; simp [e.1, e.2] at this
  · simp only [if_true]
    split
    · refine ⟨⟨fun _ => rfl, fun _ _ => rfl⟩, rfl, rfl, fun _ p hp => ?_, fun h => (by cases h)⟩
      have := List.mem_filter.1 (show p ∈ s.l2pins.filter _ from hp)
      refine ⟨this.1, fun e => ?_⟩
      have := this.2; simp [e.1, e.2] at this
    · next h =>
      refine ⟨⟨fun _ => rfl, fun _ _ => rfl⟩, rfl, rfl, fun _ p hp => ⟨hp, fun q => ?_⟩, fun h => (by cases h)⟩
      apply h
      exact List.any_eq_true.2 ⟨p, hp, by simpa using q⟩

end Sys2Proof.Machine
end

