-- ==== Sys2Proof/Laws/Encoding.lean ====
section
/-!
SUPPORT. The fields of a word survive the encoder: operand fields, and each word layout whole.
-/
namespace Sys2Proof

/-! ### Parts of a joined bit vector -/

theorem extract_hi {v w : Nat} (x : BitVec v) (y : BitVec w) : (x ++ y).extractLsb' w v = x := by
  apply BitVec.eq_of_getLsbD_eq; intro i hi
  simp [BitVec.getLsbD_append, hi]

theorem extract_lo {v w : Nat} (x : BitVec v) (y : BitVec w) : (x ++ y).extractLsb' 0 w = y := by
  apply BitVec.eq_of_getLsbD_eq; intro i hi
  simp [BitVec.getLsbD_append, hi]

theorem extract_past {v w : Nat} (n k m : Nat) (x : BitVec v) (y : BitVec w) (h : m = w + k) :
    (x ++ y).extractLsb' m n = x.extractLsb' k n := by
  subst h
  apply BitVec.eq_of_getLsbD_eq; intro i hi
  have h1 : ¬ w + k + i < w := by omega
  have h2 : w + k + i - w = k + i := by omega
  simp [BitVec.getLsbD_append, hi, h1, h2]

theorem extract_before {v w : Nat} (n k : Nat) (x : BitVec v) (y : BitVec w) (h : k + n ≤ w) :
    (x ++ y).extractLsb' k n = y.extractLsb' k n := by
  apply BitVec.eq_of_getLsbD_eq; intro i hi
  have h1 : k + i < w := by omega
  simp [BitVec.getLsbD_append, hi, h1]

theorem bit_past {v w : Nat} (k m : Nat) (x : BitVec v) (y : BitVec w) (h : m = w + k) :
    (x ++ y).getLsbD m = x.getLsbD k := by
  subst h
  simp [BitVec.getLsbD_append]

theorem bit_before {v w : Nat} (k : Nat) (x : BitVec v) (y : BitVec w) (h : k < w) :
    (x ++ y).getLsbD k = y.getLsbD k := by
  simp [BitVec.getLsbD_append, h]

/-! ### Operand fields -/

@[simp] theorem dst_ofBits_toBits (d : Dst) : Dst.ofBits d.toBits = some d := by
  cases d with
  | none => decide
  | v n => revert n; decide
  | s n => revert n; decide
  | t n => revert n; decide
  | p n => revert n; decide
  | z n => revert n; decide
  | k n => revert n; decide
  | g n => revert n; decide

/-- The four parts of an operand field. -/
theorem operand_parts (k : BitVec 2) (n : BitVec 7) (p : BitVec 4) (m : BitVec 3) :
    (k ++ n ++ p ++ m).extractLsb' 14 2 = k ∧ (k ++ n ++ p ++ m).extractLsb' 7 7 = n ∧
    (k ++ n ++ p ++ m).extractLsb' 3 4 = p ∧ (k ++ n ++ p ++ m).extractLsb' 0 3 = m := by
  refine ⟨?_, ?_, ?_, extract_lo _ _⟩
  · rw [extract_past 2 11 14 _ _ rfl, extract_past 2 7 11 _ _ rfl]; exact extract_hi _ _
  · rw [extract_past 7 4 7 _ _ rfl, extract_past 7 0 4 _ _ rfl]; exact extract_lo _ _
  · rw [extract_past 4 0 3 _ _ rfl]; exact extract_lo _ _

@[simp] theorem src_ofBits_toBits (s : Src) : Src.ofBits s.toBits = some s := by
  cases s with
  | none => decide
  | imm x =>
    have h1 : (3#2 ++ x).extractLsb' 14 2 = 3#2 := extract_hi _ _
    have h2 : (3#2 ++ x).extractLsb' 0 14 = x := extract_lo _ _
    simp [Src.toBits, Src.ofBits, h1, h2]
  | v n p m =>
    obtain ⟨h1, h2, h3, h4⟩ := operand_parts 0#2 (BitVec.ofNat 7 n) p m
    have : (BitVec.ofNat 7 n.val).toNat = n.val := by simp; omega
    simp only [Src.toBits, Src.ofBits, h1, h2, h3, h4, this]
    simp
  | s n m =>
    obtain ⟨h1, h2, h3, h4⟩ := operand_parts 1#2 (BitVec.ofNat 7 n) 0#4 m
    have : (BitVec.ofNat 7 n.val).toNat = n.val := by simp
    simp only [Src.toBits, Src.ofBits, h1, h2, h3, h4, this]
    simp
  | b n p m =>
    obtain ⟨h1, h2, h3, h4⟩ := operand_parts 2#2 (BitVec.ofNat 7 n) p m
    have : (BitVec.ofNat 7 n.val).toNat = n.val := by simp; omega
    simp only [Src.toBits, Src.ofBits, h1, h2, h3, h4, this]
    simp
  | t n p => revert n p; decide
  | p n p => revert n p; decide
  | z n => revert n; decide
  | k n => revert n; decide
  | g n m => revert n m; decide

@[simp] theorem srcOr_toBits (s : Src) : srcOr s.toBits = s := by simp [srcOr]
@[simp] theorem dstOr_toBits (d : Dst) : dstOr d.toBits = d := by simp [dstOr]

/-! ### Word layouts -/

theorem ctlW_back (w : CtlW) (opc len : Nat) (h : (len = 1 ∧ opc ≠ 0) ∨ w.off = 0) :
    (w.raw opc len).ctlW = w := by
  by_cases g : len = 1 ∧ opc ≠ 0
  · have h1 : (w.off.setWidth 64).extractLsb' 0 32 = w.off := by
      apply BitVec.eq_of_getLsbD_eq; intro i hi
      simp [hi]; omega
    simp [CtlW.raw, Ctl.raw, Raw.ctlW, Raw.ctl, g, h1]
  · have h0 : w.off = 0 := h.resolve_left g
    simp only [CtlW.raw, Ctl.raw, Raw.ctlW, Raw.ctl, if_neg g, srcOr_toBits, dstOr_toBits]
    cases w; simp_all

theorem aluW_back (w : AluW) (opc : Nat) (h : w.plain = true) : (w.raw opc).aluW = w := by
  obtain ⟨c, ty, dst, a, b, src, rm, sat, wide⟩ := w
  cases wide with
  | true =>
    have h1 : (0#45 ++ BitVec.ofBool sat ++ rm ++ src.toBits).extractLsb' 0 16 = src.toBits := extract_lo _ _
    have h2 : (0#45 ++ BitVec.ofBool sat ++ rm ++ src.toBits).extractLsb' 16 2 = rm := by
      rw [extract_past 2 0 16 _ _ rfl]; exact extract_lo _ _
    have h3 : (0#45 ++ BitVec.ofBool sat ++ rm ++ src.toBits).getLsbD 18 = sat := by
      rw [bit_past 2 18 _ _ rfl, bit_past 0 2 _ _ rfl, bit_before 0 _ _ (by omega)]
      cases sat <;> rfl
    simp only [AluW.raw, Ctl.raw, Raw.aluW, Raw.ctl, if_true, h1, h2, h3, srcOr_toBits, dstOr_toBits]
    rfl
  | false =>
    simp [AluW.plain] at h
    simp [AluW.raw, Ctl.raw, Raw.aluW, Raw.ctl, h]

@[simp] theorem moviW_back (w : MoviW) (opc : Nat) : (w.raw opc).moviW = w := by
  simp [MoviW.raw, Ctl.raw, Raw.moviW, Raw.ctl]

@[simp] theorem engW_back (w : EngW) (opc : Nat) : (w.raw opc).engW = w := by
  simp [EngW.raw, Ctl.raw, Raw.engW, Raw.ctl]

/-- The parts of a memory word's extension. -/
theorem mem_parts (u : BitVec 8) (hi : BitVec 3) (sc : BitVec 3) (o : BitVec 2) (sz t : BitVec 3) (f : BitVec 32) :
    let x := 0#10 ++ u ++ hi ++ sc ++ o ++ sz ++ t ++ f
    x.extractLsb' 0 32 = f ∧ x.getLsbD 34 = t.getLsbD 2 ∧ x.extractLsb' 32 2 = t.extractLsb' 0 2 ∧
    x.extractLsb' 35 3 = sz ∧ x.extractLsb' 38 2 = o ∧ x.extractLsb' 40 3 = sc ∧
    x.extractLsb' 43 3 = hi ∧ x.extractLsb' 46 8 = u := by
  refine ⟨extract_lo _ _, ?_, ?_, ?_, ?_, ?_, ?_, ?_⟩
  · rw [bit_past 2 34 _ _ rfl, bit_before 2 _ _ (by omega)]
  · rw [extract_past 2 0 32 _ _ rfl, extract_before 2 0 _ _ (by omega)]
  · rw [extract_past 3 3 35 _ _ rfl, extract_past 3 0 3 _ _ rfl]; exact extract_lo _ _
  · rw [extract_past 2 6 38 _ _ rfl, extract_past 2 3 6 _ _ rfl, extract_past 2 0 3 _ _ rfl]; exact extract_lo _ _
  · rw [extract_past 3 8 40 _ _ rfl, extract_past 3 5 8 _ _ rfl, extract_past 3 2 5 _ _ rfl,
      extract_past 3 0 2 _ _ rfl]; exact extract_lo _ _
  · rw [extract_past 3 11 43 _ _ rfl, extract_past 3 8 11 _ _ rfl, extract_past 3 5 8 _ _ rfl,
      extract_past 3 3 5 _ _ rfl, extract_past 3 0 3 _ _ rfl]; exact extract_lo _ _
  · rw [extract_past 8 14 46 _ _ rfl, extract_past 8 11 14 _ _ rfl, extract_past 8 8 11 _ _ rfl,
      extract_past 8 6 8 _ _ rfl, extract_past 8 3 6 _ _ rfl, extract_past 8 0 3 _ _ rfl]; exact extract_lo _ _

theorem tsel_back (t : Option (Fin 4)) :
    (if (tselBits t).getLsbD 2 then
      some (⟨((tselBits t).extractLsb' 0 2).toNat, ((tselBits t).extractLsb' 0 2).isLt⟩ : Fin 4) else none) = t := by
  cases t with
  | none => rfl
  | some n => revert n; decide

@[simp] theorem memW_back (w : MemW) (opc : Nat) : (w.raw opc).memW = w := by
  obtain ⟨h1, h2, h3, h4, h5, h6, h7, h8⟩ :=
    mem_parts w.subop w.hint w.scope w.ord w.size (tselBits w.tsel) w.off
  simp only [MemW.raw, Ctl.raw, Raw.memW, Raw.ctl, h1, h2, h3, h4, h5, h6, h7, h8, srcOr_toBits, dstOr_toBits,
    tsel_back]

end Sys2Proof
end

