-- ==== Sys2Proof/Laws/Homes.lean ====
section
/-!
SUPPORT. Writes at a Home: the bytes they change, and that poison, tags, waiters, views and operands of the loom change
no byte.
-/
namespace Sys2Proof.Machine

theorem refresh_only (s : State) (c asid : Nat) (t : Tgt) (n : Nat) : (s.refresh c asid t n).wefts = s.wefts ∧ (s.refresh c asid t n).cur = s.cur ∧ SameBytes s (s.refresh c asid t n) := by
  unfold State.refresh
  split
  · refine ⟨rfl, rfl, fun _ => rfl, fun d a => ?_⟩
    simp only
    rw [core_mapCore]; split
    · next e => subst e; rfl
    · rfl
  · exact ⟨rfl, rfl, fun _ => rfl, fun _ _ => rfl⟩

theorem testWaiter_only (s : State) (id : Nat) : (s.testWaiter id).wefts = s.wefts ∧ (s.testWaiter id).cur = s.cur ∧ SameBytes s (s.testWaiter id) := by
  unfold State.testWaiter
  split
  · split
    · split
      · exact refresh_only _ _ _ _ _
      · exact ⟨rfl, rfl, fun _ => rfl, fun _ _ => rfl⟩
    · exact ⟨rfl, rfl, fun _ => rfl, fun _ _ => rfl⟩
  · exact ⟨rfl, rfl, fun _ => rfl, fun _ _ => rfl⟩

theorem wake_only (s : State) : s.wake.wefts = s.wefts ∧ s.wake.cur = s.cur ∧ SameBytes s s.wake := by
  unfold State.wake
  generalize s.reqs.filter _ = rs
  induction rs generalizing s with
  | nil => exact ⟨rfl, rfl, fun _ => rfl, fun _ _ => rfl⟩
  | cons r rs ih =>
    simp only [List.foldl_cons]
    obtain ⟨a, b, c⟩ := testWaiter_only s r.id
    obtain ⟨a', b', c'⟩ := ih (s.testWaiter r.id)
    exact ⟨a'.trans a, b'.trans b, c.trans c'⟩

theorem freeTile_only (s : State) (c t m n : Nat) : (s.freeTile c t m n).wefts = s.wefts ∧ (s.freeTile c t m n).cur = s.cur ∧ SameBytes s (s.freeTile c t m n) := by
  unfold State.freeTile
  refine ⟨rfl, rfl, fun _ => rfl, fun d a => ?_⟩
  rw [core_mapCore]; split
  · next e => subst e; rfl
  · rfl

theorem taintLoom_only (s : State) (c : Nat) (p : MmaOp → Bool) : (s.taintLoom c p).wefts = s.wefts ∧ (s.taintLoom c p).cur = s.cur ∧ SameBytes s (s.taintLoom c p) := by
  unfold State.taintLoom
  simp only
  generalize hs1 : (s.mapCore c fun c => _) = s1
  have h1 : s1.wefts = s.wefts ∧ s1.cur = s.cur ∧ SameBytes s s1 := by
    rw [← hs1]
    refine ⟨rfl, rfl, fun _ => rfl, fun d a => ?_⟩
    rw [core_mapCore]; split
    · next e => subst e; rfl
    · rfl
  generalize ((s.core c).loomDone.filter p) = os
  clear hs1
  revert s1
  induction os with
  | nil => intro s1 h1; exact h1
  | cons o os ih =>
    intro s1 h1
    simp only [List.foldl_cons]
    obtain ⟨a, b, d⟩ := freeTile_only s1 c o.tile o.m o.n
    exact ih _ ⟨a.trans h1.1, b.trans h1.2.1, h1.2.2.trans d⟩

theorem clearPoison_only (s : State) (t : Tgt) (n : Nat) : (s.clearPoison t n).wefts = s.wefts ∧ (s.clearPoison t n).cur = s.cur ∧ SameBytes s (s.clearPoison t n) := by
  unfold State.clearPoison
  split
  · exact ⟨rfl, rfl, fun _ => rfl, fun _ _ => rfl⟩
  · refine ⟨rfl, rfl, fun _ => rfl, fun d a => ?_⟩
    rw [core_mapCore]; split
    · next e => subst e; rfl
    · rfl
  · exact ⟨rfl, rfl, fun _ => rfl, fun _ _ => rfl⟩

/-- Words that traffic moves through a scratchpad take slots of its banks, and nothing else changes. -/
theorem claimBanks_only (s : State) (core off n : Nat) :
    s.claimBanks core off n = { s with slots := (s.claimBanks core off n).slots } := by
  unfold State.claimBanks
  generalize spadWords off n = ws
  induction ws generalizing s with
  | nil => rfl
  | cons w ws ih =>
    rw [List.foldl_cons, ih]
    simp only
    split <;> rfl

/-- Bytes put at a scratchpad: exactly they change. -/
theorem homePut_spad (s : State) (asid core off : Nat) (bs : List Byte) :
    (s.homePut asid (.spad core off) bs).wefts = s.wefts ∧ (s.homePut asid (.spad core off) bs).cur = s.cur ∧
    (∀ a, mget (s.homePut asid (.spad core off) bs).mem a = mget s.mem a) ∧
    ∀ c a, mget ((s.homePut asid (.spad core off) bs).core c).spad a = if c = core ∧ off ≤ a ∧ a < off + bs.length then bs.getD (a - off) 0 else mget (s.core c).spad a := by
  unfold State.homePut
  simp only
  rw [claimBanks_only]
  generalize State.slots _ = sl
  generalize hs1 : (s.mapCore core fun x => { x with spad := mwrite x.spad off bs }) = s1
  have a1 := clearPoison_only s1 (.spad core off) bs.length
  have a2 := taintLoom_only (s1.clearPoison (.spad core off) bs.length) core fun o => !o.fromMem && o.reads off bs.length
  have hw : s1.wefts = s.wefts ∧ s1.cur = s.cur ∧ s1.mem = s.mem := by rw [← hs1]; exact ⟨rfl, rfl, rfl⟩
  generalize (s1.clearPoison (.spad core off) bs.length).taintLoom core _ = u at *
  refine ⟨by show u.wefts = _; rw [a2.1, a1.1, hw.1], by show u.cur = _; rw [a2.2.1, a1.2.1, hw.2.1],
    fun a => by show mget u.mem a = _; rw [a2.2.2.1, a1.2.2.1, hw.2.2], fun c a => ?_⟩
  show mget (u.core c).spad a = _
  rw [a2.2.2.2, a1.2.2.2, ← hs1, core_mapCore]
  by_cases e : c = core
  · subst e
    rw [if_pos rfl]
    simp only [true_and]
    by_cases h : off ≤ a ∧ a < off + bs.length
    · rw [if_pos h]
      have := mget_mwrite_inside (s.core c).spad off bs (a - off) (by omega)
      rw [show off + (a - off) = a by omega] at this
      rw [this]
      rw [List.getD_eq_getElem?_getD, List.getElem?_eq_getElem (by omega)]; rfl
    · rw [if_neg h]
      exact mget_mwrite_outside _ _ _ _ (by omega)
  · rw [if_neg e, if_neg (by simp [e])]

/-- Bytes written at a scratchpad: exactly they change. -/
theorem homeWrite_spad (s : State) (asid core off : Nat) (bs : List Byte) :
    (s.homeWrite asid (.spad core off) bs).wefts = s.wefts ∧ (s.homeWrite asid (.spad core off) bs).cur = s.cur ∧
    (∀ a, mget (s.homeWrite asid (.spad core off) bs).mem a = mget s.mem a) ∧
    ∀ c a, mget ((s.homeWrite asid (.spad core off) bs).core c).spad a = if c = core ∧ off ≤ a ∧ a < off + bs.length then bs.getD (a - off) 0 else mget (s.core c).spad a := by
  obtain ⟨h1, h2, h3, h4⟩ := homePut_spad s asid core off bs
  obtain ⟨g1, g2, g3⟩ := wake_only (s.homePut asid (.spad core off) bs)
  unfold State.homeWrite
  exact ⟨g1.trans h1, g2.trans h2, fun a => (g3.1 a).trans (h3 a), fun c a => (g3.2 c a).trans (h4 c a)⟩

/-- Memory is now m, and nothing else but what the caches hold has changed. -/
def MemoryIs (m : Memory) (s t : State) : Prop :=
  t = { s with
    mem := m
    l2 := t.l2
    msc := t.msc
    rows := t.rows }

theorem memory_caches {m : Memory} {s t u : State} (h : MemoryIs m s t) (g : CachesOnly t u) : MemoryIs m s u := by
  unfold MemoryIs CachesOnly at *
  rw [g, h]

theorem caches_memory {m : Memory} {s t u : State} (h : CachesOnly s t) (g : MemoryIs m t u) : MemoryIs m s u := by
  unfold MemoryIs CachesOnly at *
  rw [g, h]

/-- Bytes put at memory, at whichever of its homes: exactly they change, and nothing else but what the caches hold. -/
theorem homePut_mem (s : State) (asid pa : Nat) (o : PageKind) (bs : List Byte) :
    MemoryIs (mwrite s.mem (local46 pa) bs) s (s.homePut asid (.mem pa o) bs) := by
  have h2 : MemoryIs (mwrite s.mem (local46 pa) bs) s
      ((s.fetchLines (local46 pa) bs.length asid).homeSets asid (local46 pa) bs) := by
    have h1 := caches_fetchLines s (local46 pa) bs.length asid
    have hm : (s.fetchLines (local46 pa) bs.length asid).mem = s.mem := by rw [h1]
    refine caches_memory h1 ?_
    have := homeSets_only (s.fetchLines (local46 pa) bs.length asid) asid (local46 pa) bs
    rw [hm] at this
    exact this.trans (by rw [this])
  cases o with
  | so =>
    refine memory_caches (t := s.sideSets (local46 pa) bs) ?_ (caches_mscRange _ _ _ _)
    have := sideSets_only s (local46 pa) bs
    exact this.trans (by rw [this])
  | rc => exact h2
  | uo => exact h2

theorem leBytes_length (n x : Nat) : (leBytes n x).length = n := by
  induction n generalizing x with
  | zero => rfl
  | succ n ih => simp [leBytes, ih]

end Sys2Proof.Machine
end

