-- ==== Sys2Proof/Laws/PerInstr.lean ====
section
/-!
SUPPORT. Statements made per instruction. Encodes: the fields that the encoder lays out for an instruction build
that instruction again (R202, R214), so that no field is dropped or put in another's place.
-/
namespace Sys2Proof.Laws.Encodes

/-- The fields of a well-formed instruction, as its word has them, build the instruction. -/
def Statement (i : Instr) : Prop := i.WellFormed → ∀ r, i.raw = some r → r.build = some i

theorem of_ctl {i : Instr} {w : CtlW} {opc len : Nat} (hr : i.raw = some (w.raw opc len))
    (hs : i.shaped = true → (len = 1 ∧ opc ≠ 0) ∨ w.off = 0)
    (hb : ∀ r : Raw, r.ctlW = w → r.opc = BitVec.ofNat 8 opc → r.len = BitVec.ofNat 2 len → r.ty = w.ty →
      i.shaped = true → r.build = some i) : Statement i := by
  intro h r e
  have h2 : i.shaped = true := by
    simp only [Instr.WellFormed, Bool.and_eq_true] at h; exact h.2
  rw [hr] at e
  cases e
  exact hb _ (ctlW_back w opc len (hs h2)) rfl rfl rfl h2

theorem of_alu {i : Instr} {w : AluW} {opc : Nat} (hr : i.raw = some (w.raw opc)) (hs : i.shaped = w.plain)
    (hb : ∀ r : Raw, r.aluW = w → r.opc = BitVec.ofNat 8 opc → r.build = some i) : Statement i := by
  intro h r e
  have h2 : w.plain = true := by
    simp only [Instr.WellFormed, Bool.and_eq_true] at h; rw [← hs]; exact h.2
  rw [hr] at e
  cases e
  exact hb _ (aluW_back w opc h2) (by unfold AluW.raw; split <;> rfl)

theorem of_mem {i : Instr} {w : MemW} {opc : Nat} (hr : i.raw = some (w.raw opc))
    (hb : ∀ r : Raw, r.memW = w → r.opc = BitVec.ofNat 8 opc → r.build = some i) : Statement i := by
  intro _ r e
  rw [hr] at e
  cases e
  exact hb _ (memW_back w opc) rfl

theorem of_eng {i : Instr} {w : EngW} {opc : Nat} (hr : i.raw = some (w.raw opc))
    (hb : ∀ r : Raw, r.engW = w → r.opc = BitVec.ofNat 8 opc → r.build = some i) : Statement i := by
  intro _ r e
  rw [hr] at e
  cases e
  exact hb _ (engW_back w opc) rfl

theorem of_event {i : Instr} (hr : i.raw = none) : Statement i := by
  intro _ r e
  rw [hr] at e
  cases e

theorem nop (w : CtlW) : Statement (.nop w) :=
  of_ctl rfl (fun h => .inr (of_decide_eq_true h)) fun r h1 h2 h3 _ _ => by simp [Raw.build, h1, h2, h3]
theorem nop96 (w : CtlW) : Statement (.nop96 w) :=
  of_ctl rfl (fun h => .inr (of_decide_eq_true h)) fun r h1 h2 h3 _ _ => by simp [Raw.build, h1, h2, h3]
theorem nop128 (w : CtlW) : Statement (.nop128 w) :=
  of_ctl rfl (fun h => .inr (of_decide_eq_true h)) fun r h1 h2 h3 _ _ => by simp [Raw.build, h1, h2, h3]
theorem bra (w : CtlW) : Statement (.bra w) :=
  of_ctl rfl (fun _ => .inl ⟨rfl, by decide⟩) fun r h1 h2 _ _ _ => by
    have e : List.lookup 1 ctlCtors = some Instr.bra := rfl
    simp [Raw.build, h1, h2, e]
theorem brt (w : CtlW) : Statement (.brt w) :=
  of_ctl rfl (fun _ => .inl ⟨rfl, by decide⟩) fun r h1 h2 _ _ _ => by
    have e : List.lookup 2 ctlCtors = some Instr.brt := rfl
    simp [Raw.build, h1, h2, e]
theorem jmp (w : CtlW) : Statement (.jmp w) :=
  of_ctl rfl (fun h => .inr (of_decide_eq_true h)) fun r h1 h2 _ _ _ => by
    have e : List.lookup 3 ctlCtors = some Instr.jmp := rfl
    simp [Raw.build, h1, h2, e]
theorem call (w : CtlW) : Statement (.call w) :=
  of_ctl rfl (fun _ => .inl ⟨rfl, by decide⟩) fun r h1 h2 _ _ _ => by
    have e : List.lookup 4 ctlCtors = some Instr.call := rfl
    simp [Raw.build, h1, h2, e]
theorem calli (w : CtlW) : Statement (.calli w) :=
  of_ctl rfl (fun h => .inr (of_decide_eq_true h)) fun r h1 h2 _ _ _ => by
    have e : List.lookup 5 ctlCtors = some Instr.calli := rfl
    simp [Raw.build, h1, h2, e]
theorem ret (w : CtlW) : Statement (.ret w) :=
  of_ctl rfl (fun h => .inr (of_decide_eq_true h)) fun r h1 h2 _ _ _ => by
    have e : List.lookup 6 ctlCtors = some Instr.ret := rfl
    simp [Raw.build, h1, h2, e]
theorem frame (w : CtlW) : Statement (.frame w) :=
  of_ctl rfl (fun h => .inr (of_decide_eq_true h)) fun r h1 h2 _ _ _ => by
    have e : List.lookup 7 ctlCtors = some Instr.frame := rfl
    simp [Raw.build, h1, h2, e]
theorem spill (w : CtlW) : Statement (.spill w) :=
  of_ctl rfl (fun h => .inr (of_decide_eq_true h)) fun r h1 h2 _ _ _ => by
    have e : List.lookup 8 ctlCtors = some Instr.spill := rfl
    simp [Raw.build, h1, h2, e]
theorem fill (w : CtlW) : Statement (.fill w) :=
  of_ctl rfl (fun h => .inr (of_decide_eq_true h)) fun r h1 h2 _ _ _ => by
    have e : List.lookup 9 ctlCtors = some Instr.fill := rfl
    simp [Raw.build, h1, h2, e]
theorem meet (w : CtlW) : Statement (.meet w) :=
  of_ctl (len := 1) rfl (fun _ => .inl ⟨rfl, by decide⟩) fun r h1 h2 h3 h4 h5 => by
    simp [Instr.shaped] at h5; simp [Raw.build, h1, h2, h4, h5]
theorem meetReg (w : CtlW) : Statement (.meetReg w) :=
  of_ctl (len := 1) rfl (fun _ => .inl ⟨rfl, by decide⟩) fun r h1 h2 h3 h4 h5 => by
    simp [Instr.shaped] at h5; simp [Raw.build, h1, h2, h4, h5]
theorem join (w : CtlW) : Statement (.join w) :=
  of_ctl rfl (fun h => .inr (of_decide_eq_true h)) fun r h1 h2 _ _ _ => by
    have e : List.lookup 11 ctlCtors = some Instr.join := rfl
    simp [Raw.build, h1, h2, e]
theorem leave (w : CtlW) : Statement (.leave w) :=
  of_ctl rfl (fun h => .inr (of_decide_eq_true h)) fun r h1 h2 _ _ _ => by
    have e : List.lookup 12 ctlCtors = some Instr.leave := rfl
    simp [Raw.build, h1, h2, e]
theorem waitm (w : CtlW) : Statement (.waitm w) :=
  of_ctl rfl (fun h => .inr (of_decide_eq_true h)) fun r h1 h2 _ _ _ => by
    have e : List.lookup 13 ctlCtors = some Instr.waitm := rfl
    simp [Raw.build, h1, h2, e]
theorem exit (w : CtlW) : Statement (.exit w) :=
  of_ctl rfl (fun h => .inr (of_decide_eq_true h)) fun r h1 h2 _ _ _ => by
    have e : List.lookup 14 ctlCtors = some Instr.exit := rfl
    simp [Raw.build, h1, h2, e]
theorem yield (w : CtlW) : Statement (.yield w) :=
  of_ctl rfl (fun h => .inr (of_decide_eq_true h)) fun r h1 h2 _ _ _ => by
    have e : List.lookup 15 ctlCtors = some Instr.yield := rfl
    simp [Raw.build, h1, h2, e]
theorem yieldt (w : CtlW) : Statement (.yieldt w) :=
  of_ctl rfl (fun h => .inr (of_decide_eq_true h)) fun r h1 h2 _ _ _ => by
    have e : List.lookup 16 ctlCtors = some Instr.yieldt := rfl
    simp [Raw.build, h1, h2, e]
theorem twait (w : CtlW) : Statement (.twait w) :=
  of_ctl rfl (fun h => .inr (of_decide_eq_true h)) fun r h1 h2 _ _ _ => by
    have e : List.lookup 17 ctlCtors = some Instr.twait := rfl
    simp [Raw.build, h1, h2, e]
theorem brk (w : CtlW) : Statement (.brk w) :=
  of_ctl rfl (fun h => .inr (of_decide_eq_true h)) fun r h1 h2 _ _ _ => by
    have e : List.lookup 18 ctlCtors = some Instr.brk := rfl
    simp [Raw.build, h1, h2, e]
theorem trap (w : CtlW) : Statement (.trap w) :=
  of_ctl rfl (fun h => .inr (of_decide_eq_true h)) fun r h1 h2 _ _ _ => by
    have e : List.lookup 19 ctlCtors = some Instr.trap := rfl
    simp [Raw.build, h1, h2, e]
theorem tret (w : CtlW) : Statement (.tret w) :=
  of_ctl rfl (fun h => .inr (of_decide_eq_true h)) fun r h1 h2 _ _ _ => by
    have e : List.lookup 20 ctlCtors = some Instr.tret := rfl
    simp [Raw.build, h1, h2, e]
theorem bdec (w : CtlW) : Statement (.bdec w) :=
  of_ctl rfl (fun _ => .inl ⟨rfl, by decide⟩) fun r h1 h2 _ _ _ => by
    have e : List.lookup 21 ctlCtors = some Instr.bdec := rfl
    simp [Raw.build, h1, h2, e]
theorem sadd (w : AluW) : Statement (.sadd w) :=
  of_alu rfl rfl fun r h1 h2 => by
    have e : List.lookup 32 aluCtors = some Instr.sadd := rfl
    simp [Raw.build, h1, h2, e]
theorem ssub (w : AluW) : Statement (.ssub w) :=
  of_alu rfl rfl fun r h1 h2 => by
    have e : List.lookup 33 aluCtors = some Instr.ssub := rfl
    simp [Raw.build, h1, h2, e]
theorem smul (w : AluW) : Statement (.smul w) :=
  of_alu rfl rfl fun r h1 h2 => by
    have e : List.lookup 34 aluCtors = some Instr.smul := rfl
    simp [Raw.build, h1, h2, e]
theorem smulh (w : AluW) : Statement (.smulh w) :=
  of_alu rfl rfl fun r h1 h2 => by
    have e : List.lookup 35 aluCtors = some Instr.smulh := rfl
    simp [Raw.build, h1, h2, e]
theorem sand (w : AluW) : Statement (.sand w) :=
  of_alu rfl rfl fun r h1 h2 => by
    have e : List.lookup 36 aluCtors = some Instr.sand := rfl
    simp [Raw.build, h1, h2, e]
theorem sor (w : AluW) : Statement (.sor w) :=
  of_alu rfl rfl fun r h1 h2 => by
    have e : List.lookup 37 aluCtors = some Instr.sor := rfl
    simp [Raw.build, h1, h2, e]
theorem sxor (w : AluW) : Statement (.sxor w) :=
  of_alu rfl rfl fun r h1 h2 => by
    have e : List.lookup 38 aluCtors = some Instr.sxor := rfl
    simp [Raw.build, h1, h2, e]
theorem sshl (w : AluW) : Statement (.sshl w) :=
  of_alu rfl rfl fun r h1 h2 => by
    have e : List.lookup 39 aluCtors = some Instr.sshl := rfl
    simp [Raw.build, h1, h2, e]
theorem sshr (w : AluW) : Statement (.sshr w) :=
  of_alu rfl rfl fun r h1 h2 => by
    have e : List.lookup 40 aluCtors = some Instr.sshr := rfl
    simp [Raw.build, h1, h2, e]
theorem smin (w : AluW) : Statement (.smin w) :=
  of_alu rfl rfl fun r h1 h2 => by
    have e : List.lookup 41 aluCtors = some Instr.smin := rfl
    simp [Raw.build, h1, h2, e]
theorem smax (w : AluW) : Statement (.smax w) :=
  of_alu rfl rfl fun r h1 h2 => by
    have e : List.lookup 42 aluCtors = some Instr.smax := rfl
    simp [Raw.build, h1, h2, e]
theorem scmp (w : AluW) : Statement (.scmp w) :=
  of_alu rfl rfl fun r h1 h2 => by
    have e : List.lookup 43 aluCtors = some Instr.scmp := rfl
    simp [Raw.build, h1, h2, e]
theorem ssel (w : AluW) : Statement (.ssel w) :=
  of_alu rfl rfl fun r h1 h2 => by
    have e : List.lookup 44 aluCtors = some Instr.ssel := rfl
    simp [Raw.build, h1, h2, e]
theorem smov (w : AluW) : Statement (.smov w) :=
  of_alu rfl rfl fun r h1 h2 => by
    have e : List.lookup 45 aluCtors = some Instr.smov := rfl
    simp [Raw.build, h1, h2, e]
theorem spopc (w : AluW) : Statement (.spopc w) :=
  of_alu rfl rfl fun r h1 h2 => by
    have e : List.lookup 48 aluCtors = some Instr.spopc := rfl
    simp [Raw.build, h1, h2, e]
theorem sclz (w : AluW) : Statement (.sclz w) :=
  of_alu rfl rfl fun r h1 h2 => by
    have e : List.lookup 49 aluCtors = some Instr.sclz := rfl
    simp [Raw.build, h1, h2, e]
theorem sbfe (w : AluW) : Statement (.sbfe w) :=
  of_alu rfl rfl fun r h1 h2 => by
    have e : List.lookup 50 aluCtors = some Instr.sbfe := rfl
    simp [Raw.build, h1, h2, e]
theorem sbfi (w : AluW) : Statement (.sbfi w) :=
  of_alu rfl rfl fun r h1 h2 => by
    have e : List.lookup 51 aluCtors = some Instr.sbfi := rfl
    simp [Raw.build, h1, h2, e]
theorem sgetl (w : AluW) : Statement (.sgetl w) :=
  of_alu rfl rfl fun r h1 h2 => by
    have e : List.lookup 52 aluCtors = some Instr.sgetl := rfl
    simp [Raw.build, h1, h2, e]
theorem sputl (w : AluW) : Statement (.sputl w) :=
  of_alu rfl rfl fun r h1 h2 => by
    have e : List.lookup 53 aluCtors = some Instr.sputl := rfl
    simp [Raw.build, h1, h2, e]
theorem zop (w : AluW) : Statement (.zop w) :=
  of_alu rfl rfl fun r h1 h2 => by
    have e : List.lookup 54 aluCtors = some Instr.zop := rfl
    simp [Raw.build, h1, h2, e]
theorem smovs (w : AluW) : Statement (.smovs w) :=
  of_alu rfl rfl fun r h1 h2 => by
    have e : List.lookup 55 aluCtors = some Instr.smovs := rfl
    simp [Raw.build, h1, h2, e]
theorem smovc (w : AluW) : Statement (.smovc w) :=
  of_alu rfl rfl fun r h1 h2 => by
    have e : List.lookup 56 aluCtors = some Instr.smovc := rfl
    simp [Raw.build, h1, h2, e]
theorem smovi (w : MoviW) : Statement (.smovi w) := by
  intro _ r e
  cases e
  have h := moviW_back w 0x2E
  have h2 : (w.raw 0x2E).opc = 0x2E#8 := rfl
  simp [Raw.build, h, h2]
theorem sldlit (w : CtlW) : Statement (.sldlit w) :=
  of_ctl rfl (fun _ => .inl ⟨rfl, by decide⟩) fun r h1 h2 _ _ _ => by
    have e : List.lookup 47 ctlCtors = some Instr.sldlit := rfl
    simp [Raw.build, h1, h2, e]
theorem iadd (w : AluW) : Statement (.iadd w) :=
  of_alu rfl rfl fun r h1 h2 => by
    have e : List.lookup 64 aluCtors = some Instr.iadd := rfl
    simp [Raw.build, h1, h2, e]
theorem isub (w : AluW) : Statement (.isub w) :=
  of_alu rfl rfl fun r h1 h2 => by
    have e : List.lookup 65 aluCtors = some Instr.isub := rfl
    simp [Raw.build, h1, h2, e]
theorem imul (w : AluW) : Statement (.imul w) :=
  of_alu rfl rfl fun r h1 h2 => by
    have e : List.lookup 66 aluCtors = some Instr.imul := rfl
    simp [Raw.build, h1, h2, e]
theorem imulh (w : AluW) : Statement (.imulh w) :=
  of_alu rfl rfl fun r h1 h2 => by
    have e : List.lookup 67 aluCtors = some Instr.imulh := rfl
    simp [Raw.build, h1, h2, e]
theorem imad (w : AluW) : Statement (.imad w) :=
  of_alu rfl rfl fun r h1 h2 => by
    have e : List.lookup 68 aluCtors = some Instr.imad := rfl
    simp [Raw.build, h1, h2, e]
theorem iand (w : AluW) : Statement (.iand w) :=
  of_alu rfl rfl fun r h1 h2 => by
    have e : List.lookup 69 aluCtors = some Instr.iand := rfl
    simp [Raw.build, h1, h2, e]
theorem ior (w : AluW) : Statement (.ior w) :=
  of_alu rfl rfl fun r h1 h2 => by
    have e : List.lookup 70 aluCtors = some Instr.ior := rfl
    simp [Raw.build, h1, h2, e]
theorem ixor (w : AluW) : Statement (.ixor w) :=
  of_alu rfl rfl fun r h1 h2 => by
    have e : List.lookup 71 aluCtors = some Instr.ixor := rfl
    simp [Raw.build, h1, h2, e]
theorem ishl (w : AluW) : Statement (.ishl w) :=
  of_alu rfl rfl fun r h1 h2 => by
    have e : List.lookup 72 aluCtors = some Instr.ishl := rfl
    simp [Raw.build, h1, h2, e]
theorem ishr (w : AluW) : Statement (.ishr w) :=
  of_alu rfl rfl fun r h1 h2 => by
    have e : List.lookup 73 aluCtors = some Instr.ishr := rfl
    simp [Raw.build, h1, h2, e]
theorem imin (w : AluW) : Statement (.imin w) :=
  of_alu rfl rfl fun r h1 h2 => by
    have e : List.lookup 74 aluCtors = some Instr.imin := rfl
    simp [Raw.build, h1, h2, e]
theorem imax (w : AluW) : Statement (.imax w) :=
  of_alu rfl rfl fun r h1 h2 => by
    have e : List.lookup 75 aluCtors = some Instr.imax := rfl
    simp [Raw.build, h1, h2, e]
theorem iabs (w : AluW) : Statement (.iabs w) :=
  of_alu rfl rfl fun r h1 h2 => by
    have e : List.lookup 76 aluCtors = some Instr.iabs := rfl
    simp [Raw.build, h1, h2, e]
theorem icmp (w : AluW) : Statement (.icmp w) :=
  of_alu rfl rfl fun r h1 h2 => by
    have e : List.lookup 77 aluCtors = some Instr.icmp := rfl
    simp [Raw.build, h1, h2, e]
theorem isel (w : AluW) : Statement (.isel w) :=
  of_alu rfl rfl fun r h1 h2 => by
    have e : List.lookup 78 aluCtors = some Instr.isel := rfl
    simp [Raw.build, h1, h2, e]
theorem popc (w : AluW) : Statement (.popc w) :=
  of_alu rfl rfl fun r h1 h2 => by
    have e : List.lookup 79 aluCtors = some Instr.popc := rfl
    simp [Raw.build, h1, h2, e]
theorem clz (w : AluW) : Statement (.clz w) :=
  of_alu rfl rfl fun r h1 h2 => by
    have e : List.lookup 80 aluCtors = some Instr.clz := rfl
    simp [Raw.build, h1, h2, e]
theorem bfe (w : AluW) : Statement (.bfe w) :=
  of_alu rfl rfl fun r h1 h2 => by
    have e : List.lookup 81 aluCtors = some Instr.bfe := rfl
    simp [Raw.build, h1, h2, e]
theorem bfi (w : AluW) : Statement (.bfi w) :=
  of_alu rfl rfl fun r h1 h2 => by
    have e : List.lookup 82 aluCtors = some Instr.bfi := rfl
    simp [Raw.build, h1, h2, e]
theorem bperm (w : AluW) : Statement (.bperm w) :=
  of_alu rfl rfl fun r h1 h2 => by
    have e : List.lookup 83 aluCtors = some Instr.bperm := rfl
    simp [Raw.build, h1, h2, e]
theorem mov (w : AluW) : Statement (.mov w) :=
  of_alu rfl rfl fun r h1 h2 => by
    have e : List.lookup 84 aluCtors = some Instr.mov := rfl
    simp [Raw.build, h1, h2, e]
theorem movs (w : AluW) : Statement (.movs w) :=
  of_alu rfl rfl fun r h1 h2 => by
    have e : List.lookup 86 aluCtors = some Instr.movs := rfl
    simp [Raw.build, h1, h2, e]
theorem rng (w : AluW) : Statement (.rng w) :=
  of_alu rfl rfl fun r h1 h2 => by
    have e : List.lookup 87 aluCtors = some Instr.rng := rfl
    simp [Raw.build, h1, h2, e]
theorem plop (w : AluW) : Statement (.plop w) :=
  of_alu rfl rfl fun r h1 h2 => by
    have e : List.lookup 88 aluCtors = some Instr.plop := rfl
    simp [Raw.build, h1, h2, e]
theorem pset (w : AluW) : Statement (.pset w) :=
  of_alu rfl rfl fun r h1 h2 => by
    have e : List.lookup 89 aluCtors = some Instr.pset := rfl
    simp [Raw.build, h1, h2, e]
theorem vote (w : AluW) : Statement (.vote w) :=
  of_alu rfl rfl fun r h1 h2 => by
    have e : List.lookup 90 aluCtors = some Instr.vote := rfl
    simp [Raw.build, h1, h2, e]
theorem ballot (w : AluW) : Statement (.ballot w) :=
  of_alu rfl rfl fun r h1 h2 => by
    have e : List.lookup 91 aluCtors = some Instr.ballot := rfl
    simp [Raw.build, h1, h2, e]
theorem kop (w : AluW) : Statement (.kop w) :=
  of_alu rfl rfl fun r h1 h2 => by
    have e : List.lookup 92 aluCtors = some Instr.kop := rfl
    simp [Raw.build, h1, h2, e]
theorem shfl (w : AluW) : Statement (.shfl w) :=
  of_alu rfl rfl fun r h1 h2 => by
    have e : List.lookup 93 aluCtors = some Instr.shfl := rfl
    simp [Raw.build, h1, h2, e]
theorem redux (w : AluW) : Statement (.redux w) :=
  of_alu rfl rfl fun r h1 h2 => by
    have e : List.lookup 94 aluCtors = some Instr.redux := rfl
    simp [Raw.build, h1, h2, e]
theorem scan (w : AluW) : Statement (.scan w) :=
  of_alu rfl rfl fun r h1 h2 => by
    have e : List.lookup 95 aluCtors = some Instr.scan := rfl
    simp [Raw.build, h1, h2, e]
theorem trank (w : AluW) : Statement (.trank w) :=
  of_alu rfl rfl fun r h1 h2 => by
    have e : List.lookup 96 aluCtors = some Instr.trank := rfl
    simp [Raw.build, h1, h2, e]
theorem elect (w : AluW) : Statement (.elect w) :=
  of_alu rfl rfl fun r h1 h2 => by
    have e : List.lookup 97 aluCtors = some Instr.elect := rfl
    simp [Raw.build, h1, h2, e]
theorem fadd (w : AluW) : Statement (.fadd w) :=
  of_alu rfl rfl fun r h1 h2 => by
    have e : List.lookup 112 aluCtors = some Instr.fadd := rfl
    simp [Raw.build, h1, h2, e]
theorem fsub (w : AluW) : Statement (.fsub w) :=
  of_alu rfl rfl fun r h1 h2 => by
    have e : List.lookup 113 aluCtors = some Instr.fsub := rfl
    simp [Raw.build, h1, h2, e]
theorem fmul (w : AluW) : Statement (.fmul w) :=
  of_alu rfl rfl fun r h1 h2 => by
    have e : List.lookup 114 aluCtors = some Instr.fmul := rfl
    simp [Raw.build, h1, h2, e]
theorem ffma (w : AluW) : Statement (.ffma w) :=
  of_alu rfl rfl fun r h1 h2 => by
    have e : List.lookup 115 aluCtors = some Instr.ffma := rfl
    simp [Raw.build, h1, h2, e]
theorem fmin (w : AluW) : Statement (.fmin w) :=
  of_alu rfl rfl fun r h1 h2 => by
    have e : List.lookup 116 aluCtors = some Instr.fmin := rfl
    simp [Raw.build, h1, h2, e]
theorem fmax (w : AluW) : Statement (.fmax w) :=
  of_alu rfl rfl fun r h1 h2 => by
    have e : List.lookup 117 aluCtors = some Instr.fmax := rfl
    simp [Raw.build, h1, h2, e]
theorem fcmp (w : AluW) : Statement (.fcmp w) :=
  of_alu rfl rfl fun r h1 h2 => by
    have e : List.lookup 118 aluCtors = some Instr.fcmp := rfl
    simp [Raw.build, h1, h2, e]
theorem fclass (w : AluW) : Statement (.fclass w) :=
  of_alu rfl rfl fun r h1 h2 => by
    have e : List.lookup 119 aluCtors = some Instr.fclass := rfl
    simp [Raw.build, h1, h2, e]
theorem frcp (w : AluW) : Statement (.frcp w) :=
  of_alu rfl rfl fun r h1 h2 => by
    have e : List.lookup 120 aluCtors = some Instr.frcp := rfl
    simp [Raw.build, h1, h2, e]
theorem frsq (w : AluW) : Statement (.frsq w) :=
  of_alu rfl rfl fun r h1 h2 => by
    have e : List.lookup 121 aluCtors = some Instr.frsq := rfl
    simp [Raw.build, h1, h2, e]
theorem fsqrt (w : AluW) : Statement (.fsqrt w) :=
  of_alu rfl rfl fun r h1 h2 => by
    have e : List.lookup 122 aluCtors = some Instr.fsqrt := rfl
    simp [Raw.build, h1, h2, e]
theorem fex2 (w : AluW) : Statement (.fex2 w) :=
  of_alu rfl rfl fun r h1 h2 => by
    have e : List.lookup 123 aluCtors = some Instr.fex2 := rfl
    simp [Raw.build, h1, h2, e]
theorem flg2 (w : AluW) : Statement (.flg2 w) :=
  of_alu rfl rfl fun r h1 h2 => by
    have e : List.lookup 124 aluCtors = some Instr.flg2 := rfl
    simp [Raw.build, h1, h2, e]
theorem fsin (w : AluW) : Statement (.fsin w) :=
  of_alu rfl rfl fun r h1 h2 => by
    have e : List.lookup 125 aluCtors = some Instr.fsin := rfl
    simp [Raw.build, h1, h2, e]
theorem fcos (w : AluW) : Statement (.fcos w) :=
  of_alu rfl rfl fun r h1 h2 => by
    have e : List.lookup 126 aluCtors = some Instr.fcos := rfl
    simp [Raw.build, h1, h2, e]
theorem frnd (w : AluW) : Statement (.frnd w) :=
  of_alu rfl rfl fun r h1 h2 => by
    have e : List.lookup 127 aluCtors = some Instr.frnd := rfl
    simp [Raw.build, h1, h2, e]
theorem fcvt (w : AluW) : Statement (.fcvt w) :=
  of_alu rfl rfl fun r h1 h2 => by
    have e : List.lookup 128 aluCtors = some Instr.fcvt := rfl
    simp [Raw.build, h1, h2, e]
theorem ftoi (w : AluW) : Statement (.ftoi w) :=
  of_alu rfl rfl fun r h1 h2 => by
    have e : List.lookup 129 aluCtors = some Instr.ftoi := rfl
    simp [Raw.build, h1, h2, e]
theorem itof (w : AluW) : Statement (.itof w) :=
  of_alu rfl rfl fun r h1 h2 => by
    have e : List.lookup 130 aluCtors = some Instr.itof := rfl
    simp [Raw.build, h1, h2, e]
theorem fpack (w : AluW) : Statement (.fpack w) :=
  of_alu rfl rfl fun r h1 h2 => by
    have e : List.lookup 131 aluCtors = some Instr.fpack := rfl
    simp [Raw.build, h1, h2, e]
theorem funpk (w : AluW) : Statement (.funpk w) :=
  of_alu rfl rfl fun r h1 h2 => by
    have e : List.lookup 132 aluCtors = some Instr.funpk := rfl
    simp [Raw.build, h1, h2, e]
theorem fldexp (w : AluW) : Statement (.fldexp w) :=
  of_alu rfl rfl fun r h1 h2 => by
    have e : List.lookup 133 aluCtors = some Instr.fldexp := rfl
    simp [Raw.build, h1, h2, e]
theorem fdot2 (w : AluW) : Statement (.fdot2 w) :=
  of_alu rfl rfl fun r h1 h2 => by
    have e : List.lookup 134 aluCtors = some Instr.fdot2 := rfl
    simp [Raw.build, h1, h2, e]
theorem ffma2 (w : AluW) : Statement (.ffma2 w) :=
  of_alu rfl rfl fun r h1 h2 => by
    have e : List.lookup 135 aluCtors = some Instr.ffma2 := rfl
    simp [Raw.build, h1, h2, e]
theorem fadd2 (w : AluW) : Statement (.fadd2 w) :=
  of_alu rfl rfl fun r h1 h2 => by
    have e : List.lookup 136 aluCtors = some Instr.fadd2 := rfl
    simp [Raw.build, h1, h2, e]
theorem fmul2 (w : AluW) : Statement (.fmul2 w) :=
  of_alu rfl rfl fun r h1 h2 => by
    have e : List.lookup 137 aluCtors = some Instr.fmul2 := rfl
    simp [Raw.build, h1, h2, e]
theorem vldlit (w : CtlW) : Statement (.vldlit w) :=
  of_ctl rfl (fun _ => .inl ⟨rfl, by decide⟩) fun r h1 h2 _ _ _ => by
    have e : List.lookup 85 ctlCtors = some Instr.vldlit := rfl
    simp [Raw.build, h1, h2, e]
theorem ld (w : MemW) : Statement (.ld w) :=
  of_mem rfl fun r h1 h2 => by
    have e : List.lookup 160 memCtors = some Instr.ld := rfl
    simp [Raw.build, h1, h2, e]
theorem st (w : MemW) : Statement (.st w) :=
  of_mem rfl fun r h1 h2 => by
    have e : List.lookup 161 memCtors = some Instr.st := rfl
    simp [Raw.build, h1, h2, e]
theorem ldu (w : MemW) : Statement (.ldu w) :=
  of_mem rfl fun r h1 h2 => by
    have e : List.lookup 162 memCtors = some Instr.ldu := rfl
    simp [Raw.build, h1, h2, e]
theorem stu (w : MemW) : Statement (.stu w) :=
  of_mem rfl fun r h1 h2 => by
    have e : List.lookup 163 memCtors = some Instr.stu := rfl
    simp [Raw.build, h1, h2, e]
theorem ldtag (w : MemW) : Statement (.ldtag w) :=
  of_mem rfl fun r h1 h2 => by
    have e : List.lookup 164 memCtors = some Instr.ldtag := rfl
    simp [Raw.build, h1, h2, e]
theorem sttag (w : MemW) : Statement (.sttag w) :=
  of_mem rfl fun r h1 h2 => by
    have e : List.lookup 165 memCtors = some Instr.sttag := rfl
    simp [Raw.build, h1, h2, e]
theorem atom (w : MemW) : Statement (.atom w) :=
  of_mem rfl fun r h1 h2 => by
    have e : List.lookup 166 memCtors = some Instr.atom := rfl
    simp [Raw.build, h1, h2, e]
theorem atomu (w : MemW) : Statement (.atomu w) :=
  of_mem rfl fun r h1 h2 => by
    have e : List.lookup 167 memCtors = some Instr.atomu := rfl
    simp [Raw.build, h1, h2, e]
theorem cas (w : MemW) : Statement (.cas w) :=
  of_mem rfl fun r h1 h2 => by
    have e : List.lookup 168 memCtors = some Instr.cas := rfl
    simp [Raw.build, h1, h2, e]
theorem cadd (w : MemW) : Statement (.cadd w) :=
  of_mem rfl fun r h1 h2 => by
    have e : List.lookup 169 memCtors = some Instr.cadd := rfl
    simp [Raw.build, h1, h2, e]
theorem clrc (w : MemW) : Statement (.clrc w) :=
  of_mem rfl fun r h1 h2 => by
    have e : List.lookup 170 memCtors = some Instr.clrc := rfl
    simp [Raw.build, h1, h2, e]
theorem fence (w : MemW) : Statement (.fence w) :=
  of_mem rfl fun r h1 h2 => by
    have e : List.lookup 171 memCtors = some Instr.fence := rfl
    simp [Raw.build, h1, h2, e]
theorem pref (w : MemW) : Statement (.pref w) :=
  of_mem rfl fun r h1 h2 => by
    have e : List.lookup 172 memCtors = some Instr.pref := rfl
    simp [Raw.build, h1, h2, e]
theorem lck (w : MemW) : Statement (.lck w) :=
  of_mem rfl fun r h1 h2 => by
    have e : List.lookup 173 memCtors = some Instr.lck := rfl
    simp [Raw.build, h1, h2, e]
theorem ulck (w : MemW) : Statement (.ulck w) :=
  of_mem rfl fun r h1 h2 => by
    have e : List.lookup 174 memCtors = some Instr.ulck := rfl
    simp [Raw.build, h1, h2, e]
theorem cmo (w : MemW) : Statement (.cmo w) :=
  of_mem rfl fun r h1 h2 => by
    have e : List.lookup 175 memCtors = some Instr.cmo := rfl
    simp [Raw.build, h1, h2, e]
theorem waitc (w : MemW) : Statement (.waitc w) :=
  of_mem rfl fun r h1 h2 => by
    have e : List.lookup 176 memCtors = some Instr.waitc := rfl
    simp [Raw.build, h1, h2, e]
theorem bar (w : MemW) : Statement (.bar w) :=
  of_mem rfl fun r h1 h2 => by
    have e : List.lookup 177 memCtors = some Instr.bar := rfl
    simp [Raw.build, h1, h2, e]
theorem bara (w : MemW) : Statement (.bara w) :=
  of_mem rfl fun r h1 h2 => by
    have e : List.lookup 178 memCtors = some Instr.bara := rfl
    simp [Raw.build, h1, h2, e]
theorem barw (w : MemW) : Statement (.barw w) :=
  of_mem rfl fun r h1 h2 => by
    have e : List.lookup 179 memCtors = some Instr.barw := rfl
    simp [Raw.build, h1, h2, e]
theorem bari (w : MemW) : Statement (.bari w) :=
  of_mem rfl fun r h1 h2 => by
    have e : List.lookup 180 memCtors = some Instr.bari := rfl
    simp [Raw.build, h1, h2, e]
theorem gget (w : MemW) : Statement (.gget w) :=
  of_mem rfl fun r h1 h2 => by
    have e : List.lookup 181 memCtors = some Instr.gget := rfl
    simp [Raw.build, h1, h2, e]
theorem gset (w : MemW) : Statement (.gset w) :=
  of_mem rfl fun r h1 h2 => by
    have e : List.lookup 182 memCtors = some Instr.gset := rfl
    simp [Raw.build, h1, h2, e]
theorem gadd (w : MemW) : Statement (.gadd w) :=
  of_mem rfl fun r h1 h2 => by
    have e : List.lookup 183 memCtors = some Instr.gadd := rfl
    simp [Raw.build, h1, h2, e]
theorem rput (w : MemW) : Statement (.rput w) :=
  of_mem rfl fun r h1 h2 => by
    have e : List.lookup 192 memCtors = some Instr.rput := rfl
    simp [Raw.build, h1, h2, e]
theorem rtake (w : MemW) : Statement (.rtake w) :=
  of_mem rfl fun r h1 h2 => by
    have e : List.lookup 193 memCtors = some Instr.rtake := rfl
    simp [Raw.build, h1, h2, e]
theorem rdone (w : MemW) : Statement (.rdone w) :=
  of_mem rfl fun r h1 h2 => by
    have e : List.lookup 194 memCtors = some Instr.rdone := rfl
    simp [Raw.build, h1, h2, e]
theorem rstat (w : MemW) : Statement (.rstat w) :=
  of_mem rfl fun r h1 h2 => by
    have e : List.lookup 195 memCtors = some Instr.rstat := rfl
    simp [Raw.build, h1, h2, e]
theorem fjoin (w : MemW) : Statement (.fjoin w) :=
  of_mem rfl fun r h1 h2 => by
    have e : List.lookup 196 memCtors = some Instr.fjoin := rfl
    simp [Raw.build, h1, h2, e]
theorem fleave (w : MemW) : Statement (.fleave w) :=
  of_mem rfl fun r h1 h2 => by
    have e : List.lookup 197 memCtors = some Instr.fleave := rfl
    simp [Raw.build, h1, h2, e]
theorem fld (w : MemW) : Statement (.fld w) :=
  of_mem rfl fun r h1 h2 => by
    have e : List.lookup 198 memCtors = some Instr.fld := rfl
    simp [Raw.build, h1, h2, e]
theorem fset (w : MemW) : Statement (.fset w) :=
  of_mem rfl fun r h1 h2 => by
    have e : List.lookup 199 memCtors = some Instr.fset := rfl
    simp [Raw.build, h1, h2, e]
theorem chkw (w : EngW) : Statement (.chkw w) :=
  of_eng rfl fun r h1 h2 => by
    have e : List.lookup 208 engCtors = some Instr.chkw := rfl
    simp [Raw.build, h1, h2, e]
theorem chkt (w : EngW) : Statement (.chkt w) :=
  of_eng rfl fun r h1 h2 => by
    have e : List.lookup 209 engCtors = some Instr.chkt := rfl
    simp [Raw.build, h1, h2, e]
theorem mma (w : EngW) : Statement (.mma w) :=
  of_eng rfl fun r h1 h2 => by
    have e : List.lookup 210 engCtors = some Instr.mma := rfl
    simp [Raw.build, h1, h2, e]
theorem mmas (w : EngW) : Statement (.mmas w) :=
  of_eng rfl fun r h1 h2 => by
    have e : List.lookup 211 engCtors = some Instr.mmas := rfl
    simp [Raw.build, h1, h2, e]
theorem ald (w : EngW) : Statement (.ald w) :=
  of_eng rfl fun r h1 h2 => by
    have e : List.lookup 212 engCtors = some Instr.ald := rfl
    simp [Raw.build, h1, h2, e]
theorem ast (w : EngW) : Statement (.ast w) :=
  of_eng rfl fun r h1 h2 => by
    have e : List.lookup 213 engCtors = some Instr.ast := rfl
    simp [Raw.build, h1, h2, e]
theorem azero (w : EngW) : Statement (.azero w) :=
  of_eng rfl fun r h1 h2 => by
    have e : List.lookup 214 engCtors = some Instr.azero := rfl
    simp [Raw.build, h1, h2, e]
theorem await (w : EngW) : Statement (.await w) :=
  of_eng rfl fun r h1 h2 => by
    have e : List.lookup 215 engCtors = some Instr.await := rfl
    simp [Raw.build, h1, h2, e]
theorem oprdy (w : EngW) : Statement (.oprdy w) :=
  of_eng rfl fun r h1 h2 => by
    have e : List.lookup 216 engCtors = some Instr.oprdy := rfl
    simp [Raw.build, h1, h2, e]
theorem phint (w : EngW) : Statement (.phint w) :=
  of_eng rfl fun r h1 h2 => by
    have e : List.lookup 217 engCtors = some Instr.phint := rfl
    simp [Raw.build, h1, h2, e]
theorem tqadd (w : EngW) : Statement (.tqadd w) :=
  of_eng rfl fun r h1 h2 => by
    have e : List.lookup 218 engCtors = some Instr.tqadd := rfl
    simp [Raw.build, h1, h2, e]
theorem asave (w : EngW) : Statement (.asave w) :=
  of_eng rfl fun r h1 h2 => by
    have e : List.lookup 219 engCtors = some Instr.asave := rfl
    simp [Raw.build, h1, h2, e]
theorem arest (w : EngW) : Statement (.arest w) :=
  of_eng rfl fun r h1 h2 => by
    have e : List.lookup 220 engCtors = some Instr.arest := rfl
    simp [Raw.build, h1, h2, e]
theorem launch (w : EngW) : Statement (.launch w) :=
  of_eng rfl fun r h1 h2 => by
    have e : List.lookup 224 engCtors = some Instr.launch := rfl
    simp [Raw.build, h1, h2, e]
theorem launchi (w : EngW) : Statement (.launchi w) :=
  of_eng rfl fun r h1 h2 => by
    have e : List.lookup 225 engCtors = some Instr.launchi := rfl
    simp [Raw.build, h1, h2, e]
theorem waitg (w : EngW) : Statement (.waitg w) :=
  of_eng rfl fun r h1 h2 => by
    have e : List.lookup 226 engCtors = some Instr.waitg := rfl
    simp [Raw.build, h1, h2, e]
theorem fresume (w : EngW) : Statement (.fresume w) :=
  of_eng rfl fun r h1 h2 => by
    have e : List.lookup 227 engCtors = some Instr.fresume := rfl
    simp [Raw.build, h1, h2, e]
theorem genbump (w : EngW) : Statement (.genbump w) :=
  of_eng rfl fun r h1 h2 => by
    have e : List.lookup 228 engCtors = some Instr.genbump := rfl
    simp [Raw.build, h1, h2, e]
theorem tlbinv (w : EngW) : Statement (.tlbinv w) :=
  of_eng rfl fun r h1 h2 => by
    have e : List.lookup 229 engCtors = some Instr.tlbinv := rfl
    simp [Raw.build, h1, h2, e]
theorem wrd (w : EngW) : Statement (.wrd w) :=
  of_eng rfl fun r h1 h2 => by
    have e : List.lookup 230 engCtors = some Instr.wrd := rfl
    simp [Raw.build, h1, h2, e]
theorem wwr (w : EngW) : Statement (.wwr w) :=
  of_eng rfl fun r h1 h2 => by
    have e : List.lookup 231 engCtors = some Instr.wwr := rfl
    simp [Raw.build, h1, h2, e]
theorem halt (w : EngW) : Statement (.halt w) :=
  of_eng rfl fun r h1 h2 => by
    have e : List.lookup 232 engCtors = some Instr.halt := rfl
    simp [Raw.build, h1, h2, e]
theorem snap (w : EngW) : Statement (.snap w) :=
  of_eng rfl fun r h1 h2 => by
    have e : List.lookup 233 engCtors = some Instr.snap := rfl
    simp [Raw.build, h1, h2, e]
theorem yieldExpiry (core slot lane : Nat) : Statement (.yieldExpiry core slot lane) := of_event rfl
theorem waitcResend (req : Nat) : Statement (.waitcResend req) := of_event rfl
theorem teamRegisterPropagate (team core g : Nat) : Statement (.teamRegisterPropagate team core g) := of_event rfl
theorem issueDecision (core quarter : Nat) : Statement (.issueDecision core quarter) := of_event rfl
theorem storeDrain (core slot idx : Nat) : Statement (.storeDrain core slot idx) := of_event rfl
theorem writeBack (core sector : Nat) (mask : BitVec 64) : Statement (.writeBack core sector mask) := of_event rfl
theorem drop (core sector : Nat) (mask : BitVec 64) : Statement (.drop core sector mask) := of_event rfl
theorem coreViewFill (core sector : Nat) (uo : Bool) (asid : Nat) : Statement (.coreViewFill core sector uo asid) := of_event rfl
theorem loadSatisfy (req : Nat) : Statement (.loadSatisfy req) := of_event rfl
theorem readModifyWrite (req : Nat) : Statement (.readModifyWrite req) := of_event rfl
theorem engineStep (q : EngineRef) : Statement (.engineStep q) := of_event rfl
theorem pageWalk (req : Nat) : Statement (.pageWalk req) := of_event rfl
theorem probeAnswer (req : Nat) : Statement (.probeAnswer req) := of_event rfl
theorem booking (req level wait : Nat) : Statement (.booking req level wait) := of_event rfl
theorem controllerAdmission (req : Nat) : Statement (.controllerAdmission req) := of_event rfl
theorem dramActivate (stack channel row : Nat) : Statement (.dramActivate stack channel row) := of_event rfl
theorem dataLanding (req : Nat) : Statement (.dataLanding req) := of_event rfl
theorem promiseExpiry (req : Nat) : Statement (.promiseExpiry req) := of_event rfl
theorem homePerform (req : Nat) (err : Bool) : Statement (.homePerform req err) := of_event rfl
theorem staleRetranslate (req : Nat) : Statement (.staleRetranslate req) := of_event rfl
theorem correctedErrorRetry (req : Nat) : Statement (.correctedErrorRetry req) := of_event rfl
theorem parityRefetch (req : Nat) : Statement (.parityRefetch req) := of_event rfl
theorem linkretry (req : Nat) : Statement (.linkretry req) := of_event rfl
theorem cellLineWriteback (block : Nat) : Statement (.cellLineWriteback block) := of_event rfl
theorem hostSnoop (line : Nat) : Statement (.hostSnoop line) := of_event rfl
theorem hostMemWrite (tenant off : Nat) (bytes : List (BitVec 8)) : Statement (.hostMemWrite tenant off bytes) := of_event rfl
theorem hostMemRead (tenant off len : Nat) : Statement (.hostMemRead tenant off len) := of_event rfl
theorem peerRequestArrival (r : PeerReq) : Statement (.peerRequestArrival r) := of_event rfl
theorem peerUnreachable (dev : Nat) : Statement (.peerUnreachable dev) := of_event rfl
theorem faultPost (idx : Nat) : Statement (.faultPost idx) := of_event rfl
theorem faultResume (tenant : Nat) : Statement (.faultResume tenant) := of_event rfl
theorem genbumpHomeUpdate (asid place : Nat) : Statement (.genbumpHomeUpdate asid place) := of_event rfl
theorem genbumpAck (asid place : Nat) : Statement (.genbumpAck asid place) := of_event rfl
theorem genbumpComplete (asid : Nat) : Statement (.genbumpComplete asid) := of_event rfl
theorem shuttleCommand (core slot idx : Nat) : Statement (.shuttleCommand core slot idx) := of_event rfl
theorem shuttleChunk (core ch : Nat) (chunk : ChunkCopy) : Statement (.shuttleChunk core ch chunk) := of_event rfl
theorem shuttleCommandComplete (core ch : Nat) : Statement (.shuttleCommandComplete core ch) := of_event rfl
theorem multicastAck (core ch chunk member : Nat) : Statement (.multicastAck core ch chunk member) := of_event rfl
theorem ringPutAdmit (core ring : Nat) : Statement (.ringPutAdmit core ring) := of_event rfl
theorem ringSlotFilled (core ring : Nat) : Statement (.ringSlotFilled core ring) := of_event rfl
theorem ringReshape (pw : Nat) : Statement (.ringReshape pw) := of_event rfl
theorem ringModeWrite (pw : Nat) : Statement (.ringModeWrite pw) := of_event rfl
theorem hostRingDoorbell (tenant core ring lenm1 : Nat) : Statement (.hostRingDoorbell tenant core ring lenm1) := of_event rfl
theorem foldRequestArrival (req : Nat) : Statement (.foldRequestArrival req) := of_event rfl
theorem foldRoundClose (die fold : Nat) : Statement (.foldRoundClose die fold) := of_event rfl
theorem foldTimerExpiry (die fold : Nat) : Statement (.foldTimerExpiry die fold) := of_event rfl
theorem foldFill (req : Nat) : Statement (.foldFill req) := of_event rfl
theorem foldWindowDelivery (die fold idx member : Nat) : Statement (.foldWindowDelivery die fold idx member) := of_event rfl
theorem foldWindowAck (die fold idx member : Nat) : Statement (.foldWindowAck die fold idx member) := of_event rfl
theorem taskDispatch (core : Nat) : Statement (.taskDispatch core) := of_event rfl
theorem counterRecheck (meadow tenant queue idx : Nat) : Statement (.counterRecheck meadow tenant queue idx) := of_event rfl
theorem taskComplete (core : Nat) : Statement (.taskComplete core) := of_event rfl
theorem loomEntryBegin (core : Nat) : Statement (.loomEntryBegin core) := of_event rfl
theorem loomEntryComplete (core : Nat) : Statement (.loomEntryComplete core) := of_event rfl
theorem declarationStart (core ctx : Nat) : Statement (.declarationStart core ctx) := of_event rfl
theorem declarationExpiry (core ctx : Nat) : Statement (.declarationExpiry core ctx) := of_event rfl
theorem launchAnswer (core slot : Nat) : Statement (.launchAnswer core slot) := of_event rfl
theorem launchiDequeue (grid : Nat) : Statement (.launchiDequeue grid) := of_event rfl
theorem queueRotation : Statement (.queueRotation) := of_event rfl
theorem teamPlacement (grid : Nat) : Statement (.teamPlacement grid) := of_event rfl
theorem thermalSample (readings : List (Nat × Nat)) : Statement (.thermalSample readings) := of_event rfl
theorem droopEvent (core : Nat) : Statement (.droopEvent core) := of_event rfl
theorem priorityPreemption (grid : Nat) : Statement (.priorityPreemption grid) := of_event rfl
theorem preemptRequest (team : Nat) : Statement (.preemptRequest team) := of_event rfl
theorem teamStart (team : Nat) : Statement (.teamStart team) := of_event rfl
theorem teamRetire (team : Nat) : Statement (.teamRetire team) := of_event rfl
theorem gridComplete (grid : Nat) : Statement (.gridComplete grid) := of_event rfl
theorem teamStop (team : Nat) : Statement (.teamStop team) := of_event rfl
theorem teamSave (team : Nat) : Statement (.teamSave team) := of_event rfl
theorem teamResume (team : Nat) : Statement (.teamResume team) := of_event rfl
theorem haltRequest (team : Nat) (ordinal : Option Nat) : Statement (.haltRequest team ordinal) := of_event rfl
theorem dump (team asid va size : Nat) : Statement (.dump team asid va size) := of_event rfl
theorem snapshotLatch (block : Nat) : Statement (.snapshotLatch block) := of_event rfl
theorem snapcntWrite (val : BitVec 64) : Statement (.snapcntWrite val) := of_event rfl
theorem hmaskWrite (pw : Nat) : Statement (.hmaskWrite pw) := of_event rfl
theorem bplogHeadWrite (pw : Nat) : Statement (.bplogHeadWrite pw) := of_event rfl
theorem errinjWrite (pw : Nat) : Statement (.errinjWrite pw) := of_event rfl
theorem contextRegisterWrite (pw : Nat) : Statement (.contextRegisterWrite pw) := of_event rfl
theorem contextCounterUpdate (ctx idx : Nat) : Statement (.contextCounterUpdate ctx idx) := of_event rfl
theorem registerWrite (r : RegRef) (val : BitVec 64) : Statement (.registerWrite r val) := of_event rfl
theorem checkpoint : Statement (.checkpoint) := of_event rfl
theorem cellwb : Statement (.cellwb) := of_event rfl
theorem snapCommand : Statement (.snapCommand) := of_event rfl
theorem rate : Statement (.rate) := of_event rfl
theorem peerroute : Statement (.peerroute) := of_event rfl
theorem unknownCommand : Statement (.unknownCommand) := of_event rfl
theorem hbmRetrain (stack : Nat) : Statement (.hbmRetrain stack) := of_event rfl
theorem powerSample (milliwatts : Nat) : Statement (.powerSample milliwatts) := of_event rfl
theorem clockStep : Statement (.clockStep) := of_event rfl
theorem thermalThrottle (core deg : Nat) : Statement (.thermalThrottle core deg) := of_event rfl
theorem mainPowerLoss : Statement (.mainPowerLoss) := of_event rfl
theorem deviceReset : Statement (.deviceReset) := of_event rfl
theorem stageAdvance : Statement (.stageAdvance) := of_event rfl
theorem imageLoad (ctx : Nat) (image : List (BitVec 8)) : Statement (.imageLoad ctx image) := of_event rfl
theorem getVersion : Statement (.getVersion) := of_event rfl
theorem getCapabilities : Statement (.getCapabilities) := of_event rfl
theorem negotiateAlgorithms (asym hash : Nat) : Statement (.negotiateAlgorithms asym hash) := of_event rfl
theorem getDigests : Statement (.getDigests) := of_event rfl
theorem getCertificate (slot off len : Nat) : Statement (.getCertificate slot off len) := of_event rfl
theorem challenge (slot nonce : Nat) : Statement (.challenge slot nonce) := of_event rfl
theorem getMeasurements (index : Nat) : Statement (.getMeasurements index) := of_event rfl
theorem debuggerResume (team : Nat) : Statement (.debuggerResume team) := of_event rfl
theorem systemSoftwareEndsGrid (grid : Nat) : Statement (.systemSoftwareEndsGrid grid) := of_event rfl
theorem contextDestroyed (ctx : Nat) : Statement (.contextDestroyed ctx) := of_event rfl
theorem vectorUnmask (tenant vec : Nat) : Statement (.vectorUnmask tenant vec) := of_event rfl
theorem hbmRetrainComplete (stack : Nat) : Statement (.hbmRetrainComplete stack) := of_event rfl

end Sys2Proof.Laws.Encodes
end

