-- ==== Sys2Proof/Laws/Requests.lean ====
section
/-!
SUPPORT. The list of requests, and what the end of a request leaves alone: bytes, Store Queues and views.
-/
namespace Sys2Proof.Machine

theorem find_map_same (rs : List Req) (id : Nat) (r : Req) (hid : r.id = id) (h : (rs.find? fun q => decide (q.id = id)).isSome = true) :
    (rs.map fun q => if q.id = id then r else q).find? (fun q => decide (q.id = id)) = some r := by
  induction rs with
  | nil => simp at h
  | cons q rs ih =>
    by_cases e : q.id = id
    · simp [e, hid]
    · simp only [List.map_cons, e, if_false]
      rw [List.find?_cons_of_neg (by simp [e])]
      rw [List.find?_cons_of_neg (by simp [e])] at h
      exact ih h

/-- A request written over itself. -/
theorem req_setReq_same {s : State} {r q : Req} (h : s.req r.id = some q) : (s.setReq r).req r.id = some r :=
  find_map_same s.reqs r.id r rfl (by show (s.req r.id).isSome = true; rw [h]; rfl)

theorem req_setReq_other (s : State) (r : Req) {j : Nat} (h : j ≠ r.id) : (s.setReq r).req j = s.req j := by
  show (s.reqs.map fun q => if q.id = r.id then r else q).find? (fun q => decide (q.id = j)) = s.reqs.find? fun q => decide (q.id = j)
  generalize s.reqs = rs
  induction rs with
  | nil => rfl
  | cons q rs ih =>
    simp only [List.map_cons]
    by_cases e : q.id = r.id
    · rw [if_pos e, List.find?_cons_of_neg (by simp; exact fun x => h x.symm), List.find?_cons_of_neg (by simp; omega)]
      exact ih
    · rw [if_neg e]
      by_cases e' : q.id = j
      · rw [List.find?_cons_of_pos (by simp [e']), List.find?_cons_of_pos (by simp [e'])]
      · rw [List.find?_cons_of_neg (by simp [e']), List.find?_cons_of_neg (by simp [e'])]
        exact ih

/-- The id of a request that is found is the id asked for. -/
theorem req_id {s : State} {id : Nat} {r : Req} (h : s.req id = some r) : r.id = id := by
  have := List.find?_some h
  simpa using this

theorem req_dropReq (s : State) (id : Nat) : (s.dropReq id).req id = none := by
  show (s.reqs.filter fun r => r.id != id).find? (fun q => decide (q.id = id)) = none
  rw [List.find?_eq_none]
  intro q hq
  have := (List.mem_filter.1 hq).2
  simpa using this

/-! ### What ends of requests leave alone -/

/-- A view has lost no dirty byte and gained nothing. -/
def ViewShrinks (v u : Tab ViewByte) : Prop := (∀ e ∈ u, e ∈ v) ∧ ∀ e ∈ v, e.2.dirty = true → e ∈ u

theorem ViewShrinks.refl (v : Tab ViewByte) : ViewShrinks v v := ⟨fun _ h => h, fun _ h _ => h⟩

theorem ViewShrinks.trans {v u x : Tab ViewByte} (h : ViewShrinks v u) (g : ViewShrinks u x) : ViewShrinks v x :=
  ⟨fun e he => h.1 e (g.1 e he), fun e he hd => g.2 e (h.2 e he hd) hd⟩

/-- No byte and no Store Queue has changed, and of views only clean copies are gone. -/
def Settles (s t : State) : Prop :=
  SameBytes s t ∧ (∀ k, (t.weft k).sq = (s.weft k).sq) ∧ ∀ c, ViewShrinks (s.core c).view (t.core c).view

theorem Settles.refl (s : State) : Settles s s := ⟨⟨fun _ => rfl, fun _ _ => rfl⟩, fun _ => rfl, fun _ => ViewShrinks.refl _⟩

theorem Settles.trans {s t u : State} (h : Settles s t) (g : Settles t u) : Settles s u :=
  ⟨h.1.trans g.1, fun k => (g.2.1 k).trans (h.2.1 k), fun c => (h.2.2 c).trans (g.2.2 c)⟩

theorem settles_mapWeft (s : State) (k : Nat) (f : Weft → Weft) (hf : ∀ w, (f w).sq = w.sq) : Settles s (s.mapWeft k f) := by
  refine ⟨⟨fun _ => rfl, fun _ _ => rfl⟩, fun j => ?_, fun _ => ViewShrinks.refl _⟩
  by_cases h : j = k
  · subst h
    show (lookD j ({} : Weft) (put j (f (s.weft j)) s.wefts)).sq = _
    rw [lookD_put, if_pos rfl, hf]
  · rw [weft_mapWeft_other f h]

theorem settles_shrink (s : State) (k : Nat) (f : Core → Core) (hf : ∀ c, (f c).spad = c.spad ∧ ViewShrinks c.view (f c).view) : Settles s (s.mapCore k f) := by
  refine ⟨⟨fun _ => rfl, fun c a => ?_⟩, fun _ => rfl, fun c => ?_⟩
  · rw [core_mapCore]; split
    · next h => subst h; rw [(hf _).1]
    · rfl
  · rw [core_mapCore]; split
    · next h => subst h; exact (hf _).2
    · exact ViewShrinks.refl _

theorem settles_mapCore (s : State) (k : Nat) (f : Core → Core) (hf : ∀ c, (f c).spad = c.spad ∧ (f c).view = c.view) : Settles s (s.mapCore k f) :=
  settles_shrink s k f fun c => ⟨(hf c).1, by rw [(hf c).2]; exact ViewShrinks.refl _⟩

/-- Clean copies dropped. -/
theorem dropClean_shrinks (c : Core) (p : Nat → ViewByte → Bool) : ViewShrinks c.view (c.dropClean p).view := by
  unfold Core.dropClean
  refine ⟨fun e he => (List.mem_filter.1 he).1, fun e he hd => List.mem_filter.2 ⟨he, by simp [hd]⟩⟩

theorem sweep_settles (s : State) (core : Nat) : Settles s (s.sweep core) := by
  unfold State.sweep
  split
  · exact settles_shrink s core _ fun c => ⟨rfl, dropClean_shrinks c _⟩
  · exact Settles.refl s

theorem settles_setReq (s : State) (r : Req) : Settles s (s.setReq r) := Settles.refl s

theorem eachLane_sq (w : Weft) (ls : List Nat) (f : Nat → Lane → Lane) : (w.eachLane ls f).sq = w.sq := by
  rw [eachLane_eq]

theorem landS_sq (r : Req) (n v : Nat) (w : Weft) : (landS r n v w).sq = w.sq := by
  unfold landS
  generalize List.range r.sCount = xs
  induction xs generalizing w with
  | nil => rfl
  | cons x xs ih => rw [List.foldl_cons, ih]; rfl

theorem parts_sq (g : Weft → Part → Weft) (hg : ∀ w p, (g w p).sq = w.sq) (ps : List Part) (w : Weft) : (ps.foldl g w).sq = w.sq := by
  induction ps generalizing w with
  | nil => rfl
  | cons p ps ih => rw [List.foldl_cons, ih, hg]

theorem deliver_settles (s : State) (r : Req) : Settles s (s.deliver r) := by
  unfold State.deliver
  simp only
  split
  · exact Settles.refl s
  · exact settles_mapWeft s _ _ fun w =>
      parts_sq (fun w p => w.setLane p.lane (landV w.stk r p (w.lane p.lane))) (fun _ _ => rfl) _ w
  · exact settles_mapWeft s _ _ fun w => landS_sq _ _ _ w
  · exact settles_mapWeft s _ _ fun _ => rfl
  · exact settles_mapWeft s _ _ fun w => eachLane_sq w _ _

theorem reqT_settles (s : State) (r : Req) (st v : Nat) : Settles s (s.reqT r st v) := by
  unfold State.reqT
  split
  · exact Settles.refl s
  · exact settles_mapWeft s _ _ fun w => eachLane_sq w _ _

theorem dropT_settles (s : State) (r : Req) : Settles s (s.dropT r) := by
  unfold State.dropT
  split
  · exact Settles.refl s
  · exact settles_mapWeft s _ _ fun w => eachLane_sq w _ _

theorem logLanding_settles (s : State) (r : Req) : Settles s (s.logLanding r) :=
  settles_mapCore s _ _ fun _ => ⟨rfl, rfl⟩

/-- A change of every weft's entry that keeps its queue. -/
theorem weft_map (s : State) (g : Weft → Weft) (hg : ∀ w, (g w).sq = w.sq) (p : Weft → Bool) (k : Nat) :
    (({ s with wefts := s.wefts.map fun e => if p e.2 then (e.1, g e.2) else e } : State).weft k).sq = (s.weft k).sq := by
  show (lookD k ({} : Weft) (s.wefts.map fun e => if p e.2 then (e.1, g e.2) else e)).sq = (lookD k ({} : Weft) s.wefts).sq
  generalize s.wefts = ws
  induction ws with
  | nil => rfl
  | cons e ws ih =>
    obtain ⟨j, w⟩ := e
    simp only [List.map_cons]
    by_cases h : k = j
    · subst h
      split
      · simp [lookD, look, hg]
      · simp [lookD, look]
    · have : ∀ (x : Weft) t, (lookD k ({} : Weft) ((j, x) :: t)) = lookD k ({} : Weft) t := by
        intro x t; simp [lookD, look, h]
      split <;> rw [this, this] <;> exact ih

theorem retireReq_settles (s : State) (r : Req) : Settles s (s.retireReq r) := by
  unfold State.retireReq
  simp only
  refine ((dropT_settles s r).trans ((Settles.refl _).trans (sweep_settles ((s.dropT r).dropReq r.id) r.agent.core))).trans
    ⟨⟨fun _ => rfl, fun _ _ => rfl⟩, fun k => ?_, fun _ => ViewShrinks.refl _⟩
  have := weft_map (((s.dropT r).dropReq r.id).sweep r.agent.core) (fun w => { w with hold := .none }) (fun _ => rfl) (fun w => decide (w.hold = .req r.id)) k
  simp only [decide_eq_true_eq] at this
  exact this

theorem complete_settles (s : State) (r : Req) : Settles s (s.complete r) :=
  (((deliver_settles s r).trans (logLanding_settles _ r)).trans (reqT_settles _ r _ _)).trans (retireReq_settles _ r)

theorem storeDone_settles (s : State) (id : Nat) : Settles s (s.storeDone id) := by
  unfold State.storeDone
  split
  · exact complete_settles s _
  · exact Settles.refl s

/-- A completed request has left the list. -/
theorem req_complete (s : State) (r : Req) : (s.complete r).req r.id = none :=
  by
  have h : ∀ (t : State) c, (t.sweep c).reqs = t.reqs := by intro t c; unfold State.sweep; split <;> rfl
  show (((((s.deliver r).logLanding r).reqT r stDone (s.core r.agent.core).cyc).dropT r).dropReq r.id |>.sweep r.agent.core).req r.id = none
  unfold State.req
  rw [h]
  exact req_dropReq ((((s.deliver r).logLanding r).reqT r stDone (s.core r.agent.core).cyc).dropT r) r.id

/-! ### Bytes of memory written at their Home -/

/-- Bytes written at memory, at whichever of its homes: exactly they change. -/
theorem homeWrite_mem (s : State) (asid pa : Nat) (o : PageKind) (bs : List Byte) :
    (s.homeWrite asid (.mem pa o) bs).wefts = s.wefts ∧ (s.homeWrite asid (.mem pa o) bs).cur = s.cur ∧
    (∀ c a, mget ((s.homeWrite asid (.mem pa o) bs).core c).spad a = mget (s.core c).spad a) ∧
    ∀ a, mget (s.homeWrite asid (.mem pa o) bs).mem a =
      if local46 pa ≤ a ∧ a < local46 pa + bs.length then bs.getD (a - local46 pa) 0 else mget s.mem a := by
  have hp := homePut_mem s asid pa o bs
  obtain ⟨h1, h2, h3⟩ := wake_only (s.homePut asid (.mem pa o) bs)
  unfold MemoryIs at hp
  unfold State.homeWrite
  generalize s.homePut asid (.mem pa o) bs = u at *
  refine ⟨by rw [h1, hp], by rw [h2, hp], fun c a => ?_, fun a => ?_⟩
  · rw [h3.2, hp]; rfl
  · rw [h3.1, hp]
    show mget (mwrite s.mem (local46 pa) bs) a = _
    by_cases h : local46 pa ≤ a ∧ a < local46 pa + bs.length
    · rw [if_pos h]
      have := mget_mwrite_inside s.mem (local46 pa) bs (a - local46 pa) (by omega)
      rw [show local46 pa + (a - local46 pa) = a by omega] at this
      rw [this, List.getD_eq_getElem?_getD, List.getElem?_eq_getElem (by omega)]; rfl
    · rw [if_neg h]
      exact mget_mwrite_outside _ _ _ _ (by omega)

theorem mread_list (m : Memory) (a : Nat) (bs : List Byte) (h : ∀ i, i < bs.length → mget m (a + i) = bs.getD i 0) :
    mread m a bs.length = bs := by
  induction bs generalizing a with
  | nil => rfl
  | cons b bs ih =>
    simp only [List.length_cons, mread]
    rw [ih (a + 1)]
    · have := h 0 (by simp); simp at this; rw [this]
    · intro i hi
      have := h (i + 1) (by simpa using hi)
      simp only [List.getD_eq_getElem?_getD, List.getElem?_cons_succ] at this ⊢
      rw [show a + 1 + i = a + (i + 1) by omega]; exact this

/-! ### Taints -/

theorem freeTile_settles (s : State) (c t m n : Nat) : Settles s (s.freeTile c t m n) :=
  settles_mapCore s _ _ fun _ => ⟨rfl, rfl⟩

theorem foldl_settles {α : Type} (f : State → α → State) (hf : ∀ s x, Settles s (f s x)) (xs : List α) (s : State) :
    Settles s (xs.foldl f s) := by
  induction xs generalizing s with
  | nil => exact Settles.refl s
  | cons x xs ih => exact (hf s x).trans (ih _)

theorem taintLoom_settles (s : State) (c : Nat) (p : MmaOp → Bool) : Settles s (s.taintLoom c p) := by
  unfold State.taintLoom
  simp only
  refine Settles.trans ?_ (foldl_settles _ (fun t o => ?_) _ _)
  · exact settles_mapCore s c _ fun _ => ⟨rfl, rfl⟩
  · exact freeTile_settles t c _ _ _

theorem core_mapTasks (s : State) (mark : Task → Task) (ms : Tab Meadow) (c : Nat) :
    ({ s with
        cores := s.cores.map fun c => if c.2.task.isSome then (c.1, { c.2 with task := c.2.task.map mark }) else c
        meadows := ms } : State).core c =
      { s.core c with task := (s.core c).task.map mark } := by
  show lookD c ({} : Core) (s.cores.map _) = { lookD c ({} : Core) s.cores with task := (lookD c ({} : Core) s.cores).task.map mark }
  generalize s.cores = cs
  induction cs with
  | nil => rfl
  | cons e cs ih =>
    obtain ⟨j, w⟩ := e
    simp only [List.map_cons]
    by_cases h : c = j
    · subst h
      split
      · simp [lookD, look]
      · next hn =>
        have : w.task = none := by cases ht : w.task <;> simp [ht] at hn ⊢
        simp only [lookD, look, if_true, Option.getD_some, this, Option.map_none]
        rw [← this]
    · have : ∀ (x : Core) t, (lookD c ({} : Core) ((j, x) :: t)) = lookD c ({} : Core) t := by
        intro x t; simp [lookD, look, h]
      split <;> simp only [this] <;> exact ih

theorem taintVa_settles (s : State) (asid va : Nat) (g : Tgt) (bs : List Byte) : Settles s (s.taintVa asid va g bs) := by
  unfold State.taintVa
  simp only
  refine Settles.trans (foldl_settles (fun (s : State) (c : Nat × Core) => s.taintLoom c.1 fun o =>
    o.fromMem && decide (o.agent.asid = asid) && o.reads va bs.length) (fun t c => taintLoom_settles t c.1 _)
    (s.cores.filter fun c => c.2.loomRun.isSome || !c.2.loomq.isEmpty || !c.2.loomDone.isEmpty) s) ?_
  refine ⟨⟨fun _ => rfl, fun c a => ?_⟩, fun _ => rfl, fun c => ?_⟩
  · rw [core_mapTasks]
  · rw [core_mapTasks]; exact ViewShrinks.refl _

theorem refresh_bytes (s : State) (c asid : Nat) (t : Tgt) (n : Nat) : SameBytes s (s.refresh c asid t n) := (refresh_only s c asid t n).2.2

theorem wefts_taintLoom (s : State) (c : Nat) (p : MmaOp → Bool) : (s.taintLoom c p).wefts = s.wefts := (taintLoom_only s c p).1

theorem wefts_taintVa (s : State) (asid va : Nat) (g : Tgt) (bs : List Byte) : (s.taintVa asid va g bs).wefts = s.wefts := by
  unfold State.taintVa
  simp only
  generalize s.cores.filter _ = cs
  induction cs generalizing s with
  | nil => rfl
  | cons c cs ih =>
    rw [List.foldl_cons]
    exact (ih _).trans (wefts_taintLoom s c.1 _)

/-! ### Ids, and what the end of a request keeps whole -/

theorem ids_setReq (s : State) (r : Req) : (s.setReq r).reqs.map (·.id) = s.reqs.map (·.id) := by
  show (s.reqs.map fun q => if q.id = r.id then r else q).map (·.id) = s.reqs.map (·.id)
  rw [List.map_map]
  apply List.map_congr_left
  intro q _
  show (if q.id = r.id then r else q).id = q.id
  split
  · next h => exact h.symm
  · rfl

theorem reqs_refresh (s : State) (c asid : Nat) (t : Tgt) (n : Nat) : (s.refresh c asid t n).reqs = s.reqs := by
  unfold State.refresh
  split <;> rfl

theorem ids_testWaiter (s : State) (id : Nat) : (s.testWaiter id).reqs.map (·.id) = s.reqs.map (·.id) := by
  unfold State.testWaiter
  split
  · split
    · split
      · rw [reqs_refresh]; exact ids_setReq _ _
      · rfl
    · rfl
  · rfl

theorem ids_wake (s : State) : s.wake.reqs.map (·.id) = s.reqs.map (·.id) := by
  unfold State.wake
  generalize s.reqs.filter _ = rs
  induction rs generalizing s with
  | nil => rfl
  | cons r rs ih => rw [List.foldl_cons, ih, ids_testWaiter]

theorem reqs_taintLoom (s : State) (c : Nat) (p : MmaOp → Bool) : (s.taintLoom c p).reqs = s.reqs := by
  unfold State.taintLoom
  simp only
  generalize (s.core c).loomDone.filter p = os
  have : ∀ (os : List MmaOp) (t : State), (os.foldl (fun s o => s.freeTile c o.tile o.m o.n) t).reqs = t.reqs := by
    intro os
    induction os with
    | nil => intro t; rfl
    | cons o os ih => intro t; rw [List.foldl_cons, ih]; rfl
  rw [this]; rfl

theorem reqs_taintVa (s : State) (asid va : Nat) (g : Tgt) (bs : List Byte) : (s.taintVa asid va g bs).reqs = s.reqs := by
  unfold State.taintVa
  simp only
  generalize s.cores.filter _ = cs
  induction cs generalizing s with
  | nil => rfl
  | cons c cs ih =>
    rw [List.foldl_cons]
    exact (ih _).trans (reqs_taintLoom s c.1 _)

theorem req_isSome_ids (s : State) (id : Nat) : (s.req id).isSome = true ↔ id ∈ s.reqs.map (·.id) := by
  unfold State.req
  rw [List.find?_isSome, List.mem_map]
  simp

/-- A request written over one of its id, whatever that one has become. -/
theorem req_setReq_ids {s : State} {r : Req} (h : r.id ∈ s.reqs.map (·.id)) : (s.setReq r).req r.id = some r :=
  find_map_same s.reqs r.id r rfl ((req_isSome_ids s r.id).2 h)

theorem complete_teams (s : State) (r : Req) : (s.complete r).teams = s.teams := by
  have h1 : ∀ (s : State), (s.deliver r).teams = s.teams := by
    intro s; unfold State.deliver; simp only; split <;> rfl
  have h2 : ∀ (s : State) st v, (s.reqT r st v).teams = s.teams := by
    intro s st v; unfold State.reqT; split <;> rfl
  have h3 : ∀ (s : State), (s.dropT r).teams = s.teams := by
    intro s; unfold State.dropT; split <;> rfl
  have h4 : ∀ (s : State) c, (s.sweep c).teams = s.teams := by
    intro s c; unfold State.sweep; split <;> rfl
  show (((((s.deliver r).logLanding r).reqT r stDone (s.core r.agent.core).cyc).dropT r).dropReq r.id |>.sweep r.agent.core).teams = _
  rw [h4]
  show (((((s.deliver r).logLanding r).reqT r stDone (s.core r.agent.core).cyc)).dropT r).teams = _
  rw [h3, h2]
  exact h1 s

end Sys2Proof.Machine
end

