-- ==== Sys2Proof/Laws/Units.lean ====
section
/-!
SUPPORT. What writes, taints, waiters and ends of requests leave alone in the other units: the rings and channels of every
core, the folds, the teams and the grids.
-/
namespace Sys2Proof.Machine

/-- Rings, channels, folds, teams and grids are the same. -/
def SameUnits (s t : State) : Prop :=
  t.folds = s.folds ∧ t.teams = s.teams ∧ t.grids = s.grids ∧
    ∀ c, (t.core c).rings = (s.core c).rings ∧ (t.core c).chans = (s.core c).chans

theorem SameUnits.refl (s : State) : SameUnits s s := ⟨rfl, rfl, rfl, fun _ => ⟨rfl, rfl⟩⟩

theorem SameUnits.trans {s t u : State} (h : SameUnits s t) (g : SameUnits t u) : SameUnits s u :=
  ⟨g.1.trans h.1, g.2.1.trans h.2.1, g.2.2.1.trans h.2.2.1,
    fun c => ⟨(g.2.2.2 c).1.trans (h.2.2.2 c).1, (g.2.2.2 c).2.trans (h.2.2.2 c).2⟩⟩

/-- The same by the fields: nothing else of the state matters. -/
theorem units_of {s t : State} (h : t.folds = s.folds ∧ t.teams = s.teams ∧ t.grids = s.grids ∧ t.cores = s.cores) : SameUnits s t :=
  ⟨h.1, h.2.1, h.2.2.1, fun c => by
    have : t.core c = s.core c := by show lookD c _ t.cores = lookD c _ s.cores; rw [h.2.2.2]
    rw [this]; exact ⟨rfl, rfl⟩⟩

theorem units_mapCore (s : State) (k : Nat) (f : Core → Core) (hf : ∀ c, (f c).rings = c.rings ∧ (f c).chans = c.chans) : SameUnits s (s.mapCore k f) := by
  refine ⟨rfl, rfl, rfl, fun c => ?_⟩
  rw [core_mapCore]; split
  · next h => subst h; exact hf _
  · exact ⟨rfl, rfl⟩

theorem units_foldl {α : Type} (f : State → α → State) (hf : ∀ s x, SameUnits s (f s x)) (xs : List α) (s : State) :
    SameUnits s (xs.foldl f s) := by
  induction xs generalizing s with
  | nil => exact SameUnits.refl s
  | cons x xs ih => exact (hf s x).trans (ih _)

theorem units_wr (s : State) (pa : Nat) (bs : List Byte) : SameUnits s (s.wr pa bs) := SameUnits.refl s
theorem units_setReq (s : State) (r : Req) : SameUnits s (s.setReq r) := SameUnits.refl s
theorem units_mapWeft (s : State) (k : Nat) (f : Weft → Weft) : SameUnits s (s.mapWeft k f) := SameUnits.refl s

theorem units_refresh (s : State) (c asid : Nat) (t : Tgt) (n : Nat) : SameUnits s (s.refresh c asid t n) := by
  unfold State.refresh
  split
  · exact units_mapCore _ _ _ fun _ => ⟨rfl, rfl⟩
  · exact SameUnits.refl s

theorem units_testWaiter (s : State) (id : Nat) : SameUnits s (s.testWaiter id) := by
  unfold State.testWaiter
  split
  · split
    · split
      · exact units_refresh _ _ _ _ _
      · exact SameUnits.refl s
    · exact SameUnits.refl s
  · exact SameUnits.refl s

theorem units_wake (s : State) : SameUnits s s.wake := units_foldl (fun (t : State) (r : Req) => t.testWaiter r.id) (fun t r => units_testWaiter t r.id) _ s

theorem units_freeTile (s : State) (c t m n : Nat) : SameUnits s (s.freeTile c t m n) := units_mapCore _ _ _ fun _ => ⟨rfl, rfl⟩

theorem units_taintLoom (s : State) (c : Nat) (p : MmaOp → Bool) : SameUnits s (s.taintLoom c p) := by
  unfold State.taintLoom
  simp only
  refine SameUnits.trans ?_ (units_foldl _ (fun t o => ?_) _ _)
  · exact units_mapCore s c _ fun _ => ⟨rfl, rfl⟩
  · exact units_freeTile t c _ _ _

theorem units_taintVa (s : State) (asid va : Nat) (g : Tgt) (bs : List Byte) : SameUnits s (s.taintVa asid va g bs) := by
  unfold State.taintVa
  simp only
  refine SameUnits.trans (units_foldl (fun (s : State) (c : Nat × Core) => s.taintLoom c.1 fun o =>
    o.fromMem && decide (o.agent.asid = asid) && o.reads va bs.length) (fun t c => units_taintLoom t c.1 _)
    (s.cores.filter fun c => c.2.loomRun.isSome || !c.2.loomq.isEmpty || !c.2.loomDone.isEmpty) s) ?_
  exact ⟨rfl, rfl, rfl, fun c => by rw [core_mapTasks]; exact ⟨rfl, rfl⟩⟩

theorem units_clearPoison (s : State) (t : Tgt) (n : Nat) : SameUnits s (s.clearPoison t n) := by
  unfold State.clearPoison
  split
  · exact SameUnits.refl s
  · exact units_mapCore _ _ _ fun _ => ⟨rfl, rfl⟩
  · exact SameUnits.refl s

theorem units_setPoison (s : State) (t : Tgt) (n rec : Nat) : SameUnits s (s.setPoison t n rec) := by
  unfold State.setPoison
  split
  · exact SameUnits.refl s
  · exact SameUnits.refl s
  · exact units_mapCore _ _ _ fun _ => ⟨rfl, rfl⟩
  · exact SameUnits.refl s

theorem units_setTag (s : State) (t : Tgt) (y : BitVec 16) : SameUnits s (s.setTag t y) := by
  unfold State.setTag
  split
  · split <;> exact SameUnits.refl s
  · exact units_mapCore _ _ _ fun _ => ⟨rfl, rfl⟩
  · exact SameUnits.refl s

theorem units_homePut (s : State) (asid : Nat) (t : Tgt) (bs : List Byte) : SameUnits s (s.homePut asid t bs) := by
  have hm : ∀ pa o, SameUnits s (s.homePut asid (.mem pa o) bs) := by
    intro pa o
    have h := homePut_mem s asid pa o bs
    unfold MemoryIs at h
    rw [h]
    exact units_of ⟨rfl, rfl, rfl, rfl⟩
  cases t with
  | mem pa o => exact hm pa o
  | spad c off =>
    simp only [State.homePut]
    rw [claimBanks_only]
    exact (((units_mapCore s _ (fun x => { x with spad := mwrite x.spad _ bs }) fun _ => ⟨rfl, rfl⟩).trans
      (units_clearPoison _ _ _)).trans (units_taintLoom _ _ _)).trans (units_of ⟨rfl, rfl, rfl, rfl⟩)
  | _ => exact SameUnits.refl s

theorem units_homeWrite (s : State) (asid : Nat) (t : Tgt) (bs : List Byte) : SameUnits s (s.homeWrite asid t bs) :=
  (units_homePut s asid t bs).trans (units_wake _)

theorem units_reqT (s : State) (r : Req) (st v : Nat) : SameUnits s (s.reqT r st v) := by
  unfold State.reqT; split <;> exact SameUnits.refl s

theorem units_complete (s : State) (r : Req) : SameUnits s (s.complete r) := by
  have h1 : SameUnits s (s.deliver r) := by
    unfold State.deliver; simp only; split <;> exact SameUnits.refl s
  have h3 : ∀ (s : State), SameUnits s (s.dropT r) := by
    intro s; unfold State.dropT; split <;> exact SameUnits.refl s
  have h4 : ∀ (s : State) c, SameUnits s (s.sweep c) := by
    intro s c; unfold State.sweep; split
    · exact units_mapCore _ _ _ fun _ => ⟨rfl, rfl⟩
    · exact SameUnits.refl s
  have h2 : SameUnits (s.deliver r) ((s.deliver r).logLanding r) := units_mapCore _ _ _ fun _ => ⟨rfl, rfl⟩
  unfold State.complete State.retireReq
  simp only
  have h5 : ∀ (u : State) ws, SameUnits u { u with wefts := ws } := fun u _ => SameUnits.refl u
  refine (((h1.trans h2).trans (units_reqT _ r stDone (s.core r.agent.core).cyc)).trans (h3 _)).trans
    ((SameUnits.refl _).trans ((h4 (State.dropReq _ _) r.agent.core).trans (h5 _ _)))

theorem units_storeDone (s : State) (id : Nat) : SameUnits s (s.storeDone id) := by
  unfold State.storeDone
  split
  · exact units_complete s _
  · exact SameUnits.refl s

theorem units_bookAt (s : State) (r : Req) (l f : Nat) (b : Bool) : SameUnits s (s.bookAt r l f b) := by
  unfold State.bookAt
  simp only
  split
  · split
    · exact units_reqT _ _ _ _
    · exact SameUnits.refl s
  · exact SameUnits.refl s

/-- What booking leaves alone besides: bytes, wefts' queues. -/
theorem bookAt_settles (s : State) (r : Req) (l f : Nat) (b : Bool) : Settles s (s.bookAt r l f b) := by
  unfold State.bookAt
  simp only
  split
  · split
    · exact reqT_settles _ _ _ _
    · exact Settles.refl s
  · exact Settles.refl s

theorem units_retestChkw (s : State) (c a : Nat) : SameUnits s (s.retestChkw c a) := SameUnits.refl s

theorem units_setChunkBit (s : State) (c : Cmd) (i : Nat) (on : Nat → Bool) : SameUnits s (s.setChunkBit c i on) := by
  unfold State.setChunkBit
  split
  · exact SameUnits.refl s
  · exact units_foldl _ (fun t b => (units_homeWrite t _ _ _).trans (units_retestChkw _ _ _)) _ _

theorem units_clearChunkBits (s : State) (c : Cmd) : SameUnits s (s.clearChunkBits c) := by
  unfold State.clearChunkBits
  split
  · exact SameUnits.refl s
  · exact units_foldl _ (fun t b => units_foldl _ (fun u w => units_homeWrite u _ _ _) _ t) _ _

/-- The ring of a core, when the units are the same. -/
theorem SameUnits.ring {s t : State} (h : SameUnits s t) (c r : Nat) : t.ring c r = s.ring c r := by
  show lookD r _ (t.core c).rings = lookD r _ (s.core c).rings
  rw [(h.2.2.2 c).1]

theorem SameUnits.chan {s t : State} (h : SameUnits s t) (c k : Nat) : (t.core c).chan k = (s.core c).chan k := by
  show lookD k _ (t.core c).chans = lookD k _ (s.core c).chans
  rw [(h.2.2.2 c).2]

theorem SameUnits.fold {s t : State} (h : SameUnits s t) (k : Nat) : t.fold k = s.fold k := by
  show lookD k _ t.folds = lookD k _ s.folds
  rw [h.1]

theorem ring_setRing_same (s : State) (c r : Nat) (x : Ring) : (s.setRing c r x).ring c r = x := by
  unfold State.setRing State.ring
  rw [core_setCore_same]
  show lookD r _ (put r x _) = x
  rw [lookD_put, if_pos rfl]

theorem chan_setChan_same (s : State) (c k : Nat) (x : Chan) : ((s.setChan c k x).core c).chan k = x := by
  unfold State.setChan Core.chan
  rw [core_setCore_same]
  show lookD k _ (put k x _) = x
  rw [lookD_put, if_pos rfl]

theorem settles_setRing (s : State) (c r : Nat) (x : Ring) : Settles s (s.setRing c r x) :=
  settles_mapCore s c (fun y => y.setRing r x) fun _ => ⟨rfl, rfl⟩

theorem settles_setChan (s : State) (c k : Nat) (x : Chan) : Settles s (s.setChan c k x) :=
  settles_mapCore s c (fun y => { y with chans := put k x y.chans }) fun _ => ⟨rfl, rfl⟩

end Sys2Proof.Machine
end

