-- ==== Sys2Proof/Laws/Words.lean ====
section
/-!
SUPPORT. Words as bytes: little-endian numbers (R200), the fields of R204 cut from the word they were joined into, and
the length of a word.
-/
namespace Sys2Proof

/-! ### Little-endian bytes -/

theorem leNat_append (a b : List Byte) : leNat (a ++ b) = leNat a + 256 ^ a.length * leNat b := by
  induction a with
  | nil => simp [leNat]
  | cons x a ih => simp [leNat, ih, Nat.pow_succ]; rw [Nat.mul_add, ← Nat.mul_assoc]; rw [Nat.mul_comm 256 (256 ^ a.length)]; omega

theorem leNat_take (bs : List Byte) (n : Nat) : leNat (bs.take n) = leNat bs % 256 ^ n := by
  induction bs generalizing n with
  | nil => simp [leNat]
  | cons x bs ih =>
    cases n with
    | zero => simp [leNat, Nat.mod_one]
    | succ n =>
      simp only [List.take_succ_cons, leNat, ih]
      rw [Nat.pow_succ, Nat.mul_comm (256 ^ n) 256, Nat.mod_mul]
      have h1 : (x.toNat + 256 * leNat bs) % 256 = x.toNat := by have := x.isLt; omega
      have h2 : (x.toNat + 256 * leNat bs) / 256 = leNat bs := by have := x.isLt; omega
      rw [h1, h2]

theorem leNat_leBytes (n x : Nat) : leNat (leBytes n x) = x % 256 ^ n := by
  induction n generalizing x with
  | zero => simp [leBytes, leNat, Nat.mod_one]
  | succ n ih =>
    simp only [leBytes, leNat, ih]
    rw [Nat.pow_succ, Nat.mul_comm (256 ^ n) 256, Nat.mod_mul]
    simp

theorem length_leBytes (n x : Nat) : (leBytes n x).length = n := by
  induction n generalizing x with
  | zero => rfl
  | succ n ih => simp [leBytes, ih]

theorem opc_of (x n : Nat) (hn : 8 ≤ n) : (Raw.ofBits (BitVec.ofNat 128 (x % 256 ^ n))).opc.toNat = x / 32 % 256 := by
  have : 256 ^ n = 2 ^ 13 * 2 ^ (8 * n - 13) := by
    rw [← Nat.pow_add, show (256:Nat) = 2 ^ 8 from rfl, ← Nat.pow_mul]; congr 1; omega
  simp only [Raw.ofBits, BitVec.extractLsb'_toNat, BitVec.toNat_ofNat, Nat.shiftRight_eq_div_pow]
  rw [this]
  have e : (x % (2 ^ 13 * 2 ^ (8 * n - 13))) % 2 ^ 13 = x % 2 ^ 13 := Nat.mod_mul_right_mod _ _ _
  generalize x % (2 ^ 13 * 2 ^ (8 * n - 13)) = y at e
  omega

theorem len_of (x n : Nat) (hn : 8 ≤ n) : (Raw.ofBits (BitVec.ofNat 128 (x % 256 ^ n))).len = BitVec.ofNat 2 x := by
  have : 256 ^ n = 2 ^ 13 * 2 ^ (8 * n - 13) := by
    rw [← Nat.pow_add, show (256:Nat) = 2 ^ 8 from rfl, ← Nat.pow_mul]; congr 1; omega
  apply BitVec.eq_of_toNat_eq
  simp only [Raw.ofBits, BitVec.extractLsb'_toNat, BitVec.toNat_ofNat, Nat.shiftRight_eq_div_pow]
  rw [this]
  have e : (x % (2 ^ 13 * 2 ^ (8 * n - 13))) % 2 ^ 13 = x % 2 ^ 13 := Nat.mod_mul_right_mod _ _ _
  generalize x % (2 ^ 13 * 2 ^ (8 * n - 13)) = y at e
  omega

theorem len8 (len : BitVec 2) : 8 ≤ lenBytes len := by unfold lenBytes; (repeat' split) <;> omega

theorem first_len (bs : List Byte) : BitVec.ofNat 2 (leNat (bs.take 1)) = BitVec.ofNat 2 (leNat bs) := by
  rw [leNat_take]; apply BitVec.eq_of_toNat_eq; simp


/-! ### Fields -/

/-- The fields cut from the word of given fields are those fields (R204). -/
@[simp] theorem Raw.ofBits_toBits (r : Raw) : Raw.ofBits r.toBits = r := by
  obtain ⟨ext, sb, sa, dst, pe, pn, pi, ty, opc, n, h, s, len⟩ := r
  have hb : ∀ b : Bool, (BitVec.ofBool b).getLsbD 0 = b := by decide
  simp only [Raw.ofBits, Raw.toBits, Raw.mk.injEq]
  refine ⟨?_, ?_, ?_, ?_, ?_, ?_, ?_, ?_, ?_, ?_, ?_, ?_, extract_lo _ _⟩
  · rw [extract_past 64 62 64 _ _ rfl, extract_past 64 61 62 _ _ rfl, extract_past 64 60 61 _ _ rfl, extract_past 64 59 60 _ _ rfl,
      extract_past 64 51 59 _ _ rfl, extract_past 64 46 51 _ _ rfl, extract_past 64 43 46 _ _ rfl, extract_past 64 42 43 _ _ rfl,
      extract_past 64 41 42 _ _ rfl, extract_past 64 32 41 _ _ rfl, extract_past 64 16 32 _ _ rfl]; exact extract_hi _ _
  · rw [extract_past 16 46 48 _ _ rfl, extract_past 16 45 46 _ _ rfl, extract_past 16 44 45 _ _ rfl, extract_past 16 43 44 _ _ rfl,
      extract_past 16 35 43 _ _ rfl, extract_past 16 30 35 _ _ rfl, extract_past 16 27 30 _ _ rfl, extract_past 16 26 27 _ _ rfl,
      extract_past 16 25 26 _ _ rfl, extract_past 16 16 25 _ _ rfl, extract_past 16 0 16 _ _ rfl]; exact extract_lo _ _
  · rw [extract_past 16 30 32 _ _ rfl, extract_past 16 29 30 _ _ rfl, extract_past 16 28 29 _ _ rfl, extract_past 16 27 28 _ _ rfl,
      extract_past 16 19 27 _ _ rfl, extract_past 16 14 19 _ _ rfl, extract_past 16 11 14 _ _ rfl, extract_past 16 10 11 _ _ rfl,
      extract_past 16 9 10 _ _ rfl, extract_past 16 0 9 _ _ rfl]; exact extract_lo _ _
  · rw [extract_past 9 21 23 _ _ rfl, extract_past 9 20 21 _ _ rfl, extract_past 9 19 20 _ _ rfl, extract_past 9 18 19 _ _ rfl,
      extract_past 9 10 18 _ _ rfl, extract_past 9 5 10 _ _ rfl, extract_past 9 2 5 _ _ rfl, extract_past 9 1 2 _ _ rfl,
      extract_past 9 0 1 _ _ rfl]; exact extract_lo _ _
  · rw [bit_past 20 22 _ _ rfl, bit_past 19 20 _ _ rfl, bit_past 18 19 _ _ rfl, bit_past 17 18 _ _ rfl, bit_past 9 17 _ _ rfl,
      bit_past 4 9 _ _ rfl, bit_past 1 4 _ _ rfl, bit_past 0 1 _ _ rfl, bit_before 0 _ _ (by omega)]; exact hb _
  · rw [bit_past 19 21 _ _ rfl, bit_past 18 19 _ _ rfl, bit_past 17 18 _ _ rfl, bit_past 16 17 _ _ rfl, bit_past 8 16 _ _ rfl,
      bit_past 3 8 _ _ rfl, bit_past 0 3 _ _ rfl, bit_before 0 _ _ (by omega)]; exact hb _
  · rw [extract_past 3 16 18 _ _ rfl, extract_past 3 15 16 _ _ rfl, extract_past 3 14 15 _ _ rfl, extract_past 3 13 14 _ _ rfl,
      extract_past 3 5 13 _ _ rfl, extract_past 3 0 5 _ _ rfl]; exact extract_lo _ _
  · rw [extract_past 5 11 13 _ _ rfl, extract_past 5 10 11 _ _ rfl, extract_past 5 9 10 _ _ rfl, extract_past 5 8 9 _ _ rfl,
      extract_past 5 0 8 _ _ rfl]; exact extract_lo _ _
  · rw [extract_past 8 3 5 _ _ rfl, extract_past 8 2 3 _ _ rfl, extract_past 8 1 2 _ _ rfl, extract_past 8 0 1 _ _ rfl]; exact extract_lo _ _
  · rw [bit_past 2 4 _ _ rfl, bit_past 1 2 _ _ rfl, bit_past 0 1 _ _ rfl, bit_before 0 _ _ (by omega)]; exact hb _
  · rw [bit_past 1 3 _ _ rfl, bit_past 0 1 _ _ rfl, bit_before 0 _ _ (by omega)]; exact hb _
  · rw [bit_past 0 2 _ _ rfl, bit_before 0 _ _ (by omega)]; exact hb _

theorem append_lt {v w : Nat} (x : BitVec v) (y : BitVec w) (n : Nat) (h : x.toNat < 2 ^ n) : (x ++ y).toNat < 2 ^ (n + w) := by
  rw [BitVec.toNat_append, Nat.shiftLeft_eq, Nat.pow_add]
  have h1 : x.toNat * 2 ^ w ||| y.toNat = x.toNat * 2 ^ w + y.toNat := by
    rw [Nat.mul_comm]; exact (Nat.two_pow_add_eq_or_of_lt y.isLt x.toNat).symm
  rw [h1]
  calc x.toNat * 2 ^ w + y.toNat < x.toNat * 2 ^ w + 2 ^ w := Nat.add_lt_add_left y.isLt _
    _ = (x.toNat + 1) * 2 ^ w := by rw [Nat.add_mul, Nat.one_mul]
    _ ≤ 2 ^ n * 2 ^ w := Nat.mul_le_mul_right _ h

/-- A word whose extension fits its length is a number of that many bytes. -/
theorem Raw.toBits_lt (r : Raw) (n : Nat) (h : r.ext.toNat < 2 ^ n) : r.toBits.toNat < 2 ^ (n + 64) := by
  have := append_lt (r.ext ++ r.sb ++ r.sa ++ r.dst ++ BitVec.ofBool r.pe ++ BitVec.ofBool r.pn ++ r.pi ++ r.ty ++
    r.opc ++ BitVec.ofBool r.n ++ BitVec.ofBool r.h ++ BitVec.ofBool r.s) r.len _
    (append_lt _ _ _ (append_lt _ _ _ (append_lt _ _ _ (append_lt _ _ _ (append_lt _ _ _ (append_lt _ _ _ (append_lt _ _ _
      (append_lt _ _ _ (append_lt _ _ _ (append_lt _ _ _ (append_lt _ _ _ h)))))))))))
  exact this

/-- The extension of the word has no bit above the word's length. -/
def Raw.Fits (r : Raw) : Prop := r.ext.toNat < 2 ^ (8 * lenBytes r.len - 64)

theorem CtlW.raw_fits (w : CtlW) (opc len : Nat) : (w.raw opc len).Fits := by
  unfold CtlW.raw Ctl.raw Raw.Fits
  by_cases g : len = 1 ∧ opc ≠ 0
  · rw [if_pos g, g.1]
    have : (BitVec.zeroExtend 64 w.off).toNat < 2 ^ 32 := by
      rw [BitVec.toNat_setWidth]; have := w.off.isLt; omega
    exact this
  · simp only [if_neg g]
    exact Nat.two_pow_pos _

theorem AluW.raw_fits (w : AluW) (opc : Nat) : (w.raw opc).Fits := by
  unfold AluW.raw Raw.Fits
  split
  · have h : (0#45 ++ BitVec.ofBool w.sat ++ w.rm ++ w.c.toBits).toNat < 2 ^ 19 :=
      append_lt _ _ 3 (append_lt _ _ 1 (append_lt _ _ 0 (by decide)))
    exact Nat.lt_trans h (by show 2 ^ 19 < 2 ^ 32; decide)
  · exact Nat.two_pow_pos _

theorem MemW.raw_fits (w : MemW) (opc : Nat) : (w.raw opc).Fits := BitVec.isLt _
theorem EngW.raw_fits (w : EngW) (opc : Nat) : (w.raw opc).Fits := BitVec.isLt _
theorem MoviW.raw_fits (w : MoviW) (opc : Nat) : (w.raw opc).Fits := BitVec.isLt _

/-- Every instruction's word fits its length. -/
theorem Instr.raw_fits (i : Instr) (r : Raw) (h : i.raw = some r) : r.Fits := by
  cases i <;> first
    | (obtain rfl := Option.some.inj h; first
        | with_reducible exact CtlW.raw_fits _ _ _
        | with_reducible exact AluW.raw_fits _ _ | with_reducible exact MemW.raw_fits _ _
        | with_reducible exact EngW.raw_fits _ _ | with_reducible exact MoviW.raw_fits _ _)
    | exact absurd h (by intro e; cases e)

/-- A word read back from the bytes the encoder lays out, whatever follows them. -/
theorem Raw.ofBytes (r : Raw) (rest : List Byte) (h : r.Fits) :
    Raw.ofBits (BitVec.ofNat 128 (leNat ((leBytes (lenBytes r.len) r.toBits.toNat ++ rest).take (lenBytes r.len)))) = r := by
  have hl := len8 r.len
  have hlt : r.toBits.toNat < 256 ^ lenBytes r.len := by
    have := r.toBits_lt _ h
    have e : 256 ^ lenBytes r.len = 2 ^ (8 * lenBytes r.len - 64 + 64) := by
      rw [show (256 : Nat) = 2 ^ 8 from rfl, ← Nat.pow_mul]; congr 1; omega
    rw [e]; exact this
  rw [List.take_append_of_le_length (Nat.le_of_eq (length_leBytes _ _).symm),
    List.take_of_length_le (Nat.le_of_eq (length_leBytes _ _)), leNat_leBytes, Nat.mod_eq_of_lt hlt,
    BitVec.ofNat_toNat]
  have : r.toBits.setWidth 128 = r.toBits := BitVec.setWidth_eq _
  rw [this, Raw.ofBits_toBits]

end Sys2Proof
end

