-- ==== Sys2Proof/Tests/Slice0.lean ====
section
/-!
SUPPORT. Tests: words of the manual's encodings, an instruction that breaks each field rule, single steps with results
taken from the manual, and for every claim with premises a state that meets them.
-/
namespace Sys2Proof.Tests
open Sys2Proof.Machine Sys2Proof.Claims
set_option Elab.async false

/-! ### Small words and states -/

def ctl0 : Ctl := ⟨false, false, 0, false, false, false⟩
/-- Predicated words: @p0, @!z0. -/
def ctlP : Ctl := ⟨true, false, 0, false, false, false⟩

def cw (a : Src) (ty : BitVec 5 := 0) (dst : Dst := .none) (off : BitVec 32 := 0) : CtlW := ⟨ctl0, ty, dst, a, .none, off⟩
def aw (ty : BitVec 5) (dst : Dst) (a : Src) (b : Src := .none) : AluW := ⟨ctl0, ty, dst, a, b, .none, 0, false, false⟩
def aw3 (ty : BitVec 5) (dst : Dst) (a b c : Src) : AluW := ⟨ctl0, ty, dst, a, b, c, 0, false, true⟩
def mw (ty : BitVec 5) (dst : Dst) (a b : Src) (size : BitVec 3 := 0) : MemW :=
  ⟨ctl0, ty, dst, a, b, 0, none, size, 0, 0, 0, 0⟩
def ew (dst : Dst) (a b : Src) (ext : BitVec 64 := 0) : EngW := ⟨ctl0, 0, dst, a, b, ext⟩

def v (n : Fin 32) : Src := .v n 0 0
def sr (n : Fin 128) : Src := .s n 0
def im (x : BitVec 14) : Src := .imm x

/-! ### Decoding: a word of each family, placed field by field as R204, R206 and R214 say -/

/-- Fields from the low end: LEN, S, H, N, OPC, TYPE, PI, PN, PE, DST, SA, SB, and the bits from 64 on. -/
def wordOf (len s h n opc ty pi pn pe dst sa sb ext : Nat) : Nat :=
  len + 2 ^ 2 * s + 2 ^ 3 * h + 2 ^ 4 * n + 2 ^ 5 * opc + 2 ^ 13 * ty + 2 ^ 18 * pi + 2 ^ 21 * pn + 2 ^ 22 * pe +
    2 ^ 23 * dst + 2 ^ 32 * sa + 2 ^ 48 * sb + 2 ^ 64 * ext

/-- fadd.f32 v3, v1, v2.rot1 (9.3), and its bytes. -/
theorem test_decode_fadd : decodeTableWord 64 (wordOf 0 0 0 0 0x70 11 0 0 0 0x003 0x0080 0x0108 0) =
    some (.fadd (aw 11 (.v 3) (v 1) (.v 2 1 0))) := by decide +kernel
/-- @!p3 brt.not.far t2, 200, -2 -/
theorem test_decode_brt : decodeTableWord 96 (wordOf 1 0 0 0 0x02 10 3 1 1 0x17F 0x8500 0xC0C8 0xFFFFFFFE) =
    some (.brt ⟨⟨true, true, 3, false, false, false⟩, 10, .none, .t 2 0, .imm 200, 0xFFFFFFFE⟩) := by decide +kernel
/-- sadd.i64.nw.h s1, s2, 5 -/
theorem test_decode_sadd : decodeTableWord 64 (wordOf 0 0 1 1 0x20 8 0 0 0 0x081 0x4100 0xC005 0) =
    some (.sadd ⟨⟨false, false, 0, true, true, false⟩, 8, .s 1, .s 2 0, .imm 5, .none, 0, false, false⟩) := by decide +kernel
/-- imad.i32 v9, v1, b0, -1 -/
theorem test_decode_imad : decodeTableWord 96 (wordOf 1 0 0 0 0x44 6 0 0 0 0x009 0x0080 0x8000 0xFFFF) =
    some (.imad ⟨ctl0, 6, .v 9, .v 1 0 0, .b 0 0 0, .imm 0x3FFF, 0, false, true⟩) := by decide +kernel
/-- shfl.b32 v4, v1, v2 -/
theorem test_decode_shfl : decodeTableWord 64 (wordOf 0 0 0 0 0x5D 15 0 0 0 0x004 0x0080 0x0100 0) =
    some (.shfl (aw 15 (.v 4) (v 1) (v 2))) := by decide +kernel
/-- cas.b32.acqrel.device v4, [g3-8], v6, t3 -/
theorem test_decode_cas : decodeTableWord 128
    (wordOf 2 0 0 0 0xA8 15 0 0 0 0x004 0x9980 0x0300 (0xFFFFFFF8 + 2 ^ 32 * 7 + 2 ^ 35 * 2 + 2 ^ 38 * 3 + 2 ^ 40 * 4)) =
    some (.cas ⟨ctl0, 15, .v 4, .g 3 0, .v 6 0 0, 0xFFFFFFF8, some 3, 2, 3, 4, 0, 0⟩) := by decide +kernel
/-- phint 4, 15, 10 -/
theorem test_decode_phint : decodeTableWord 128
    (wordOf 2 0 0 0 0xD9 0 0 0 0 0x17F 0xBF80 0xBF80 (4 + 2 ^ 12 * 15 + 2 ^ 16 * 10)) =
    some (.phint (ew .none .none .none (4 + 2 ^ 12 * 15 + 2 ^ 16 * 10))) := by decide +kernel
/-- @z1 halt -/
theorem test_decode_halt : decodeTableWord 128 (wordOf 2 0 0 0 0xE8 0 1 0 1 0x17F 0xBF80 0xBF80 0) =
    some (.halt ⟨⟨true, false, 1, false, false, false⟩, 0, .none, .none, .none, 0⟩) := by decide +kernel
/-- A reserved register number, and a TYPE that the entry does not list (R206, R213). -/
theorem test_decode_reserved : decodeTableWord 64 (wordOf 0 0 0 0 0x40 6 0 0 0 0x020 0x0080 0x0080 0) = none ∧
    decodeTableWord 64 (wordOf 0 0 0 0 0x40 11 0 0 0 0x004 0x0080 0x0080 0) = none ∧
    decodeTableWord 64 (wordOf 0 0 0 0 0x16 0 0 0 0 0x17F 0xBF80 0xBF80 0) = none := by decide +kernel
/-- The encoder lays the bytes of (9.3) out as the manual lists them. -/
theorem test_encode_fadd : encode (.fadd (aw 11 (.v 3) (v 1) (.v 2 1 0))) =
    some [0x00, 0x6E, 0x81, 0x01, 0x80, 0x00, 0x08, 0x01] := by decide +kernel

/-! ### Ill-formed instructions: one for each rule of R202 -/

theorem illformed_stop : ¬(Instr.brk (cw .none)).WellFormed := by unfold Instr.WellFormed; decide +kernel
theorem illformed_hold : ¬(Instr.ret ⟨⟨false, false, 0, false, true, false⟩, 0, .none, .none, .none, 0⟩).WellFormed := by
  unfold Instr.WellFormed; decide +kernel
theorem illformed_nowrite : ¬(Instr.mov ⟨⟨false, false, 0, true, false, false⟩, 15, .t 0, v 1, .none, .none, 0, false, false⟩).WellFormed := by
  unfold Instr.WellFormed; decide +kernel
theorem illformed_type : ¬(Instr.fadd (aw 6 (.v 3) (v 1) (v 2))).WellFormed := by unfold Instr.WellFormed; decide +kernel
theorem illformed_pindex : ¬(Instr.sadd ⟨⟨true, false, 4, false, false, false⟩, 8, .s 1, sr 2, sr 3, .none, 0, false, false⟩).WellFormed := by
  unfold Instr.WellFormed; decide +kernel
theorem illformed_pindex_unused : ¬(Instr.iadd ⟨⟨false, false, 1, false, false, false⟩, 6, .v 1, v 2, v 3, .none, 0, false, false⟩).WellFormed := by
  unfold Instr.WellFormed; decide +kernel
theorem illformed_pnegate : ¬(Instr.iadd ⟨⟨false, true, 0, false, false, false⟩, 6, .v 1, v 2, v 3, .none, 0, false, false⟩).WellFormed := by
  unfold Instr.WellFormed; decide +kernel
theorem illformed_tret_predicate : ¬(Instr.tret ⟨ctlP, 0, .none, .none, .none, 0⟩).WellFormed := by
  unfold Instr.WellFormed; decide +kernel
theorem illformed_dst : ¬(Instr.iadd (aw 6 (.s 1) (v 2) (v 3))).WellFormed := by unfold Instr.WellFormed; decide +kernel
theorem illformed_pair : ¬(Instr.iadd (aw 8 (.v 1) (v 2) (v 4))).WellFormed := by unfold Instr.WellFormed; decide +kernel
theorem illformed_sa : ¬(Instr.plop (aw 0 (.p 1) (v 2) (.p 3 0))).WellFormed := by unfold Instr.WellFormed; decide +kernel
theorem illformed_sb : ¬(Instr.popc (aw 15 (.v 1) (v 2) (v 3))).WellFormed := by unfold Instr.WellFormed; decide +kernel
theorem illformed_mod : ¬(Instr.iadd (aw 15 (.v 1) (.v 2 0 1) (v 3))).WellFormed := by unfold Instr.WellFormed; decide +kernel
theorem illformed_sc : ¬(Instr.iadd (aw3 6 (.v 1) (v 2) (v 3) (v 4))).WellFormed := by unfold Instr.WellFormed; decide +kernel
theorem illformed_rm : ¬(Instr.iadd ⟨ctl0, 6, .v 1, v 2, v 3, .none, 1, false, true⟩).WellFormed := by
  unfold Instr.WellFormed; decide +kernel
theorem illformed_sat : ¬(Instr.popc ⟨ctl0, 15, .v 1, v 2, .none, .none, 0, true, true⟩).WellFormed := by
  unfold Instr.WellFormed; decide +kernel
theorem illformed_offset : ¬(Instr.fence { mw 0 .none .none .none with off := 4 }).WellFormed := by
  unfold Instr.WellFormed; decide +kernel
theorem illformed_tsel : ¬(Instr.fence { mw 0 .none .none .none with tsel := some 1 }).WellFormed := by
  unfold Instr.WellFormed; decide +kernel
theorem illformed_tsel_missing : ¬(Instr.fld (mw 0 (.z 1) (sr 6) (sr 7))).WellFormed := by
  unfold Instr.WellFormed; decide +kernel
theorem illformed_size : ¬(Instr.ld (mw 15 (.v 2) (sr 11) .none 5)).WellFormed := by unfold Instr.WellFormed; decide +kernel
theorem illformed_order : ¬(Instr.ld { mw 15 (.v 2) (sr 11) .none 2 with ord := 2 }).WellFormed := by
  unfold Instr.WellFormed; decide +kernel
theorem illformed_scope : ¬(Instr.ld { mw 15 (.v 2) (sr 11) .none 2 with scope := 6 }).WellFormed := by
  unfold Instr.WellFormed; decide +kernel
theorem illformed_hint : ¬(Instr.ld { mw 15 (.v 2) (sr 11) .none 2 with hint := 4 }).WellFormed := by
  unfold Instr.WellFormed; decide +kernel
theorem illformed_subop : ¬(Instr.ld { mw 15 (.v 2) (sr 11) .none 2 with subop := 1 }).WellFormed := by
  unfold Instr.WellFormed; decide +kernel
theorem illformed_phint_len : ¬(Instr.phint (ew .none .none .none (2 ^ 16 * 5))).WellFormed := by
  unfold Instr.WellFormed; decide +kernel
theorem illformed_engine_bits : ¬(Instr.halt (ew .none .none .none 1)).WellFormed := by unfold Instr.WellFormed; decide +kernel
theorem illformed_control_offset : ¬(Instr.jmp (cw (sr 1) 0 .none 4)).WellFormed := by unfold Instr.WellFormed; decide +kernel
theorem illformed_narrow_form : ¬(Instr.fadd ⟨ctl0, 11, .v 3, v 1, v 2, .none, 1, false, false⟩).WellFormed := by
  unfold Instr.WellFormed; decide +kernel
theorem illformed_meet_type : ¬(Instr.meet (cw .none 1)).WellFormed := by unfold Instr.WellFormed; decide +kernel
theorem wellformed_words : (Instr.brk ⟨⟨false, false, 0, false, false, true⟩, 0, .none, .none, .none, 0⟩).WellFormed ∧
    (Instr.mov (aw 15 (.t 0) (v 1))).WellFormed ∧ (Instr.phint (ew .none .none .none (2 ^ 16 * 6))).WellFormed ∧
    (Instr.ld { mw 15 (.v 2) (sr 11) .none 2 with ord := 1, scope := 5, hint := 3 }).WellFormed := by
  unfold Instr.WellFormed; decide +kernel


/-! ### A small machine: one weft of 32 lanes on core 0, lanes 0 and 1 in the decision, an address space of one page
that maps VA 0 to 16 GiB onto the LPDDR tier (assumption 13) -/

def l0 : Lane := { started := true, pc := 0x40000 }

/-- The machine with a weft of these registers; full service (R362). -/
def mk (x y : Lane) (f : Weft → Weft := id) : State :=
  let s := State.reset.placeWord []
  let s := s.mapWeft 0 fun w => f { w with lanes := [(0, x), (1, y)] }
  { s with cur := { s.cur with lanes := 3 }, hub := { s.hub with stage := 5 } }

/-- Both lanes hold these v registers. -/
def mkV (regs : Tab W32) (f : Weft → Weft := id) : State := mk { l0 with regs := regs } { l0 with regs := regs } f
def m0 : State := mkV []
/-- FMT2 of core 0's copy of context 1's block is an E4M3 format (R192). -/
def withFmt (s : State) : State := s.mapCore 0 fun c => { c with blocks := [(1, { fmt := [(2, 0x10773)] })] }

/-- The state after an instruction, or the state before where it ends in no next state. -/
def after (o : Out) (s : State) : State :=
  match o with
  | .next t => t
  | _ => s
def run (i : Instr) (s : State) : State := after (exec i s) s
/-- v(n) of lane 0, s(n), p(n) of lane 0, z(n), and the PC of lane 0 after an instruction. -/
def vOf (i : Instr) (n : Nat) (s : State) : Nat := (((run i s).weft 0).lane 0).v 256 n |>.toNat
def pairOf (i : Instr) (n : Nat) (s : State) : Nat := (((run i s).weft 0).lane 0).vPair 256 n |>.toNat
def sOf (i : Instr) (n : Nat) (s : State) : Nat := ((run i s).weft 0).sreg n |>.toNat
def pOf (i : Instr) (n : Nat) (s : State) : Bool := (((run i s).weft 0).lane 0).pred n
def zOf (i : Instr) (n : Nat) (s : State) : Bool := ((run i s).weft 0).zreg n
def pcOf (i : Instr) (s : State) : Nat := (((run i s).weft 0).lane 0).pc.toNat
def causeOf (i : Instr) (s : State) : Nat := ((run i s).weft 0).ncause.toNat

theorem test_m0 : m0.lanes = [0, 1] ∧ m0.cw.stk = 256 ∧ m0.privOf m0.key = true := by decide +kernel

/-! ### Premises that can be met: one witness for each claim and clause that has some -/

theorem witness_LaneIntegersComplete : (aw 6 (.v 3) (v 1) (v 2)).dst = .v 3 ∧ 2 ≤ m0.cw.stk := by decide +kernel
theorem witness_LaneWordsComplete : (aw 5 (.v 3) (v 1)).dst = .v 3 ∧ 2 ≤ m0.cw.stk := by decide +kernel
theorem witness_LaneFloatsComplete : (aw 11 (.v 3) (v 1) (v 2)).dst = .v 3 ∧ 2 ≤ m0.cw.stk := by decide +kernel
theorem witness_PackedFloatsComplete : (aw 11 (.v 4) (v 2) (v 6)).dst = .v 4 ∧ 2 ≤ m0.cw.stk := by decide +kernel
theorem witness_MeetsComplete : 2 ≤ m0.cw.stk := by decide +kernel
theorem witness_TimeAndZWritesComplete : (aw 15 (.t 2) (im 1)).dst = .t 2 := by decide
theorem witness_UniformsComplete : (aw 8 (.s 3) (sr 1) (sr 2)).dst = .s 3 := by decide
theorem witness_UniformsComplete_smovs : (aw 0 (.s 3) (im 1)).dst = .s 3 ∧
    regAssigned (m0.full m0.lead (aw 0 (.s 3) (im 1)).a 7) = true := by decide +kernel
theorem witness_CrossLanesComplete_kop : (aw 6 (.s 3) (.k 1) (im 0)).ty = 6 := by decide
theorem witness_MasksComplete_kop : (aw 1 (.k 2) (.k 1) (.k 3)).ty ≠ 6 := by decide
theorem witness_BranchesComplete_bra : m0.active ctl0 = [0, 1] ∧ ∀ l ∈ m0.active ctl0, targetRaise l (m0.target 4) = none := by
  decide +kernel
theorem witness_BranchesComplete_jmp : let s := mkV [] fun w => { w with s := [(1, 0x40010)] }
    ∀ l ∈ s.active ctl0, targetRaise l (s.jumpSource (sr 1) l) = none := by decide +kernel
theorem witness_BranchesComplete_brt : ctlHolds ctl0 (m0.cw.lane 0) = true ∧
    brtCond 0 ((m0.cw.lane 0).treg 1) (m0.core 0).cyc (m0.count .none 0) = true ∧
    ∀ l ∈ m0.lanes, targetRaise l (m0.target 4) = none := by decide +kernel
theorem witness_BranchesComplete_bdec : let s := mkV [] fun w => { w with s := [(2, 0)] }
    ctlHoldsU ctl0 s.cw = true ∧ s.cw.sreg 2 - 1 ≠ 0 ∧ targetRaise s.lead (s.target 4) = none := by decide +kernel
/-- Targets 2^52 and 2: both causes. -/
theorem witness_IllegalTargetsTrap_jmp : let s := mkV [] fun w => { w with s := [(1, 0x10000000000000), (2, 2)] }
    ((s.active ctl0).filterMap fun l => targetRaise l (s.jumpSource (sr 1) l)) =
      [⟨0, 6, 0, 0x10000000000000⟩, ⟨1, 6, 0, 0x10000000000000⟩] ∧
    ((s.active ctl0).filterMap fun l => targetRaise l (s.jumpSource (sr 2) l)) = [⟨0, 5, 4, 2⟩, ⟨1, 5, 4, 2⟩] := by
  decide +kernel
theorem witness_IllegalTargetsTrap_bra : let s := { m0 with cur := { m0.cur with va := 0xFFFFFFFFFFFFC } }
    ((s.active ctl0).filterMap fun l => targetRaise l (s.target 1)) =
      [⟨0, 6, 0, 0x10000000000000⟩, ⟨1, 6, 0, 0x10000000000000⟩] := by decide +kernel

/-- The result of the spills of a call, and whether all could be made. -/
def spilled (s : State) (n : Nat) : State × List Raise := s.spillAll s.key n s.cur.va s.lanes
/-- Lane 0 alone. -/
def one (s : State) : State := { s with cur := { s.cur with lanes := 1 } }
/-- A stack of 39 registers: a call with N = 8 spills one of lane 0. -/
def tight : State := one (mkV [] fun w => { w with stk := 39 })

theorem witness_CallsComplete : 2 ≤ tight.cw.stk ∧ tight.slideWaits tight.key 8 (tight.active ctl0) = false ∧
    (spilled tight 8).2 = [] ∧ (spilled tight 8).1.cw.sq.length = 1 ∧
    (∀ l ∈ tight.active ctl0, targetRaise l (tight.target 4) = none) := by decide +kernel
theorem witness_CallsComplete_calli : let s := mkV [] fun w => { w with s := [(1, 0x40010)] }
    s.slideWaits s.key 24 (s.active ctl0) = false ∧ (spilled s 24).2 = [] ∧
    (∀ l ∈ s.active ctl0, targetRaise l (s.jumpSource (sr 1) l) = none) := by decide +kernel
/-- A lane that CALL with N = 8 has entered, from VA 0x40000. -/
def called : Lane := { l0 with wb := 8, regs := [(38, 0x4000C), (39, 0x08000000)] }
theorem witness_RetCompletes : let s := mk called called
    s.active ctl0 = [0, 1] ∧ (∀ l ∈ s.active ctl0, s.retRaise l = none) ∧
    s.roomFor s.cur.core ((s.active ctl0).map fun l => (s.retFills l).length).sum = true := by decide +kernel
theorem witness_RetCompletes_link : 8 ∈ [8, 16, 24] ∧ 24 ∈ [8, 16, 24] ∧ m0.nextVa.toNat < 2 ^ 52 := by decide +kernel
theorem witness_WindowInstructionsComplete_spill : let s := one (mk called called)
    s.spillList (im 1) 0 = [0] ∧
    (∀ l ∈ s.active ctl0, ∀ L ∈ s.spillList (im 1) l, s.vPending s.key l L = none) ∧
    s.roomFor s.cur.core ((s.active ctl0).map fun l => (s.spillList (im 1) l).length).sum = true ∧
    (s.spillLists (s.spillList (im 1)) (s.active ctl0)).2 = [] := by decide +kernel
theorem witness_WindowInstructionsComplete_fill : let s := mk { called with lo := 8 } { called with lo := 8 }
    s.fillList (im 8) 0 ≠ [] ∧ (∀ l ∈ s.active ctl0, s.fillFault s.key l (s.fillList (im 8) l) = none) ∧
    s.roomFor s.cur.core ((s.active ctl0).map fun l => (s.fillList (im 8) l).length).sum = true := by decide +kernel
theorem witness_WaitsComplete : m0.active ctlP = [] ∧ m0.active ctl0 ≠ [] ∧ m0.cw.hmode = false ∧
    (let s := mkV [] fun w => { w with hmode := true }
     s.active ctl0 ≠ [] ∧ s.cw.hmode = true) := by decide +kernel
/-- t1 of lane 0 carries no request, is BOOKED, is at a fault, and is DONE (R82). -/
def timed (st : Nat) : State := mk { l0 with t := [(1, timage st 300)], treq := [(1, 7)] } l0
theorem witness_WaitsComplete_settled : (∀ l ∈ m0.active ctl0, Settled (m0.cw.lane l) 1) ∧
    (∀ l ∈ (timed stDone).active ctl0, Settled ((timed stDone).cw.lane l) 1) := by
  unfold Settled; decide +kernel
theorem witness_WaitsComplete_pending : 0 ∈ (timed stBooked).active ctl0 ∧
    (look 1 ((timed stBooked).cw.lane 0).treq).isSome ∧ tstate (((timed stBooked).cw.lane 0).treg 1) = stBooked ∧
    (look 1 ((timed stFault).cw.lane 0).treq).isSome ∧ tstate (((timed stFault).cw.lane 0).treg 1) = stFault := by
  decide +kernel

/-- Some bytes were fetched. -/
def fetched : Fetched → Bool
  | .bytes bs _ _ => !bs.isEmpty
  | _ => false
theorem witness_LiteralsComplete : fetched (m0.literal 2 4).2 = true ∧ fetched (m0.literal 2 8).2 = true := by decide +kernel
theorem witness_NarrowComplete : let s := withFmt m0
    s.narrowBad 17 (s.full s.lead (im 2) 7) = false ∧ m0.narrowBad 17 (m0.full m0.lead (im 2) 7) = true ∧
    m0.active ctl0 ≠ [] := by decide +kernel
theorem witness_TransfersComplete_sgetl : m0.getlMark (aw 15 (.s 1) (v 2) (im 0)) = none ∧
    (∀ i, i < (aw 15 (.s 1) (v 2) (im 0)).wd / 32 →
      m0.vPending m0.key 0 ((m0.cw.lane 0).wb + 2 + i) = none) := by decide +kernel
theorem witness_TransfersComplete_sputl : ctlHoldsU ctl0 m0.cw = true ∧
    m0.vHeld m0.key (m0.laneIdx (aw 16 (.v 2) (sr 1) (im 1))) 2 2 = false := by decide +kernel
/-- Each kind of register that the claim speaks of. -/
theorem witness_SmovcCompletes : let s := mkV [] fun w => { w with s := [(1, 0x800), (2, 7), (3, 0x8000000000000001), (4, 0x500000000)] }
    s.ctrlCheck s.key 0x010 (s.val s.lead (sr 1) 16) = none ∧ s.ctrlCheck s.key 0x011 (s.val s.lead (sr 2) 16) = none ∧
    s.ctrlCheck s.key 0x016 0 = none ∧ s.ctrlCheck s.key 0x200 (s.val s.lead (sr 3) 16) = none ∧
    s.ctrlCheck s.key 0x040 (s.val s.lead (sr 4) 16) = none ∧ s.ctrlCheck s.key 0x400 7 = none ∧ regDeferred 0x400 = true := by
  decide +kernel

/-- With a handler table. -/
def handled (f : Weft → Weft := id) : State := mkV [] fun w => f { w with tbase := 0x80000 }
theorem witness_TrapEntry : let s := handled
    s.cw.hmode = false ∧ s.cw.tbase ≠ 0 ∧ s.slideWaits s.key 32 (lanesOf 3) = false ∧
    (s.spillAll s.key 32 s.cur.va (lanesOf 3)).2 = [] := by decide +kernel
theorem witness_TrapFreezes : m0.cw.tbase = 0 ∧ (handled fun w => { w with hmode := true }).cw.hmode = true := by decide +kernel
/-- A stack area in a page that is not mapped: the spills of the entry fail. -/
def noStack : State :=
  let s := handled fun w => { w with stk := 32 }
  s.setGrid 1 { s.grid 1 with stkbase := 0x4000000000 }
theorem witness_TrapFreezes_spill : let s := noStack
    s.cw.hmode = false ∧ s.cw.tbase ≠ 0 ∧ s.slideWaits s.key 32 (lanesOf 3) = false ∧
    ((s.spillAll s.key 32 s.cur.va (lanesOf 3)).2.map (·.cause)).head? = some 0x16 ∧
    ((s.enterUpTo s.key 0x10 s.cw.tbase s.cur.va (lanesOf 3)).2.map (·.cause)) = some 0x16 := by decide +kernel
theorem witness_TrapWordsComplete : m0.active ctl0 ≠ [] ∧ m0.active ctlP = [] ∧
    (let s := mk { l0 with wb := 32, lo := 1 } { l0 with wb := 32 } fun w => { w with tlanes := 3, hmode := true }
     s.cw.hmode = true ∧ lanesOf s.cw.tlanes = [0, 1] ∧ span ((s.cw.lane 0).wb - 32) (s.cw.lane 0).lo = [0] ∧
     ∀ l ∈ lanesOf s.cw.tlanes, 32 ≤ (s.cw.lane l).wb ∧
       s.fillFault s.key l (span ((s.cw.lane l).wb - 32) (s.cw.lane l).lo) = none ∧
     s.roomFor (s.key / 64) ((lanesOf s.cw.tlanes).map fun l => (s.cw.lane l).lo - ((s.cw.lane l).wb - 32)).sum = true) := by
  decide +kernel
/-- The grid without PRIV. -/
def unpriv : State := m0.setGrid 1 { m0.grid 1 with priv := false }
theorem witness_PrivilegeTraps : unpriv.privOf unpriv.key = false ∧ unpriv.cw.hmode = false := by decide +kernel

/-! Accesses -/

def okAt : Check → Option Tgt
  | .ok t _ => some t
  | _ => none
theorem okAt_spec {c : Check} {t : Tgt} (h : okAt c = some t) : ∃ w, c = .ok t w := by
  cases c with
  | ok t' w => cases h; exact ⟨w, rfl⟩
  | recov => cases h
  | trap _ _ => cases h

/-- Further pages of 16 GiB: cells at 2^34, an SO page at 2^35, a recoverable fault at 3 × 2^34. -/
def pages (s : State) : State :=
  ((s.wr (loadBase + 0x3008) (leBytes 8 0x0104000080F1)).wr (loadBase + 0x3010) (leBytes 8 0x010800008075)).wr
    (loadBase + 0x3018) (leBytes 8 0x8002)
/-- Lane 0, with s1 to s4 at the base of LOCAL memory, of the RC page's upper half, of the cells and of the SO page. -/
def mem0 (f : Weft → Weft := id) : State :=
  one (pages (mkV [] fun w => f { w with s := [(1, 0xF000000000000), (2, 0x200000000), (3, 0x400000000), (4, 0x800000000)] }))
/-- The target of a lane's access of a word, as the checks of the claim find it. -/
def tgOf (s : State) (xs : List Access) (al n : Nat) (acc : Acc) (l : Nat) : Tgt :=
  match xs.find? (fun x => x.lane = l) with
  | some x => (okAt (s.check (s.agent s.key x.lane) x.va al n acc)).getD (.ctlWin 0)
  | none => .ctlWin 0

/-- The premises of AccessesComplete for one word of the table. -/
def accessible (s : State) (a : Asking) (tg : Nat → Tgt) : Bool :=
  !a.xs.isEmpty &&
  (a.xs.all fun x => okAt (s.check (s.agent s.key x.lane) x.va a.al a.n a.acc) = some (tg x.lane)) &&
  (a.xs.all fun x => !(tg x.lane).isSo || !s.soPending s.key x.lane) &&
  decide (s.outstanding s.cur.core + a.xs.length ≤ Config.maxRequests)
theorem accessible_spec {s : State} {a : Asking} {tg : Nat → Tgt} (h : accessible s a tg = true) :
    (∀ x ∈ a.xs, ∃ wk, s.check (s.agent s.key x.lane) x.va a.al a.n a.acc = .ok (tg x.lane) wk) ∧
    (∀ x ∈ a.xs, (tg x.lane).isSo = true → s.soPending s.key x.lane = false) ∧
    s.outstanding s.cur.core + a.xs.length ≤ Config.maxRequests := by
  simp only [accessible, Bool.and_eq_true, List.all_eq_true, decide_eq_true_eq, Bool.or_eq_true, Bool.not_eq_true'] at h
  refine ⟨fun x hx => okAt_spec (h.1.1.2 x hx), fun x hx hs => ?_, h.2⟩
  rcases h.1.2 x hx with h' | h'
  · rw [hs] at h'; cases h'
  · exact h'

/-- Where each word of the table is tried: the base register, its size and TYPE. -/
def trials : List (MemW × Tgt) := [
  (mw 15 (.v 4) (sr 4) .none 2, .mem 0x010800000000 .so), (mw 16 (.s 4) (sr 2) .none 3, .mem 0x010200000000 .rc),
  (mw 0 (.v 4) (sr 1) .none 0, .spad 0 0), (mw 5 (.v 4) (sr 2) (v 1) 2, .mem 0x010200000000 .rc),
  (mw 5 (.s 4) (sr 4) (sr 1) 2, .mem 0x010800000000 .so), (mw 15 (.v 4) (sr 1) (v 1) 2, .spad 0 0),
  (mw 11 .none (sr 3) (v 1) 2, .cell 0x010400000000 0), (mw 15 .none (sr 1) (v 1) 2, .spad 0 0)]
theorem witness_AccessesComplete : (askings.zip trials).length = 8 ∧
    ∀ p ∈ askings.zip trials, accessible mem0 (p.1.2 p.2.1 mem0) (fun _ => p.2.2) = true := by decide +kernel
theorem witness_AccessesComplete_sttag : let xs := mem0.accesses (mw 0 .none (sr 2) (im 0)) false (fun l => mem0.val l (im 0) 5 % 2 ^ 16) fun _ => 0
    xs.length = 1 ∧ ∀ x ∈ xs, tagBad x.x = false ∧ isHost 0x010200000000 = false ∧
      okAt (mem0.check (mem0.agent mem0.key x.lane) x.va 64 64 .sttag) = some (.mem 0x010200000000 .rc) := by decide +kernel
theorem witness_StoresComplete (w : MemW) (t : Tgt)
    (h : (w, t) ∈ [(mw 15 .none (sr 1) (v 2) 2, .spad 0 0), (mw 15 .none (sr 4) (v 2) 2, .mem 0x010800000000 .so)]) :
    let xs := mem0.accesses w false (fun l => mem0.storeData l w.b w.ty.toNat w.bytes) fun _ => 0
    xs.length = 1 ∧ ∀ x ∈ xs, Storable mem0 x t ∧ ∃ wk, mem0.mustWait true [(x, t, wk)] = false ∧
      mem0.check (mem0.agent mem0.key x.lane) x.va w.bytes w.bytes .write = .ok t wk := by
  have hw : ∀ p ∈ [(mw 15 .none (sr 1) (v 2) 2, Tgt.spad 0 0), (mw 15 .none (sr 4) (v 2) 2, .mem 0x010800000000 .so)],
      let xs := mem0.accesses p.1 false (fun l => mem0.storeData l p.1.b p.1.ty.toNat p.1.bytes) fun _ => 0
      xs.length = 1 ∧ ∀ x ∈ xs, okAt (mem0.check (mem0.agent mem0.key x.lane) x.va p.1.bytes p.1.bytes .write) = some p.2 ∧
        mem0.mustWait true [(x, p.2, .recov)] = false := by decide +kernel
  have h' := hw (w, t) h
  refine ⟨h'.1, fun x hx => ?_⟩
  obtain ⟨wk, hk⟩ := okAt_spec (h'.2 x hx).1
  refine ⟨?_, wk, (h'.2 x hx).2, hk⟩
  simp only [List.mem_cons, Prod.mk.injEq, List.not_mem_nil, or_false] at h
  rcases h with ⟨_, rfl⟩ | ⟨_, rfl⟩ <;> exact trivial
theorem witness_StoresComplete_room : ∀ w ∈ [mw 15 .none (sr 1) (v 2) 2, mw 15 .none (sr 4) (v 2) 2],
    mem0.outstanding mem0.cur.core + (mem0.accesses w false (fun l => mem0.storeData l w.b w.ty.toNat w.bytes) fun _ => 0).length ≤
      Config.maxRequests := by decide +kernel
theorem witness_TimeAtIssue : (default : Req).tsel ≠ some 1 ∧ ({ (default : Req) with tsel := some 1, lanes := 3 } : Req).tsel = some 1 ∧
    lanesOf ({ (default : Req) with tsel := some 1, lanes := 3 } : Req).lanes = [0, 1] := by decide +kernel
theorem witness_LinesComplete_clrc : let s := mem0 fun w => { w with lanes := [(0, { l0 with regs := [(2, 3)] })] }
    s.active ctl0 = [0] ∧ s.val 0 (v 2) 5 = 3 ∧ (s.clrcCheck 0 (s.ea (mw 0 .none (sr 3) (v 2)) 0).toNat 3).length = 1 ∧
    ∀ c ∈ s.clrcCheck 0 (s.ea (mw 0 .none (sr 3) (v 2)) 0).toNat 3, okAt c.2 = some (.cell 0x010400000000 0) := by decide +kernel
theorem witness_LinesComplete_clrc0 : mem0.val 0 (v 2) 5 = 0 ∧
    okAt (mem0.check (mem0.agent mem0.key 0) (mem0.ea (mw 0 .none (sr 3) (v 2)) 0) 32 32 .clrc) = some (.cell 0x010400000000 0) := by
  decide +kernel
/-- A line of the RC page in the view. -/
def viewed : State := mem0.mapCore 0 fun c => { c with view := [(0x010200000000, ⟨7, false, false, 1, false⟩)] }
theorem witness_LinesComplete_pref : viewed.outstanding 0 + 1 ≤ Config.maxRequests ∧
    (viewed.softTarget (viewed.agent viewed.key 0) 0x200000000).map (·.1) = some (.mem 0x010200000000 .rc) ∧
    isHost 0x010200000000 = false ∧ (viewed.core 0).holdsLine (align (local46 0x010200000000) 128) = true := by decide +kernel
theorem witness_LinesComplete_lck :
    okAt (mem0.lckCheck (mem0.agent mem0.key 0) (mem0.ea (mw 0 .none (sr 2) .none) 0)) = some (.mem 0x010200000000 .rc) ∧
    (pinLine (.mem 0x010200000000 .rc)).isSome = true := by
  decide +kernel
theorem witness_FenceCompletes : (∀ l ∈ viewed.active ctl0, viewed.fenceWaits viewed.key l 4 = false) ∧ viewed.wide viewed.key 4 = true ∧
    (let s := mem0 fun w => { w with sq := [⟨0, .spad 0 0, [1], false, 0, false, 1, 0xF000000000000⟩] }
     ∃ l ∈ s.active ctl0, s.fenceWaits s.key l 2 = true) := by
  refine ⟨by decide +kernel, by decide +kernel, 0, ?_⟩
  decide +kernel
/-- The clean copy that the FENCE finds. -/
theorem witness_FenceCompletes_copy : viewed.active ctl0 ≠ [] ∧ ∃ e ∈ (viewed.core viewed.cur.core).view,
    e.2.dirty = false ∧ e.2.uo = false := by decide +kernel
theorem witness_SkippedWords : ctlHoldsU ctlP m0.cw = false ∧ m0.privOf m0.key = true ∧
    (let s := mkV [] fun w => { w with hmode := true }; ctlHoldsU ctlP s.cw = false ∧ s.cw.hmode = true) := by decide +kernel
theorem witness_BarriersComplete_bar : ctlHoldsU ctl0 m0.cw = true ∧ (∀ l ∈ m0.lanes, m0.releaseReady m0.key l m0.nextId 1 = true) ∧
    (liveWefts m0 1 ≠ [] ∧ ∀ k ∈ liveWefts m0 1, (m0.weft k).index ∈ [0]) := by decide +kernel
/-- A second weft that has not arrived. -/
theorem witness_BarriersComplete_bar_waits :
    let s := (m0.setWeft 1 { live := true, team := 1, index := 1, lanes := [(0, l0)] }).mapTeam 1 fun t => { t with wefts := [0, 1] }
    (∀ l ∈ s.lanes, s.releaseReady s.key l s.nextId 1 = true) ∧ ¬∀ k ∈ liveWefts s 1, (s.weft k).index ∈ [0] := by decide +kernel
theorem witness_BarriersComplete_bara : let xs := mem0.accesses (mw 0 (.s 5) (sr 1) (im 1)) true (fun _ => mem0.half (im 1)) fun _ => 0
    xs.length = 1 ∧ ∀ x ∈ xs, okAt (mem0.check (mem0.agent mem0.key x.lane) x.va 16 16 .bar) = some (.spad 0 0) := by decide +kernel
theorem witness_BarriersComplete_bari : mem0.word (im 1) = 1 ∧
    okAt (mem0.check (mem0.agent mem0.key mem0.lead) (mem0.ea (mw 0 (.s 5) (sr 1) (im 1)) mem0.lead) 16 16 .bar) = some (.spad 0 0) ∧
    mem0.actsNow mem0.lead (mem0.ea (mw 0 (.s 5) (sr 1) (im 1)) mem0.lead).toNat (.spad 0 0) 16 = true := by decide +kernel
/-- A weft of index 1 has written g3 in this cycle of its Home, by GADD or not (R116). -/
def behind (add : Bool) : State := m0.mapTeam 1 fun t => { t with gLast := [(3, (m0.gCycle 1, 1, add))] }
theorem witness_TeamRegistersComplete : ctlHoldsU ctl0 m0.cw = true ∧ m0.gaddPending m0.key = false ∧
    m0.gBehind m0.cw.team 3 m0.cw.index = none ∧
    ∀ b ∈ [false, true], (behind b).gaddPending (behind b).key = false ∧
      (behind b).gBehind (behind b).cw.team 3 (behind b).cw.index = some b := by decide +kernel

/-- The team owns ring 3 of core 0: four slots of 32 bytes. -/
def ringed : State := m0.setRing 0 3 { base := 64, count := 4, log2 := 5, free := 4, acl := 1, owner := some 1 }
theorem witness_RingsComplete_rput : let s := one (mk { l0 with regs := [(6, 0x07C00000)] } l0)
    s.active ctl0 = [0] ∧ (∀ l ∈ s.active ctl0, s.rputRaise (mw 0 (.v 5) (im 3) (v 6)) l = none) ∧
    s.outstanding s.cur.core + 1 ≤ Config.maxRequests := by decide +kernel
theorem witness_RingsComplete : ringed.word (im 3) ≤ 15 ∧ ringed.ownsRing (ringed.word (im 3)) = true ∧
    ringed.outstanding 0 + 2 ≤ Config.maxRequests ∧ ctlHoldsU ctl0 ringed.cw = true := by decide +kernel

/-- Fold 5 of die 0, bound to the grid, with core 0 a member, and without. -/
def folded (members : List (Nat × Nat)) : State :=
  m0.setFold 5 { bound := true, grid := 1, tenant := 0, asid := 1, wsize := 4096, timer := 100, members := members }
theorem witness_FoldsComplete : let s := folded [(0, 0)]
    s.word (im 5) ≤ 63 ∧ s.foldKey 5 = 5 ∧ (s.fold 5).bound = true ∧ (s.fold 5).tenant = (s.gridOf s.key).tenant ∧
    s.foldBusy 0 5 = false ∧ (∃ m ∈ (s.fold 5).members, m.1 = s.cur.core) ∧ (folded []).fold 5 ≠ s.fold 5 ∧
    ¬32 ≤ ((folded []).fold 5).members.length ∧ (m0.fold 5).bound = false ∧
    32 ≤ ((folded ((List.range 32).map fun i => (i + 1, 0))).fold 5).members.length := by decide +kernel
theorem witness_FoldsComplete_fld : let s := one (folded [(0, 0)])
    s.fldRaise { mw 0 (.z 1) (sr 6) (sr 7) with tsel := some 2, subop := 5 } = none := by decide +kernel

/-! Engines -/

theorem witness_ChunkWaitsComplete : let w := ew .none (sr 5) .none
    let s := one (mkV [] fun x => { x with s := [(5, 3)] })
    let t := s.mapCore 0 fun c => { c with spad := mwrite c.spad 0 [3] }
    ctlHoldsU w.ctl s.cw = true ∧ s.chunkWord (fieldOf w 64 21) = some 0 ∧ 0 &&& s.word w.a ≠ s.word w.a ∧
    s.actsNow s.lead (0xF000000000000 + fieldOf w 64 21) (s.localTgt (fieldOf w 64 21)) 8 = true ∧
    t.actsNow t.lead (0xF000000000000 + fieldOf w 64 21) (t.localTgt (fieldOf w 64 21)) 8 = true ∧ t.chunkWord 0 = some 3 ∧ 3 &&& t.word w.a = t.word w.a ∧
    t.wide t.key 3 = true := by decide +kernel
/-- MMA of two 1 × 1 tiles of FP32 with K = 8, tile 5, tag 2. -/
def mma1 : EngW := ew (.s 9) (sr 5) (sr 6) (BitVec.ofNat 64 (5 + 2 ^ 6 + 2 ^ 12 + 2 ^ 18 * 8 + 2 ^ 39 * 2))
def loomed (f : Weft → Weft := id) : State :=
  one (mkV [] fun x => f { x with s := [(5, 0x100), (6, 0x200), (9, 64 + 2 ^ 32 * 64)] })
theorem witness_LoomWordsComplete_mma : let s := loomed
    let o := s.mmaOp mma1 false []
    (o.m, o.n, o.k, o.tile, o.tag) = (1, 1, 8, 5, 2) ∧ s.loomOut = false ∧ s.loomFull = false ∧ s.ownQueued = false ∧
    (lookD 5 (0 : Word) (s.core 0).acown).getLsbD 63 = false ∧ mmaBad o (s.word mma1.a) (s.word mma1.b) = none ∧
    ∀ r ∈ o.rows, r.1 - s.spbase s.key + r.2 ≤ (s.teamOf s.key).spad := by decide +kernel
theorem witness_LoomWordsComplete_mmas : let s := loomed
    let o := s.mmaOp mma1 true []
    mmaBad o o.a o.b = none ∧ s.releaseReady s.key s.lead s.nextId 3 = true ∧
    ∀ va ∈ o.pages, okAt (s.pageCheck o.agent va) = some (.mem (0x010000000000 + va) .rc) := by decide +kernel
theorem witness_LoomWordsComplete_await : let o := loomed.mmaOp mma1 false []
    let s := loomed.mapCore 0 fun c => { c with loomq := [.mma o] }
    (∃ p ∈ (s.core 0).loomOps, p.agent.core = s.cur.core ∧ p.agent.slot = s.cur.slot ∧ p.tag = 2) ∧ look 2 s.cw.reports = none ∧
    ∀ p ∈ (s.core 0).loomOps, ¬(p.agent.core = s.cur.core ∧ p.agent.slot = s.cur.slot ∧ p.tag = 3) := by decide +kernel
/-- Tile 5, M = 2, N = 4, FP32, base s5 and stride s9. -/
def tile1 (fm extra : Nat) : EngW := ew (.s 9) (sr 5) .none (BitVec.ofNat 64 (5 + 2 ^ 6 * 2 + 2 ^ 12 * 4 + 2 ^ 18 * fm + extra))
theorem witness_TileWordsComplete : let s := loomed
    (s.core 0).tilePending 5 = false ∧ s.ownQueued = false ∧ s.privOf s.key = true ∧
    (let d := (s.cw.sreg 9).toNat % 2 ^ 32
     d % 4 = 0 ∧ s.word (sr 5) % 4 = 0 ∧ (∀ i, i < 2 → s.word (sr 5) + i * d + tileRow 0 4 ≤ (s.teamOf s.key).spad) ∧
     (∀ i, i < 2 → s.word (sr 5) + i * d + astRow 0 4 false ≤ (s.teamOf s.key).spad) ∧ astRow 0 4 false ≤ d ∧
     s.rowsFree (s.word (sr 5)) d 2 (tileRow 0 4) = true ∧ s.rowsFree (s.word (sr 5)) d 2 (astRow 0 4 false) = true ∧
     (∀ i, i < 2 → ∀ j, j < 4 → look (accKey 5 i j) (s.core 0).accBad = none) ∧
     fieldOf (tile1 0 0) 82 2 < 2) := by decide +kernel
/-- A tagged narrow output: FM 2 of FMT2, an E4M3 format, base and stride multiples of 64. -/
theorem witness_TileWordsComplete_tagged : let w := tile1 2 (2 ^ 20 * 2 + 2 ^ 35)
    let s := withFmt loomed
    let d := (s.cw.sreg 9).toNat % 2 ^ 32
    w.ext.getLsbD 35 = true ∧ d % 64 = 0 ∧ s.word (sr 5) % 64 = 0 ∧ fieldOf w 82 2 = 2 ∧ (s.narrowOf (fieldOf w 84 4)).valid = true ∧
    (s.narrowOf (fieldOf w 84 4)).cw = true ∧ astRow 2 4 true ≤ d ∧ s.rowsFree (s.word (sr 5)) d 2 (astRow 2 4 true) = true ∧
    ∀ i, i < 2 → s.word (sr 5) + i * d + astRow 2 4 true ≤ (s.teamOf s.key).spad := by decide +kernel
theorem witness_TileWordsComplete_save : let s := one (mkV [] fun x => { x with s := [(5, 0x010200000000)] })
    let o := s.word (sr 5)
    o % 4096 = 0 ∧ o < 2 ^ 52 ∧ s.isLocal o = true ∧ s.populated (s.ctx (s.ctxOf s.key)).asid (local46 o) 4096 = true ∧
    ∀ b, b < 64 → look (local46 o / 64 + b) s.poison = none := by decide +kernel
/-- A record: A at 0, B at 64, OUT at 128, M = N = 1, K = 8. -/
def record1 : List Byte :=
  leBytes 8 0x200000000 ++ leBytes 8 0x200000040 ++ leBytes 8 0x200000080 ++ leBytes 4 64 ++ leBytes 4 64 ++ leBytes 4 64 ++
    leBytes 4 (1 + 2 ^ 6 + 2 ^ 12 * 8) ++ leBytes 24 0
theorem witness_HintsAndTasksComplete_valid : taskValid record1 = true ∧ taskValid (leBytes 64 0) = false ∧
    taskM record1 = 1 ∧ taskN record1 = 1 ∧ taskK record1 = 8 := by decide +kernel
theorem witness_HintsAndTasksComplete_tqadd : let w := ew (.s 9) (im 64) .none
    let s := m0
    ctlHoldsU w.ctl s.cw = true ∧ s.loomOut = false ∧ (∀ l ∈ s.lanes, s.releaseReady s.key l s.nextId 3 = true) ∧
    w.a.kind ≠ 1 ∧ s.word w.a % 64 = 0 ∧ s.word w.a + 64 ≤ (s.teamOf s.key).spad := by decide +kernel
theorem witness_HintsAndTasksComplete_lanes : let w := ew (.v 9) (v 1) .none
    let s := mkV [(1, 128)]
    w.a.kind = 1 ∧ s.lanes ≠ [] ∧ ∀ l ∈ s.lanes, s.raw l w.a false % 64 = 0 ∧ s.raw l w.a false + 64 ≤ (s.teamOf s.key).spad := by
  decide +kernel
theorem witness_HintsAndTasksComplete_enqueue :
    (m0.enqueueTask (m0.agent 0 0) 1 record1).1 = 0 ∧ (m0.enqueueTask (m0.agent 0 0) 1 (leBytes 64 0)).1 = 2 ∧
    ((m0.setMeadow 0 { queues := [(1, List.replicate 256 ⟨record1, m0.agent 0 0, 1, [], false, none, []⟩)] }).enqueueTask
      (m0.agent 0 0) 1 record1).1 = 1 := by decide +kernel
theorem witness_LaunchesComplete : let va := mem0.cw.sreg 2
    okAt (mem0.readLoad va 64 64).1 = some (.mem 0x010200000000 .rc) ∧ mem0.mayRead (va, mem0.readLoad va 64 64) = true ∧
    mem0.readTrap (va, mem0.readLoad va 64 64) = none ∧ launchParts va (mem0.readLoad va 64 64).2 = [] ∧
    ∀ l ∈ mem0.lanes, mem0.releaseReady mem0.key l mem0.nextId 4 = true := by decide +kernel
/-- Grids 1 (running), 2, 3 and 4 (ended) of tenant 0, whose next launch is number 5. -/
def graded : State :=
  let s := m0.setTenant 0 { launchSeq := 5 }
  ((s.setGrid 2 { s.grid 1 with handle := 2, status := .done }).setGrid 3 { s.grid 1 with handle := 3, status := .refused }).setGrid 4
    { s.grid 1 with handle := 4, status := .failed }
theorem witness_LaunchesComplete_waitg : (graded.gridOf graded.key).tenant = 0 ∧ graded.recentGrid 0 9 = none ∧
    (graded.recentGrid 0 1).map (·.status) = some .pending ∧ (graded.recentGrid 0 2).map (·.status) = some .done ∧
    (graded.recentGrid 0 3).map (·.status) = some .refused ∧ (graded.recentGrid 0 4).map (·.status) = some .failed := by
  decide +kernel
/-- An entry posted as number 7 of tenant 0. -/
def entry7 : FaultEntry := ⟨0, 7, 0, 1, 0, 0xC00000000, 0, 0, 0, 1, 1, .lanes 0 0 1⟩
theorem witness_SystemWordsComplete : let s := m0.setTenant 0 { faultSeq := 8, faults := [(7, entry7)], slots := [7] }
    s.privOf s.key = true ∧ (∀ l ∈ s.lanes, s.releaseReady s.key l s.nextId 4 = true) ∧
    (∃ e ∈ (s.tenant 0).faults, e.2.seq = s.word (im 7) % 2 ^ 32) ∧ 7 ∉ (s.tenant 0).fresumes ∧
    ∀ e ∈ (s.tenant 0).faults, e.2.seq ≠ s.word (im 9) % 2 ^ 32 := by decide +kernel
theorem witness_SystemWordsComplete_genbump : m0.word (im 1) ≤ 255 ∧ (m0.asidWord 1 0).getLsbD 0 = true ∧
    (∀ b ∈ m0.bumps, b.asid ≠ 1) ∧ (∀ l ∈ m0.lanes, m0.olderDone m0.key l m0.nextId true true = true) ∧
    m0.written m0.cur.core true = true ∧ m0.word (im 256) ≤ 256 ∧ m0.hub.snapHeld = false := by decide +kernel
/-- Selectors: v5, s5, p5 of lane 1, z1, PC and MEET of lane 1. -/
theorem witness_OtherWeftsComplete : let s := mkV [] fun w => { w with hmode := true }
    ctlHoldsU ctl0 s.cw = true ∧ s.cw.hmode = true ∧ s.teamWeft (s.word (im 0)) = some 0 ∧
    (∀ x ∈ [1 + 2 ^ 11 * 5, 2 ^ 7 + 2 ^ 11 * 5, 1 + 2 ^ 7 * 3 + 2 ^ 11 * 5, 2 ^ 7 * 6 + 2 ^ 11, 1 + 2 ^ 7 * 7, 1 + 2 ^ 7 * 8, 1 + 2 ^ 7 * 2],
      s.selPending 0 x = none ∧ selBad x (s.weft 0).width false = false ∧ selBad x (s.weft 0).width true = false ∧
      ((s.weft 0).lane (selLane x)).tBusy (selNum x) = false) ∧ 0 < (s.weft 0).stk := by decide +kernel

/-! Events -/

theorem witness_DecisionsComplete : let s := { mkV [] with issuing := false }
    s.expiryDue 0 = false ∧ s.chooseWeft 0 0 = some 0 ∧ s.issuables 0 = [0, 1] := by decide +kernel
theorem witness_DecisionsComplete_sleep : let s := (mk { l0 with wait := .sleepUntil 4 } l0).mapCore 0 fun c => { c with cyc := 5 }
    ((s.weft 0).lane 0).wait = .sleepUntil 4 ∧ 4 ≤ (s.core 0).cyc := by decide +kernel
theorem witness_DecisionsComplete_g :
    ((m0.mapTeam 1 fun t => { t with gq := [(0, 3, 9)] }).team 1).gq.find? (fun e => decide (e.1 = 0) && decide (e.2.1 = 3)) = some (0, 3, 9) := by
  decide +kernel

def req0 : Req := { (default : Req) with
  id := 1, agent := m0.agent 0 0, op := .load false, ty := 15, size := 4, lanes := 1, dst := .v, phase := .probe, level := 16,
  parts := [⟨0, 0x800000000, 0, 0, 0, 4, .mem 0x010800000000 .so⟩] }
/-- One request, on core 0 at cycle 100. -/
def asked (r : Req) : State := { (mem0.mapCore 0 fun c => { c with cyc := 100 }) with reqs := [r], nextId := 2 }
/-- A store of two bytes at the head of the queue, with its request. -/
def stored (t : Tgt) : State :=
  let s := asked { req0 with op := .store, size := 2, dst := .none, phase := .waiting, parts := [⟨0, 0, 0, 0, 0, 0, t⟩] }
  s.mapWeft 0 fun w => { w with sq := [⟨0, t, [1, 2], false, 0, false, 1, 0⟩] }
theorem witness_ViewEventsComplete_drain : ∀ t ∈ [Tgt.mem 0x010800000000 .so, .spad 0 64, .mem 0x010200000000 .rc, .mem 0x010200000000 .uo],
    let s := stored t
    ∃ e ∈ (s.weft 0).sq, ∃ r ∈ s.reqs, s.req e.req = some r ∧ s.mayDrain 0 0 e r = true ∧ s.drainFate r e.tgt = .current ∧
      (s.useL1 r.agent.core (align (local46 e.tgt.base) 128)).isSome = true := by decide +kernel
/-- Eight lines of the set of a line of L1, all pinned: it has no place (R49, R70). -/
def fullSet (s : State) (line : Nat) : State :=
  let ls := (List.range 8).map fun i => line + 2 ^ 15 * (i + 1)
  s.mapCore 0 fun c => { c with lru := ls, pins := ls.map fun a => ⟨a, 1, false⟩ }
theorem witness_ViewEventsComplete_full : let s := fullSet (stored (.mem 0x010200000000 .rc)) 0x010200000000
    ∃ e ∈ (s.weft 0).sq, ∃ r ∈ s.reqs, s.req e.req = some r ∧ s.mayDrain 0 0 e r = true ∧ s.drainFate r e.tgt = .current ∧
      (s.useL1 r.agent.core (align (local46 e.tgt.base) 128)).isNone = true := by decide +kernel
/-- A line of slice 5 with a dirty byte that memory held as 9. -/
theorem witness_ViewEventsComplete_l2 : let x : L2Line := ⟨5, 0x3000, [1], true, [(0x3001, 9)], []⟩
    let s := { m0 with l2 := [x] }
    s.l2At 5 (align (64 * 0xC0) 128) = some x ∧ s.l2Pinned x = false ∧ s.l2Held x = false ∧ (look 0x3001 x.under).isSome = true := by
  decide +kernel
theorem witness_ViewEventsComplete_writeBack :
    (((m0.mapCore 0 fun c => { c with view := [(64, ⟨7, true, false, 1, false⟩)] }).core 0).view.map (·.1)).Nodup ∧
    64 ∈ sectorAddrs 1 1 := by decide +kernel
/-- The walk of the RC page, kept by core 0. -/
def kept : State := mem0.mapCore 0 fun c => { c with tlb := [⟨1, 0, 0, 2 ^ 34, 0x010000000000, 0x010000008071⟩] }
theorem witness_ViewEventsComplete_fill : kept.mapsSector 0 (0x010200000000 / 64) false 1 = true ∧
    (kept.useL1 0 0x010200000000).isSome = true ∧ ((fullSet kept 0x010200000000).useL1 0 0x010200000000).isNone = true := by
  decide +kernel
/-- A full buffer of an LPDDR controller: one line stands for all, which no run reaches. -/
def cellsFull : State :=
  let b := 0x010400000000
  { m0 with
    cells := [(b, 1)]
    cellUse := List.replicate 32768 b
    reqs := [{ (default : Req) with op := .cadd, phase := .probe, parts := [⟨0, 0, 0, 0, 0, 0, .cell (b + 64) 0⟩] }] }
theorem witness_ViewEventsComplete_cells : let b := 0x010400000000
    look b cellsFull.cells = some 1 ∧ 32768 ≤ (cellsFull.cellsNear b).length ∧ isLpddr b = true ∧ cellsFull.cellWanted b = true ∧
    cellsFull.mscHeld b = false ∧ (cellsFull.cellsNear b).getLast? = some b := by
  have hn : cellsFull.cellsNear 0x010400000000 = List.replicate 32768 0x010400000000 := by
    show List.filter _ (List.replicate 32768 0x010400000000) = _
    rw [List.filter_eq_self]
    intro e he
    rw [List.eq_of_mem_replicate he]
    decide +kernel
  refine ⟨rfl, ?_, by decide +kernel, by decide +kernel, by decide +kernel, ?_⟩
  · exact Nat.le_of_eq (by rw [hn, List.length_replicate])
  · rw [hn, List.getLast?_replicate]; rfl

theorem witness_ReadsComplete :
    (∀ op ∈ [ReqOp.load false, .chkt 3], let r := { req0 with op := op, phase := .booked, level := 0, parts := [⟨0, 0, 0, 0, 0, 4, .spad 0 64⟩] }
     let s := asked r
     s.req 1 = some r ∧ s.viewServes r = true ∧ s.maySatisfy r = true ∧ s.loadPoison r = none ∧ r.acq = false ∧
     ∀ p ∈ r.parts, p.tgt.viewAt = none) ∧
    (let r := { req0 with phase := .booked, level := 1, parts := [⟨0, 0, 0, 0, 0, 4, .mem 0x010200000000 .rc⟩] }
     let s := asked r
     s.req 1 = some r ∧ s.viewServes r = true ∧ s.maySatisfy r = true ∧ s.loadPoison r = none ∧ r.acq = false) ∧
    (let r := { req0 with op := .waitc 0, homed := true, acq := true, size := 8 }
     let s := asked r
     s.req 1 = some r ∧ r.op.isWait = true ∧ r.satisfied = false ∧ ∀ p ∈ r.parts, s.acquirePending r.key p.lane r.id = false) ∧
    (let r := { req0 with op := .atom 0, ty := 2, phase := .answered }
     let s := asked r
     s.req 1 = some r ∧ s.mayModify r = true ∧ s.fate r r.tgt = .current ∧ s.poisonOf r.tgt r.span = none ∧ r.acq = false) ∧
    (let r := { req0 with op := .gadd 3, size := 0, dst := .s 4, parts := [⟨0, 0, 5, 0, 0, 4, .ctlWin 0⟩] }
     let s := asked r
     s.req 1 = some r ∧ s.peerLost r.tgt = false ∧ s.fate r r.tgt = .current ∧ s.poisonOf r.tgt r.span = none ∧
     s.mayModify r = true ∧ (∀ q ∈ s.reqs, ¬(q.key = r.key ∧ q.id < r.id)) ∧
     s.gBehind r.agent.team 3 (s.weft r.key).index = none) := by decide +kernel

/-- A request to HBM that its controller admits, and one that the LPDDR tier books. -/
def hbm1 : Req := { req0 with parts := [⟨0, 0, 0, 0, 0, 4, .mem 0x3000 .rc⟩] }
theorem witness_PromisesComplete :
    (let r := { req0 with phase := .walk }
     (asked r).req 1 = some r) ∧
    (∀ r ∈ [hbm1, req0], let s := asked r
     s.req 1 = some r ∧ s.needsSlot r = true ∧ s.queueAhead r = false ∧
     s.reedUsed 9 (memSidePlace (local46 r.tgt.base)) s.hub.clk 0 = 0 ∧
     (isHbm (local46 r.tgt.base) = true → (s.stack (hbmStack (local46 r.tgt.base))).retraining = false ∧
       ((s.stack (hbmStack (local46 r.tgt.base))).step < 11 →
         s.reedUsed 9 (memSidePlace (local46 r.tgt.base)) (s.hub.clk - 1) 0 = 0))) ∧
    (let r := hbm1
     let s := (asked r).setStack (hbmStack 0x3000) { retraining := true }
     s.req 1 = some r ∧ s.needsSlot r = true ∧ isHbm (local46 r.tgt.base) = true ∧ (s.stack (hbmStack (local46 r.tgt.base))).retraining = true) ∧
    (let r := { hbm1 with admitted := true, issued := 90 }
     let s := asked r
     let fig := Config.idleFigure 6 (r.far 6) + r.extra
     let at' := s.readyAt r 6 0
     s.req 1 = some r ∧ s.firstSlot 0 (s.claims r 6 fig) (100 + 1024 - min at' (100 + 1023)) at' = some 90 ∧ s.mayBook r 6 = true ∧
     100 < 90 + fig) ∧
    (let r := { req0 with phase := .answered, level := 3, slot := 110, issued := 0, tsel := some 1 }
     let s := (asked r).mapWeft 0 fun w => w.setLane 0 { l0 with treq := [(1, 1)] }
     r.promise = 0 ∧ r.issued + Config.answerFigure r.level r.dist ≤ 100 ∧ 100 < r.slot ∧
     lookD 1 0 ((s.weft r.key).lane 0).treq = r.id ∧ lanesOf r.lanes = [0]) := by decide +kernel
theorem witness_PromisesComplete_landing :
    (let r := { req0 with phase := .booked, level := 7, slot := 100, promise := 100, satisfied := true, dst := .s 4, size := 8 }
     let s := asked r
     s.req 1 = some r ∧ s.mayLand r = true ∧ r.op ≠ .barw) ∧
    (let r := { req0 with phase := .booked, level := 3, slot := 100, promise := 100, satisfied := true, armed := true, inject := 60 }
     let s := asked r
     s.req 1 = some r ∧ s.landingDue r = true ∧ r.delays = true ∧ r.op ≠ .barw) ∧
    (let r := { req0 with op := .barw, homed := true, satisfied := true, dst := .z 1 }
     let s := asked r
     s.req 1 = some r) := by decide +kernel

theorem witness_HomesComplete :
    (let r := { req0 with phase := .booked }
     let s := asked r
     s.req 1 = some r ∧ s.viewServes r = false ∧ s.maySatisfy r = true ∧ s.fate r r.tgt = .current ∧ s.loadPoison r = none ∧
     r.acq = false ∧ ∀ p ∈ r.parts, s.forward r p = some none) ∧
    (let r := { req0 with phase := .booked, parts := req0.parts.map fun p => { p with tgt := .spad 0 64 } }
     let u := (asked r).markPoison r
     u.viewServes r = false ∧ u.maySatisfy r = true ∧ u.fate r r.tgt = .current ∧ 1 ≤ r.size ∧
     ∀ p ∈ r.parts, u.forward r p = some none) ∧
    (let r := { req0 with op := .waitc 0, ty := 6, size := 8 }
     let s := asked r
     s.req 1 = some r ∧ r.op.isWait = true ∧ s.peerLost r.tgt = false ∧ s.fate r r.tgt = .current ∧ s.poisonOf r.tgt r.span = none ∧
     s.waitersAt r.tgt r.agent.asid < 256 ∧ r.homed = false ∧ (s.waitAnswer r).isSome = true ∧ s.mayArrive r = true) ∧
    (let r := { req0 with op := .waitc 0, ty := 6, size := 8, overflow := true, tries := 1 }
     let s := (asked r).mapCore 0 fun c => { c with cyc := 600 }
     s.req 1 = some r ∧ s.peerLost r.tgt = false ∧ s.fate r r.tgt = .current ∧ s.poisonOf r.tgt r.span = none ∧
     s.waitersAt r.tgt r.agent.asid < 256 ∧ (s.waitAnswer r).isSome = true ∧ r.admitted = false ∧
     r.issued + 256 * (r.tries + 1) ≤ (s.core r.agent.core).cyc) ∧
    (let r := { req0 with phase := .booked, promise := 40, tsel := some 1 }
     let s := asked r
     s.req 1 = some r ∧ r.promise ≠ 0 ∧ r.late = false ∧ r.promise < (s.core r.agent.core).cyc) := by decide +kernel

theorem witness_RetriesComplete :
    (let r := { req0 with phase := .stale }
     let s := asked r
     s.req 1 = some r ∧ r.op ≠ .store ∧
     okAt (s.check r.agent 0x800000000 1 4 r.op.acc) = some (.mem 0x010800000000 .so)) ∧
    (∀ l ∈ [1, 3, 4, 5, 6, 7], let r := { req0 with phase := .answered, level := l }
     (asked r).req 1 = some r) ∧
    (let r := { req0 with phase := .answered, level := 8 }
     (asked r).req 1 = some r ∧ (asked r).hubPorts r ≠ []) ∧
    (32 * 2 + 5 ∈ ({ m0 with rows := [69] } : State).rows) ∧
    (let s := { m0 with pwrites := [⟨9, 0x021, 0, none, 1, 7⟩, ⟨10, 0x023, 0, none, 1, 0x8000000000000000⟩] }
     s.pwrites.find? (fun q => decide (q.id = 9)) = some ⟨9, 0x021, 0, none, 1, 7⟩ ∧
     s.pwrites.find? (fun q => decide (q.id = 10)) = some ⟨10, 0x023, 0, none, 1, 0x8000000000000000⟩) := by decide +kernel

/-- Tenant 0 with its fault queue, its tables and its ranges; entry 7 waits for its slot. -/
def tenanted (t : Tenant) : State := m0.setTenant 0 { t with
  blk := [(0, 0x010300000000), (8, 1), (0x68, 0x3800000), (0x70, 0x100000), (0x78, 0x1000000), (0x80, 0x010300000000), (0x88, 0x1000000)] }
theorem witness_FaultsComplete :
    (let s := { tenanted { faultSeq := 7 } with faults := [{ entry7 with seq := 0 }] }
     s.faults[0]? = some { entry7 with seq := 0 } ∧ s.mayPost 0 { entry7 with seq := 0 } = true) ∧
    (let s := tenanted { faultSeq := 8, fresumes := [7], faults := [(7, entry7)], slots := [7] }
     (s.tenant 0).fresumes = 7 :: [] ∧ look 7 (s.tenant 0).faults = some entry7 ∧ entry7.resume = .lanes 0 0 1 ∧
     (s.team entry7.team).life ≠ .saved) := by decide +kernel
theorem witness_FaultsComplete_genbump : let b : Bump := ⟨1, 0, List.range 542, [3]⟩
    let s := { m0 with bumps := [b] }
    s.bumps.find? (fun b => decide (b.asid = 1)) = some b ∧
    (600 ∉ b.updated ∧ 600 < bumpPlaces) ∧ (∀ p ∈ [5, 530, 541], p ∈ b.updated ∧ p ∉ b.acked ∧ s.mayAck 1 b.old p = true) := by
  decide +kernel
theorem witness_FaultsComplete_acked : let b : Bump := ⟨1, 0, [], List.range bumpPlaces⟩
    let s := { m0 with bumps := [b] }
    s.bumps.find? (fun b => decide (b.asid = 1)) = some b ∧ ∀ p, p < bumpPlaces → p ∈ b.acked := by
  refine ⟨rfl, fun p h => ?_⟩
  simpa using h

theorem witness_HostAccessesComplete :
    (let s := { m0 with l2 := [⟨5, 0x200000000080, [1], true, [(0x200000000081, 9)], []⟩] }
     isHost (align 0x200000000080 128) = true ∧ ∀ x ∈ s.l2, x.line = align 0x200000000080 128 ∧ s.l2Held x = false ∧
      ∀ e ∈ x.under, 0x200000000080 ≤ e.1 ∧ e.1 < 0x200000000100) ∧
    (let s := tenanted {}
     3 ≤ s.hub.stage ∧ s.hdm 0 0 64 = .mem 0x100000 ∧ s.hdm 0 0xFFFFC0 64 = .mem 0x10FFFC0 ∧ s.hdm 0 0x1000000 64 = .mem 0x010300000000) ∧
    (let s := { m0 with hub := { m0.hub with grants := [(16 * 3 + 2, 3)] } }
     s.granted 3 2 1 = true ∧ s.populated 1 (local46 0x3000) 64 = true ∧ s.poisonOf (.mem 0x3000 .rc) 64 = none) ∧
    m0.granted 3 2 1 = false := by decide +kernel

/-- A template: 64 bytes from the RC page's upper half to 64 bytes further on. -/
def tmpl1 (flags : Nat) : List Byte :=
  leBytes 8 0x200000000 ++ leBytes 8 0x200000040 ++ leBytes 4 64 ++ leBytes 4 1 ++ leBytes 4 64 ++ leBytes 4 64 ++ leBytes 4 0 ++
    leBytes 1 0 ++ leBytes 1 flags ++ leBytes 26 0
def cmd1 : Cmd := mem0.newCmd (mem0.agent 0 0) (tmpl1 0) 0
theorem witness_ShuttlesComplete :
    (let r := { req0 with op := .store, size := 8, dst := .none, phase := .waiting, parts := [⟨0, 0, 0, 0, 0, 0, .aperture 3⟩] }
     let e : SqEntry := ⟨0, .aperture 3, leBytes 8 5, true, 0, false, 1, 0⟩
     let s := (asked r).mapWeft 0 fun w => { w with sq := [e] }
     (s.weft 0).sq[0]? = some e ∧ s.req e.req = some r ∧ s.mayAccept 0 0 e 3 = true) ∧
    (cmd1.fail = 0 ∧ cmd1.ring = false ∧ cmd1.mcast = false ∧ cmd1.bmen = false ∧ cmd1.parkSeq = none ∧ tmplChunks cmd1.tmpl = 1 ∧
     cmd1.given 0 0 = false) ∧
    (let s := mem0.setChan 0 3 { run := some cmd1 }
     ((s.core 0).chan 3).run = some cmd1 ∧ s.windowOwes 0 3 0 = false) := by decide +kernel
/-- The target of an engine's access, if it has one. -/
def engOk : EngAt → Option Tgt
  | .ok t _ => some t
  | _ => none
theorem witness_ShuttlesComplete_chunk : let s := mem0.setChan 0 3 { run := some cmd1 }
    let p : Piece := (0x200000000, 0x200000040, 64)
    cmd1.pieces 0 = [p] ∧ engOk (s.srcAt cmd1 p) = some (.mem 0x010200000000 .rc) ∧
    engOk (s.dstAt cmd1 0 p) = some (.mem 0x010200000040 .rc) ∧ s.chunkMay cmd1 0 = true ∧ s.windowOwes 0 3 0 = false := by
  decide +kernel
theorem witness_ShuttlesComplete_end :
    (let c := { cmd1 with tmpl := tmpl1 3, acks := [(0, 7)] }
     let s := mem0.setChan 0 3 { run := some c }
     ((s.core 0).chan 3).run = some c ∧ c.mcast = true ∧ c.acks.contains (0, 7) = true) ∧
    (let c := { cmd1 with done := [0] }
     let s := mem0.setChan 0 3 { run := some c }
     ((s.core 0).chan 3).run = some c ∧ c.parkSeq = none ∧ c.acks = [] ∧ tmplChunks c.tmpl ≤ c.done.length) := by decide +kernel

def put1 (team : Nat) : Put := ⟨.lane 1, 0, team, 0, 0, 4, [1, 2, 3, 4], [], false, 0⟩
/-- Ring 3 of core 0 with some puts at its port. -/
def ported (ps : List Put) (f : Ring → Ring := id) : State := ringed.setRing 0 3 (f { ringed.ring 0 3 with port := ps })
theorem witness_RingsAndFoldsComplete :
    (let s := ported [put1 1]
     let x := s.ring 0 3
     x.port.find? (fun p => !p.waits) = some (put1 1) ∧ s.allows x (put1 1) = true ∧ s.ringFull x = false) ∧
    (let s := ported [{ put1 1 with tenant := 2 }]
     let x := s.ring 0 3
     x.port.find? (fun p => !p.waits) = some { put1 1 with tenant := 2 } ∧ s.allows x { put1 1 with tenant := 2 } = false) ∧
    (∀ fl ∈ [false, true], let s := ported [put1 1] fun r => { r with free := 0, fail := fl }
     let x := s.ring 0 3
     x.port.find? (fun p => !p.waits) = some (put1 1) ∧ s.allows x (put1 1) = true ∧ s.ringFull x = true ∧ x.fail = fl) ∧
    (let s := ported [{ put1 1 with waits := true }]
     let x := s.ring 0 3
     x.port = { put1 1 with waits := true } :: [] ∧ (∀ q ∈ x.port, q.waits = true) ∧ s.ringFull x = false) := by decide +kernel
theorem witness_RingsAndFoldsComplete_filled : let s := ringed.setRing 0 3 { ringed.ring 0 3 with writing := [put1 1] }
    (s.ring 0 3).writing = put1 1 :: [] ∧ (s.ring 0 3).owner = some 1 ∧ ∀ c h i, (put1 1).src ≠ .shuttle c h i := by
  refine ⟨rfl, rfl, fun c h i => ?_⟩
  show PutSrc.lane 1 ≠ _
  simp
theorem witness_RingsAndFoldsComplete_writes : let s := { ringed with pwrites := [⟨9, 0x313, 0, none, 1, 0x20004⟩, ⟨10, 0x317, 0, none, 1, 1⟩] }
    s.pwriteOf 9 (fun n => decide (0x300 ≤ n) && decide (n < 0x360) && decide ((n - 0x300) % 6 ≤ 1)) = some ⟨9, 0x313, 0, none, 1, 0x20004⟩ ∧
    (s.ring 0 ((0x313 - 0x300) / 6)).writing = [] ∧
    s.pwriteOf 10 (fun n => decide (0x300 ≤ n) && decide (n < 0x360) && decide ((n - 0x300) % 6 = 5)) = some ⟨10, 0x317, 0, none, 1, 1⟩ := by
  decide +kernel
/-- A request of core 0 to fold 5, for round 0: a barrier, and a fill of one block to offset 128. -/
def fldReq (len : Nat) : Req := { req0 with op := .fld 5 128 len 0, size := 0, dst := .z 1 }
theorem witness_RingsAndFoldsComplete_arrival :
    let s := { (folded [(0, 0), (1, 0)]).mapCore 0 fun c => { c with cyc := 100 } with reqs := [fldReq 0] }
    s.req 1 = some (fldReq 0) ∧ s.mayReach (fldReq 0) = true ∧ (s.fold 5).delivered ≤ 0 ∧ (s.fold 5).rounds.find? (fun x => decide (x.n = 0)) = none := by decide +kernel
theorem witness_RingsAndFoldsComplete_rounds : let x : Round := ⟨0, 0, 0, [0], [1], some 90, false, none⟩
    let s := (folded [(0, 0), (1, 0)]).setFold 5 { (folded [(0, 0), (1, 0)]).fold 5 with rounds := [x] }
    let s := { s.mapCore 0 fun c => { c with cyc := 100 } with reqs := [fldReq 0] }
    let y := { x with asked := [0, 1] }
    (s.fold (64 * 0 + 5)).rounds.find? (fun x => decide (x.n = (s.fold (64 * 0 + 5)).delivered)) = some x ∧ (s.fold 5).allAsked y = true ∧
    90 ≤ (s.core 0).cyc ∧ (s.fold (64 * 0 + 5)).allAsked x = false := by decide +kernel
theorem witness_RingsAndFoldsComplete_fill : let r := { fldReq 64 with phase := .answered }
    let s := { folded [(0, 0)] with reqs := [r] }
    s.req 1 = some r ∧ r.parts ≠ [] ∧ r.satisfied = false := by decide +kernel
theorem witness_RingsAndFoldsComplete_window : let q : FoldPiece := ⟨256, [5, 6], none, none⟩
    let w : FoldStore := ⟨1, [q], [0], [0, 1], 1, none⟩
    let f := { (folded [(0, 0), (1, 0)]).fold 5 with window := [w] }
    let s := m0.setFold 5 f
    (s.fold (64 * 0 + 5)).window[0]? = some w ∧ w.unacked.contains 0 = true ∧ w.owed.contains 0 = true ∧
    w.owed.contains (1024 + 0) = false ∧ w.pieces = [q] ∧
    ((s.fold (64 * 0 + 5)).window.take 0).any (fun x => decide (x.src = w.src) && x.owed.contains 0) = false ∧
    s.memberTeam (s.fold (64 * 0 + 5)) 0 = some (1, s.team 1) ∧ w.owed.contains 1 = false ∧ w.owed ≠ [] := by decide +kernel

/-! The loom, tasks and grids -/

theorem allPass_of {cs : List Check} (h : cs.all (fun c => (okAt c).isSome) = true) : AllPass cs := by
  intro c hc
  obtain ⟨t, ht⟩ := Option.isSome_iff_exists.1 (List.all_eq_true.1 h c hc)
  obtain ⟨w, hw⟩ := okAt_spec ht
  exact ⟨t, w, hw⟩
/-- The entry of mma1, and a core whose loom queue it heads. -/
def op1 : MmaOp := loomed.mmaOp mma1 false []
def looming (f : Core → Core) : State := loomed.mapCore 0 f
theorem witness_LoomAndTasksComplete :
    (let s := looming fun c => { c with loomq := [.oprdy 0 0] }
     (s.core 0).loomq = .oprdy 0 0 :: [] ∧ (s.core 0).loomRun = none ∧ (s.core 0).task = none) ∧
    (let s := looming fun c => { c with loomq := [.mma op1] }
     (s.core 0).loomq = .mma op1 :: [] ∧ (s.core 0).loomRun = none ∧ (s.core 0).task = none ∧ op1.faults = [] ∧
     (∀ d ∈ (s.core 0).decls, d.ctx = op1.agent.ctx → d.started = true) ∧
     (s.operandChecks op1).all (fun c => (okAt c.2).isSome) = true) ∧
    (let s := looming fun c => { c with decls := [⟨1, 0, 8, 3, false⟩] }
     ∃ d ∈ (s.core 0).decls, d.started = false ∧ d.start ≤ (s.core 0).cyc) := by decide +kernel
def okList : Except Nat (List Nat) → Option (List Nat)
  | .ok ys => some ys
  | .error _ => none
theorem okList_spec {x : Except Nat (List Nat)} {ys : List Nat} (h : okList x = some ys) : x = .ok ys := by
  cases x <;> cases h; rfl
/-- A row of eight ones times a column of eight twos, BF16, on an accumulator of 0 (R198, R318): 16. -/
def ready1 : State := loomed.mapCore 0 fun c => { c with
  loomRun := some op1
  spad := (List.range 8).foldl (fun m i => mwrite m (0x200 + 64 * i) [0x00, 0x40])
    (mwrite c.spad 0x100 ((List.replicate 8 [0x80, 0x3F]).flatten)) }
theorem witness_LoomAndTasksComplete_end : let s := ready1
    (s.core 0).loomRun = some op1 ∧ (s.core 0).loomEnd ≤ (s.core 0).cyc ∧ okList (s.product op1 0 (startAcc s 0 op1)) = some [0x41800000] ∧
    op1.taint = false ∧ s.opPoison op1 0 = false ∧ (s.core 0).badElement op1 = none ∧ op1.m ≤ 32 ∧ op1.n ≤ 32 := by decide +kernel
def task1 : Task := ⟨record1, { mem0.agent 0 0 with lane := 0 }, 3, [], true, none, []⟩
theorem witness_LoomAndTasksComplete_tasks :
    (let k := { task1 with met := false }
     let s := { mem0 with meadows := [(0, { queues := [(8 * 0 + 3, [k])] })] }
     (lookD (8 * 0 + 3) [] (s.meadow 0).queues)[0]? = some k ∧ k.parkSeq = none ∧ taskWaits record1 = [] ∧
     s.taskMet k.agent ((taskWaits k.record).map fun w => s.taskCheck k.agent .block w.1) = true) ∧
    (let s := { (mem0.mapCore 0 fun c => { c with cyc := 100 }) with meadows := [(0, { queues := [(3, [task1])] })], hub := { mem0.hub with stage := 5 } }
     s.loomFree 0 = true ∧ ((List.range 16).map fun i => ((s.meadow (meadowOf 0)).rr + 1 + i) % 16).findSome?
        (fun n => ((s.meadow (meadowOf 0)).pick n).map fun p => (n, p)) = some (0, 3, 0, task1) ∧
     s.taskMet task1.agent (s.taskChecks task1) = true ∧ ((s.taskChecks task1).map (·.2.2)).all (fun c => (okAt c).isSome) = true) ∧
    (let s := mem0.mapCore 0 fun c => { c with task := some task1 }
     (s.core 0).task = some task1 ∧ (s.core 0).loomEnd ≤ (s.core 0).cyc ∧ s.taskMet task1.agent (s.taskChecks task1) = true ∧
     ((s.taskChecks task1).map (·.2.2)).all (fun c => (okAt c).isSome) = true ∧ okList (s.taskProduct task1) = some [0] ∧
     taskM record1 = 1 ∧ taskN record1 = 1 ∧ taskMode record1 = 0 ∧ taskSig record1 = 0 ∧ task1.past = [] ∧
     s.opPoison task1.op task1.agent.core = false ∧
     okAt ((s.opFetch task1.op task1.agent.core).taskCheck task1.agent .write (tk record1 16 8)).2.2 =
       some (.mem 0x010200000080 .rc)) := by decide +kernel
/-- A record that waits for a counter to reach 1, at VA 0x2_0000_0100 (R143, R145). -/
def record2 : List Byte := record1.take 40 ++ leBytes 8 (0x20000010 + 2 ^ 48) ++ record1.drop 48
theorem witness_LoomAndTasksComplete_counter : let k := { task1 with record := record2, met := false }
    let s := { mem0 with meadows := [(0, { queues := [(3, [k])] })] }.wr 0x010200000100 [1]
    (lookD (8 * 0 + 3) [] (s.meadow 0).queues)[0]? = some k ∧ taskWaits record2 = [(0x200000100, 1)] ∧
    s.taskMet k.agent ((taskWaits k.record).map fun w => s.taskCheck k.agent .block w.1) = true ∧
    okAt (s.taskCheck k.agent .block 0x200000100).2.2 = some (.mem 0x010200000100 .rc) ∧
    (leNat (s.homeRead k.agent (.mem 0x010200000100 .rc) 4) + 2 ^ 16 - 1) % 2 ^ 16 < 2 ^ 15 := by decide +kernel

/-- A descriptor of one team of one weft with 32 lanes. -/
def desc1 : List Byte :=
  leBytes 8 0x40000 ++ leBytes 8 0 ++ leBytes 4 1 ++ leBytes 2 1 ++ leBytes 2 1 ++ leBytes 1 0 ++ leBytes 1 0 ++ leBytes 1 1 ++ leBytes 1 1 ++
    leBytes 4 4096 ++ leBytes 32 0
theorem pick_ne_zero (l : List Nat) (h : ∀ x ∈ l, x ≠ 0) (hl : l ≠ []) (n : Nat) : l.getD (n % l.length) 0 ≠ 0 := by
  have hn : n % l.length < l.length := Nat.mod_lt _ (List.length_pos_iff.2 hl)
  rw [List.getD_eq_getElem?_getD, List.getElem?_eq_getElem hn]
  exact h _ (List.getElem_mem hn)
theorem witness_GridsComplete_launch : let s := m0.mapWeft 0 fun w => { w with hold := .launch false desc1 4 1 }
    (s.weft (64 * 0 + 0)).hold = .launch false desc1 4 1 ∧
    s.launchStatus (gridOfDesc desc1 false (s.gridOf 0) 1 s.hub.acceptSeq) desc1 = 0 ∧
    (let t := s.setTenant 0 { pool := 4096 }
     t.launchStatus (gridOfDesc desc1 false (t.gridOf 0) 1 t.hub.acceptSeq) desc1 ≠ 0) := by
  refine ⟨by decide +kernel, by decide +kernel, ?_⟩
  intro t
  have h : (t.tenant (gridOfDesc desc1 false (t.gridOf 0) 1 t.hub.acceptSeq).tenant).pool = 4096 := by decide +kernel
  generalize gridOfDesc desc1 false (t.gridOf 0) 1 t.hub.acceptSeq = g at h ⊢
  simp only [State.launchStatus, h, Nat.le_refl, if_true, List.cons_append, List.nil_append, List.isEmpty_cons,
    Bool.false_eq_true, if_false]
  refine pick_ne_zero _ (fun x hx => ?_) (by simp) _
  simp only [List.mem_cons, List.mem_append] at hx
  rcases hx with rfl | hx | hx
  · decide
  · split at hx <;> simp_all
  · split at hx <;> simp_all

theorem witness_GridsComplete_launchi : let g : Grid := { (default : Grid) with
      handle := 2, ctx := 1, indirect := true, cntva := 0x200000000, gy := 1, gz := 1, cores := 1, wpc := 1, width := 32, stk := 32 }
    let s := ({ mem0 with hub := { mem0.hub with mapped := [0] } }.setGrid 2 g).wr 0x010200000000 [5]
    let a : Agent := ⟨g.ctx, g.tenant, (s.ctx g.ctx).asid, 0, 0, 0, 0, g.priv⟩
    s.grid 2 = g ∧ s.atHead g = true ∧ s.depDone g.tenant g.dep0 = true ∧ s.depDone g.tenant g.dep1 = true ∧
    okAt (s.check a (BitVec.ofNat 64 g.cntva) 4 4 .read) = some (.mem 0x010200000000 .rc) ∧
    s.peerLost (.mem 0x010200000000 .rc) = false ∧ s.poisonOf (.mem 0x010200000000 .rc) 4 = none ∧
    s.genMet 0 a.asid (.mem 0x010200000000 .rc) = true ∧
    leNat (s.homeRead a (.mem 0x010200000000 .rc) 4) = 5 ∧ s.teamsOk { g with gx := 5, indirect := false } = true := by decide +kernel
theorem witness_GridsComplete_rotation : let s := { m0 with hub := { m0.hub with clk := 3000000 } }
    s.hub.quantum + 1000 * s.mgmt 0x10 ≤ s.micros := by decide +kernel
/-- A grid of one team at the head of its queue; the core set of tenant 0 is core 0. -/
def queued2 : State :=
  let s := (m0.setTenant 0 { blk := [(0x10, 1)] }).setGrid 2 { m0.grid 1 with handle := 2, gx := 1, gy := 1, gz := 1, seq := 1, stk := 32 }
  { s with hub := { s.hub with mapped := [0] } }
theorem witness_GridsComplete_placement : let s := queued2
    let g := s.grid 2
    s.ctxResident g.ctx = true ∧ (s.placedNext g).isSome = true ∧ s.outranked (s.rankOf g (g.teamAt g.placed)) = false := by
  decide +kernel
def finished (life : Life) : State :=
  (mk { l0 with exited := true } { l0 with exited := true } fun w => { w with lanes := [] }).mapTeam 1 fun t => { t with life := life }
theorem witness_GridsComplete_teams :
    (let s := finished .placed
     (s.team 1).life = .placed ∧ (s.team 1).stageFail = false ∧ s.stagesOn 1 = false ∧ (s.team 1).staging = none ∧
     s.stageWork 1 false = [] ∧ (s.grid (s.team 1).grid).started = false) ∧
    (let s := (finished .placed).mapTeam 1 fun t => { t with staging := some [] }
     let s := s.setGrid 1 { s.grid 1 with started := true }
     (s.team 1).life = .placed ∧ (s.team 1).stageFail = false ∧ s.stagesOn 1 = false ∧ (s.team 1).staging = some [] ∧
     (s.grid (s.team 1).grid).started = true) ∧
    (let s := mk { l0 with exited := true } { l0 with exited := true }
     let s := s.mapWeft 0 fun w => { w with lanes := (List.range 32).map fun l => (l, { l0 with exited := true }) }
     (s.team 1).life = .running ∧ s.teamQuiet 1 = true ∧ s.heldBack 1 = false ∧ s.stagesOn 1 = false ∧
     (s.team 1).staging = none ∧ s.stageWork 1 true = [] ∧
     (∀ st ∈ [(some [], false), (some [], true)], let u := s.mapTeam 1 fun t => { t with staging := st.1, stageFail := st.2 }
      u.teamQuiet 1 = true ∧ u.heldBack 1 = false ∧ u.stagesOn 1 = false ∧ (u.team 1).staging = some [])) ∧
    (let s := m0.setGrid 2 { m0.grid 1 with handle := 2, gx := 1, gy := 1, gz := 1, placed := 1, retired := 1 }
     (look 2 s.grids).isSome = true ∧ (s.grid 2).status = .pending ∧ (s.grid 2).indirect = false ∧
     (s.grid 2).retired = (s.grid 2).placed ∧ (s.grid 2).failed = false ∧ (s.grid 2).placed = (s.grid 2).teamCount) ∧
    (let s := m0.mapWeft 0 fun w => { w with frozen := true }
     look 0 s.wefts = some (s.weft 0) ∧ (s.grid 1).status = .pending ∧ (s.weft 0).live = true ∧ (s.weft 0).frozen = true ∧
     (s.team (s.weft 0).team).grid = 1) ∧
    m0.ctxResident 7 = false := by decide +kernel

/-! Stops, saves, registers -/

theorem witness_SavesComplete :
    (let s := m0.mapTeam 1 fun t => { t with life := .halted, stop := { preempt := true } }
     (s.team 1).life = .halted ∧ (s.team 1).stop.preempt = true) ∧
    (∀ st ∈ [({ halt := true } : StopReq), { preempt := true }],
      let s := (mk { l0 with exited := true } { l0 with exited := true } fun w => { w with lanes := [] }).mapTeam 1 fun t => { t with
        life := .stopping, stop := st }
      (s.team 1).life = .stopping ∧ s.allStopped 1 = true ∧ s.haltDue 1 = st.halt ∧ (s.team 1).stop.preempt = st.preempt) ∧
    ((m0.team 1).life = .running ∧ (m0.grid (m0.team 1).grid).cosched = false ∧ m0.staysPut 1 = false) ∧
    (let s := m0.mapTeam 1 fun t => { t with life := .halted }
     (s.team 1).life = .halted ∧ (s.team 1).stop.preempt = false) := by decide +kernel
/-- Grid 2 at the head of its queue: its team does not fit the empty core set of its tenant. -/
theorem witness_SavesComplete_waits :
    let s := { m0.setGrid 2 { m0.grid 1 with handle := 2, gx := 1, gy := 1, gz := 1, seq := 1 } with hub := { m0.hub with mapped := [0] } }
    s.stuck (s.grid 2) ≠ [] ∧ (s.grid 2).waitedSince = none := by decide +kernel
/-- A stopped team, cut down to its header (no weft, no scratchpad), with a pool of one page for its image: scratchpad
of another team of the space, so that no free choice of a TLB enters. -/
def stoppedTeam : State :=
  let s := mem0.mapTeam 1 fun t => { t with life := .stopped, spad := 0, wefts := [] }
  (s.setTeam 2 { mem0.team 1 with cores := [133], bases := [0], wefts := [], spad := 4096 }).mapCtx 1 fun c =>
    { c with savebase := 0xF152800000000, savesize := 4096 }
theorem witness_SavesComplete_save : let s := stoppedTeam
    s.savable 1 = true ∧ s.teamReqs 1 = [] := by decide +kernel
/-- Its image (R180): MAGIC, VERSION, grid 1, one core, one weft, the code of 256 registers, phase valid. -/
def header1 : List Byte :=
  leBytes 4 0x54594D47 ++ leBytes 2 1 ++ leBytes 10 0 ++ leBytes 4 1 ++ leBytes 4 0 ++ leBytes 1 1 ++ leBytes 1 1 ++ leBytes 1 20 ++
    leBytes 165 0 ++ leBytes 1 1 ++ leBytes 127 0
theorem witness_SavesComplete_image : let s := stoppedTeam
    (s.settleTeam 1).teamImage 1 (cancelledOf ((s.settleTeam 1).teamReqs 1)) = header1 ∧ s.poolPlaces 1 320 = [0xF152800000000] ∧
    s.retrainsAt (s.ctxAgent 1 1) 0xF152800000000 320 = false ∧ s.spanWaits (s.ctxAgent 1 1) 0xF152800000000 320 true = false := by
  decide +kernel
theorem witness_SavesComplete_written : let s := stoppedTeam
    ((s.settleTeam 1).writeVa (s.ctxAgent 1 1) 0xF152800000000 header1 320).2 = 0 ∧ header1.length = 320 := by decide +kernel
theorem witness_SavesComplete_resume :
    (let s := ((m0.setTenant 0 { blk := [(0x10, 1)] }).mapTeam 1 fun t => { t with life := .saved }).mapWeft 0 fun w => { w with live := false }
     let s := { s with hub := { s.hub with mapped := [0] } }
     let g := s.grid (s.team 1).grid
     s.mayResume 1 = true ∧ g.cosched = false ∧ s.imageWaits 1 = false ∧ s.outranked (s.rankOf g (s.team 1).index) = false ∧
     s.resumeCores 1 = some [0]) ∧
    (let s := { m0 with hub := { m0.hub with snapTrig := true } }
     s.hub.snapTrig = true ∧ 3 < snapBlocks ∧ 3 ∉ s.hub.snapLatched) ∧
    (let s := { m0 with pwrites := [⟨9, 0x403, 0, none, 1, 5⟩], l2 := [⟨5, 0x3000, [1], true, [(0x3001, 9)], []⟩] }
     s.pwriteOf 9 (fun n => decide (0x400 ≤ n) && decide (n < 0x408)) = some ⟨9, 0x403, 0, none, 1, 5⟩ ∧
     (∀ x ∈ s.l2, (x.asids.any fun a => s.partOf a = s.partOf (s.ctx 1).asid) = true ∧ s.l2Held x = false) ∧
     s.l2pins = [] ∧ ∀ c ∈ s.ctxs, c.2.adds = []) ∧
    (∀ n ∈ [0x022, 0x030, 0x031, 0x032, 0x100, 0x10F], let p : PWrite := ⟨9, n, 0, none, 1, 5⟩
     ({ m0 with pwrites := [p] } : State).pwriteOf 9 (fun n => n = 0x022 || n = 0x030 || n = 0x031 || n = 0x032 || (0x100 ≤ n && n < 0x110)) =
       some p) ∧
    (∀ k ∈ [0, 1, 2, 3], ((m0.mapCtx 1 fun c => { c with adds := [1, k] }).ctx 1).adds[1]? = some k) := by decide +kernel

theorem witness_DeviceEventsComplete :
    (let s := m0.mapTeam 1 fun t => { t with life := .saved }
     (∀ t ∈ s.teams, t.2.resident = true → (s.grid t.2.grid).tenant ≠ 3) ∧ (0x1000 : Word).toNat % 4096 = 0 ∧ s.hub.busy = false) ∧
    (let s := { State.reset with hub := { State.reset.hub with busy := true, cmd := 1, ckptReserved := true } }
     s.commanded 1 = true ∧ s.hub.ckptReserved = true ∧ (∀ t ∈ s.teams, t.2.resident = false) ∧ s.hub.mainPower = true) ∧
    (∀ n ∈ [2, 3, 4], let s := { m0 with hub := { m0.hub with busy := true, cmd := n } }
     s.commanded n = true ∧ s.hub.snapHeld = false) ∧
    (∀ n ∈ [0, 6, 255], let s := { m0 with hub := { m0.hub with busy := true, cmd := n } }
     s.hub.busy = true ∧ (s.hub.cmd = 0 ∨ 5 < s.hub.cmd)) ∧
    (∀ a ∈ [7 * 16, 8 * 16], ({ m0 with hub := { m0.hub with busy := true, cmd := 4, cmdArg := a } } : State).rateStep = a / 16) := by
  decide +kernel
theorem witness_DeviceEventsComplete_routes :
    let s := { State.reset with hub := { State.reset.hub with busy := true, cmd := 5, cmdArg := 0x010300000000 } }
    s.commanded 5 = true ∧ s.hub.cmdArg % 4096 = 0 ∧ s.hub.cmdArg < 2 ^ 52 ∧ s.isLocal s.hub.cmdArg = true ∧
    s.populated 0 (local46 s.hub.cmdArg) 8704 = true ∧ s.routesOk (s.words s.hub.cmdArg 64) (s.words (s.hub.cmdArg + 512) 1024) = true := by
  decide +kernel
theorem witness_DeviceEventsComplete_stack :
    (let s := m0.setStack 2 { retraining := true }
     (s.stack 2).retraining = true ∧ s.stackOwes 2 = false) ∧
    (∀ mw ∈ [3000001, 2849999, 2850000, 3000000], let s := { m0 with hub := { m0.hub with power := List.replicate 100 mw, stage := 5 } }
     s.hub.power.length = 100 ∧ s.hub.power.sum / 100 = mw) ∧
    (State.reset.hub.stage < 5 ∧ State.reset.fw.verified = true ∧ State.reset.hub.mainPower = true) ∧
    ({ m0 with fw := { m0.fw with digests := [12] } } : State).fw.digests[3 - 3]? = some 12 := by decide +kernel
/-- A linked image of no sections, and context 0 in a table at the start of LPDDR memory. -/
def image0 : List Byte := leBytes 4 0x01464F4B ++ leBytes 2 1 ++ leBytes 2 1 ++ leBytes 24 0
theorem witness_DeviceEventsComplete_image :
    let s := (State.reset.setTenant 0 { blk := [(0x48, 0x010000000000)] }).wr 0x010000000000 (leBytes 4 0x01010000)
    let s0 := s.loadCtx 0
    imageOk image0 = true ∧ (s0.ctx 0).valid = true ∧
    ((sections image0).filter loads).all (s0.sectionMapped (s0.ctxAgent 0 (s0.ctx 0).asid)) = true := by decide +kernel

/-! The whole machine -/

theorem witness_RoundTrip : let i : Instr := .fadd (aw 11 (.v 3) (v 1) (.v 2 1 0))
    i.WellFormed ∧ encode i = some [0x00, 0x6E, 0x81, 0x01, 0x80, 0x00, 0x08, 0x01] ∧ 24 % 4 = 0 ∧
    24 % 32 + [0x00, 0x6E, 0x81, 0x01, 0x80, 0x00, 0x08, 0x01].length ≤ 32 := by
  unfold Instr.WellFormed
  decide +kernel
/-- The bytes that a decision of one word finds, and where. -/
def found (s : State) : Option (List Byte × Nat) :=
  let u := s.countStep
  match u.fetch u.key u.cur.va.toNat (min 16 (32 - u.cur.va.toNat % 32)) with
  | .bytes bs pa _ => some (bs, pa)
  | _ => none
theorem witness_UnassignedOpcodesTrap : let bs := leBytes 8 (0x16 * 32 + 2) ++ leBytes 8 0
    let s := State.reset.placeWord bs
    s.issuing = true ∧ s.countStep.cur.va.toNat = 0x40000 ∧ (found s).map (·.1) = some bs ∧ leNat bs / 32 % 256 ∈ unassigned ∧
    ¬(leNat bs % 4 ≠ 3 ∧ 32 < 0x40000 % 32 + lenBytes (BitVec.ofNat 2 (leNat bs))) := by decide +kernel
def okWord : Except Reject (Instr × Nat) → Option (Instr × Nat)
  | .ok x => some x
  | .error _ => none
theorem witness_StepRunsDecoded : let bs := leBytes 16 0xBF80BF80BF800000
    let s := State.reset.placeWord bs
    let i : Instr := .nop (cw .none)
    s.issuing = true ∧ s.countStep.cur.va.toNat = 0x40000 ∧ (found s).map (·.1) = some bs ∧
    okWord (decodeWord 0x40000 bs) = some (i, 8) ∧ s.cur.pos = 0 ∧
    (i.raw.any fun r =>
      let v : State := { s.countStep with cur := { s.countStep.cur with len := 8 } }
      let ls := (rawInfo r).effect v.cw v.lanes
      ls.all (fun l => decide (v.touchOf v.key l (rawInfo r) (shflOf i) = none) && (s.cw.lane l).fileMarks.isEmpty)) = true := by
  decide +kernel
/-- A later member of a chain, and words barred from the mode of their weft. -/
theorem witness_StepRunsDecoded_member : let s := { State.reset.placeWord [] with cur := { (State.reset.placeWord []).cur with pos := 1 } }
    s.cur.pos ≠ 0 ∧ memberBroken (Raw.ofBits (BitVec.ofNat 128 0x0108008001816E00)) = none ∧ s.cw.hmode = false ∧
    handlerOpcs ≠ [] ∧ privOpcs ≠ [] ∧ unpriv.privOf unpriv.key = false := by decide +kernel
theorem witness_StepRunsDecoded_moves : State.reset.issuing = false ∧ State.reset.agenda = [] ∧
    ({ State.reset with agenda := [.tick 3, .act .cellwb] } : State).agenda = .tick 3 :: [.act .cellwb] ∧
    ({ State.reset with agenda := [.act (.nop (cw .none))] } : State).countStep.nextMove.1 = .act (.nop (cw .none)) := by decide +kernel
def isNext : Out → Bool
  | .next _ => true
  | _ => false
theorem witness_MemoryKept : let s := State.reset.placeWord (leBytes 8 0xBF80BF80BF800000)
    Memory.wf s.mem = true ∧ isNext (step s) = true := by decide +kernel

/-! ### Single steps: results that the manual works out, or that follow by hand from its rules -/

/-- Lane l holds v1 = x l, for lanes 0 to 3; the others have exited. -/
def four (x : Nat → W32) (f : Nat → Lane → Lane := fun _ y => y) : State :=
  let s := State.reset.placeWord []
  let s := s.mapWeft 0 fun w => { w with
    lanes := (List.range 32).map fun l => (l, if l < 4 then f l { l0 with regs := [(1, x l)] } else { l0 with exited := true }) }
  { s with cur := { s.cur with lanes := 15 }, hub := { s.hub with stage := 5 } }
def v4 (i : Instr) (n : Nat) (s : State) : List Nat :=
  (List.range 4).map fun l => (((run i s).weft 0).lane l).v 256 n |>.toNat
/-- The 96-bit form with SAT, and a rounding mode. -/
def satd (w : AluW) (rm : BitVec 2 := 0) (sat : Bool := true) : AluW := ⟨w.ctl, w.ty, w.dst, w.a, w.b, w.c, rm, sat, true⟩

/-- (14.3) -/
theorem test_mov_word : decodeTableWord 64 0xBF8084000601EA80 = some (.mov (aw 15 (.v 12) (.t 0 0))) := by decide +kernel
/-- The example of R304, as a word. -/
theorem test_redux_word : decodeTableWord 64 0xC000008002016BC0 = some (.redux (aw 11 (.v 4) (v 1) (im 0))) := by decide +kernel
/-- R316 and R326: the words of (chkw.core s20) and (phint 128, 15, 10). -/
theorem test_engine_words :
    decodeTableWord 128 (0xBF804A00BF801A02 + 2 ^ 64 * 0x0000020000000000) = some (.chkw (ew .none (sr 20) .none 0x0000020000000000)) ∧
    decodeTableWord 128 (0xBF80BF80BF801B22 + 2 ^ 64 * 0x00000000000AF080) = some (.phint (ew .none .none .none (128 + 2 ^ 12 * 15 + 2 ^ 16 * 10))) := by
  decide +kernel
/-- R318: the word of form A. -/
theorem test_mma_word : decodeTableWord 128 (0x4580450046001A42 + 2 ^ 64 * 0x000000C000820805) =
    some (.mma (ew (.s 12) (sr 10) (sr 11) (BitVec.ofNat 64 (5 + 2 ^ 6 * 32 + 2 ^ 12 * 32 + 2 ^ 18 * 32 + 2 ^ 38 + 2 ^ 39)))) := by decide +kernel

/-- R298, its table. -/
theorem test_rng : vOf (.rng (aw 15 (.v 2) (sr 1) (v 1))) 2 (mkV [(1, 1)]) = 0x8BF4846F ∧
    vOf (.rng (aw 15 (.v 2) (im 1) (im 0))) 2 m0 = 0x0DB3432E := by decide +kernel
/-- R296: the bytes of b in reverse order; and a byte of sign bits. -/
theorem test_bperm : let s := mkV [(1, 0xAABBCCDD), (2, 0x11223344)] fun w => { w with s := [(1, 0x4567), (2, 0x000B)] }
    vOf (.bperm (aw3 15 (.v 3) (v 1) (v 2) (sr 1))) 3 s = 0x44332211 ∧ vOf (.bperm (aw3 15 (.v 3) (v 1) (v 2) (sr 2))) 3 s = 0xDDDDDDFF := by
  decide +kernel
theorem test_iadd : let s := mkV [(1, 0x7FFFFFFF), (2, 0x1FF)]
    vOf (.iadd (aw 6 (.v 3) (v 1) (im 1))) 3 s = 0x80000000 ∧ vOf (.iadd (satd (aw 6 (.v 3) (v 1) (im 1)))) 3 s = 0x7FFFFFFF ∧
    vOf (.iadd (aw 1 (.v 3) (v 2) (im 2))) 3 s = 1 := by decide +kernel
theorem test_isub_same_register : vOf (.isub (aw 2 (.v 1) (im 0) (v 1))) 1 (mkV [(1, 1)]) = 0xFFFFFFFF := by decide +kernel
theorem test_imad : let s := mkV [(1, 0x10000), (2, 5)]
    vOf (.imad (aw3 5 (.v 3) (v 1) (v 1) (v 2))) 3 s = 5 ∧ vOf (.imad (satd (aw3 5 (.v 3) (v 1) (v 1) (v 2)))) 3 s = 0xFFFFFFFF := by decide +kernel
theorem test_imulh : let s := mkV [(1, 0xFFFFFFFF), (2, 2)]
    vOf (.imulh (aw 6 (.v 3) (v 1) (v 2))) 3 s = 0xFFFFFFFF ∧ vOf (.imulh (aw 5 (.v 3) (v 1) (v 2))) 3 s = 1 := by decide +kernel
theorem test_iabs : let s := mkV [(1, 0x80000000)]
    vOf (.iabs (aw 6 (.v 3) (v 1))) 3 s = 0x80000000 ∧ vOf (.iabs (satd (aw 6 (.v 3) (v 1)))) 3 s = 0x7FFFFFFF := by decide +kernel
/-- R257: a shift by w or more; the count is not reduced to w. -/
theorem test_shift : let s := mkV [(1, 0x80)] fun w => { w with s := [(1, 256)] }
    vOf (.ishl (aw 1 (.v 3) (v 1) (sr 1))) 3 s = 0 ∧ vOf (.ishr (aw 2 (.v 3) (v 1) (sr 1))) 3 s = 0xFFFFFFFF := by decide +kernel
/-- R295: (14.1) gives LT for 1 and 2; the field [7:4] of 0x12345678; eight bits of 0xAB put at 4. -/
theorem test_bits : let s := mkV [(1, 1), (2, 2), (3, 0x12345678), (4, 0xAB)] fun w => { w with s := [(1, 4 + 64 * 4), (2, 4 + 64 * 8)] }
    vOf (.icmp (aw 6 (.v 9) (v 1) (v 2))) 9 s = 2 ∧ vOf (.bfe (aw 5 (.v 9) (v 3) (sr 1))) 9 s = 7 ∧
    vOf (.bfi (aw3 5 (.v 9) (v 3) (v 4) (sr 2))) 9 s = 0x12345AB8 ∧ vOf (.clz (aw 5 (.v 9) (im 0))) 9 s = 32 := by decide +kernel
/-- The sign of an immediate reaches all 64 bits of a pair. -/
theorem test_mov_pair : pairOf (.mov (aw 16 (.v 4) (im 0x3FFF))) 4 m0 = 0xFFFFFFFFFFFFFFFF := by decide +kernel
theorem test_movs : vOf (.movs (aw 1 (.v 2) .none)) 2 m0 = 32 ∧
    vOf (.movs (aw 4 (.v 2) .none)) 2 (mk { l0 with wb := 8 } l0) = 8 := by decide +kernel
theorem test_pset : let s := mkV [(1, 2)]
    pOf (.pset (aw 0 (.p 1) (v 1) (im 3))) 1 s = true ∧ pOf (.pset (aw 1 (.p 1) (v 1) (im 3))) 1 s = false := by decide +kernel
theorem test_kop : let s := mkV [] fun w => { w with kMem := [(1, 7), (2, 2)] }
    ((run (.kop (aw 3 (.k 3) (.k 1) (.k 2))) s).weft 0).kmem 3 = 5 ∧ sOf (.kop (aw 6 (.s 1) (.k 1) (im 0))) 1 s = 7 := by decide +kernel

/-- R304 and R305: 2^24, 1, 1 and -2^24 from lanes 0 to 3. -/
def quads : State := four fun l => if l = 0 then 0x4B800000 else if l = 3 then 0xCB800000 else 0x3F800000
theorem test_redux : v4 (.redux (aw 11 (.v 4) (v 1) (im 0))) 4 quads = [0x3F800000, 0x3F800000, 0x3F800000, 0x3F800000] := by decide +kernel
theorem test_scan : v4 (.scan (aw 11 (.v 4) (v 1) (im 0))) 4 quads = [0x4B800000, 0x4B800000, 0x4B800000, 0] ∧
    v4 (.scan (aw 11 (.v 4) (v 1) (im 8))) 4 quads = [0, 0x4B800000, 0x4B800000, 0x4B800000] := by decide +kernel
/-- R306: BOOKED with D = 300, DONE, OPEN and BOOKED with D = 40, at CYC 100. -/
theorem test_trank : let s := (four (fun _ => 0) fun l x => { x with
      t := [(0, if l = 0 then 0x10000190 else if l = 1 then 0x0000000A else if l = 2 then 0x3000000A else 0x1000008C)] })
    let s := s.mapCore 0 fun c => { c with cyc := 100 }
    v4 (.trank (aw 0 (.v 4) (.t 0 0))) 4 s = [2, 0, 3, 1] := by decide +kernel
/-- R303: lane l reads lane l + 1; a lane number of W or more gives 0. -/
theorem test_shfl : let s := (four fun l => BitVec.ofNat 32 (10 + l)).mapWeft 0 fun w => w.eachLane [0, 1, 2, 3] fun l x =>
      { x with regs := put 2 (BitVec.ofNat 32 (if l = 2 then 32 else l + 1)) x.regs }
    (v4 (.shfl (aw 15 (.v 4) (v 1) (v 2))) 4 s).take 3 = [11, 12, 0] := by decide +kernel
theorem test_votes : let s := four (fun _ => 0) fun l x => { x with preds := if l = 2 then 2 else 0 }
    zOf (.vote (aw 0 (.z 1) (.p 1 0))) 1 s = false ∧ zOf (.vote (aw 1 (.z 1) (.p 1 0))) 1 s = true ∧
    sOf (.ballot (aw 16 (.s 3) (.p 1 0) (im 0))) 3 s = 4 := by decide +kernel
theorem test_elect : let s := (four fun _ => 0).mapWeft 0 fun w => { w with kMem := [(1, 12)] }
    let t := run (.elect (aw 0 (.p 2) (.k 1))) s
    (List.range 4).map (fun l => ((t.weft 0).lane l).pred 2) = [false, false, true, false] := by decide +kernel

/-! Floating point -/

theorem test_fadd : let s := mkV [(1, 0x7F7FFFFF), (2, 0x80000000), (3, 0x7F800001)]
    vOf (.fadd (aw 11 (.v 4) (v 1) (v 1))) 4 s = 0x7F800000 ∧ vOf (.fadd (satd (aw 11 (.v 4) (v 1) (v 1)))) 4 s = 0x7F7FFFFF ∧
    vOf (.fadd (aw 11 (.v 4) (v 2) (v 2))) 4 s = 0x80000000 ∧ vOf (.fadd (aw 11 (.v 4) (v 3) (v 2))) 4 s = 0x7FC00000 := by decide +kernel
/-- R189: 2^-126 halved is the subnormal 2^-127. -/
theorem test_fmul_subnormal : vOf (.fmul (aw 11 (.v 4) (v 1) (v 2))) 4 (mkV [(1, 0x00800000), (2, 0x3F000000)]) = 0x00400000 := by decide +kernel
/-- (1 + 2^-12)² - 1 = 2^-11 + 2^-24, rounded once; the product rounded first would give 2^-11. -/
theorem test_ffma_once : vOf (.ffma (aw3 11 (.v 4) (v 1) (v 1) (v 2))) 4 (mkV [(1, 0x3F800800), (2, 0xBF800000)]) = 0x3A000400 := by decide +kernel
theorem test_fmin : let s := mkV [(1, 0x80000000), (2, 0), (3, 0x7FC00000)]
    vOf (.fmin (aw 11 (.v 4) (v 1) (v 2))) 4 s = 0x80000000 ∧ vOf (.fmax (aw 11 (.v 4) (v 3) (v 1))) 4 s = 0x80000000 := by decide +kernel
theorem test_fcmp : let s := mkV [(1, 0x80000000), (2, 0), (3, 0x7FC00000), (4, 0x80000001)]
    vOf (.fcmp (aw 11 (.v 5) (v 1) (v 2))) 5 s = 1 ∧ vOf (.fcmp (aw 11 (.v 5) (v 3) (v 2))) 5 s = 8 ∧
    vOf (.fclass (aw 11 (.v 5) (v 4))) 5 s = 4 := by decide +kernel
/-- R309, special values. -/
theorem test_functions : let s := mkV [(1, 0x80000000), (2, 0x40400000), (3, 0x41000000), (4, 0x3F000000), (5, 0xC0000000)]
    vOf (.frcp (aw 11 (.v 6) (v 1))) 6 s = 0xFF800000 ∧ vOf (.frsq (aw 11 (.v 6) (v 1))) 6 s = 0xFF800000 ∧
    vOf (.fsqrt (aw 11 (.v 6) (v 1))) 6 s = 0x80000000 ∧ vOf (.fex2 (aw 11 (.v 6) (v 2))) 6 s = 0x41000000 ∧
    vOf (.flg2 (aw 11 (.v 6) (v 3))) 6 s = 0x40400000 ∧ vOf (.fcos (aw 11 (.v 6) (v 4))) 6 s = 0 ∧
    vOf (.fsin (aw 11 (.v 6) (v 5))) 6 s = 0x80000000 ∧ vOf (.fsqrt (aw 11 (.v 6) (v 5))) 6 s = 0x7FC00000 := by decide +kernel
/-- R310: -2.7 and 3.0E9 to i32 under RTZ; 70,000 to f16; -0.3 rounded to an integral value. -/
theorem test_conversions : let s := mkV [(1, 0xC02CCCCD), (2, 0x4F32D05E), (3, 70000), (4, 0xBE99999A)]
    vOf (.ftoi (satd (aw 6 (.v 5) (v 1) (im 11)) 1 false)) 5 s = 0xFFFFFFFE ∧ vOf (.ftoi (satd (aw 6 (.v 5) (v 2) (im 11)) 1 false)) 5 s = 0x7FFFFFFF ∧
    vOf (.itof (aw 9 (.v 5) (v 3) (im 5))) 5 s = 0x7C00 ∧ vOf (.itof (satd (aw 9 (.v 5) (v 3) (im 5)))) 5 s = 0x7BFF ∧
    vOf (.frnd (aw 11 (.v 5) (v 4))) 5 s = 0x80000000 ∧ vOf (.fcvt (aw 9 (.v 5) (v 1) (im 11))) 5 s = 0xC166 := by decide +kernel
/-- R311: 1.0, 0.3, 500 and -470 under FMT2 at scale 0x7F, into bytes 0 to 3. -/
def packed (x c y : W32) : Nat :=
  vOf (.fpack (aw 17 (.v 5) (v 1) (sr 20))) 5 (withFmt (mkV [(1, x), (5, y)] fun w => { w with s := [(20, BitVec.zeroExtend 64 c)] }))
theorem test_fpack : packed 0x3F800000 0x7F02 0 = 0x38 ∧ packed 0x3E99999A 0x7F12 0x38 = 0x2A38 ∧
    packed 0x43FA0000 0x7F22 0x2A38 = 0x7F2A38 ∧ packed 0xC3EB0000 0x7F32 0x7F2A38 = 0xFE7F2A38 := by decide +kernel
theorem test_funpk : vOf (.funpk (aw 17 (.v 6) (v 5) (sr 21))) 6
    (withFmt (mkV [(5, 0xFE7F2A38)] fun w => { w with s := [(21, 0x7F12)] })) = 0x3EA00000 := by decide +kernel
/-- 1 × 2 + 3 × 4 + 0.5 = 14.5. -/
theorem test_fdot2 : vOf (.fdot2 (aw3 13 (.v 4) (v 1) (v 2) (v 3))) 4 (mkV [(1, 0x42003C00), (2, 0x44004000), (3, 0x3F000000)]) = 0x41680000 := by
  decide +kernel
/-- Elements of a pair. -/
theorem test_fadd2 : pairOf (.fadd2 (aw 11 (.v 4) (v 2) (im 0))) 4 (mkV [(2, 0x3F800000), (3, 0x40000000)]) = 0x400000003F800000 := by decide +kernel

/-! Uniform and control instructions -/

theorem test_uniform : let s := mkV [] fun w => { w with s := [(1, 0x8000000000000000), (2, 3), (3, 0xFFFFFFFFFFFFFFFF)] }
    sOf (.smulh (aw 8 (.s 4) (sr 1) (sr 2))) 4 s = 0xFFFFFFFFFFFFFFFE ∧ sOf (.smulh (aw 7 (.s 4) (sr 1) (sr 2))) 4 s = 1 ∧
    sOf (.sclz (aw 7 (.s 4) (im 0))) 4 s = 64 ∧ sOf (.scmp (aw 8 (.s 9) (sr 3) (sr 2))) 9 s = 2 ∧ sOf (.scmp (aw 7 (.s 9) (sr 3) (sr 2))) 9 s = 4 := by
  decide +kernel
theorem test_ssel : let s := mkV [] fun w => { w with z := 2, s := [(1, 5), (2, 6)] }
    sOf (.ssel (aw3 8 (.s 3) (.z 1) (sr 1) (sr 2))) 3 s = 5 ∧ zOf (.zop (aw 5 (.z 0) (sr 1) (im 2))) 0 s = true := by decide +kernel
/-- R244: the target is VA + 4 × OFFSET. -/
theorem test_bra : pcOf (.bra { cw .none with off := 0xFFFFFFFE }) m0 = 0x3FFF8 ∧ pcOf (.bra ⟨ctlP, 0, .none, .none, .none, 4⟩) m0 = 0x40008 := by
  decide +kernel
/-- R248: the link of a CALL with N = 24 at VA 0x40000, 12 bytes long, in v30 and v31 of the callee. -/
theorem test_call : let s := { m0 with cur := { m0.cur with len := 12 } }
    let i : Instr := .call { cw .none 24 with off := 4 }
    pcOf i s = 0x40010 ∧ ((((run i s).weft 0).lane 0).v 256 30, (((run i s).weft 0).lane 0).v 256 31) = (0x4000C, 0x18000000) ∧
    (((run i s).weft 0).lane 0).wb = 24 := by decide +kernel
theorem test_ret : pcOf (.ret (cw .none)) (mk called called) = 0x4000C ∧ (((run (.ret (cw .none)) (mk called called)).weft 0).lane 0).wb = 0 := by
  decide +kernel
/-- R247: a call of 24 with 55 registers leaves 23 below the window and spills the oldest. -/
theorem test_call_spills : let s := one (m0.mapWeft 0 fun w => { w with stk := 55 })
    let t := run (.call { cw .none 24 with off := 4 }) s
    ((t.weft 0).lane 0).wb = 24 ∧ ((t.weft 0).lane 0).lo = 1 ∧ (t.weft 0).sq.length = 1 := by decide +kernel
theorem test_exit : (((run (.exit (cw .none)) m0).weft 0).lane 1).exited = true := by decide +kernel
/-- R168: TCAUSE, TEPC and TLANES of SWTRAP 5 at 0x40000, and the handler's address. -/
theorem test_trap : let t := run (.trap (cw (im 5))) handled
    (t.weft 0).tepc = 0x40000 ∧ (t.weft 0).tlanes = 3 ∧ pcOf (.trap (cw (im 5))) handled = 0x80000 + 64 * 0x0F ∧ (t.weft 0).hmode = true := by decide +kernel
/-- R29, R168: an instruction of system software in a lane without privilege freezes the weft that has no handler. -/
theorem test_privilege : causeOf (.genbump (ew (.s 4) (im 1) .none)) unpriv = 4 := by decide +kernel

/-! Memory and engines -/

/-- R54, R61: PA 0x0012_3456_7880 under the masks of reset: home slice 17 of die 0, HBM stack 4. -/
def defaultMasks : Tab Word := [(0, 0x01010101), (1, 0x02020202), (2, 0x04040404), (3, 0x08080808), (4, 0x10101010), (5, 0x20202020),
  (6, 0x40404040), (7, 0x80808080)]
theorem test_home : ({ m0 with hmask := defaultMasks } : State).homeHash 0 0x001234567880 = 17 ∧ hbmStack 0x001234567880 = 4 := by decide +kernel
/-- R15: offset 0x400 on core 5 of meadow 2 of die 1, which is core 133. -/
theorem test_remote_scratchpad : let s := m0.setTeam 1 { m0.team 1 with cores := [133], bases := [0] }
    okAt (s.check (s.agent 0 0) 0xF152800000400 4 4 .read) = some (.spad 133 0x400) := by decide +kernel
/-- R111: FETCHADD of 5 at the Home of an SO word that holds 7. -/
theorem test_atomic : let s := (asked { req0 with op := .atom 0, ty := 5, phase := .booked, parts := [⟨0, 0, 5, 0, 0, 4, .mem 0x010800000000 .so⟩] })
    let s := s.wr 0x010800000000 [7]
    let t := run (.readModifyWrite 1) s
    t.rd 0x010800000000 4 = 12 ∧ (t.req 1).map (fun r => r.parts.map (·.val)) = some [7] := by decide +kernel
/-- R102: a drained store reaches the core's view, not memory. -/
theorem test_drain : let t := run (.storeDrain 0 0 0) (stored (.mem 0x010200000000 .rc))
    look 0x010200000001 (t.core 0).view = some ⟨2, true, false, 1, false⟩ ∧ mget t.mem 0x010200000001 = 0 := by decide +kernel
theorem test_writeBack : let s := m0.mapCore 0 fun c => { c with view := [(64, ⟨7, true, false, 1, false⟩)] }
    mget (run (.writeBack 0 1 1) s).mem 64 = 7 := by decide +kernel
/-- R283: the fourth of four arrivals ends phase 6. -/
theorem test_bara : let s := (asked { req0 with op := .bara, size := 8, parts := [⟨0, 0, 2 ^ 16 * 9, 0, 0, 4, .mem 0x010800000000 .so⟩] })
    let s := s.wr 0x010800000000 (leBytes 8 (3 + 2 ^ 16 * 6 + 2 ^ 32 * 4 + 2 ^ 48 * 9))
    (run (.readModifyWrite 1) s).rd 0x010800000000 8 = 2 ^ 16 * 7 + 2 ^ 32 * 4 + 2 ^ 48 * 9 := by decide +kernel
/-- R143: bytes 36 to 39 for M = N = 32, K = 64. -/
theorem test_task_record : let r := leBytes 36 0 ++ leBytes 4 0x00040820 ++ leBytes 24 0
    (taskM r, taskN r, taskK r, taskFa r, taskFb r) = (32, 32, 64, 0, 0) := by decide +kernel
/-- R132: ring 0 with 64 slots of 32 bytes at LOCAL 0x8000. -/
theorem test_ring_shape : let x : Ring := { base := 0x8000 }
    x.shaped 1 0x405 = (0x8000, 64, 5) := by decide +kernel
/-- R120: chunk 0 of 64 bytes is copied; the command is done. -/
theorem test_shuttle : let s := (mem0.setChan 0 3 { run := some cmd1 }).wr 0x010200000000 [1, 2, 3]
    let t := run (.shuttleChunk 0 3 ⟨0, 0⟩) s
    mread t.mem 0x010200000040 4 = [1, 2, 3, 0] ∧ ((t.core 0).chan 3).run.map (·.done) = some [0] := by decide +kernel
/-- R198: a row of eight ones times a column of eight twos. -/
theorem test_loom : lookD (accKey 5 0 0) (0 : W32) ((run (.loomEntryComplete 0) ready1).core 0).acc = 0x41800000 := by decide +kernel
/-- R364: the clock slows by a step above 3,000 W. -/
theorem test_clock : (run .clockStep { m0 with hub := { m0.hub with power := List.replicate 100 3000001, stage := 5 } }).hub.clock = 15 := by
  decide +kernel
/-- R174: sequence number 0xFFFF_FFFF is skipped. -/
theorem test_sequence : nextSeq 0xFFFFFFFE = 0 ∧ nextSeq 7 = 8 := by decide
end Sys2Proof.Tests
end

section
/-!
The memory's canonical form (assumption 6): one lemma for each operation of the model, in the model's order, and the
step that keeps the form (O58). Memory is written in four ways only: a byte set, bytes written, a part of it dropped,
and the copy that a checkpoint makes.
-/
namespace Sys2Proof.Machine

/-! ### Folds, and parts of a memory -/

/-- Operations that change the caches alone leave memory as it was. -/
theorem CachesOnly.mem {s t : State} (h : CachesOnly s t) : t.mem = s.mem := by
  unfold CachesOnly at h
  rw [h]

@[simp] theorem foldl_mem {α : Type} {f : State → α → State} (hf : ∀ s x, (f s x).mem = s.mem) (xs : List α)
    (s : State) : (xs.foldl f s).mem = s.mem := by
  induction xs generalizing s with
  | nil => rfl
  | cons x xs ih => exact (ih _).trans (hf s x)

theorem foldl_fst_mem {α β : Type} {f : State × β → α → State × β} (hf : ∀ a x, (f a x).1.mem = a.1.mem)
    (xs : List α) (a : State × β) : (xs.foldl f a).1.mem = a.1.mem := by
  induction xs generalizing a with
  | nil => rfl
  | cons x xs ih => exact (ih _).trans (hf a x)

@[simp] theorem foldl_wf {α : Type} {f : State → α → State}
    (hf : ∀ s x, Memory.wf s.mem = true → Memory.wf (f s x).mem = true) (xs : List α) {s : State}
    (hw : Memory.wf s.mem = true) : Memory.wf (xs.foldl f s).mem = true := by
  induction xs generalizing s with
  | nil => exact hw
  | cons x xs ih => exact ih (hf s x hw)

/-- Where the outcome is a next state, its memory is in canonical form. -/
def Forms (o : Out) : Prop := ∀ t, o = .next t → Memory.wf t.mem = true
@[simp] theorem forms_next {t : State} : Forms (.next t) ↔ Memory.wf t.mem = true := by simp [Forms]
@[simp] theorem forms_fault (r : Fault) : Forms (.fault r) := by simp [Forms]
@[simp] theorem forms_refused (r : Refusal) : Forms (.refused r) := by simp [Forms]

theorem rising_filter {α : Type} (p : Nat × α → Bool) {t : Tab α} (h : rising t = true) :
    rising (t.filter p) = true := by
  induction t with
  | nil => rfl
  | cons e t ih =>
    obtain ⟨hlt, ht⟩ := rising_cons.1 h
    rw [List.filter_cons]
    split
    · exact rising_cons.2 ⟨fun x hx => hlt x (List.mem_filter.1 hx).1, ih ht⟩
    · exact ih ht

/-- Part of a memory in canonical form is in canonical form. -/
theorem filter_wf {m : Memory} (h : Memory.wf m = true) (p : Nat × Byte → Bool) : Memory.wf (m.filter p) = true := by
  simp only [Memory.wf, Bool.and_eq_true, List.all_eq_true] at h ⊢
  exact ⟨rising_filter p h.1, fun e he => h.2 e (List.mem_filter.mp he).1⟩

theorem foldl_fst_wf {α β : Type} {f : State × β → α → State × β}
    (hf : ∀ a x, Memory.wf a.1.mem = true → Memory.wf (f a x).1.mem = true) (xs : List α) {a : State × β}
    (hw : Memory.wf a.1.mem = true) : Memory.wf (xs.foldl f a).1.mem = true := by
  induction xs generalizing a with
  | nil => exact hw
  | cons x xs ih => exact ih (hf a x hw)

/-- The state in which the next word, or what stands in its place, is carried out. -/
def Next.state : Next → State
  | .done t | .run _ t | .touched _ _ _ t => t

/-! ### What leaves memory as it was -/

section
variable (s : State)

/-! #### Base -/

@[simp] theorem setRing_mem (c r x) : (s.setRing c r x).mem = s.mem := (rfl)

@[simp] theorem setChan_mem (c h x) : (s.setChan c h x).mem = s.mem := (rfl)

theorem when_mem (c t) : (s.when c t).mem = if c then t.mem else s.mem := apply_ite State.mem _ _ _

@[simp] theorem endDecision_mem : s.endDecision.mem = s.mem := (rfl)

/-! #### Request -/

@[simp] theorem interrupt_mem (tenant v) : (s.interrupt tenant v).mem = s.mem := by
  unfold State.interrupt
  split <;> rfl

@[simp] theorem reqT_mem (r st value) : (s.reqT r st value).mem = s.mem := by
  unfold State.reqT
  split <;> rfl

@[simp] theorem dropT_mem (r) : (s.dropT r).mem = s.mem := by
  unfold State.dropT
  split <;> rfl

@[simp] theorem takeT_mem (r st value) : (s.takeT r st value).mem = s.mem := by
  unfold State.takeT
  split <;> rfl

@[simp] theorem reserve_mem (core ks c) : (s.reserve core ks c).mem = s.mem := (rfl)

@[simp] theorem claimBanks_mem (core off n) : (s.claimBanks core off n).mem = s.mem := by
  rw [claimBanks_only]

@[simp] theorem placeLoad_mem (r walked) : (s.placeLoad r walked).mem = s.mem := by
  unfold State.placeLoad
  dsimp only
  (repeat' split) <;> simp

@[simp] theorem pushStore_mem (g va tgt bytes rel scope tsel lanes ty hint) :
    (s.pushStore g va tgt bytes rel scope tsel lanes ty hint).mem = s.mem := by
  simp [State.pushStore]

/-! #### Caches -/

@[simp] theorem openRow_mem (b) : (s.openRow b).mem = s.mem := by
  unfold State.openRow
  split <;> rfl

@[simp] theorem mscTrim_mem (b n) : (s.mscTrim b n).mem = s.mem := (caches_mscTrim s b n).mem

@[simp] theorem mscUse_mem (pa w) : (s.mscUse pa w).mem = s.mem := (caches_mscUse s pa w).mem

@[simp] theorem mscRange_mem (pa n w) : (s.mscRange pa n w).mem = s.mem := (caches_mscRange s pa n w).mem

@[simp] theorem fetchL2_mem (a asid) : (s.fetchL2 a asid).mem = s.mem := (caches_fetchL2 s a asid).mem

@[simp] theorem fetchLines_mem (a n asid) : (s.fetchLines a n asid).mem = s.mem := (caches_fetchLines s a n asid).mem

@[simp] theorem streamL2_mem (t hint) : (s.streamL2 t hint).mem = t.mem := by
  unfold State.streamL2
  split <;> rfl

@[simp] theorem keepWalk_mem (core w) : (s.keepWalk core w).mem = s.mem := by
  unfold State.keepWalk
  split <;> simp

@[simp] theorem acquireDrop_mem (core uoToo) : (s.acquireDrop core uoToo).mem = s.mem := (rfl)

@[simp] theorem sweep_mem (core) : (s.sweep core).mem = s.mem := by
  unfold State.sweep
  split <;> rfl

@[simp] theorem acquireTeam_mem (team) : (s.acquireTeam team).mem = s.mem := by
  simp [State.acquireTeam, apply_ite State.mem]

@[simp] theorem refresh_mem (core asid t n) : (s.refresh core asid t n).mem = s.mem := by
  unfold State.refresh
  split <;> rfl

/-! #### Ops -/

@[simp] theorem spillRegs_mem (key lane ls) : (s.spillRegs key lane ls).1.mem = s.mem := by
  fun_induction State.spillRegs <;> simp_all

@[simp] theorem fillRegs_mem (key lane ls) : (s.fillRegs key lane ls).mem = s.mem := by
  induction ls generalizing s with
  | nil => rfl
  | cons l ls ih => simp only [State.fillRegs]; split <;> simp [ih]

@[simp] theorem spillAll_mem (key n va ls) : (s.spillAll key n va ls).1.mem = s.mem := by
  induction ls generalizing s with
  | nil => rfl
  | cons l ls ih =>
    simp only [State.spillAll]
    split
    · exact ih s
    · have hl := spillRegs_mem s key l (spillSpan ((s.weft key).lane l) (s.weft key).stk n)
      split <;> next e => rw [e] at hl; exact (ih _).trans hl

@[simp] theorem freeze_mem (key cause) : (s.freeze key cause).mem = s.mem := by
  simp [State.freeze]

@[simp] theorem enterUpTo_mem (key cause tbase va ls) : (s.enterUpTo key cause tbase va ls).1.mem = s.mem := by
  induction ls generalizing s with
  | nil => rfl
  | cons l ls ih =>
    have hl := spillAll_mem s key 32 va [l]
    simp only [State.enterUpTo]
    split <;> next e => rw [e] at hl; simp [ih, ← hl]

@[simp] theorem enterTrap_mem (key cause sub mask addr epc) :
    (s.enterTrap key cause sub mask addr epc).mem = s.mem := by
  have hs := spillAll_mem s key 32 epc (lanesOf mask)
  have hu := enterUpTo_mem s key cause (s.weft key).tbase epc (lanesOf mask)
  unfold State.enterTrap
  dsimp only
  split
  · simp
  · split
    · rfl
    · split
      · next e => rw [e] at hs; simpa using hs
      · split <;> next e => rw [e] at hu; simpa using hu

@[simp] theorem raise_mem (rs) : (s.raise rs).mem = s.mem := by
  unfold State.raise
  split <;> simp

@[simp] theorem raiseU_mem (cause sub addr) : (s.raiseU cause sub addr).mem = s.mem := by
  simp [State.raiseU]

@[simp] theorem raiseAt_mem (cause sub) : (s.raiseAt cause sub).mem = s.mem := by
  simp [State.raiseAt]

@[simp] theorem leaveTrap_mem : s.leaveTrap.mem = s.mem := by
  simp [State.leaveTrap]

@[simp] theorem trapReturn_mem : s.trapReturn.mem = s.mem := by
  unfold State.trapReturn
  dsimp only
  (repeat' split) <;> simp

@[simp] theorem newFault_mem (g kind va weft treg lanes res) :
    (s.newFault g kind va weft treg lanes res).mem = s.mem := (rfl)

@[simp] theorem parkLanes_mem (kind treg hits) : (s.parkLanes kind treg hits).mem = s.mem := by
  simp [State.parkLanes]

@[simp] theorem testBarrier_mem (team) : (s.testBarrier team).mem = s.mem := by
  unfold State.testBarrier
  dsimp only
  split
  · rw [acquireTeam_mem, foldl_mem, setTeam_mem]
    intros; rfl
  · rfl

/-! #### Operands -/

@[simp] theorem laneResult_mem (c dst ty f) : (s.laneResult c dst ty f).mem = s.mem := by
  unfold State.laneResult
  split <;> rfl

@[simp] theorem putS_mem (c n y) : (s.putS c n y).mem = s.mem := (rfl)

@[simp] theorem uniformResult_mem (c dst ty y) : (s.uniformResult c dst ty y).mem = s.mem := by
  unfold State.uniformResult
  (repeat' split) <;> simp

/-! #### Issue -/

@[simp] theorem keepFetch_mem (key pa w) : (s.keepFetch key pa w).mem = s.mem := by
  simp [State.keepFetch, apply_ite State.mem]

@[simp] theorem clearTouch_mem (key t) : (s.clearTouch key t).mem = s.mem := by
  unfold State.clearTouch
  split <;> rfl

@[simp] theorem overwritten_mem (key x ls) : (s.overwritten key x ls).mem = s.mem := by
  simp [State.overwritten, apply_ite State.mem]

@[simp] theorem touchTrap_mem (x ts) : (s.touchTrap x ts).mem = s.mem := by
  unfold State.touchTrap
  split
  · rfl
  · simp only [apply_ite State.mem, turnAway_mem, enterTrap_mem, foldl_mem (fun t x => clearTouch_mem t _ x), ite_self]

@[simp] theorem decide_mem (core quarter) : (s.decide core quarter).mem = s.mem := by
  unfold State.decide
  (repeat' split) <;> simp

@[simp] theorem afterWord_mem (i) : (s.afterWord i).mem = s.mem := by
  simp [State.afterWord, apply_ite State.mem]

@[simp] theorem tick_mem (core) : (s.tick core).mem = s.mem := by
  simp [State.tick, apply_ite State.mem]

@[simp] theorem nextMove_mem : (s.nextMove).2.mem = s.mem := by
  unfold State.nextMove
  split <;> rfl

/-! #### Control -/

@[simp] theorem passThen_mem (ls f) : (s.passThen ls f).mem = s.mem := (rfl)

@[simp] theorem branch_mem (ls t) : (s.branch ls t).mem = s.mem := by
  unfold State.branch
  split <;> simp

@[simp] theorem callTo_mem (n ls t) : (s.callTo n ls t).mem = s.mem := by
  have hs := spillAll_mem s s.key n s.cur.va ls
  unfold State.callTo
  split
  · simp
  · split
    · rfl
    · split <;> next e => rw [e] at hs; simpa using hs

@[simp] theorem spillLists_mem (f ls) : (s.spillLists f ls).1.mem = s.mem := by
  induction ls generalizing s with
  | nil => rfl
  | cons l ls ih =>
    have hl := spillRegs_mem s s.key l (f l)
    simp only [State.spillLists]
    split <;> next e => rw [e] at hl; exact (ih _).trans hl

@[simp] theorem exitLanes_mem (ls) : (s.exitLanes ls).mem = s.mem := by
  simp [State.exitLanes]

@[simp] theorem raiseIn_mem (ls cause addr) : (s.raiseIn ls cause addr).mem = s.mem := by
  simp [State.raiseIn, apply_ite State.mem]

/-! #### Special -/

@[simp] theorem writeStk_mem (key n val) : (s.writeStk key n val).mem = s.mem := (rfl)

@[simp] theorem writeDirect_mem (key n val) : (s.writeDirect key n val).mem = s.mem := by
  simp [State.writeDirect, apply_ite State.mem]

@[simp] theorem writeCtrl_mem (key n val) : (s.writeCtrl key n val).mem = s.mem := by
  simp [State.writeCtrl, apply_ite State.mem]

/-! #### FloatInstr -/

@[simp] theorem narrowInstr_mem (w f) : (s.narrowInstr w f).mem = s.mem := by
  simp [State.narrowInstr, apply_ite State.mem]

/-! #### Cross -/

@[simp] theorem predResult_mem (c dst f) : (s.predResult c dst f).mem = s.mem := by
  unfold State.predResult
  (repeat' split) <;> simp

@[simp] theorem sharedResult_mem (c dst ty y) : (s.sharedResult c dst ty y).mem = s.mem := by
  unfold State.sharedResult
  (repeat' split) <;> simp

/-! #### Homes -/

@[simp] theorem setTag_mem (t y) : (s.setTag t y).mem = s.mem := by
  unfold State.setTag
  (repeat' split) <;> simp

@[simp] theorem setPoison_mem (t n rec) : (s.setPoison t n rec).mem = s.mem := by
  unfold State.setPoison
  split <;> rfl

@[simp] theorem clearPoison_mem (t n) : (s.clearPoison t n).mem = s.mem := by
  unfold State.clearPoison
  split <;> rfl

@[simp] theorem bringCell_mem (asid pa) : (s.bringCell asid pa).mem = s.mem := by
  simp [State.bringCell, apply_ite State.mem]

@[simp] theorem setCell_mem (asid pa img) : (s.setCell asid pa img).mem = s.mem := by
  simp [State.setCell]

@[simp] theorem testWaiter_mem (id) : (s.testWaiter id).mem = s.mem := by
  unfold State.testWaiter
  (repeat' split) <;> simp

@[simp] theorem wake_mem : s.wake.mem = s.mem := by
  simp [State.wake]

@[simp] theorem freeTile_mem (core tile m n) : (s.freeTile core tile m n).mem = s.mem := (rfl)

@[simp] theorem taintLoom_mem (core p) : (s.taintLoom core p).mem = s.mem := by
  simp [State.taintLoom]

@[simp] theorem taintVa_mem (asid va tgt bs) : (s.taintVa asid va tgt bs).mem = s.mem := by
  simp [State.taintVa]

@[simp] theorem deliver_mem (r) : (s.deliver r).mem = s.mem := by
  unfold State.deliver
  (repeat' split) <;> simp

@[simp] theorem retireReq_mem (r) : (s.retireReq r).mem = s.mem := by
  simp [State.retireReq]

@[simp] theorem logLanding_mem (r) : (s.logLanding r).mem = s.mem := (rfl)

@[simp] theorem closeLog_mem (r) : (s.closeLog r).mem = s.mem := by
  unfold State.closeLog
  split <;> rfl

@[simp] theorem complete_mem (r) : (s.complete r).mem = s.mem := by
  simp [State.complete]

@[simp] theorem breakPromise_mem (r cause) : (s.breakPromise r cause).mem = s.mem := by
  unfold State.breakPromise
  split <;> rfl

@[simp] theorem endBroken_mem (r cause) : (s.endBroken r cause).mem = s.mem := by
  simp [State.endBroken, apply_ite State.mem]

@[simp] theorem endError_mem (r seq) : (s.endError r seq).mem = s.mem := by
  unfold State.endError
  split <;> simp

@[simp] theorem freezeLate_mem (key cause epc) : (s.freezeLate key cause epc).mem = s.mem := by
  simp [State.freezeLate]

/-! #### Access -/

@[simp] theorem raiseAll_mem (uniform rs) : (s.raiseAll uniform rs).mem = s.mem := by
  unfold State.raiseAll
  (repeat' split) <;> simp

@[simp] theorem keepWalks_mem (ps) : (s.keepWalks ps).mem = s.mem := by
  simp [State.keepWalks]

@[simp] theorem placeAll_mem (rs) : (s.placeAll rs).mem = s.mem := by
  simp [State.placeAll]

@[simp] theorem faultReq_mem (w op n uniform x) : (s.faultReq w op n uniform x).mem = s.mem := by
  simp [State.faultReq]

@[simp] theorem faultReqs_mem (w op n acc uniform xs) : (s.faultReqs w op n acc uniform xs).mem = s.mem := by
  unfold State.faultReqs
  dsimp only
  rw [foldl_mem, foldl_mem fun t x => faultReq_mem t w op n uniform x]
  intro t p
  split <;> rfl

@[simp] theorem issueReqs_mem (w op al n size acc uniform merge xs) :
    (s.issueReqs w op al n size acc uniform merge xs).mem = s.mem := by
  unfold State.issueReqs
  dsimp only
  (repeat' split) <;> simp

@[simp] theorem storeOne_mem (w n lanes p) : (s.storeOne w n lanes p).mem = s.mem := by
  simp [State.storeOne]

@[simp] theorem parkUniform_mem (kind treg hits) : (s.parkUniform kind treg hits).mem = s.mem := by
  unfold State.parkUniform
  split <;> rfl

@[simp] theorem issueStores_mem (w n uniform xs) : (s.issueStores w n uniform xs).mem = s.mem := by
  unfold State.issueStores
  dsimp only
  split
  · simp
  · split
    · rfl
    · split <;> simp

/-! #### MemInstr -/

@[simp] theorem loadIssue_mem (w uniform) : (s.loadIssue w uniform).mem = s.mem := by
  simp [State.loadIssue]

@[simp] theorem storeIssue_mem (w uniform) : (s.storeIssue w uniform).mem = s.mem := by
  simp [State.storeIssue]

@[simp] theorem atomIssue_mem (w op uniform) : (s.atomIssue w op uniform).mem = s.mem := by
  simp [State.atomIssue]

@[simp] theorem clrcLane_mem (w lane n cs) : (s.clrcLane w lane n cs).mem = s.mem := by
  unfold State.clrcLane
  (repeat' split) <;> simp

@[simp] theorem lineReq_mem (w op x t) : (s.lineReq w op x t).mem = s.mem := by
  unfold State.lineReq
  split <;> simp

@[simp] theorem lineReqs_mem (w op ls t) : (s.lineReqs w op ls t).mem = s.mem := by
  simp [State.lineReqs, apply_ite State.mem]

@[simp] theorem unpin_mem (core ctx line l2) : (s.unpin core ctx line l2).mem = s.mem := by
  simp [State.unpin, apply_ite State.mem]

/-! #### Sync -/

@[simp] theorem sendS_mem (dst y) : (s.sendS dst y).mem = s.mem := by
  unfold State.sendS
  split <;> rfl

@[simp] theorem arrive_mem : s.arrive.mem = s.mem := by
  simp [State.arrive]

@[simp] theorem barIssue_mem (w op acq rel) : (s.barIssue w op acq rel).mem = s.mem := by
  simp [State.barIssue]

@[simp] theorem rputLane_mem (w target x) : (s.rputLane w target x).mem = s.mem := by
  simp [State.rputLane]

@[simp] theorem rtakeLane_mem (w n lane) : (s.rtakeLane w n lane).mem = s.mem := by
  simp [State.rtakeLane]

/-! #### Loom -/

@[simp] theorem useTile_mem (core ctx tile) : ∀ t ∈ s.useTile core ctx tile, t.mem = s.mem := by
  unfold State.useTile
  dsimp only
  (repeat' split) <;> simp

@[simp] theorem tileWritten_mem (core tile) : (s.tileWritten core tile).mem = s.mem := by
  simp [State.tileWritten, apply_ite State.mem]

@[simp] theorem acceptLoom_mem (e) : (s.acceptLoom e).mem = s.mem := (rfl)

@[simp] theorem aldWrite_mem (w o d) : (s.aldWrite w o d).mem = s.mem := by
  simp [State.aldWrite]

@[simp] theorem enqueueTask_mem (g prio r) : (s.enqueueTask g prio r).2.mem = s.mem := by
  unfold State.enqueueTask
  dsimp only
  (repeat' split) <;> simp

@[simp] theorem enqueueAll_mem (prio xs) : (s.enqueueAll prio xs).1.mem = s.mem :=
  foldl_fst_mem (fun _ _ => enqueueTask_mem ..) xs _

/-! #### System -/

@[simp] theorem launchFaulted_mem (va) : (s.launchFaulted va).mem = s.mem := (rfl)

@[simp] theorem launchIssue_mem (w indirect) : (s.launchIssue w indirect).mem = s.mem := by
  unfold State.launchIssue
  dsimp only
  (repeat' split) <;> simp

@[simp] theorem acceptFresume_mem (tenant seq) : (s.acceptFresume tenant seq).mem = s.mem := by
  unfold State.acceptFresume
  split <;> rfl

@[simp] theorem askStop_mem (team f) : (s.askStop team f).mem = s.mem := foldl_mem (by intros; rfl) _ _

/-! #### Ordering -/

@[simp] theorem reject_mem (r) : (s.reject r).mem = s.mem := (rfl)

@[simp] theorem fillSector_mem (core sector uo asid) : (s.fillSector core sector uo asid).mem = s.mem := by
  simp [State.fillSector, apply_ite State.mem]

@[simp] theorem storeDone_mem (id) : (s.storeDone id).mem = s.mem := by
  unfold State.storeDone
  split <;> simp

@[simp] theorem performed_mem (core adrs) : (s.performed core adrs).mem = s.mem := by
  simp [State.performed, apply_ite State.mem]

@[simp] theorem streamL1_mem (t core hint line always) : (s.streamL1 t core hint line always).mem = t.mem := by
  unfold State.streamL1
  split <;> rfl

@[simp] theorem enterWindow_mem (k src ps req chunk) : (s.enterWindow k src ps req chunk).mem = s.mem := by
  simp [State.enterWindow, apply_ite State.mem]

@[simp] theorem ctlWrite_mem (core ctx off id bs) : (s.ctlWrite core ctx off id bs).mem = s.mem := by
  simp [State.ctlWrite, apply_ite State.mem]

@[simp] theorem dequeue_mem (key idx) : (s.dequeue key idx).mem = s.mem := (rfl)

@[simp] theorem acquireNow_mem (r) : (s.acquireNow r).mem = s.mem := by
  unfold State.acquireNow
  split <;> rfl

@[simp] theorem reached_mem (asid t n) : (s.reached asid t n).mem = s.mem := by
  unfold State.reached
  split <;> simp

@[simp] theorem finish_mem (r val) : (s.finish r val).mem = s.mem := by
  simp [State.finish]

@[simp] theorem doGadd_mem (r g p) : (s.doGadd r g p).mem = s.mem := by
  simp [State.doGadd, apply_ite State.mem]

@[simp] theorem queueAdd_mem (core pa) : (s.queueAdd core pa).mem = s.mem := by
  unfold State.queueAdd
  dsimp only
  (repeat' split) <;> simp

@[simp] theorem doCadd_mem (r pa cls p) : (s.doCadd r pa cls p).mem = s.mem := by
  simp [State.doCadd, apply_ite State.mem]

@[simp] theorem doClrc_mem (r) : (s.doClrc r).mem = s.mem := by
  unfold State.doClrc
  dsimp only
  (repeat' split) <;> simp

/-! #### Promise -/

@[simp] theorem bookAt_mem (r level fig shown) : (s.bookAt r level fig shown).mem = s.mem := by
  unfold State.bookAt
  dsimp only
  (repeat' split) <;> simp

@[simp] theorem performTake_mem (r n) : (s.performTake r n).mem = s.mem := by
  simp [State.performTake, apply_ite State.mem]

@[simp] theorem markRefused_mem (r) : (s.markRefused r).mem = s.mem := by
  unfold State.markRefused
  split <;> rfl

@[simp] theorem replaceParts_mem (r cs) : (s.replaceParts r cs).mem = s.mem := by
  unfold State.replaceParts
  dsimp only
  have hf := foldl_mem (f := fun (s : State) (c : Part × Check) => match c.2 with
    | .ok _ w => s.keepWalk r.agent.core w
    | _ => s) (fun t c => by split <;> simp) cs s
  split <;> exact hf

@[simp] theorem lateFault_mem (r va) : (s.lateFault r va).mem = s.mem := by
  unfold State.lateFault
  split <;> rfl

@[simp] theorem tryAgain_mem (r) : (s.tryAgain r).mem = s.mem := by
  unfold State.tryAgain
  dsimp only
  split
  · simp
  · split <;> simp

@[simp] theorem retry_mem (r) : (s.retry r).mem = s.mem := by
  unfold State.retry
  (repeat' split) <;> simp

@[simp] theorem delay_mem (req cause ok) : (s.delay req cause ok).mem = s.mem := by
  unfold State.delay
  split <;> simp [when_mem]

@[simp] theorem pwriteDone_mem (p) : (s.pwriteDone p).mem = s.mem := by
  simp [State.pwriteDone]

/-! #### Faulting -/

@[simp] theorem rewait_mem (r fault) : (s.rewait r fault).mem = s.mem := by
  unfold State.rewait
  split <;> rfl

@[simp] theorem faulted_mem (seq id) : (s.faulted seq id).mem = s.mem := by
  unfold State.faulted
  (repeat' split) <;> simp

@[simp] theorem markPosted_mem (e) : (s.markPosted e).mem = s.mem := by
  unfold State.markPosted
  split <;> simp

@[simp] theorem replayReq_mem (id) : (s.replayReq id).mem = s.mem := by
  unfold State.replayReq
  (repeat' split) <;> simp

@[simp] theorem resumeLoom_mem (core e) : (s.resumeLoom core e).mem = s.mem := by
  unfold State.resumeLoom
  dsimp only
  (repeat' split) <;> simp

@[simp] theorem openFold_mem (r phase) : (s.openFold r phase).mem = s.mem := by
  simp [State.openFold]

@[simp] theorem renumber_mem (r) : (s.renumber r).1.mem = s.mem := by
  unfold State.renumber
  split <;> rfl

@[simp] theorem resumeAway_mem (seq) : (s.resumeAway seq).mem = s.mem := by
  simp [State.resumeAway]

@[simp] theorem resumeEntry_mem (e) : (s.resumeEntry e).mem = s.mem := by
  unfold State.resumeEntry
  split
  · exact foldl_mem (fun t id => replayReq_mem t id) _ _
  · rfl
  · rfl
  · dsimp only
    rw [resumeAway_mem, foldl_mem, setFold_mem]
    intro t id
    split <;> simp
  · rfl
  · simp
  · rfl

@[simp] theorem mapBump_mem (asid f) : (s.mapBump asid f).mem = s.mem := (rfl)

@[simp] theorem portWrite_mem (tenant off bs) : (s.portWrite tenant off bs).mem = s.mem := by
  simp [State.portWrite, when_mem]

/-! #### Shuttle -/

@[simp] theorem engBook_mem (g t n) : (s.engBook g t n).mem = s.mem := by
  unfold State.engBook
  dsimp only
  (repeat' split) <;> simp

@[simp] theorem retestChkw_mem (core a) : (s.retestChkw core a).mem = s.mem := (rfl)

@[simp] theorem setRun_mem (core ch c) : (s.setRun core ch c).mem = s.mem := (rfl)

@[simp] theorem putRow_mem (core ch c i body bad) : (s.putRow core ch c i body bad).mem = s.mem := by
  unfold State.putRow
  (repeat' split) <;> simp

@[simp] theorem readSources_mem (c src) : (s.readSources c src).mem = s.mem := by
  simp [State.readSources]

@[simp] theorem chunkStops_mem (core ch c at_) : (s.chunkStops core ch c at_).mem = s.mem := by
  unfold State.chunkStops
  split <;> rfl

/-! #### RingFold -/

@[simp] theorem answerPut_mem (id st) : (s.answerPut id st).mem = s.mem := by
  unfold State.answerPut
  split <;> simp

@[simp] theorem completePut_mem (core ring p st) : (s.completePut core ring p st).mem = s.mem := by
  unfold State.completePut
  (repeat' split) <;> simp

@[simp] theorem refusePut_mem (core ring p code) : (s.refusePut core ring p code).mem = s.mem := by
  simp [State.refusePut]

@[simp] theorem admitPut_mem (core ring p) : (s.admitPut core ring p).mem = s.mem := by
  simp [State.admitPut]

@[simp] theorem bookFold_mem (r key va len) : (s.bookFold r key va len).mem = s.mem := by
  simp [State.bookFold]

@[simp] theorem refuseFold_mem (r key) : (s.refuseFold r key).mem = s.mem := by
  simp [State.refuseFold]

@[simp] theorem answerBarrier_mem (r key z late) : (s.answerBarrier r key z late).mem = s.mem := by
  simp [State.answerBarrier, apply_ite State.mem]

@[simp] theorem foldReads_mem (g bs) : (s.foldReads g bs).mem = s.mem := by
  simp [State.foldReads]

@[simp] theorem giveFill_mem (id key va len d z) : (s.giveFill id key va len d z).mem = s.mem := by
  unfold State.giveFill
  split <;> simp

@[simp] theorem joinRound_mem (r key n va len) : (s.joinRound r key n va len).mem = s.mem := by
  unfold State.joinRound
  dsimp only
  (repeat' split) <;> simp

/-! #### Tasks -/

@[simp] theorem uncovered_mem (core ctx from_ until_) : (s.uncovered core ctx from_ until_).mem = s.mem := by
  unfold State.uncovered
  (repeat' split) <;> simp

@[simp] theorem startEntry_mem (core o) : (s.startEntry core o).mem = s.mem := by
  simp [State.startEntry, apply_ite State.mem]

@[simp] theorem dropEntry_mem (core o cause) : (s.dropEntry core o cause).mem = s.mem := by
  simp [State.dropEntry]

@[simp] theorem report_mem (o m) : (s.report o m).mem = s.mem := (rfl)

@[simp] theorem entryOver_mem (core o) : (s.entryOver core o).mem = s.mem := by
  simp [State.entryOver, apply_ite State.mem]

@[simp] theorem setTask_mem (m key idx t) : (s.setTask m key idx t).mem = s.mem := (rfl)

@[simp] theorem startTask_mem (core t) : (s.startTask core t).mem = s.mem := by
  simp [State.startTask, apply_ite State.mem]

@[simp] theorem endTask_mem (core t) : (s.endTask core t).mem = s.mem := (rfl)

/-! #### Grids -/

@[simp] theorem loadCtx_mem (c) : (s.loadCtx c).mem = s.mem := (rfl)

@[simp] theorem readBlock_mem (c core) : (s.readBlock c core).mem = s.mem := (rfl)

@[simp] theorem seat_mem (id t cores) : (s.seat id t cores).mem = s.mem := foldl_mem (by intros; rfl) _ _

@[simp] theorem placeTeam_mem (g cores) : (s.placeTeam g cores).mem = s.mem := by
  simp [State.placeTeam]

@[simp] theorem placeMany_mem (h n) : ∀ t ∈ s.placeMany h n, t.mem = s.mem := by
  induction n generalizing s with
  | zero => simp [State.placeMany]
  | succ n ih =>
    unfold State.placeMany
    split
    · exact fun t ht => (ih _ t ht).trans (by simp)
    · simp

@[simp] theorem remap_mem : s.remap.mem = s.mem := (rfl)

@[simp] theorem bindFolds_mem (g) : (s.bindFolds g).mem = s.mem := by
  unfold State.bindFolds
  split
  · rfl
  · exact foldl_mem (fun t _ => foldl_mem (by intros; rfl) _ t) _ s

@[simp] theorem takeStack_mem (g) : (s.takeStack g).mem = s.mem := by
  unfold State.takeStack
  split <;> rfl

@[simp] theorem placedNext_mem (g) : ∀ t ∈ s.placedNext g, t.mem = s.mem := by
  unfold State.placedNext
  split
  · simp
  · exact fun t ht => (placeMany_mem _ _ _ t ht).trans (by simp)

@[simp] theorem preempt_mem (team) : (s.preempt team).mem = s.mem := by
  simp [State.preempt]

@[simp] theorem feedStage_mem (team out ls) : (s.feedStage team out ls).1.mem = s.mem := by
  induction ls generalizing s with
  | nil => rfl
  | cons x ls ih => simp only [State.feedStage]; split <;> simp [ih]

@[simp] theorem stageOn_mem (team out work) : (s.stageOn team out work).mem = s.mem := by
  simp [State.stageOn]

@[simp] theorem dropStage_mem (team) : (s.dropStage team).mem = s.mem := by
  simp [State.dropStage]

@[simp] theorem clearSpad_mem (team) : (s.clearSpad team).mem = s.mem := foldl_mem (by intros; rfl) _ _

@[simp] theorem dropBlock_mem (team core) : (s.dropBlock team core).mem = s.mem := by
  simp [State.dropBlock, when_mem]

@[simp] theorem freeTeam_mem (team life) : (s.freeTeam team life).mem = s.mem := by
  simp only [State.freeTeam, mapTeam_mem]
  rw [foldl_mem fun t c => (mapCore_mem ..).trans (dropBlock_mem t team c), foldl_mem]
  intros; rfl

@[simp] theorem abandon_mem (team) : (s.abandon team).mem = s.mem := by
  simp [State.abandon]

@[simp] theorem dropReqs_mem (team) : (s.dropReqs team).mem = s.mem := (rfl)

@[simp] theorem leaveRounds_mem (team) : (s.leaveRounds team).mem = s.mem := (rfl)

@[simp] theorem retireTeam_mem (team) : (s.retireTeam team).mem = s.mem := by
  simp [State.retireTeam]

@[simp] theorem endWeft_mem (key) : (s.endWeft key).mem = s.mem := by
  simp [State.endWeft]

/-! #### Saving -/

@[simp] theorem cancel_mem (r) : (s.cancel r).mem = s.mem := by
  simp [State.cancel, apply_ite State.mem]

@[simp] theorem dropUnposted_mem (team) : (s.dropUnposted team).mem = s.mem :=
  foldl_mem (fun t f => by split <;> rfl) _ _

@[simp] theorem withdraw_mem (team) : (s.withdraw team).mem = s.mem := (rfl)

@[simp] theorem settleTeam_mem (team) : (s.settleTeam team).mem = s.mem := by
  simp only [State.settleTeam]
  rw [foldl_mem, foldl_mem cancel_mem]
  · simp
  · intros; rfl

@[simp] theorem leaveCores_mem (team va size rs) : (s.leaveCores team va size rs).mem = s.mem := by
  simp only [State.leaveCores, remap_mem, mapTeam_mem, freeTeam_mem]
  exact foldl_mem (by intros; rfl) _ _

@[simp] theorem loadSpads_mem (t cs ks b) : (s.loadSpads t cs ks b).mem = s.mem := by
  induction cs generalizing s ks b with
  | nil => rfl
  | cons c cs ih =>
    cases ks with
    | nil => rfl
    | cons k ks => exact (ih _ ks _).trans rfl

@[simp] theorem carry_mem (r) : (s.carry r).mem = s.mem := by
  unfold State.carry
  split <;> rfl

@[simp] theorem replayOne_mem (r0) : (s.replayOne r0).mem = s.mem := by
  unfold State.replayOne
  dsimp only
  split <;> simp [apply_ite State.mem]

@[simp] theorem restoreCmd_mem (core ch g c) : (s.restoreCmd core ch g c).mem = s.mem := (rfl)

@[simp] theorem seatWefts_mem (team delta ws) :
    (s.seatWefts team delta ws).mem = s.mem := foldl_mem (by intros; rfl) _ _

@[simp] theorem rejoin_mem (team cm mask fs) :
    (s.rejoin team cm mask fs).mem = s.mem := foldl_mem (by intros; rfl) _ _

@[simp] theorem resumeOn_mem (team cores) : (s.resumeOn team cores).mem = s.mem := by
  simp only [State.resumeOn, remap_mem]
  rw [foldl_mem replayOne_mem, foldl_mem fun t q => by split <;> simp]
  simp only
  rw [foldl_mem fun t p => restoreCmd_mem t _ _ _ _]
  simp

@[simp] theorem resumeMany_mem (ls) : ∀ t ∈ s.resumeMany ls, t.mem = s.mem := by
  induction ls generalizing s with
  | nil => simp [State.resumeMany]
  | cons x ls ih =>
    unfold State.resumeMany
    split
    · exact fun t ht => (ih _ t ht).trans (by simp)
    · simp

@[simp] theorem writeMgmt_mem (off val) : (s.writeMgmt off val).mem = s.mem := by
  unfold State.writeMgmt
  dsimp only
  (repeat' split) <;> simp [when_mem]

@[simp] theorem writeTenant_mem (tenant off val) : (s.writeTenant tenant off val).mem = s.mem := by
  simp [State.writeTenant, when_mem]

/-! #### HostSide -/

@[simp] theorem cmdDone_mem (result) : (s.cmdDone result).mem = s.mem := (rfl)

@[simp] theorem respond_mem (k fw tail) : (s.respond k fw tail).mem = s.mem := (rfl)

end

/-! ### What keeps the canonical form -/

section
variable {s : State} (hw : Memory.wf s.mem = true)
include hw

/-! #### Base -/

@[simp] theorem when_wf (c) {t : State} (ht : Memory.wf t.mem = true) : Memory.wf (s.when c t).mem = true := by
  unfold State.when
  split
  · exact ht
  · exact hw

/-! #### Translate -/

@[simp] theorem wr_wf (pa bs) : Memory.wf (s.wr pa bs).mem = true := mwrite_wf hw _ _

/-! #### Request -/

@[simp] theorem errorRecord_wf (ty tenant level core detail addr aux) :
    Memory.wf (s.errorRecord ty tenant level core detail addr aux).mem = true := by
  simp [State.errorRecord, hw]

/-! #### Caches -/

@[simp] theorem sideSet_wf (a b) : Memory.wf (s.sideSet a b).mem = true := by
  unfold State.sideSet
  split <;> exact mset_wf hw _ _

@[simp] theorem sideSets_wf (a bs) : Memory.wf (s.sideSets a bs).mem = true := by
  induction bs generalizing s a with
  | nil => exact hw
  | cons b bs ih => exact ih (sideSet_wf hw a b) _

@[simp] theorem homeSet_wf (asid a b) : Memory.wf (s.homeSet asid a b).mem = true := by
  unfold State.homeSet
  dsimp only
  split
  · exact sideSet_wf hw a b
  · exact mset_wf hw _ _

@[simp] theorem homeSets_wf (asid a bs) : Memory.wf (s.homeSets asid a bs).mem = true := by
  induction bs generalizing s a with
  | nil => exact hw
  | cons b bs ih => exact ih (homeSet_wf hw asid a b) _

@[simp] theorem memorySet_wf (x a) : Memory.wf (s.memorySet x a).mem = true := by
  unfold State.memorySet
  dsimp only
  split
  · exact hw
  · split
    · exact mset_wf hw _ _
    · exact hw

@[simp] theorem l2Evict_wf (x) : Memory.wf (s.l2Evict x).mem = true := by
  unfold State.l2Evict
  (repeat' split) <;> simp +contextual [hw]

/-! #### Control -/

@[simp] theorem execBdec_forms (w) : Forms (execBdec w s) := by
  unfold execBdec
  dsimp only
  (repeat' split) <;> simp [hw]

@[simp] theorem execRet_forms (w) : Forms (execRet w s) := by
  unfold execRet
  dsimp only
  (repeat' split) <;> simp [hw]

@[simp] theorem execSpill_forms (w) : Forms (execSpill w s) := by
  have h : Memory.wf (s.spillLists (s.spillList w.a) (s.active w.ctl)).1.mem = true := by simp [hw]
  unfold execSpill
  dsimp only
  split
  · simp [hw]
  · split <;> next e => rw [e] at h; simpa using h

@[simp] theorem execFill_forms (w) : Forms (execFill w s) := by
  unfold execFill
  dsimp only
  (repeat' split) <;> simp [hw]

@[simp] theorem execExit_forms (w) : Forms (execExit w s) := by
  unfold execExit
  dsimp only
  (repeat' split) <;> simp [hw]

@[simp] theorem execYield_forms (w) : Forms (execYield w s) := by
  unfold execYield
  dsimp only
  (repeat' split) <;> simp [hw]

/-! #### Uniform -/

@[simp] theorem uni2_forms (w f) : Forms (s.uni2 w f) := by
  simp [State.uni2, hw]

@[simp] theorem uniFull_forms (w f) : Forms (s.uniFull w f) := by
  simp [State.uniFull, hw]

@[simp] theorem execZop_forms (w) : Forms (execZop w s) := by
  unfold execZop
  split <;> simp [hw]

@[simp] theorem execSldlit_forms (w) : Forms (execSldlit w s) := by
  unfold execSldlit
  dsimp only
  (repeat' split) <;> simp [hw]

@[simp] theorem execSgetl_forms (w) : Forms (execSgetl w s) := by
  unfold execSgetl
  dsimp only
  (repeat' split) <;> simp [hw]

@[simp] theorem execSputl_forms (w) : Forms (execSputl w s) := by
  unfold execSputl
  dsimp only
  (repeat' split) <;> simp [hw]

@[simp] theorem execSmovs_forms (w) : Forms (execSmovs w s) := by
  unfold execSmovs
  dsimp only
  (repeat' split) <;> simp [hw]

@[simp] theorem execSmovc_forms (w) : Forms (execSmovc w s) := by
  unfold execSmovc
  dsimp only
  (repeat' split) <;> simp [hw]

/-! #### LaneInt -/

@[simp] theorem lane2_forms (w f) : Forms (s.lane2 w f) := by
  simp [State.lane2, hw]

@[simp] theorem laneFull_forms (w f) : Forms (s.laneFull w f) := by
  simp [State.laneFull, hw]

@[simp] theorem lane3_forms (w f) : Forms (s.lane3 w f) := by
  simp [State.lane3, hw]

@[simp] theorem execMov_forms (w) : Forms (execMov w s) := by
  unfold execMov
  split <;> simp [hw]

@[simp] theorem execVldlit_forms (w) : Forms (execVldlit w s) := by
  unfold execVldlit
  dsimp only
  (repeat' split) <;> simp [hw]

/-! #### FloatInstr -/

@[simp] theorem farith2_forms (w op) : Forms (s.farith2 w op) := by
  simp [State.farith2, hw]

@[simp] theorem farith1_forms (w op) : Forms (s.farith1 w op) := by
  simp [State.farith1, hw]

@[simp] theorem ffun_forms (w op) : Forms (s.ffun w op) := by
  simp [State.ffun, hw]

@[simp] theorem fpair_forms (w g) : Forms (s.fpair w g) := by
  simp [State.fpair, hw]

/-! #### Cross -/

@[simp] theorem execKop_forms (w) : Forms (execKop w s) := by
  unfold execKop
  (repeat' split) <;> simp [hw]

/-! #### Homes -/

@[simp] theorem cellBack_wf (block) : Memory.wf (s.cellBack block).mem = true := by
  unfold State.cellBack
  split
  · exact mwrite_wf hw _ _
  · exact hw

@[simp] theorem homePut_wf (asid t bs) : Memory.wf (s.homePut asid t bs).mem = true := by
  unfold State.homePut
  split <;> simp [hw]

@[simp] theorem homeWrite_wf (asid t bs) : Memory.wf (s.homeWrite asid t bs).mem = true := by
  simp [State.homeWrite, hw]

@[simp] theorem markPoison_wf (r) : Memory.wf (s.markPoison r).mem = true := by
  unfold State.markPoison
  (repeat' split) <;> simp [hw]

@[simp] theorem peerError_wf (r addr) : Memory.wf (s.peerError r addr).mem = true := by
  unfold State.peerError
  (repeat' split) <;> simp [hw]

@[simp] theorem upsetMark_wf (key) {f : Mark → State → State}
    (hf : ∀ m t, Memory.wf t.mem = true → Memory.wf (f m t).mem = true) : Memory.wf (s.upsetMark key f).mem = true :=
  hf _ _ (errorRecord_wf hw _ _ _ _ _ _ _)

@[simp] theorem upset_wf (u) : Memory.wf (s.upset u).mem = true := by
  unfold State.upset
  (repeat' split) <;> simp +contextual [hw]

/-! #### MemInstr -/

@[simp] theorem execSttag_forms (w) : Forms (execSttag w s) := by
  unfold execSttag
  dsimp only
  (repeat' split) <;> simp [hw]

@[simp] theorem execClrc_forms (w) : Forms (execClrc w s) := by
  unfold execClrc
  dsimp only
  (repeat' split) <;> simp [hw]

@[simp] theorem execFence_forms (w) : Forms (execFence w s) := by
  unfold execFence
  dsimp only
  (repeat' split) <;> simp [hw]

@[simp] theorem execLck_forms (w) : Forms (execLck w s) := by
  unfold execLck
  dsimp only
  (repeat' split) <;> simp [hw]

@[simp] theorem execUlck_forms (w) : Forms (execUlck w s) := by
  unfold execUlck
  dsimp only
  split
  · simp [hw]
  · rw [forms_next]
    refine foldl_wf (fun t e ht => ?_) _ (by simp [hw])
    split
    · split <;> simp [ht]
    · exact ht

/-! #### Sync -/

@[simp] theorem execBar_forms (w) : Forms (execBar w s) := by
  unfold execBar
  (repeat' split) <;> simp [hw]

@[simp] theorem execBara_forms (w) : Forms (execBara w s) := by
  unfold execBara
  split <;> simp [hw]

@[simp] theorem execBarw_forms (w) : Forms (execBarw w s) := by
  unfold execBarw
  split <;> simp [hw]

@[simp] theorem execBari_forms (w) : Forms (execBari w s) := by
  unfold execBari
  dsimp only
  (repeat' split) <;> simp [hw]

@[simp] theorem execGget_forms (w) : Forms (execGget w s) := by
  unfold execGget
  (repeat' split) <;> simp [hw]

@[simp] theorem execGset_forms (w) : Forms (execGset w s) := by
  unfold execGset
  (repeat' split) <;> simp [hw]

@[simp] theorem execGadd_forms (w) : Forms (execGadd w s) := by
  unfold execGadd
  split <;> simp [hw]

@[simp] theorem execRput_forms (w) : Forms (execRput w s) := by
  unfold execRput
  dsimp only
  (repeat' split) <;> simp [hw]

@[simp] theorem execRtake_forms (w) : Forms (execRtake w s) := by
  unfold execRtake
  dsimp only
  (repeat' split) <;> simp [hw]

@[simp] theorem ringWord_wf (w f) (hf : ∀ n, Memory.wf (f n).mem = true) : Memory.wf (s.ringWord w f).mem = true := by
  unfold State.ringWord
  dsimp only
  (repeat' split) <;> simp [hw, hf]

@[simp] theorem foldWord_wf (w) {f : Nat → State} (hf : ∀ n, Memory.wf (f n).mem = true) :
    Memory.wf (s.foldWord w f).mem = true := by
  unfold State.foldWord
  dsimp only
  (repeat' split) <;> simp [hw, hf]

@[simp] theorem execFleave_forms (w) : Forms (execFleave w s) := by
  unfold execFleave
  rw [forms_next]
  refine foldWord_wf hw w fun n => ?_
  dsimp only
  split <;> simp [hw]

@[simp] theorem execFset_forms (w) : Forms (execFset w s) := by
  unfold execFset
  rw [forms_next]
  refine foldWord_wf hw w fun n => ?_
  dsimp only
  split <;> simp [hw]

@[simp] theorem execFld_forms (w) : Forms (execFld w s) := by
  unfold execFld
  (repeat' split) <;> simp [hw]

/-! #### Loom -/

@[simp] theorem execChkw_forms (w) : Forms (execChkw w s) := by
  unfold execChkw
  dsimp only
  (repeat' split) <;> simp [hw]

@[simp] theorem execChkt_forms (w) : Forms (execChkt w s) := by
  unfold execChkt
  dsimp only
  (repeat' split) <;> simp [hw]

@[simp] theorem onTile_wf (tile) {f : State → State}
    (hf : ∀ t, Memory.wf t.mem = true → Memory.wf (f t).mem = true) : Memory.wf (s.onTile tile f).mem = true := by
  unfold State.onTile
  split
  · next t ht => exact hf t (by simp [useTile_mem s _ _ _ t ht, hw])
  · simp [hw]

@[simp] theorem execMma_forms (w) : Forms (execMma w s) := by
  unfold execMma
  dsimp only
  (repeat' split) <;> simp [hw]

@[simp] theorem execMmas_forms (w) : Forms (execMmas w s) := by
  unfold execMmas
  dsimp only
  (repeat' split) <;> simp [hw]

@[simp] theorem execOprdy_forms (w) : Forms (execOprdy w s) := by
  unfold execOprdy
  (repeat' split) <;> simp [hw]

@[simp] theorem execAwait_forms (w) : Forms (execAwait w s) := by
  unfold execAwait
  dsimp only
  (repeat' split) <;> simp +contextual [hw]

@[simp] theorem tileMove_wf (w al row f) (hf : ∀ m n, Memory.wf (f m n).mem = true) :
    Memory.wf (s.tileMove w al row f).mem = true := by
  unfold State.tileMove
  dsimp only
  (repeat' split) <;> simp [hw, hf]

@[simp] theorem execAld_forms (w) : Forms (execAld w s) := by
  unfold execAld
  rw [forms_next]
  refine tileMove_wf hw w _ _ _ fun o d => onTile_wf hw _ fun t ht => ?_
  split <;> simp [hw, ht]

@[simp] theorem astWrite_wf (w o d) : Memory.wf (s.astWrite w o d).mem = true := by
  unfold State.astWrite
  dsimp only
  (repeat' split) <;> simp +contextual [hw]

@[simp] theorem execAst_forms (w) : Forms (execAst w s) := by
  unfold execAst
  dsimp only
  rw [forms_next]
  split
  · simp [hw]
  · refine tileMove_wf hw w _ _ _ fun o d => onTile_wf hw _ fun t ht => ?_
    split <;> simp [hw, ht]

@[simp] theorem execAzero_forms (w) : Forms (execAzero w s) := by
  unfold execAzero
  split <;> simp [hw]

@[simp] theorem tileSave_wf (w f) (hf : ∀ n, Memory.wf (f n).mem = true) : Memory.wf (s.tileSave w f).mem = true := by
  unfold State.tileSave
  dsimp only
  (repeat' split) <;> simp [hw, hf]

@[simp] theorem execAsave_forms (w) : Forms (execAsave w s) := by
  unfold execAsave
  rw [forms_next]
  refine tileSave_wf hw w _ fun pa => ?_
  rw [advance_mem]
  exact homeWrite_wf hw _ _ _

@[simp] theorem execArest_forms (w) : Forms (execArest w s) := by
  unfold execArest
  rw [forms_next]
  refine tileSave_wf hw w _ fun pa => ?_
  simp only [advance_mem, tileWritten_mem]
  refine foldl_wf (fun t b ht => errorRecord_wf ht _ _ _ _ _ _ _) _ ?_
  simp [hw]

@[simp] theorem execPhint_forms (w) : Forms (execPhint w s) := by
  unfold execPhint
  split <;> simp [hw]

@[simp] theorem execTqadd_forms (w) : Forms (execTqadd w s) := by
  unfold execTqadd
  dsimp only
  (repeat' split) <;> simp [hw]

/-! #### System -/

@[simp] theorem execWaitg_forms (w) : Forms (execWaitg w s) := by
  unfold execWaitg
  dsimp only
  (repeat' split) <;> simp [hw]

@[simp] theorem execFresume_forms (w) : Forms (execFresume w s) := by
  unfold execFresume
  (repeat' split) <;> simp [hw]

@[simp] theorem startBump_wf (asid dst) : Memory.wf (s.startBump asid dst).mem = true := by
  simp [State.startBump, hw]

@[simp] theorem execGenbump_forms (w) : Forms (execGenbump w s) := by
  unfold execGenbump
  dsimp only
  (repeat' split) <;> simp [hw]

@[simp] theorem execTlbinv_forms (w) : Forms (execTlbinv w s) := by
  unfold execTlbinv
  dsimp only
  (repeat' split) <;> simp [hw]

@[simp] theorem otherWeft_wf (w write f) (hf : ∀ m n, Memory.wf (f m n).mem = true) :
    Memory.wf (s.otherWeft w write f).mem = true := by
  unfold State.otherWeft
  dsimp only
  (repeat' split) <;> simp [hw, hf]

@[simp] theorem execWrd_forms (w) : Forms (execWrd w s) := by
  unfold execWrd
  rw [forms_next]
  refine otherWeft_wf hw w _ _ fun k x => ?_
  split <;> simp [hw]

@[simp] theorem execWwr_forms (w) : Forms (execWwr w s) := by
  unfold execWwr
  rw [forms_next]
  refine otherWeft_wf hw w _ _ fun k x => ?_
  split <;> simp [hw]

@[simp] theorem execHalt_forms (w) : Forms (execHalt w s) := by
  unfold execHalt
  split <;> simp [hw]

@[simp] theorem snapTrigger_wf : Memory.wf s.snapTrigger.mem = true := by
  unfold State.snapTrigger
  split <;> simp [hw]

@[simp] theorem execSnap_forms (w) : Forms (execSnap w s) := by
  unfold execSnap
  (repeat' split) <;> simp [hw]

/-! #### Ordering -/

@[simp] theorem execYieldExpiry_forms (core slot lane) : Forms (execYieldExpiry core slot lane s) := by
  unfold execYieldExpiry
  dsimp only
  (repeat' split) <;> simp [hw]

@[simp] theorem execTeamRegisterPropagate_forms (team core g) : Forms (execTeamRegisterPropagate team core g s) := by
  unfold execTeamRegisterPropagate
  dsimp only
  (repeat' split) <;> simp [hw]

@[simp] theorem discarded_wf (core lost) : Memory.wf (s.discarded core lost).mem = true := by
  unfold State.discarded
  dsimp only
  (repeat' split) <;> simp +contextual [hw]

@[simp] theorem performDirty_wf (bs) : Memory.wf (s.performDirty bs).mem = true := by
  unfold State.performDirty
  refine foldl_wf (fun t e ht => homeSet_wf ?_ _ _ _) bs hw
  split <;> simp [ht]

@[simp] theorem writeBackBytes_wf (core adrs) : Memory.wf (s.writeBackBytes core adrs).mem = true := by
  unfold State.writeBackBytes
  dsimp only
  (repeat' split) <;> simp [hw]

@[simp] theorem evictL1_wf (core line) : Memory.wf (s.evictL1 core line).mem = true := by
  simp [State.evictL1, hw]

@[simp] theorem useL1_wf (core line) : ∀ t ∈ s.useL1 core line, Memory.wf t.mem = true := by
  unfold State.useL1
  dsimp only
  (repeat' split) <;> simp [hw]

@[simp] theorem drainView_wf (e r a) : Memory.wf (s.drainView e r a).mem = true := by
  unfold State.drainView
  split
  · next t ht =>
    have := useL1_wf hw _ _ t ht
    dsimp only
    split <;> simp [this]
  · exact hw

@[simp] theorem drainTo_wf (e r) : Memory.wf (s.drainTo e r).mem = true := by
  unfold State.drainTo
  dsimp only
  (repeat' split) <;> simp [hw]

@[simp] theorem drainEntry_wf (key idx e r) : Memory.wf (s.drainEntry key idx e r).mem = true := by
  unfold State.drainEntry
  (repeat' split) <;> simp [hw]

@[simp] theorem execStoreDrain_forms (core slot idx) : Forms (execStoreDrain core slot idx s) := by
  unfold execStoreDrain
  dsimp only
  (repeat' split) <;> simp [hw]

@[simp] theorem execWriteBack_forms (core sector mask) : Forms (execWriteBack core sector mask s) := by
  unfold execWriteBack
  (repeat' split) <;> simp [hw]

@[simp] theorem execCoreViewFill_forms (core sector uo asid) : Forms (execCoreViewFill core sector uo asid s) := by
  unfold execCoreViewFill
  rw [forms_next]
  refine when_wf hw _ ?_
  split
  · next t ht => simpa using useL1_wf hw _ _ t ht
  · exact hw

@[simp] theorem placeL1_wf (r line) : ∀ t ∈ s.placeL1 r line, Memory.wf t.mem = true := by
  unfold State.placeL1
  split
  · simp
  · exact useL1_wf hw _ _

@[simp] theorem fillFor_wf (r p) : Memory.wf (s.fillFor r p).mem = true := by
  unfold State.fillFor
  split
  · split
    · next t ht =>
      have := placeL1_wf hw _ _ t ht
      rw [streamL1_mem]
      split <;> simp [this]
    · simp [hw]
  · exact hw

@[simp] theorem satisfy_wf (r) : Memory.wf (s.satisfy r).mem = true := by
  unfold State.satisfy
  dsimp only
  (repeat' split) <;> simp +contextual [hw]

@[simp] theorem execLoadSatisfy_forms (req) : Forms (execLoadSatisfy req s) := by
  unfold execLoadSatisfy
  (repeat' split) <;> simp [hw]

@[simp] theorem purge_wf (core t n) : Memory.wf (s.purge core t n).mem = true := by
  unfold State.purge
  split <;> simp [hw]

@[simp] theorem doAtomic_wf (r p) : Memory.wf (s.doAtomic r p).mem = true := by
  unfold State.doAtomic
  dsimp only
  (repeat' split) <;> simp [hw]

@[simp] theorem doBara_wf (r p) : Memory.wf (s.doBara r p).mem = true := by
  simp [State.doBara, hw]

@[simp] theorem doSttag_wf (r p) : Memory.wf (s.doSttag r p).mem = true := by
  unfold State.doSttag
  split <;> simp [hw]

@[simp] theorem modify_wf (r p) : Memory.wf (s.modify r p).mem = true := by
  unfold State.modify
  (repeat' split) <;> simp [hw]

@[simp] theorem execReadModifyWrite_forms (req) : Forms (execReadModifyWrite req s) := by
  unfold execReadModifyWrite
  (repeat' split) <;> simp [hw]

/-! #### Promise -/

@[simp] theorem execPageWalk_forms (req) : Forms (execPageWalk req s) := by
  unfold execPageWalk
  split <;> simp [hw]

@[simp] theorem execControllerAdmission_forms (req) : Forms (execControllerAdmission req s) := by
  unfold execControllerAdmission
  dsimp only
  (repeat' split) <;> simp [hw]

@[simp] theorem execBooking_forms (req level wait) : Forms (execBooking req level wait s) := by
  unfold execBooking
  dsimp only
  (repeat' split) <;> simp [hw]

@[simp] theorem execProbeAnswer_forms (req) : Forms (execProbeAnswer req s) := by
  unfold execProbeAnswer
  dsimp only
  (repeat' split) <;> simp [hw]

@[simp] theorem performLoad_wf (r) : Memory.wf (s.performLoad r).mem = true := by
  unfold State.performLoad
  (repeat' split) <;> simp [hw]

@[simp] theorem arriveWait_wf (r) : Memory.wf (s.arriveWait r).mem = true := by
  unfold State.arriveWait
  dsimp only
  (repeat' split) <;> simp [hw]

@[simp] theorem fillLine_wf (r) : ∀ t ∈ s.fillLine r, Memory.wf t.mem = true := by
  unfold State.fillLine
  split
  · intro t ht
    obtain ⟨u, hu, rfl⟩ := Option.map_eq_some_iff.mp ht
    simpa using useL1_wf hw _ _ u hu
  · simp

@[simp] theorem addPin_wf (r l2 line) : ∀ t ∈ s.addPin r l2 line, Memory.wf t.mem = true := by
  unfold State.addPin
  dsimp only
  split
  · simp [hw]
  · intro t ht
    obtain ⟨u, hu, rfl⟩ := Option.map_eq_some_iff.mp ht
    simp [fillLine_wf hw r u hu]

theorem pin_wf (r l2) : ∀ e ∈ s.pin r l2, Memory.wf e.2.mem = true := by
  unfold State.pin
  dsimp only
  split
  · next line _ =>
    have ha : ∀ e ∈ (s.addPin r l2 line).map fun t => (0, t), Memory.wf e.2.mem = true := fun e he => by
      obtain ⟨u, hu, rfl⟩ := Option.map_eq_some_iff.mp he
      exact addPin_wf hw r l2 line u hu
    generalize (if l2 then _ else _ : List Pin) = ps
    generalize (if l2 then _ else _ : Nat) = limit
    generalize (_ || _ : Bool) = full
    split
    · simp [hw]
    · split
      · simp [hw]
      · split
        · simp [hw]
        · exact ha
  · simp [hw]

@[simp] theorem performLck_wf (r l2) : Memory.wf (s.performLck r l2).mem = true := by
  unfold State.performLck
  split
  · exact hw
  · split
    · next st s1 h => simpa using pin_wf hw r l2 _ h
    · exact hw

@[simp] theorem performLine_wf (r) : Memory.wf (s.performLine r).mem = true := by
  unfold State.performLine
  dsimp only
  split
  · simp [hw]
  · split <;> try simp [hw]
    split
    · next t ht => simpa using fillLine_wf hw _ t ht
    · exact hw

@[simp] theorem performCmo_wf (r f) : Memory.wf (s.performCmo r f).mem = true := by
  unfold State.performCmo
  dsimp only
  (repeat' split) <;> simp [hw]

@[simp] theorem performPut_wf (r t) : Memory.wf (s.performPut r t).mem = true := by
  unfold State.performPut
  dsimp only
  (repeat' split) <;> simp [hw]

@[simp] theorem atHomeNow_wf (r) : Memory.wf (s.atHomeNow r).mem = true := by
  unfold State.atHomeNow
  split <;> simp [hw]

@[simp] theorem execHomePerform_forms (req err) : Forms (execHomePerform req err s) := by
  unfold execHomePerform
  (repeat' split) <;> simp [hw]

@[simp] theorem execWaitcResend_forms (req) : Forms (execWaitcResend req s) := by
  unfold execWaitcResend
  split <;> simp [hw]

@[simp] theorem execDataLanding_forms (req) : Forms (execDataLanding req s) := by
  unfold execDataLanding
  (repeat' split) <;> simp [hw]

@[simp] theorem execPromiseExpiry_forms (req) : Forms (execPromiseExpiry req s) := by
  unfold execPromiseExpiry
  split <;> simp [hw]

@[simp] theorem execStaleRetranslate_forms (req) : Forms (execStaleRetranslate req s) := by
  unfold execStaleRetranslate
  split <;> simp [hw]

@[simp] theorem execCorrectedErrorRetry_forms (req) : Forms (execCorrectedErrorRetry req s) := by
  unfold execCorrectedErrorRetry
  dsimp only
  (repeat' split) <;> simp [hw]

@[simp] theorem execParityRefetch_forms (req) : Forms (execParityRefetch req s) := by
  unfold execParityRefetch
  dsimp only
  (repeat' split) <;> simp [hw]

@[simp] theorem execBplogHeadWrite_forms (pw) : Forms (execBplogHeadWrite pw s) := by
  unfold execBplogHeadWrite
  split <;> simp [hw]

@[simp] theorem execErrinjWrite_forms (pw) : Forms (execErrinjWrite pw s) := by
  unfold execErrinjWrite
  split <;> simp [hw]

/-! #### Faulting -/

@[simp] theorem execFaultPost_forms (idx) : Forms (execFaultPost idx s) := by
  unfold execFaultPost
  (repeat' split) <;> simp [hw]

@[simp] theorem execFaultResume_forms (tenant) : Forms (execFaultResume tenant s) := by
  unfold execFaultResume
  (repeat' split) <;> simp [hw]

@[simp] theorem execGenbumpHomeUpdate_forms (asid place) : Forms (execGenbumpHomeUpdate asid place s) := by
  unfold execGenbumpHomeUpdate
  (repeat' split) <;> simp [hw]

@[simp] theorem execGenbumpAck_forms (asid place) : Forms (execGenbumpAck asid place s) := by
  unfold execGenbumpAck
  (repeat' split) <;> simp [hw]

@[simp] theorem execGenbumpComplete_forms (asid) : Forms (execGenbumpComplete asid s) := by
  unfold execGenbumpComplete
  (repeat' split) <;> simp [hw]

@[simp] theorem execHostSnoop_forms (line) : Forms (execHostSnoop line s) := by
  have h := foldl_wf (fun t x ht => l2Evict_wf ht x) (s.l2.filter fun x => x.line = align line 128) hw
  unfold execHostSnoop
  dsimp only
  rw [forms_next]
  refine when_wf hw _ ?_
  split <;> simp [h]

@[simp] theorem hostPut_wf (tenant pa bs) : Memory.wf (s.hostPut tenant pa bs).mem = true := by
  simp [State.hostPut, hw]

@[simp] theorem execHostMemWrite_forms (tenant off bytes) : Forms (execHostMemWrite tenant off bytes s) := by
  unfold execHostMemWrite
  split <;> simp [hw]

@[simp] theorem execHostMemRead_forms (tenant off len) : Forms (execHostMemRead tenant off len s) := by
  unfold execHostMemRead
  split <;> simp [hw]

@[simp] theorem refusePeer_wf (addr) : Memory.wf (s.refusePeer addr).mem = true := by
  simp [State.refusePeer, hw]

@[simp] theorem peerModify_wf (g t n new) : Memory.wf (s.peerModify g t n new).2.mem = true := by
  unfold State.peerModify
  dsimp only
  (repeat' split) <;> simp [hw]

@[simp] theorem peerPerform_wf (dev tenant g op) : Memory.wf (s.peerPerform dev tenant g op).2.mem = true := by
  unfold State.peerPerform
  (repeat' split) <;> simp [hw]

@[simp] theorem execPeerRequestArrival_forms (q) : Forms (execPeerRequestArrival q s) := by
  unfold execPeerRequestArrival
  dsimp only
  (repeat' split) <;> simp [hw]

@[simp] theorem execPeerUnreachable_forms (dev) : Forms (execPeerUnreachable dev s) := by
  unfold execPeerUnreachable
  dsimp only
  rw [forms_next]
  refine foldl_wf (fun t r ht => ?_) _ hw
  split <;> simp [ht]

/-! #### Shuttle -/

@[simp] theorem putPiece_wf (asid dst bs tag bad) : Memory.wf (s.putPiece asid dst bs tag bad).mem = true := by
  unfold State.putPiece
  (repeat' split) <;> simp [hw]

@[simp] theorem setChunkBit_wf (c i on) : Memory.wf (s.setChunkBit c i on).mem = true := by
  unfold State.setChunkBit
  (repeat' split) <;> simp +contextual [hw]

@[simp] theorem clearChunkBits_wf (c) : Memory.wf (s.clearChunkBits c).mem = true := by
  unfold State.clearChunkBits
  split
  · exact hw
  · exact foldl_wf (fun t b ht => foldl_wf (fun u w hu => homeWrite_wf hu _ _ _) _ ht) _ hw

@[simp] theorem execShuttleCommand_forms (core slot idx) : Forms (execShuttleCommand core slot idx s) := by
  unfold execShuttleCommand
  dsimp only
  (repeat' split) <;> simp [hw]

@[simp] theorem chunkDone_wf (core ch c i) : Memory.wf (s.chunkDone core ch c i).mem = true := by
  unfold State.chunkDone
  split <;> simp [hw]

@[simp] theorem chunkSettled_wf (core ch c i) : Memory.wf (s.chunkSettled core ch c i).mem = true := by
  unfold State.chunkSettled
  split <;> simp [hw]

@[simp] theorem rowAnswer_wf (core ch c i) : Memory.wf (s.rowAnswer core ch c i).mem = true := by
  unfold State.rowAnswer
  (repeat' split) <;> simp [hw]

@[simp] theorem performPieces_wf (core ch c i ds) : Memory.wf (s.performPieces core ch c i ds).mem = true := by
  unfold State.performPieces
  dsimp only
  rw [foldl_mem (fun t k => enterWindow_mem t _ _ _ _ _)]
  refine foldl_wf (fun t d ht => ?_) _ hw
  split <;> simp [ht]

@[simp] theorem chunkPerforms_wf (core ch c i member src dst) :
    Memory.wf (s.chunkPerforms core ch c i member src dst).mem = true := by
  unfold State.chunkPerforms
  dsimp only
  split
  · simp [hw]
  · refine chunkSettled_wf ?_ _ _ _ _
    split <;> simp [hw]

@[simp] theorem execShuttleChunk_forms (core ch chunk) : Forms (execShuttleChunk core ch chunk s) := by
  unfold execShuttleChunk
  dsimp only
  (repeat' split) <;> simp [hw]

@[simp] theorem execMulticastAck_forms (core ch chunk member) : Forms (execMulticastAck core ch chunk member s) := by
  unfold execMulticastAck
  (repeat' split) <;> simp [hw]

@[simp] theorem execShuttleCommandComplete_forms (core ch) : Forms (execShuttleCommandComplete core ch s) := by
  unfold execShuttleCommandComplete
  (repeat' split) <;> simp [hw]

/-! #### RingFold -/

@[simp] theorem execRingPutAdmit_forms (core ring) : Forms (execRingPutAdmit core ring s) := by
  unfold execRingPutAdmit
  dsimp only
  (repeat' split) <;> simp [hw]

@[simp] theorem filledPut_wf (p) : Memory.wf (s.filledPut p).mem = true := by
  unfold State.filledPut
  (repeat' split) <;> simp [hw]

@[simp] theorem execRingSlotFilled_forms (core ring) : Forms (execRingSlotFilled core ring s) := by
  unfold execRingSlotFilled
  dsimp only
  (repeat' split) <;> simp [hw]

@[simp] theorem execRingReshape_forms (pw) : Forms (execRingReshape pw s) := by
  unfold execRingReshape
  dsimp only
  (repeat' split) <;> simp [hw]

@[simp] theorem execRingModeWrite_forms (pw) : Forms (execRingModeWrite pw s) := by
  unfold execRingModeWrite
  split <;> simp [hw]

@[simp] theorem forReqs_wf (ids) {f : State → Req → State}
    (hf : ∀ t r, Memory.wf t.mem = true → Memory.wf (f t r).mem = true) :
    Memory.wf (s.forReqs ids f).mem = true := by
  refine foldl_wf (fun t id ht => ?_) ids hw
  split
  · exact hf t _ ht
  · exact ht

@[simp] theorem serveFold_wf (key va len ids z late res) :
    Memory.wf (s.serveFold key va len ids z late res).2.mem = true := by
  unfold State.serveFold
  dsimp only
  (repeat' split) <;> simp +contextual [hw]

@[simp] theorem straggler_wf (r key va len) : Memory.wf (s.straggler r key va len).mem = true := by
  unfold State.straggler
  dsimp only
  (repeat' split) <;> simp [hw]

@[simp] theorem execFoldRequestArrival_forms (req) : Forms (execFoldRequestArrival req s) := by
  unfold execFoldRequestArrival
  dsimp only
  (repeat' split) <;> simp [hw]

@[simp] theorem execFoldRoundClose_forms (die fold) : Forms (execFoldRoundClose die fold s) := by
  unfold execFoldRoundClose
  dsimp only
  (repeat' split) <;> simp [hw]

@[simp] theorem execFoldTimerExpiry_forms (die fold) : Forms (execFoldTimerExpiry die fold s) := by
  unfold execFoldTimerExpiry
  dsimp only
  (repeat' split) <;> simp [hw]

@[simp] theorem execFoldFill_forms (req) : Forms (execFoldFill req s) := by
  unfold execFoldFill
  rw [forms_next]
  split
  · exact hw
  · split
    · split
      · exact hw
      · dsimp only
        simp only [wake_mem, setReq_mem]
        refine foldl_wf (fun t i ht => ?_) _ hw
        split <;> simp [ht]
    · exact hw

@[simp] theorem settleWindow_wf (key w) : Memory.wf (s.settleWindow key w).mem = true := by
  unfold State.settleWindow
  dsimp only
  (repeat' split) <;> simp [hw]

@[simp] theorem setWindow_wf (key idx w) : Memory.wf (s.setWindow key idx w).mem = true := by
  simp [State.setWindow, hw]

@[simp] theorem mirror_wf (core base p) : Memory.wf (s.mirror core base p).mem = true := by
  simp [State.mirror, hw]

@[simp] theorem execFoldWindowDelivery_forms (die fold idx member) :
    Forms (execFoldWindowDelivery die fold idx member s) := by
  unfold execFoldWindowDelivery
  dsimp only
  rw [forms_next]
  (repeat' split) <;> try simp [hw]
  refine setWindow_wf ?_ _ _ _
  rw [wake_mem]
  exact foldl_wf (fun t p ht => mirror_wf ht _ _ _) _ hw

@[simp] theorem execFoldWindowAck_forms (die fold idx member) : Forms (execFoldWindowAck die fold idx member s) := by
  unfold execFoldWindowAck
  dsimp only
  (repeat' split) <;> simp [hw]

/-! #### Tasks -/

@[simp] theorem execLoomEntryBegin_forms (core) : Forms (execLoomEntryBegin core s) := by
  unfold execLoomEntryBegin
  dsimp only
  (repeat' split) <;> simp [hw]

@[simp] theorem opFetch_wf (o core) : Memory.wf (s.opFetch o core).mem = true := by
  refine foldl_wf (fun t r ht => foldl_wf (fun u i hu => ?_) _ ht) _ hw
  split <;> simp [hu]

@[simp] theorem execLoomEntryComplete_forms (core) : Forms (execLoomEntryComplete core s) := by
  unfold execLoomEntryComplete
  dsimp only
  (repeat' split) <;> simp [hw]

@[simp] theorem discardTask_wf (t detail va) : Memory.wf (s.discardTask t detail va).mem = true := by
  simp [State.discardTask, hw]

@[simp] theorem taskFails_wf (m key idx) (x : Task) (cs) :
    ∀ t ∈ s.taskFails m key idx x cs, Memory.wf t.mem = true := by
  unfold State.taskFails
  dsimp only
  split <;> simp [hw]

@[simp] theorem execCounterRecheck_forms (meadow tenant queue idx) :
    Forms (execCounterRecheck meadow tenant queue idx s) := by
  unfold execCounterRecheck
  dsimp only
  rw [forms_next]
  (repeat' split) <;> try simp [hw]
  · next h => exact taskFails_wf hw _ _ _ _ _ _ h
  · refine foldl_wf (fun t e ht => ?_) _ hw
    split <;> simp [ht]

@[simp] theorem execTaskDispatch_forms (core) : Forms (execTaskDispatch core s) := by
  unfold execTaskDispatch
  dsimp only
  rw [forms_next]
  (repeat' split) <;> try simp [hw]
  · next h => exact taskFails_wf hw _ _ _ _ _ _ h
  · rw [foldl_mem (fun t e => by split <;> simp)]
    exact hw

@[simp] theorem addCell_wf (asid pa cls x) : Memory.wf (s.addCell asid pa cls x).mem = true := by
  unfold State.addCell
  (repeat' split) <;> simp [hw]

@[simp] theorem putOutput_wf (t va code) : Memory.wf (s.putOutput t va code).mem = true := by
  unfold State.putOutput
  dsimp only
  (repeat' split) <;> simp [hw]

@[simp] theorem signal_wf (t) : Memory.wf (s.signal t).mem = true := by
  unfold State.signal
  (repeat' split) <;> simp [hw]

@[simp] theorem taskLost_wf (core) (x : Task) : ∀ t ∈ s.taskLost core x, Memory.wf t.mem = true := by
  unfold State.taskLost
  intro t ht
  obtain ⟨u, hu, rfl⟩ := Option.map_eq_some_iff.mp ht
  simpa using taskFails_wf (s := s.setMeadow _ _) hw _ _ _ _ _ u hu

@[simp] theorem execTaskComplete_forms (core) : Forms (execTaskComplete core s) := by
  unfold execTaskComplete
  dsimp only
  rw [forms_next]
  split
  · exact hw
  · split
    · exact hw
    · split
      · next h => exact taskLost_wf hw _ _ _ h
      · split
        · simp [hw]
        · simp only [wake_mem, endTask_mem]
          refine signal_wf (foldl_wf (fun t e ht => putOutput_wf ht _ _ _) _ (opFetch_wf hw _ _)) _

@[simp] theorem execEngineStep_forms (q) : Forms (execEngineStep q s) := by
  unfold execEngineStep
  split <;> simp [hw]

/-! #### Grids -/

@[simp] theorem setBlock_wf (c off bs f) : Memory.wf (s.setBlock c off bs f).mem = true := by
  simp [State.setBlock, hw]

@[simp] theorem usedZero_wf (c) : Memory.wf (s.usedZero c).mem = true := by
  simp [State.usedZero, hw]

@[simp] theorem startGrid_wf (g) : Memory.wf (s.startGrid g).mem = true := by
  unfold State.startGrid
  split <;> simp [hw]

@[simp] theorem execLaunchAnswer_forms (core slot) : Forms (execLaunchAnswer core slot s) := by
  unfold execLaunchAnswer
  dsimp only
  (repeat' split) <;> simp [hw]

@[simp] theorem endGrid_wf (h st) : Memory.wf (s.endGrid h st).mem = true := by
  unfold State.endGrid
  (repeat' split) <;> simp [hw]

@[simp] theorem execLaunchiDequeue_forms (grid) : Forms (execLaunchiDequeue grid s) := by
  unfold execLaunchiDequeue
  dsimp only
  (repeat' split) <;> simp [hw]

@[simp] theorem execTeamPlacement_forms (grid) : Forms (execTeamPlacement grid s) := by
  unfold execTeamPlacement
  dsimp only
  rw [forms_next]
  split
  · exact hw
  · next t ht =>
    have h : t.mem = s.mem := (placedNext_mem _ _ t ht).trans (by split <;> simp)
    (repeat' split) <;> simp [h, hw]

@[simp] theorem execThermalSample_forms (readings) : Forms (execThermalSample readings s) := by
  simp +contextual [execThermalSample, hw]

@[simp] theorem execPriorityPreemption_forms (grid) : Forms (execPriorityPreemption grid s) := by
  unfold execPriorityPreemption
  dsimp only
  (repeat' split) <;> simp [hw]

@[simp] theorem startTeam_wf (team) : Memory.wf (s.startTeam team).mem = true := by
  unfold State.startTeam
  dsimp only
  rw [wake_mem, mapTeam_mem, foldl_mem (by intros; rfl)]
  exact foldl_wf (fun t c ht => by simp [ht]) _ (startGrid_wf hw _)

@[simp] theorem execTeamStart_forms (team) : Forms (execTeamStart team s) := by
  unfold execTeamStart
  dsimp only
  rw [forms_next]
  split
  · exact hw
  · split
    · simp [hw]
    · split <;> split <;> simp [hw]

@[simp] theorem execTeamRetire_forms (team) : Forms (execTeamRetire team s) := by
  unfold execTeamRetire
  dsimp only
  (repeat' split) <;> simp [hw]

/-! #### Image -/

@[simp] theorem writeVa_wf (g va bs n) : Memory.wf (s.writeVa g va bs n).1.mem = true := by
  induction n generalizing s va bs with
  | zero => exact hw
  | succ n ih =>
    simp only [State.writeVa]
    split
    · exact hw
    · split
      · exact ih (by simp [hw]) _ _
      · exact hw

/-! #### Saving -/

@[simp] theorem execTeamStop_forms (team) : Forms (execTeamStop team s) := by
  unfold execTeamStop
  dsimp only
  (repeat' split) <;> simp [hw]

@[simp] theorem execDebuggerResume_forms (team) : Forms (execDebuggerResume team s) := by
  simp +contextual [execDebuggerResume, hw]

@[simp] theorem execTeamSave_forms (team) : Forms (execTeamSave team s) := by
  unfold execTeamSave
  dsimp only
  rw [forms_next]
  (repeat' split) <;> simp [hw]

@[simp] theorem execTeamResume_forms (team) : Forms (execTeamResume team s) := by
  unfold execTeamResume
  dsimp only
  rw [forms_next]
  split
  · exact hw
  · split
    · next t ht => simp [resumeMany_mem s _ t ht, hw]
    · exact hw

@[simp] theorem writeRecords_wf (g va size off rs) : Memory.wf (s.writeRecords g va size off rs).1.mem = true := by
  induction rs generalizing s off with
  | nil => exact hw
  | cons r rs ih =>
    simp only [State.writeRecords]
    split
    · exact hw
    · split
      · simp [hw]
      · exact ih (writeVa_wf hw _ _ _ _) _

@[simp] theorem execDump_forms (team asid va size) : Forms (execDump team asid va size s) := by
  unfold execDump
  dsimp only
  (repeat' split) <;> simp [hw]

@[simp] theorem execContextRegisterWrite_forms (pw) : Forms (execContextRegisterWrite pw s) := by
  unfold execContextRegisterWrite
  split <;> simp [hw]

@[simp] theorem execContextCounterUpdate_forms (ctx idx) : Forms (execContextCounterUpdate ctx idx s) := by
  unfold execContextCounterUpdate
  dsimp only
  (repeat' split) <;> simp [hw]

@[simp] theorem execHmaskWrite_forms (pw) : Forms (execHmaskWrite pw s) := by
  unfold execHmaskWrite
  dsimp only
  rw [forms_next]
  split
  · exact hw
  · split
    · exact hw
    · rw [pwriteDone_mem]
      exact foldl_wf (fun t c ht => usedZero_wf ht c) _ (foldl_wf (fun t x ht => l2Evict_wf ht x) _ hw)

@[simp] theorem execRegisterWrite_forms (r val) : Forms (execRegisterWrite r val s) := by
  unfold execRegisterWrite
  split <;> simp [hw]

/-! #### HostSide -/

@[simp] theorem execCellwb_forms : Forms (execCellwb s) := by
  unfold execCellwb
  rw [forms_next]
  refine when_wf hw _ ?_
  rw [cmdDone_mem]
  exact foldl_wf (fun t b ht => cellBack_wf ht b) _ hw

@[simp] theorem execPeerroute_forms : Forms (execPeerroute s) := by
  unfold execPeerroute
  dsimp only
  (repeat' split) <;> simp [hw]

@[simp] theorem execRate_forms : Forms (execRate s) := by
  unfold execRate
  split <;> simp [hw]

@[simp] theorem execHbmRetrainComplete_forms (stack) : Forms (execHbmRetrainComplete stack s) := by
  unfold execHbmRetrainComplete
  dsimp only
  (repeat' split) <;> simp [hw]

@[simp] theorem toControl_wf (off bs) : Memory.wf (s.toControl off bs).1.mem = true := by
  simp [State.toControl, hw]

@[simp] theorem ckptTeam_wf (off team) : Memory.wf (s.ckptTeam off team).1.mem = true := by
  simp [State.ckptTeam, hw]

@[simp] theorem copyHbm_wf : Memory.wf s.copyHbm.mem = true :=
  List.foldlRecOn (motive := fun m => Memory.wf m = true) _ _ (filter_wf hw _) fun _ hm _ _ => mset_wf hm _ _

@[simp] theorem checkpoint_wf (teams) : Memory.wf (s.checkpoint teams).mem = true := by
  unfold State.checkpoint
  dsimp only
  apply wr_wf
  apply toControl_wf
  apply copyHbm_wf
  refine foldl_wf (fun t x ht => l2Evict_wf ht x) _ (foldl_wf (fun t x ht => cellBack_wf ht x) _ ?_)
  refine foldl_fst_wf (fun t c ht => toControl_wf ht _ _) _ ?_
  exact foldl_fst_wf (fun t c ht => ckptTeam_wf ht _ _) _ hw

@[simp] theorem powerDown_wf : Memory.wf s.powerDown.mem = true := filter_wf hw _

@[simp] theorem execCheckpoint_forms : Forms (execCheckpoint s) := by
  unfold execCheckpoint
  dsimp only
  rw [forms_next]
  (repeat' split) <;> try simp [hw]
  rw [foldl_mem (fun t x => by split <;> simp)]
  exact hw

@[simp] theorem execMainPowerLoss_forms : Forms (execMainPowerLoss s) := by
  unfold execMainPowerLoss
  split <;> simp [hw]

@[simp] theorem loadSection_wf (g) (f h : List Byte) : Memory.wf (s.loadSection g f h).mem = true := by
  unfold State.loadSection
  refine foldl_wf (fun t i ht => ?_) _ hw
  dsimp only
  split <;> simp [ht]

@[simp] theorem execImageLoad_forms (ctx image) : Forms (execImageLoad ctx image s) := by
  unfold execImageLoad
  dsimp only
  (repeat' split) <;> simp +contextual [hw]

/-! #### A step -/

/-- A word that lanes touch marks with is carried out for part of its lanes, or traps. -/
theorem touchedWord_forms (x ts) {run : State → Out} (hr : ∀ t, t.mem = s.mem → Forms (run t)) :
    Forms (s.touchedWord x ts run) := by
  unfold State.touchedWord
  dsimp only
  generalize maskOf (s.lanes.filter _) = below
  split
  · simp [hw]
  · split
    · split
      · exact hr _ rfl
      · simp [hw]
    · simp [hw]

omit hw in
theorem settle_forms (i) {o : Out} (h : Forms o) : Forms (settle i o) := by
  cases o with
  | next t => simpa [settle] using h
  | fault r => exact forms_fault r
  | refused r => exact forms_refused r

/-- One instruction: the arms listed are their shared operation; every other arm has a lemma of its own above. -/
theorem exec_forms (i) : Forms (exec i s) := by
  unfold exec
  split <;> simp [hw,
    execNop, execNop96, execNop128, execBra, execJmp, execBrt, execCall, execCalli, execFrame, execMeet,
    execMeetReg, execJoin, execLeave, execWaitm, execYieldt, execTwait, execBrk, execTrap, execTret, execSadd,
    execSsub, execSmul, execSmulh, execSand, execSor, execSxor, execSshl, execSshr, execSmin, execSmax, execSmov,
    execSpopc, execSclz, execSbfe, execScmp, execSsel, execSbfi, execSmovi, execIadd, execIsub, execImul,
    execImulh, execImad, execIand, execIor, execIxor, execIshl, execIshr, execImin, execImax, execIabs, execPopc,
    execClz, execBfe, execBperm, execRng, execIcmp, execIsel, execBfi, execMovs, execFadd, execFsub, execFmul,
    execFmin, execFmax, execFfma, execFldexp, execFcmp, execFclass, execFrcp, execFsqrt, execFrsq, execFex2,
    execFlg2, execFsin, execFcos, execFrnd, execFcvt, execFtoi, execItof, execFpack, execFunpk, execFdot2,
    execFadd2, execFmul2, execFfma2, execPlop, execPset, execVote, execBallot, execElect, execShfl, execTrank,
    execRedux, execScan, execLd, execSt, execLdu, execStu, execLdtag, execAtom, execAtomu, execCas, execCadd,
    execPref, execCmo, execWaitc, execRdone, execRstat, execFjoin, execLaunch, execLaunchi, execIssueDecision,
    execDrop, execCellLineWriteback, execLinkretry, execDramActivate, execHostRingDoorbell, execVectorUnmask,
    execDeclarationStart, execDeclarationExpiry, execQueueRotation, execDroopEvent, execPreemptRequest,
    execGridComplete, execSystemSoftwareEndsGrid, execContextDestroyed, execHaltRequest, execSnapshotLatch,
    execSnapcntWrite, execSnapCommand, execUnknownCommand, execHbmRetrain, execPowerSample, execClockStep,
    execThermalThrottle, execDeviceReset, execStageAdvance, execGetVersion, execGetCapabilities,
    execNegotiateAlgorithms, execGetDigests, execGetCertificate, execChallenge, execGetMeasurements]

omit hw in
/-- A word's fetch and the marks it meets change no byte of memory. -/
theorem nextWord_mem : s.nextWord.state.mem = s.mem := by
  unfold State.nextWord
  dsimp only
  (repeat' split) <;> simp [Next.state]

theorem stepWord_forms : Forms (stepWord s) := by
  have h : Memory.wf s.nextWord.state.mem = true := by rw [nextWord_mem, hw]
  unfold stepWord
  split
  · next e => exact forms_next.mpr (e ▸ h :)
  · next e => exact settle_forms _ (exec_forms (e ▸ h :) _)
  · next e =>
    rw [e] at h
    exact settle_forms _ (touchedWord_forms h _ _ fun t ht => exec_forms (ht ▸ h) _)

theorem stepMove_forms (m) : Forms (stepMove m s) := by
  cases m with
  | tick core => simp [stepMove, hw]
  | act i =>
    simp only [stepMove]
    split
    · exact forms_next.mpr hw
    · exact exec_forms hw i
  | upset u => simp [stepMove, hw]

theorem step_forms : Forms (step s) := by
  unfold step
  split
  · exact stepWord_forms hw
  · exact stepMove_forms (by simpa using hw) _

end

/-- Settles O58: a step is a word's or a move's, and each keeps the canonical form. -/
theorem memoryKept : Obligations.MemoryKept :=
  fun _ t hw h => step_forms hw t h

end Sys2Proof.Machine
end


section
/-!
Stale requests, errors that are retried, activates, and the writes of HEAD and ERRINJ (O46).
-/
namespace Sys2Proof.Machine
open Sys2Proof.Claims

/-! ### Walks kept, and records of errors -/

theorem keepWalk_wefts (s : State) (core : Nat) (w : WalkRes) : (s.keepWalk core w).wefts = s.wefts := by
  obtain ⟨u, hu, ht⟩ := keepWalk_only s core w
  unfold CachesOnly at hu
  rw [ht, hu]

theorem keepWalk_bytes (s : State) (core : Nat) (w : WalkRes) : SameBytes s (s.keepWalk core w) := by
  obtain ⟨-, hcore, -⟩ := keepWalk_entered s core w
  exact ⟨fun a => by rw [keepWalk_mem], fun c a => by rw [hcore c]⟩

theorem keepWalk_req (s : State) (core : Nat) (w : WalkRes) (id : Nat) : (s.keepWalk core w).req id = s.req id := by
  unfold State.req
  rw [(keepWalk_reqs s core w).1]

theorem interrupt_hub (s : State) (tenant v : Nat) : (s.interrupt tenant v).hub = s.hub := by
  unfold State.interrupt
  split <;> rfl

theorem interrupt_reqs (s : State) (tenant v : Nat) : (s.interrupt tenant v).reqs = s.reqs := by
  unfold State.interrupt
  split <;> rfl

theorem errorRecord_req (s : State) (ty tenant level core detail addr aux id : Nat) :
    (s.errorRecord ty tenant level core detail addr aux).req id = s.req id := by
  simp only [State.req, State.errorRecord, interrupt_reqs, State.wr]

/-- A record takes the next sequence number (R353). -/
theorem errorRecord_errSeq (s : State) (ty tenant level core detail addr aux : Nat) :
    (s.errorRecord ty tenant level core detail addr aux).errSeq = (s.errSeq + 1) % 2 ^ 64 := by
  simp [State.errSeq, State.errorRecord, State.mgmt, interrupt_hub, State.wr]

/-- A request written over itself stands in the list, and the others are as before. -/
theorem reqNow_setReq {s : State} {id : Nat} {r q : Req} (h : s.req id = some r) (hq : q.id = id) :
    ReqNow s (s.setReq q) id q := by
  subst hq
  exact ⟨req_setReq_same h, fun j hj => req_setReq_other s q hj⟩

/-! ### A stale request -/

/-- The request, placed at the target of its new translation. -/
def Req.replaced (r : Req) (s : State) (p : Part) (g : Tgt) (wk : WalkRes) : Req :=
  { r with
    parts := [{ p with tgt := g }]
    gen := s.coreGen r.agent.core r.agent.asid
    satisfied := false
    admitted := false
    overflow := false
    stamp := 0
    issued := (s.core r.agent.core).cyc
    phase := if wk.walked then .walk else .probe }

section
variable {s : State} {r : Req} {p : Part} {g : Tgt} {wk : WalkRes} (hp : r.parts = [p])
  (hc : s.check r.agent (BitVec.ofNat 64 p.va) 1 (r.checked p) r.op.acc = .ok g wk) (hop : r.op ≠ .store)
include hp hc

theorem retranslate_one : s.retranslate r = [(p, .ok g wk)] := by
  simp [State.retranslate, hp, hc]

include hop

/-- The one part of the request translates: it is placed anew. -/
theorem tryAgain_one : s.tryAgain r = (s.keepWalk r.agent.core wk).setReq (r.replaced s p g wk) := by
  simp [State.tryAgain, retranslate_one hp hc, State.replaceParts, hop, Req.replaced]

/-- So it is for prefetches and operations on caches, whose part has no fault. -/
theorem retry_one : s.retry r = (s.keepWalk r.agent.core wk).setReq (r.replaced s p g wk) := by
  unfold State.retry
  split <;> simp [retranslate_one hp hc, tryAgain_one hp hc hop]

theorem exec_staleRetranslate {id : Nat} (h : s.req id = some r) (hs : r.phase = .stale) :
    ∃ t, exec (.staleRetranslate id) s = .next t ∧ SameBytes s t ∧ t.wefts = s.wefts ∧
      ReqNow s t id (r.replaced s p g wk) := by
  have hid : (r.replaced s p g wk).id = id := req_id (r := r) h
  have hk : (s.keepWalk r.agent.core wk).req id = some r := (keepWalk_req ..).trans h
  obtain ⟨hnow, hothers⟩ := reqNow_setReq hk hid
  refine ⟨_, rfl, ?_⟩
  simp only [h, hs, State.when, decide_true, if_true, retry_one hp hc hop]
  exact ⟨keepWalk_bytes .., keepWalk_wefts .., hnow, fun j hj => (hothers j hj).trans (keepWalk_req ..)⟩

end

/-! ### Errors that are retried -/

/-- The request with the first cause that delays it. -/
def Req.delayedBy (r : Req) (cause : Nat) : Req := { r with cause := if r.cause = 0 then cause else r.cause }

section
variable {s : State} {id : Nat} {r : Req} (h : s.req id = some r) (hb : r.phase = .booked ∨ r.phase = .answered)
include h hb

theorem delay_hit {cause : Nat} {ok : Req → Bool} (hok : ok r = true) :
    s.delay id cause ok = s.setReq (r.delayedBy cause) := by
  have hb' : (decide (r.phase = .booked) || decide (r.phase = .answered)) = true := by simpa using hb
  simp [State.delay, h, State.when, hb', hok, Req.delayedBy]

theorem delay_hit_req {cause : Nat} {ok : Req → Bool} (hok : ok r = true) :
    (s.delay id cause ok).req id = some (r.delayedBy cause) := by
  rw [delay_hit h hb hok]
  exact (reqNow_setReq h (q := r.delayedBy cause) (req_id (r := r) h)).1

/-- A delay that is logged: the cause stands in the request, and the record has its number. -/
theorem delay_logged {cause : Nat} {ok : Req → Bool} (hok : ok r = true)
    (ty tenant level core detail addr aux : Nat) :
    let t := (s.delay id cause ok).errorRecord ty tenant level core detail addr aux
    t.req id = some (r.delayedBy cause) ∧ t.errSeq = (s.errSeq + 1) % 2 ^ 64 := by
  refine ⟨(errorRecord_req ..).trans (delay_hit_req h hb hok), ?_⟩
  rw [errorRecord_errSeq, delay_hit h hb hok]
  rfl

theorem exec_correctedErrorRetry (h3 : 3 ≤ r.level) (h7 : r.level ≤ 7) :
    ∃ t, exec (.correctedErrorRetry id) s = .next t ∧ t.req id = some (r.delayedBy 1) ∧
      t.errSeq = (s.errSeq + 1) % 2 ^ 64 := by
  refine ⟨_, rfl, ?_⟩
  simp only [h]
  rw [if_pos (by simp [hb, h3, h7])]
  exact delay_logged h hb (by simp [h3, h7]) ..

theorem exec_parityRefetch (hl : r.level = 1 ∨ r.level = 3 ∨ r.level = 4) :
    ∃ t, exec (.parityRefetch id) s = .next t ∧ t.req id = some (r.delayedBy 2) ∧
      t.errSeq = (s.errSeq + 1) % 2 ^ 64 := by
  have hok : (decide (r.level = 1) || decide (r.level = 3) || decide (r.level = 4)) = true := by
    simpa [or_assoc] using hl
  refine ⟨_, rfl, ?_⟩
  simp only [h]
  rw [if_pos (by simp [hb, hok])]
  exact delay_logged h hb hok ..

theorem exec_linkretry (hp : s.hubPorts r ≠ []) :
    ∃ t, exec (.linkretry id) s = .next t ∧ SameBytes s t ∧ t.req id = some (r.delayedBy 4) := by
  have hok : (!(s.hubPorts r).isEmpty) = true := by simpa using hp
  refine ⟨_, rfl, ?_, delay_hit_req h hb hok⟩
  rw [delay_hit h hb (ok := fun r => !(s.hubPorts r).isEmpty) hok]
  exact (settles_setReq s _).1

end

/-! ### Activates (R65, R74) -/

/-- The row's activate is counted, and its neighbours are refreshed where the stack draws 0. -/
theorem exec_dramActivate {s : State} {stack channel : Nat} (row : Nat) (hs : stack < 8) (hc : channel < 32)
    (hr : 32 * stack + channel ∈ s.rows) :
    ∃ t, exec (.dramActivate stack channel row) s = .next t ∧ SameBytes s t ∧
      (t.stack stack).activates = (s.stack stack).activates + 1 ∧
      t.rows = s.rows.erase (32 * stack + channel) ∧
      (t.stack stack).refreshed = (s.stack stack).refreshed ++
        (if s.drawOf (s.stack stack) channel % 2 ^ (s.stack stack).k = 0 then [(channel, row - 1), (channel, row + 1)]
          else []) ∧
      ∀ j, j ≠ stack → t.stack j = s.stack j := by
  have hok : (decide (stack < 8) && decide (channel < 32) && s.rows.contains (32 * stack + channel)) = true := by
    simp [hs, hc, hr]
  refine ⟨_, rfl, ?_⟩
  simp only [State.when, hok, if_true]
  refine ⟨⟨fun _ => rfl, fun _ _ => rfl⟩, ?_, rfl, ?_, fun j hj => stack_setStack_other _ hj⟩
  · rw [stack_setStack_same]
    split <;> rfl
  · rw [stack_setStack_same]
    split
    · rfl
    · simp

/-! ### Writes of control registers that a step of their own performs -/

/-- A core after requests have ended: its log holds landings, and its view and pins have lost copies. -/
def LandsOnly (c d : Core) : Prop :=
  d = { c with bplog := d.bplog, view := d.view, vtags := d.vtags, pins := d.pins } ∧ (c.bplog = [] → d.bplog = [])

theorem LandsOnly.refl (c : Core) : LandsOnly c c := ⟨rfl, id⟩

theorem LandsOnly.trans {c d e : Core} (h : LandsOnly c d) (g : LandsOnly d e) : LandsOnly c e :=
  ⟨by rw [g.1, h.1], g.2 ∘ h.2⟩

theorem LandsOnly.mapCore (s : State) (k : Nat) {f : Core → Core} (hf : ∀ c, LandsOnly c (f c)) (c : Nat) :
    LandsOnly (s.core c) ((s.mapCore k f).core c) := by
  rw [core_mapCore]
  split
  · next h => exact h ▸ hf _
  · exact .refl _

theorem deliver_cores (s : State) (r : Req) : (s.deliver r).cores = s.cores := by
  unfold State.deliver
  dsimp only
  split <;> rfl

theorem reqT_cores (s : State) (r : Req) (st v : Nat) : (s.reqT r st v).cores = s.cores := by
  unfold State.reqT
  split <;> rfl

theorem dropT_cores (s : State) (r : Req) : (s.dropT r).cores = s.cores := by
  unfold State.dropT
  split <;> rfl

theorem core_of_cores {s t : State} (h : t.cores = s.cores) (c : Nat) : t.core c = s.core c := by
  unfold State.core
  rw [h]

theorem sweep_lands (s : State) (core c : Nat) : LandsOnly (s.core c) ((s.sweep core).core c) := by
  unfold State.sweep
  split
  · exact .mapCore s core (by exact fun _ => ⟨rfl, id⟩) c
  · exact .refl _

theorem complete_lands (s : State) (r : Req) (c : Nat) : LandsOnly (s.core c) ((s.complete r).core c) := by
  have hlog : LandsOnly ((s.deliver r).core c) (((s.deliver r).logLanding r).core c) :=
    .mapCore _ _ (fun _ => ⟨rfl, fun h => by simp [h]⟩) c
  have hsweep := sweep_lands
    (((((s.deliver r).logLanding r).reqT r stDone (s.core r.agent.core).cyc).dropT r).dropReq r.id) r.agent.core c
  rw [core_of_cores (deliver_cores s r)] at hlog
  refine hlog.trans (.trans ?_ hsweep)
  rw [core_of_cores (t := State.dropReq _ _) ((dropT_cores ..).trans (reqT_cores ..))]
  exact .refl _

theorem complete_pwrites (s : State) (r : Req) : (s.complete r).pwrites = s.pwrites := by
  have hdeliver : (s.deliver r).pwrites = s.pwrites := by
    unfold State.deliver
    dsimp only
    split <;> rfl
  have hreqT : ∀ (u : State) st v, (u.reqT r st v).pwrites = u.pwrites := fun u st v => by
    unfold State.reqT
    split <;> rfl
  have hdropT : ∀ u : State, (u.dropT r).pwrites = u.pwrites := fun u => by
    unfold State.dropT
    split <;> rfl
  have hsweep : ∀ (u : State) c, (u.sweep c).pwrites = u.pwrites := fun u c => by
    unfold State.sweep
    split <;> rfl
  exact (hsweep _ _).trans ((hdropT _).trans ((hreqT _ _ _).trans hdeliver))

/-- A write that is done has left the list; no byte and no core's register has changed. -/
theorem pwriteDone_spec (s : State) (p : PWrite) :
    SameBytes s (s.pwriteDone p) ∧ (∀ c, LandsOnly (s.core c) ((s.pwriteDone p).core c)) ∧
      ∀ q ∈ (s.pwriteDone p).pwrites, q.id ≠ p.id := by
  refine ⟨(storeDone_settles _ p.id).1, fun c => ?_, fun q hq => ?_⟩
  · unfold State.pwriteDone State.storeDone
    dsimp only
    split
    · exact complete_lands _ _ c
    · exact .refl _
  · have hmem : q ∈ s.pwrites.filter fun q => q.id != p.id := by
      unfold State.pwriteDone State.storeDone at hq
      dsimp only at hq
      split at hq
      · rwa [complete_pwrites] at hq
      · exact hq
    simpa using (List.mem_filter.mp hmem).2

/-- The pending write of an id, where its register is one that the step takes. -/
theorem pwriteOf_eq {s : State} {pw : Nat} {p : PWrite} (h : s.pwrites.find? (fun q => decide (q.id = pw)) = some p)
    {ok : Nat → Bool} (hok : ok p.num = true) : s.pwriteOf pw ok = some p := by
  obtain ⟨hid, before, after, heq, hne⟩ := List.find?_eq_some_iff_append.mp h
  refine List.find?_eq_some_iff_append.mpr ⟨by simp [hid, hok], before, after, heq, fun q hq => ?_⟩
  have hq' : q.id ≠ pw := by simpa using hne q hq
  simp [hq']

theorem pwrite_id {s : State} {pw : Nat} {p : PWrite} (h : s.pwrites.find? (fun q => decide (q.id = pw)) = some p) :
    p.id = pw := by simpa using List.find?_some h

/-- A register of a core changes; its scratchpad does not. -/
theorem mapCore_bytes (s : State) (k : Nat) {f : Core → Core} (hf : ∀ c, (f c).spad = c.spad) :
    SameBytes s (s.mapCore k f) := by
  refine ⟨fun _ => rfl, fun c a => ?_⟩
  rw [core_mapCore]
  split
  · next h => rw [hf, h]
  · rfl

/-- A register of the write's core takes its value, and the write is done. -/
theorem writeRegister_spec (s : State) (p : PWrite) {f : Core → Core} (hf : ∀ c, (f c).spad = c.spad) :
    let t := (s.mapCore p.core f).pwriteDone p
    SameBytes s t ∧ LandsOnly (f (s.core p.core)) (t.core p.core) ∧ ∀ q ∈ t.pwrites, q.id ≠ p.id := by
  obtain ⟨hbytes, hcore, hgone⟩ := pwriteDone_spec (s.mapCore p.core f) p
  refine ⟨(mapCore_bytes s p.core hf).trans hbytes, ?_, hgone⟩
  simpa using hcore p.core

section
variable {s : State} {pw : Nat} {p : PWrite} (h : s.pwrites.find? (fun q => decide (q.id = pw)) = some p)
include h

theorem exec_bplogHeadWrite (hn : p.num = 0x021) :
    ∃ t, exec (.bplogHeadWrite pw) s = .next t ∧ SameBytes s t ∧ (t.core p.core).bphead = p.val ∧
      (t.core p.core).bplog = [] ∧ ∀ q ∈ t.pwrites, q.id ≠ pw := by
  refine ⟨_, rfl, ?_⟩
  rw [pwriteOf_eq h (by simp [hn])]
  obtain ⟨hbytes, ⟨hcore, hlog⟩, hgone⟩ :=
    writeRegister_spec s p (f := fun c => { c with bphead := p.val, bplog := [] }) fun _ => rfl
  exact ⟨hbytes, congrArg Core.bphead hcore, hlog rfl, pwrite_id h ▸ hgone⟩

theorem exec_errinjWrite (hn : p.num = 0x023) :
    ∃ t, exec (.errinjWrite pw) s = .next t ∧ SameBytes s t ∧
      (t.core p.core).errinj = (if bits p.val.toNat 0 16 = 0 then BitVec.ofNat 64 (p.val.toNat % 2 ^ 63) else p.val) ∧
      ∀ q ∈ t.pwrites, q.id ≠ pw := by
  refine ⟨_, rfl, ?_⟩
  rw [pwriteOf_eq h (by simp [hn])]
  obtain ⟨hbytes, ⟨hcore, -⟩, hgone⟩ := writeRegister_spec s p (f := fun c => { c with
    errinj := if bits p.val.toNat 0 16 = 0 then BitVec.ofNat 64 (p.val.toNat % 2 ^ 63) else p.val }) fun _ => rfl
  exact ⟨hbytes, congrArg Core.errinj hcore, pwrite_id h ▸ hgone⟩

end

/-- Settles O46: each step by the rule of its operation. -/
theorem retriesComplete : Obligations.RetriesComplete := by
  refine ⟨fun s id r h => ⟨fun p g wk hs hop hp hc => exec_staleRetranslate hp hc hop h hs, fun hb => ?_⟩,
    fun s stack channel row hs hc hr => exec_dramActivate row hs hc hr,
    fun s pw p h => ⟨exec_bplogHeadWrite h, exec_errinjWrite h⟩⟩
  exact ⟨exec_correctedErrorRetry h hb, exec_parityRefetch h hb, exec_linkretry h hb⟩

end Sys2Proof.Machine
end

section
/-!
Fault entries that are posted and resumed, and the steps of a GENBUMP (O47).
-/
namespace Sys2Proof.Machine
open Sys2Proof.Claims

/-! ### What leaves the entries and the tenants alone -/

/-- The entries that wait for their queues, and the tenants, are as before. -/
def SameFaults (s t : State) : Prop := t.faults = s.faults ∧ t.tenants = s.tenants

theorem SameFaults.refl (s : State) : SameFaults s s := ⟨rfl, rfl⟩

theorem SameFaults.trans {s t u : State} (h : SameFaults s t) (g : SameFaults t u) : SameFaults s u :=
  ⟨g.1.trans h.1, g.2.trans h.2⟩

theorem SameFaults.tenant {s t : State} (h : SameFaults s t) (k : Nat) : t.tenant k = s.tenant k := by
  unfold State.tenant
  rw [h.2]

theorem SameFaults.foldl {α : Type} {f : State → α → State} (hf : ∀ s x, SameFaults s (f s x)) (xs : List α)
    (s : State) : SameFaults s (xs.foldl f s) := by
  induction xs generalizing s with
  | nil => exact .refl s
  | cons x xs ih => exact (hf s x).trans (ih _)

theorem sameFaults_wr (s : State) (pa : Nat) (bs : List Byte) : SameFaults s (s.wr pa bs) := ⟨rfl, rfl⟩

theorem sameFaults_testWaiter (s : State) (id : Nat) : SameFaults s (s.testWaiter id) := by
  unfold State.testWaiter State.refresh
  (repeat' split) <;> exact .refl _

theorem sameFaults_wake (s : State) : SameFaults s s.wake :=
  .foldl (fun t (r : Req) => sameFaults_testWaiter t r.id) _ s

theorem sameFaults_endBroken (s : State) (r : Req) (cause : Nat) : SameFaults s (s.endBroken r cause) := by
  unfold State.endBroken State.breakPromise
  dsimp only
  (repeat' split) <;> exact .refl _

theorem sameFaults_closeLog (s : State) (r : Req) : SameFaults s (s.closeLog r) := by
  unfold State.closeLog
  split <;> exact .refl _

theorem sameFaults_reqT (s : State) (r : Req) (st v : Nat) : SameFaults s (s.reqT r st v) := by
  unfold State.reqT
  split <;> exact .refl _

theorem sameFaults_rewait (s : State) (r : Req) (fault : Bool) : SameFaults s (s.rewait r fault) := by
  unfold State.rewait
  split <;> exact .refl _

theorem sameFaults_faulted (s : State) (seq id : Nat) : SameFaults s (s.faulted seq id) := by
  unfold State.faulted
  split
  · exact .refl s
  · next r _ =>
    have hlog := (sameFaults_endBroken s r 3).trans (sameFaults_closeLog _ r)
    dsimp only
    split
    · exact hlog
    · exact hlog.trans (.trans (sameFaults_reqT (State.setReq _ _) ..) (sameFaults_rewait ..))

theorem sameFaults_markPosted (s : State) (e : FaultEntry) : SameFaults s (s.markPosted e) := by
  have hfold (ids : List Nat) (t : State) : SameFaults t (ids.foldl (fun s id => s.faulted e.seq id) t) :=
    .foldl (fun t id => sameFaults_faulted t e.seq id) ids t
  unfold State.markPosted
  split
  · exact hfold _ s
  · exact .refl s
  · exact hfold _ _
  all_goals exact .refl s

/-! ### Posting (R173, R174) -/

theorem interrupt_faults (s : State) (tenant v : Nat) : (s.interrupt tenant v).faults = s.faults := by
  unfold State.interrupt
  split <;> rfl

/-- An interrupt changes only what a tenant has sent and what pends. -/
theorem interrupt_tenant (s : State) (tenant v : Nat) : (s.interrupt tenant v).tenant tenant =
    { s.tenant tenant with
      pending := ((s.interrupt tenant v).tenant tenant).pending
      sent := ((s.interrupt tenant v).tenant tenant).sent } := by
  unfold State.interrupt
  split
  · rfl
  · rw [tenant_mapTenant_same]
    split <;> rfl

theorem wrote_wr {s t : State} {pa : Nat} {bs : List Byte} (h : t.mem = (s.wr pa bs).mem) :
    Wrote s t (local46 pa) bs := by
  rw [Wrote, h]
  exact ⟨mread_mwrite .., fun x hx => mget_mwrite_outside _ _ _ _ hx⟩

/-- The marks of a posted entry, and its interrupt, leave the rest of its tenant, and the entries that wait, alone. -/
theorem posted_keeps (s : State) (e : FaultEntry) (v : Nat) :
    let t := (s.markPosted e).interrupt e.tenant v
    t.faults = s.faults ∧ t.tenant e.tenant = { s.tenant e.tenant with
      pending := (t.tenant e.tenant).pending
      sent := (t.tenant e.tenant).sent } := by
  have hmark := sameFaults_markPosted s e
  refine ⟨(interrupt_faults ..).trans hmark.1, ?_⟩
  rw [← hmark.tenant e.tenant]
  exact interrupt_tenant ..

/-- An entry with its number is written to its slot, counted and marked. -/
def State.post (s : State) (idx : Nat) (e : FaultEntry) : State :=
  let u := (s.wr (s.tenantWord e.tenant 0 + 64 * (e.seq % 4096)) e.image).wake
  ((State.mapTenant { u with faults := u.faults.eraseIdx idx } e.tenant fun t =>
    { t with faultSeq := nextSeq e.seq, faults := put e.seq e t.faults, slots := t.slots ++ [e.seq] }).markPosted
      e).interrupt e.tenant 0

theorem post_spec (s : State) (idx : Nat) (e : FaultEntry) :
    Wrote s (s.post idx e) (local46 (s.tenantWord e.tenant 0 + 64 * (e.seq % 4096))) e.image ∧
    (s.post idx e).faults = s.faults.eraseIdx idx ∧ ((s.post idx e).tenant e.tenant).faultSeq = nextSeq e.seq ∧
    look e.seq ((s.post idx e).tenant e.tenant).faults = some e ∧
    ((s.post idx e).tenant e.tenant).slots = (s.tenant e.tenant).slots ++ [e.seq] := by
  refine ⟨wrote_wr (by simp [State.post]), ?_⟩
  have hkept : SameFaults s (s.wr (s.tenantWord e.tenant 0 + 64 * (e.seq % 4096)) e.image).wake :=
    (sameFaults_wr ..).trans (sameFaults_wake _)
  unfold State.post
  generalize State.wake _ = u at hkept ⊢
  dsimp only
  generalize hs3 : State.mapTenant _ e.tenant _ = s3
  obtain ⟨hfaults, htenant⟩ := posted_keeps s3 e 0
  have hposted : s3.tenant e.tenant = { u.tenant e.tenant with
      faultSeq := nextSeq e.seq
      faults := put e.seq e (u.tenant e.tenant).faults
      slots := (u.tenant e.tenant).slots ++ [e.seq] } := by
    rw [← hs3, tenant_mapTenant_same]
    rfl
  rw [hposted, hkept.tenant] at htenant
  refine ⟨hfaults.trans ?_, congrArg Tenant.faultSeq htenant,
    (congrArg (fun t => look e.seq t.faults) htenant).trans (look_put_same ..), congrArg Tenant.slots htenant⟩
  rw [← hs3]
  exact congrArg (·.eraseIdx idx) hkept.1

theorem exec_faultPost {s : State} {idx : Nat} {e : FaultEntry} (h : s.faults[idx]? = some e)
    (hp : s.mayPost idx e = true) :
    exec (.faultPost idx) s = .next (s.post idx { e with seq := (s.tenant e.tenant).faultSeq }) := by
  simp only [exec, execFaultPost, h, hp, Bool.not_true, Bool.false_eq_true, if_false, State.post]

/-! ### Resuming (R175) -/

/-- The lanes that stand at the entry go on. -/
theorem exec_faultResume {s : State} {tenant seq core slot : Nat} {rest : List Nat} {e : FaultEntry} {mask : LaneMask}
    (hq : (s.tenant tenant).fresumes = seq :: rest) (he : look seq (s.tenant tenant).faults = some e)
    (hr : e.resume = .lanes core slot mask) (hlife : (s.team e.team).life ≠ .saved) :
    ∃ t, exec (.faultResume tenant) s = .next t ∧ SameBytes s t ∧ (t.tenant tenant).fresumes = rest ∧
      look seq (t.tenant tenant).faults = none ∧
      ∀ l, (t.weft (64 * core + slot)).lane l =
        (let x := (s.weft (64 * core + slot)).lane l
         if l ∈ lanesOf mask ∧ x.wait = .park none then { x with
           wait := .none
           age := 0 } else x) := by
  refine ⟨_, rfl, ?_⟩
  simp only [hq, he, hlife, decide_false, Bool.and_false, Bool.false_eq_true, if_false, State.resumeEntry, hr]
  refine ⟨⟨fun _ => rfl, fun _ _ => rfl⟩, by simp, by simp, fun l => ?_⟩
  rw [weft_mapWeft_same, lane_eachLane (lanesOf_nodup _)]
  by_cases hl : l ∈ lanesOf mask <;> by_cases hw : ((s.weft (64 * core + slot)).lane l).wait = .park none <;>
    simp [hl, hw]

/-! ### GENBUMP (R37, R52) -/

/-- The bump of an ASID, after one of its steps. -/
theorem find_mapBump {s : State} {asid : Nat} {b : Bump} (h : s.bumps.find? (fun b => decide (b.asid = asid)) = some b)
    {f : Bump → Bump} (hf : ∀ b, (f b).asid = b.asid) :
    (s.mapBump asid f).bumps.find? (fun b => decide (b.asid = asid)) = some (f b) := by
  have hid : b.asid = asid := by simpa using List.find?_some h
  have hpred : ((fun b : Bump => decide (b.asid = asid)) ∘ fun b => if b.asid = asid then f b else b) =
      fun b => decide (b.asid = asid) := by
    funext b
    simp only [Function.comp]
    split <;> simp [*]
  simp only [State.mapBump, List.find?_map, hpred, h, Option.map_some, hid, if_true]

theorem ageOut_tlb (c : Core) (asid gen : Nat) : ∀ e ∈ (c.ageOut asid gen).tlb, ¬(e.asid = asid ∧ e.gen = gen) := by
  intro e he ⟨ha, hg⟩
  simpa [ha, hg] using (List.mem_filter.mp he).2

/-- What a Drop of an ASID leaves of its copies is dirty. -/
theorem dropClean_dirty (c : Core) (asid : Nat) :
    ∀ e ∈ (c.dropClean fun _ b => b.asid = asid).view, e.2.asid = asid → e.2.dirty = true := by
  intro e he ha
  simpa [ha] using (List.mem_filter.mp he).2

section
variable {s : State} {asid place : Nat} {b : Bump} (h : s.bumps.find? (fun b => decide (b.asid = asid)) = some b)
include h

theorem exec_genbumpHomeUpdate (hu : place ∉ b.updated) (hp : place < bumpPlaces) :
    ∃ t, exec (.genbumpHomeUpdate asid place) s = .next t ∧ SameBytes s t ∧
      t.bumps.find? (fun b => decide (b.asid = asid)) = some { b with updated := b.updated ++ [place] } ∧
      (Config.homes ≤ place → ∀ e ∈ (t.core (place - Config.homes)).tlb, ¬(e.asid = asid ∧ e.gen = b.old)) := by
  have hfind := find_mapBump h (f := fun b => { b with updated := b.updated ++ [place] }) fun _ => rfl
  refine ⟨_, rfl, ?_⟩
  simp only [h]
  rw [if_neg (by simp [hu, hp])]
  split
  · next hlt => exact ⟨⟨fun _ => rfl, fun _ _ => rfl⟩, hfind, fun hle => absurd hlt (Nat.not_lt.mpr hle)⟩
  · refine ⟨mapCore_bytes (s.mapBump asid _) _ fun _ => rfl, hfind, fun _ => ?_⟩
    rw [core_mapCore_same]
    exact ageOut_tlb _ _ _

theorem exec_genbumpAck (hu : place ∈ b.updated) (ha : place ∉ b.acked) (hm : s.mayAck asid b.old place = true) :
    ∃ t, exec (.genbumpAck asid place) s = .next t ∧ SameBytes s t ∧
      t.bumps.find? (fun b => decide (b.asid = asid)) = some { b with acked := b.acked ++ [place] } ∧
      (Config.homes ≤ place → ∀ e ∈ (t.core (place - Config.homes)).view, e.2.asid = asid → e.2.dirty = true) := by
  have hfind := find_mapBump h (f := fun b => { b with acked := b.acked ++ [place] }) fun _ => rfl
  refine ⟨_, rfl, ?_⟩
  simp only [h]
  rw [if_neg (by simp [hu, ha, hm])]
  split
  · next hlt => exact ⟨⟨fun _ => rfl, fun _ _ => rfl⟩, hfind, fun hle => absurd hlt (Nat.not_lt.mpr hle)⟩
  · refine ⟨mapCore_bytes (s.mapBump asid _) _ fun _ => rfl, hfind, fun _ => ?_⟩
    rw [core_mapCore_same]
    exact dropClean_dirty _ _

end

/-- A pass over a table's entries that keeps their keys. -/
theorem lookD_map {α β : Type} {f : Nat × α → Nat × β} {g : α → β} (hf : ∀ e, f e = (e.1, g e.2)) {d : α} {d' : β}
    (hd : g d = d') (k : Nat) (t : Tab α) : lookD k d' (t.map f) = g (lookD k d t) := by
  induction t with
  | nil => exact hd.symm
  | cons e t ih =>
    simp only [lookD, List.map_cons, hf, look] at ih ⊢
    split
    · rfl
    · exact ih

/-- A weft that a GENBUMP of the ASID holds goes on with the new value. -/
def Weft.bumped (asid gen : Nat) (w : Weft) : Weft :=
  match w.hold with
  | .genbump a dst =>
    if a = asid then
      { (match dst with | some n => w.writeS n (BitVec.ofNat 64 gen) | none => w) with hold := .none }
    else w
  | _ => w

theorem bumped_hold {w : Weft} {asid n : Nat} (h : w.hold = .genbump asid (some n)) (gen : Nat) :
    (w.bumped asid gen).hold = .none := by
  simp [Weft.bumped, h]

theorem bumped_sreg {w : Weft} {asid n : Nat} (h : w.hold = .genbump asid (some n)) (gen : Nat) :
    (w.bumped asid gen).sreg n = BitVec.ofNat 64 gen := by
  simp [Weft.bumped, h, Weft.sreg, Weft.writeS, Weft.setS]

/-- It completes when every place has acknowledged it. -/
theorem exec_genbumpComplete {s : State} {asid : Nat} {b : Bump}
    (h : s.bumps.find? (fun b => decide (b.asid = asid)) = some b)
    (ha : ∀ place, place < bumpPlaces → place ∈ b.acked) :
    ∃ t, exec (.genbumpComplete asid) s = .next t ∧ SameBytes s t ∧ (∀ b ∈ t.bumps, b.asid ≠ asid) ∧
      ∀ k (n : Nat), (s.weft k).hold = .genbump asid (some n) →
        (t.weft k).hold = .none ∧ (t.weft k).sreg n = BitVec.ofNat 64 ((b.old + 1) % 2 ^ 16) := by
  have hall : ((List.range bumpPlaces).all fun p => b.acked.contains p) = true := by
    simpa using ha
  refine ⟨_, rfl, ?_⟩
  simp only [h, hall, Bool.not_true, Bool.false_eq_true, if_false]
  refine ⟨⟨fun _ => rfl, fun _ _ => rfl⟩, fun b hb => by simpa using (List.mem_filter.mp hb).2, fun k n hk => ?_⟩
  have hweft : ∀ f : Nat × Weft → Nat × Weft, (∀ e, f e = (e.1, e.2.bumped asid ((b.old + 1) % 2 ^ 16))) →
      lookD k {} (s.wefts.map f) = (s.weft k).bumped asid ((b.old + 1) % 2 ^ 16) :=
    fun f hf => lookD_map hf (d := {}) rfl k s.wefts
  unfold State.weft at hk ⊢
  rw [hweft]
  · exact ⟨bumped_hold hk _, bumped_sreg hk _⟩
  · intro e
    cases he : e.2.hold with
    | genbump a dst => cases dst <;> by_cases ha : a = asid <;> simp [Weft.bumped, he, ha]
    | _ => simp [Weft.bumped, he]

/-- Settles O47: each step by the rule of its operation. -/
theorem faultsComplete : Obligations.FaultsComplete :=
  fun _ => ⟨fun _ _ h hp => ⟨_, exec_faultPost h hp, post_spec ..⟩, fun _ _ _ _ _ _ _ => exec_faultResume, fun _ _ h =>
    ⟨fun _ => exec_genbumpHomeUpdate h, fun _ => exec_genbumpAck h, exec_genbumpComplete h⟩⟩

end Sys2Proof.Machine
end

section
/-!
Accesses of the host and of peers (O48). Every clause but the first holds as it stands. The first holds for each line
that PA[45:0] names; the bytes of a line past those are written at PA[45:0] of its address, outside the line, where the
model's free choice is that the host has written them. O48 therefore comes to that choice (hostAccessesComplete_iff).
-/
namespace Sys2Proof.Machine
open Sys2Proof.Claims

/-! ### Bytes -/

theorem CachesOnly.bytes {s t : State} (h : CachesOnly s t) : SameBytes s t := by
  unfold CachesOnly at h
  rw [h]
  exact ⟨fun _ => rfl, fun _ _ => rfl⟩

theorem caches_reached (s : State) (asid pa n : Nat) (o : PageKind) : CachesOnly s (s.reached asid (.mem pa o) n) := by
  cases o with
  | so => exact caches_mscRange ..
  | rc => exact caches_fetchLines ..
  | uo => exact caches_fetchLines ..

/-- Bytes put at memory, whatever else has changed since. -/
theorem wrote_homePut {s t : State} {asid pa : Nat} {o : PageKind} {bs : List Byte}
    (h : t.mem = (s.homePut asid (.mem pa o) bs).mem) : Wrote s t (local46 pa) bs :=
  wrote_wr (h.trans (by rw [show s.homePut asid (.mem pa o) bs = _ from homePut_mem s asid pa o bs]; rfl))

/-! ### A line that the host takes (R11, R69) -/

/-- Lines of L2 have left or changed, none has come, and memory has changed in the line b alone. -/
def EvictsAt (b : Nat) (s t : State) : Prop :=
  t.wefts = s.wefts ∧ (∀ y ∈ t.l2, ∃ x ∈ s.l2, x.slice = y.slice ∧ x.line = y.line) ∧
    ∀ a, a < b ∨ b + 128 ≤ a → mget t.mem a = mget s.mem a

theorem EvictsAt.refl (b : Nat) (s : State) : EvictsAt b s s := ⟨rfl, fun y hy => ⟨y, hy, rfl, rfl⟩, fun _ _ => rfl⟩

theorem EvictsAt.trans {b : Nat} {s t u : State} (h : EvictsAt b s t) (g : EvictsAt b t u) : EvictsAt b s u := by
  refine ⟨g.1.trans h.1, fun z hz => ?_, fun a ha => (g.2.2 a ha).trans (h.2.2 a ha)⟩
  obtain ⟨y, hy, hs, hl⟩ := g.2.1 z hz
  obtain ⟨x, hx, hs', hl'⟩ := h.2.1 y hy
  exact ⟨x, hx, hs'.trans hs, hl'.trans hl⟩

/-- A pass over L2 that keeps each line's place. -/
theorem evictsAt_map (b : Nat) {s t : State} {f : L2Line → L2Line}
    (hf : ∀ x, (f x).slice = x.slice ∧ (f x).line = x.line) (hl2 : t.l2 = s.l2.map f) (hw : t.wefts = s.wefts)
    (hm : ∀ a, a < b ∨ b + 128 ≤ a → mget t.mem a = mget s.mem a) : EvictsAt b s t := by
  refine ⟨hw, fun y hy => ?_, hm⟩
  rw [hl2] at hy
  obtain ⟨x, hx, rfl⟩ := List.mem_map.mp hy
  exact ⟨x, hx, (hf x).1.symm, (hf x).2.symm⟩

theorem evictsAt_memorySet (s : State) (x : L2Line) {a b : Nat} (hb : b ≤ a) (ha : a < b + 128) :
    EvictsAt b s (s.memorySet x a) := by
  unfold State.memorySet
  dsimp only
  split
  · refine evictsAt_map b ?_ rfl rfl fun _ _ => rfl
    intro y
    split <;> exact ⟨rfl, rfl⟩
  · split
    · refine evictsAt_map b ?_ rfl rfl fun c hc => mget_mset_other (by omega) _ _
      intro y
      split <;> exact ⟨rfl, rfl⟩
    · exact .refl b s

theorem mscTrim_l2 (s : State) (b n : Nat) : (s.mscTrim b n).l2 = s.l2 := by
  induction n generalizing s with
  | zero => rfl
  | succ n ih =>
    simp only [State.mscTrim]
    split
    · rfl
    · split
      · rw [ih]
        unfold State.openRow
        split
        · split <;> rfl
        · rfl
      · rfl

theorem mscUse_l2 (s : State) (pa : Nat) (w : Bool) : (s.mscUse pa w).l2 = s.l2 := by
  unfold State.mscUse
  dsimp only
  split
  · rfl
  · split
    · rfl
    · rw [mscTrim_l2]
      unfold State.openRow
      split
      · rfl
      · split <;> rfl

theorem mscUse_wefts (s : State) (pa : Nat) (w : Bool) : (s.mscUse pa w).wefts = s.wefts := by
  rw [show s.mscUse pa w = _ from caches_mscUse s pa w]

/-- A line that is written back and leaves. -/
theorem l2Evict_spec (s : State) {x : L2Line} {b : Nat} (hx : ∀ e ∈ x.under, b ≤ e.1 ∧ e.1 < b + 128) :
    EvictsAt b s (s.l2Evict x) ∧ ∀ y ∈ (s.l2Evict x).l2, ¬(y.slice = x.slice ∧ y.line = x.line) := by
  have hback : EvictsAt b s (x.under.foldl (fun s e => s.memorySet x e.1) s) := by
    generalize x.under = es at hx
    induction es generalizing s with
    | nil => exact .refl b s
    | cons e es ih =>
      obtain ⟨hlo, hhi⟩ := hx e List.mem_cons_self
      exact (evictsAt_memorySet s x hlo hhi).trans (ih _ fun e he => hx e (List.mem_cons_of_mem _ he))
  have hl2 : (s.l2Evict x).l2 = (x.under.foldl (fun s e => s.memorySet x e.1) s).l2.filter fun y =>
      !(y.slice = x.slice && y.line = x.line) := by
    unfold State.l2Evict
    dsimp only
    split <;> simp only [mscUse_l2]
  have hw : (s.l2Evict x).wefts = (x.under.foldl (fun s e => s.memorySet x e.1) s).wefts := by
    unfold State.l2Evict
    dsimp only
    split <;> simp only [mscUse_wefts]
  have hm : (s.l2Evict x).mem = (x.under.foldl (fun s e => s.memorySet x e.1) s).mem := by
    unfold State.l2Evict
    dsimp only
    split <;> simp only [mscUse_mem]
  refine ⟨hback.trans ⟨hw, fun y hy => ⟨y, ?_, rfl, rfl⟩, fun a _ => by rw [hm]⟩, ?_⟩
  · rw [hl2] at hy
    exact (List.mem_filter.mp hy).1
  · rintro y hy ⟨hs, hl⟩
    simp [hl2, hs, hl] at hy

/-- The lines xs are written back and leave. -/
theorem evictAll_spec {b : Nat} {xs : List L2Line} (hx : ∀ x ∈ xs, ∀ e ∈ x.under, b ≤ e.1 ∧ e.1 < b + 128) (s : State) :
    EvictsAt b s (xs.foldl (fun s x => s.l2Evict x) s) ∧
      ∀ x ∈ xs, ∀ y ∈ (xs.foldl (fun s x => s.l2Evict x) s).l2, ¬(y.slice = x.slice ∧ y.line = x.line) := by
  induction xs generalizing s with
  | nil => exact ⟨.refl b s, by simp⟩
  | cons x xs ih =>
    obtain ⟨hone, hgone⟩ := l2Evict_spec s (hx x List.mem_cons_self)
    obtain ⟨hrest, hgones⟩ := ih (fun z hz => hx z (List.mem_cons_of_mem _ hz)) (s.l2Evict x)
    refine ⟨hone.trans hrest, fun z hz y hy => ?_⟩
    rcases List.mem_cons.mp hz with rfl | hz
    · obtain ⟨w, hw, hs, hl⟩ := hrest.2.1 y hy
      rw [← hs, ← hl]
      exact hgone w hw
    · exact hgones z hz y hy

theorem wake_l2 (s : State) : s.wake.l2 = s.l2 :=
  List.foldlRecOn (motive := fun t : State => t.l2 = s.l2) _ _ rfl fun t ht r _ => by
    unfold State.testWaiter State.refresh
    (repeat' split) <;> exact ht

/-- The host takes the line, and may have written it: where it has, the line is one that PA[45:0] names. -/
theorem exec_hostSnoop {s : State} {line : Nat} (hhost : isHost (align line 128) = true)
    (hl2 : ∀ x ∈ s.l2, x.line = align line 128 → s.l2Held x = false ∧
      ∀ e ∈ x.under, align line 128 ≤ e.1 ∧ e.1 < align line 128 + 128)
    (hwide : s.anyBool 0 = true → align line 128 < 2 ^ 46) :
    ∃ t, exec (.hostSnoop line) s = .next t ∧ (∀ x ∈ t.l2, x.line ≠ align line 128) ∧ t.wefts = s.wefts ∧
      ∀ a, a < align line 128 ∨ align line 128 + 128 ≤ a → mget t.mem a = mget s.mem a := by
  have hfree : ((s.l2.filter fun x => x.line = align line 128).any s.l2Held) = false := by
    simp only [List.any_eq_false, List.mem_filter, decide_eq_true_eq, and_imp, Bool.not_eq_true]
    exact fun x hx hline => (hl2 x hx hline).1
  obtain ⟨⟨hwefts, hcame, hmem⟩, hgone⟩ := evictAll_spec (b := align line 128)
    (xs := s.l2.filter fun x => x.line = align line 128)
    (fun x hx => (hl2 x (List.mem_filter.mp hx).1 (by simpa using (List.mem_filter.mp hx).2)).2) s
  refine ⟨_, rfl, ?_⟩
  simp only [State.when, hhost, hfree, Bool.not_false, Bool.and_self, if_true]
  generalize List.foldl _ s _ = u at *
  have hnone : ∀ y ∈ u.l2, y.line ≠ align line 128 := fun y hy hline => by
    obtain ⟨x, hx, hs, hl⟩ := hcame y hy
    exact hgone x (List.mem_filter.mpr ⟨hx, by simp [hl, hline]⟩) y hy ⟨hs.symm, hl.symm⟩
  split
  · next hwrites =>
    refine ⟨fun y hy => hnone y (wake_l2 (u.wr _ _) ▸ hy), (wake_only _).1.trans hwefts, fun a ha => ?_⟩
    have hlocal : local46 (align line 128) = align line 128 := Nat.mod_eq_of_lt (hwide hwrites)
    rw [wake_mem, ← hmem a ha]
    exact mget_mwrite_outside _ _ _ _ (by simpa [hlocal] using ha)
  · exact ⟨hnone, hwefts, hmem⟩

/-! ### The ranges of a tenant, doorbells and vectors (R357, R358) -/

section
variable {s : State} {tenant : Nat} (ht : tenant < 16) (hs : 3 ≤ s.hub.stage)
include ht hs

theorem exec_hostMemWrite {off pa : Nat} {bs : List Byte} (hn : bs.length ≤ 64)
    (hpa : s.hdm tenant off bs.length = .mem pa) :
    ∃ t, exec (.hostMemWrite tenant off bs) s = .next t ∧ Wrote s t (local46 pa) bs ∧ t.wefts = s.wefts := by
  refine ⟨_, rfl, ?_⟩
  simp only [State.when, ht, hs, hn, hpa, decide_true, Bool.and_self, if_true]
  refine ⟨wrote_homePut (asid := s.hostSpace tenant) (o := .rc) (by simp [State.hostPut]),
    (wake_only _).1.trans ((clearPoison_only _ _ _).1.trans ?_)⟩
  rw [show s.homePut _ _ bs = _ from homePut_mem s (s.hostSpace tenant) pa .rc bs]

theorem exec_hostMemRead {off pa len : Nat} (hn : len ≤ 64) (hpa : s.hdm tenant off len = .mem pa) :
    ∃ t, exec (.hostMemRead tenant off len) s = .next t ∧ SameBytes s t ∧
      (t.tenant tenant).hostData = s.homeGets (s.hostSpace tenant) pa len := by
  refine ⟨_, rfl, ?_⟩
  simp only [State.when, ht, hs, hn, hpa, decide_true, Bool.and_self, if_true]
  exact ⟨(caches_reached s _ pa len .rc).bytes, by simp⟩

theorem exec_hostRingDoorbell {core ring lenm1 : Nat} (hc : core < Config.cores) (hr : ring < 16) (hl : lenm1 < 512) :
    ∃ t, exec (.hostRingDoorbell tenant core ring lenm1) s = .next t ∧ SameBytes s t ∧
      t.ring core ring = { s.ring core ring with port := (s.ring core ring).port ++
        [⟨.host tenant, tenant, 0, 0, 0, lenm1 + 1,
          mread (s.tenant tenant).ports (4096 * (16 * core + ring)) (lenm1 + 1), [], false, 0⟩] } := by
  refine ⟨_, rfl, ?_⟩
  simp only [State.when, ht, hs, hc, hr, hl, decide_true, Bool.and_self, if_true]
  exact ⟨(settles_setRing (s.mapTenant tenant _) core ring _).1, ring_setRing_same ..⟩

omit hs in
theorem exec_vectorUnmask {vec : Nat} (hv : vec < 5) :
    ∃ t, exec (.vectorUnmask tenant vec) s = .next t ∧ SameBytes s t ∧
    (t.tenant tenant).masked.getLsbD vec = false ∧
    lookD vec 0 (t.tenant tenant).sent =
      lookD vec 0 (s.tenant tenant).sent + if (s.tenant tenant).pending.getLsbD vec = true then 1 else 0 := by
  refine ⟨_, rfl, ?_⟩
  simp only [State.when, ht, hv, decide_true, Bool.and_self, if_true]
  refine ⟨⟨fun _ => rfl, fun _ _ => rfl⟩, ?_⟩
  rw [tenant_mapTenant_same]
  split <;> simp [setBit_get _ vec vec false hv]

end

/-! ### Peers (R19, R69, R129) -/

/-- A peer's request for memory: its grant's MEM bit, and a populated range. -/
theorem peerMay_memory {op : PeerOp} {pa n : Nat} (h : peerMemory op = some (pa, n)) (s : State)
    (dev tenant lten : Nat) :
    s.peerMay ⟨dev, tenant, op⟩ lten = (s.granted dev tenant 1 && s.populated 1 (local46 pa) n) := by
  unfold State.peerMay
  rw [h]

/-- The agent of a peer's tenant: its local tenant and partition, by the grant (R352). -/
def State.peerAgent (s : State) (dev tenant : Nat) : Agent :=
  { (default : Agent) with
    tenant := bits (s.grant dev tenant).toNat 4 4
    asid := partSpace (bits (s.grant dev tenant).toNat 8 4) }

/-- A peer's request for memory that is granted is performed, and its answer is what the operation reads. -/
theorem exec_peerRequest {s : State} {dev tenant pa n : Nat} {op : PeerOp} (hm : peerMemory op = some (pa, n))
    (hw : s.peerWaits op = false) (hg : s.granted dev tenant 1 = true) (hp : s.populated 1 (local46 pa) n = true) :
    let a := s.peerPerform dev tenant (s.peerAgent dev tenant) op
    exec (.peerRequestArrival ⟨dev, tenant, op⟩) s = .next { a.2 with hub := { a.2.hub with peerData := a.1 } } := by
  have hring : ∀ core ring body, op ≠ .ringPut core ring body := fun _ _ _ h => by simp [h, peerMemory] at hm
  simp only [exec, execPeerRequestArrival, peerMay_memory hm, hg, hp, Bool.and_self, if_true, hw, Bool.not_false,
    State.when]
  rfl

/-- One that is not granted is refused, with a record. -/
theorem exec_peerRefused {s : State} {dev tenant pa n : Nat} {op : PeerOp} (hm : peerMemory op = some (pa, n))
    (hg : s.granted dev tenant 1 = false) :
    ∃ t, exec (.peerRequestArrival ⟨dev, tenant, op⟩) s = .next t ∧ t.hub.peerData = [] ∧
      t.errSeq = (s.errSeq + 1) % 2 ^ 64 := by
  refine ⟨_, rfl, ?_⟩
  simp only [peerMay_memory hm, hg, Bool.false_and, Bool.false_eq_true, if_false]
  exact ⟨rfl, errorRecord_errSeq s 4 0xFF 8 0xFFFF _ _ _⟩

section
variable {s : State} {dev tenant pa : Nat} (hg : s.granted dev tenant 1 = true)
include hg

theorem exec_peerRead {len : Nat} (so : Bool) (hp : s.populated 1 (local46 pa) len = true)
    (hok : s.poisonOf (.mem pa .rc) len = none) :
    ∃ t, exec (.peerRequestArrival ⟨dev, tenant, .memRead pa len so⟩) s = .next t ∧ SameBytes s t ∧
      t.hub.peerData = if so then s.sideGets (local46 pa) len
        else s.homeGets (partSpace (bits (s.grant dev tenant).toNat 8 4)) (local46 pa) len := by
  refine ⟨_, exec_peerRequest rfl rfl hg hp, ?_⟩
  have hok' : ∀ o, s.poisonOf (.mem pa o) len = none := fun _ => hok
  cases so with
  | false =>
    exact ⟨(caches_reached s _ pa len .rc).bytes, by simp [State.peerPerform, hok', State.homeRead, State.peerAgent]⟩
  | true => exact ⟨(caches_reached s _ pa len .so).bytes, by simp [State.peerPerform, hok', State.homeRead]⟩

theorem exec_peerWrite {bs : List Byte} (so : Bool) (hp : s.populated 1 (local46 pa) bs.length = true) :
    ∃ t, exec (.peerRequestArrival ⟨dev, tenant, .memWrite pa bs so⟩) s = .next t ∧ Wrote s t (local46 pa) bs := by
  refine ⟨_, exec_peerRequest rfl rfl hg hp, ?_⟩
  have hmem (o : PageKind) : let u := s.homePut (s.peerAgent dev tenant).asid (.mem pa o) bs
      ((u.clearPoison (.mem pa o) bs.length).wake).mem = u.mem := by simp
  cases so <;> exact wrote_homePut (hmem _)

theorem exec_peerAtom {f ty n x : Nat} (hp : s.populated 1 (local46 pa) n = true)
    (hok : s.poisonOf (.mem pa .rc) n = none) :
    let old := s.homeGets (partSpace (bits (s.grant dev tenant).toNat 8 4)) (local46 pa) n
    ∃ t, exec (.peerRequestArrival ⟨dev, tenant, .memAtom pa f ty n x false⟩) s = .next t ∧ t.hub.peerData = old ∧
      Wrote s t (local46 pa) (leBytes n (atomNew f ty (8 * n) (leNat old) (x % 2 ^ (8 * n)))) := by
  refine ⟨_, exec_peerRequest rfl rfl hg hp, ?_⟩
  simp only [State.peerPerform, State.peerModify, Bool.false_eq_true, if_false, hok, Option.isSome_none, State.homeRead]
  exact ⟨rfl, wrote_homePut (wake_mem _)⟩

theorem exec_peerTagRead (hp : s.populated 1 (local46 pa) 64 = true) :
    ∃ t, exec (.peerRequestArrival ⟨dev, tenant, .tagRead pa⟩) s = .next t ∧ SameBytes s t ∧
      t.hub.peerData = leBytes 2 (s.tagOf (.mem pa .rc)).toNat :=
  ⟨_, exec_peerRequest rfl rfl hg hp, ⟨fun _ => rfl, fun _ _ => rfl⟩, rfl⟩

end

/-! ### A peer that is lost (R11) -/

theorem endError_hub (s : State) (r : Req) (seq : Nat) : (s.endError r seq).hub = s.hub := by
  have hbroken : (s.endBroken r 6).hub = s.hub := by
    unfold State.endBroken State.breakPromise
    dsimp only
    (repeat' split) <;> rfl
  have hreqT : ∀ (u : State) st v, (u.reqT r st v).hub = u.hub := fun u st v => by
    unfold State.reqT
    split <;> rfl
  have hdropT : ∀ u : State, (u.dropT r).hub = u.hub := fun u => by
    unfold State.dropT
    split <;> rfl
  have hsweep : ∀ (u : State) c, (u.sweep c).hub = u.hub := fun u c => by
    unfold State.sweep
    split <;> rfl
  refine (hsweep _ _).trans ((hdropT _).trans ((hreqT _ _ _).trans (.trans ?_ hbroken)))
  split <;> rfl

theorem peerError_lost (s : State) (r : Req) (addr : Nat) : (s.peerError r addr).hub.lost = s.hub.lost := by
  unfold State.peerError
  generalize s.cutOff _ = cut
  split
  · rw [endError_hub]
    simp [State.errorRecord, interrupt_hub, State.wr]
  · rw [endError_hub]

theorem exec_peerUnreachable (s : State) (dev : Nat) :
    ∃ t, exec (.peerUnreachable dev) s = .next t ∧ dev ∈ t.hub.lost := by
  refine ⟨_, rfl, List.foldlRecOn (motive := fun t : State => dev ∈ t.hub.lost) _ _ ?_ fun t ht r _ => ?_⟩
  · dsimp only
    split
    · next h => simpa using h
    · exact List.mem_cons_self
  · split
    · rwa [peerError_lost]
    · exact ht

/-! ### What O48 comes to -/

/-- What the host has written reaches memory, where L2 is empty and the free choice is that it has. -/
theorem exec_hostSnoop_written {s : State} {line : Nat} (hl2 : s.l2 = []) (hhost : isHost (align line 128) = true)
    (h : s.anyBool 0 = true) : exec (.hostSnoop line) s =
      .next (s.wr (align line 128) ((List.range 128).map fun i => s.anyBits 8 (8 * i + 1))).wake := by
  simp [exec, execHostSnoop, State.when, hl2, hhost, h]

/-- A device with nothing in L2, and with a byte other than v at the first address of host memory. -/
def State.unlike (n : Nat) (v : Byte) : State := { State.reset with fresh := n, mem := mset [] (2 ^ 45) (v + 1) }

/-- A free choice by which the host has written the line that it takes refutes the first clause: the line lies past
PA[45:0], and the bytes are written at PA[45:0] of its address. -/
theorem hostSnoop_wide {s : State} (h : s.anyBool 0 = true) : ¬ Obligations.HostAccessesComplete := by
  intro hall
  have hu : (State.unlike s.fresh (s.anyBits 8 1)).anyBool 0 = true := h
  obtain ⟨hsnoop, -⟩ := hall (.unlike s.fresh (s.anyBits 8 1))
  obtain ⟨t, hrun, -, -, hmem⟩ := hsnoop (2 ^ 46 + 2 ^ 45) (by decide) (fun x hx => by cases hx)
  rw [exec_hostSnoop_written rfl (by decide) hu] at hrun
  have hwritten : mget t.mem (2 ^ 45) = s.anyBits 8 1 := by
    rw [← Host.Outcome.next.inj hrun, wake_mem]
    exact mget_mwrite_inside _ (2 ^ 45) ((List.range 128).map fun i => s.anyBits 8 (8 * i + 1)) 0 (by simp)
  have hkept : mget t.mem (2 ^ 45) = s.anyBits 8 1 + 1 := (hmem (2 ^ 45) (by decide)).trans (mget_mset_same ..)
  rw [hwritten] at hkept
  bv_omega

/-- What O48 comes to: a free choice of the model (assumption 4), whose value is opaque to every proof. -/
theorem hostAccessesComplete_iff : Obligations.HostAccessesComplete ↔ ∀ s : State, s.anyBool 0 = false := by
  refine ⟨fun h s => Bool.eq_false_iff.mpr fun hs => hostSnoop_wide hs h,
    fun hfree s => ⟨fun line hhost hl2 => ?_, ?_, ?_, ?_⟩⟩
  · exact exec_hostSnoop hhost hl2 fun h => absurd h (by simp [hfree s])
  · exact fun tenant ht hs => ⟨fun _ _ _ => exec_hostMemWrite ht hs, fun _ _ _ => exec_hostMemRead ht hs,
      fun _ _ _ => exec_hostRingDoorbell ht hs, fun _ => exec_vectorUnmask ht⟩
  · exact fun dev tenant pa => ⟨fun hg => ⟨fun _ so => exec_peerRead hg so, fun _ so => exec_peerWrite hg so,
      fun _ _ _ _ => exec_peerAtom hg, exec_peerTagRead hg⟩, fun hg _ _ => exec_peerRefused rfl hg⟩
  · exact exec_peerUnreachable s

end Sys2Proof.Machine
end

section
/-!
Accesses that enter the machine as requests (O24).
-/
namespace Sys2Proof.Machine
open Sys2Proof.Claims

/-- Each word of the table issues the requests that it asks. -/
theorem asking_issues {p : (MemW → Instr) × (MemW → State → Asking)} (hp : p ∈ askings) :
    ∃ merge, ∀ w s, let a := p.2 w s
      exec (p.1 w) s = .next (s.issueReqs w a.op a.al a.n a.size a.acc a.uniform merge a.xs) := by
  simp only [askings, List.mem_cons, List.not_mem_nil, or_false] at hp
  rcases hp with rfl | rfl | rfl | rfl | rfl | rfl | rfl | rfl
  · exact ⟨true, fun _ _ => rfl⟩
  all_goals exact ⟨false, fun _ _ => rfl⟩

/-- STTAG of good format bytes, none of them in host memory, issues its requests (R32, R34). -/
theorem exec_sttag {w : MemW} {s : State} {tg : Nat → Tgt} {xs : List Access}
    (hxs : xs = s.accesses w false (fun l => s.val l w.b 5 % 2 ^ 16) fun _ => 0)
    (htag : ∀ x ∈ xs, tagBad x.x = false) (hhost : ∀ x ∈ xs, ∀ pa k, tg x.lane = .mem pa k → isHost pa = false)
    (hcheck : ∀ x ∈ xs, ∃ wk, s.check (s.agent s.key x.lane) x.va 64 64 .sttag = .ok (tg x.lane) wk) :
    exec (.sttag w) s = .next (s.issueReqs w .sttag 64 64 1 .sttag false false xs) := by
  obtain ⟨wk, hc⟩ := checks_ok s 64 64 .sttag xs tg hcheck
  show execSttag w s = _
  unfold execSttag
  simp only [← hxs, hc]
  split
  · next r rs hbad =>
    obtain ⟨e, he, hr⟩ := List.mem_filterMap.1 (hbad ▸ List.mem_cons_self (a := r) (l := rs))
    obtain ⟨x, hx, rfl⟩ := List.mem_map.1 he
    cases ht : tg x.lane with
    | mem pa k => simp [ht, htag x hx, hhost x hx pa k ht] at hr
    | _ => simp [ht, htag x hx] at hr
  · rfl

/-- Settles O24: each word issues its requests, and accesses that pass their checks are all asked. -/
theorem accessesComplete : Obligations.AccessesComplete := by
  refine ⟨fun p hp w s tg hcheck hso hroom => ?_, fun w s tg hcheck hso hroom => ?_⟩
  · obtain ⟨merge, hexec⟩ := asking_issues hp
    exact ⟨_, hexec w s, issueReqs_ok _ _ _ _ _ _ _ _ merge _ tg hcheck hso hroom⟩
  · have hhost : ∀ x ∈ s.accesses w false (fun l => s.val l w.b 5 % 2 ^ 16) fun _ => 0,
        ∀ pa k, tg x.lane = .mem pa k → isHost pa = false := fun x hx pa k ht => by
      have h := (hcheck x hx).2.1
      rwa [ht] at h
    have hok := fun x hx => (hcheck x hx).2.2
    exact ⟨_, exec_sttag rfl (fun x hx => (hcheck x hx).1) hhost hok,
      issueReqs_ok _ _ _ _ _ _ _ _ _ _ tg hok hso hroom⟩

end Sys2Proof.Machine
end

section
/-!
What a time register shows when its request is issued (O26).
-/
namespace Sys2Proof.Machine
open Sys2Proof.Claims

/-- A time register given to a request carries it, shows its image, and has lost the mark of an earlier one (R78). -/
theorem takeT_lane {s : State} {r : Req} {n st v l : Nat} (hn : r.tsel = some n) (hst : st ≠ stDone)
    (hl : l ∈ lanesOf r.lanes) :
    let x := ((s.takeT r st v).weft r.key).lane l
    lookD n 0 x.treq = r.id ∧ look n x.broken = none ∧ x.treg n = timage st v := by
  simp [State.takeT, hn, lane_eachLane (lanesOf_nodup _), hl, hst, Lane.treg, Lane.setT]

/-- The first slot with room lies at the start of the search or after it (R83). -/
theorem firstSlot_ge {s : State} {core : Nat} {ks : List Claim} {fuel c0 c : Nat}
    (h : s.firstSlot core ks fuel c0 = some c) : c0 ≤ c := by
  induction fuel generalizing c0 with
  | zero => cases h
  | succ fuel ih =>
    simp only [State.firstSlot] at h
    split at h
    · exact Nat.le_of_eq (Option.some.inj h)
    · exact Nat.le_of_succ_le (ih h)

/-- Settles O26: along the branches of the issue of one request. -/
theorem timeAtIssue : Obligations.TimeAtIssue := by
  intro s r walked n hn t l hl
  dsimp only [t]
  unfold State.placeLoad
  split
  · next level hbooks =>
    have hlevel : s.coreBooks r = some level := by
      split at hbooks
      · cases hbooks
      · exact hbooks
    dsimp only
    split
    · next c hslot =>
      have hc := firstSlot_ge hslot
      exact (takeT_lane hn (by decide) hl).imp_right (.imp_right fun h => .inr ⟨level, _, hlevel, by omega, h⟩)
    · exact (takeT_lane hn (by decide) hl).imp_right (.imp_right .inl)
  · exact (takeT_lane hn (by decide) hl).imp_right (.imp_right .inl)

end Sys2Proof.Machine
end

section
/-!
From the probe to the landing: walks, admissions, bookings, answers, delays and landings (O44).
-/
namespace Sys2Proof.Machine
open Sys2Proof.Claims

/-! ### What a landing leaves in the registers -/

/-- The scalar and z registers of every weft, and the predicates of its lanes, are as before. -/
def SameValues (s t : State) : Prop := ∀ k, (t.weft k).s = (s.weft k).s ∧ (t.weft k).z = (s.weft k).z ∧
  ∀ l, ((t.weft k).lane l).preds = ((s.weft k).lane l).preds

/-- The images of every lane's time registers are as before. -/
def SameTimes (s t : State) : Prop := ∀ k l, ((t.weft k).lane l).t = ((s.weft k).lane l).t

theorem SameValues.trans {s t u : State} (h : SameValues s t) (g : SameValues t u) : SameValues s u := fun k => by
  obtain ⟨hs, hz, hp⟩ := h k
  obtain ⟨gs, gz, gp⟩ := g k
  exact ⟨gs.trans hs, gz.trans hz, fun l => (gp l).trans (hp l)⟩

theorem SameTimes.trans {s t u : State} (h : SameTimes s t) (g : SameTimes t u) : SameTimes s u :=
  fun k l => (g k l).trans (h k l)

theorem sameValues_of_wefts {s t : State} (h : t.wefts = s.wefts) : SameValues s t := fun k => by
  simp [State.weft, h]

theorem sameTimes_of_wefts {s t : State} (h : t.wefts = s.wefts) : SameTimes s t := fun k l => by
  simp [State.weft, h]

/-- A part of every weft that a change of one weft keeps. -/
theorem weft_mapWeft_part {β : Type} (g : Weft → β) {f : Weft → Weft} (hf : ∀ w, g (f w) = g w) (s : State)
    (k j : Nat) : g ((s.mapWeft k f).weft j) = g (s.weft j) := by
  by_cases h : j = k
  · rw [h, weft_mapWeft_same, hf]
  · rw [weft_mapWeft_other _ h]

section
variable {ls : List Nat} (hls : ls.Nodup) {f : Nat → Lane → Lane}
include hls

/-- A part of every lane that a pass over lanes keeps. -/
theorem lane_eachLane_part {β : Type} (g : Lane → β) (hf : ∀ l x, g (f l x) = g x) (w : Weft) (l : Nat) :
    g ((w.eachLane ls f).lane l) = g (w.lane l) := by
  rw [lane_eachLane hls]
  split
  · exact hf _ _
  · rfl

/-- A pass over lanes of a weft that keeps their predicates. -/
theorem sameValues_lanes (hf : ∀ l x, (f l x).preds = x.preds) (s : State) (k : Nat) :
    SameValues s (s.mapWeft k fun w => w.eachLane ls f) := fun j =>
  ⟨weft_mapWeft_part (·.s) (by exact fun _ => rfl) s k j, weft_mapWeft_part (·.z) (by exact fun _ => rfl) s k j, fun l =>
    weft_mapWeft_part (fun w => (w.lane l).preds) (fun w => lane_eachLane_part hls (·.preds) hf w l) s k j⟩

/-- A pass over lanes of a weft that keeps their time registers. -/
theorem sameTimes_lanes (hf : ∀ l x, (f l x).t = x.t) (s : State) (k : Nat) :
    SameTimes s (s.mapWeft k fun w => w.eachLane ls f) := fun j l =>
  weft_mapWeft_part (fun w => (w.lane l).t) (fun w => lane_eachLane_part hls (·.t) hf w l) s k j

end

theorem reqT_values (s : State) (r : Req) (st v : Nat) : SameValues s (s.reqT r st v) := by
  unfold State.reqT
  split
  · exact sameValues_of_wefts rfl
  · exact sameValues_lanes (lanesOf_nodup _) (fun _ x => by split <;> rfl) s _

theorem dropT_values (s : State) (r : Req) : SameValues s (s.dropT r) := by
  unfold State.dropT
  split
  · exact sameValues_of_wefts rfl
  · exact sameValues_lanes (lanesOf_nodup _) (fun _ x => by split <;> rfl) s _

theorem dropT_times (s : State) (r : Req) : SameTimes s (s.dropT r) := by
  unfold State.dropT
  split
  · exact sameTimes_of_wefts rfl
  · exact sameTimes_lanes (lanesOf_nodup _) (fun _ x => by split <;> rfl) s _

theorem markRefused_values (s : State) (r : Req) : SameValues s (s.markRefused r) := by
  unfold State.markRefused
  split
  · exact sameValues_lanes (lanesOf_nodup _) (by exact fun _ _ => rfl) s _
  · exact sameValues_lanes (lanesOf_nodup _) (by exact fun _ _ => rfl) s _
  · exact sameValues_of_wefts rfl

theorem markRefused_times (s : State) (r : Req) : SameTimes s (s.markRefused r) := by
  unfold State.markRefused
  split
  · exact sameTimes_lanes (lanesOf_nodup _) (by exact fun _ _ => rfl) s _
  · exact sameTimes_lanes (lanesOf_nodup _) (by exact fun _ _ => rfl) s _
  · exact sameTimes_of_wefts rfl

/-- Marks change the wefts alone. -/
theorem markRefused_only (s : State) (r : Req) : s.markRefused r = { s with wefts := (s.markRefused r).wefts } := by
  unfold State.markRefused
  split <;> rfl

theorem sweep_wefts (s : State) (core : Nat) : (s.sweep core).wefts = s.wefts := by
  unfold State.sweep
  split <;> rfl

/-- A weft that waits for a request, after it is over. -/
def Weft.releasedFrom (id : Nat) (w : Weft) : Weft := if w.hold = .req id then { w with hold := .none } else w

theorem releasedFrom_only (id : Nat) (w : Weft) : w.releasedFrom id = { w with hold := (w.releasedFrom id).hold } := by
  unfold Weft.releasedFrom
  split <;> rfl

theorem retireReq_weft (s : State) (r : Req) (k : Nat) :
    (s.retireReq r).weft k = ((s.dropT r).weft k).releasedFrom r.id := by
  have h := lookD_map
    (f := fun e : Nat × Weft => if e.2.hold = .req r.id then (e.1, { e.2 with hold := .none }) else e)
    (g := Weft.releasedFrom r.id) (d := {}) (d' := {}) (fun e => by unfold Weft.releasedFrom; split <;> rfl)
    (by simp [Weft.releasedFrom]) k (((s.dropT r).dropReq r.id).sweep r.agent.core).wefts
  exact h.trans (by rw [sweep_wefts]; rfl)

theorem retireReq_values (s : State) (r : Req) : SameValues s (s.retireReq r) :=
  (dropT_values s r).trans fun k => by
    rw [retireReq_weft, releasedFrom_only]
    exact ⟨rfl, rfl, fun _ => rfl⟩

theorem retireReq_times (s : State) (r : Req) : SameTimes s (s.retireReq r) :=
  (dropT_times s r).trans fun k l => by
    rw [retireReq_weft, releasedFrom_only]
    rfl

/-! ### What a request's time registers show -/

/-- The registers that carry a request take its image. -/
theorem reqT_shows (s : State) (r : Req) (st v : Nat) : TShows s (s.reqT r st v) r st v := by
  intro n hn l hl hcarries
  simp [State.reqT, hn, lane_eachLane (lanesOf_nodup _), hl, hcarries, Lane.treg, Lane.setT]

/-- What they show stays while time registers do. -/
theorem shows_sameTimes {s t u : State} {r : Req} {st v : Nat} (h : TShows s t r st v) (g : SameTimes t u) :
    TShows s u r st v := fun n hn l hl hcarries => by
  have := h n hn l hl hcarries
  unfold Lane.treg at this ⊢
  rwa [g]

theorem landV_treq (stk : Nat) (r : Req) (p : Part) (x : Lane) : (landV stk r p x).treq = x.treq := by
  unfold landV
  split
  · rfl
  · next hrun =>
    clear hrun
    generalize List.range r.vCount = is
    induction is generalizing x with
    | nil => rfl
    | cons i is ih =>
      rw [List.foldl_cons, ih]
      dsimp only
      split <;> rfl

theorem setLane_treq (w : Weft) (m : Nat) {x : Lane} (h : x.treq = (w.lane m).treq) (l : Nat) :
    ((w.setLane m x).lane l).treq = (w.lane l).treq := by
  by_cases hl : l = m
  · rw [hl, lane_setLane_same, h]
  · rw [lane_setLane_other _ hl]

theorem landS_lanes (r : Req) (n v : Nat) (w : Weft) : (landS r n v w).lanes = w.lanes := by
  unfold landS
  generalize List.range r.sCount = is
  induction is generalizing w with
  | nil => rfl
  | cons i is ih => rw [List.foldl_cons, ih]; rfl

/-- Registers still carry their request when its value has landed. -/
theorem deliver_treq (s : State) (r : Req) (k l : Nat) :
    (((s.deliver r).weft k).lane l).treq = ((s.weft k).lane l).treq := by
  have hpart {f : Weft → Weft} (hf : ∀ w, ((f w).lane l).treq = (w.lane l).treq) :
      (((s.mapWeft r.key f).weft k).lane l).treq = ((s.weft k).lane l).treq :=
    weft_mapWeft_part (fun w => (w.lane l).treq) hf s r.key k
  unfold State.deliver
  dsimp only
  split
  · rfl
  · refine hpart fun w => ?_
    generalize r.parts = ps
    induction ps generalizing w with
    | nil => rfl
    | cons p ps ih => rw [List.foldl_cons, ih, setLane_treq _ _ (landV_treq ..)]
  · refine hpart fun w => ?_
    unfold Weft.lane
    rw [landS_lanes]
  · refine hpart fun w => ?_
    rfl
  · exact hpart fun w => lane_eachLane_part (lanesOf_nodup _) (·.treq) (by exact fun _ _ => rfl) w l

/-- The value of a request stands in the s, p or z register that it goes to. -/
def Delivered (t : State) (r : Req) : Prop :=
  (∀ n p ps, r.dst = .s n → r.parts = p :: ps → r.size = 8 →
    (t.weft r.key).sreg n = BitVec.ofNat 64 (bits p.val 0 64)) ∧
  (∀ n p ps, r.dst = .p n → n < 8 → r.parts = p :: ps → ∀ l ∈ lanesOf r.lanes,
    ((t.weft r.key).lane l).pred n = decide (p.val ≠ 0)) ∧
  ∀ n p ps, r.dst = .z n → n < 4 → r.parts = p :: ps → (t.weft r.key).zreg n = decide (p.val ≠ 0)

theorem Delivered.then {t u : State} {r : Req} (h : Delivered t r) (g : SameValues t u) : Delivered u r := by
  obtain ⟨hs, hp, hz⟩ := h
  obtain ⟨gs, gz, gp⟩ := g r.key
  unfold Delivered Weft.sreg Weft.zreg Lane.pred at *
  rw [gs, gz]
  exact ⟨hs, fun n p ps hd hn hps l hl => by rw [gp]; exact hp n p ps hd hn hps l hl, hz⟩

theorem deliver_delivered (s : State) (r : Req) : Delivered (s.deliver r) r := by
  refine ⟨fun n p ps hd hps hsize => ?_, fun n p ps hd hn hps l hl => ?_, fun n p ps hd hn hps => ?_⟩
  · simp [State.deliver, hd, hps, landS, Req.sCount, hsize, Weft.setS, Weft.sreg]
  · simp only [State.deliver, hd, hps, weft_mapWeft_same, lane_eachLane (lanesOf_nodup _), if_pos hl]
    exact (pred_setP _ n n _ hn).trans (if_pos rfl)
  · simp only [State.deliver, hd, hps, weft_mapWeft_same]
    exact (zreg_setZ _ n n _ hn).trans (if_pos rfl)

/-- A request that is complete: its value stands, its registers show DONE with the cycle, and it is over. -/
theorem complete_spec (s : State) (r : Req) : let t := s.complete r
    SameBytes s t ∧ t.req r.id = none ∧ TShows s t r stDone (s.core r.agent.core).cyc ∧ Delivered t r := by
  have hshows := reqT_shows ((s.deliver r).logLanding r) r stDone (s.core r.agent.core).cyc
  have hcarries : TShows s _ r stDone _ := fun n hn l hl h => hshows n hn l hl (deliver_treq s r .. ▸ h)
  have hvalues : SameValues (s.deliver r) (s.complete r) :=
    (reqT_values ((s.deliver r).logLanding r) r _ _).trans (retireReq_values _ r)
  exact ⟨(complete_settles s r).1, req_complete s r, shows_sameTimes hcarries (retireReq_times _ r),
    (deliver_delivered s r).then hvalues⟩

/-- The landing of a request from a state: as its end, and a refusal is marked. -/
theorem landed_spec (s : State) (r : Req) : let t := (s.complete r).markRefused r
    SameBytes s t ∧ t.req r.id = none ∧ TShows s t r stDone (s.core r.agent.core).cyc ∧ Delivered t r := by
  obtain ⟨hbytes, hover, hshows, hdelivered⟩ := complete_spec s r
  have hmarks := markRefused_only (s.complete r) r
  refine ⟨hbytes.trans (by rw [hmarks]; exact ⟨fun _ => rfl, fun _ _ => rfl⟩), by rw [hmarks]; exact hover,
    shows_sameTimes hshows (markRefused_times _ r), hdelivered.then (markRefused_values _ r)⟩

/-- A landing that was armed counts in ERRINJ of its core (R92, R289). -/
def State.countLanding (s : State) (r : Req) : State :=
  s.mapCore r.agent.core fun c => { c with errinj := countInject c.errinj }

theorem countLanding_bytes (s : State) (r : Req) : SameBytes s (s.countLanding r) :=
  mapCore_bytes s _ (by exact fun _ => rfl)

theorem countLanding_cyc (s : State) (r : Req) :
    ((s.countLanding r).core r.agent.core).cyc = (s.core r.agent.core).cyc := by
  simp [State.countLanding]

theorem reqNow_reqT {s t : State} {id : Nat} {q : Req} (h : ReqNow s t id q) (r : Req) (st v : Nat) :
    ReqNow s (t.reqT r st v) id q := by
  have hreq : ∀ j, (t.reqT r st v).req j = t.req j := fun j => by
    unfold State.reqT
    split <;> rfl
  exact ⟨(hreq id).trans h.1, fun j hj => (hreq j).trans (h.2 j hj)⟩

/-! ### Walks, admissions and bookings -/

section
variable {s : State} {id : Nat} {r : Req} (h : s.req id = some r)
include h

theorem exec_pageWalk (hw : r.phase = .walk) :
    ∃ t, exec (.pageWalk id) s = .next t ∧ t = { s with reqs := t.reqs } ∧ ReqNow s t id { r with
      phase := .probe
      issued := (s.core r.agent.core).cyc } := by
  refine ⟨_, rfl, ?_⟩
  simp only [h, hw, State.when, decide_true, if_true]
  exact ⟨rfl, reqNow_setReq h (q := { r with phase := _, issued := _ }) (req_id (r := r) h)⟩

/-- The first of a controller's queue takes the deadline slot of this cycle (R84). -/
theorem exec_controllerAdmission {pa : Nat} (hpa : pa = local46 r.tgt.base) (hneeds : s.needsSlot r = true)
    (hfirst : s.queueAhead r = false) (hslot : s.reedUsed 9 (memSidePlace pa) s.hub.clk 0 = 0)
    (hhbm : isHbm pa = true → (s.stack (hbmStack pa)).retraining = false ∧
      ((s.stack (hbmStack pa)).step < 11 → s.reedUsed 9 (memSidePlace pa) (s.hub.clk - 1) 0 = 0)) :
    ∃ t, exec (.controllerAdmission id) s = .next t ∧
      t.slots = ⟨9, memSidePlace pa, s.hub.clk, 1, 0⟩ :: s.slots ∧
      t = { s with
        reqs := t.reqs
        slots := t.slots } ∧ ReqNow s t id { r with admitted := true } := by
  have hretrain : (isHbm pa && (s.stack (hbmStack pa)).retraining) = false :=
    Bool.and_eq_false_imp.2 fun hb => (hhbm hb).1
  have hlast : (if isHbm pa && decide ((s.stack (hbmStack pa)).step < 11) then
      s.reedUsed 9 (memSidePlace pa) (s.hub.clk - 1) 0 else 0) = 0 := by
    split
    · next hc =>
      obtain ⟨hb, hs⟩ := Bool.and_eq_true_iff.1 hc
      exact (hhbm hb).2 (of_decide_eq_true hs)
    · rfl
  refine ⟨_, rfl, ?_⟩
  simp only [h, ← hpa, hneeds, hfirst, hslot, hretrain, hlast]
  refine ⟨?_, rfl, reqNow_setReq h (q := { r with admitted := true }) (req_id (r := r) h)⟩
  simp [State.setReq, State.reserve, State.reedCycle]

/-- The others wait in the order in which they came (R84). -/
theorem exec_controllerAdmission_waits {pa : Nat} (hpa : pa = local46 r.tgt.base) (hneeds : s.needsSlot r = true)
    (hwaits : s.queueAhead r = true ∨ s.reedUsed 9 (memSidePlace pa) s.hub.clk 0 ≠ 0 ∨
      isHbm pa = true ∧ (s.stack (hbmStack pa)).retraining = true) :
    ∃ t, exec (.controllerAdmission id) s = .next t ∧ t = { s with reqs := t.reqs } ∧
      ReqNow s t id { r with stamp := if r.stamp = 0 then s.fresh + 1 else r.stamp } := by
  refine ⟨_, rfl, ?_⟩
  simp only [h, ← hpa, hneeds, Bool.not_true, Bool.false_eq_true, if_false]
  rw [if_pos]
  · exact ⟨rfl, reqNow_setReq h (q := { r with stamp := _ }) (req_id (r := r) h)⟩
  · rcases hwaits with hq | hu | ⟨hb, ht⟩
    · simp [hq]
    · simp [hu]
    · simp [hb, ht]

/-- The path is booked at the first slot with room, and the answer is on its way (R83). -/
theorem exec_booking {level wait c fig from_ : Nat} {claims : List Claim}
    (hfig : fig = Config.idleFigure level (r.far level) + r.extra) (hfrom : from_ = s.readyAt r level wait)
    (hclaims : claims = s.claims r level fig)
    (hslot : s.firstSlot r.agent.core claims
      ((s.core r.agent.core).cyc + 1024 - min from_ ((s.core r.agent.core).cyc + 1023)) from_ = some c)
    (hmay : s.mayBook r level = true) (hahead : (s.core r.agent.core).cyc < c + fig) :
    ∃ t, exec (.booking id level wait) s = .next t ∧
      t.slots = claims.map (fun k =>
        ⟨k.cls, k.num, s.reedCycle r.agent.core k.cls k.num (c + k.off), k.units, k.tag⟩) ++ s.slots ∧
      t = { s with
        reqs := t.reqs
        slots := t.slots } ∧
      ReqNow s t id { r with
        phase := .answered
        level := level
        dist := r.far level
        slot := c + fig
        inject := (s.injectFor r level).getD 0
        armed := (s.injectFor r level).isSome } := by
  subst hfig hfrom hclaims
  refine ⟨_, rfl, ?_⟩
  simp only [h, hslot, hmay, hahead, State.when, decide_true, Bool.and_self, if_true]
  exact ⟨rfl, rfl, reqNow_setReq h
    (q := { r with phase := _, level := _, dist := _, slot := _, inject := _, armed := _ }) (req_id (r := r) h)⟩

/-! ### Answers -/

/-- The request when its answer has come: a retry keeps the first promise (R80). -/
def Req.answer (r : Req) : Req :=
  { r with
    phase := .booked
    promise := if r.promise = 0 then r.slot else r.promise }

theorem exec_probeAnswer (hphase : r.phase = .answered)
    (hcome : r.issued + Config.answerFigure r.level r.dist ≤ (s.core r.agent.core).cyc)
    (hearly : (s.core r.agent.core).cyc < r.slot) :
    ∃ t, exec (.probeAnswer id) s = .next t ∧ SameBytes s t ∧ ReqNow s t id r.answer ∧
      (r.promise = 0 → TShows s t r stBooked r.slot) ∧ (r.promise ≠ 0 → t.wefts = s.wefts) := by
  have hnow := reqNow_setReq h (q := r.answer) (req_id (r := r) h)
  have hbytes := (settles_setReq s r.answer).1
  by_cases hp : r.promise = 0
  · have hexec : exec (.probeAnswer id) s = .next ((s.setReq r.answer).reqT r.answer stBooked r.slot) := by
      show execProbeAnswer id s = _
      simp [execProbeAnswer, h, hphase, hcome, hearly, hp, State.when, Req.answer]
    exact ⟨_, hexec, hbytes.trans (reqT_settles ..).1, reqNow_reqT hnow ..,
      fun _ => reqT_shows (s.setReq r.answer) r.answer _ _, fun h0 => absurd hp h0⟩
  · have hexec : exec (.probeAnswer id) s = .next (s.setReq r.answer) := by
      show execProbeAnswer id s = _
      simp [execProbeAnswer, h, hphase, hcome, hearly, hp, State.when, Req.answer]
    exact ⟨_, hexec, hbytes, hnow, fun h0 => absurd h0 hp, fun _ => rfl⟩

/-! ### Landings -/

/-- A landing that ERRINJ delays is put off, and counted (R92, R289). -/
theorem exec_dataLanding_delayed (hdue : s.landingDue r = true) (hdelays : r.delays = true) (hop : r.op ≠ .barw) :
    ∃ t, exec (.dataLanding id) s = .next t ∧ SameBytes s t ∧ t.wefts = s.wefts ∧
      (t.core r.agent.core).errinj = countInject (s.core r.agent.core).errinj ∧
      ReqNow s t id { r with armed := false, slot := (s.core r.agent.core).cyc + r.inject } := by
  have harmed : r.armed = true := (Bool.and_eq_true_iff.1 hdelays).1
  refine ⟨_, rfl, ?_⟩
  simp only [h, hop, hdue, hdelays, harmed, if_false, if_true, Bool.not_true, Bool.false_eq_true]
  refine ⟨(countLanding_bytes s r).trans (settles_setReq _ _).1, rfl, ?_, ?_⟩
  · show ((s.countLanding r).core _).errinj = _
    simp [State.countLanding]
  · exact reqNow_setReq (s := s.countLanding r) h (q := { r with armed := _, slot := _ }) (req_id (r := r) h)

/-- A landing that comes now ends the request. -/
theorem exec_dataLanding (hmay : s.mayLand r = true) (hop : r.op ≠ .barw) :
    ∃ t, exec (.dataLanding id) s = .next t ∧ SameBytes s t ∧ t.req id = none ∧
      TShows s t r stDone (s.core r.agent.core).cyc ∧ Delivered t r := by
  obtain ⟨hdue, hdelays⟩ : s.landingDue r = true ∧ r.delays = false := by simpa [State.mayLand] using hmay
  have hid : r.id = id := req_id h
  have hexec : exec (.dataLanding id) s =
      .next (((if r.armed then s.countLanding r else s).complete r).markRefused r) := by
    show execDataLanding id s = _
    cases ha : r.armed <;> simp [execDataLanding, h, hop, hdue, hdelays, ha, State.countLanding]
  refine ⟨_, hexec, ?_⟩
  split
  · obtain ⟨hbytes, hover, hshows, hdelivered⟩ := landed_spec (s.countLanding r) r
    rw [countLanding_cyc] at hshows
    exact ⟨(countLanding_bytes s r).trans hbytes, hid ▸ hover, hshows, hdelivered⟩
  · exact hid ▸ landed_spec s r

/-- A wait at a barrier ends when its phase does (R283). -/
theorem exec_dataLanding_barw (hop : r.op = .barw) (hhome : r.homed = true) (hsat : r.satisfied = true) :
    ∃ t, exec (.dataLanding id) s = .next t ∧ SameBytes s t ∧ t.req id = none ∧ Delivered t r := by
  obtain ⟨hbytes, hover, -, hdelivered⟩ := complete_spec s r
  refine ⟨_, rfl, ?_⟩
  simp only [h, hop, hhome, hsat, State.when, Bool.and_self, if_true]
  exact ⟨hbytes, req_id (r := r) h ▸ hover, hdelivered⟩

end

/-- Settles O44: each step by the rule of its operation. -/
theorem promisesComplete : Obligations.PromisesComplete := by
  intro s id r h
  refine ⟨exec_pageWalk h, fun hneeds => ⟨exec_controllerAdmission h rfl hneeds,
    exec_controllerAdmission_waits h rfl hneeds⟩, fun _ _ _ => exec_booking h rfl rfl rfl, exec_probeAnswer h,
    exec_dataLanding_delayed h, exec_dataLanding h, fun hop hhome hsat => ?_⟩
  obtain ⟨t, hexec, hbytes, hover, -, -, hz⟩ := exec_dataLanding_barw h hop hhome hsat
  exact ⟨t, hexec, hbytes, hover, hz⟩

end Sys2Proof.Machine
end

section
/-!
Stores that enter the Store Queue (O25).
-/
namespace Sys2Proof.Machine
open Sys2Proof.Claims

theorem keepWalks_wefts (ps : List (Access × Tgt × WalkRes)) (s : State) : (s.keepWalks ps).wefts = s.wefts := by
  induction ps generalizing s with
  | nil => rfl
  | cons p ps ih => exact (ih _).trans (keepWalk_wefts ..)

/-- Walks that are kept add nothing to the Store Queue. -/
theorem keepWalks_advance_sq {ps : List (Access × Tgt × WalkRes)} {s : State} :
    (s.keepWalks ps).advance.cw.sq = s.cw.sq := by
  have hkey : (s.keepWalks ps).key = s.key := (keepWalks_entered ps s).key
  obtain ⟨L, hL⟩ := advance_lanes (s.keepWalks ps)
  rw [hL]
  show ((s.keepWalks ps).weft (s.keepWalks ps).key).sq = (s.weft s.key).sq
  rw [hkey]
  unfold State.weft
  rw [keepWalks_wefts]

/-- Stores that pass their checks, and that nothing holds up, enter the Store Queue. -/
theorem issueStores_queues {w : MemW} {s : State} (uniform : Bool) {xs : List Access} {tg : Nat → Tgt}
    (hok : ∀ x ∈ xs, Storable s x (tg x.lane) ∧ ∃ wk, s.mustWait true [(x, tg x.lane, wk)] = false ∧
      s.check (s.agent s.key x.lane) x.va w.bytes w.bytes .write = .ok (tg x.lane) wk)
    (hroom : s.outstanding s.cur.core + xs.length ≤ Config.maxRequests) :
    AllQueued w s (s.issueStores w w.bytes uniform xs) xs tg := by
  obtain ⟨wk, hchecks⟩ := checks_ok s w.bytes w.bytes .write xs tg fun x hx => (hok x hx).2.imp fun _ h => h.2
  obtain ⟨-, hplaced, hfaults⟩ := checks_lists xs tg wk s.cur.va
  unfold State.issueStores
  simp only [hchecks, hplaced, hfaults]
  split
  · next r rs hbad =>
    obtain ⟨e, he, hr⟩ := List.mem_filterMap.1 (hbad ▸ List.mem_cons_self (a := r) (l := rs))
    obtain ⟨x, hx, rfl⟩ := List.mem_map.1 he
    have hstore := (hok x hx).1
    cases ht : tg x.lane with
    | aperture ch => simp [ht, show bits x.x 10 22 = 0 by simpa [ht, Storable] using hstore] at hr
    | ctlWin off =>
      rw [ht] at hstore
      rcases hstore with hlow | hring
      · simp [ht, hlow] at hr
      · simp [ht, hring] at hr
    | _ => simp [ht, raiseOf] at hr
  · have hgo : s.mustWait true (xs.map fun x => (x, tg x.lane, wk x)) = false := by
      unfold State.mustWait
      rw [List.any_eq_false]
      intro p hp
      obtain ⟨x, hx, rfl⟩ := List.mem_map.1 hp
      obtain ⟨-, wk', hwait, -⟩ := hok x hx
      simpa [State.mustWait] using hwait
    obtain ⟨t, ht, hentered, es, hsq, hes, hstored⟩ := stores_spec w s w.bytes
      (fun t l => if uniform then t.cur.lanes else 1#128 <<< l) (xs.map fun x => (x, tg x.lane, wk x)) _
      (entered_advance (keepWalks_entered _ s)) [] (keepWalks_advance_sq.trans (List.append_nil _).symm)
    have hstays : AllQueued w s (t.mapWeft t.key fun z => z.eachLane [] fun _ x => { x with pc := t.cur.va }) xs tg := by
      refine ⟨entered_noop hentered, es, ?_, by simpa using hes, fun x hx => ?_⟩
      · rw [cw_mapKey]
        exact hsq
      · exact hstored (x, tg x.lane, wk x) (List.mem_map.2 ⟨x, hx, rfl⟩)
    rw [hgo, if_neg (by simp; omega)]
    have hkey : t.key = s.key := hentered.key
    rw [hkey] at hstays
    subst ht
    cases uniform <;> exact hstays

/-- Settles O25: both words issue their stores, and stores that pass their checks are all queued. -/
theorem storesComplete : Obligations.StoresComplete := by
  intro p hp w s tg xs hok hroom
  have hexec : exec (p.1 w) s = .next (s.issueStores w w.bytes p.2 xs) := by
    simp only [List.mem_cons, List.not_mem_nil, or_false] at hp
    rcases hp with rfl | rfl <;> rfl
  exact ⟨_, hexec, issueStores_queues p.2 hok hroom⟩

end Sys2Proof.Machine
end

section
/-!
Team registers (O31).
-/
namespace Sys2Proof.Machine
open Sys2Proof.Claims

/-- A value sent into s(n) as the issuing lanes go on. -/
theorem advance_sendS (s : State) (n : Fin 128) (y : Nat) : Sent s (s.advance.sendS (.s n) y) n y := by
  have hcw : (s.advance.sendS (.s n) y).cw = s.advance.cw.writeS n (BitVec.ofNat 64 y) := cw_mapKey s.advance _
  obtain ⟨⟨hweft, -, hother⟩, hpassed⟩ := advance_spec s
  refine ⟨hweft.map fun z => z.writeS n (BitVec.ofNat 64 y), ?_, fun m => ?_, fun l hl => ?_, fun l hl => ?_⟩
  · rw [hcw, cw_advance]
    rfl
  · rw [hcw, cw_advance]
    exact lookD_put ..
  · rw [hcw]
    exact hother l hl
  · rw [hcw]
    exact hpassed l hl

/-- A write at the Home of a team register (R116). -/
theorem mapTeam_writeG (s : State) (k n cyc i : Nat) (y : Word) (add : Bool) :
    let tm := s.team k
    let t := s.mapTeam k fun x => x.writeG n y cyc i add
    (t.team k).gq = tm.gq ++ tm.cores.map (fun c => (c, n, y)) ∧
      (∀ m, lookD m 0 (t.team k).g = if m = n then y else lookD m 0 tm.g) ∧ (t.team k).gcopy = tm.gcopy := by
  simp [State.mapTeam, Team.writeG, lookD_put]

section
variable {w : MemW} {s : State}

section
variable (h : ctlHoldsU w.ctl s.cw = true) (hg : s.gaddPending s.key = false)
include h hg

theorem exec_gget {n : Fin 128} (hn : w.dst = .s n) :
    ∃ t, exec (.gget w) s = .next t ∧ Sent s t n (s.greg s.key w.a.num).toNat := by
  have hexec : exec (.gget w) s = .next (s.advance.sendS w.dst (s.greg s.key w.a.num).toNat) := by
    show execGget w s = _
    simp [execGget, State.skipped, h, hg]
  exact ⟨_, hexec, hn ▸ advance_sendS s n _⟩

/-- GSET after which no weft of a higher index has written the register in this cycle. -/
theorem exec_gset (hb : s.gBehind s.cw.team w.dst.num s.cw.index = none) :
    exec (.gset w) s = .next (s.advance.mapTeam s.cw.team fun t =>
      t.writeG w.dst.num (BitVec.ofNat 64 (s.val s.lead w.a 16)) (s.gCycle s.cw.team) s.cw.index false) := by
  show execGset w s = _
  simp [execGset, State.skipped, h, hg, hb]

/-- The GSET of a higher index survives this one. -/
theorem exec_gset_overwritten (hb : s.gBehind s.cw.team w.dst.num s.cw.index = some false) :
    exec (.gset w) s = .next s.advance := by
  show execGset w s = _
  simp [execGset, State.skipped, h, hg, hb]

/-- A GADD of a higher index has read the register already. -/
theorem exec_gset_waits (hb : s.gBehind s.cw.team w.dst.num s.cw.index = some true) :
    exec (.gset w) s = .next s.turnAway := by
  show execGset w s = _
  simp [execGset, State.skipped, h, hg, hb]

end

/-- The request of a GADD: the number of the team register stands for an address. -/
def State.gaddReq (s : State) (w : MemW) : Req :=
  s.reqFor w (.gadd w.a.num) 8 true [s.part w ⟨s.lead, 0, s.val s.lead w.b 16, 0⟩ (unplaced (2 ^ 52 + w.a.num))]

theorem exec_gadd (h : ctlHoldsU w.ctl s.cw = true) :
    ∃ t, exec (.gadd w) s = .next t ∧ Entered s.advance t ∧
      AskedOne s t (.gadd w.a.num) (reqDst w.dst) w.acquires w.releases w.tnum s.lead 0 (s.val s.lead w.b 16) := by
  have hkey : (s.gaddReq w).key = s.advance.key := reqFor_key ..
  have hexec : exec (.gadd w) s = .next (s.advance.placeLoad (s.gaddReq w) false) := by
    show execGadd w s = _
    simp [execGadd, State.skipped, State.gaddReq, h]
  obtain ⟨q, hq, hreqs, -⟩ := placeLoad_reqs s.advance (s.gaddReq w) false
  have hid : s.nextId ≤ q.id := by rw [hq]; exact Nat.le_refl _
  have hqkey : q.key = s.key := by rw [hq]; exact hkey
  have hmem : q ∈ (s.advance.placeLoad (s.gaddReq w) false).reqs := by
    rw [hreqs]
    exact List.mem_append_right _ (List.mem_singleton_self q)
  refine ⟨_, hexec, placeLoad_entered s.advance (s.gaddReq w) false hkey rfl, q, hmem, hid, hqkey, ?_⟩
  rw [hq]
  exact ⟨rfl, rfl, rfl, rfl, rfl, _, List.mem_singleton_self _, rfl, rfl, rfl⟩

end

/-- Settles O31: each word by its own rule. -/
theorem teamRegistersComplete : Obligations.TeamRegistersComplete := by
  intro w s h
  refine ⟨fun hg n hn => exec_gget h hg hn, fun hg hb => ?_, fun hg => ⟨fun hb => ?_, exec_gset_waits h hg⟩, exec_gadd h⟩
  · exact ⟨_, exec_gset h hg hb, ⟨fun _ => rfl, fun _ _ => rfl⟩, rfl, mapTeam_writeG ..⟩
  · exact ⟨_, exec_gset_overwritten h hg hb, advance_spec s⟩

end Sys2Proof.Machine
end

section
/-!
The loom's queue from the head's beginning to its outputs (O51).
-/
namespace Sys2Proof.Machine
open Sys2Proof.Claims

/-! ### Operands fetched -/

/-- Only what the caches hold, the rows opened and the slots of the reeds have changed. -/
def FetchOnly (s t : State) : Prop := t = { s with
  l2 := t.l2
  msc := t.msc
  rows := t.rows
  slots := t.slots }

theorem FetchOnly.refl (s : State) : FetchOnly s s := rfl

theorem FetchOnly.trans {s t u : State} (h : FetchOnly s t) (g : FetchOnly t u) : FetchOnly s u := by
  unfold FetchOnly at *
  rw [g, h]

theorem CachesOnly.fetch {s t : State} (h : CachesOnly s t) : FetchOnly s t := by
  unfold CachesOnly at h
  rw [h]
  rfl

theorem FetchOnly.foldl {α : Type} {f : State → α → State} (hf : ∀ s x, FetchOnly s (f s x)) (xs : List α)
    (s : State) : FetchOnly s (xs.foldl f s) := by
  induction xs generalizing s with
  | nil => exact .refl s
  | cons x xs ih => exact (hf s x).trans (ih _)

theorem FetchOnly.core {s t : State} (h : FetchOnly s t) (c : Nat) : t.core c = s.core c := by
  rw [h]
  rfl

theorem FetchOnly.mem {s t : State} (h : FetchOnly s t) : t.mem = s.mem := by
  rw [h]

theorem FetchOnly.bytes {s t : State} (h : FetchOnly s t) : SameBytes s t := by
  rw [h]
  exact ⟨fun _ => rfl, fun _ _ => rfl⟩

theorem reached_caches (s : State) (asid : Nat) (g : Tgt) (n : Nat) : CachesOnly s (s.reached asid g n) := by
  cases g with
  | mem pa o => exact caches_reached ..
  | _ => exact .refl s

/-- The operands stream through L2, or through the banks of the scratchpad (R146). -/
theorem opFetch_only (s : State) (o : MmaOp) (core : Nat) : FetchOnly s (s.opFetch o core) := by
  refine .foldl (fun s r => .foldl (fun s i => ?_) _ s) _ s
  split
  · unfold FetchOnly
    rw [claimBanks_only]
  · exact (reached_caches ..).fetch
  · exact .refl s

/-! ### An entry begins (R317) -/

section
variable {s : State} {core : Nat} (hrun : (s.core core).loomRun = none) (htask : (s.core core).task = none)
include hrun htask

theorem exec_loomEntryBegin_oprdy {a b : Nat} {rest : List LoomEntry}
    (hq : (s.core core).loomq = .oprdy a b :: rest) :
    ∃ t, exec (.loomEntryBegin core) s = .next t ∧ SameBytes s t ∧ (t.core core).loomq = rest := by
  have hexec : exec (.loomEntryBegin core) s = .next (s.mapCore core Core.popLoom) := by
    show execLoomEntryBegin core s = _
    simp [execLoomEntryBegin, hq, hrun, htask, State.when]
  exact ⟨_, hexec, mapCore_bytes s core (by exact fun _ => rfl), by simp [Core.popLoom, hq]⟩

/-- The head of the queue starts when none of its pages fails and no declaration of its context waits. -/
theorem exec_loomEntryBegin_mma {o : MmaOp} {rest : List LoomEntry} (hq : (s.core core).loomq = .mma o :: rest)
    (hfaults : o.faults = []) (hdecls : ∀ d ∈ (s.core core).decls, d.ctx = o.agent.ctx → d.started = true)
    (hpass : AllPass ((s.operandChecks o).map (·.2))) :
    exec (.loomEntryBegin core) s = .next (s.startEntry core o) := by
  have hok : ∀ e ∈ s.operandChecks o, ∃ g w, e.2 = .ok g w := fun e he => hpass _ (List.mem_map.2 ⟨e, he, rfl⟩)
  have hwait : ((s.core core).decls.any fun d => d.ctx = o.agent.ctx && !d.started) = false := by
    simpa [List.any_eq_false] using hdecls
  have htrap : ((s.operandChecks o).findSome? fun e => match e.2 with | .trap x _ => some x | _ => none) = none := by
    rw [List.findSome?_eq_none_iff]
    intro e he
    obtain ⟨g, w, h⟩ := hok e he
    rw [h]
  have hrecov : ((s.operandChecks o).filter fun e => e.2 = .recov) = [] := by
    rw [List.filter_eq_nil_iff]
    intro e he
    obtain ⟨g, w, h⟩ := hok e he
    simp [h]
  show execLoomEntryBegin core s = _
  simp only [execLoomEntryBegin, hq, hrun, htask, hfaults, hwait]
  rw [if_neg (by decide)]
  split
  · next x hx => exact absurd (hx.symm.trans htrap) (by simp)
  · simp [hrecov]

end

/-- What an uncovered operation notes of its burst changes no byte, and of the cores only the ends of bursts (R327). -/
theorem uncovered_if (c : Prop) [Decidable c] (s : State) (core ctx a b : Nat) :
    let t := if c then s.uncovered core ctx a b else s
    SameBytes s t ∧ (∀ k, t.core k = { s.core k with lastBurst := (t.core k).lastBurst }) ∧ t.meadows = s.meadows := by
  have hburst (k : Nat) : (s.mapCore core fun x => { x with lastBurst := put ctx b x.lastBurst }).core k =
      { s.core k with lastBurst := ((s.mapCore core fun x => { x with lastBurst := put ctx b x.lastBurst }).core k).lastBurst } := by
    rw [core_mapCore]
    split
    · next h => rw [h]
    · rfl
  have hbytes := mapCore_bytes s core (f := fun x => { x with lastBurst := put ctx b x.lastBurst }) (by exact fun _ => rfl)
  dsimp only
  split
  · unfold State.uncovered
    dsimp only
    split
    · split <;> exact ⟨hbytes, hburst, rfl⟩
    · exact ⟨hbytes, hburst, rfl⟩
  · exact ⟨⟨fun _ => rfl, fun _ _ => rfl⟩, fun _ => rfl, rfl⟩

/-- An entry that starts runs, has left the queue, and ends after its cost in cycles (R317, R327). -/
theorem startEntry_spec (s : State) (core : Nat) (o : MmaOp) :
    let t := s.startEntry core o
    SameBytes s t ∧ (t.core core).loomRun = some o ∧ (t.core core).loomq = (s.core core).loomq.tail ∧
      (t.core core).loomEnd = (s.core core).cyc + o.k / groupSize o.fa o.fb *
        (if 4 < intensity o.m o.n ∧ (s.core core).covers o.agent.ctx (intensity o.m o.n) = false then 2 else 1) + 24 := by
  obtain ⟨hbytes, hcore, -⟩ : _ ∧ (∀ k, (s.startEntry core o).core k = _) ∧ _ := uncovered_if _ _ _ _ _ _
  refine ⟨(mapCore_bytes s core (by exact fun _ => rfl)).trans hbytes, ?_⟩
  rw [hcore core]
  simp [Core.popLoom]

end Sys2Proof.Machine
end

section
/-!
A loom entry ends with its outputs in its tile (O51).
-/
namespace Sys2Proof.Machine
open Sys2Proof.Claims

/-- A pass that writes other keys leaves what a key has. -/
theorem lookD_foldl_puts_other {α : Type} (d : α) {key : Nat → Nat} (val : Nat → α) {es : List Nat} {k : Nat}
    (hk : ∀ e ∈ es, k ≠ key e) (t : Tab α) :
    lookD k d (es.foldl (fun t e => put (key e) (val e) t) t) = lookD k d t := by
  induction es generalizing t with
  | nil => rfl
  | cons x xs ih =>
    obtain ⟨hx, hxs⟩ := List.forall_mem_cons.1 hk
    rw [List.foldl_cons, ih hxs, lookD_put, if_neg hx]

/-- A pass that writes each key of a list once. -/
theorem lookD_foldl_puts {α : Type} (d : α) {key : Nat → Nat} (val : Nat → α) {es : List Nat}
    (hinj : ∀ e ∈ es, ∀ e' ∈ es, key e = key e' → e = e') (hnodup : es.Nodup) (t : Tab α) {e : Nat} (he : e ∈ es) :
    lookD (key e) d (es.foldl (fun t e => put (key e) (val e) t) t) = val e := by
  induction es generalizing t with
  | nil => cases he
  | cons x xs ih =>
    obtain ⟨hx, hxs⟩ := List.nodup_cons.1 hnodup
    rw [List.foldl_cons]
    rcases List.mem_cons.1 he with rfl | he
    · have hother : ∀ y ∈ xs, key e ≠ key y := fun y hy hk =>
        hx (hinj e (List.mem_cons_self ..) y (List.mem_cons_of_mem e hy) hk ▸ hy)
      rw [lookD_foldl_puts_other d val hother, lookD_put, if_pos rfl]
    · exact ih (fun a ha b hb => hinj a (List.mem_cons_of_mem x ha) b (List.mem_cons_of_mem x hb)) hxs _ he

/-- Elements of a tile of at most 32 columns have keys of their own. -/
theorem accKey_inj {tile n e e' : Nat} (hn : n ≤ 32) (h0 : 0 < n)
    (h : accKey tile (e / n) (e % n) = accKey tile (e' / n) (e' % n)) : e = e' := by
  have he := Nat.mod_lt e h0
  have he' := Nat.mod_lt e' h0
  unfold accKey at h
  have hrow : e / n = e' / n := by omega
  have hcol : e % n = e' % n := by omega
  rw [← Nat.div_add_mod e n, ← Nat.div_add_mod e' n, hrow, hcol]

/-- The outputs of an M × N product, written in row order into a tile. -/
theorem tile_outputs {tile m n i j : Nat} (hn : n ≤ 32) (hi : i < m) (hj : j < n) (ys : List Nat) (acc : Tab W32) :
    lookD (accKey tile i j) (0 : W32) ((List.range (m * n)).foldl (fun t e =>
      put (accKey tile (e / n) (e % n)) (BitVec.ofNat 32 (ys.getD e 0)) t) acc) =
      BitVec.ofNat 32 (ys.getD (i * n + j) 0) := by
  have h0 : 0 < n := by omega
  have hlt : i * n + j < m * n := calc
    i * n + j < (i + 1) * n := by rw [Nat.succ_mul]; omega
    _ ≤ m * n := Nat.mul_le_mul_right n hi
  have hdiv : (i * n + j) / n = i := by rw [Nat.mul_comm, Nat.mul_add_div h0, Nat.div_eq_of_lt hj, Nat.add_zero]
  have hmod : (i * n + j) % n = j := by rw [Nat.mul_comm, Nat.mul_add_mod, Nat.mod_eq_of_lt hj]
  have h := lookD_foldl_puts (0 : W32) (key := fun e => accKey tile (e / n) (e % n))
    (fun e => BitVec.ofNat 32 (ys.getD e 0)) (fun _ _ _ _ => accKey_inj hn h0) List.nodup_range acc (List.mem_range.2 hlt)
  rwa [hdiv, hmod] at h

/-- An entry that is over no longer runs; tiles and bytes are as before (R317). -/
theorem entryOver_spec (s : State) (core : Nat) (o : MmaOp) : let t := s.entryOver core o
    SameBytes s t ∧ (t.core core).loomRun = none ∧ (t.core core).acc = (s.core core).acc := by
  unfold State.entryOver
  dsimp only
  split
  · exact ⟨mapCore_bytes s core (by exact fun _ => rfl), by simp, by simp⟩
  · exact ⟨(mapCore_bytes s core (by exact fun _ => rfl)).trans (mapWeft_quiet _ _ _ fun l => by split <;> rfl).1, by simp, by simp⟩

/-- The core when the outputs of an entry stand in its tile (R198). -/
def Core.withOutputs (c : Core) (o : MmaOp) (ys : List Nat) : Core :=
  { c with
    acc := (List.range (o.m * o.n)).foldl (fun t e =>
      put (accKey o.tile (e / o.n) (e % o.n)) (BitVec.ofNat 32 (ys.getD e 0)) t) c.acc
    accBad := clearBad o.tile o.m o.n c.accBad }

theorem exec_loomEntryComplete {s : State} {core : Nat} {o : MmaOp} {ys : List Nat}
    (hrun : (s.core core).loomRun = some o) (hend : (s.core core).loomEnd ≤ (s.core core).cyc)
    (hys : s.product o core (startAcc s core o) = .ok ys) (htaint : o.taint = false) (hpoison : s.opPoison o core = false)
    (hbad : (s.core core).badElement o = none) (hn : o.n ≤ 32) :
    ∃ t, exec (.loomEntryComplete core) s = .next t ∧ SameBytes s t ∧ (t.core core).loomRun = none ∧
      ∀ i j, i < o.m → j < o.n →
        lookD (accKey o.tile i j) (0 : W32) (t.core core).acc = BitVec.ofNat 32 (ys.getD (i * o.n + j) 0) := by
  have hexec : exec (.loomEntryComplete core) s =
      .next (((s.opFetch o core).mapCore core (·.withOutputs o ys)).entryOver core o) := by
    show execLoomEntryComplete core s = _
    have hprod : s.product o core (fun i j => if o.zero then Fl.fin false 0 0
      else f32Fmt.decode (lookD (accKey o.tile i j) (0 : W32) (s.core core).acc).toNat) = .ok ys := hys
    simp only [execLoomEntryComplete, hrun, Nat.not_lt.2 hend, if_false, hbad, hprod, htaint, hpoison, Bool.or_self,
      Bool.false_eq_true, Core.withOutputs]
  obtain ⟨hbytes, hover, hacc⟩ := entryOver_spec ((s.opFetch o core).mapCore core (·.withOutputs o ys)) core o
  have hwrites := mapCore_bytes (s.opFetch o core) core (f := (·.withOutputs o ys)) (by exact fun _ => rfl)
  refine ⟨_, hexec, ((opFetch_only s o core).bytes.trans hwrites).trans hbytes, hover, fun i j hi hj => ?_⟩
  rw [hacc, core_mapCore, if_pos rfl]
  exact tile_outputs hn hi hj ys _

end Sys2Proof.Machine
end

section
/-!
Declared bursts, samples and droops (O51).
-/
namespace Sys2Proof.Machine
open Sys2Proof.Claims

section
variable {s : State} {core : Nat}

/-- A declaration whose start has come starts, in the place of those of its context that had started (R326). -/
theorem exec_declarationStart {d : Decl} (hd : d ∈ (s.core core).decls) (hstarted : d.started = false)
    (hstart : d.start ≤ (s.core core).cyc) :
    ∃ t, exec (.declarationStart core d.ctx) s = .next t ∧ SameBytes s t ∧ { d with started := true } ∈ (t.core core).decls ∧
      ∀ e ∈ (t.core core).decls, e.ctx = d.ctx → e.start ≤ (s.core core).cyc → e.started = true := by
  have hdue : ((s.core core).decls.any fun e => e.ctx = d.ctx && !e.started && e.start ≤ (s.core core).cyc) = true :=
    List.any_eq_true.2 ⟨d, hd, by simp [hstarted, hstart]⟩
  refine ⟨_, rfl, ?_⟩
  rw [State.when, if_pos hdue, core_mapCore, if_pos rfl]
  refine ⟨mapCore_bytes s core (by exact fun _ => rfl), ?_, fun e he hctx hcome => ?_⟩
  · exact List.mem_map.2 ⟨d, List.mem_filter.2 ⟨hd, by simp [hstarted]⟩, by simp [hstarted, hstart]⟩
  · obtain ⟨x, hx, rfl⟩ := List.mem_map.1 he
    obtain ⟨-, hkept⟩ := List.mem_filter.1 hx
    by_cases hx' : (decide (x.ctx = d.ctx) && !x.started && decide (x.start ≤ (s.core core).cyc)) = true
    · rw [if_pos hx']
    · rw [if_neg hx'] at hctx hcome
      exact absurd (by simpa [hctx, hcome] using hkept) hx'

/-- A declaration leaves when its time is over (R326). -/
theorem exec_declarationExpiry (ctx : Nat) :
    ∃ t, exec (.declarationExpiry core ctx) s = .next t ∧ SameBytes s t ∧
      ∀ e, e ∈ (t.core core).decls ↔ e ∈ (s.core core).decls ∧
        ¬(e.ctx = ctx ∧ e.started = true ∧ e.start + 2 ^ e.len ≤ (s.core core).cyc) := by
  refine ⟨_, rfl, mapCore_bytes s core (by exact fun _ => rfl), fun e => ?_⟩
  rw [core_mapCore, if_pos rfl, List.mem_filter]
  simp only [Bool.not_eq_true', ← Bool.not_eq_true, Bool.and_eq_true, decide_eq_true_eq, and_assoc]

theorem exec_droopEvent (hc : core < Config.cores) :
    ∃ t, exec (.droopEvent core) s = .next t ∧ SameBytes s t ∧
      (t.core core).droops = (s.core core).droops ++ [0] := by
  refine ⟨_, rfl, ?_⟩
  simp only [State.when, hc, decide_true, if_true]
  exact ⟨mapCore_bytes s core (by exact fun _ => rfl), by simp⟩

/-- A pass over distinct cores changes each by its own function. -/
theorem core_foldl_mapCore (f : Nat → Core → Core) {cs : List Nat} (hcs : cs.Nodup) (c : Nat) (s : State) :
    (cs.foldl (fun s c => s.mapCore c (f c)) s).core c = if c ∈ cs then f c (s.core c) else s.core c := by
  induction cs generalizing s with
  | nil => rfl
  | cons k cs ih =>
    obtain ⟨hk, hnodup⟩ := List.nodup_cons.1 hcs
    rw [List.foldl_cons, ih hnodup, core_mapCore]
    by_cases h : c = k
    · simp [h, hk]
    · simp [h]

theorem foldl_mapCore_bytes {f : Nat → Core → Core} (hf : ∀ k c, (f k c).spad = c.spad) (cs : List Nat) (s : State) :
    SameBytes s (cs.foldl (fun s c => s.mapCore c (f c)) s) := by
  induction cs generalizing s with
  | nil => exact ⟨fun _ => rfl, fun _ _ => rfl⟩
  | cons k cs ih => exact (mapCore_bytes s k (hf k)).trans (ih _)

theorem nodup_eraseDups : ∀ xs : List Nat, xs.eraseDups.Nodup
  | [] => by simp
  | x :: xs => by
    rw [List.eraseDups_cons, List.nodup_cons, List.mem_eraseDups]
    exact ⟨by simp, nodup_eraseDups _⟩
  termination_by xs => xs.length
  decreasing_by exact Nat.lt_succ_of_le (List.length_filter_le ..)

/-- A sample stores the temperature that was read of a core, and ages its droops (R155). -/
theorem exec_thermalSample {readings : List (Nat × Nat)} {temp : Nat} (hc : core < Config.cores)
    (hread : readings.find? (fun r => decide (r.1 = core)) = some (core, temp)) :
    ∃ t, exec (.thermalSample readings) s = .next t ∧ SameBytes s t ∧ t.core core = (s.core core).sample temp := by
  have hmem : core ∈ (s.cores.map (·.1) ++ (readings.map (·.1)).filter (· < Config.cores)).eraseDups := by
    rw [List.mem_eraseDups]
    refine List.mem_append_right _ (List.mem_filter.2 ⟨List.mem_map.2 ⟨_, List.mem_of_find?_eq_some hread, rfl⟩, ?_⟩)
    exact decide_eq_true hc
  refine ⟨_, rfl, foldl_mapCore_bytes (f := fun c x => x.sample _) (by exact fun _ _ => rfl) _ s, ?_⟩
  rw [core_foldl_mapCore (fun c x => x.sample _) (nodup_eraseDups _), if_pos hmem]
  simp [hread]

end

end Sys2Proof.Machine
end

section
/-!
Tile tasks: records met, handed to a loom, and ended with their outputs written (O51).
-/
namespace Sys2Proof.Machine
open Sys2Proof.Claims

/-! ### Records whose checks pass (R145) -/

/-- Where every check passes, no record fails. -/
theorem taskFails_none (s : State) (m key idx : Nat) (k : Task) {cs : List (Nat × Acc × Check)}
    (h : AllPass (cs.map (·.2.2))) : s.taskFails m key idx k cs = none := by
  have hfind : (cs.find? fun e => match e.2.2 with | .ok _ _ => false | _ => true) = none := by
    rw [List.find?_eq_none]
    intro e he
    obtain ⟨g, w, hok⟩ := h _ (List.mem_map.2 ⟨e, he, rfl⟩)
    rw [hok]
    exact Bool.false_ne_true
  unfold State.taskFails
  split
  · rfl
  all_goals next heq => exact absurd (heq.symm.trans hfind) (by simp)

/-- A queue in which record idx was replaced. -/
theorem setTask_some (s : State) (m key idx : Nat) (k : Task) :
    lookD key [] ((s.setTask m key idx (some k)).meadow m).queues = (lookD key [] (s.meadow m).queues).set idx k := by
  simp [State.setTask]

/-- A queue that record idx has left. -/
theorem setTask_none (s : State) (m key idx : Nat) :
    lookD key [] ((s.setTask m key idx none).meadow m).queues = (lookD key [] (s.meadow m).queues).eraseIdx idx := by
  simp [State.setTask]

theorem CachesOnly.meadow {s t : State} (h : CachesOnly s t) (m : Nat) : t.meadow m = s.meadow m := by
  rw [h]
  rfl

theorem all_zip_map {α β : Type} {f : α → β} {p : α × β → Bool} {xs : List α} (h : ∀ x ∈ xs, p (x, f x) = true) :
    (xs.zip (xs.map f)).all p = true := by
  rw [← List.map_prod_left_eq_zip, List.all_map, List.all_eq_true]
  exact h

/-- The scheduler finds a record's counters arrived (R145). -/
theorem exec_counterRecheck {s : State} {m tenant queue idx : Nat} {k : Task}
    (hk : (lookD (8 * tenant + queue) [] (s.meadow m).queues)[idx]? = some k) (hpark : k.parkSeq = none)
    (hmet : s.taskMet k.agent ((taskWaits k.record).map fun w => s.taskCheck k.agent .block w.1) = true)
    (hcount : ∀ w ∈ taskWaits k.record, ∃ g x, (s.taskCheck k.agent .block w.1).2.2 = .ok g x ∧
      (leNat (s.homeRead k.agent g 4) + 2 ^ 16 - w.2) % 2 ^ 16 < 2 ^ 15) :
    ∃ t, exec (.counterRecheck m tenant queue idx) s = .next t ∧ SameBytes s t ∧
      (lookD (8 * tenant + queue) [] (t.meadow m).queues)[idx]? = some { k with met := true } := by
  have hpass : AllPass (((taskWaits k.record).map fun w => s.taskCheck k.agent .block w.1).map (·.2.2)) := by
    intro c hc
    obtain ⟨e, he, rfl⟩ := List.mem_map.1 hc
    obtain ⟨w, hw, rfl⟩ := List.mem_map.1 he
    obtain ⟨g, x, hok, -⟩ := hcount w hw
    exact ⟨g, x, hok⟩
  refine ⟨_, rfl, ?_⟩
  simp only [hk, hpark, hmet, taskFails_none s m _ idx k hpass, Option.isSome_none, Bool.not_true, Bool.or_self,
    Bool.false_eq_true, if_false]
  rw [all_zip_map fun w hw => ?_]
  · generalize hu : List.foldl _ s _ = u
    have hcaches : CachesOnly s u := hu ▸ caches_foldl _ (fun t e => by
      split
      · exact reached_caches ..
      · exact .refl t) _ s
    refine ⟨hcaches.bytes.trans ⟨fun _ => rfl, fun _ _ => rfl⟩, ?_⟩
    rw [setTask_some, hcaches.meadow, List.getElem?_set_self (List.getElem?_eq_some_iff.1 hk).1]
  · obtain ⟨g, x, hok, hle⟩ := hcount w hw
    rw [hok]
    exact decide_eq_true hle

/-! ### A record handed to a free loom (R145, R146) -/

theorem keepWalk_meadow (s : State) (core : Nat) (w : WalkRes) (m : Nat) : (s.keepWalk core w).meadow m = s.meadow m := by
  obtain ⟨u, hu, h⟩ := keepWalk_only s core w
  rw [h]
  exact hu.meadow m

/-- A pass of walks that are kept changes no byte and no meadow. -/
theorem foldl_keeps {α : Type} {f : State → α → State}
    (hf : ∀ s x, SameBytes s (f s x) ∧ ∀ m, (f s x).meadow m = s.meadow m) (xs : List α) (s : State) :
    SameBytes s (xs.foldl f s) ∧ ∀ m, (xs.foldl f s).meadow m = s.meadow m := by
  induction xs generalizing s with
  | nil => exact ⟨⟨fun _ => rfl, fun _ _ => rfl⟩, fun _ => rfl⟩
  | cons x xs ih =>
    obtain ⟨hbytes, hmeadow⟩ := hf s x
    obtain ⟨hbytes', hmeadow'⟩ := ih (f s x)
    exact ⟨hbytes.trans hbytes', fun m => (hmeadow' m).trans (hmeadow m)⟩

theorem startTask_spec (s : State) (core : Nat) (k : Task) : let t := s.startTask core k
    SameBytes s t ∧ (t.core core).task = some k ∧ ∀ m, t.meadow m = s.meadow m := by
  obtain ⟨hbytes, hcore, hmeadows⟩ : _ ∧ (∀ c, (s.startTask core k).core c = _) ∧ (s.startTask core k).meadows = _ :=
    uncovered_if _ _ _ _ _ _
  refine ⟨(mapCore_bytes s core (by exact fun _ => rfl)).trans hbytes, ?_, fun m => ?_⟩
  · rw [hcore core]
    simp
  · unfold State.meadow
    rw [hmeadows]
    rfl

/-- A free loom takes the record that is next (R145). -/
theorem exec_taskDispatch {s : State} {core tenant key idx : Nat} {k : Task} (hfree : s.loomFree core = true)
    (hnext : ((List.range 16).map fun i => ((s.meadow (meadowOf core)).rr + 1 + i) % 16).findSome?
      (fun n => ((s.meadow (meadowOf core)).pick n).map fun p => (n, p)) = some (tenant, key, idx, k))
    (hmet : s.taskMet k.agent (s.taskChecks k) = true) (hpass : AllPass ((s.taskChecks k).map (·.2.2))) :
    ∃ t, exec (.taskDispatch core) s = .next t ∧ SameBytes s t ∧
      (t.core core).task = some k ∧ (t.meadow (meadowOf core)).rr = tenant ∧
      lookD key [] (t.meadow (meadowOf core)).queues = (lookD key [] (s.meadow (meadowOf core)).queues).eraseIdx idx := by
  refine ⟨_, rfl, ?_⟩
  simp only [hfree, hnext, hmet, taskFails_none s (meadowOf core) key idx k hpass, Bool.not_true, Bool.false_eq_true,
    if_false]
  generalize hu : List.foldl _ (s.setTask (meadowOf core) key idx none) _ = u
  obtain ⟨hbytes, hmeadow⟩ : SameBytes (s.setTask (meadowOf core) key idx none) u ∧ ∀ m, u.meadow m = _ :=
    hu ▸ foldl_keeps (fun t e => by
      split
      · exact ⟨keepWalk_bytes .., keepWalk_meadow _ _ _⟩
      · exact ⟨⟨fun _ => rfl, fun _ _ => rfl⟩, fun _ => rfl⟩) _ _
  obtain ⟨hstart, htask, hqueues⟩ := startTask_spec (u.setMeadow (meadowOf core) { u.meadow (meadowOf core) with rr := tenant })
    core k
  refine ⟨SameBytes.trans (t := u) hbytes hstart, htask, ?_, ?_⟩
  · rw [hqueues, meadow_setMeadow_same]
  · rw [hqueues, meadow_setMeadow_same, hmeadow]
    exact setTask_none ..

/-! ### A task ends (R146, R147) -/

theorem refresh_task (s : State) (core asid : Nat) (g : Tgt) (n c : Nat) :
    ((s.refresh core asid g n).core c).task = (s.core c).task := by
  unfold State.refresh
  split
  · rw [core_mapCore]
    split
    · next h => rw [h]
    · rfl
  · rfl

theorem testWaiter_task (s : State) (id c : Nat) : ((s.testWaiter id).core c).task = (s.core c).task := by
  unfold State.testWaiter
  split
  · split
    · split
      · exact refresh_task ..
      · rfl
    · rfl
  · rfl

theorem wake_task (s : State) (c : Nat) : (s.wake.core c).task = (s.core c).task := by
  unfold State.wake
  generalize s.reqs.filter _ = rs
  induction rs generalizing s with
  | nil => rfl
  | cons r rs ih => exact (ih _).trans (testWaiter_task ..)

theorem homeRead_mem_length (s : State) (g : Agent) (pa : Nat) (o : PageKind) (n : Nat) :
    (s.homeRead g (.mem pa o) n).length = n := by
  cases o <;> simp [State.homeRead, State.sideGets, State.homeGets]

/-- Outputs that no store has met are the task's (R147). -/
theorem outputMix_unmet {k : Task} (hpast : k.past = []) (s : State) (pa : Nat) (o : PageKind) (va : Nat) (bs : List Byte) :
    s.outputMix k (.mem pa o) va bs = bs := by
  have hlen := homeRead_mem_length s k.agent pa o bs.length
  unfold State.outputMix
  simp only [hpast, List.any_nil, Bool.false_and, Bool.false_eq_true, if_false]
  rw [show (fun e : Nat × Byte × Byte => e.2.1) = Prod.fst ∘ Prod.snd from rfl, ← List.map_map,
    List.map_snd_zip (by simp [hlen]), List.map_fst_zip (by simp [hlen])]

/-- An FP32 output that no store has met is written at its Home. -/
theorem putOutput_mem {s : State} {k : Task} {va pa : Nat} {o : PageKind} {wk : WalkRes} (code : Nat)
    (hmode : taskMode k.record = 0) (hpast : k.past = [])
    (hcheck : (s.taskCheck k.agent .write va).2.2 = .ok (.mem pa o) wk) :
    (s.putOutput k va code).mem = mwrite s.mem (local46 pa) (leBytes 4 code) := by
  have hput : s.putOutput k va code =
      (s.taintVa k.agent.asid va (.mem pa o) (leBytes 4 code)).homePut k.agent.asid (.mem pa o) (leBytes 4 code) := by
    simp [State.putOutput, hmode, hcheck, outputMix_unmet hpast]
  rw [hput, show State.homePut _ _ _ _ = _ from homePut_mem ..]
  simp

/-- A task whose pages still translate ends: its loom runs none, and its outputs are written (R146). -/
theorem exec_taskComplete {s : State} {core : Nat} {k : Task} {ys : List Nat} (htask : (s.core core).task = some k)
    (hend : (s.core core).loomEnd ≤ (s.core core).cyc) (hmet : s.taskMet k.agent (s.taskChecks k) = true)
    (hpass : AllPass ((s.taskChecks k).map (·.2.2))) (hys : s.taskProduct k = .ok ys) :
    ∃ t, exec (.taskComplete core) s = .next t ∧ (t.core core).task = none ∧
      ∀ pa o w, taskM k.record = 1 → taskN k.record = 1 → taskMode k.record = 0 → taskSig k.record = 0 →
        k.past = [] → s.opPoison k.op k.agent.core = false →
        ((s.opFetch k.op k.agent.core).taskCheck k.agent .write (tk k.record 16 8)).2.2 = .ok (.mem pa o) w →
        Wrote s t (local46 pa) (leBytes 4 (ys.getD 0 0)) := by
  have hlost : s.taskLost core k = none := by
    unfold State.taskLost
    exact Option.map_eq_none_iff.2 (taskFails_none _ _ _ _ k hpass)
  refine ⟨_, rfl, ?_⟩
  simp only [htask, Nat.not_lt.2 hend, hmet, hlost, hys, decide_false, Bool.not_true, Bool.or_self, Bool.false_eq_true,
    if_false]
  refine ⟨?_, fun pa o w hm hn hmode hsig hpast hpoison hcheck => wrote_wr ?_⟩
  · rw [wake_task]
    simp [State.endTask]
  · have hput := putOutput_mem (ys.getD 0 0) hmode hpast hcheck
    rw [(opFetch_only ..).mem] at hput
    simpa [State.signal, State.endTask, State.wr, hm, hn, hmode, hsig, hpoison] using hput

/-- Settles O51: each step by its own rule; the steps of engine queues are those of the engines' own events. -/
theorem loomAndTasksComplete : Obligations.LoomAndTasksComplete := by
  intro s core
  refine ⟨fun a b rest hq hrun htask => exec_loomEntryBegin_oprdy hrun htask hq,
    fun o rest hq hrun htask hfaults hdecls hpass i hi => ?_,
    fun o ys hrun hend hys htaint hpoison hbad _ hn => exec_loomEntryComplete hrun hend hys htaint hpoison hbad hn,
    fun d hd hstarted hstart => exec_declarationStart hd hstarted hstart, exec_declarationExpiry,
    fun readings temp hc hread => exec_thermalSample hc hread, exec_droopEvent,
    fun m tenant queue idx k hk hpark hmet hcount => exec_counterRecheck hk hpark hmet hcount,
    fun tenant key idx k hfree hnext hmet hpass => exec_taskDispatch hfree hnext hmet hpass,
    fun k ys htask hend hmet hpass hys => exec_taskComplete htask hend hmet hpass hys,
    fun a b k => ⟨rfl, rfl, rfl, rfl, rfl, rfl, rfl⟩⟩
  have hexec : exec i s = .next (s.startEntry core o) := by
    simp only [List.mem_cons, List.not_mem_nil, or_false] at hi
    rcases hi with rfl | rfl <;> exact exec_loomEntryBegin_mma hrun htask hq hfaults hdecls hpass
  obtain ⟨hbytes, hruns, hqueue, hstop⟩ := startEntry_spec s core o
  exact ⟨_, hexec, hbytes, hruns, by rw [hqueue, hq]; rfl, hstop⟩

end Sys2Proof.Machine
end

section
/-!
Loads (O43): the place that a load takes in L1 can cost a peer's dirty byte, and the loss is recorded in memory.
-/
namespace Sys2Proof.Machine
open Sys2Proof.Claims

/-! ### The record of a loss (R11, R359) -/

/-- Where the next record of the error log lies. -/
def State.nextRecord (s : State) : Nat := local46 (s.mgmt 0x30 + 32 * (s.mgmt 0x40 % max 1 (s.mgmt 0x38)))

/-- A record has its TYPE in memory, after the sequence number. -/
theorem errorRecord_type (s : State) (ty tenant level core detail addr aux : Nat) :
    mget (s.errorRecord ty tenant level core detail addr aux).mem (s.nextRecord + 8) = BitVec.ofNat 8 ty := by
  unfold State.errorRecord
  rw [interrupt_mem]
  refine (mget_mwrite_inside _ _ _ 8 ?_).trans ?_
  · simp [leBytes_length]
  · simp [leBytes]

/-- No tracked store has drained: a write-back performs nothing for one. -/
theorem performed_queued {s : State} (hqueued : ∀ q ∈ s.reqs, q.op = .store → s.queued q = true) (core : Nat)
    (adrs : List Nat) : s.performed core adrs = s := by
  have hnone : (s.reqs.filter fun r => r.agent.core = core && r.op = .store && !s.queued r) = [] := by
    refine List.filter_eq_nil_iff.mpr fun q hq => ?_
    by_cases hop : q.op = .store
    · simp [hqueued q hq hop]
    · simp [hop]
  unfold State.performed
  rw [hnone, List.foldl_nil]

/-- A lost byte of a device that cannot be reached, of no store that has drained: a record tells of the loss. -/
theorem discarded_queued {s : State} (hqueued : ∀ q ∈ s.reqs, q.op = .store → s.queued q = true) (core : Nat)
    {e : Nat × ViewByte} {lost : Tab ViewByte} (hcut : s.cutOff (.peer (e.1 - 2 ^ 54) .rc) = true) :
    s.discarded core (e :: lost) =
      s.errorRecord 4 (s.unsaid 0) 8 core (s.unsaid 1) (e.1 - 2 ^ 54) (s.unsaid 3) := by
  have hnone : (s.reqs.filter fun r => r.agent.core = core && r.op = .store && !s.queued r &&
      r.parts.any fun p => (e :: lost).any fun e => p.tgt.base ≤ e.1 && e.1 < p.tgt.base + r.size) = [] := by
    refine List.filter_eq_nil_iff.mpr fun q hq => ?_
    by_cases hop : q.op = .store
    · simp [hqueued q hq hop]
    · simp [hop]
  unfold State.discarded
  simp only [hnone, hcut, if_true]

/-- The core once dirty bytes of its view at some addresses are written back: they stay as clean copies (R102). -/
def Core.cleaned (c : Core) (adrs : List Nat) : Core :=
  { c with view := c.view.map fun e => if adrs.contains e.1 then (e.1, { e.2 with dirty := false }) else e }

/-- A dirty byte of a device that cannot be reached, of no store that a request still tracks: its write-back leaves a
record (R11). -/
theorem writeBackBytes_lost {s : State} {core : Nat} {adrs : List Nat} {a : Nat} {b : ViewByte}
    (hdirty : ((s.core core).view.filter fun e => adrs.contains e.1 && e.2.dirty) = [(a, b)]) (hpeer : 2 ^ 54 ≤ a)
    (hcut : s.cutOff (.peer (a - 2 ^ 54) .rc) = true) (hqueued : ∀ q ∈ s.reqs, q.op = .store → s.queued q = true) :
    mget (s.writeBackBytes core adrs).mem (s.nextRecord + 8) = 4 := by
  have hlost : s.peerLost (.peer (a - 2 ^ 54) .rc) = true := by rw [State.peerLost, hcut, Bool.true_or]
  unfold State.writeBackBytes
  simp only [hdirty, List.isEmpty_cons, Bool.false_eq_true, if_false, List.filter_cons, List.filter_nil, hpeer, hlost,
    decide_true, Bool.and_self, if_true, Nat.not_lt.mpr hpeer, decide_false, State.performDirty, List.foldl_nil, wake_mem]
  change mget (((s.mapCore core (·.cleaned adrs)).performed core _).discarded core [(a, b)]).mem _ = 4
  have ht : ∀ q ∈ (s.mapCore core (·.cleaned adrs)).reqs, q.op = .store →
      (s.mapCore core (·.cleaned adrs)).queued q = true := hqueued
  rw [performed_queued ht, discarded_queued ht core (e := (a, b)) hcut]
  exact errorRecord_type (s.mapCore core (·.cleaned adrs)) 4 _ _ _ _ _ _

/-! ### A load that meets one -/

/-- A load of four bytes, booked as a hit. -/
def crowdedLoad : Req :=
  { (default : Req) with
    id := 2
    op := .load false
    size := 4
    parts := [⟨0, 2 ^ 20, 0, 0, 0, 0, .mem (2 ^ 20) .rc⟩]
    phase := .booked
    level := 1 }

/-- Core 0 holds eight lines in one set of L1, the last used of them a dirty byte of device 1, which no route names. Its
weft 0 has a store queued and `crowdedLoad`, a load of the same bytes, which that store answers. -/
def crowdedSet : State :=
  { cores := [(0, {
      view := ((List.range 7).map fun i => (2 ^ 15 * (i + 1), ⟨0, false, false, 0, false⟩)) ++
        [(2 ^ 54 + 2 ^ 46, ⟨1, true, false, 0, false⟩)]
      lru := ((List.range 7).map fun i => 2 ^ 15 * (i + 1)) ++ [2 ^ 54 + 2 ^ 46] })]
    wefts := [(0, { sq := [⟨0, .mem (2 ^ 20) .rc, leBytes 4 7, false, 0, false, 1, 2 ^ 20⟩] })]
    reqs := [
      { (default : Req) with
        id := 1
        op := .store
        size := 4
        parts := [⟨0, 2 ^ 20, 7, 15, 0, 0, .mem (2 ^ 20) .rc⟩]
        phase := .waiting },
      crowdedLoad]
    hub := { mgmt := [(0x30, 2 ^ 30), (0x38, 256)] } }

/-- The state in which the load's line takes its place: the load has its bytes. -/
def crowdedTaken : State :=
  crowdedSet.setReq { crowdedLoad with
    satisfied := true
    parts := crowdedLoad.parts.map fun p => { p with val := crowdedSet.loadVal crowdedLoad p } }

/-- The line of device 1 is the least recently used of the load's set: it makes room. -/
theorem crowdedTaken_useL1 : crowdedTaken.useL1 0 (2 ^ 20) =
    some ((crowdedTaken.evictL1 0 (2 ^ 54 + 2 ^ 46)).mapCore 0 fun c =>
      { c with lru := 2 ^ 20 :: c.lru.filter (· != 2 ^ 20) }) :=
  rfl

/-- The step of the load changes memory by the eviction of that line alone. -/
theorem crowdedSet_satisfy_mem : (crowdedSet.satisfy crowdedLoad).mem =
    (crowdedTaken.writeBackBytes 0 ((List.range 128).map (2 ^ 54 + 2 ^ 46 + ·))).mem := by
  change (match crowdedTaken.useL1 0 (2 ^ 20) with
    | some t => t
    | none => crowdedTaken.refresh 0 0 (.mem (2 ^ 20) .rc) 4).mem = _
  rw [crowdedTaken_useL1]
  rfl

/-- The eviction loses the dirty byte: the record of the loss is in memory. -/
theorem crowdedSet_satisfy_record : mget (crowdedSet.satisfy crowdedLoad).mem (2 ^ 30 + 8) = 4 := by
  have hqueued : ∀ q ∈ crowdedTaken.reqs, q.op = .store → crowdedTaken.queued q = true := by decide
  rw [crowdedSet_satisfy_mem]
  exact writeBackBytes_lost (s := crowdedTaken) (a := 2 ^ 54 + 2 ^ 46) (b := ⟨1, true, false, 0, false⟩) rfl
    (Nat.le_add_right _ _) rfl hqueued

/-- Refutes O43: a load need not only write back dirty bytes. The load of `crowdedSet` takes the bytes of a queued store
and makes room for its line in L1; the line that leaves holds a dirty byte of a device that cannot be reached, so the
byte is discarded and a record of the loss is written to the error log in memory (R11), at bytes that the view holds
no copy of. -/
theorem not_readsComplete : ¬ Obligations.ReadsComplete := by
  unfold Obligations.ReadsComplete
  intro h
  obtain ⟨hload, -⟩ := h crowdedSet 2 crowdedLoad rfl
  obtain ⟨t, hstep, ⟨hmem, -⟩, -⟩ :=
    hload (.inl rfl) rfl rfl rfl rfl (fun p => leNat (crowdedSet.partBytes crowdedLoad p)) (.inl ⟨⟨false, rfl⟩, rfl⟩)
  have ht : crowdedSet.satisfy crowdedLoad = t := Host.Outcome.next.inj hstep
  have hrecord : mget t.mem (2 ^ 30 + 8) = 4 := ht ▸ crowdedSet_satisfy_record
  have hclear : ∀ e ∈ (crowdedSet.core 0).view, e.1 ≠ 2 ^ 30 + 8 := by decide
  rcases hmem (2 ^ 30 + 8) with hsame | ⟨b, hview, -⟩
  · rw [hrecord] at hsame
    exact absurd hsame (by decide)
  · exact hclear _ hview rfl

end Sys2Proof.Machine
end

section
/-!
Words without the privilege they need (O23).
-/
namespace Sys2Proof.Machine
open Sys2Proof.Claims

section
variable {s : State} (hpriv : s.privOf s.key = false) (w : EngW)
include hpriv

theorem execFresume_unprivileged : execFresume w s = .next (s.raiseAt 0x04 0) := by
  simp [execFresume, hpriv]

theorem execGenbump_unprivileged : execGenbump w s = .next (s.raiseAt 0x04 0) := by
  simp [execGenbump, hpriv]

theorem execTlbinv_unprivileged : execTlbinv w s = .next (s.raiseAt 0x04 0) := by
  simp [execTlbinv, hpriv]

theorem execSnap_unprivileged : execSnap w s = .next (s.raiseAt 0x04 0) := by
  simp [execSnap, hpriv]

/-- ASAVE and AREST share their checks, of which the privilege is the first (R324). -/
theorem tileSave_unprivileged (f : Nat → State) : s.tileSave w f = s.raiseAt 0x04 0 := by
  simp [State.tileSave, hpriv]

end

/-- WRD and WWR share their checks, of which handler mode is the first (R334). -/
theorem otherWeft_outsideHandler {s : State} (hmode : s.cw.hmode = false) (w : EngW) (write : Bool)
    (f : Nat → Nat → State) : s.otherWeft w write f = s.raiseAt 0x04 0 := by
  simp [State.otherWeft, hmode]

/-- Settles O23, word by word. -/
theorem privilegeTraps : Obligations.PrivilegeTraps := by
  refine fun w s => ⟨fun hpriv => ?_, fun hmode => ?_⟩ <;>
    simp only [List.forall_mem_cons, List.not_mem_nil, false_implies, implies_true, and_true]
  · exact ⟨execFresume_unprivileged hpriv w, execGenbump_unprivileged hpriv w, execTlbinv_unprivileged hpriv w,
      execSnap_unprivileged hpriv w, congrArg _ (tileSave_unprivileged hpriv w _),
      congrArg _ (tileSave_unprivileged hpriv w _)⟩
  · exact ⟨congrArg _ (otherWeft_outsideHandler hmode w _ _), congrArg _ (otherWeft_outsideHandler hmode w _ _)⟩

end Sys2Proof.Machine
end

section
/-!
Traps: the handler entered, and the weft frozen where it cannot be (O20, O21).
-/
namespace Sys2Proof.Machine
open Sys2Proof.Claims

/-! ### The lanes that trap (R247) -/

/-- New registers of the window change the register file alone. -/
theorem freshRegs_eq (s : State) (lane stk : Nat) (x : Lane) (ls : List Nat) :
    s.freshRegs lane stk x ls = { x with regs := (s.freshRegs lane stk x ls).regs } := by
  induction ls generalizing x with
  | nil => rfl
  | cons L ls ih =>
    simp only [State.freshRegs]
    rw [ih]

@[simp] theorem slidUp_wb (s : State) (lane stk n : Nat) (x : Lane) : (s.slidUp lane stk n x).wb = x.wb + n := by
  unfold State.slidUp
  dsimp only
  rw [freshRegs_eq]

@[simp] theorem enterLane_wb (s : State) (cause : Nat) (tbase : Word) (stk lane : Nat) (x : Lane) :
    (s.enterLane cause tbase stk lane x).wb = x.wb + 32 := slidUp_wb ..

@[simp] theorem enterLane_pc (s : State) (cause : Nat) (tbase : Word) (stk lane : Nat) (x : Lane) :
    (s.enterLane cause tbase stk lane x).pc = tbase + BitVec.ofNat 64 (64 * cause) := rfl

@[simp] theorem enterLane_wait (s : State) (cause : Nat) (tbase : Word) (stk lane : Nat) (x : Lane) :
    (s.enterLane cause tbase stk lane x).wait = .none := rfl

theorem TimesOnly.pc {x y : Lane} (h : TimesOnly x y) : y.pc = x.pc := by
  rw [show y = _ from h]

theorem TimesOnly.wb {x y : Lane} (h : TimesOnly x y) : y.wb = x.wb := by
  rw [show y = _ from h]

@[simp] theorem weft_endDecision (s : State) (k : Nat) : s.endDecision.weft k = s.weft k := rfl

@[simp] theorem cw_endDecision (s : State) : s.endDecision.cw = s.cw := rfl

/-! ### The registers of a trap (R168, R170) -/

section
variable (s : State) (key cause sub : Nat) (mask : LaneMask) (addr epc : Word) (w : Weft)

/-- The lanes of a weft that a trap suspends: those that neither trap nor have exited (R170). -/
def suspendedBy : List Nat := (w.lanes.map (·.1)).filter fun l => !mask.getLsbD l && !(w.lane l).exited

theorem trapWeft_lane (l : Nat) : (s.trapWeft key cause sub mask addr epc w).lane l =
    if l ∈ suspendedBy mask w then { w.lane l with susp := true } else w.lane l :=
  eachLane_idem _ (suspendedBy mask w) (fun _ x => { x with susp := true }) (fun _ _ => rfl) l

variable {s key cause sub mask addr epc w}

theorem mem_suspendedBy {l : Nat} : l ∈ suspendedBy mask w ↔
    (look l w.lanes).isSome = true ∧ l ∉ lanesOf mask ∧ (w.lane l).exited = false := by
  simp [suspendedBy, mem_lanesOf, look_mem]

/-- Lanes that trap are not suspended. -/
theorem trapWeft_lane_trapping {l : Nat} (hl : l ∈ lanesOf mask) :
    (s.trapWeft key cause sub mask addr epc w).lane l = w.lane l := by
  rw [trapWeft_lane, if_neg fun h => (mem_suspendedBy.mp h).2.1 hl]

/-- A lane that does not trap is suspended, unless it has exited. -/
theorem trapWeft_lane_other {l : Nat} (hl : l ∉ lanesOf mask) (hlisted : (look l w.lanes).isSome = true) :
    (s.trapWeft key cause sub mask addr epc w).lane l =
      if (w.lane l).exited then w.lane l else { w.lane l with susp := true } := by
  rw [trapWeft_lane]
  cases hexit : (w.lane l).exited with
  | true => rw [if_neg fun h => by simp [mem_suspendedBy, hexit] at h, if_pos rfl]
  | false => rw [if_pos (mem_suspendedBy.mpr ⟨hlisted, hl, hexit⟩), if_neg Bool.false_ne_true]

end

/-! ### A trap that its handler takes (R170) -/

section
variable {s s1 : State} {cause sub : Nat} {mask : LaneMask} {addr epc : Word}
  (hmode : s.cw.hmode = false) (htable : s.cw.tbase ≠ 0)
include hmode htable

/-- Outside handler mode and with a handler table the weft does not freeze at once. -/
theorem not_freezesAtOnce : ¬((s.weft s.key).hmode || (s.weft s.key).tbase = 0) = true := by
  have hmode' : (s.weft s.key).hmode = false := hmode
  have htable' : (s.weft s.key).tbase ≠ 0 := htable
  rw [hmode', Bool.false_or, decide_eq_true_eq]
  exact htable'

variable (hwaits : s.slideWaits s.key 32 (lanesOf mask) = false)
include hwaits

/-- With every spill made, the lanes of the mask enter. -/
theorem enterTrap_enters (hspill : s.spillAll s.key 32 epc (lanesOf mask) = (s1, [])) :
    s.enterTrap s.key cause sub mask addr epc = (s1.mapWeft s.key fun w =>
      (s.trapWeft s.key cause sub mask addr epc w).eachLane (lanesOf mask)
        fun l x => s.enterLane cause w.tbase w.stk l x).endDecision := by
  unfold State.enterTrap
  simp only [if_neg (not_freezesAtOnce hmode htable), hwaits, Bool.false_eq_true, if_false, hspill]

/-- With a spill that fails, the lanes below the one that fails enter, and the weft freezes with SPILLFLT. -/
theorem enterTrap_spillFails {s0 : State} {r0 r : Raise} {rs0 : List Raise}
    (hspill : s.spillAll s.key 32 epc (lanesOf mask) = (s0, r0 :: rs0))
    (henter : s.enterUpTo s.key cause s.cw.tbase epc (lanesOf mask) = (s1, some r)) :
    s.enterTrap s.key cause sub mask addr epc =
      (((s1.mapWeft s.key (s.trapWeft s.key cause sub mask addr epc)).freeze s.key 0x16).mapWeft s.key fun w =>
        { w with
          tcause := BitVec.ofNat 64 (setBits w.tcause.toNat 8 8 (if r.cause = 0x16 then r.sub else r.cause))
          taddr := r.addr }).endDecision := by
  unfold State.cw at henter
  unfold State.enterTrap
  simp only [if_neg (not_freezesAtOnce hmode htable), hwaits, Bool.false_eq_true, if_false, hspill, henter]

end

/-- Settles O20: the spills add their requests, and one change of the weft is the rest of the entry. -/
theorem trapEntry : Obligations.TrapEntry := by
  intro s s1 cause sub mask addr epc hmode htable hwaits hspill t
  have hent : Entered s s1 := by simpa [hspill] using spillAll_entered s 32 epc (lanesOf mask)
  have ht : t = _ := enterTrap_enters hmode htable hwaits hspill
  have hcw : t.cw = (s.trapWeft s.key cause sub mask addr epc s1.cw).eachLane (lanesOf mask)
      fun l x => s.enterLane cause s1.cw.tbase s1.cw.stk l x := by
    rw [ht, ← hent.key, cw_endDecision, cw_mapKey]
  obtain ⟨-, -, hothers, hweft, hlanes, -⟩ := id hent
  have htbase : s1.cw.tbase = s.cw.tbase := by rw [hweft]
  refine ⟨hent, by rw [ht]; rfl, fun k hk => ?_, ?_⟩
  · rw [ht, weft_endDecision, weft_mapWeft_other _ hk, hothers k hk]
  · rw [hcw]
    refine ⟨rfl, rfl, rfl, rfl, rfl, rfl, rfl, fun l hl => ?_, fun l hl hlisted => ?_⟩
    · rw [lane_eachLane (lanesOf_nodup mask), if_pos hl, trapWeft_lane_trapping hl]
      exact ⟨by rw [enterLane_pc, htbase], by rw [enterLane_wb, (hlanes l).wb], enterLane_wait ..⟩
    · rw [lane_eachLane (lanesOf_nodup mask), if_neg hl, trapWeft_lane_other hl hlisted]

/-! ### A weft that freezes (R170) -/

/-- A freeze marks the weft, and tells the tenant. -/
theorem freeze_eq (s : State) (key cause : Nat) : s.freeze key cause =
    { s.mapWeft key fun w => { w with ncause := BitVec.ofNat 8 cause, frozen := true } with
      tenants := (s.interrupt (s.gridOf key).tenant 2).tenants } := by
  unfold State.freeze State.interrupt
  split <;> rfl

@[simp] theorem key_freeze (s : State) (key cause : Nat) : (s.freeze key cause).key = s.key := by
  rw [freeze_eq]
  rfl

theorem weft_interrupt (s : State) (tenant v k : Nat) : (s.interrupt tenant v).weft k = s.weft k := by
  unfold State.interrupt
  split <;> rfl

@[simp] theorem weft_freeze_same (s : State) (key cause : Nat) : (s.freeze key cause).weft key =
    { s.weft key with ncause := BitVec.ofNat 8 cause, frozen := true } :=
  (weft_interrupt ..).trans (weft_mapWeft_same ..)

theorem weft_freeze_other {s : State} {key k : Nat} (cause : Nat) (hk : k ≠ key) :
    (s.freeze key cause).weft k = s.weft k :=
  (weft_interrupt ..).trans (weft_mapWeft_other _ hk)

theorem sameBytes_freeze (s : State) (key cause : Nat) : SameBytes s (s.freeze key cause) := by
  rw [freeze_eq]
  exact ⟨fun _ => rfl, fun _ _ => rfl⟩

/-- In handler mode or without a handler the weft freezes at once. -/
theorem enterTrap_freezes {s : State} {cause sub : Nat} {mask : LaneMask} {addr epc : Word}
    (h : s.cw.hmode = true ∨ s.cw.tbase = 0) :
    s.enterTrap s.key cause sub mask addr epc = (s.freeze s.key cause).endDecision := by
  have hfreezes : ((s.weft s.key).hmode || (s.weft s.key).tbase = 0) = true := by
    rw [Bool.or_eq_true, decide_eq_true_eq]
    exact h
  exact if_pos hfreezes

/-! ### Slides of an entry, up to the first that fails (R170) -/

/-- Spills that fail are the lane's own. -/
theorem spillRegs_raise_lane {s t : State} {key lane : Nat} {ls : List Nat} {r : Raise}
    (h : s.spillRegs key lane ls = (t, some r)) : r.lane = lane := by
  induction ls generalizing s with
  | nil => cases h
  | cons L ls ih =>
    simp only [State.spillRegs] at h
    split at h
    · exact ih h
    · cases h
      rfl

/-- A lane whose slide fails is named by what it raises. -/
theorem spillAll_raise_lane {s t : State} {key n l : Nat} {va : Word} {r : Raise} {rs : List Raise}
    (h : s.spillAll key n va [l] = (t, r :: rs)) : r.lane = l := by
  simp only [State.spillAll] at h
  split at h
  · cases h
    rfl
  · split at h
    · cases h
    · next hregs =>
      cases h
      exact spillRegs_raise_lane hregs

/-- Of a list of lanes those below a bound have slid up and stand at the handler's slot for the cause, the others stand
where they stood; no byte and no other weft has changed. -/
def EnteredBelow (s t : State) (slot : Word) (ls : List Nat) (bound : Nat) : Prop :=
  SameBytes s t ∧ t.key = s.key ∧ (∀ k, k ≠ s.key → t.weft k = s.weft k) ∧
    ∀ l, if l ∈ ls ∧ l < bound then (t.cw.lane l).pc = slot ∧ (t.cw.lane l).wb = (s.cw.lane l).wb + 32
      else (t.cw.lane l).pc = (s.cw.lane l).pc ∧ (t.cw.lane l).wb = (s.cw.lane l).wb

/-- Spills move no lane. -/
theorem Entered.enteredBelow {s t : State} (h : Entered s t) (slot : Word) {ls : List Nat} {bound : Nat}
    (hls : ∀ l ∈ ls, bound ≤ l) : EnteredBelow s t slot ls bound := by
  have hkey := h.key
  obtain ⟨-, -, hothers, -, hlanes, -, -, hbytes⟩ := h
  refine ⟨hbytes, hkey, hothers, fun l => ?_⟩
  rw [if_neg fun hl => absurd (hls l hl.1) (by omega)]
  exact ⟨(hlanes l).pc, (hlanes l).wb⟩

/-- The lowest lane enters, then those of the rest below the bound. -/
theorem EnteredBelow.cons {s s1 t : State} {cause : Nat} {tbase : Word} {l : Nat} {ls : List Nat} {bound : Nat}
    (h1 : Entered s s1) (hl : ∀ m ∈ ls, l < m) (hbound : bound ∈ ls)
    (h2 : EnteredBelow (s1.mapWeft s.key fun w => w.setLane l (s.enterLane cause tbase w.stk l (w.lane l))) t
      (tbase + BitVec.ofNat 64 (64 * cause)) ls bound) :
    EnteredBelow s t (tbase + BitVec.ofNat 64 (64 * cause)) (l :: ls) bound := by
  obtain ⟨-, -, hothers, -, hlanes, -, -, hbytes⟩ := id h1
  obtain ⟨hbytes2, hkey2, hothers2, hlanes2⟩ := h2
  rw [← h1.key, cw_mapKey] at hlanes2
  refine ⟨(hbytes.trans (sameBytes_of rfl)).trans hbytes2, hkey2.trans h1.key, fun k hk => ?_, fun m => ?_⟩
  · rw [hothers2 k (by rwa [key_mapWeft, h1.key]), weft_mapWeft_other _ hk, hothers k hk]
  · have hm := hlanes2 m
    by_cases hml : m = l
    · subst hml
      have hrest : m ∉ ls := fun h => absurd (hl m h) (by omega)
      rw [if_neg fun h => hrest h.1, lane_setLane_same, enterLane_pc, enterLane_wb, (hlanes m).wb] at hm
      rw [if_pos ⟨List.mem_cons_self, hl bound hbound⟩]
      exact hm
    · rw [lane_setLane_other _ hml, (hlanes m).pc, (hlanes m).wb] at hm
      simpa [hml] using hm

/-- The slides of an entry, the lanes rising: those below the lane that fails have entered. -/
theorem enterUpTo_spec {s t : State} {cause : Nat} {tbase va : Word} {ls : List Nat} {r : Raise}
    (hls : ls.Pairwise (· < ·)) (h : s.enterUpTo s.key cause tbase va ls = (t, some r)) :
    r.lane ∈ ls ∧ EnteredBelow s t (tbase + BitVec.ofNat 64 (64 * cause)) ls r.lane := by
  induction ls generalizing s with
  | nil => cases h
  | cons l ls ih =>
    obtain ⟨hl, hls⟩ := List.pairwise_cons.mp hls
    have hent := spillAll_entered s 32 va [l]
    simp only [State.enterUpTo] at h
    split at h
    · next s1 hspill =>
      rw [hspill] at hent
      have hkey : (s1.mapWeft s.key fun w =>
          w.setLane l (s.enterLane cause tbase w.stk l (w.lane l))).key = s.key := hent.key
      obtain ⟨hr, hrest⟩ := ih hls (by rwa [hkey])
      exact ⟨List.mem_cons_of_mem _ hr, .cons hent hl hr hrest⟩
    · next s1 r' rs hspill =>
      cases h
      rw [hspill] at hent
      rw [spillAll_raise_lane hspill]
      refine ⟨List.mem_cons_self, hent.enteredBelow _ ?_⟩
      simpa using fun m hm => Nat.le_of_lt (hl m hm)

theorem lanesOf_pairwise (m : LaneMask) : (lanesOf m).Pairwise (· < ·) := List.pairwise_lt_range.filter _

/-- The cause byte of TCAUSE replaced, of a value that the register holds and of one that it cuts. -/
theorem ofNat_setBits_cut (x c : Nat) :
    BitVec.ofNat 64 (setBits (BitVec.ofNat 64 x).toNat 8 8 c) = BitVec.ofNat 64 (setBits x 8 8 c) := by
  apply BitVec.eq_of_toNat_eq
  simp only [BitVec.toNat_ofNat, setBits, bits]
  omega

/-- Settles O21: a freeze marks the weft alone; of an entry that fails the lanes below the failure stand entered. -/
theorem trapFreezes : Obligations.TrapFreezes := by
  intro s cause sub mask addr epc t
  refine ⟨fun hnow => ?_, fun hmode htable hwaits s0 r0 rs0 hspill s1 r henter => ?_⟩
  · have ht : t = (s.freeze s.key cause).endDecision := enterTrap_freezes hnow
    refine ⟨by rw [ht, freeze_eq]; rfl, fun k hk => ?_, ?_⟩ <;> rw [ht]
    · rw [weft_endDecision, weft_freeze_other _ hk]
    · rw [cw_endDecision, State.cw, key_freeze, weft_freeze_same]
      rfl
  · have ht : t = _ := enterTrap_spillFails hmode htable hwaits hspill henter
    obtain ⟨-, hbytes, hkey, hothers, hlanes⟩ := enterUpTo_spec (lanesOf_pairwise mask) henter
    have hcw : t.cw = { s.trapWeft s.key cause sub mask addr epc s1.cw with
        ncause := 0x16
        frozen := true
        tcause := BitVec.ofNat 64 (setBits (256 * sub + cause) 8 8 (if r.cause = 0x16 then r.sub else r.cause))
        taddr := r.addr } := by
      rw [← ofNat_setBits_cut, ht, cw_endDecision, State.cw, key_mapWeft, key_freeze, key_mapWeft, hkey,
        weft_mapWeft_same, weft_freeze_same, weft_mapWeft_same, State.cw, hkey]
      rfl
    refine ⟨?_, fun k hk => ?_, ?_⟩
    · rw [ht]
      exact (hbytes.trans (sameBytes_of rfl)).trans ((sameBytes_freeze _ _ _).trans ⟨fun _ => rfl, fun _ _ => rfl⟩)
    · rw [ht, weft_endDecision, weft_mapWeft_other _ hk, weft_freeze_other _ hk, weft_mapWeft_other _ hk, hothers k hk]
    · have hlane (l : Nat) (hl : l ∈ lanesOf mask) : t.cw.lane l = s1.cw.lane l := by
        rw [hcw]
        exact trapWeft_lane_trapping hl
      refine ⟨by rw [hcw], by rw [hcw], by rw [hcw]; rfl, by rw [hcw]; rfl, by rw [hcw]; rfl, by rw [hcw]; rfl,
        by rw [hcw], by rw [hcw], fun l hl hlow => ?_, fun l hl hhigh => ?_⟩ <;> rw [hlane l hl]
      · simpa [hl, hlow] using hlanes l
      · simpa [Nat.not_lt.mpr hhigh, and_comm] using hlanes l

end Sys2Proof.Machine
end

section
/-!
Writes of control registers (O19).
-/
namespace Sys2Proof.Machine
open Sys2Proof.Claims

/-! ### Values that a check lets through (R263) -/

/-- A value with no bit outside the mask of its register. -/
def Fits (val mask : Nat) : Prop := val &&& mask = val

/-- A write whose check passes has no bit outside the register's fields, ring registers apart. -/
theorem ctrlCheck_fits {s : State} {key n val : Nat} {r : RegRule} (h : s.ctrlCheck key n val = none)
    (hrule : regRule n = some r) (hring : ¬(0x300 ≤ n ∧ n < 0x360)) :
    Fits val (r.priv ||| r.open_ ||| r.ignored) := by
  refine Classical.byContradiction fun hfits => ?_
  have hring' : (decide (0x300 ≤ n) && decide (n < 0x360)) = false := by simpa using hring
  simp [State.ctrlCheck, hrule, hring', show val &&& _ ≠ val from hfits] at h

theorem Fits.le {val mask : Nat} (h : Fits val mask) : val ≤ mask :=
  calc val = val &&& mask := h.symm
    _ ≤ mask := Nat.and_le_right

/-- A register of a word holds the whole value. -/
theorem Fits.toNat_ofNat {val mask : Nat} (h : Fits val mask) (hmask : mask < 2 ^ 64) :
    (BitVec.ofNat 64 val).toNat = val := by
  rw [BitVec.toNat_ofNat, Nat.mod_eq_of_lt (Nat.lt_of_le_of_lt h.le hmask)]

/-- A register cut to its mask holds the whole value. -/
theorem Fits.toNat_cut {val mask : Nat} (h : Fits val mask) (hmask : mask < 2 ^ 64) :
    (BitVec.ofNat 64 val &&& BitVec.ofNat 64 mask).toNat = val := by
  rw [BitVec.toNat_and, h.toNat_ofNat hmask, BitVec.toNat_ofNat, Nat.mod_eq_of_lt hmask, h]

/-! ### Which write a register takes (R264) -/

section
variable (s : State) (key val : Nat) {n : Nat}

/-- Trap registers and accumulator owners are written at once. -/
theorem regDeferred_false (h : (0x010 ≤ n ∧ n ≤ 0x017) ∨ (0x200 ≤ n ∧ n < 0x240)) : regDeferred n = false := by
  simp only [regDeferred, Bool.or_eq_false_iff, Bool.and_eq_false_iff, decide_eq_false_iff_not]
  omega

theorem writeCtrl_trap (h : 0x010 ≤ n ∧ n ≤ 0x017) :
    s.writeCtrl key n val = s.mapWeft key fun w => w.writeTrap n val := by
  have hdirect := regDeferred_false (.inl h)
  have hstk : ¬(n = 0x008 ∨ n = 0x009) := by omega
  simp [State.writeCtrl, State.writeDirect, hdirect, hstk, h]

theorem writeCtrl_fold :
    s.writeCtrl key 0x040 val = s.mapWeft key fun w => { w with foldSel := BitVec.ofNat 6 (val / 2 ^ 32) } := rfl

theorem writeCtrl_acown (h : 0x200 ≤ n ∧ n < 0x240) : s.writeCtrl key n val =
    s.mapCore (key / 64) fun c => { c with acown := put (n - 0x200) (BitVec.ofNat 64 val) c.acown } := by
  have hdirect := regDeferred_false (.inr h)
  have hstk : ¬(n = 0x008 ∨ n = 0x009) := by omega
  have htrap : ¬(0x010 ≤ n ∧ n ≤ 0x017) := by omega
  have hfold : n ≠ 0x040 := by omega
  simp [State.writeCtrl, State.writeDirect, hdirect, hstk, htrap, hfold, h]

theorem writeCtrl_deferred (h : regDeferred n = true) : s.writeCtrl key n val =
    { s with
      pwrites := s.pwrites ++ [(⟨s.nextId, n, key / 64, some key, s.ctxOf key, BitVec.ofNat 64 val⟩ : PWrite)]
      nextId := s.nextId + 1 }.mapWeft key fun w => { w with hold := .pwrite s.nextId } :=
  if_pos h

end

/-! ### What a write leaves alone -/

/-- Of the trap registers only TSTAT reaches the lanes: it can release them (R172). -/
theorem writeTrap_lanes (w : Weft) {n : Nat} (val : Nat) (hn : n ≠ 0x016) : (w.writeTrap n val).lanes = w.lanes := by
  unfold Weft.writeTrap
  simp only [hn, if_false]
  (repeat' split) <;> rfl

section
variable (s : State) (key n val : Nat)

theorem sameBytes_writeDirect : SameBytes s (s.writeDirect key n val) := by
  unfold State.writeDirect
  split
  · exact ⟨fun _ => rfl, fun _ _ => rfl⟩
  split
  · exact sameBytes_of rfl
  split
  · exact sameBytes_of rfl
  split
  · exact mapCore_bytes s _ fun _ => rfl
  split
  · exact mapCore_bytes s (key / 64)
      (f := fun c => c.setRing ((n - 0x300) / 6) { s.ring (key / 64) ((n - 0x300) / 6) with acl := BitVec.ofNat 4 val })
      fun _ => rfl
  · exact ⟨fun _ => rfl, fun _ _ => rfl⟩

theorem sameBytes_writeCtrl : SameBytes s (s.writeCtrl key n val) := by
  unfold State.writeCtrl
  split
  · exact ⟨fun _ => rfl, fun _ _ => rfl⟩
  · exact sameBytes_writeDirect ..

theorem key_writeCtrl : (s.writeCtrl key n val).key = s.key := by
  unfold State.writeCtrl State.writeDirect
  (repeat' split) <;> rfl

variable {n}

theorem writeDirect_lanes (hn : n ≠ 0x016) : ((s.writeDirect key n val).weft key).lanes = (s.weft key).lanes := by
  unfold State.writeDirect
  split
  · rfl
  split
  · rw [weft_mapWeft_same]
    exact writeTrap_lanes _ val hn
  split
  · rw [weft_mapWeft_same]
  (repeat' split) <;> rfl

/-- No write but that of TSTAT reaches the lanes. -/
theorem writeCtrl_lanes (hn : n ≠ 0x016) : ((s.writeCtrl key n val).weft key).lanes = (s.weft key).lanes := by
  unfold State.writeCtrl
  split
  · rw [weft_mapWeft_same]
    rfl
  · exact writeDirect_lanes s key val hn

end

/-! ### Registers that read back -/

/-- The value of a joined bit vector by its halves. -/
theorem toNat_append_add {v w : Nat} (x : BitVec v) (y : BitVec w) : (x ++ y).toNat = 2 ^ w * x.toNat + y.toNat := by
  rw [BitVec.toNat_append, Nat.shiftLeft_eq, Nat.mul_comm]
  exact (Nat.two_pow_add_eq_or_of_lt y.isLt _).symm

theorem toNat_append_mod {v w : Nat} (x : BitVec v) (y : BitVec w) : (x ++ y).toNat % 2 ^ w = y.toNat := by
  rw [toNat_append_add, Nat.mul_add_mod, Nat.mod_eq_of_lt y.isLt]

theorem toNat_append_div {v w : Nat} (x : BitVec v) (y : BitVec w) : (x ++ y).toNat / 2 ^ w = x.toNat := by
  rw [toNat_append_add, Nat.mul_add_div (Nat.two_pow_pos w), Nat.div_eq_of_lt y.isLt, Nat.add_zero]

/-- A trap register reads as written (R168). -/
theorem ctrlReg_writeTrap {s u : State} {key n val : Nat} (hcheck : s.ctrlCheck key n val = none)
    (hn : n ∈ [0x010, 0x011, 0x012, 0x013, 0x014, 0x015]) :
    (u.mapWeft key fun w => w.writeTrap n val).ctrlReg key n = val := by
  simp only [List.mem_cons, List.not_mem_nil, or_false] at hn
  rcases hn with rfl | rfl | rfl | rfl | rfl | rfl <;>
    have hfits := ctrlCheck_fits hcheck rfl (by decide) <;>
    simp only [State.ctrlReg, weft_mapWeft_same]
  · exact hfits.toNat_cut (by decide)
  · exact hfits.toNat_cut (by decide)
  · exact hfits.toNat_cut (by decide)
  · exact (toNat_append_mod _ _).trans (hfits.toNat_ofNat (by decide))
  · exact (toNat_append_div _ _).trans (hfits.toNat_ofNat (by decide))
  · exact hfits.toNat_ofNat (by decide)

theorem regRule_acown : ∀ i < 0x40, regRule (i + 0x200) = some ⟨ones 63 1 + ones 0 16, 0, 0⟩ := by decide

theorem ctrlReg_acown (s : State) (key : Nat) {i : Nat} (hi : i < 0x40) :
    s.ctrlReg key (i + 0x200) = (lookD i (0 : Word) (s.core (key / 64)).acown).toNat := by
  have hfmt : ¬i + 0x200 < 0x110 := by omega
  have hacown : i + 0x200 < 0x240 := by omega
  simp [State.ctrlReg, hfmt, hacown]

/-- An accumulator's owner reads as written (R264). -/
theorem ctrlReg_writeAcown {s u : State} {key n val : Nat} (hcheck : s.ctrlCheck key n val = none)
    (hn : 0x200 ≤ n ∧ n < 0x240) : (u.writeCtrl key n val).ctrlReg key n = val := by
  obtain ⟨i, rfl⟩ := Nat.exists_eq_add_of_le' hn.1
  have hi : i < 0x40 := by omega
  have hfits := ctrlCheck_fits hcheck (regRule_acown i hi) (by omega)
  rw [writeCtrl_acown u key val hn, ctrlReg_acown _ _ hi, core_mapCore_same, Nat.add_sub_cancel, lookD_put_same]
  exact hfits.toNat_ofNat (by decide)

/-- No control register reads lanes, or what holds a weft. -/
theorem ctrlReg_mapWeft {s : State} {key : Nat} {f : Weft → Weft}
    (hf : f (s.weft key) = { s.weft key with lanes := (f (s.weft key)).lanes, hold := (f (s.weft key)).hold }) (n : Nat) :
    (s.mapWeft key f).ctrlReg key n = s.ctrlReg key n := by
  have hgrid : (s.mapWeft key f).gridOf key = s.gridOf key := by
    rw [State.gridOf, weft_mapWeft_same, hf]
    rfl
  have hteam : (s.mapWeft key f).teamOf key = s.teamOf key := by
    rw [State.teamOf, weft_mapWeft_same, hf]
    rfl
  have hfold : (s.mapWeft key f).foldT key = s.foldT key := by
    rw [State.foldT, hgrid, weft_mapWeft_same, hf]
    rfl
  unfold State.ctrlReg
  rw [hgrid, hteam, hfold, weft_mapWeft_same, hf]
  rfl

theorem ctrlReg_advance (s : State) (n : Nat) : s.advance.ctrlReg s.key n = s.ctrlReg s.key n := ctrlReg_mapWeft rfl n

theorem ctxOf_advance (s : State) : s.advance.ctxOf s.key = s.ctxOf s.key := by
  unfold State.ctxOf State.gridOf State.advance
  rw [weft_mapWeft_same]
  rfl

/-- A write that has only begun leaves every register of the weft as it reads. -/
theorem ctrlReg_writeDeferred (u : State) (key val : Nat) {n : Nat} (h : regDeferred n = true) :
    (u.writeCtrl key n val).ctrlReg key n = u.ctrlReg key n := by
  rw [writeCtrl_deferred u key val h, ctrlReg_mapWeft rfl]
  rfl

/-! ### SMOVC (R263, R264) -/

/-- With its check passed, SMOVC steps past the word and writes the register. -/
theorem exec_smovc {w : AluW} {s : State} (hctl : ctlHoldsU w.ctl s.cw = true)
    (hcheck : s.ctrlCheck s.key (s.full s.lead w.a 7) (s.val s.lead w.b 16) = none) :
    exec (.smovc w) s = .next (s.advance.writeCtrl s.key (s.full s.lead w.a 7) (s.val s.lead w.b 16)) := by
  change execSmovc w s = _
  simp [execSmovc, hctl, hcheck]

/-- Settles O19: the step past the word, then the write that the register takes. -/
theorem smovcCompletes : Obligations.SmovcCompletes := by
  intro w s hctl n val hcheck
  obtain ⟨⟨honly, -⟩, hpassed⟩ := advance_spec s
  obtain ⟨-, -, hbytes⟩ := id honly
  refine ⟨s.advance.writeCtrl s.key n val, exec_smovc hctl hcheck, hbytes.trans (sameBytes_writeCtrl ..),
    fun hn l hl => ?_, fun hn => ?_, ctrlReg_writeAcown hcheck, fun hn => ?_, fun hd => ?_⟩
  · have hlane : (s.advance.writeCtrl s.key n val).cw.lane l = s.advance.cw.lane l := by
      unfold State.cw Weft.lane
      rw [key_writeCtrl, key_advance, writeCtrl_lanes _ _ _ hn]
    rw [hlane]
    exact hpassed l hl
  · have hrange : 0x010 ≤ n ∧ n ≤ 0x017 := by
      simp only [List.mem_cons, List.not_mem_nil, or_false] at hn
      omega
    rw [writeCtrl_trap _ _ _ hrange]
    exact ⟨honly.map _, ctrlReg_writeTrap hcheck hn⟩
  · rw [hn, writeCtrl_fold]
    refine ⟨honly.map _, (congrArg Weft.foldSel (cw_mapKey s.advance _)).trans ?_⟩
    exact BitVec.eq_of_toNat_eq (by simp [bits])
  · refine ⟨?_, ?_, (ctrlReg_writeDeferred _ _ _ hd).trans (ctrlReg_advance s n)⟩ <;> rw [writeCtrl_deferred _ _ _ hd]
    · rw [mapWeft_pwrites, ctxOf_advance]
      rfl
    · exact congrArg Weft.hold (cw_mapKey _ _)

end Sys2Proof.Machine
end

section
/-!
The decoder on the word that it cuts from bytes (R202): the round trip (O55), the opcodes that name no instruction
(O56), and words written out (O60).
-/
namespace Sys2Proof.Laws.Encodes

/-- Every instruction is built again from its fields; a step of the device has none. -/
theorem statement_holds (i : Instr) : Statement i := by
  cases i with
  | nop w => exact nop w | nop96 w => exact nop96 w | nop128 w => exact nop128 w | bra w => exact bra w
  | brt w => exact brt w | jmp w => exact jmp w | call w => exact call w | calli w => exact calli w
  | ret w => exact ret w | frame w => exact frame w | spill w => exact spill w | fill w => exact fill w
  | meet w => exact meet w | meetReg w => exact meetReg w | join w => exact join w | leave w => exact leave w
  | waitm w => exact waitm w | exit w => exact exit w | yield w => exact yield w | yieldt w => exact yieldt w
  | twait w => exact twait w | brk w => exact brk w | trap w => exact trap w | tret w => exact tret w
  | bdec w => exact bdec w | sadd w => exact sadd w | ssub w => exact ssub w | smul w => exact smul w
  | smulh w => exact smulh w | sand w => exact sand w | sor w => exact sor w | sxor w => exact sxor w
  | sshl w => exact sshl w | sshr w => exact sshr w | smin w => exact smin w | smax w => exact smax w
  | scmp w => exact scmp w | ssel w => exact ssel w | smov w => exact smov w | spopc w => exact spopc w
  | sclz w => exact sclz w | sbfe w => exact sbfe w | sbfi w => exact sbfi w | sgetl w => exact sgetl w
  | sputl w => exact sputl w | zop w => exact zop w | smovs w => exact smovs w | smovc w => exact smovc w
  | smovi w => exact smovi w | sldlit w => exact sldlit w | iadd w => exact iadd w | isub w => exact isub w
  | imul w => exact imul w | imulh w => exact imulh w | imad w => exact imad w | iand w => exact iand w
  | ior w => exact ior w | ixor w => exact ixor w | ishl w => exact ishl w | ishr w => exact ishr w
  | imin w => exact imin w | imax w => exact imax w | iabs w => exact iabs w | icmp w => exact icmp w
  | isel w => exact isel w | popc w => exact popc w | clz w => exact clz w | bfe w => exact bfe w
  | bfi w => exact bfi w | bperm w => exact bperm w | mov w => exact mov w | movs w => exact movs w
  | rng w => exact rng w | plop w => exact plop w | pset w => exact pset w | vote w => exact vote w
  | ballot w => exact ballot w | kop w => exact kop w | shfl w => exact shfl w | redux w => exact redux w
  | scan w => exact scan w | trank w => exact trank w | elect w => exact elect w | fadd w => exact fadd w
  | fsub w => exact fsub w | fmul w => exact fmul w | ffma w => exact ffma w | fmin w => exact fmin w
  | fmax w => exact fmax w | fcmp w => exact fcmp w | fclass w => exact fclass w | frcp w => exact frcp w
  | frsq w => exact frsq w | fsqrt w => exact fsqrt w | fex2 w => exact fex2 w | flg2 w => exact flg2 w
  | fsin w => exact fsin w | fcos w => exact fcos w | frnd w => exact frnd w | fcvt w => exact fcvt w
  | ftoi w => exact ftoi w | itof w => exact itof w | fpack w => exact fpack w | funpk w => exact funpk w
  | fldexp w => exact fldexp w | fdot2 w => exact fdot2 w | ffma2 w => exact ffma2 w | fadd2 w => exact fadd2 w
  | fmul2 w => exact fmul2 w | vldlit w => exact vldlit w | ld w => exact ld w | st w => exact st w
  | ldu w => exact ldu w | stu w => exact stu w | ldtag w => exact ldtag w | sttag w => exact sttag w
  | atom w => exact atom w | atomu w => exact atomu w | cas w => exact cas w | cadd w => exact cadd w
  | clrc w => exact clrc w | fence w => exact fence w | pref w => exact pref w | lck w => exact lck w
  | ulck w => exact ulck w | cmo w => exact cmo w | waitc w => exact waitc w | bar w => exact bar w
  | bara w => exact bara w | barw w => exact barw w | bari w => exact bari w | gget w => exact gget w
  | gset w => exact gset w | gadd w => exact gadd w | rput w => exact rput w | rtake w => exact rtake w
  | rdone w => exact rdone w | rstat w => exact rstat w | fjoin w => exact fjoin w | fleave w => exact fleave w
  | fld w => exact fld w | fset w => exact fset w | chkw w => exact chkw w | chkt w => exact chkt w
  | mma w => exact mma w | mmas w => exact mmas w | ald w => exact ald w | ast w => exact ast w
  | azero w => exact azero w | await w => exact await w | oprdy w => exact oprdy w | phint w => exact phint w
  | tqadd w => exact tqadd w | asave w => exact asave w | arest w => exact arest w | launch w => exact launch w
  | launchi w => exact launchi w | waitg w => exact waitg w | fresume w => exact fresume w
  | genbump w => exact genbump w | tlbinv w => exact tlbinv w | wrd w => exact wrd w | wwr w => exact wwr w
  | halt w => exact halt w | snap w => exact snap w | _ => exact of_event rfl

end Sys2Proof.Laws.Encodes

namespace Sys2Proof
open Sys2Proof.Machine Sys2Proof.Claims

/-! ### The word cut from bytes -/

/-- The fields of the word at the head of bytes, which its LEN bits measure (R200, R204). -/
def headRaw (bs : List Byte) : Raw :=
  Raw.ofBits (BitVec.ofNat 128 (leNat (bs.take (lenBytes (BitVec.ofNat 2 (leNat bs))))))

theorem headRaw_len (bs : List Byte) : (headRaw bs).len = BitVec.ofNat 2 (leNat bs) := by
  rw [headRaw, leNat_take, len_of _ _ (len8 _)]

theorem headRaw_opc (bs : List Byte) : (headRaw bs).opc.toNat = leNat bs / 32 % 256 := by
  rw [headRaw, leNat_take, opc_of _ _ (len8 _)]

/-- The head of a word's own bytes is that word, whatever follows them. -/
theorem headRaw_leBytes {r : Raw} (h : r.Fits) (rest : List Byte) :
    headRaw (leBytes (lenBytes r.len) r.toBits.toNat ++ rest) = r := by
  have hcut := r.ofBytes rest h
  have hlen : BitVec.ofNat 2 (leNat (leBytes (lenBytes r.len) r.toBits.toNat ++ rest)) = r.len := by
    rw [← len_of _ _ (len8 r.len), ← leNat_take, hcut]
  rw [headRaw, hlen, hcut]

/-- The checks of R202 at a PC that is a multiple of 4, in their order. -/
theorem decodeWord_aligned {pc : Nat} (halign : pc % 4 = 0) (bs : List Byte) :
    decodeWord pc bs =
      if (headRaw bs).len = 3 then .error .illop
      else if 32 < pc % 32 + lenBytes (headRaw bs).len then .error (.illlen (headRaw bs).len.toNat)
      else (decodeRaw (headRaw bs)).map fun i => (i, lenBytes (headRaw bs).len) := by
  have hpc : ¬pc % 4 ≠ 0 := fun h => h halign
  simp only [decodeWord, first_len, headRaw_len, if_neg hpc, gt_iff_lt]
  rw [← headRaw]
  cases decodeRaw (headRaw bs) <;> rfl

/-! ### The round trip -/

/-- The opcode of a well-formed instruction has a row, which allows its length and breaks no field rule (R202, R218). -/
theorem Instr.WellFormed.row {i : Instr} (h : i.WellFormed) {r : Raw} (hraw : i.raw = some r) :
    ∃ row, opRow r.opc.toNat = some row ∧ row.lens.testBit r.len.toNat = true ∧
      firstBroken (fieldRules row r) = none := by
  simp only [Instr.WellFormed, Instr.fieldsOk, hraw, Bool.and_eq_true] at h
  cases hrow : opRow r.opc.toNat with
  | none => simp [hrow] at h
  | some row => simpa [hrow] using h.1

/-- No opcode is legal with LEN 3 (R200, R218). -/
theorem opRow_lens_header : ∀ opc < 256, ∀ row ∈ opRow opc, row.lens.testBit 3 = false := by decide +kernel

theorem Instr.WellFormed.len_ne_header {i : Instr} (h : i.WellFormed) {r : Raw} (hraw : i.raw = some r) :
    r.len ≠ 3 := by
  obtain ⟨row, hrow, hlens, -⟩ := h.row hraw
  intro hlen
  have hheader : row.lens.testBit 3 = false := opRow_lens_header _ r.opc.isLt row hrow
  rw [hlen] at hlens
  exact Bool.false_ne_true (hheader.symm.trans hlens)

/-- The fields that a well-formed instruction is encoded in decode to it. -/
theorem decodeRaw_raw {i : Instr} (h : i.WellFormed) {r : Raw} (hraw : i.raw = some r) : decodeRaw r = .ok i := by
  obtain ⟨row, hrow, hlens, hfields⟩ := h.row hraw
  have hbuild : r.build = some i := Laws.Encodes.statement_holds i h r hraw
  rw [decodeRaw, if_neg (h.len_ne_header hraw)]
  simp [hrow, hlens, hfields, hbuild]

/-- Settles O55: the head of the bytes is the instruction's own word, and its fields build the instruction. -/
theorem roundTrip : Obligations.RoundTrip := by
  intro i pc bs rest hwf hencode halign hblock
  obtain ⟨r, hraw, rfl⟩ := Option.map_eq_some_iff.1 hencode
  rw [length_leBytes] at hblock ⊢
  rw [decodeWord_aligned halign, headRaw_leBytes (i.raw_fits r hraw), if_neg (hwf.len_ne_header hraw),
    if_neg (Nat.not_lt.2 hblock), decodeRaw_raw hwf hraw]
  rfl

/-! ### Opcodes without an instruction -/

theorem decodeRaw_unassigned {r : Raw} (h : opRow r.opc.toNat = none) : decodeRaw r = .error .illop := by
  simp [decodeRaw, h]

theorem opRow_eq_none_iff : ∀ opc, opc < 256 → (opRow opc = none ↔ opc ∈ unassigned) := by decide +kernel

/-- The bytes lie across the end of a fetch block, and are no literal-pool header. -/
def Crosses (pc : Nat) (bs : List Byte) : Prop :=
  leNat bs % 4 ≠ 3 ∧ 32 < pc % 32 + lenBytes (BitVec.ofNat 2 (leNat bs))

theorem headRaw_len_eq_header {bs : List Byte} : (headRaw bs).len = 3 ↔ leNat bs % 4 = 3 := by
  rw [headRaw_len, ← BitVec.toNat_inj, BitVec.toNat_ofNat]
  rfl

theorem decodeWord_unassigned {pc : Nat} {bs : List Byte} (hopc : leNat bs / 32 % 256 ∈ unassigned) (halign : pc % 4 = 0)
    (hcross : ¬Crosses pc bs) : decodeWord pc bs = .error .illop := by
  have hrow : opRow (headRaw bs).opc.toNat = none := by
    rw [headRaw_opc]
    exact (opRow_eq_none_iff _ (Nat.mod_lt _ (by decide))).2 hopc
  rw [decodeWord_aligned halign, decodeRaw_unassigned hrow]
  by_cases hlen : (headRaw bs).len = 3
  · rw [if_pos hlen]
  · have hfits : ¬32 < pc % 32 + lenBytes (headRaw bs).len := fun hend =>
      hcross ⟨fun e => hlen (headRaw_len_eq_header.2 e), headRaw_len bs ▸ hend⟩
    rw [if_neg hlen, if_neg hfits]
    rfl

/-- Settles O60: the decoder run on each of the words. -/
theorem wordsDecode : Obligations.WordsDecode := by
  unfold Obligations.WordsDecode
  decide +kernel

end Sys2Proof

namespace Sys2Proof.Machine
open Sys2Proof.Claims

/-- The word of a decision that decodes to no instruction, in any place of its chain: the fetch is kept and the trap
ILLOP taken (R202). -/
theorem nextWord_illop {s : State} {bs : List Byte} {pa : Nat} {w : WalkRes} (hva : s.cur.va.toNat < 2 ^ 52)
    (hfetch : s.fetch s.key s.cur.va.toNat (min 16 (32 - s.cur.va.toNat % 32)) = .bytes bs pa w)
    (hdecode : decodeWord s.cur.va.toNat bs = .error .illop) :
    s.nextWord = .done ((s.keepFetch s.key pa w).raiseAt 0x01 0) := by
  have hword : s.wordAt s.key s.cur.va.toNat = (.bytes bs pa w, .error .illop) := by
    simp [State.wordAt, hfetch, hdecode]
  have hbroken : s.fieldBroken bs (.error .illop) = .error .illop := by
    simp only [State.fieldBroken]
  simp only [State.nextWord, hword, hbroken, if_neg (Nat.not_le.2 hva)]
  rfl

/-- Settles O56: the opcode has no row, so that the decoder answers ILLOP before it looks at any other field. -/
theorem unassignedOpcodesTrap : Obligations.UnassignedOpcodesTrap := by
  refine ⟨by decide, opRow_eq_none_iff, fun pc bs hopc halign hcross => decodeWord_unassigned hopc halign hcross, ?_⟩
  intro s bs pa w u va hissuing hva halign hfetch hopc hcross
  have hnext : u.nextWord = .done ((u.keepFetch u.key pa w).raiseAt 0x01 0) :=
    nextWord_illop hva hfetch (decodeWord_unassigned hopc halign hcross)
  have hu : u.issuing = true := hissuing
  have hcur : (u.keepFetch u.key pa w).cur = u.cur := by rw [keepFetch_only]
  have hkey : (u.keepFetch u.key pa w).key = u.key := by rw [keepFetch_only]; rfl
  rw [step, if_pos hu, stepWord, hnext]
  simp only [State.raiseAt, State.raiseU, hcur, hkey]

end Sys2Proof.Machine
end

section
/-!
Lane words whose meaning is one lane result (O2).
-/
namespace Sys2Proof.Machine
open Sys2Proof.Claims

/-- A table holds whose every meaning is one lane result: each executing lane takes it in v(n) (R205, R292). -/
theorem laneTable_of_laneResult {ops : List LaneOp} {ty : AluW → Nat}
    (h : ∀ p ∈ ops, ∀ (w : AluW) (s : State), exec (p.1 w) s = .next (s.laneResult w.ctl w.dst (ty w) (p.2 w s))) :
    LaneTable ops ty := by
  intro p hp w s n hdst hstk
  refine ⟨_, h p hp w s, ?_⟩
  rw [hdst]
  exact laneResult_spec s w.ctl n (ty w) (p.2 w s) hstk

/-- Settles O2: each word's meaning is one lane result, a relation's or a class's of the type that `relTy` gives. -/
theorem laneWordsComplete : Obligations.LaneWordsComplete := by
  refine ⟨laneTable_of_laneResult fun p hp w s => ?_, laneTable_of_laneResult fun p hp w s => ?_⟩
  · simp only [laneWords, List.mem_cons, List.not_mem_nil, or_false] at hp
    rcases hp with rfl | rfl | rfl
    · exact (rfl : exec (.icmp w) s = _)
    · exact (rfl : exec (.fcmp w) s = _)
    · exact (rfl : exec (.fclass w) s = _)
  · obtain rfl := List.mem_singleton.1 hp
    exact (rfl : exec (.movs w) s = _)

end Sys2Proof.Machine
end

section
/-!
Class-U words under a false z predicate (O29).
-/
namespace Sys2Proof.Machine
open Sys2Proof.Claims

section
variable {s : State} {c : Ctl} (h : ctlHoldsU c s.cw = false)
include h

theorem skipped_eq_true : s.skipped c = true := by simp [State.skipped, h]

/-- A meaning that tests the z predicate first. -/
theorem next_skipped {t : State} : (.next (if s.skipped c then s.advance else t) : Out) = .next s.advance := by
  rw [if_pos (skipped_eq_true h)]

/-- A meaning that tests the z predicate once the word is allowed in the mode of its weft. -/
theorem next_skipped_allowed {allowed : Bool} (hallowed : allowed = true) {r t : State} :
    (.next (if !allowed then r else if s.skipped c then s.advance else t) : Out) = .next s.advance := by
  rw [hallowed]
  exact next_skipped h

end

/-- AST tests its format first, but not of a word that is skipped. -/
theorem exec_ast_skipped {w : EngW} {s : State} (h : ctlHoldsU w.ctl s.cw = false) :
    exec (.ast w) s = .next s.advance := by
  show execAst w s = _
  simp [execAst, State.tileMove, skipped_eq_true h]

theorem exec_skippedMem {w : MemW} {s : State} (h : ctlHoldsU w.ctl s.cw = false) :
    ∀ i ∈ skippedMem, exec (i w) s = .next s.advance := by
  simp only [skippedMem, List.forall_mem_cons, List.not_mem_nil, false_implies, implies_true, and_true]
  exact ⟨next_skipped h, next_skipped h, next_skipped h, next_skipped h, next_skipped h, next_skipped h, next_skipped h,
    next_skipped h, next_skipped h, next_skipped h, next_skipped h, next_skipped h, next_skipped h⟩

theorem exec_skippedEng {w : EngW} {s : State} (h : ctlHoldsU w.ctl s.cw = false) :
    ∀ i ∈ skippedEng, exec (i w) s = .next s.advance := by
  simp only [skippedEng, List.forall_mem_cons, List.not_mem_nil, false_implies, implies_true, and_true]
  exact ⟨next_skipped h, next_skipped h, next_skipped h, next_skipped h, next_skipped h, exec_ast_skipped h,
    next_skipped h, next_skipped h, next_skipped h, next_skipped h, next_skipped h, next_skipped h, next_skipped h,
    next_skipped h, next_skipped h⟩

theorem exec_skippedPriv {w : EngW} {s : State} (h : ctlHoldsU w.ctl s.cw = false) (hpriv : s.privOf s.key = true) :
    ∀ i ∈ skippedPriv, exec (i w) s = .next s.advance := by
  simp only [skippedPriv, List.forall_mem_cons, List.not_mem_nil, false_implies, implies_true, and_true]
  exact ⟨next_skipped_allowed h hpriv, next_skipped_allowed h hpriv, next_skipped_allowed h hpriv,
    next_skipped_allowed h hpriv, next_skipped_allowed h hpriv, next_skipped_allowed h hpriv⟩

theorem exec_skippedHandler {w : EngW} {s : State} (h : ctlHoldsU w.ctl s.cw = false) (hmode : s.cw.hmode = true) :
    ∀ i ∈ [Instr.wrd, Instr.wwr], exec (i w) s = .next s.advance := by
  simp only [List.forall_mem_cons, List.not_mem_nil, false_implies, implies_true, and_true]
  exact ⟨next_skipped_allowed h hmode, next_skipped_allowed h hmode⟩

/-- Settles O29: each word tests the z predicate, after the privilege where it needs one, and then only goes on. -/
theorem skippedWords : Obligations.SkippedWords :=
  ⟨fun i hi _ s h => ⟨s.advance, exec_skippedMem h i hi, advance_spec s⟩,
    fun i hi _ s h => ⟨s.advance, exec_skippedEng h i hi, advance_spec s⟩,
    fun i hi _ s h hpriv => ⟨s.advance, exec_skippedPriv h hpriv i hi, advance_spec s⟩,
    fun i hi _ s h hmode => ⟨s.advance, exec_skippedHandler h hmode i hi, advance_spec s⟩⟩

end Sys2Proof.Machine
end

section
/-!
CLRC, PREF, CMO, LCK and ULCK (O27).
-/
namespace Sys2Proof.Machine
open Sys2Proof.Claims

/-! ### CLRC (R274) -/

/-- A request that stands is not lost when more enter. -/
theorem Entered.mem_reqs {s t : State} (h : Entered s t) {q : Req} (hq : q ∈ s.reqs) : q ∈ t.reqs := by
  obtain ⟨-, -, -, -, -, ⟨more, hreqs, -⟩, -⟩ := h
  rw [hreqs]
  exact List.mem_append_left _ hq

/-- A pass in which some of the steps ask. -/
theorem foldl_asks {α : Type} {s t : State} {f : State → α → State} {asks : α → Prop} {P : α → Req → Prop} {xs : List α}
    (h : ∀ x ∈ xs, ∀ t, Entered s t → Entered t (f t x) ∧ (asks x → ∃ q ∈ (f t x).reqs, P x q)) (ht : Entered s t) :
    Entered t (xs.foldl f t) ∧ ∀ x ∈ xs, asks x → ∃ q ∈ (xs.foldl f t).reqs, P x q := by
  induction xs generalizing t with
  | nil => exact ⟨entered_refl t, fun _ hx => nomatch hx⟩
  | cons x xs ih =>
    obtain ⟨hx, hxs⟩ := List.forall_mem_cons.1 h
    obtain ⟨hent, hasks⟩ := hx t ht
    obtain ⟨hrest, hreqs⟩ := ih hxs (ht.trans hent)
    refine ⟨hent.trans hrest, List.forall_mem_cons.2 ⟨fun ha => ?_, hreqs⟩⟩
    obtain ⟨q, hq, hP⟩ := hasks ha
    exact ⟨q, hrest.mem_reqs hq, hP⟩

theorem firstFail_ok {cs : List (Access × Check)} (h : ∀ c ∈ cs, ∃ g wk, c.2 = .ok g wk) : firstFail cs = none := by
  induction cs with
  | nil => rfl
  | cons c cs ih =>
    obtain ⟨⟨g, wk, hc⟩, hcs⟩ := List.forall_mem_cons.1 h
    simp only [firstFail, hc, ih hcs]

/-- A CLRC of a lane may be issued: its range passes its checks, an empty one at its address alone. -/
def State.clrcOk (s : State) (w : MemW) (l : Nat) : Prop :=
  s.val l w.b 5 ≤ 65536 ∧
    (s.val l w.b 5 = 0 → ∃ g wk, s.check (s.agent s.key l) (s.ea w l) 32 32 .clrc = .ok g wk) ∧
    ∀ c ∈ s.clrcCheck l (s.ea w l).toNat (s.val l w.b 5), ∃ g wk, c.2 = .ok g wk

/-- CLRC of ranges that pass their checks makes the lanes' requests, lane by lane. -/
theorem exec_clrc {w : MemW} {s : State} (h : ∀ l ∈ s.active w.ctl, s.clrcOk w l)
    (hroom : s.outstanding s.cur.core + (s.active w.ctl).length ≤ Config.maxRequests) :
    exec (.clrc w) s = .next ((s.active w.ctl).foldl (fun t l =>
      t.clrcLane w l (s.val l w.b 5) (s.clrcCheck l (s.ea w l).toNat (s.val l w.b 5))) s.advance) := by
  show execClrc w s = _
  unfold execClrc
  dsimp only
  split
  · next r rs hbad =>
    obtain ⟨l, hl, hr⟩ := List.mem_filterMap.1 (hbad ▸ List.mem_cons_self (a := r) (l := rs))
    obtain ⟨hn, hempty, hpieces⟩ := h l hl
    rw [if_neg (Nat.not_lt.2 hn), firstFail_ok hpieces] at hr
    split at hr
    · next hzero =>
      obtain ⟨g, wk, hc⟩ := hempty hzero
      simp [hc, raiseOf] at hr
    · cases hr
  · have hlen := List.length_filter_le (fun l => decide (s.val l w.b 5 ≠ 0)) (s.active w.ctl)
    rw [if_neg (by omega)]

/-! ### PREF and CMO (R276, R278) -/

theorem lineOf_mem {k : PageKind} (hk : k ≠ .so) (pa : Nat) : lineOf (.mem pa k) = some (align (local46 pa) 128) := by
  cases k with
  | so => exact absurd rfl hk
  | rc => rfl
  | uo => rfl

/-- A word that asks of lines has made the request of a lane that has one. -/
theorem lineReqs_asked {w : MemW} {s : State} (op : ReqOp) {tf : Nat → Option (Tgt × WalkRes)}
    (hroom : s.outstanding s.cur.core + (s.active w.ctl).length ≤ Config.maxRequests) {l : Nat}
    (hl : l ∈ s.active w.ctl) {g : Tgt} {wk : WalkRes} (ht : tf l = some (g, wk)) :
    ∃ q ∈ (s.lineReqs w op (s.active w.ctl) tf).reqs, IsOf w s op 1 q ∧ s.part w ⟨l, s.ea w l, 0, 0⟩ g ∈ q.parts := by
  obtain ⟨q, hq, hof, y, hy, rfl⟩ := (lineReqs_spec w s op tf _ hroom).2 l hl g wk ht
  exact ⟨q, hq, hof, hy⟩

/-! ### LCK and ULCK (R277) -/

/-- The walk behind a check that passes. -/
def Check.walkOf : Check → WalkRes
  | .ok _ wk => wk
  | _ => .recov

theorem Check.eq_ok {c : Check} {g : Tgt} (h : ∃ wk, c = .ok g wk) : c = .ok g c.walkOf := by
  obtain ⟨wk, rfl⟩ := h
  rfl

/-- A request for each of several accesses, their walks kept. -/
theorem singles_asked (w : MemW) (s : State) (op : ReqOp) (ps : List (Access × Tgt × WalkRes)) :
    let t := ((s.keepWalks ps).advance).placeAll (s.groupReqs w op 1 false (ps.map ([·])))
    Entered s.advance t ∧ ∀ p ∈ ps, ∃ q ∈ t.reqs, IsOf w s op 1 q ∧ s.part w p.1 p.2.1 ∈ q.parts := by
  have hwalks := entered_advance (keepWalks_entered ps s)
  obtain ⟨hent, more, hmore, -, hof, hparts⟩ := groups_spec w s op 1 false (ps.map ([·])) s (s.keepWalks ps).advance
    (makes_self w s) (keepWalks_reqs ps s).2.symm hwalks
  refine ⟨hwalks.trans hent, fun p hp => ?_⟩
  obtain ⟨q, hq, hqp⟩ := hparts [p] (List.mem_map.2 ⟨p, hp, rfl⟩)
  rw [hmore]
  exact ⟨q, List.mem_append_right _ hq, (hof q hq).1, hqp ▸ List.mem_singleton_self _⟩

/-- LCK of lines that may be pinned asks for each of them. -/
theorem exec_lck {w : MemW} {s : State} {tg : Nat → Tgt}
    (h : ∀ l ∈ s.active w.ctl, ∃ wk, s.lckCheck (s.agent s.key l) (s.ea w l) = .ok (tg l) wk)
    (hroom : s.outstanding s.cur.core + (s.active w.ctl).length ≤ Config.maxRequests) :
    ∃ t, exec (.lck w) s = .next t ∧ Entered s.advance t ∧ ∀ l ∈ s.active w.ctl, ∃ q ∈ t.reqs,
      IsOf w s (.lck (w.scope = 3)) 1 q ∧ s.part w ⟨l, s.ea w l, 0, 0⟩ (tg l) ∈ q.parts := by
  obtain ⟨xs, hxs⟩ : ∃ xs, xs = s.accesses w false (fun _ => 0) fun _ => 0 := ⟨_, rfl⟩
  have hlen : xs.length = (s.active w.ctl).length := by rw [hxs]; exact List.length_map _
  obtain ⟨wk, hwk⟩ : ∃ wk : Access → WalkRes, wk = fun x => (s.lckCheck (s.agent s.key x.lane) x.va).walkOf := ⟨_, rfl⟩
  have hchecks : (xs.map fun x => (x, s.lckCheck (s.agent s.key x.lane) x.va)) =
      xs.map fun x => (x, .ok (tg x.lane) (wk x)) := by
    refine List.map_congr_left fun x hx => ?_
    obtain ⟨l, hl, rfl⟩ := List.mem_map.1 (hxs ▸ hx)
    rw [hwk]
    exact congrArg _ (Check.eq_ok (h l hl))
  obtain ⟨hraise, hplaced, hfaults⟩ := checks_lists xs tg wk s.cur.va
  have hfits : ¬Config.maxRequests < s.outstanding s.cur.core + xs.length := by omega
  obtain ⟨ps, hps⟩ : ∃ ps, ps = xs.map fun x => (x, tg x.lane, wk x) := ⟨_, rfl⟩
  have hexec : exec (.lck w) s = .next (((s.keepWalks ps).advance).placeAll
      (s.groupReqs w (.lck (w.scope = 3)) 1 false (ps.map ([·])))) := by
    show execLck w s = _
    simp only [execLck, ← hxs, hchecks, hraise, hplaced, hfaults, List.length_map, if_neg hfits, ← hps]
    rfl
  obtain ⟨hent, hasked⟩ := singles_asked w s (.lck (w.scope = 3)) ps
  refine ⟨_, hexec, hent, fun l hl => hasked (⟨l, s.ea w l, 0, 0⟩, tg l, wk ⟨l, s.ea w l, 0, 0⟩) ?_⟩
  rw [hps, hxs]
  exact List.mem_map.2 ⟨_, List.mem_map.2 ⟨l, hl, rfl⟩, rfl⟩

/-- The pins that ULCK acts on: those of L2 at DIE, otherwise those of the core (R71). -/
def State.pinsAt (s : State) (core : Nat) (l2 : Bool) : List Pin := if l2 then s.l2pins else (s.core core).pins

/-- Pins may have been dropped, but no byte, request or weft has changed. -/
def Unpins (core : Nat) (l2 : Bool) (s t : State) : Prop :=
  SameBytes s t ∧ t.reqs = s.reqs ∧ t.wefts = s.wefts ∧ ∀ p ∈ t.pinsAt core l2, p ∈ s.pinsAt core l2

theorem Unpins.refl (core : Nat) (l2 : Bool) (s : State) : Unpins core l2 s s :=
  ⟨⟨fun _ => rfl, fun _ _ => rfl⟩, rfl, rfl, fun _ hp => hp⟩

theorem Unpins.trans {core : Nat} {l2 : Bool} {s t u : State} (h : Unpins core l2 s t) (g : Unpins core l2 t u) :
    Unpins core l2 s u := by
  obtain ⟨hbytes, hreqs, hwefts, hpins⟩ := h
  obtain ⟨hbytes', hreqs', hwefts', hpins'⟩ := g
  exact ⟨hbytes.trans hbytes', hreqs'.trans hreqs, hwefts'.trans hwefts, fun p hp => hpins p (hpins' p hp)⟩

/-- ULCK of one line: the pins of the context are off it. -/
theorem unpin_unpins (s : State) (core ctx line : Nat) (l2 : Bool) : Unpins core l2 s (s.unpin core ctx line l2) ∧
    ∀ p ∈ (s.unpin core ctx line l2).pinsAt core l2, ¬(p.line = line ∧ p.ctx = ctx) := by
  obtain ⟨hbytes, hreqs, hwefts, hdie, hcore⟩ := unpin_spec s core ctx line l2
  have hpins : ∀ p ∈ (s.unpin core ctx line l2).pinsAt core l2,
      p ∈ s.pinsAt core l2 ∧ ¬(p.line = line ∧ p.ctx = ctx) := by
    cases l2 with
    | true => exact hdie rfl
    | false => exact hcore rfl
  exact ⟨⟨hbytes, hreqs, hwefts, fun p hp => (hpins p hp).1⟩, fun p hp => (hpins p hp).2⟩

/-- ULCK of the line that a target lies in, if it can be pinned. -/
def State.unlock (s : State) (core ctx : Nat) (l2 : Bool) (g : Tgt) : State :=
  match pinLine g with
  | some line => s.unpin core ctx line l2
  | none => s

theorem unlock_unpins (s : State) (core ctx : Nat) (l2 : Bool) (g : Tgt) : Unpins core l2 s (s.unlock core ctx l2 g) ∧
    ∀ line, pinLine g = some line → ∀ p ∈ (s.unlock core ctx l2 g).pinsAt core l2, ¬(p.line = line ∧ p.ctx = ctx) := by
  unfold State.unlock
  split
  · next line hline =>
    obtain ⟨hunpins, hnone⟩ := unpin_unpins s core ctx line l2
    refine ⟨hunpins, fun line' hline' => ?_⟩
    rw [← Option.some.inj (hline.symm.trans hline')]
    exact hnone
  · next hline => exact ⟨Unpins.refl core l2 s, fun line hline' => absurd (hline.symm.trans hline') (by simp)⟩

/-- ULCK of several lines: none that has been unpinned is pinned again. -/
theorem foldl_unlock (core ctx : Nat) (l2 : Bool) (tg : Nat → Tgt) (ls : List Nat) (s : State) :
    Unpins core l2 s (ls.foldl (fun t l => t.unlock core ctx l2 (tg l)) s) ∧
      ∀ l ∈ ls, ∀ line, pinLine (tg l) = some line →
        ∀ p ∈ (ls.foldl (fun t l => t.unlock core ctx l2 (tg l)) s).pinsAt core l2, ¬(p.line = line ∧ p.ctx = ctx) := by
  induction ls generalizing s with
  | nil => exact ⟨Unpins.refl core l2 s, fun _ hl => nomatch hl⟩
  | cons l ls ih =>
    obtain ⟨hhead, hnone⟩ := unlock_unpins s core ctx l2 (tg l)
    obtain ⟨hrest, hnones⟩ := ih (s.unlock core ctx l2 (tg l))
    obtain ⟨-, -, -, hpins⟩ := id hrest
    exact ⟨hhead.trans hrest, List.forall_mem_cons.2 ⟨fun line hline p hp => hnone line hline p (hpins p hp), hnones⟩⟩

/-- ULCK of lines that may be pinned raises nothing and unpins each of them. -/
theorem exec_ulck {w : MemW} {s : State} {tg : Nat → Tgt}
    (h : ∀ l ∈ s.active w.ctl, ∃ wk, s.lckCheck (s.agent s.key l) (s.ea w l) = .ok (tg l) wk) :
    exec (.ulck w) s = .next ((s.active w.ctl).foldl (fun t l =>
      t.unlock s.cur.core (s.ctxOf s.key) (w.scope = 3) (tg l)) s.advance) := by
  show execUlck w s = _
  unfold execUlck
  dsimp only
  split
  · next r rs hbad =>
    obtain ⟨e, he, hr⟩ := List.mem_filterMap.1 (hbad ▸ List.mem_cons_self (a := r) (l := rs))
    obtain ⟨l, hl, rfl⟩ := List.mem_map.1 he
    obtain ⟨wk, hok⟩ := h l hl
    simp [hok, raiseOf] at hr
  · have hchecks : (s.active w.ctl).map (fun l => ((⟨l, s.ea w l, 0, 0⟩ : Access), s.lckCheck (s.agent s.key l) (s.ea w l))) =
        (s.active w.ctl).map fun l => (⟨l, s.ea w l, 0, 0⟩, .ok (tg l) (s.lckCheck (s.agent s.key l) (s.ea w l)).walkOf) :=
      List.map_congr_left fun l hl => congrArg _ (Check.eq_ok (h l hl))
    rw [hchecks, List.foldl_map]
    rfl

/-- Settles O27: each word by its own rule. -/
theorem linesComplete : Obligations.LinesComplete := by
  refine ⟨?_, ?_, ?_⟩
  · intro w s tg hok hroom
    have hclrc : ∀ l ∈ s.active w.ctl, s.clrcOk w l := fun l hl => by
      obtain ⟨hn, hempty, hpieces⟩ := hok l hl
      exact ⟨hn, fun hzero => ⟨_, hempty hzero⟩, fun c hc => ⟨_, hpieces c hc⟩⟩
    obtain ⟨hent, hasked⟩ := foldl_asks (fun l hl t ht => by
      obtain ⟨-, -, hpieces⟩ := hclrc l hl
      obtain ⟨hlane, -, hreq⟩ := clrcLane_spec w s t ht l (s.val l w.b 5) _ hpieces
      exact ⟨hlane, hreq⟩) (entered_refl s.advance)
    refine ⟨_, exec_clrc hclrc hroom, hent, fun l hl hn => ?_⟩
    obtain ⟨q, hq, hof, hparts⟩ := hasked l hl hn
    exact ⟨q, hq, hof, fun p hp => hparts _ (List.mem_map.2 ⟨p, hp, rfl⟩)⟩
  · intro w s hroom
    refine ⟨⟨_, rfl, (lineReqs_spec w s .pref _ _ hroom).1, fun l hl pa k wk hsoft hk hhost => ?_⟩,
      ⟨_, rfl, (lineReqs_spec w s (.cmo w.subop.toNat) _ _ hroom).1, fun l hl pa k wk hsoft hk hheld => ?_⟩⟩
    · refine (lineReqs_asked .pref hroom hl (g := .mem pa k) (wk := wk) ?_).imp
        fun q ⟨hq, hof, hpart⟩ => ⟨hq, hof, _, hpart, rfl, rfl, rfl⟩
      simp [hsoft, lineOf_mem hk, hhost]
    · refine (lineReqs_asked (.cmo w.subop.toNat) hroom hl (g := .mem pa k) (wk := wk) ?_).imp
        fun q ⟨hq, hof, hpart⟩ => ⟨hq, hof, _, hpart, rfl, rfl⟩
      simp [hsoft, lineOf_mem hk, hheld]
  · intro w s tg hok
    refine ⟨fun hroom => ?_, ?_⟩
    · obtain ⟨t, hexec, hent, hasked⟩ := exec_lck hok hroom
      refine ⟨t, hexec, hent, fun l hl => ?_⟩
      obtain ⟨q, hq, hof, hpart⟩ := hasked l hl
      exact ⟨q, hq, hof, _, hpart, rfl, rfl, rfl⟩
    · obtain ⟨⟨hbytes, hreqs, hwefts, -⟩, hnone⟩ :=
        foldl_unlock s.cur.core (s.ctxOf s.key) (w.scope = 3) tg (s.active w.ctl) s.advance
      refine ⟨_, exec_ulck hok, (sameBytes_of rfl : SameBytes s s.advance).trans hbytes, hreqs, hwefts,
        fun l hl line hline => ?_⟩
      have hoff := hnone l hl line hline
      intro pin
      split
      · next hdie => exact fun p hp => hoff p (by rwa [State.pinsAt, if_pos (decide_eq_true hdie)])
      · next hcore => exact fun p hp => hoff p (by rwa [State.pinsAt, if_neg (by simpa using hcore)])

end Sys2Proof.Machine
end

section
/-!
The team barrier and barrier objects (O30).
-/
namespace Sys2Proof.Machine
open Sys2Proof.Claims

/-! ### The release of a phase (R281) -/

/-- A lane that the barrier holds goes on. -/
def Lane.passBarrier (x : Lane) : Lane := if x.wait = .barrier then { x with wait := .none, age := 0 } else x

theorem Lane.passBarrier_wait (x : Lane) : x.passBarrier.wait ≠ .barrier := by
  unfold Lane.passBarrier
  split
  · exact Wait.noConfusion
  · assumption

theorem Lane.passBarrier_idem (x : Lane) : x.passBarrier.passBarrier = x.passBarrier := if_neg x.passBarrier_wait

/-- The lanes of a weft that the barrier holds go on. -/
def Weft.passBarrier (w : Weft) : Weft := w.eachLane (w.lanes.map (·.1)) fun _ => Lane.passBarrier

/-- No lane of the weft waits at the barrier. -/
def Weft.pastBarrier (w : Weft) : Prop := ∀ l, (w.lane l).wait ≠ .barrier

theorem passBarrier_past (w : Weft) : w.passBarrier.pastBarrier := by
  intro l
  rw [Weft.passBarrier, eachLane_idem _ _ _ fun _ => Lane.passBarrier_idem]
  split
  · exact Lane.passBarrier_wait _
  · next hunlisted =>
    have hnone : look l w.lanes = none := by
      rwa [← look_mem, Bool.not_eq_true, Option.isSome_eq_false_iff, Option.isNone_iff_eq_none] at hunlisted
    simp [Weft.lane, lookD, hnone]

/-- A weft past the barrier stays so when a weft passes it. -/
theorem pastBarrier_mapWeft {s : State} {j : Nat} (h : (s.weft j).pastBarrier) (k : Nat) :
    ((s.mapWeft k Weft.passBarrier).weft j).pastBarrier := by
  by_cases hjk : j = k
  · rw [hjk, weft_mapWeft_same]
    exact passBarrier_past _
  · rwa [weft_mapWeft_other _ hjk]

theorem foldl_passBarrier_keeps (ks : List Nat) {s : State} {j : Nat} (h : (s.weft j).pastBarrier) :
    ((ks.foldl (fun s k => s.mapWeft k Weft.passBarrier) s).weft j).pastBarrier := by
  induction ks generalizing s with
  | nil => exact h
  | cons k ks ih => exact ih (pastBarrier_mapWeft h k)

theorem foldl_passBarrier_past {ks : List Nat} {k : Nat} (hk : k ∈ ks) (s : State) :
    ((ks.foldl (fun s k => s.mapWeft k Weft.passBarrier) s).weft k).pastBarrier := by
  induction ks generalizing s with
  | nil => cases hk
  | cons j ks ih =>
    rcases List.mem_cons.1 hk with rfl | hk
    · refine foldl_passBarrier_keeps ks ?_
      rw [weft_mapWeft_same]
      exact passBarrier_past _
    · exact ih hk _

theorem foldl_passBarrier_teams (ks : List Nat) (s : State) :
    (ks.foldl (fun s k => s.mapWeft k Weft.passBarrier) s).teams = s.teams := by
  induction ks generalizing s with
  | nil => rfl
  | cons k ks ih => exact ih _

/-- The acquire of a team changes cores alone. -/
theorem acquireTeam_only (s : State) (team : Nat) :
    (s.acquireTeam team).teams = s.teams ∧ (s.acquireTeam team).wefts = s.wefts := by
  unfold State.acquireTeam
  dsimp only
  generalize (s.team team).cores = cs
  split
  · exact ⟨rfl, rfl⟩
  · next hmany =>
    clear hmany
    induction cs generalizing s with
    | nil => exact ⟨rfl, rfl⟩
    | cons c cs ih => exact ih (s.acquireDrop c false)

theorem testBarrier_over {s : State} {n : Nat} (h : phaseOver s n (s.team n).arrived) :
    s.testBarrier n = ((s.team n).wefts.foldl (fun s k => s.mapWeft k Weft.passBarrier)
      (s.setTeam n { s.team n with arrived := [], phase := (s.team n).phase + 1 })).acquireTeam n := by
  obtain ⟨hlive, harrived⟩ := h
  refine if_pos ?_
  rw [Bool.and_eq_true, Bool.not_eq_true', List.isEmpty_eq_false_iff, List.all_eq_true]
  exact ⟨hlive, fun k hk => List.contains_iff_mem.2 (harrived k hk)⟩

theorem testBarrier_holds {s : State} {n : Nat} (h : ¬phaseOver s n (s.team n).arrived) : s.testBarrier n = s := by
  refine if_neg fun hover => h ?_
  rw [Bool.and_eq_true, Bool.not_eq_true', List.isEmpty_eq_false_iff, List.all_eq_true] at hover
  obtain ⟨hlive, harrived⟩ := hover
  exact ⟨hlive, fun k hk => List.contains_iff_mem.1 (harrived k hk)⟩

/-- A phase that is over: the arrived bits clear, the phase advances and every held lane is released. -/
theorem testBarrier_released {s : State} {n : Nat} (h : phaseOver s n (s.team n).arrived) :
    (s.testBarrier n).team n = { s.team n with arrived := [], phase := (s.team n).phase + 1 } ∧
      ∀ k ∈ (s.team n).wefts, ((s.testBarrier n).weft k).pastBarrier := by
  rw [testBarrier_over h]
  constructor
  · unfold State.team
    rw [(acquireTeam_only _ n).1, foldl_passBarrier_teams]
    exact team_setTeam_same s n _
  · intro k hk
    unfold State.weft
    rw [(acquireTeam_only _ n).2]
    exact foldl_passBarrier_past hk _

/-! ### BAR (R281) -/

/-- The lanes of the decision past the word, held at the barrier. -/
def State.held (s : State) : State := s.passThen s.lanes fun _ _ x => { x with wait := .barrier }

theorem held_only (s : State) : OnlyLanes s s.held := onlyLanes_passThen (lanes_nodup s) (fun _ hl => hl) _

theorem held_lane (s : State) (l : Nat) : s.held.cw.lane l =
    if l ∈ s.lanes then { s.cw.lane l with pc := s.nextVa, wait := .barrier } else s.cw.lane l := by
  refine (passThen_lane (lanes_nodup s) (fun _ hl => hl) _ l).trans ?_
  split <;> rfl

/-- Lanes that arrive have used up what lets them past the BAR that they stand at (R178). -/
def Weft.arrives (w : Weft) (mask : LaneMask) : Weft := { w with phgo := w.phgo &&& ~~~mask }

/-- The decision's lanes held at the barrier, and their weft's arrival noted, before the phase is tested. -/
def State.atBarrier (s : State) : State :=
  (s.held.mapWeft s.key fun w => w.arrives s.cur.lanes).mapTeam s.cw.team fun tm =>
    { tm with arrived := if tm.arrived.contains s.cw.index then tm.arrived else tm.arrived ++ [s.cw.index] }

theorem arrive_eq (s : State) : s.arrive = s.atBarrier.testBarrier s.cw.team := rfl

theorem atBarrier_bytes (s : State) : SameBytes s s.atBarrier := ⟨fun _ => rfl, fun _ _ => rfl⟩

theorem atBarrier_team (s : State) : s.atBarrier.team s.cw.team = { s.team s.cw.team with
    arrived := if s.cw.index ∈ (s.team s.cw.team).arrived then (s.team s.cw.team).arrived
      else (s.team s.cw.team).arrived ++ [s.cw.index] } := by
  simp only [State.atBarrier, team_mapTeam_same, List.contains_iff_mem]
  rfl

theorem atBarrier_cw (s : State) : s.atBarrier.cw = s.held.cw.arrives s.cur.lanes :=
  cw_mapKey s.held fun w => w.arrives s.cur.lanes

theorem atBarrier_lane (s : State) (l : Nat) : s.atBarrier.cw.lane l =
    if l ∈ s.lanes then { s.cw.lane l with pc := s.nextVa, wait := .barrier } else s.cw.lane l := by
  rw [atBarrier_cw]
  exact held_lane s l

/-- An arrival changes neither the number of a weft nor which of its lanes have exited. -/
theorem atBarrier_weft (s : State) (k : Nat) :
    (s.atBarrier.weft k).index = (s.weft k).index ∧ (s.atBarrier.weft k).allExited = (s.weft k).allExited := by
  obtain ⟨⟨-, hother, -⟩, hcw, -⟩ := held_only s
  by_cases hk : k = s.key
  · subst hk
    show s.atBarrier.cw.index = s.cw.index ∧ s.atBarrier.cw.allExited = s.cw.allExited
    have hexited : ∀ l, (s.atBarrier.cw.lane l).exited = (s.cw.lane l).exited := fun l => by
      rw [atBarrier_lane]
      split <;> rfl
    have hfields : s.atBarrier.cw.index = s.cw.index ∧ s.atBarrier.cw.width = s.cw.width := by
      rw [atBarrier_cw, hcw]
      exact ⟨rfl, rfl⟩
    exact ⟨hfields.1, by simp only [Weft.allExited, hexited, hfields.2]⟩
  · have hweft : s.atBarrier.weft k = s.weft k :=
      (weft_mapWeft_other (s := s.held) (fun w => w.arrives s.cur.lanes) hk).trans (hother k hk)
    rw [hweft]
    exact ⟨rfl, rfl⟩

theorem phaseOver_atBarrier (s : State) (arrived : List Nat) :
    phaseOver s.atBarrier s.cw.team arrived ↔ phaseOver s s.cw.team arrived := by
  have hwefts : (s.atBarrier.team s.cw.team).wefts = (s.team s.cw.team).wefts := by rw [atBarrier_team]
  have hlive : liveWefts s.atBarrier s.cw.team = liveWefts s s.cw.team := by
    simp only [liveWefts, hwefts, (atBarrier_weft s _).2]
  simp only [phaseOver, hlive, (atBarrier_weft s _).1]

/-- BAR of lanes whose older accesses have performed to the team. -/
theorem exec_bar {w : MemW} {s : State} (h : ctlHoldsU w.ctl s.cw = true)
    (hready : ∀ l ∈ s.lanes, s.releaseReady s.key l s.nextId 1 = true) :
    exec (.bar w) s = .next (s.atBarrier.testBarrier s.cw.team) := by
  have hall : (s.lanes.all fun l => s.releaseReady s.key l s.nextId 1) = true := List.all_eq_true.2 hready
  show execBar w s = _
  simp [execBar, State.skipped, h, hall, arrive_eq]

/-! ### BARI (R283) -/

/-- An object re-initialised with a count that fits its field. -/
theorem bariObj_eq {x : Nat} (hx : x ≤ 65535) (obj : Nat) :
    bariObj obj x = setBits obj 0 64 ((bits obj 48 16 + 1) % 2 ^ 16 * 2 ^ 48 + x * 2 ^ 32) := by
  rw [bariObj, Nat.mod_eq_of_lt (show x < 2 ^ 16 by omega)]

/-- The next generation, which the token carries too. -/
theorem bits_bariObj (obj x : Nat) : bits (bariObj obj x) 48 16 = (bits obj 48 16 + 1) % 2 ^ 16 := by
  simp only [bariObj, setBits, bits]
  omega

/-- BARI of a scratchpad object whose older accesses are done. -/
theorem exec_bari {w : MemW} {s : State} {core off : Nat} {wk : WalkRes} (h : ctlHoldsU w.ctl s.cw = true)
    (hlow : 1 ≤ s.word w.b) (hhigh : s.word w.b ≤ 65535)
    (hcheck : s.check (s.agent s.key s.lead) (s.ea w s.lead) 16 16 .bar = .ok (.spad core off) wk)
    (hnow : s.actsNow s.lead (s.ea w s.lead).toNat (.spad core off) 16 = true) :
    let obj := bariObj (mnum (s.core core).spad off 16) (s.word w.b)
    exec (.bari w) s = .next ((s.advance.homeWrite (s.agent s.key s.lead).asid (.spad core off) (leBytes 16 obj)).sendS
      w.dst (bits obj 48 16 * 2 ^ 16)) := by
  have hcount : ¬(s.word w.b = 0 ∨ 65535 < s.word w.b) := by omega
  show execBari w s = _
  simp [execBari, State.skipped, h, hcount, hcheck, hnow, State.homeRead, mnum]

/-- A value sent into s(n) of the issuing weft, by a state in which only it has been written. -/
theorem sendS_lanes {s t : State} (hw : t.wefts = s.advance.wefts) (hcur : t.cur = s.cur) (n : Fin 128) (y : Nat) :
    (t.sendS (.s n) y).cw.sreg n = BitVec.ofNat 64 y ∧
      ∀ l ∈ s.lanes, Passed s (s.cw.lane l) ((t.sendS (.s n) y).cw.lane l) := by
  have hcw : t.cw = s.advance.cw := by
    unfold State.cw State.key State.weft
    rw [hw, hcur]
    rfl
  have hsent : (t.sendS (.s n) y).cw = s.advance.cw.writeS n (BitVec.ofNat 64 y) := (cw_mapKey t _).trans (by rw [hcw])
  rw [hsent]
  exact ⟨sreg_setS_same .., fun l hl => (advance_spec s).2 l hl⟩

/-- Settles O30: BAR by whether the phase is over, BARA and BARW by the issue of requests, BARI by its write at the
scratchpad. -/
theorem barriersComplete : Obligations.BarriersComplete := by
  refine ⟨?_, ?_, ?_⟩
  · intro w s h hready n arr
    have hteam : s.atBarrier.team n = { s.team n with arrived := arr } := atBarrier_team s
    have harr : (s.atBarrier.team n).arrived = arr := by rw [hteam]
    have hwefts : (s.atBarrier.team n).wefts = (s.team n).wefts := by rw [hteam]
    refine ⟨_, exec_bar h hready, (atBarrier_bytes s).trans (testBarrier_quiet _ _).1, fun hover => ?_, fun hopen => ?_⟩
    · rw [← phaseOver_atBarrier, ← harr] at hover
      obtain ⟨hphase, hpast⟩ := testBarrier_released hover
      exact ⟨hphase.trans (by rw [hteam]), fun k hk => hpast k (hwefts ▸ hk)⟩
    · rw [← phaseOver_atBarrier, ← harr] at hopen
      rw [testBarrier_holds hopen]
      exact ⟨hteam, fun l hl => (atBarrier_lane s l).trans (if_pos hl)⟩
  · intro w s tg h xs hcheck hso hroom
    have hbara : exec (.bara w) s = .next (s.barIssue w .bara false true) := by
      show execBara w s = _
      simp [execBara, State.skipped, h]
    have hbarw : exec (.barw w) s = .next (s.barIssue w .barw true false) := by
      show execBarw w s = _
      simp [execBarw, State.skipped, h]
    exact ⟨⟨_, hbara, issueReqs_ok _ _ _ _ _ _ _ _ _ _ tg hcheck hso hroom⟩,
      ⟨_, hbarw, issueReqs_ok _ _ _ _ _ _ _ _ _ _ tg hcheck hso hroom⟩⟩
  · intro w s n core off wk h hdst x hlow hhigh hcheck hnow gen old
    obtain ⟨hwefts, hcur, hmem, hspad⟩ := homeWrite_spad s.advance (s.agent s.key s.lead).asid core off
      (leBytes 16 (bariObj old x))
    obtain ⟨hreg, hlanes⟩ := sendS_lanes hwefts hcur n (bits (bariObj old x) 48 16 * 2 ^ 16)
    rw [length_leBytes] at hspad
    refine ⟨_, exec_bari h hlow hhigh hcheck hnow, ?_⟩
    rw [hdst]
    refine ⟨hreg.trans (by rw [bits_bariObj]), hmem, hlanes, fun c a => ?_⟩
    rw [← bariObj_eq hhigh]
    exact hspad c a

end Sys2Proof.Machine
end

section
/-!
Lane integers, floating point and packed pairs (O1, O3, O4): each word's meaning is one lane result.
-/
namespace Sys2Proof.Machine
open Sys2Proof.Claims

/-- A table holds whose every meaning is one lane result where DST is v(n). -/
theorem laneTable_of_laneResult_v {ops : List LaneOp} {ty : AluW → Nat}
    (h : ∀ p ∈ ops, ∀ (w : AluW) (s : State) (n : Fin 32), w.dst = .v n →
      exec (p.1 w) s = .next (s.laneResult w.ctl w.dst (ty w) (p.2 w s))) :
    LaneTable ops ty := by
  intro p hp w s n hdst hstk
  refine ⟨_, h p hp w s n hdst, ?_⟩
  rw [hdst]
  exact laneResult_spec s w.ctl n (ty w) (p.2 w s) hstk

/-- MOV is a lane result where DST is v(n); into a time register it has another meaning (R297). -/
theorem exec_mov_v (w : AluW) (s : State) (n : Fin 32) (hdst : w.dst = .v n) :
    exec (.mov w) s = .next (s.laneResult w.ctl w.dst w.ty.toNat (opA w s)) := by
  show execMov w s = _
  simp only [execMov, hdst]
  rfl

/-- Settles O1: each word's meaning is one lane result of its operands, MOV's where DST is v(n). -/
theorem laneIntegersComplete : Obligations.LaneIntegersComplete := by
  refine laneTable_of_laneResult_v ?_
  simp only [laneInts, List.forall_mem_cons, List.not_mem_nil, false_implies, implies_true, and_true]
  exact ⟨fun _ _ _ _ => rfl, fun _ _ _ _ => rfl, fun _ _ _ _ => rfl, fun _ _ _ _ => rfl, fun _ _ _ _ => rfl,
    fun _ _ _ _ => rfl, fun _ _ _ _ => rfl, fun _ _ _ _ => rfl, fun _ _ _ _ => rfl, fun _ _ _ _ => rfl,
    fun _ _ _ _ => rfl, fun _ _ _ _ => rfl, fun _ _ _ _ => rfl, fun _ _ _ _ => rfl, fun _ _ _ _ => rfl,
    fun _ _ _ _ => rfl, fun _ _ _ _ => rfl, fun _ _ _ _ => rfl, fun _ _ _ _ => rfl, exec_mov_v,
    fun _ _ _ _ => rfl⟩

/-- Settles O3: each word's meaning is one lane result of the exact value rounded. -/
theorem laneFloatsComplete : Obligations.LaneFloatsComplete := by
  refine laneTable_of_laneResult ?_
  simp only [laneFloats, List.forall_mem_cons, List.not_mem_nil, false_implies, implies_true, and_true]
  exact ⟨fun _ _ => rfl, fun _ _ => rfl, fun _ _ => rfl, fun _ _ => rfl, fun _ _ => rfl, fun _ _ => rfl,
    fun _ _ => rfl, fun _ _ => rfl, fun _ _ => rfl, fun _ _ => rfl, fun _ _ => rfl, fun _ _ => rfl,
    fun _ _ => rfl, fun _ _ => rfl, fun _ _ => rfl, fun _ _ => rfl, fun _ _ => rfl, fun _ _ => rfl⟩

/-- Settles O4: each word's meaning is one lane result, of the type b64 for the pairs and f32 for FDOT2. -/
theorem packedFloatsComplete : Obligations.PackedFloatsComplete := by
  refine ⟨laneTable_of_laneResult ?_, laneTable_of_laneResult ?_⟩
  · simp only [lanePairs, List.forall_mem_cons, List.not_mem_nil, false_implies, implies_true, and_true]
    exact ⟨fun _ _ => rfl, fun _ _ => rfl, fun _ _ => rfl⟩
  · exact List.forall_mem_singleton.2 fun _ _ => rfl

end Sys2Proof.Machine
end

section
/-!
Predicates, votes and values that pass between lanes (O6).
-/
namespace Sys2Proof.Machine
open Sys2Proof.Claims

/-- predResult for every kind of DST: p in the executing lanes, or z from the lowest of them (R299, R302). -/
theorem predResult_spec (s : State) (c : Ctl) (d : Dst) (f : Nat → Bool) : PredDone s (s.predResult c d f) c d f := by
  cases d with
  | p n => exact predResult_p s c n f
  | z n =>
    cases hact : s.active c with
    | nil =>
      simp only [PredDone, State.predResult, hact]
      exact advance_spec s
    | cons l ls =>
      simp only [PredDone, hact]
      exact predResult_z s c n f l ls hact
  | _ => trivial

/-- sharedResult for every kind of DST: v in the executing lanes, or s once (R300, R302, R304). -/
theorem sharedResult_spec (s : State) (c : Ctl) (d : Dst) (ty y : Nat) :
    SharedDone s (s.sharedResult c d ty y) c d ty y := by
  cases d with
  | v n => exact laneResult_spec s c n ty fun _ => y
  | s n =>
    by_cases hact : s.active c = []
    · simp only [SharedDone, State.sharedResult, hact, if_true]
      exact advance_spec s
    · simp only [SharedDone, if_neg hact]
      exact sharedResult_s s c n ty y hact
  | _ => trivial

/-- Settles O6: each word's meaning is one predicate result, one lane result or one shared result. -/
theorem crossLanesComplete : Obligations.CrossLanesComplete := by
  refine ⟨?_, laneTable_of_laneResult ?_, laneTable_of_laneResult ?_, ?_, ?_, ?_⟩
  · have hmeaning : ∀ p ∈ predicates, ∀ (w : AluW) (s : State),
        exec (p.1 w) s = .next (s.predResult w.ctl w.dst (p.2 w s)) := by
      simp only [predicates, List.forall_mem_cons, List.not_mem_nil, false_implies, implies_true, and_true]
      exact ⟨fun _ _ => rfl, fun _ _ => rfl, fun _ _ => rfl, fun _ _ => rfl⟩
    exact fun p hp w s => ⟨_, hmeaning p hp w s, predResult_spec ..⟩
  · simp only [crossLanes, List.forall_mem_cons, List.not_mem_nil, false_implies, implies_true, and_true]
    exact ⟨fun _ _ => rfl, fun _ _ => rfl⟩
  · exact List.forall_mem_singleton.2 fun _ _ => rfl
  · exact fun w s => ⟨_, rfl, sharedResult_spec ..⟩
  · exact fun w s => ⟨_, rfl, sharedResult_spec ..⟩
  · intro w s hty
    have hmeaning : exec (.kop w) s = _ := congrArg Host.Outcome.next (if_pos hty)
    exact ⟨_, hmeaning, sharedResult_spec ..⟩

end Sys2Proof.Machine
end

section
/-!
FPACK and FUNPK (O16).
-/
namespace Sys2Proof.Machine
open Sys2Proof.Claims

/-- One cause raised in lanes of the decision, at the word: the trap of those lanes (R170). -/
theorem raise_map_lanes {s : State} {ls : List Nat} (hls : ls ≠ []) (cause sub : Nat) (addr : Word) :
    s.raise (ls.map fun l => ⟨l, cause, sub, addr⟩) = s.enterTrap s.key cause sub (maskOf ls) addr s.cur.va := by
  have hall : (ls.map fun l => (⟨l, cause, sub, addr⟩ : Raise)).filter (fun x => x.cause = cause) =
      ls.map fun l => ⟨l, cause, sub, addr⟩ := by
    refine List.filter_eq_self.2 fun x hx => ?_
    obtain ⟨l, -, rfl⟩ := List.mem_map.1 hx
    exact decide_eq_true rfl
  have hlanes : (ls.map fun l => (⟨l, cause, sub, addr⟩ : Raise)).map (·.lane) = ls :=
    List.map_map.trans (List.map_id ls)
  obtain ⟨l, ls, rfl⟩ := List.exists_cons_of_ne_nil hls
  rw [List.map_cons] at hall hlanes ⊢
  simp only [State.raise]
  rw [hall, hlanes]

section
variable {w : AluW} {s : State} {f : Nat → Nat → Nat}

/-- A control word that R311 refuses traps in the executing lanes. -/
theorem narrowInstr_bad (hbad : s.narrowBad w.ty.toNat (s.full s.lead w.b 7) = true) (hact : s.active w.ctl ≠ []) :
    s.narrowInstr w f = s.enterTrap s.key 2 48 (maskOf (s.active w.ctl)) s.cur.va s.cur.va := by
  rw [← raise_map_lanes hact]
  simp [State.narrowInstr, hbad, hact]

/-- A control word that R311 allows: one lane result of b32. -/
theorem narrowInstr_good (hgood : s.narrowBad w.ty.toNat (s.full s.lead w.b 7) = false) :
    s.narrowInstr w f = s.laneResult w.ctl w.dst 15 fun l => f l (s.full s.lead w.b 7) := by
  simp [State.narrowInstr, hgood]

end

/-- The result of an allowed word in every executing lane. -/
theorem narrowInstr_completes {w : AluW} {s : State} {n : Fin 32} (hdst : w.dst = .v n) (hstk : 2 ≤ s.cw.stk)
    (hgood : s.narrowBad w.ty.toNat (s.full s.lead w.b 7) = false) {f : Nat → Nat → Nat} {g : Nat → Nat}
    (hfg : ∀ l, f l (s.full s.lead w.b 7) = g l) : LaneResult s (s.narrowInstr w f) w.ctl n 15 g := by
  rw [narrowInstr_good hgood, hdst, ← funext hfg]
  exact laneResult_spec s w.ctl n 15 _ hstk

/-- The scale of FPACK is that of FUNPK, turned round. -/
theorem fpackWord_eq (f : Narrow) (ty rm : Nat) (sat : Bool) (v a c : Nat) :
    fpackWord f ty rm sat v a c = setBits v (narrowCw ty * bits c 4 3) (narrowCw ty) (f.encode rm sat
      (if bits c 8 8 = 255 then .nan else (f32Fmt.decode a).scale (-((bits c 8 8 : Int) - 127)))) := by
  rw [Int.neg_sub]
  rfl

/-- Settles O16: the check of the control word decides between one lane result and the trap. -/
theorem narrowComplete : Obligations.NarrowComplete := by
  intro w s n hdst hstk c f cw pos scale
  refine ⟨fun hgood => ⟨⟨_, rfl, narrowInstr_completes hdst hstk hgood fun l => ?_⟩,
    ⟨_, rfl, narrowInstr_completes hdst hstk hgood fun l => rfl⟩⟩, fun hbad hact => ?_⟩
  · rw [fpackWord_eq, hdst]
    rfl
  · simp only [List.forall_mem_cons, List.not_mem_nil, false_implies, implies_true, and_true]
    exact ⟨congrArg _ (narrowInstr_bad hbad hact), congrArg _ (narrowInstr_bad hbad hact)⟩

end Sys2Proof.Machine
end

section
/-!
Writes of time registers and z registers (O17).
-/
namespace Sys2Proof.Machine
open Sys2Proof.Claims

/-- MOV into t(n): the lanes go on, and the executing ones take the image (R297). -/
theorem exec_mov_t {w : AluW} {s : State} {n : Fin 4} (hdst : w.dst = .t n) :
    exec (.mov w) s = .next (s.passThen (s.active w.ctl) fun _ l x =>
      writeT n (BitVec.ofNat 32 (s.val l w.a w.ty.toNat)) x) := by
  show execMov w s = _
  simp only [execMov, hdst]

/-- ZOP where the z predicate holds: its result into z past the word (R258). -/
theorem exec_zop {w : AluW} {s : State} (hctl : ctlHoldsU w.ctl s.cw = true) :
    exec (.zop w) s = .next (s.advance.mapWeft s.key fun z => z.writeZ w.dst.num (s.zopResult w)) := by
  show execZop w s = _
  simp [execZop, hctl]

/-- ZOP where the z predicate is false. -/
theorem exec_zop_skipped {w : AluW} {s : State} (hctl : ctlHoldsU w.ctl s.cw = false) :
    exec (.zop w) s = .next s.advance := by
  show execZop w s = _
  simp [execZop, hctl]

/-- Settles O17: MOV writes the image past the word, ZOP the z register. -/
theorem timeAndZWritesComplete : Obligations.TimeAndZWritesComplete := by
  constructor
  · intro w s n hdst
    have hn := active_nodup s w.ctl
    have hsub := active_sub s w.ctl
    refine ⟨_, exec_mov_t hdst, onlyLanes_passThen hn hsub _, fun l hl => ?_⟩
    dsimp only
    rw [passThen_lane hn hsub]
    by_cases hctl : ctlHolds w.ctl (s.cw.lane l) = true
    · rw [if_pos hctl, if_pos (mem_active.2 ⟨hl, hctl⟩)]
      rfl
    · rw [if_neg hctl, if_neg fun h => hctl (mem_active.1 h).2, if_pos hl]
      rfl
  · intro w s
    cases hctl : ctlHoldsU w.ctl s.cw with
    | false => exact ⟨_, exec_zop_skipped hctl, advance_spec s⟩
    | true =>
      refine ⟨_, exec_zop hctl, s.zopResult w, writeZ_spec .., ?_⟩
      refine ⟨fun hty => ?_, fun hty => ?_, fun hty => ?_, fun hty => ?_, fun hty => ?_, fun hty => ?_⟩ <;>
        simp [State.zopResult, hty]

end Sys2Proof.Machine
end

section
/-!
What words of the engines share: a z predicate that holds, a weft that a word holds, and an acquire.
-/
namespace Sys2Proof.Machine
open Sys2Proof.Claims

theorem skipped_eq_false {s : State} {c : Ctl} (h : ctlHoldsU c s.cw = true) : s.skipped c = false := by
  simp [State.skipped, h]

/-- The issuing weft is held, and its decision is over (R314). -/
def State.heldBy (s : State) (hold : Hold) : State := (s.mapWeft s.key fun z => { z with hold := hold }).endDecision

theorem heldBy_cw (s : State) (hold : Hold) : (s.heldBy hold).cw = { s.cw with hold := hold } :=
  (cw_endDecision _).trans (cw_mapKey s fun z => { z with hold := hold })

theorem heldBy_bytes (s : State) (hold : Hold) : SameBytes s (s.heldBy hold) := ⟨fun _ => rfl, fun _ _ => rfl⟩

/-- A word that holds its weft leaves every other weft and every byte as they are. -/
theorem OnlyWeft.heldBy {s t : State} (h : OnlyWeft s t) (hold : Hold) :
    OnlyWeft { s with issuing := false } (t.heldBy hold) := by
  have hkey : t.key = s.key := by rw [h.1]; rfl
  obtain ⟨honly, hother, hbytes⟩ := h.map fun z => { z with hold := hold }
  rw [State.heldBy, hkey]
  refine ⟨?_, hother, hbytes⟩
  rw [honly]
  rfl

theorem heldBy_only (s : State) (hold : Hold) : OnlyWeft { s with issuing := false } (s.heldBy hold) :=
  OnlyWeft.heldBy ⟨rfl, fun _ _ => rfl, fun _ => rfl, fun _ _ => rfl⟩ hold

theorem advance_wefts_eq {s t : State} (hwefts : t.wefts = s.wefts) (hcur : t.cur = s.cur) :
    t.advance.wefts = s.advance.wefts := by
  unfold State.advance State.mapWeft State.setWeft State.weft State.key State.lanes
  simp only [hwefts, hcur]

/-- The acquire of a word leaves no clean RC copy but those that a booked hit holds, and those are doomed (R51, R87). -/
theorem fresh_acquireDrop (s : State) : Fresh s (s.advance.acquireDrop s.cur.core false) := by
  intro e he hclean hrc
  have hview : ((s.advance.acquireDrop s.cur.core false).core s.cur.core).view =
      ((s.core s.cur.core).view.filter fun e => e.2.dirty || !(rcByte false e.1 e.2 && !s.viewHeld s.cur.core e.1)).map
        fun e => if !e.2.dirty && rcByte false e.1 e.2 then (e.1, { e.2 with doomed := true }) else e := by
    rw [State.acquireDrop, core_mapCore_same]
    rfl
  rw [hview] at he
  obtain ⟨e0, hmem, rfl⟩ := List.mem_map.1 he
  have hkept := (List.mem_filter.1 hmem).2
  by_cases hdrop : (!e0.2.dirty && rcByte false e0.1 e0.2) = true
  · rw [if_pos hdrop]
    simp only [Bool.and_eq_true, Bool.not_eq_true'] at hdrop
    exact ⟨rfl, by simpa [hdrop] using hkept⟩
  · rw [if_neg hdrop] at hclean hrc
    exact absurd (by simp [rcByte, hclean, hrc]) hdrop

end Sys2Proof.Machine
end

section
/-!
Chunk waits (O34).
-/
namespace Sys2Proof.Machine
open Sys2Proof.Claims

section
variable {w : EngW} {s : State} {x : Nat} (h : ctlHoldsU w.ctl s.cw = true)
  (hword : s.chunkWord (fieldOf w 64 21) = some x)
include h hword

section
variable (hnow : s.actsNow s.lead (0xF000000000000 + fieldOf w 64 21) (s.localTgt (fieldOf w 64 21)) 8 = true)
include hnow

/-- CHKW of a word that has its bits set. -/
theorem exec_chkw_set (hbits : x &&& s.word w.a = s.word w.a) :
    exec (.chkw w) s = .next (if s.wide s.key (fieldOf w 104 3) = true then s.advance.acquireDrop s.cur.core false
      else s.advance) := by
  show execChkw w s = _
  simp [execChkw, skipped_eq_false h, hword, hnow, hbits]

/-- CHKW of a word that lacks some of its bits. -/
theorem exec_chkw_unset (hbits : x &&& s.word w.a ≠ s.word w.a) :
    exec (.chkw w) s =
      .next (s.heldBy (.chkw (fieldOf w 64 21) (BitVec.ofNat 64 (s.word w.a)) (fieldOf w 104 3))) := by
  show execChkw w s = _
  simp [execChkw, skipped_eq_false h, hword, hnow, hbits, State.heldBy]

end

/-- The request of a CHKT (R117, R316). -/
def State.chktReq (s : State) (w : EngW) : Req :=
  { s.newReq (s.agent s.key s.lead) (.chkt (s.word w.a)) 8
      [⟨s.lead, 0xF000000000000 + fieldOf w 64 21, 0, 0, 0, 0, s.localTgt (fieldOf w 64 21)⟩] (reqDst w.dst) with
    lanes := s.cur.lanes }

omit h hword in
theorem chktReq_key (s : State) (w : EngW) : (s.chktReq w).key = s.key := key_eq s

theorem exec_chkt : exec (.chkt w) s = .next (s.advance.placeLoad (s.chktReq w).alone false) := by
  show execChkt w s = _
  simp [execChkt, State.chktReq, skipped_eq_false h, hword]

end

/-- The request of a CHKT stands behind the others, as it was made (R80). -/
theorem placeLoad_chkt (s : State) (w : EngW) :
    ∃ q, Entered s.advance (s.advance.placeLoad (s.chktReq w).alone false) ∧
      (s.advance.placeLoad (s.chktReq w).alone false).reqs = s.reqs ++ [q] ∧
      ∃ r, SharedAs (s.chktReq w) r ∧ PlacedAs r q := by
  have halone := alone_spec (s.chktReq w)
  have hkey : (s.chktReq w).alone.key = s.advance.key := by
    rw [halone]
    exact chktReq_key s w
  have hid : (s.chktReq w).alone.id = s.advance.nextId := by
    rw [halone]
    rfl
  obtain ⟨q, hplaced, hreqs, -⟩ := placeLoad_reqs s.advance (s.chktReq w).alone false
  exact ⟨q, placeLoad_entered _ _ _ hkey hid, hreqs, _, halone, hplaced⟩

/-- Settles O34: CHKW by whether its bits are set, CHKT by the request that it places. -/
theorem chunkWaitsComplete : Obligations.ChunkWaitsComplete := by
  intro w s x h off m va hword
  refine ⟨fun hnow hbits => ⟨_, exec_chkw_set h hword hnow hbits, ?_⟩,
    fun hnow hbits => ⟨_, exec_chkw_unset h hword hnow hbits, heldBy_only .., heldBy_cw ..⟩, ?_⟩
  · by_cases hwide : s.wide s.key (fieldOf w 104 3) = true
    · rw [if_pos hwide]
      exact ⟨(acquireDrop_quiet s.advance _ false).1, rfl, fun _ => fresh_acquireDrop s⟩
    · rw [if_neg hwide]
      exact ⟨⟨fun _ => rfl, fun _ _ => rfl⟩, rfl, fun hw => absurd hw hwide⟩
  · obtain ⟨q, hentered, hreqs, r, hshared, hplaced⟩ := placeLoad_chkt s w
    refine ⟨_, q, exec_chkt h hword, hentered, hreqs, ?_⟩
    rw [hplaced, hshared]
    exact ⟨rfl, rfl, chktReq_key s w, rfl, rfl, rfl, rfl, rfl⟩

end Sys2Proof.Machine
end

section
/-!
Uses of a tile (R43, R118).
-/
namespace Sys2Proof.Machine
open Sys2Proof.Claims

/-- A table restricted to some of its keys. -/
theorem look_filter {α : Type} (p : Nat → Bool) (k : Nat) (t : Tab α) :
    look k (t.filter fun e => p e.1) = if p k then look k t else none := by
  induction t with
  | nil => simp [look]
  | cons e t ih =>
    obtain ⟨j, v⟩ := e
    by_cases hk : k = j
    · subst hk
      cases hp : p k <;> simp [hp, look, ih]
    · cases hp : p j <;> simp [hp, look, hk, ih]

theorem look_clearBad {tile m n k : Nat} {t : Tab Nat} (h : look k t = none) : look k (clearBad tile m n t) = none := by
  rw [clearBad, look_filter fun k => !(k / 1024 = tile && k % 1024 / 32 < m && k % 32 < n), h, ite_self]

/-- What a use of a tile by the issuing context leaves: the tile is the context's, a free one filled with +0, and nothing
else has changed (R43). -/
structure TileUsed (s u : State) (tile : Nat) : Prop where
  only : u = { s with cores := u.cores }
  core : ∀ c, u.core c = { s.core c with
    acown := (u.core c).acown
    acc := (u.core c).acc
    accBad := (u.core c).accBad }
  owns : Owns s u tile
  elements : ∀ k, acc u s.cur.core k = accUsed s tile k
  elsewhere : ∀ k, k / 1024 ≠ tile → acc u s.cur.core k = acc s s.cur.core k
  clean : ∀ k, look k (s.core s.cur.core).accBad = none → look k (u.core s.cur.core).accBad = none

namespace TileUsed
variable {s u : State} {tile : Nat} (h : TileUsed s u tile)
include h

theorem cur : u.cur = s.cur := by rw [h.only]
theorem wefts : u.wefts = s.wefts := by rw [h.only]
theorem cw : u.cw = s.cw := by rw [h.only]; rfl
theorem mem : u.mem = s.mem := by rw [h.only]
theorem spad (c : Nat) : (u.core c).spad = (s.core c).spad := by rw [h.core]
theorem loomq (c : Nat) : (u.core c).loomq = (s.core c).loomq := by rw [h.core]
theorem loomDone (c : Nat) : (u.core c).loomDone = (s.core c).loomDone := by rw [h.core]

theorem bytes : SameBytes s u := ⟨fun a => by rw [h.mem], fun c a => by rw [h.spad]⟩

theorem advance_wefts : u.advance.wefts = s.advance.wefts := advance_wefts_eq h.wefts h.cur

theorem spbase : u.spbase u.key = s.spbase s.key := by
  rw [h.only]
  rfl

theorem narrowOf (c : Nat) : u.narrowOf c = s.narrowOf c := by
  have hctx : u.ctxOf u.key = s.ctxOf s.key := by
    rw [h.only]
    rfl
  rw [State.narrowOf, State.block, hctx, h.cur, h.core]
  rfl

theorem tilePending (c n : Nat) : (u.core c).tilePending n = (s.core c).tilePending n := by
  rw [h.core]
  rfl

end TileUsed

/-- A tile that nobody owns is claimed. -/
theorem useTile_free {s : State} {tile : Nat}
    (hfree : (lookD tile (0 : Word) (s.core s.cur.core).acown).getLsbD 63 = false) :
    ∃ u, s.useTile s.cur.core (s.ctxOf s.key) tile = some u ∧ TileUsed s u tile := by
  refine ⟨_, by rw [State.useTile, if_pos (by rw [hfree]; rfl)], rfl, fun c => ?_, ?_, fun k => ?_, fun k hk => ?_, fun k hk => ?_⟩
  · rw [core_mapCore]
    split
    · next hc => rw [hc]
    · rfl
  · have hlt : (2 ^ 63 + s.ctxOf s.key % 2 ^ 16) < 2 ^ 64 := by omega
    rw [Owns, core_mapCore_same, lookD_put_same, ← BitVec.testBit_toNat, BitVec.toNat_ofNat, Nat.mod_eq_of_lt hlt]
    refine ⟨?_, by omega⟩
    rw [Nat.testBit_two_pow_add_eq, Nat.testBit_lt_two_pow (by omega)]
    rfl
  all_goals
    simp only [acc, accUsed, lookD, core_mapCore_same]
  · rw [look_filter fun k => !(k / 1024 = tile)]
    by_cases hk : k / 1024 = tile <;> simp [hk]
    exact fun h => by simp [lookD, h] at hfree
  · rw [look_filter fun k => !(k / 1024 = tile)]
    simp [hk]
  · exact look_clearBad hk

/-- A tile that the context owns is used as it is. -/
theorem useTile_owned {s : State} {tile : Nat}
    (howned : (lookD tile (0 : Word) (s.core s.cur.core).acown).getLsbD 63 = true)
    (hctx : (lookD tile (0 : Word) (s.core s.cur.core).acown).toNat % 2 ^ 16 = s.ctxOf s.key) :
    s.useTile s.cur.core (s.ctxOf s.key) tile = some s ∧ TileUsed s s tile := by
  refine ⟨by rw [State.useTile, howned]; exact if_pos hctx, rfl, fun _ => rfl, ⟨howned, by omega⟩, fun k => ?_, fun _ _ => rfl,
    fun _ h => h⟩
  rw [accUsed, if_neg]
  rw [howned]
  exact fun h => Bool.noConfusion h.2

/-- A tile that the issuing context may use is used. -/
theorem onTile_mayUse {s : State} {tile : Nat} (hmay : MayUse s tile) :
    ∃ u, TileUsed s u tile ∧ ∀ f : State → State, s.onTile tile f = f u := by
  have huse : ∃ u, s.useTile s.cur.core (s.ctxOf s.key) tile = some u ∧ TileUsed s u tile := by
    cases howned : (lookD tile (0 : Word) (s.core s.cur.core).acown).getLsbD 63 with
    | false => exact useTile_free howned
    | true => exact ⟨s, useTile_owned howned (hmay.resolve_left fun hfree => Bool.noConfusion (howned.symm.trans hfree))⟩
  obtain ⟨u, huse, hused⟩ := huse
  exact ⟨u, hused, fun f => by simp [State.onTile, huse]⟩

/-- An owner stays the owner where the owner registers of the core stay. -/
theorem owns_of_acown {s u t : State} {tile : Nat} (h : Owns s u tile)
    (hown : (t.core s.cur.core).acown = (u.core s.cur.core).acown) : Owns s t tile := by
  rw [Owns, hown]
  exact h

end Sys2Proof.Machine
end

section
/-!
The loom's queue (O35).
-/
namespace Sys2Proof.Machine
open Sys2Proof.Claims

/-- An entry stands at the end of the core's queue, and the weft goes on (R317). -/
theorem acceptLoom_spec {s u : State} {tile : Nat} (hused : TileUsed s u tile) (e : LoomEntry) :
    let t := u.acceptLoom e
    (SameBytes s t ∧ t.wefts = s.advance.wefts ∧ (t.core s.cur.core).loomq = (s.core s.cur.core).loomq ++ [e]) ∧
      Owns s t tile := by
  have hcore : (u.acceptLoom e).core s.cur.core =
      { u.core s.cur.core with loomq := (s.core s.cur.core).loomq ++ [e] } := by
    rw [State.acceptLoom, ← hused.cur, core_mapCore_same, hused.cur, ← hused.loomq]
    rfl
  refine ⟨⟨hused.bytes.trans (mapCore_bytes _ _ (by exact fun _ => rfl)), hused.advance_wefts, ?_⟩, owns_of_acown hused.owns ?_⟩
  all_goals rw [hcore]

theorem mineWith_iff {core slot tag : Nat} {o : MmaOp} :
    mineWith core slot tag o = true ↔ o.agent.core = core ∧ o.agent.slot = slot ∧ o.tag = tag := by
  simp [mineWith, and_assoc]

/-- A weft's entries of a tag that are done are collected (R322). -/
def State.collect (s : State) (core slot tag : Nat) : State :=
  s.mapCore core fun c => { c with loomDone := c.loomDone.filter fun o => !mineWith core slot tag o }

theorem collect_spec {s u : State} {tile : Nat} (hused : TileUsed s u tile) (slot tag : Nat) :
    let t := (u.collect s.cur.core slot tag).advance
    SameBytes s t ∧ t.wefts = s.advance.wefts ∧
      (∀ o ∈ (t.core s.cur.core).loomDone, o ∈ (s.core s.cur.core).loomDone ∧ ¬mineWith s.cur.core slot tag o = true) ∧
      Owns s t tile := by
  have hcore : (u.collect s.cur.core slot tag).advance.core s.cur.core = { u.core s.cur.core with
      loomDone := (s.core s.cur.core).loomDone.filter fun o => !mineWith s.cur.core slot tag o } := by
    rw [core_advance, State.collect, core_mapCore_same, hused.loomDone]
  have hbytes : SameBytes u (u.collect s.cur.core slot tag) := mapCore_bytes _ _ (by exact fun _ => rfl)
  refine ⟨hused.bytes.trans hbytes, hused.advance_wefts, fun o ho => ?_,
    owns_of_acown hused.owns (by rw [hcore])⟩
  rw [hcore] at ho
  simpa using List.mem_filter.1 ho

/-- Where every access passes, none raises and none faults. -/
theorem checks_pass {cs : List (Access × Check)} (h : ∀ e ∈ cs, ∃ g wk, e.2 = .ok g wk) (pc : Word) :
    cs.filterMap (raiseOf pc) = [] ∧ cs.filter isFault = [] := by
  refine ⟨List.filterMap_eq_nil_iff.2 fun e he => ?_, List.filter_eq_nil_iff.2 fun e he => ?_⟩
  all_goals
    obtain ⟨g, wk, hcheck⟩ := h e he
    simp [raiseOf, isFault, hcheck]

section
variable {w : EngW} {s : State} (h : ctlHoldsU w.ctl s.cw = true)
include h

section
variable (hin : s.loomOut = false) (hroom : s.loomFull = false)
include hin hroom

theorem exec_oprdy (hdrained : s.ownQueued = false) :
    exec (.oprdy w) s = .next (s.acceptLoom (.oprdy s.cur.core s.cur.slot)) := by
  show execOprdy w s = _
  simp [execOprdy, skipped_eq_false h, hin, hroom, hdrained]

theorem exec_mma (hgood : mmaBad (s.mmaOp w false []) (s.word w.a) (s.word w.b) = none) (hdrained : s.ownQueued = false)
    (hrows : ∀ r ∈ (s.mmaOp w false []).rows, r.1 - s.spbase s.key + r.2 ≤ (s.teamOf s.key).spad) :
    exec (.mma w) s = .next (s.onTile (fieldOf w 64 6) fun t => t.acceptLoom (.mma (s.mmaOp w false []))) := by
  have hfind : ((s.mmaOp w false []).rows.find? fun r => (s.teamOf s.key).spad < r.1 - s.spbase s.key + r.2) = none :=
    List.find?_eq_none.2 fun r hr => by simpa using hrows r hr
  show execMma w s = _
  simp only [execMma, skipped_eq_false h, hin, hroom, hgood, hdrained, hfind]
  rfl

/-- MMAS all of whose pages pass their checks: none traps, and none has to be waited for. -/
theorem exec_mmas (hgood : mmaBad (s.mmaOp w true []) (s.mmaOp w true []).a (s.mmaOp w true []).b = none)
    (hready : s.releaseReady s.key s.lead s.nextId 3 = true)
    (hpages : ∀ va ∈ (s.mmaOp w true []).pages, ∃ g wk, s.pageCheck (s.mmaOp w true []).agent va = .ok g wk) :
    exec (.mmas w) s = .next (s.onTile (fieldOf w 64 6) fun t => t.acceptLoom (.mma (s.mmaOp w true []))) := by
  obtain ⟨htraps, hfaults⟩ := checks_pass (cs := (s.mmaOp w true []).pages.map fun va =>
    (⟨s.lead, BitVec.ofNat 64 va, 0, 0⟩, s.pageCheck (s.mmaOp w true []).agent va)) (List.forall_mem_map.2 hpages) s.cur.va
  show execMmas w s = _
  simp only [execMmas, skipped_eq_false h, hin, hroom, hgood, hready, htraps, hfaults]
  rfl

end

section
variable {u : State} (hon : ∀ f : State → State, s.onTile (fieldOf w 64 6) f = f u)
include hon

/-- AWAIT while an entry of its tag is open. -/
theorem exec_await_open (hused : TileUsed s u (fieldOf w 64 6))
    (hopen : (s.core s.cur.core).loomOps.any (mineWith s.cur.core s.cur.slot (fieldOf w 103 3)) = true) :
    exec (.await w) s = .next (u.heldBy (.loom (fieldOf w 103 3))) := by
  have hkey : u.key = s.key := by rw [State.key, hused.cur]; rfl
  show execAwait w s = _
  simp [execAwait, skipped_eq_false h, hon, hopen, State.heldBy, hkey]

/-- AWAIT of a tag whose entries are all done, and that has no report. -/
theorem exec_await_done
    (hdone : (s.core s.cur.core).loomOps.any (mineWith s.cur.core s.cur.slot (fieldOf w 103 3)) = false)
    (hreport : look (fieldOf w 103 3) s.cw.reports = none) :
    exec (.await w) s = .next (u.collect s.cur.core s.cur.slot (fieldOf w 103 3)).advance := by
  show execAwait w s = _
  simp [execAwait, skipped_eq_false h, hon, hdone, hreport, State.collect]

end
end

/-- Settles O35: an entry is accepted where its checks pass; AWAIT goes by whether an entry of its tag is open. -/
theorem loomWordsComplete : Obligations.LoomWordsComplete := by
  intro w s h c entered
  refine ⟨fun hin hroom => ⟨fun hdrained => ?_, fun hmay => ?_⟩, fun hmay => ?_⟩
  · exact ⟨_, exec_oprdy h hin hroom hdrained, mapCore_bytes _ _ (by exact fun _ => rfl), rfl, by simp [State.acceptLoom, c]⟩
  · obtain ⟨u, hused, hon⟩ := onTile_mayUse hmay
    refine ⟨fun hgood hdrained hrows => ⟨_, exec_mma h hin hroom hgood hdrained hrows, ?_⟩,
      fun hgood hready hpages => ⟨_, exec_mmas h hin hroom hgood hready hpages, ?_⟩⟩
    all_goals
      rw [hon]
      exact acceptLoom_spec hused _
  · obtain ⟨u, hused, hon⟩ := onTile_mayUse hmay
    refine ⟨fun ⟨o, ho, hmine⟩ => ?_, fun hdone hreport => ?_⟩
    · refine ⟨_, exec_await_open h hon hused (List.any_eq_true.2 ⟨o, ho, mineWith_iff.2 hmine⟩),
        hused.bytes.trans (heldBy_bytes ..), rfl, ?_⟩
      rw [heldBy_cw, hused.cw]
    · refine ⟨_, exec_await_done h hon (List.any_eq_false.2 fun o ho hmine => hdone o ho (mineWith_iff.1 hmine)) hreport, ?_⟩
      obtain ⟨hbytes, hwefts, hcollected, howns⟩ := collect_spec hused s.cur.slot (fieldOf w 103 3)
      refine ⟨hbytes, hwefts, fun o ho => ?_, howns⟩
      exact ⟨(hcollected o ho).1, fun hmine => (hcollected o ho).2 (mineWith_iff.2 hmine)⟩

end Sys2Proof.Machine
end

section
/-!
Words that act on a tile directly (O36).
-/
namespace Sys2Proof.Machine
open Sys2Proof.Claims

/-! ### Elements of a tile -/

/-- A pass in row order over an M × N region gives each of its elements its value. -/
theorem region_elements {tile m n i j : Nat} (hn : n ≤ 32) (hi : i < m) (hj : j < n) (val : Nat → Nat → W32)
    (t : Tab W32) :
    lookD (accKey tile i j) (0 : W32) ((List.range (m * n)).foldl (fun t e =>
      put (accKey tile (e / n) (e % n)) (val (e / n) (e % n)) t) t) = val i j := by
  have h0 : 0 < n := by omega
  have hlt : n * i + j < m * n := calc
    n * i + j < n * (i + 1) := by rw [Nat.mul_succ]; omega
    _ ≤ m * n := by rw [Nat.mul_comm m]; exact Nat.mul_le_mul_left n hi
  have hdiv : (n * i + j) / n = i := by rw [Nat.mul_add_div h0, Nat.div_eq_of_lt hj, Nat.add_zero]
  have hmod : (n * i + j) % n = j := by rw [Nat.mul_add_mod, Nat.mod_eq_of_lt hj]
  have h := lookD_foldl_puts (0 : W32) (key := fun e => accKey tile (e / n) (e % n)) (fun e => val (e / n) (e % n))
    (fun _ _ _ _ => accKey_inj hn h0) List.nodup_range t (List.mem_range.2 hlt)
  rwa [hdiv, hmod] at h

/-- What lies outside the region stays. -/
theorem region_outside {tile m n k : Nat} (hk : ∀ i j, i < m → j < n → k ≠ accKey tile i j) (val : Nat → Nat → W32)
    (t : Tab W32) :
    lookD k (0 : W32) ((List.range (m * n)).foldl (fun t e =>
      put (accKey tile (e / n) (e % n)) (val (e / n) (e % n)) t) t) = lookD k 0 t := by
  refine lookD_foldl_puts_other (0 : W32) (key := fun e => accKey tile (e / n) (e % n)) _ (fun e he => ?_) t
  have hlt : e < n * m := Nat.mul_comm m n ▸ List.mem_range.1 he
  exact hk _ _ (Nat.div_lt_of_lt_mul hlt) (Nat.mod_lt e (Nat.pos_of_mul_pos_right (Nat.lt_of_le_of_lt (Nat.zero_le e) hlt)))

/-- The elements of a tile, in order, written each to its value. -/
theorem tile_elements (tile k : Nat) (val : Nat → W32) (t : Tab W32) :
    lookD k (0 : W32) ((List.range 1024).foldl (fun t e => put (1024 * tile + e) (val e) t) t) =
      if k / 1024 = tile then val (k % 1024) else lookD k 0 t := by
  split
  · next hk =>
    subst hk
    have h := lookD_foldl_puts (0 : W32) (key := fun e => 1024 * (k / 1024) + e) val (fun _ _ _ _ => Nat.add_left_cancel)
      List.nodup_range t (List.mem_range.2 (Nat.mod_lt k (by decide : 0 < 1024)))
    rwa [Nat.div_add_mod] at h
  · next hk =>
    refine lookD_foldl_puts_other (0 : W32) (key := fun e => 1024 * tile + e) val (fun e he => ?_) t
    have := List.mem_range.1 he
    omega

/-- The elements of a core, and what is known to be wrong with them, replaced. -/
def State.withElements (s : State) (core : Nat) (a : Tab W32) (bad : Tab Nat) : State :=
  s.mapCore core fun c => { c with acc := a, accBad := bad }

theorem withElements_core (s : State) (core : Nat) (a : Tab W32) (bad : Tab Nat) :
    (s.withElements core a bad).core core = { s.core core with acc := a, accBad := bad } := core_mapCore_same ..

theorem withElements_bytes (s : State) (core : Nat) (a : Tab W32) (bad : Tab Nat) :
    SameBytes s (s.withElements core a bad) := mapCore_bytes s core (by exact fun _ => rfl)

theorem acc_withElements (s : State) (core : Nat) (a : Tab W32) (bad : Tab Nat) (k : Nat) :
    acc (s.withElements core a bad).advance core k = lookD k 0 a := by
  rw [acc, core_advance, withElements_core]

/-- A write of a tile that no entry names taints nothing (R118). -/
theorem tileWritten_idle {s : State} {core tile : Nat} (h : (s.core core).tilePending tile = false) :
    s.tileWritten core tile = s := by
  rw [State.tileWritten, h]
  rfl

theorem tileWritten_withElements {s : State} {core tile : Nat} (h : (s.core core).tilePending tile = false)
    (a : Tab W32) (bad : Tab Nat) :
    (s.withElements core a bad).tileWritten core tile = s.withElements core a bad :=
  tileWritten_idle (by rw [withElements_core]; exact h)

/-- What a word that replaces elements of a tile in use leaves. -/
theorem TileUsed.withElements {s u : State} {tile : Nat} (hused : TileUsed s u tile) (a : Tab W32) (bad : Tab Nat) :
    let t := (u.withElements s.cur.core a bad).advance
    SameBytes s t ∧ t.wefts = s.advance.wefts ∧ Owns s t tile :=
  ⟨hused.bytes.trans (withElements_bytes u s.cur.core a bad), hused.advance_wefts,
    owns_of_acown hused.owns (by rw [core_advance, withElements_core])⟩

theorem element_clean {s : State} {core tile i j : Nat} (hidle : (s.core core).tilePending tile = false)
    (hclean : look (accKey tile i j) (s.core core).accBad = none) :
    s.element core tile i j = (acc s core (accKey tile i j)).toNat := by
  simp [State.element, hidle, hclean, acc]

/-! ### AZERO, ALD (R323) -/

/-- The row stride of a tile word. -/
def State.strideOf (s : State) (w : EngW) : Nat := (s.cw.sreg w.dst.num).toNat % 2 ^ 32

/-- The rows of a tile word lie in the allocation. -/
def State.RowsFit (s : State) (w : EngW) (row : Nat) : Prop :=
  ∀ i, i < fieldOf w 70 6 → s.word w.a + i * s.strideOf w + row ≤ (s.teamOf s.key).spad

/-- ALD and AST whose base and stride are aligned and whose rows lie in the allocation. -/
theorem tileMove_goes {w : EngW} {s : State} {al row : Nat} (h : ctlHoldsU w.ctl s.cw = true)
    (hd : s.strideOf w % al = 0) (ho : s.word w.a % al = 0) (hrows : s.RowsFit w row) (f : Nat → Nat → State) :
    s.tileMove w al row f = f (s.word w.a) (s.strideOf w) := by
  have hfind : ((List.range (fieldOf w 70 6)).find? fun i =>
      (s.teamOf s.key).spad < s.word w.a + i * s.strideOf w + row) = none :=
    List.find?_eq_none.2 fun i hi => by simpa using hrows i (List.mem_range.1 hi)
  rw [State.strideOf] at hd hfind
  simp only [State.tileMove, skipped_eq_false h, hd, ho, hfind]
  rfl

/-- The value that ALD gives element (i, j) from rows at o of stride d. -/
def State.aldElement (s : State) (w : EngW) (o d i j : Nat) : W32 :=
  BitVec.ofNat 32 (if fieldOf w 82 2 = 0 then mnum (s.core s.cur.core).spad (s.spbase s.key + o + i * d + 4 * j) 4
    else f32Fmt.encode 0 false (bf16Fmt.decode (mnum (s.core s.cur.core).spad (s.spbase s.key + o + i * d + 2 * j) 2)))

section
variable {w : EngW} {s u : State}

section
variable (hidle : (s.core s.cur.core).tilePending (fieldOf w 64 6) = false) (hused : TileUsed s u (fieldOf w 64 6))
include hidle hused

theorem exec_azero (h : ctlHoldsU w.ctl s.cw = true) (hon : ∀ f : State → State, s.onTile (fieldOf w 64 6) f = f u) :
    exec (.azero w) s = .next (u.withElements s.cur.core
      ((u.core s.cur.core).acc.filter fun e => !(e.1 / 1024 = fieldOf w 64 6))
      (clearBad (fieldOf w 64 6) 32 32 (u.core s.cur.core).accBad)).advance := by
  show execAzero w s = _
  simp only [execAzero, skipped_eq_false h, hon]
  rw [← tileWritten_withElements (tile := fieldOf w 64 6) (by rw [hused.tilePending]; exact hidle)]
  rfl

/-- What ALD writes into a tile in use, by rows. -/
theorem aldWrite_used (o d : Nat) : u.aldWrite w o d = u.withElements s.cur.core
    ((List.range (fieldOf w 70 6 * fieldOf w 76 6)).foldl (fun t e =>
      put (accKey (fieldOf w 64 6) (e / fieldOf w 76 6) (e % fieldOf w 76 6))
        (s.aldElement w o d (e / fieldOf w 76 6) (e % fieldOf w 76 6)) t) (u.core s.cur.core).acc)
    (clearBad (fieldOf w 64 6) (fieldOf w 70 6) (fieldOf w 76 6) (u.core s.cur.core).accBad) := by
  rw [← tileWritten_withElements (tile := fieldOf w 64 6) (by rw [hused.tilePending]; exact hidle)]
  simp only [State.aldWrite, State.aldElement, hused.cur, hused.spad, hused.spbase]
  rfl

end

theorem exec_ald (h : ctlHoldsU w.ctl s.cw = true) (hon : ∀ f : State → State, s.onTile (fieldOf w 64 6) f = f u)
    (hd : s.strideOf w % 4 = 0) (ho : s.word w.a % 4 = 0)
    (hfree : s.rowsFree (s.word w.a) (s.strideOf w) (fieldOf w 70 6) (tileRow (fieldOf w 82 2) (fieldOf w 76 6)) = true)
    (hrows : s.RowsFit w (tileRow (fieldOf w 82 2) (fieldOf w 76 6))) :
    exec (.ald w) s = .next (u.aldWrite w (s.word w.a) (s.strideOf w)).advance := by
  show execAld w s = _
  simp only [execAld, tileMove_goes h hd ho hrows, hon, hfree]
  rfl

/-! ### AST (R323) -/

/-- Bytes of one scratchpad are a list's from an offset on; no other byte of it, of another scratchpad or of memory
differs, and no weft does. -/
def RowWritten (core a : Nat) (bs : List Byte) (s t : State) : Prop :=
  t.wefts = s.wefts ∧ t.cur = s.cur ∧ (∀ x, mget t.mem x = mget s.mem x) ∧
    ∀ c x, mget (t.core c).spad x =
      if c = core ∧ a ≤ x ∧ x < a + bs.length then bs.getD (x - a) 0 else mget (s.core c).spad x

theorem setTag_spad (s : State) (core off : Nat) (y : BitVec 16) :
    (s.setTag (.spad core off) y).wefts = s.wefts ∧ (s.setTag (.spad core off) y).cur = s.cur ∧
      SameBytes s (s.setTag (.spad core off) y) :=
  ⟨rfl, rfl, mapCore_bytes s core (by exact fun _ => rfl)⟩

/-- Tags set in one scratchpad change no byte and no weft. -/
theorem foldl_setTag (off : Nat → Nat) (y : BitVec 16) (core : Nat) (bs : List Nat) (s : State) :
    let t := bs.foldl (fun t b => t.setTag (.spad core (off b)) y) s
    t.wefts = s.wefts ∧ t.cur = s.cur ∧ SameBytes s t := by
  induction bs generalizing s with
  | nil => exact ⟨rfl, rfl, fun _ => rfl, fun _ _ => rfl⟩
  | cons b bs ih =>
    obtain ⟨hwefts, hcur, hbytes⟩ := setTag_spad s core (off b) y
    obtain ⟨hwefts', hcur', hbytes'⟩ := ih (s.setTag (.spad core (off b)) y)
    exact ⟨hwefts'.trans hwefts, hcur'.trans hcur, hbytes.trans hbytes'⟩

theorem RowWritten.then_same {core a : Nat} {bs : List Byte} {s t v : State} (h : RowWritten core a bs s t)
    (hwefts : v.wefts = t.wefts) (hcur : v.cur = t.cur) (hbytes : SameBytes t v) : RowWritten core a bs s v := by
  obtain ⟨hw, hc, hmem, hspad⟩ := h
  exact ⟨hwefts.trans hw, hcur.trans hc, fun x => (hbytes.1 x).trans (hmem x), fun c x => (hbytes.2 c x).trans (hspad c x)⟩

/-- Rows written one after another, none over an earlier one: each has its bytes, and no byte outside them differs. -/
theorem foldl_rows {f : State → Nat → State} {core len : Nat} {off : Nat → Nat} {row : Nat → List Byte}
    (hf : ∀ t i, RowWritten core (off i) (row i) t (f t i)) (hlen : ∀ i, (row i).length = len) (s : State) (m : Nat)
    (hapart : ∀ i j, i < j → j < m → off i + len ≤ off j) :
    let t := (List.range m).foldl f s
    t.wefts = s.wefts ∧ t.cur = s.cur ∧ (∀ x, mget t.mem x = mget s.mem x) ∧
      (∀ i n, i < m → n < len → mget (t.core core).spad (off i + n) = (row i).getD n 0) ∧
      ∀ c x, (c = core → ∀ i, i < m → x < off i ∨ off i + len ≤ x) → mget (t.core c).spad x = mget (s.core c).spad x := by
  induction m with
  | zero => exact ⟨rfl, rfl, fun _ => rfl, fun _ _ hi => absurd hi (Nat.not_lt_zero _), fun _ _ _ => rfl⟩
  | succ m ih =>
    obtain ⟨hwefts, hcur, hmem, hread, hout⟩ := ih fun i j hij hj => hapart i j hij (Nat.lt_succ_of_lt hj)
    rw [List.range_succ, List.foldl_append, List.foldl_cons, List.foldl_nil]
    generalize (List.range m).foldl f s = t at *
    obtain ⟨hw, hc, hm, hspad⟩ := hf t m
    rw [hlen] at hspad
    refine ⟨hw.trans hwefts, hc.trans hcur, fun x => (hm x).trans (hmem x), fun i n hi hn => ?_, fun c x hx => ?_⟩
    · rw [hspad]
      rcases Nat.lt_succ_iff_lt_or_eq.1 hi with hi | rfl
      · have := hapart i m hi (Nat.lt_succ_self m)
        rw [if_neg (by omega), hread i n hi hn]
      · rw [if_pos ⟨rfl, by omega, by omega⟩, Nat.add_sub_cancel_left]
    · rw [hspad, if_neg, hout c x fun hc i hi => hx hc i (Nat.lt_succ_of_lt hi)]
      rintro ⟨hc, hge, hlt⟩
      have := hx hc m (Nat.lt_succ_self m)
      omega

/-- Bytes of each row that AST writes. -/
def astLen (w : EngW) : Nat := astRow (fieldOf w 82 2) (fieldOf w 76 6) (w.ext.getLsbD 35)

/-- The bytes of row i as AST writes it. -/
def State.astBytes (s : State) (w : EngW) (i : Nat) : List Byte :=
  packRow (fieldOf w 82 2) (astLen w) ((List.range (fieldOf w 76 6)).map fun j =>
    astCode (fieldOf w 82 2) (fieldOf w 96 2) (w.ext.getLsbD 34) (s.narrowOf (fieldOf w 84 4)) (fieldOf w 88 8)
      (s.element s.cur.core (fieldOf w 64 6) i j))

theorem astBytes_length (s : State) (w : EngW) (i : Nat) : (s.astBytes w i).length = astLen w := length_leBytes ..

/-- AST's row i, read off a state s and written in a state t: its bytes, and the tags of its blocks under TAGW. -/
def State.putAstRow (s : State) (w : EngW) (o d : Nat) (t : State) (i : Nat) : State :=
  let a := s.spbase s.key + o + i * d
  let t1 := t.homeWrite (s.agent s.key s.lead).asid (.spad s.cur.core a) (s.astBytes w i)
  if w.ext.getLsbD 35 then
    (List.range (astLen w / 64)).foldl (fun t b => t.setTag (.spad s.cur.core (a + 64 * b))
      (BitVec.ofNat 16 (astTag (fieldOf w 82 2) (fieldOf w 84 4) (fieldOf w 88 8)))) t1
  else t1

theorem astWrite_eq (s : State) (w : EngW) (o d : Nat) :
    s.astWrite w o d = (List.range (fieldOf w 70 6)).foldl (s.putAstRow w o d) s := rfl

theorem putAstRow_written (s : State) (w : EngW) (o d : Nat) (t : State) (i : Nat) :
    RowWritten s.cur.core (s.spbase s.key + o + i * d) (s.astBytes w i) t (s.putAstRow w o d t i) := by
  have hwrite := homeWrite_spad t (s.agent s.key s.lead).asid s.cur.core (s.spbase s.key + o + i * d) (s.astBytes w i)
  unfold State.putAstRow
  dsimp only
  split
  · obtain ⟨hwefts, hcur, hbytes⟩ := foldl_setTag (fun b => s.spbase s.key + o + i * d + 64 * b)
      (BitVec.ofNat 16 (astTag (fieldOf w 82 2) (fieldOf w 84 4) (fieldOf w 88 8))) s.cur.core _ _
    exact RowWritten.then_same hwrite hwefts hcur hbytes
  · exact hwrite

/-- AST writes its rows from the base on, each at its stride. -/
theorem astWrite_spec (s : State) (w : EngW) (o d : Nat) (hapart : fieldOf w 70 6 ≤ 1 ∨ astLen w ≤ d) :
    let t := s.astWrite w o d
    t.wefts = s.wefts ∧ t.cur = s.cur ∧ (∀ x, mget t.mem x = mget s.mem x) ∧
      (∀ i, i < fieldOf w 70 6 →
        mread (t.core s.cur.core).spad (s.spbase s.key + o + i * d) (astLen w) = s.astBytes w i) ∧
      ∀ c x, (c = s.cur.core → ∀ i, i < fieldOf w 70 6 →
        x < s.spbase s.key + o + i * d ∨ s.spbase s.key + o + i * d + astLen w ≤ x) →
        mget (t.core c).spad x = mget (s.core c).spad x := by
  have hoff : ∀ i j, i < j → j < fieldOf w 70 6 →
      s.spbase s.key + o + i * d + astLen w ≤ s.spbase s.key + o + j * d := by
    intro i j hij hj
    have hmul : (i + 1) * d ≤ j * d := Nat.mul_le_mul_right d hij
    rw [Nat.succ_mul] at hmul
    omega
  rw [astWrite_eq]
  obtain ⟨hwefts, hcur, hmem, hread, hout⟩ :=
    foldl_rows (putAstRow_written s w o d) (astBytes_length s w) s (fieldOf w 70 6) hoff
  refine ⟨hwefts, hcur, hmem, fun i hi => ?_, hout⟩
  rw [← astBytes_length s w i]
  exact mread_list _ _ _ fun n hn => hread i n hi (astBytes_length s w i ▸ hn)

/-- An element as AST and its use of the tile find it. -/
theorem TileUsed.element {i j : Nat} (hused : TileUsed s u (fieldOf w 64 6))
    (hidle : (s.core s.cur.core).tilePending (fieldOf w 64 6) = false)
    (hclean : look (accKey (fieldOf w 64 6) i j) (s.core s.cur.core).accBad = none) :
    u.element s.cur.core (fieldOf w 64 6) i j = (accUsed s (fieldOf w 64 6) (accKey (fieldOf w 64 6) i j)).toNat := by
  rw [element_clean (by rw [hused.tilePending]; exact hidle) (hused.clean _ hclean), hused.elements]

/-- What AST writes of a tile in use. -/
theorem TileUsed.astWrite_spec (hused : TileUsed s u (fieldOf w 64 6))
    (hidle : (s.core s.cur.core).tilePending (fieldOf w 64 6) = false)
    (hclean : ∀ i j, i < fieldOf w 70 6 → j < fieldOf w 76 6 →
      look (accKey (fieldOf w 64 6) i j) (s.core s.cur.core).accBad = none)
    (o d : Nat) (hapart : fieldOf w 70 6 ≤ 1 ∨ astLen w ≤ d) :
    let t := (u.astWrite w o d).advance
    t.wefts = s.advance.wefts ∧ (∀ x, mget t.mem x = mget s.mem x) ∧
      (∀ i, i < fieldOf w 70 6 → mread (t.core s.cur.core).spad (s.spbase s.key + o + i * d) (astLen w) =
        packRow (fieldOf w 82 2) (astLen w) ((List.range (fieldOf w 76 6)).map fun j =>
          astCode (fieldOf w 82 2) (fieldOf w 96 2) (w.ext.getLsbD 34) (s.narrowOf (fieldOf w 84 4)) (fieldOf w 88 8)
            (accUsed s (fieldOf w 64 6) (accKey (fieldOf w 64 6) i j)).toNat)) ∧
      ∀ c x, (c = s.cur.core → ∀ i, i < fieldOf w 70 6 →
        x < s.spbase s.key + o + i * d ∨ s.spbase s.key + o + i * d + astLen w ≤ x) →
        mget (t.core c).spad x = mget (s.core c).spad x := by
  obtain ⟨hwefts, hcur, hmem, hread, hout⟩ := Machine.astWrite_spec u w o d hapart
  rw [hused.cur, hused.spbase] at hread hout
  simp only [core_advance, advance_mem]
  refine ⟨advance_wefts_eq (hwefts.trans hused.wefts) (hcur.trans hused.cur), fun x => (hmem x).trans (by rw [hused.mem]),
    fun i hi => ?_, fun c x hx => (hout c x hx).trans (by rw [hused.spad])⟩
  rw [hread i hi, State.astBytes, hused.cur, hused.narrowOf]
  congr 1
  refine List.map_congr_left fun j hj => ?_
  rw [hused.element hidle (hclean i j hi (List.mem_range.1 hj))]

/-- AST of a format that its FM takes. -/
theorem exec_ast (h : ctlHoldsU w.ctl s.cw = true) (hon : ∀ f : State → State, s.onTile (fieldOf w 64 6) f = f u)
    (hfmt : fieldOf w 82 2 < 2 ∨ (s.narrowOf (fieldOf w 84 4)).valid = true ∧
      ((s.narrowOf (fieldOf w 84 4)).cw = true ↔ fieldOf w 82 2 = 2))
    (hd : s.strideOf w % (if w.ext.getLsbD 35 then 64 else 4) = 0)
    (ho : s.word w.a % (if w.ext.getLsbD 35 then 64 else 4) = 0)
    (hfree : s.rowsFree (s.word w.a) (s.strideOf w) (fieldOf w 70 6) (astLen w) = true) (hrows : s.RowsFit w (astLen w)) :
    exec (.ast w) s = .next (u.astWrite w (s.word w.a) (s.strideOf w)).advance := by
  have hgood : (!s.skipped w.ctl && 2 ≤ fieldOf w 82 2 && (!(s.narrowOf (fieldOf w 84 4)).valid ||
      (s.narrowOf (fieldOf w 84 4)).cw != (fieldOf w 82 2 == 2))) = false := by
    rcases hfmt with hlow | ⟨hvalid, hcw⟩
    · simp [Nat.not_le.2 hlow]
    · have : (s.narrowOf (fieldOf w 84 4)).cw = (fieldOf w 82 2 == 2) := by rw [Bool.eq_iff_iff, hcw, beq_iff_eq]
      simp [hvalid, this]
  rw [astLen] at hrows hfree
  show execAst w s = _
  simp only [execAst, hgood, tileMove_goes h hd ho hrows, hon, hfree]
  rfl

end

/-! ### ASAVE, AREST (R324) -/

theorem length_flatMap_chunks {f : Nat → List Byte} {len : Nat} (hlen : ∀ e, (f e).length = len) (n : Nat) :
    ((List.range n).flatMap f).length = len * n := by
  simp [List.length_flatMap, hlen, Nat.mul_comm]

/-- The chunks of a list made of chunks of one length. -/
theorem getD_flatMap_chunks {f : Nat → List Byte} {len : Nat} (hlen : ∀ e, (f e).length = len) {n e i : Nat} (he : e < n)
    (hi : i < len) : ((List.range n).flatMap f).getD (len * e + i) 0 = (f e).getD i 0 := by
  have hlength := length_flatMap_chunks hlen
  induction n with
  | zero => exact absurd he (Nat.not_lt_zero e)
  | succ n ih =>
    rw [List.range_succ, List.flatMap_append, List.flatMap_singleton]
    rcases Nat.lt_succ_iff_lt_or_eq.1 he with he | rfl
    · have hmul : len * (e + 1) ≤ len * n := Nat.mul_le_mul_left len he
      rw [Nat.mul_succ] at hmul
      rw [List.getD_append _ _ _ _ (by rw [hlength]; omega), ih he]
    · rw [List.getD_append_right _ _ _ _ (by rw [hlength]; omega), hlength, Nat.add_sub_cancel_left]

/-- Chunks of one length written one after another in memory: each stands at its place, and no byte outside them differs. -/
theorem homeWrite_chunks (s : State) (asid pa : Nat) (o : PageKind) {f : Nat → List Byte} {len : Nat}
    (hlen : ∀ e, (f e).length = len) (n : Nat) :
    let t := s.homeWrite asid (.mem pa o) ((List.range n).flatMap f)
    t.wefts = s.wefts ∧ t.cur = s.cur ∧ (∀ c a, mget (t.core c).spad a = mget (s.core c).spad a) ∧
      (∀ e, e < n → mread t.mem (local46 pa + len * e) len = f e) ∧
      ∀ a, a < local46 pa ∨ local46 pa + len * n ≤ a → mget t.mem a = mget s.mem a := by
  obtain ⟨hwefts, hcur, hspad, hmem⟩ := homeWrite_mem s asid pa o ((List.range n).flatMap f)
  rw [length_flatMap_chunks hlen] at hmem
  refine ⟨hwefts, hcur, hspad, fun e he => ?_, fun a ha => (hmem a).trans (if_neg (by omega))⟩
  have hmul : len * (e + 1) ≤ len * n := Nat.mul_le_mul_left len he
  rw [Nat.mul_succ] at hmul
  have hread := mread_list (s.homeWrite asid (.mem pa o) ((List.range n).flatMap f)).mem (local46 pa + len * e) (f e)
    fun i hi => ?_
  · rwa [hlen] at hread
  · rw [hlen] at hi
    rw [hmem, if_pos (by omega), Nat.add_assoc, Nat.add_sub_cancel_left, getD_flatMap_chunks hlen he hi]

/-- The bytes of element e of a tile as ASAVE writes them. -/
def State.savedElement (s : State) (w : EngW) (e : Nat) : List Byte :=
  leBytes 4 (s.element s.cur.core (fieldOf w 64 6) (e / 32) (e % 32))

/-- The tile at its page. -/
def State.saveTile (s : State) (w : EngW) : State :=
  s.homeWrite (s.agent s.key s.lead).asid (.mem (s.word w.a) .rc) ((List.range 1024).flatMap (s.savedElement w))

/-- Element e of a tile as AREST reads it. -/
def State.restoredElement (s : State) (w : EngW) (e : Nat) : W32 :=
  BitVec.ofNat 32 (leNat (s.homeGets (s.agent s.key s.lead).asid (local46 (s.word w.a) + 4 * e) 4))

/-- The page of a tile fetched. -/
def State.fetchTile (s : State) (w : EngW) : State :=
  s.fetchLines (local46 (s.word w.a)) 4096 (s.agent s.key s.lead).asid

/-- The tile from its page. -/
def State.restoreTile (s : State) (w : EngW) : State :=
  (s.fetchTile w).withElements s.cur.core
    ((List.range 1024).foldl (fun t e => put (1024 * fieldOf w 64 6 + e) (s.restoredElement w e) t)
      ((s.fetchTile w).core s.cur.core).acc)
    (clearBad (fieldOf w 64 6) 32 32 ((s.fetchTile w).core s.cur.core).accBad)

theorem fetchTile_caches (s : State) (w : EngW) : CachesOnly s (s.fetchTile w) := caches_fetchLines ..

section
variable {w : EngW} {s : State} (h : ctlHoldsU w.ctl s.cw = true) (hpriv : s.privOf s.key = true)
  (halign : s.word w.a % 4096 = 0) (hlow : s.word w.a < 2 ^ 52) (hlocal : s.isLocal (s.word w.a) = true)
  (hpop : s.populated (s.ctx (s.ctxOf s.key)).asid (local46 (s.word w.a)) 4096 = true)
  (hidle : (s.core s.cur.core).tilePending (fieldOf w 64 6) = false)
include h hpriv halign hlow hlocal hpop hidle

/-- ASAVE and AREST of a page of this device, for a tile that no entry names. -/
theorem tileSave_goes (f : Nat → State) : s.tileSave w f = f (s.word w.a) := by
  have hwaits : ((s.core s.cur.core).loomOps.any fun o => o.tile = fieldOf w 64 6 &&
      o.agent.ctx = (lookD (fieldOf w 64 6) (0 : Word) (s.core s.cur.core).acown).toNat % 2 ^ 16) = false := by
    refine List.any_eq_false.2 fun o ho hmine => List.any_eq_false.1 hidle o (List.mem_append_left _ ho) ?_
    exact (Bool.and_eq_true_iff.1 hmine).1
  simp only [State.tileSave, hpriv, skipped_eq_false h, halign, Nat.not_le.2 hlow, hlocal, hpop, hwaits]
  simp

theorem exec_asave : exec (.asave w) s = .next (s.saveTile w).advance := by
  show execAsave w s = _
  rw [execAsave, tileSave_goes h hpriv halign hlow hlocal hpop hidle]
  rfl

/-- AREST of a page without poison. -/
theorem exec_arest (hsound : ∀ b, b < 64 → look (local46 (s.word w.a) / 64 + b) s.poison = none) :
    exec (.arest w) s = .next (s.restoreTile w).advance := by
  have hbad : ((List.range 64).filter fun b => (look (local46 (s.word w.a) / 64 + b) s.poison).isSome) = [] :=
    List.filter_eq_nil_iff.2 fun b hb => by simp [hsound b (List.mem_range.1 hb)]
  have hfetched : ((s.fetchTile w).core s.cur.core).tilePending (fieldOf w 64 6) = false := by
    rw [(fetchTile_caches s w).fetch.core]
    exact hidle
  rw [State.restoreTile, ← tileWritten_withElements hfetched]
  show execArest w s = _
  simp only [execArest, tileSave_goes h hpriv halign hlow hlocal hpop hidle, hbad]
  rfl

end

/-- The tile at its page: each sound element at its place, and no byte outside the page differs. -/
theorem saveTile_spec (s : State) (w : EngW) (hidle : (s.core s.cur.core).tilePending (fieldOf w 64 6) = false) :
    let t := (s.saveTile w).advance
    t.wefts = s.advance.wefts ∧ (∀ c a, mget (t.core c).spad a = mget (s.core c).spad a) ∧
      (∀ e, e < 1024 → look (1024 * fieldOf w 64 6 + e) (s.core s.cur.core).accBad = none →
        mnum t.mem (local46 (s.word w.a) + 4 * e) 4 = (acc s s.cur.core (1024 * fieldOf w 64 6 + e)).toNat) ∧
      ∀ a, a < local46 (s.word w.a) ∨ local46 (s.word w.a) + 4096 ≤ a → mget t.mem a = mget s.mem a := by
  have hlen : ∀ e, (s.savedElement w e).length = 4 := fun e => length_leBytes ..
  obtain ⟨hwefts, hcur, hspad, hread, hout⟩ :=
    homeWrite_chunks s (s.agent s.key s.lead).asid (s.word w.a) .rc hlen 1024
  rw [State.saveTile]
  refine ⟨advance_wefts_eq hwefts hcur, fun c a => ?_, fun e he hclean => ?_, fun a ha => ?_⟩
  · rw [core_advance, hspad]
  · have hkey : accKey (fieldOf w 64 6) (e / 32) (e % 32) = 1024 * fieldOf w 64 6 + e := by unfold accKey; omega
    rw [advance_mem, mnum, hread e he, State.savedElement, leNat_leBytes, element_clean hidle (by rw [hkey]; exact hclean), hkey]
    exact Nat.mod_eq_of_lt (BitVec.isLt _)
  · rw [advance_mem, hout a ha]

/-- The tile from its page: each element is its place's, and nothing else of a tile, of memory or of a weft differs. -/
theorem restoreTile_spec (s : State) (w : EngW) :
    let t := (s.restoreTile w).advance
    SameBytes s t ∧ t.wefts = s.advance.wefts ∧ ∀ k, acc t s.cur.core k =
      if k / 1024 = fieldOf w 64 6 then s.restoredElement w (k % 1024) else acc s s.cur.core k := by
  have hcaches := fetchTile_caches s w
  have hcore := hcaches.fetch.core s.cur.core
  rw [State.restoreTile]
  generalize s.fetchTile w = t at *
  refine ⟨hcaches.bytes.trans (withElements_bytes t ..), ?_, fun k => ?_⟩
  · exact advance_wefts_eq (by rw [hcaches]; rfl) (by rw [hcaches]; rfl)
  · rw [acc_withElements, tile_elements, hcore, acc]

/-- Settles O36: the words that use a tile by what its use leaves and what they write into it or read off it, ASAVE and
AREST by the page that they write or read. -/
theorem tileWordsComplete : Obligations.TileWordsComplete := by
  intro w s h core tile o d m n fm base hidle
  refine ⟨fun hmay => ?_, fun hpriv halign hlow hlocal hpop => ⟨?_, fun hsound => ?_⟩⟩
  · obtain ⟨u, hused, hon⟩ := onTile_mayUse hmay
    refine ⟨?_, fun hd ho hfree hn hm hrows => ?_, ?_⟩
    · obtain ⟨hbytes, hwefts, howns⟩ := hused.withElements
        ((u.core s.cur.core).acc.filter fun e => !(e.1 / 1024 = fieldOf w 64 6))
        (clearBad (fieldOf w 64 6) 32 32 (u.core s.cur.core).accBad)
      refine ⟨_, exec_azero hidle hused h hon, hbytes, hwefts, howns, fun k => ?_⟩
      rw [acc_withElements, lookD, look_filter fun k => !(k / 1024 = fieldOf w 64 6)]
      by_cases hk : k / 1024 = tile
      · simp [hk, tile]
      · rw [if_neg hk, ← hused.elsewhere k hk]
        simp [hk, tile, acc, lookD]
    · have hexec := exec_ald h hon hd ho hfree hrows
      rw [aldWrite_used hidle hused] at hexec
      obtain ⟨hbytes, hwefts, howns⟩ := hused.withElements _ _
      refine ⟨_, hexec, hbytes, hwefts, howns, fun i j hi hj => ?_, fun k hk => ?_⟩
      · exact (acc_withElements ..).trans (region_elements hn hi hj (s.aldElement w o d) _)
      · rw [← hused.elements]
        exact (acc_withElements ..).trans (region_outside hk (s.aldElement w o d) _)
    · intro tagw al len f hd ho hfree hclean hfmt hrows hapart
      exact ⟨_, exec_ast h hon hfmt hd ho hfree hrows, hused.astWrite_spec hidle
        (fun i j hi hj => hclean i j hi hj hmay) _ _ hapart⟩
  · exact ⟨_, exec_asave h hpriv halign hlow hlocal hpop hidle, saveTile_spec s w hidle⟩
  · exact ⟨_, exec_arest h hpriv halign hlow hlocal hpop hidle hsound, restoreTile_spec s w⟩

end Sys2Proof.Machine
end

section
/-!
Launches and waits on grids (O38).
-/
namespace Sys2Proof.Machine
open Sys2Proof.Claims

/-- What a launch reads: the descriptor, and each of its entries (R150). -/
def State.launchReads (s : State) (w : EngW) : List (Word × Check × List Byte) :=
  (s.cw.sreg w.a.num, s.readLoad (s.cw.sreg w.a.num) 64 64) ::
    (launchParts (s.cw.sreg w.a.num) (s.readLoad (s.cw.sreg w.a.num) 64 64).2).map fun p => (p.1, s.readLoad p.1 32 p.2)

/-- The weft as a launch holds it (R329). -/
def State.launchHold (s : State) (w : EngW) (indirect : Bool) : Hold :=
  .launch indirect ((s.launchReads w).flatMap fun e => e.2.2) w.dst.num (2 * fieldOf w 64 1)

section
variable {w : EngW} {s : State} (h : ctlHoldsU w.ctl s.cw = true)
include h

/-- A launch whose reads pass, and whose release has performed, goes to the front end. -/
theorem launchIssue_goes
    (hreads : ∀ e ∈ s.launchReads w, (∃ g wk, e.2.1 = .ok g wk) ∧ s.mayRead e = true ∧ s.readTrap e = none)
    (hready : ∀ l ∈ s.lanes, s.releaseReady s.key l s.nextId 4 = true) (indirect : Bool) :
    s.launchIssue w indirect = s.advance.heldBy (s.launchHold w indirect) := by
  have hmay : (s.launchReads w).all s.mayRead = true := List.all_eq_true.2 fun e he => (hreads e he).2.1
  have htraps : (s.launchReads w).findSome? s.readTrap = none :=
    List.findSome?_eq_none_iff.2 fun e he => (hreads e he).2.2
  have hfaults : ((s.launchReads w).find? fun e => e.2.1 = .recov) = none := List.find?_eq_none.2 fun e he => by
    obtain ⟨⟨g, wk, hok⟩, -, -⟩ := hreads e he
    simp [hok]
  have hreleased : (s.lanes.all fun l => s.releaseReady s.key l s.nextId 4) = true := List.all_eq_true.2 hready
  rw [State.launchReads] at hmay htraps hfaults
  simp only [State.launchIssue, skipped_eq_false h, hmay, htraps, hfaults, hreleased]
  simp
  rfl

theorem exec_waitg_unknown (hrecent : s.recentGrid (s.gridOf s.key).tenant (s.word w.a % 2 ^ 32) = none) :
    exec (.waitg w) s = .next (s.advance.sendS w.dst 3) := by
  show execWaitg w s = _
  simp only [execWaitg, skipped_eq_false h, hrecent]
  rfl

section
variable {g : Grid} (hrecent : s.recentGrid (s.gridOf s.key).tenant (s.word w.a % 2 ^ 32) = some g)
include hrecent

theorem exec_waitg_ended {y : Nat} (hcode : gridCode g.status = some y) :
    exec (.waitg w) s = .next ((s.advance.acquireDrop s.cur.core false).sendS w.dst y) := by
  show execWaitg w s = _
  simp only [execWaitg, skipped_eq_false h, hrecent, hcode]
  rfl

theorem exec_waitg_pending (hstatus : g.status = .pending) :
    exec (.waitg w) s = .next (s.heldBy (.waitg (s.word w.a % 2 ^ 32) w.dst.num)) := by
  show execWaitg w s = _
  simp only [execWaitg, skipped_eq_false h, hrecent, hstatus]
  rfl

end
end

/-- The weft that a launch holds stands at the next word. -/
theorem heldBy_advance (s : State) (hold : Hold) : let t := s.advance.heldBy hold
    OnlyWeft { s with issuing := false } t ∧ t.cw = { s.cw with lanes := t.cw.lanes, hold := hold } ∧
      (∀ l, l ∉ s.lanes → t.cw.lane l = s.cw.lane l) ∧ ∀ l ∈ s.lanes, Passed s (s.cw.lane l) (t.cw.lane l) := by
  obtain ⟨⟨honly, hcw, hother⟩, hpassed⟩ := advance_spec s
  have hlane : ∀ l, (s.advance.heldBy hold).cw.lane l = s.advance.cw.lane l := fun l => by
    rw [heldBy_cw]
    rfl
  refine ⟨honly.heldBy hold, ?_, fun l hl => (hlane l).trans (hother l hl), fun l hl => (hlane l).symm ▸ hpassed l hl⟩
  rw [heldBy_cw, hcw]

/-- The outcome of a grid that has ended, sent as an acquire (R330). -/
theorem acquired_sendS (s : State) (n : Fin 128) (y : Nat) :
    let t := (s.advance.acquireDrop s.cur.core false).sendS (.s n) y
    SameBytes s t ∧ Fresh s t ∧ (∀ m, t.cw.sreg m = if m = n then BitVec.ofNat 64 y else s.cw.sreg m) ∧
      ∀ l ∈ s.lanes, Passed s (s.cw.lane l) (t.cw.lane l) := by
  obtain ⟨-, -, hreg, -, hpassed⟩ := advance_sendS s n y
  exact ⟨(acquireDrop_quiet s.advance s.cur.core false).1, fresh_acquireDrop s, hreg, hpassed⟩

theorem gridCode_of {g : GridStatus} {y : Nat} (h : (g, y) = (.done, 0) ∨ (g, y) = (.refused, 1) ∨ (g, y) = (.failed, 2)) :
    gridCode g = some y := by
  rcases h with h | h | h <;> cases h <;> rfl

/-- Settles O38: a launch by what it reads and the hold that it leaves, WAITG by the grid's status. -/
theorem launchesComplete : Obligations.LaunchesComplete := by
  constructor
  · intro w s h va d all hreads hready i indirect hi
    have hgoes := launchIssue_goes h hreads hready indirect
    refine ⟨s.advance.heldBy (s.launchHold w indirect), ?_, heldBy_advance s _⟩
    rcases hi with hi | hi <;> cases hi <;> exact congrArg _ hgoes
  · intro w s n h hdst handle r
    refine ⟨fun hnone => ⟨_, exec_waitg_unknown h hnone, hdst ▸ advance_sendS s n 3⟩,
      fun g hsome => ⟨fun y hy => ?_, fun hpending => ?_⟩⟩
    · exact ⟨_, exec_waitg_ended h hsome (gridCode_of hy), hdst ▸ acquired_sendS s n y⟩
    · refine ⟨_, exec_waitg_pending h hsome hpending, heldBy_only .., ?_⟩
      rw [heldBy_cw, hdst]
      rfl

end Sys2Proof.Machine
end

section
/-!
Words of system software (O39).
-/
namespace Sys2Proof.Machine
open Sys2Proof.Claims

/-! ### FRESUME (R331) -/

/-- The hub knows an entry of this number, and no FRESUME has named it. -/
def State.knowsEntry (s : State) (tenant seq : Nat) : Prop :=
  (∃ e ∈ (s.tenant tenant).faults, e.2.seq = seq) ∧ seq ∉ (s.tenant tenant).fresumes

/-- The entry's slot is free, and it is listed for resumption. -/
def Tenant.resuming (t : Tenant) (seq : Nat) : Tenant :=
  { t with fresumes := t.fresumes ++ [seq], slots := t.slots.filter (· ≠ seq) }

theorem acceptFresume_resumable {s : State} {tenant seq : Nat} (h : s.knowsEntry tenant seq) :
    s.acceptFresume tenant seq = s.mapTenant tenant fun t => t.resuming seq := by
  obtain ⟨⟨e, he, hseq⟩, hnew⟩ := h
  have hknown : ((s.tenant tenant).faults.any fun e => e.2.seq = seq) = true :=
    List.any_eq_true.2 ⟨e, he, by simpa using hseq⟩
  simp [State.acceptFresume, hknown, hnew, Tenant.resuming, bne, beq_eq_decide]

theorem acceptFresume_unknown {s : State} {tenant seq : Nat} (h : ¬s.knowsEntry tenant seq) :
    s.acceptFresume tenant seq = s := by
  refine if_neg fun hknown => h ?_
  simpa [State.knowsEntry] using hknown

theorem exec_fresume {w : EngW} {s : State} (h : ctlHoldsU w.ctl s.cw = true) (hpriv : s.privOf s.key = true)
    (hready : ∀ l ∈ s.lanes, s.releaseReady s.key l s.nextId 4 = true) :
    exec (.fresume w) s = .next (s.advance.acceptFresume (s.gridOf s.key).tenant (s.word w.a % 2 ^ 32)) := by
  have hreleased : (s.lanes.all fun l => s.releaseReady s.key l s.nextId 4) = true := List.all_eq_true.2 hready
  show execFresume w s = _
  simp only [execFresume, hpriv, skipped_eq_false h, hreleased]
  rfl

/-! ### GENBUMP (R332) -/

/-- The register that a GENBUMP's answer goes to. -/
def bumpDst : Dst → Option Nat
  | .s n => some n.val
  | _ => none

theorem bumpDst_none {d : Dst} (h : ∀ n, d ≠ .s n) : bumpDst d = none := by
  cases d with
  | s n => exact absurd rfl (h n)
  | _ => rfl

theorem exec_genbump {w : EngW} {s : State} (h : ctlHoldsU w.ctl s.cw = true) (hpriv : s.privOf s.key = true)
    (hlow : s.word w.a ≤ 255) (hvalid : (s.asidWord (s.word w.a) 0).getLsbD 0 = true)
    (hidle : ∀ b ∈ s.bumps, b.asid ≠ s.word w.a)
    (hdone : ∀ l ∈ s.lanes, s.olderDone s.key l s.nextId true true = true) (hwritten : s.written s.cur.core true = true) :
    exec (.genbump w) s = .next (s.advance.startBump (s.word w.a) (bumpDst w.dst)) := by
  have hbumps : (s.bumps.any fun b => b.asid = s.word w.a) = false :=
    List.any_eq_false.2 fun b hb => by simpa using hidle b hb
  have hall : (s.lanes.all fun l => s.olderDone s.key l s.nextId true true && s.written s.cur.core true) = true :=
    List.all_eq_true.2 fun l hl => by rw [hdone l hl, hwritten]; rfl
  show execGenbump w s = _
  simp only [execGenbump, hpriv, skipped_eq_false h, hvalid, hbumps, hall, Nat.not_lt.2 hlow]
  rfl

/-- The new value of GEN stands in the table, the GENBUMP is under way, and its weft is held (R37). -/
theorem startBump_spec (s : State) (asid : Nat) (dst : Option Nat) :
    let t := s.startBump asid dst
    let pa := local46 (s.mgmt 0x08 + 16 * asid + 8)
    mnum t.mem pa 2 = (s.tableGen asid + 1) % 2 ^ 16 ∧ (∀ x, x < pa ∨ pa + 2 ≤ x → mget t.mem x = mget s.mem x) ∧
      t.bumps = s.bumps ++ [⟨asid, s.tableGen asid, [], []⟩] ∧ t.issuing = false ∧ t.cw.hold = .genbump asid dst := by
  obtain ⟨hread, hout⟩ := wrote_wr (s := s) (t := s.startBump asid dst) (pa := s.mgmt 0x08 + 16 * asid + 8)
    (bs := leBytes 2 ((s.tableGen asid + 1) % 2 ^ 16)) rfl
  rw [length_leBytes] at hread hout
  refine ⟨?_, hout, rfl, rfl, ?_⟩
  · rw [mnum, hread, leNat_leBytes]
    exact Nat.mod_mod _ _
  · have hcw : (s.startBump asid dst).cw = { s.cw with hold := .genbump asid dst } :=
      weft_mapWeft_same _ s.key fun z => { z with hold := .genbump asid dst }
    rw [hcw]

/-! ### TLBINV (R333) -/

theorem forget_only (c : Core) (asid : Nat) :
    c.forget asid = { c with tlb := (c.forget asid).tlb, walkc := (c.forget asid).walkc } := rfl

theorem mem_forget_tlb {c : Core} {asid : Nat} {e : TlbEntry} :
    e ∈ (c.forget asid).tlb ↔ e ∈ c.tlb ∧ asid ≠ 256 ∧ e.asid ≠ asid := by
  simp [Core.forget]

theorem mem_forget_walkc {c : Core} {asid : Nat} {e : WalkEntry} :
    e ∈ (c.forget asid).walkc ↔ e ∈ c.walkc ∧ asid ≠ 256 ∧ e.asid ≠ asid := by
  simp [Core.forget]

/-- Entries of an ASID leave one core, or all of them. -/
def State.forgetAt (s : State) (asid : Nat) (one : Prop) [Decidable one] : State :=
  if one then s.mapCore s.cur.core fun c => c.forget asid else { s with cores := s.cores.map fun e => (e.1, e.2.forget asid) }

theorem forgetAt_only (s : State) (asid : Nat) (one : Prop) [Decidable one] :
    s.forgetAt asid one = { s with cores := (s.forgetAt asid one).cores } := by
  unfold State.forgetAt
  split <;> rfl

theorem forgetAt_core (s : State) (asid : Nat) (one : Prop) [Decidable one] (c : Nat) :
    (s.forgetAt asid one).core c = if one ∧ c ≠ s.cur.core then s.core c else (s.core c).forget asid := by
  unfold State.forgetAt
  by_cases hone : one
  · rw [if_pos hone, core_mapCore]
    by_cases hc : c = s.cur.core
    · rw [if_pos hc, if_neg fun h => h.2 hc, hc]
    · rw [if_neg hc, if_pos ⟨hone, hc⟩]
  · rw [if_neg hone, if_neg fun h => hone h.1]
    exact lookD_map (g := fun c => c.forget asid) (d := {}) (fun _ => rfl) rfl c s.cores

theorem forgetAt_bytes (s : State) (asid : Nat) (one : Prop) [Decidable one] : SameBytes s (s.forgetAt asid one) := by
  refine ⟨fun a => ?_, fun c a => ?_⟩
  · rw [forgetAt_only]
  · rw [forgetAt_core]
    split <;> rfl

theorem exec_tlbinv {w : EngW} {s : State} (h : ctlHoldsU w.ctl s.cw = true) (hpriv : s.privOf s.key = true)
    (hlow : s.word w.a ≤ 256) :
    exec (.tlbinv w) s = .next (s.advance.forgetAt (s.word w.a) (fieldOf w 104 3 = 2)) := by
  show execTlbinv w s = _
  simp only [execTlbinv, hpriv, skipped_eq_false h, Nat.not_lt.2 hlow, State.forgetAt]
  simp

/-! ### SNAP (R187, R335) -/

theorem errorRecord_wefts (s : State) (ty tenant level core detail addr aux : Nat) :
    (s.errorRecord ty tenant level core detail addr aux).wefts = s.wefts := by
  unfold State.errorRecord State.interrupt
  dsimp only
  split <;> rfl

theorem exec_snap {w : EngW} {s : State} (h : ctlHoldsU w.ctl s.cw = true) (hpriv : s.privOf s.key = true) :
    exec (.snap w) s = .next s.advance.snapTrigger := by
  show execSnap w s = _
  simp only [execSnap, hpriv, skipped_eq_false h]
  rfl

theorem snapTrigger_first {s : State} (h : s.hub.snapHeld = false) : s.snapTrigger =
    { s with hub := { s.hub with snapHeld := true, snapTrig := true, snapLatched := [] } } := by
  rw [State.snapTrigger, h]
  rfl

theorem snapTrigger_wefts (s : State) : s.snapTrigger.wefts = s.wefts := by
  unfold State.snapTrigger
  split
  · exact errorRecord_wefts ..
  · rfl

/-- A trigger while a set is held is counted, and the set stays. -/
theorem snapTrigger_held {s : State} (h : s.hub.snapHeld = true) :
    s.snapTrigger.hub.snapCnt = s.hub.snapCnt + 1 ∧ s.snapTrigger.hub.snapLatched = s.hub.snapLatched := by
  rw [State.snapTrigger, if_pos h, State.errorRecord, interrupt_hub]
  exact ⟨rfl, rfl⟩

/-! ### HALT (R177, R335) -/

/-- A weft in handler mode meets the stop when it leaves it (R178). -/
def Weft.askHalt (w : Weft) : Weft := if w.hmode then { w with haltPend := true } else w

theorem askHalt_idem (w : Weft) : w.askHalt.askHalt = w.askHalt := by
  unfold Weft.askHalt
  split <;> simp [*]

theorem askHalt_haltPend (w : Weft) : w.askHalt.haltPend = (w.haltPend || w.hmode) := by
  unfold Weft.askHalt
  split <;> simp [*]

/-- A change of each weft of a list that a second time is none. -/
theorem weft_foldl_mapWeft {f : Weft → Weft} (hf : ∀ w, f (f w) = f w) (ks : List Nat) (s : State) (k : Nat) :
    (ks.foldl (fun s k => s.mapWeft k f) s).weft k = if k ∈ ks then f (s.weft k) else s.weft k := by
  induction ks generalizing s with
  | nil => rfl
  | cons j ks ih =>
    rw [List.foldl_cons, ih]
    by_cases hkj : k = j
    · subst hkj
      simp [hf]
    · simp [hkj, weft_mapWeft_other f hkj]

/-- A change of each weft of a list leaves the rest of the state. -/
theorem foldl_mapWeft_rest (f : Weft → Weft) (ks : List Nat) (s : State) :
    let t := ks.foldl (fun s k => s.mapWeft k f) s
    t.mem = s.mem ∧ t.cores = s.cores ∧ t.teams = s.teams := by
  induction ks generalizing s with
  | nil => exact ⟨rfl, rfl, rfl⟩
  | cons k ks ih => exact ih _

/-- The stop asked of a team. -/
def Team.askedStop (f : StopReq → StopReq) (t : Team) : Team :=
  { t with stop := f t.stop, life := if t.life = .running then .stopping else t.life }

theorem askStop_eq (s : State) (n : Nat) (f : StopReq → StopReq) :
    s.askStop n f = (s.team n).wefts.foldl (fun s k => s.mapWeft k Weft.askHalt) (s.mapTeam n (Team.askedStop f)) := rfl

theorem askStop_team (s : State) (n : Nat) (f : StopReq → StopReq) :
    (s.askStop n f).team n = (s.team n).askedStop f := by
  obtain ⟨-, -, hteams⟩ := foldl_mapWeft_rest Weft.askHalt (s.team n).wefts (s.mapTeam n (Team.askedStop f))
  rw [State.team, askStop_eq, hteams]
  exact team_mapTeam_same s n _

theorem askStop_bytes (s : State) (n : Nat) (f : StopReq → StopReq) : SameBytes s (s.askStop n f) := by
  obtain ⟨hmem, hcores, -⟩ := foldl_mapWeft_rest Weft.askHalt (s.team n).wefts (s.mapTeam n (Team.askedStop f))
  rw [askStop_eq]
  unfold SameBytes State.core
  rw [hmem, hcores]
  exact ⟨fun _ => rfl, fun _ _ => rfl⟩

/-- The wefts of the team that are in handler mode have HALTPEND. -/
theorem askStop_weft (s : State) (n : Nat) (f : StopReq → StopReq) {k : Nat} (hk : k ∈ (s.team n).wefts) :
    (s.askStop n f).weft k = (s.weft k).askHalt := by
  rw [askStop_eq, weft_foldl_mapWeft askHalt_idem, if_pos hk]
  rfl

/-- What passing on leaves unchanged in each weft: all but its lanes. -/
theorem weft_advance_part {β : Type} (g : Weft → β) (hg : ∀ (w : Weft) (L : Tab Lane), g { w with lanes := L } = g w)
    (s : State) (k : Nat) : g (s.advance.weft k) = g (s.weft k) :=
  weft_mapWeft_part g (f := fun z => z.eachLane s.lanes fun _ x => { x with pc := s.nextVa }) (fun z => hg z _) s s.key k

theorem exec_halt {w : EngW} {s : State} (h : ctlHoldsU w.ctl s.cw = true) :
    exec (.halt w) s = .next (s.advance.askStop s.cw.team fun r => { r with halt := true }) := by
  show execHalt w s = _
  simp only [execHalt, skipped_eq_false h]
  rfl

/-! ### The obligation -/

/-- Settles O39: each word's step is computed by its `exec_` equation, whose right side the lemmas of this section
describe. -/
theorem systemWordsComplete : Obligations.SystemWordsComplete := by
  unfold Obligations.SystemWordsComplete
  intro w s h
  refine ⟨fun hpriv => ⟨?_, ?_, ?_, ?_⟩, ?_⟩
  · intro hready n q known
    refine ⟨_, exec_fresume h hpriv hready, ?_⟩
    by_cases hknown : s.advance.knowsEntry n q
    · rw [acceptFresume_resumable hknown]
      exact ⟨⟨fun _ => rfl, fun _ _ => rfl⟩, rfl, fun _ => tenant_mapTenant_same s.advance n _,
        fun hno => absurd hknown hno, fun m hm => tenant_mapTenant_other _ hm⟩
    · rw [acceptFresume_unknown hknown]
      exact ⟨⟨fun _ => rfl, fun _ _ => rfl⟩, rfl, fun hyes => absurd hyes hknown, fun _ => rfl, fun _ _ => rfl⟩
  · intro a at' hlow hvalid hidle hdone hwritten
    obtain ⟨hread, hout, hbumps, hissuing, hhold⟩ := startBump_spec s.advance a (bumpDst w.dst)
    refine ⟨_, exec_genbump h hpriv hlow hvalid hidle hdone hwritten, hread, hout, hbumps, hissuing, ?_, ?_⟩
    · intro n hdst
      rw [hhold, hdst]
      rfl
    · intro hdst
      rw [hhold, bumpDst_none hdst]
  · intro a hlow
    refine ⟨_, exec_tlbinv h hpriv hlow, forgetAt_bytes .., ?_, fun c => ?_⟩
    · rw [forgetAt_only]
    · rw [forgetAt_core]
      by_cases hc : fieldOf w 104 3 = 2 ∧ c ≠ s.cur.core
      · rw [if_pos (c := fieldOf w 104 3 = 2 ∧ c ≠ s.advance.cur.core) hc, if_pos hc]
        exact ⟨rfl, rfl⟩
      · rw [if_neg (c := fieldOf w 104 3 = 2 ∧ c ≠ s.advance.cur.core) hc, if_neg hc]
        exact ⟨forget_only .., fun _ => mem_forget_tlb, fun _ => mem_forget_walkc⟩
  · refine ⟨_, exec_snap h hpriv, snapTrigger_wefts _, fun hfirst => ?_, fun hheld => ?_⟩
    · rw [snapTrigger_first (s := s.advance) hfirst]
      exact ⟨⟨fun _ => rfl, fun _ _ => rfl⟩, rfl⟩
    · exact snapTrigger_held (s := s.advance) hheld
  · refine ⟨_, exec_halt h, askStop_bytes .., askStop_team .., fun k hk => ?_⟩
    have hpend : (s.advance.weft k).haltPend = (s.weft k).haltPend := weft_advance_part Weft.haltPend (fun _ _ => rfl) s k
    have hmode : (s.advance.weft k).hmode = (s.weft k).hmode := weft_advance_part Weft.hmode (fun _ _ => rfl) s k
    rw [askStop_weft s.advance _ _ hk, askHalt_haltPend, hpend, hmode]

end Sys2Proof.Machine
end

section
/-!
The state of other wefts of the team (O40).
-/
namespace Sys2Proof.Machine
open Sys2Proof.Claims

/-! ### WRD and WWR -/

/-- In handler mode, with a weft of the team and a selector of the table, the access is made. -/
theorem otherWeft_eq {w : EngW} {s : State} {k : Nat} {write : Bool} (f : Nat → Nat → State)
    (h : ctlHoldsU w.ctl s.cw = true) (hmode : s.cw.hmode = true) (hweft : s.teamWeft (s.word w.a) = some k)
    (hsel : selBad (s.word w.b) (s.weft k).width write = false) : s.otherWeft w write f = f k (s.word w.b) := by
  simp [State.otherWeft, hmode, skipped_eq_false h, hweft, hsel]

theorem exec_wrd {w : EngW} {s : State} {k : Nat} (h : ctlHoldsU w.ctl s.cw = true) (hmode : s.cw.hmode = true)
    (hweft : s.teamWeft (s.word w.a) = some k) (hfree : s.selPending k (s.word w.b) = none)
    (hsel : selBad (s.word w.b) (s.weft k).width false = false) :
    exec (.wrd w) s = .next (s.advance.sendS w.dst (s.selRead k (s.word w.b))) := by
  show execWrd w s = _
  rw [execWrd, otherWeft_eq _ h hmode hweft hsel, hfree]

theorem exec_wwr {w : EngW} {s : State} {k : Nat} (h : ctlHoldsU w.ctl s.cw = true) (hmode : s.cw.hmode = true)
    (hweft : s.teamWeft (s.word w.a) = some k) (hfree : s.selPending k (s.word w.b) = none)
    (hsel : selBad (s.word w.b) (s.weft k).width true = false)
    (htag : selClass (s.word w.b) = 2 →
      ((s.weft k).lane (selLane (s.word w.b))).tBusy (selNum (s.word w.b)) = false) :
    exec (.wwr w) s = .next (s.advance.mapWeft k fun z => z.selWrite (s.word w.b) (s.cw.sreg w.dst.num)) := by
  have hbusy : ((s.selPending k (s.word w.b)).isSome || (selClass (s.word w.b) = 2 &&
      ((s.weft k).lane (selLane (s.word w.b))).tBusy (selNum (s.word w.b)))) = false := by
    simpa [hfree] using htag
  show execWwr w s = _
  rw [execWwr, otherWeft_eq _ h hmode hweft hsel, hbusy]
  rfl

/-! ### What has been written is read back -/

theorem selNum_le {x width : Nat} {write : Bool} (h : selBad x width write = false) : selNum x ≤ selMax (selClass x) := by
  simp only [selBad, Bool.or_eq_false_iff, decide_eq_false_iff_not, not_lt] at h
  obtain ⟨⟨⟨⟨-, hnum⟩, -⟩, -⟩, -⟩ := h
  exact hnum

theorem toNat_getLsbD_zero (v : Word) : (v.getLsbD 0).toNat = v.toNat % 2 := by
  rw [BitVec.getLsbD, Nat.toNat_testBit, pow_zero, Nat.div_one]

/-- A v register holds a value of type ui32, for which one register is enough. -/
theorem v_writeV_ui32 (c n y : Nat) (x : Lane) : (writeV c n 5 y x).v c n = BitVec.ofNat 32 y := by
  have hwrite : writeV c n 5 y x = (x.setV c n (BitVec.ofNat 32 (y % 2 ^ 32))).clearMark n := rfl
  rw [hwrite]
  refine (v_setV_same x c n _).trans ?_
  exact BitVec.eq_of_toNat_eq (by simp)

section
variable (s : State) (k x : Nat) (v : Word)

theorem selRead_selWrite_v (h : selClass x = 0) :
    (s.mapWeft k fun z => z.selWrite x v).selRead k x = v.toNat % 2 ^ 32 := by
  simp only [State.selRead, weft_mapWeft_same, Weft.selWrite, h, lane_setLane_same]
  refine (congrArg BitVec.toNat (v_writeV_ui32 ..)).trans ?_
  rw [BitVec.toNat_ofNat, Nat.mod_mod]

theorem selRead_selWrite_s (h : selClass x = 1) :
    (s.mapWeft k fun z => z.selWrite x v).selRead k x = v.toNat := by
  simp only [State.selRead, weft_mapWeft_same, Weft.selWrite, h]
  exact congrArg BitVec.toNat (sreg_setS_same ..)

theorem selRead_selWrite_pc (h : selClass x = 7) :
    (s.mapWeft k fun z => z.selWrite x v).selRead k x = v.toNat := by
  simp only [State.selRead, weft_mapWeft_same, Weft.selWrite, h, lane_setLane_same]

theorem selRead_selWrite_meet (h : selClass x = 8) :
    (s.mapWeft k fun z => z.selWrite x v).selRead k x = v.toNat := by
  simp only [State.selRead, weft_mapWeft_same, Weft.selWrite, h, lane_setLane_same]

theorem selRead_selWrite_p (h : selClass x = 3) (hn : selNum x < 8) :
    (s.mapWeft k fun z => z.selWrite x v).selRead k x = v.toNat % 2 := by
  simp only [State.selRead, weft_mapWeft_same, Weft.selWrite, h, lane_setLane_same]
  rw [pred_setP _ _ _ _ hn, if_pos rfl, toNat_getLsbD_zero]

theorem selRead_selWrite_z (h : selClass x = 6) (hn : selNum x < 4) :
    (s.mapWeft k fun z => z.selWrite x v).selRead k x = v.toNat % 2 := by
  simp only [State.selRead, weft_mapWeft_same, Weft.selWrite, h]
  refine (congrArg Bool.toNat (zreg_setZ _ _ _ _ hn)).trans ?_
  rw [if_pos rfl, toNat_getLsbD_zero]

end

/-! ### The obligation -/

/-- Settles O40: the accesses of a weft and a selector that pass the checks, and one read-back lemma per class. -/
theorem otherWeftsComplete : Obligations.OtherWeftsComplete := by
  unfold Obligations.OtherWeftsComplete
  refine ⟨?_, ?_⟩
  · intro w s k h hmode hweft x hfree
    refine ⟨fun n hdst hsel => ⟨_, exec_wrd h hmode hweft hfree hsel, ?_⟩, fun hsel htag =>
      ⟨_, exec_wwr h hmode hweft hfree hsel htag, ⟨fun _ => rfl, fun _ _ => rfl⟩, weft_mapWeft_same .., fun j hj =>
        weft_mapWeft_other _ hj⟩⟩
    rw [hdst]
    exact advance_sendS s n _
  · intro s k x v hsel t
    have hn : selNum x ≤ selMax (selClass x) := selNum_le hsel
    refine ⟨fun h _ => selRead_selWrite_v s k x v h, ?_, ?_⟩
    · rintro (h | h | h)
      · exact selRead_selWrite_s s k x v h
      · exact selRead_selWrite_pc s k x v h
      · exact selRead_selWrite_meet s k x v h
    · rintro (h | h)
      · rw [h] at hn
        exact selRead_selWrite_p s k x v h (Nat.lt_succ_of_le hn)
      · rw [h] at hn
        exact selRead_selWrite_z s k x v h (Nat.lt_succ_of_le hn)

end Sys2Proof.Machine
end
